-- ==== Sys2Proof/Word.lean ====
section
/-! DEFINITION. The word types of the Kalyth 8V model and the finite map that every register file,
table and memory of `State` is built on. A map is a list of (key, value) pairs with strictly rising
keys and no entry equal to the default, so that equal maps are equal lists. -/

namespace Sys2Proof

/-- One byte of any store of the module (R1). -/
abbrev Byte := BitVec 8

/-- A 64-bit register or device word (R127, R353). -/
abbrev Word := BitVec 64

/-- One lane of a vector register (R178). -/
abbrev Lane := BitVec 32

/-- A finite map from natural numbers, sorted by key, holding no entry equal to its default. -/
abbrev FMap (α : Type) := List (Nat × α)

namespace FMap

variable {α : Type}

/-- The value at `k`, or the default `d` where `k` is not listed. -/
def get (d : α) (m : FMap α) (k : Nat) : α :=
  match m with
  | [] => d
  | (j, v) :: rest => if j = k then v else get d rest k

/-- The value listed at `k`, if one is. -/
def find? (m : FMap α) (k : Nat) : Option α :=
  match m with
  | [] => none
  | (j, v) :: rest => if j = k then some v else find? rest k

/-- The map without key `k`. -/
def erase (m : FMap α) (k : Nat) : FMap α :=
  match m with
  | [] => []
  | (j, v) :: rest => if j = k then erase rest k else (j, v) :: erase rest k

/-- The map with `v` at `k`, in key order. -/
def insert (m : FMap α) (k : Nat) (v : α) : FMap α :=
  match m with
  | [] => [(k, v)]
  | (j, w) :: rest =>
    if j < k then (j, w) :: insert rest k v
    else if j = k then (k, v) :: rest
    else (k, v) :: (j, w) :: rest

/-- The map that reads `v` at `k`: writing the default removes the entry. -/
def put [DecidableEq α] (d : α) (m : FMap α) (k : Nat) (v : α) : FMap α :=
  if v = d then erase m k else insert m k v

/-- The map with the value at `k` changed by `f`. -/
def modify [DecidableEq α] (d : α) (m : FMap α) (k : Nat) (f : α → α) : FMap α :=
  put d m k (f (get d m k))

/-- The keys, rising. -/
def keys (m : FMap α) : List Nat := m.map (·.1)

/-- Keys rise strictly. -/
def sorted (m : FMap α) : Bool :=
  match m with
  | [] => true
  | [_] => true
  | (j, _) :: (k, w) :: rest => decide (j < k) && sorted ((k, w) :: rest)

/-- The canonical form: keys rise strictly and no entry equals the default. -/
def wf [DecidableEq α] (d : α) (m : FMap α) : Bool :=
  sorted m && m.all (fun e => decide (e.2 ≠ d))

end FMap

end Sys2Proof
end

