-- ==== Sys2Proof/Machine/Num.lean ====
section
/-! DEFINITION. Number formats and exact arithmetic (R25 to R41, R59): the value a bit pattern stands for,
sums, products and quotients formed exactly, comparisons, saturation and requantisation. Every finite value
of the module's formats is a dyadic rational; quotients are kept as exact fractions until they are rounded
(Flags.lean). -/

namespace Sys2Proof.Machine

/-- A value as the formats of R25 give it: a NaN (signalling or quiet), an infinity, a signed zero, or the
nonzero number (-1)^neg · num / den · 2^exp with num, den > 0. -/
inductive FVal where
  | nan (signalling : Bool)
  | inf (neg : Bool)
  | zero (neg : Bool)
  | fin (neg : Bool) (num den : Nat) (exp : Int)
deriving DecidableEq, Repr

/-- Rounding modes (R42). -/
inductive Rm where
  | rne | rtz | rdn | rup
deriving DecidableEq, Repr

/-- The formats of R25, by type code. -/
inductive Ty where
  | fp32 | bf16 | fp16 | e4m3 | e5m2 | e2m1 | dp8 | e8m0 | int8 | uint8 | int16 | int32 | uint32 | xf40 | trit5
deriving DecidableEq, Repr

/-- The rounding mode of a 2-bit `rm` field (R42). -/
def rmOf (b : BitVec 2) : Rm :=
  match b.toNat with
  | 0 => .rne
  | 1 => .rtz
  | 2 => .rdn
  | _ => .rup

/-- The format a type code names; 15 is reserved (R25). -/
def tyOf (n : Nat) : Option Ty :=
  match n with
  | 0 => some .fp32
  | 1 => some .bf16
  | 2 => some .fp16
  | 3 => some .e4m3
  | 4 => some .e5m2
  | 5 => some .e2m1
  | 6 => some .dp8
  | 7 => some .e8m0
  | 8 => some .int8
  | 9 => some .uint8
  | 10 => some .int16
  | 11 => some .int32
  | 12 => some .uint32
  | 13 => some .xf40
  | 14 => some .trit5
  | _ => none

/-- The code of a format (R25). -/
def tyCode (t : Ty) : Nat :=
  match t with
  | .fp32 => 0 | .bf16 => 1 | .fp16 => 2 | .e4m3 => 3 | .e5m2 => 4 | .e2m1 => 5 | .dp8 => 6 | .e8m0 => 7
  | .int8 => 8 | .uint8 => 9 | .int16 => 10 | .int32 => 11 | .uint32 => 12 | .xf40 => 13 | .trit5 => 14

/-- Element width in bits (R25); an XF40 element fills a 64-bit container (R26). -/
def tyWidth (t : Ty) : Nat :=
  match t with
  | .fp32 | .int32 | .uint32 => 32
  | .bf16 | .fp16 | .int16 => 16
  | .e4m3 | .e5m2 | .dp8 | .e8m0 | .int8 | .uint8 | .trit5 => 8
  | .e2m1 => 4
  | .xf40 => 64

/-- The integer formats (R38). -/
def tyIsInt (t : Ty) : Bool :=
  match t with
  | .int8 | .uint8 | .int16 | .int32 | .uint32 => true
  | _ => false

/-- The integer formats whose values may be negative (R38). -/
def tySigned (t : Ty) : Bool :=
  match t with
  | .int8 | .int16 | .int32 => true
  | _ => false

/-- The three IEEE formats that the vector slot's "fp" names (R183). -/
def tyIsFp (t : Ty) : Bool :=
  match t with
  | .fp32 | .bf16 | .fp16 => true
  | _ => false

/-- How a floating-point format spends its largest exponent (R27, R30, R31). -/
inductive TopExp where
  /-- infinities and NaNs -/
  | ieee
  /-- one NaN pattern per sign, no infinity -/
  | oneNan
  /-- ordinary values only -/
  | ordinary
deriving DecidableEq, Repr

/-- The layout of a floating-point format (R27, R30, R31, R35). -/
structure FloatFmt where
  ebits : Nat
  fbits : Nat
  bias : Nat
  top : TopExp
  /-- no subnormals: exponent 0 is a zero and tiny results are flushed (R37) -/
  flush : Bool
deriving DecidableEq, Repr

/-- The layout of a floating-point type; `none` for the others. -/
def floatFmt (t : Ty) : Option FloatFmt :=
  match t with
  | .fp32 => some ⟨8, 23, 127, .ieee, false⟩
  | .bf16 => some ⟨8, 7, 127, .ieee, false⟩
  | .fp16 => some ⟨5, 10, 15, .ieee, false⟩
  | .e4m3 => some ⟨4, 3, 7, .oneNan, false⟩
  | .e5m2 => some ⟨5, 2, 15, .ieee, false⟩
  | .e2m1 => some ⟨2, 1, 1, .ordinary, false⟩
  | .xf40 => some ⟨16, 23, 32767, .ieee, true⟩
  | _ => none

/-- The exponent of the least significant bit of a subnormal, or of the smallest normal binade. -/
def FloatFmt.qmin (f : FloatFmt) : Int := 1 - (f.bias : Int) - f.fbits

/-- Sign, exponent and fraction of a bit pattern, read as a value (R27, R30, R31, R35). -/
def decodeFloat (f : FloatFmt) (bits : Nat) : FVal :=
  let frac := bits % 2 ^ f.fbits
  let e := bits / 2 ^ f.fbits % 2 ^ f.ebits
  let neg := bits / 2 ^ (f.fbits + f.ebits) % 2 == 1
  let emax := 2 ^ f.ebits - 1
  if e = emax ∧ f.top = .ieee then
    if frac = 0 then .inf neg else .nan (frac / 2 ^ (f.fbits - 1) % 2 == 0)
  else if e = emax ∧ f.top = .oneNan ∧ frac = 2 ^ f.fbits - 1 then .nan false
  else if e = 0 then
    if frac = 0 ∨ f.flush then .zero neg else .fin neg frac 1 f.qmin
  else .fin neg (2 ^ f.fbits + frac) 1 ((e : Int) - 1 + f.qmin)

/-- The value n, with zero as +0. -/
def ofInt (n : Int) : FVal :=
  if n = 0 then .zero false else .fin (n < 0) n.natAbs 1 0

/-- (-1)^neg · 2^(-k), or zero for k = 7, as an integer multiple of 2^-6 (R34). -/
def dp8Term (neg : Bool) (k : Nat) : Int :=
  if k = 7 then 0 else if neg then -(2 ^ (6 - k) : Int) else 2 ^ (6 - k)

/-- The value of a DP8 byte, unscaled; zero is +0 (R34). -/
def decodeDp8 (b : Nat) : FVal :=
  let n := dp8Term (b / 128 % 2 == 1) (b / 16 % 8) + dp8Term (b / 8 % 2 == 1) (b % 8)
  if n = 0 then .zero false else .fin (n < 0) n.natAbs 1 (-6)

/-- The value of an E8M0 byte (R32). -/
def decodeE8m0 (b : Nat) : FVal :=
  if b % 256 = 255 then .nan false else .fin false 1 1 ((b % 256 : Nat) - 127)

/-- The integer a pattern of width w stands for, signed or not (R38). -/
def intOf (signed : Bool) (w bits : Nat) : Int :=
  let v := bits % 2 ^ w
  if signed ∧ 2 ^ (w - 1) ≤ v then (v : Int) - 2 ^ w else v

/-- The value of an element of type t in lane form (R25 to R38, R178). TRIT5 bytes are read by `tritOf`. -/
def decode (t : Ty) (bits : Nat) : FVal :=
  match floatFmt t with
  | some f => decodeFloat f bits
  | none =>
    match t with
    | .dp8 => decodeDp8 bits
    | .e8m0 => decodeE8m0 bits
    | _ => ofInt (intOf (tySigned t) (tyWidth t) bits)

/-- Digit i of a TRIT5 byte as a trit, by the quotients of R40; bytes 243 to 255 give the digits of
b − 243 (R41). -/
def tritOf (b i : Nat) : Int :=
  match (b / 3 ^ i - 3 * (b / 3 ^ (i + 1))) % 3 with
  | 0 => 0
  | 1 => 1
  | _ => -1

/-- Bytes that are not TRIT5 values: q[5] = 1 (R41). -/
def tritBad (b : Nat) : Bool := decide (243 ≤ b)

/-! ## Exact arithmetic -/

/-- Is the value a NaN? -/
def FVal.isNan (v : FVal) : Bool :=
  match v with
  | .nan _ => true
  | _ => false

/-- Is the value a signalling NaN? -/
def FVal.isSnan (v : FVal) : Bool :=
  match v with
  | .nan s => s
  | _ => false

/-- Is the value a zero? -/
def FVal.isZero (v : FVal) : Bool :=
  match v with
  | .zero _ => true
  | _ => false

/-- The sign a value carries; a NaN counts as positive (R28). -/
def FVal.sign (v : FVal) : Bool :=
  match v with
  | .nan _ => false
  | .inf n => n
  | .zero n => n
  | .fin n _ _ _ => n

/-- The value with its sign inverted. -/
def FVal.negate (v : FVal) : FVal :=
  match v with
  | .nan s => .nan s
  | .inf n => .inf (!n)
  | .zero n => .zero (!n)
  | .fin n a d e => .fin (!n) a d e

/-- The value without its sign. -/
def FVal.abs (v : FVal) : FVal :=
  match v with
  | .nan s => .nan s
  | .inf _ => .inf false
  | .zero _ => .zero false
  | .fin _ a d e => .fin false a d e

/-- Signed numerator of (-1)^neg · a · 2^(e − q) for q ≤ e. -/
def shiftedInt (neg : Bool) (a : Nat) (e q : Int) : Int :=
  let n : Int := a * 2 ^ (e - q).toNat
  if neg then -n else n

/-- The value p / d · 2^q, with sign z where it is zero. -/
def ofRatio (z : Bool) (p : Int) (d : Nat) (q : Int) : FVal :=
  if p = 0 then .zero z else .fin (p < 0) p.natAbs d q

/-- The exact sum, and whether it is an invalid case (∞ − ∞ or a signalling NaN, R381). The sign of an exact
zero follows R29 for rounding mode `rm`. -/
def addExact (rm : Rm) (a b : FVal) : FVal × Bool :=
  match a, b with
  | .nan s, .nan t => (.nan false, s || t)
  | .nan s, _ => (.nan false, s)
  | _, .nan t => (.nan false, t)
  | .inf m, .inf n => if m = n then (.inf m, false) else (.nan false, true)
  | .inf m, _ => (.inf m, false)
  | _, .inf n => (.inf n, false)
  | .zero m, .zero n => (if m = n then .zero m else .zero (rm == .rdn), false)
  | .zero _, y => (y, false)
  | x, .zero _ => (x, false)
  | .fin m p d e, .fin n q c f =>
    let l := if e ≤ f then e else f
    if d = 1 ∧ c = 1 then (ofRatio (rm == .rdn) (shiftedInt m p e l + shiftedInt n q f l) 1 l, false)
    else (ofRatio (rm == .rdn) (shiftedInt m p e l * c + shiftedInt n q f l * d) (d * c) l, false)

/-- The exact difference a − b, as the sum a + (−b) (R184). -/
def subExact (rm : Rm) (a b : FVal) : FVal × Bool := addExact rm a b.negate

/-- The exact product, and whether it is an invalid case (0 × ∞ or a signalling NaN, R381). -/
def mulExact (a b : FVal) : FVal × Bool :=
  match a, b with
  | .nan s, .nan t => (.nan false, s || t)
  | .nan s, _ => (.nan false, s)
  | _, .nan t => (.nan false, t)
  | .inf _, .zero _ => (.nan false, true)
  | .zero _, .inf _ => (.nan false, true)
  | .inf m, y => (.inf (m != y.sign), false)
  | x, .inf n => (.inf (x.sign != n), false)
  | .zero m, y => (.zero (m != y.sign), false)
  | x, .zero n => (.zero (x.sign != n), false)
  | .fin m p d e, .fin n q c f => (.fin (m != n) (p * q) (d * c) (e + f), false)

/-- How a quotient of R206 is formed: the value, whether the case is invalid, and whether it divides a finite
nonzero value by zero (R381). -/
def divExact (a b : FVal) : FVal × Bool × Bool :=
  match a, b with
  | .nan s, .nan t => (.nan false, s || t, false)
  | .nan s, _ => (.nan false, s, false)
  | _, .nan t => (.nan false, t, false)
  | .inf _, .inf _ => (.nan false, true, false)
  | .zero _, .zero _ => (.nan false, true, false)
  | .inf m, y => (.inf (m != y.sign), false, false)
  | x, .inf n => (.zero (x.sign != n), false, false)
  | .zero m, y => (.zero (m != y.sign), false, false)
  | .fin m _ _ _, .zero n => (.inf (m != n), false, true)
  | .fin m p d e, .fin n q c f => (.fin (m != n) (p * c) (d * q) (e - f), false, false)

/-- The exact x · y + z with one rounding to follow (R184), and whether it is an invalid case. -/
def fmaExact (rm : Rm) (x y z : FVal) : FVal × Bool :=
  let (p, i) := mulExact x y
  let (s, j) := addExact rm p z
  (s, i || j || z.isSnan)

/-- Exact scaling by 2^k. -/
def FVal.scale (v : FVal) (k : Int) : FVal :=
  match v with
  | .fin n a d e => .fin n a d (e + k)
  | x => x

/-- Three-way comparison of two numbers, neither a NaN, with −0 = +0: negative, zero or positive. -/
def FVal.cmp (a b : FVal) : Int :=
  match a, b with
  | .inf m, .inf n => if m = n then 0 else if m then -1 else 1
  | .inf m, _ => if m then -1 else 1
  | _, .inf n => if n then 1 else -1
  | x, y =>
    match (addExact .rne x y.negate).1 with
    | .fin true _ _ _ => -1
    | .fin false _ _ _ => 1
    | _ => 0

/-- x < y; false if either is a NaN (R188). -/
def FVal.lt (a b : FVal) : Bool := !a.isNan && !b.isNan && decide (a.cmp b < 0)

/-- x ≤ y; false if either is a NaN (R188). -/
def FVal.le (a b : FVal) : Bool := !a.isNan && !b.isNan && decide (a.cmp b ≤ 0)

/-- x = y; false if either is a NaN, and −0 = +0 (R188). -/
def FVal.eq (a b : FVal) : Bool := !a.isNan && !b.isNan && decide (a.cmp b = 0)

/-- Does a order below b, with −0 below +0 (R185)? -/
def FVal.below (a b : FVal) : Bool :=
  if a.isZero && b.isZero then a.sign && !b.sign else a.lt b

/-! ## Integers -/

/-- The low w bits of an integer. -/
def wrapTo (w : Nat) (x : Int) : Nat := (x % 2 ^ w).toNat

/-- SATS(x, w): x clamped to the signed range of width w. -/
def satS (x : Int) (w : Nat) : Int :=
  if x < -(2 ^ (w - 1)) then -(2 ^ (w - 1)) else if 2 ^ (w - 1) - 1 < x then 2 ^ (w - 1) - 1 else x

/-- SATU(x, w): x clamped to the unsigned range of width w. -/
def satU (x : Int) (w : Nat) : Int :=
  if x < 0 then 0 else if 2 ^ w - 1 < x then 2 ^ w - 1 else x

/-- SATS or SATU by the signedness of t, at its width. -/
def satTy (t : Ty) (x : Int) : Int :=
  if tySigned t then satS x (tyWidth t) else satU x (tyWidth t)

/-- RNE of n / d for d > 0: nearest, ties to even (R42). -/
def rneDiv (n : Int) (d : Nat) : Int :=
  let q := n / (d : Int)
  let r := n % (d : Int)
  if 2 * r < d then q else if (d : Int) < 2 * r then q + 1 else if q % 2 = 0 then q else q + 1

/-- Requantisation (R49): RNE(x · m / 2^s) + zp, before the clamp to D. -/
def requantExact (x m : Int) (s : Nat) (zp : Int) : Int := rneDiv (x * m) (2 ^ s) + zp

end Sys2Proof.Machine
end

