-- ==== Sys2Proof/Formats.lean ====
section
/-! DEFINITION. The operand layouts of the core's slot operations (R128, R131, R133, R137), one record per
format, each field as wide as the manual gives it. `ext` is the LIMM24 field of the bundle's W word when
lv = 1 (R125, R126) and `none` when lv = 0. -/

namespace Sys2Proof

/-- S-slot format SR: guarded register operations (R128, R129). -/
structure SR where
  pn : BitVec 1
  pg : BitVec 4
  sb : BitVec 6
  sa : BitVec 6
  sd : BitVec 6
deriving DecidableEq, Repr

/-- S-slot format SI: 12-bit immediate (R128). -/
structure SI where
  imm : BitVec 12
  ext : Option (BitVec 24)
  sa : BitVec 6
  sd : BitVec 6
deriving DecidableEq, Repr

/-- S-slot format SM: memory operations (R128). -/
structure SM where
  imm : BitVec 9
  ext : Option (BitVec 24)
  sx : BitVec 1
  sz : BitVec 2
  sa : BitVec 6
  sd : BitVec 6
deriving DecidableEq, Repr

/-- S-slot format SS: spill loads and stores (R128). -/
structure SS where
  off : BitVec 12
  sx : BitVec 1
  sz : BitVec 2
  sd : BitVec 6
deriving DecidableEq, Repr

/-- S-slot format SA: atomics (R128). -/
structure SA where
  sz : BitVec 2
  aop : BitVec 4
  sb : BitVec 6
  sa : BitVec 6
  sd : BitVec 6
deriving DecidableEq, Repr

/-- S-slot format SC, register form (`cmp`, R128). -/
structure SCR where
  sb : BitVec 6
  sa : BitVec 6
  cc : BitVec 3
  pd : BitVec 4
deriving DecidableEq, Repr

/-- S-slot format SC, immediate form (`cmpi`, R128). -/
structure SCI where
  imm : BitVec 11
  ext : Option (BitVec 24)
  sa : BitVec 6
  cc : BitVec 3
  pd : BitVec 4
deriving DecidableEq, Repr

/-- S-slot format SP: predicate logic (R128). -/
structure SP where
  tt : BitVec 4
  pb : BitVec 4
  pa : BitVec 4
  pd : BitVec 4
deriving DecidableEq, Repr

/-- The V-slot format (R131). -/
structure VF where
  fn : BitVec 6
  sat : BitVec 1
  rm : BitVec 2
  ty : BitVec 4
  vm : BitVec 3
  vc : BitVec 6
  vb : BitVec 6
  va : BitVec 6
  vd : BitVec 6
deriving DecidableEq, Repr

/-- The M-slot format (R133). -/
structure MF where
  f2 : BitVec 2
  imm : BitVec 8
  ty : BitVec 4
  mp : BitVec 3
  sa : BitVec 6
  bank : BitVec 1
deriving DecidableEq, Repr

/-- The C-slot format (R137). -/
structure CF where
  f : BitVec 1
  st : BitVec 3
  sy : BitVec 6
  sx : BitVec 6
  rg : BitVec 4
  cd : BitVec 4
deriving DecidableEq, Repr

/-- The operands of a Xamiyxo word: rd, rs1, rs2 (R141). -/
structure XF where
  rd : BitVec 5
  rs1 : BitVec 5
  rs2 : BitVec 5
deriving DecidableEq, Repr

/-- What the firmware reads out of one IEEE 1588 exchange (R350): the offset to the grandmaster in ns and
the rate correction it sets, in parts per billion. -/
structure PtpSample where
  offset : Int
  ratePpb : Int
deriving DecidableEq, Repr

/-- Where a soft error or the patrol scrubber finds a word (R377): the address space it lies in. -/
inductive ErrorSite where
  /-- a word of HBM or CXL memory at a physical address -/
  | memory (pa : Nat)
  /-- a dirty word of a Vale cache or of a control core's data cache, by physical address -/
  | cache (pa : Nat)
  /-- a word of a core's scratchpad, stash or spill memory -/
  | scratchpad (core offset : Nat)
  | spill (core offset : Nat)
  /-- architectural state of a core: registers, accumulators, in-flight record -/
  | coreState (core : Nat)
  /-- architectural state of a control core -/
  | controlState (ctl : Nat)
  /-- an entry of a core's TLB, by virtual address; of a Vale TLB, by virtual function too; of a core's bundle cache;
  of a control core's TLB or instruction cache: all protected by parity (R377) -/
  | tlb (core va : Nat)
  | valeTlb (vale vf va : Nat)
  | bundleCache (core : Nat)
  | controlCache (ctl : Nat)
  /-- a Basin slot of the pass a Vale's Col engine serves -/
  | basinSlot (vale slot : Nat)
  /-- the pass state of a Vale's Col engine -/
  | colEngine (vale : Nat)
  /-- a block of a context's save area -/
  | saveBlock (vf vale block : Nat)
  /-- a dirty bitmap of a virtual function (R451) -/
  | dirtyBitmap (vf : Nat)
  /-- a slot of the slot table; the shared tag store of an atomic unit, a gang barrier unit or a fabric receiver, by the unit
  number that a record gives it (R325, R339, R369) -/
  | slotTable (slice : Nat)
  | sharedTags (unit : BitVec 16)
deriving DecidableEq, Repr

/-- What a copy engine's event moves of an entry: everything that is left; the units below a byte in the order of R228;
or the units of one aligned 32-byte granule of the destination, named by one of them (R114, R228). -/
inductive CopyPart where
  | toEnd
  | upTo (bytes : Nat)
  | granule (unit : Nat)
deriving DecidableEq, Repr

end Sys2Proof
end

