-- ==== Sys2Proof/Syntax.lean ====
section
/-! DEFINITION. The instructions and events of the Kalyth 8V, one constructor per row of the opcode table.
Slot operations carry their format's fields (R128, R131, R133, R137); Xamiyxo instructions their register
numbers (R141); writes of registers the value written; events of asynchronous units the unit they happen
at, and what the outside world decides about them. A core is named by 192 × Vale + physical core, a control
core by its module-wide number 8 × Vale + slice (R11). Encoded instructions come first, then host writes and
events. -/

namespace Sys2Proof

/-- One row of the opcode table. -/
inductive Instr where
  /-- ADD (R152). -/
  | add (f : SR)
  /-- SUB (R152). -/
  | sub (f : SR)
  /-- AND (R152). -/
  | sAnd (f : SR)
  /-- OR (R152). -/
  | sOr (f : SR)
  /-- XOR (R152). -/
  | xor (f : SR)
  /-- SHL (R152). -/
  | shl (f : SR)
  /-- SHR (R152). -/
  | shr (f : SR)
  /-- SRA (R152). -/
  | sra (f : SR)
  /-- MUL (R152). -/
  | mul (f : SR)
  /-- MULH (R152). -/
  | mulh (f : SR)
  /-- MULHU (R152). -/
  | mulhu (f : SR)
  /-- MIN (R152). -/
  | min (f : SR)
  /-- MAX (R152). -/
  | max (f : SR)
  /-- MINU (R152). -/
  | minu (f : SR)
  /-- MAXU (R152). -/
  | maxu (f : SR)
  /-- CLZ (R152). -/
  | clz (f : SR)
  /-- POPC (R152). -/
  | popc (f : SR)
  /-- SEL (R153). -/
  | sel (f : SR)
  /-- ADDI (R154). -/
  | addi (f : SI)
  /-- ANDI (R154). -/
  | andi (f : SI)
  /-- ORI (R154). -/
  | ori (f : SI)
  /-- XORI (R154). -/
  | xori (f : SI)
  /-- SHLI (R154). -/
  | shli (f : SI)
  /-- SHRI (R154). -/
  | shri (f : SI)
  /-- SRAI (R154). -/
  | srai (f : SI)
  /-- LI (R154). -/
  | li (f : SI)
  /-- LIH (R154). -/
  | lih (f : SI)
  /-- CMP (R155). -/
  | cmp (f : SCR)
  /-- CMPI (R155). -/
  | cmpi (f : SCI)
  /-- PLOG (R156). -/
  | plog (f : SP)
  /-- LD (R157). -/
  | ld (f : SM)
  /-- ST (R157). -/
  | st (f : SM)
  /-- LDS (R157). -/
  | lds (f : SS)
  /-- STS (R157). -/
  | sts (f : SS)
  /-- LDG (R158). -/
  | ldg (f : SM)
  /-- STG (R158). -/
  | stg (f : SM)
  /-- PROBE (R159). -/
  | probe (f : SM)
  /-- SQLD (R160). -/
  | sqld (f : SM)
  /-- AMO (R161). -/
  | amo (f : SA)
  /-- CAS (R161). -/
  | cas (f : SA)
  /-- PBR (R162). -/
  | pbr (off : BitVec 20) (ext : Option (BitVec 24)) (b : BitVec 3)
  /-- PBRR (R162). -/
  | pbrr (sa : BitVec 6) (b : BitVec 3)
  /-- BR (R162). -/
  | br (pg : BitVec 4) (pn : BitVec 1) (b : BitVec 3)
  /-- BRL (R162). -/
  | brl (sd : BitVec 6) (pg : BitVec 4) (pn : BitVec 1) (b : BitVec 3)
  /-- LOOP (R164). -/
  | loop (off : BitVec 16) (sa : BitVec 6) (l : BitVec 2)
  /-- HALT (R166). -/
  | halt
  /-- GJOIN (R167). -/
  | gjoin (g : BitVec 12)
  /-- GLEAVE (R167). -/
  | gleave (g : BitVec 12)
  /-- GBAR (R167). -/
  | gbar (g : BitVec 12)
  /-- GARR (R167). -/
  | garr (g : BitVec 12)
  /-- GWAIT (R167). -/
  | gwait (g : BitVec 12)
  /-- PHASE (R167). -/
  | phase (g : BitVec 12)
  /-- SYNC (R170). -/
  | sync (mask : BitVec 12)
  /-- WAITA (R171). -/
  | waita (sd : BitVec 6) (sa : BitVec 6)
  /-- SLEEP (R173). -/
  | sleep (sa : BitVec 6)
  /-- RDNS (R174). -/
  | rdns (sd : BitVec 6)
  /-- RDNJ (R175). -/
  | rdnj (sd : BitVec 6)
  /-- CSRR (R176). -/
  | csrr (sd : BitVec 6) (csr : BitVec 12)
  /-- CSRW (R176). -/
  | csrw (csr : BitVec 12) (sa : BitVec 6)
  /-- TRAP (R177). -/
  | trap (code : BitVec 12)
  /-- BRK (R177). -/
  | brk (code : BitVec 12)
  /-- VADD (R184). -/
  | vadd (f : VF)
  /-- VSUB (R184). -/
  | vsub (f : VF)
  /-- VMUL (R184). -/
  | vmul (f : VF)
  /-- VFMA (R184). -/
  | vfma (f : VF)
  /-- VFMS (R184). -/
  | vfms (f : VF)
  /-- VMIN (R185). -/
  | vmin (f : VF)
  /-- VMAX (R185). -/
  | vmax (f : VF)
  /-- VABS (R186). -/
  | vabs (f : VF)
  /-- VNEG (R186). -/
  | vneg (f : VF)
  /-- VAND (R187). -/
  | vand (f : VF)
  /-- VOR (R187). -/
  | vor (f : VF)
  /-- VXOR (R187). -/
  | vxor (f : VF)
  /-- VSHL (R187). -/
  | vshl (f : VF)
  /-- VSHR (R187). -/
  | vshr (f : VF)
  /-- VSRA (R187). -/
  | vsra (f : VF)
  /-- VCMP (R188). -/
  | vcmp (f : VF)
  /-- VCVT (R189). -/
  | vcvt (f : VF)
  /-- VRQ (R190). -/
  | vrq (f : VF)
  /-- VEXP2 (R191). -/
  | vexp2 (f : VF)
  /-- VTANH (R191). -/
  | vtanh (f : VF)
  /-- VLGST (R191). -/
  | vlgst (f : VF)
  /-- VRCP (R191). -/
  | vrcp (f : VF)
  /-- VRSQRT (R191). -/
  | vrsqrt (f : VF)
  /-- VREDSUM (R192). -/
  | vredsum (f : VF)
  /-- VREDMAX (R192). -/
  | vredmax (f : VF)
  /-- VREDMIN (R192). -/
  | vredmin (f : VF)
  /-- VSTAT (R193). -/
  | vstat (f : VF)
  /-- VPERM (R194). -/
  | vperm (f : VF)
  /-- VBCAST (R195). -/
  | vbcast (f : VF)
  /-- VMOV (R196). -/
  | vmov (f : VF)
  /-- VSEL (R196). -/
  | vsel (f : VF)
  /-- VSLIDE (R197). -/
  | vslide (f : VF)
  /-- VLD (R198). -/
  | vld (f : VF)
  /-- VST (R198). -/
  | vst (f : VF)
  /-- VGTH (R199). -/
  | vgth (f : VF)
  /-- VSCT (R199). -/
  | vsct (f : VF)
  /-- VAMO (R201). -/
  | vamo (f : VF)
  /-- VUNP3 (R202). -/
  | vunp3 (f : VF)
  /-- VTACC (R203). -/
  | vtacc (f : VF)
  /-- VDP8 (R204). -/
  | vdp8 (f : VF)
  /-- VPACK (R205). -/
  | vpack (f : VF)
  /-- VWIDE (R205). -/
  | vwide (f : VF)
  /-- VXADD (R206). -/
  | vxadd (f : VF)
  /-- VXCVT (R207). -/
  | vxcvt (f : VF)
  /-- MCALL (R216). -/
  | mcall (f : MF)
  /-- MPSET (R221). -/
  | mpset (f : MF)
  /-- MZERO (R210). -/
  | mzero (f : MF)
  /-- MDRAIN (R223). -/
  | mdrain (f : MF)
  /-- MMODE (R222). -/
  | mmode (f : MF)
  /-- MGSEL (R215). -/
  | mgsel (f : MF)
  /-- MWR (R224). -/
  | mwr (f : MF)
  /-- MWAIT (R225). -/
  | mwait (f : MF)
  /-- MRSUM (R225). -/
  | mrsum (f : MF)
  /-- CP (R228). -/
  | cp (f : CF)
  /-- CPM (R230). -/
  | cpm (f : CF)
  /-- CPG (R231). -/
  | cpg (f : CF)
  /-- CPS (R231). -/
  | cps (f : CF)
  /-- CPA (R232). -/
  | cpa (f : CF)
  /-- CDLD (R227). -/
  | cdld (f : CF)
  /-- CPW (R235). -/
  | cpw (f : CF)
  /-- RGCFG (R237). -/
  | rgcfg (f : CF)
  /-- RGPOST (R238). -/
  | rgpost (f : CF)
  /-- RGFREE (R238). -/
  | rgfree (f : CF)
  /-- SBIND (R240). -/
  | sbind (f : CF)
  /-- SFREE (R241). -/
  | sfree (f : CF)
  /-- SQFILL (R233). -/
  | sqfill (f : CF)
  /-- M_GEMM (R251). -/
  | mGemm (f : XF)
  /-- M_GEMM_R (R418). -/
  | mGemmR (f : XF)
  /-- M_CONV (R253). -/
  | mConv (f : XF)
  /-- M_CONV_R (R418). -/
  | mConvR (f : XF)
  /-- M_ATTN (R254). -/
  | mAttn (f : XF)
  /-- M_ATTN_R (R418). -/
  | mAttnR (f : XF)
  /-- M_SORT (R255). -/
  | mSort (f : XF)
  /-- M_SORT_R (R418). -/
  | mSortR (f : XF)
  /-- M_GATH (R256). -/
  | mGath (f : XF)
  /-- M_GATH_R (R418). -/
  | mGathR (f : XF)
  /-- M_SCAT (R257). -/
  | mScat (f : XF)
  /-- M_SCAT_R (R418). -/
  | mScatR (f : XF)
  /-- M_NORM (R258). -/
  | mNorm (f : XF)
  /-- M_NORM_R (R418). -/
  | mNormR (f : XF)
  /-- M_KERN (R259). -/
  | mKern (f : XF)
  /-- M_KERN_R (R418). -/
  | mKernR (f : XF)
  /-- M_RCPY (R261). -/
  | mRcpy (f : XF)
  /-- M_RCPY_R (R418). -/
  | mRcpyR (f : XF)
  /-- M_RINIT (R261). -/
  | mRinit (f : XF)
  /-- M_RINIT_R (R418). -/
  | mRinitR (f : XF)
  /-- M_WAIT (R264). -/
  | mWait (rd : BitVec 5) (rs1 : BitVec 5)
  /-- M_STAT (R265). -/
  | mStat (f : XF)
  /-- M_RESUME (R418). -/
  | mResume (rd : BitVec 5) (rs1 : BitVec 5)
  /-- M_KILL (R267). -/
  | mKill (rs1 : BitVec 5)
  /-- M_FENCE (R268). -/
  | mFence
  /-- C_ARED (R277). -/
  | cAred (f : XF)
  /-- C_ARED_R (R282). -/
  | cAredR (f : XF)
  /-- C_AGAT (R277). -/
  | cAgat (f : XF)
  /-- C_AGAT_R (R282). -/
  | cAgatR (f : XF)
  /-- C_RSCT (R277). -/
  | cRsct (f : XF)
  /-- C_RSCT_R (R282). -/
  | cRsctR (f : XF)
  /-- C_A2A (R277). -/
  | cA2a (f : XF)
  /-- C_A2A_R (R282). -/
  | cA2aR (f : XF)
  /-- C_BCST (R277). -/
  | cBcst (f : XF)
  /-- C_BCST_R (R282). -/
  | cBcstR (f : XF)
  /-- C_SEND (R277). -/
  | cSend (f : XF)
  /-- C_SEND_R (R282). -/
  | cSendR (f : XF)
  /-- C_RECV (R277). -/
  | cRecv (f : XF)
  /-- C_RECV_R (R282). -/
  | cRecvR (f : XF)
  /-- C_BAR (R277). -/
  | cBar (f : XF)
  /-- C_BAR_R (R282). -/
  | cBarR (f : XF)
  /-- G_FORM (R284). -/
  | gForm (rd : BitVec 5) (rs1 : BitVec 5)
  /-- G_FREE (R285). -/
  | gFree (rs1 : BitVec 5)
  /-- X_SLEEP (R287). -/
  | xSleep (rs1 : BitVec 5)
  /-- X_MON (R288). -/
  | xMon (rd : BitVec 5) (rs1 : BitVec 5)
  /-- X_MWAIT (R290). -/
  | xMwait (rd : BitVec 5) (rs1 : BitVec 5)
  /-- TQ_POP (R291). -/
  | tqPop (rd : BitVec 5)
  /-- TQ_ACK (R292). -/
  | tqAck (rs1 : BitVec 5)
  /-- RISCV_INSTRUCTION (R270). -/
  | riscvInstruction (w : BitVec 32)
  /-- LNCHV (R62). -/
  | lnchv (vf : Nat) (w : Word)
  /-- LNDONE (R65). -/
  | lndone (w : Word)
  /-- VFIMG (R362). -/
  | vfimg (vf : Nat) (w : Word)
  /-- MBIN (R356). -/
  | mbin (vf : Nat) (w : Word)
  /-- MBRCV (R356). -/
  | mbrcv (rd : BitVec 5)
  /-- MBSND (R356). -/
  | mbsnd (w : Word)
  /-- MBOST_POP (R356). -/
  | mbostPop (vf : Nat)
  /-- PFMBST_SEND (R357). -/
  | pfmbstSend
  /-- PFMBST_POP (R357). -/
  | pfmbstPop
  /-- IDENTITY_CERTIFICATE_CHAIN (R357). -/
  | identityCertificateChain
  /-- ATTESTATION_REQUEST (R364). -/
  | attestationRequest (src : Option Nat)
  /-- SAVE_AREA_IMPORT (R452). -/
  | saveAreaImport (chainOk : Bool) (signatureOk : Bool)
  /-- PF_MEMORY_WRITE (R355). -/
  | pfMemoryWrite (pa : Nat) (data : List Byte) (poison : List Bool)
  /-- PF_MEMORY_READ (R450). -/
  | pfMemoryRead (pa : Nat) (len : Nat)
  /-- VF_MEMORY_WRITE (R355). -/
  | vfMemoryWrite (vf : Nat) (va : Nat) (data : List Byte)
  /-- VF_MEMORY_READ (R355). -/
  | vfMemoryRead (vf : Nat) (va : Nat) (len : Nat)
  /-- REGISTER_WRITE (R353). -/
  | registerWrite (vf : Option Nat) (offset : Nat) (w : Word)
  /-- PTP_MESSAGE (R350). -/
  | ptpMessage (port : Nat) (sample : PtpSample)
  /-- NDETU_PORT_DOWN (R449). -/
  | ndetuPortDown (port : Nat)
  /-- MODULE_RESET (R367). -/
  | moduleReset
  /-- POWER_ON_RESET (R367). -/
  | powerOnReset (failure : Option (Nat × Nat)) (cxlGiB : Nat × Nat)
  /-- POWER_STATE_REQUEST (R367). -/
  | powerStateRequest (ps : BitVec 4)
  /-- THERMAL_LIMIT (R367). -/
  | thermalLimit (vale : Nat) (n : BitVec 6)
  /-- THERMAL_SHUTDOWN (R367). -/
  | thermalShutdown
  /-- SUPPLY_REMOVED (R367). -/
  | supplyRemoved (inOrder : Bool)
  /-- DEBUG_STOP (R365). -/
  | debugStop
  /-- DEBUG_GO (R365). -/
  | debugGo
  /-- DEBUG_STEP (R366). -/
  | debugStep
  /-- DEBUG_CSTEP (R365). -/
  | debugCstep
  /-- PLACE_TABLE_WRITE (R429). -/
  | placeTableWrite (vale : Nat) (vf : Nat) (idx : Nat) (w : BitVec 16)
  /-- BIND_ENTRY_WRITE (R328). -/
  | bindEntryWrite (slice : Nat) (entry : Nat) (w0 : Word) (w1 : Word)
  /-- VFJQ_WRITE (R347). -/
  | vfjqWrite (vf : Nat) (w : Word)
  /-- TMCTL_GO (R119). -/
  | tmctlGo (vf : Nat) (w : Word)
  /-- VFDCTL_SNAP (R348). -/
  | vfdctlSnap (vf : Nat)
  /-- VFDCTL_SETTLE (R349). -/
  | vfdctlSettle (vf : Nat)
  /-- TRCTL_CLR (R351). -/
  | trctlClr
  /-- QUANTUM_END (R326). -/
  | quantumEnd (group : Nat)
  /-- NEWCOMER (R327). -/
  | newcomer (group : Nat) (entry : Nat)
  /-- STEP_LIMIT_EXPIRY (R331). -/
  | stepLimitExpiry (group : Nat)
  /-- CONTEXT_SAVE (R334). -/
  | contextSave (vf : Nat) (vale : Nat)
  /-- CONTEXT_BIND (R329). -/
  | contextBind (group : Nat)
  /-- CONTEXT_RESTORE (R341). -/
  | contextRestore (vf : Nat) (vale : Nat)
  /-- PRELOAD (R343). -/
  | preload (group : Nat)
  /-- CLOCK_SWALLOW_UPDATE (R344). -/
  | clockSwallowUpdate (vale : Nat) (n : BitVec 6)
  /-- METER_CALIBRATION (R345). -/
  | meterCalibration (rail : Nat) (factor : Nat)
  /-- ENERGY_SETTLEMENT (R346). -/
  | energySettlement (refresh : Nat) (input : Nat)
  /-- QUOTA_PERIOD_START (R347). -/
  | quotaPeriodStart (vf : Nat)
  /-- QUOTA_EXHAUSTION (R347). -/
  | quotaExhaustion (vf : Nat)
  /-- DIRTY_SWITCH_COMPLETE (R348). -/
  | dirtySwitchComplete (vf : Nat)
  /-- SETTLE_COMPLETE (R349). -/
  | settleComplete (vf : Nat)
  /-- WRITE_PROTECT_WINDOW_COPIED (R120). -/
  | writeProtectWindowCopied (vf : Nat)
  /-- BACKGROUND_PULL (R121). -/
  | backgroundPull (vf : Nat)
  /-- BUNDLE_ISSUE (R82). -/
  | bundleIssue (core : Nat)
  /-- BUNDLE_FETCH (R87). -/
  | bundleFetch (core : Nat)
  /-- RESULT_LANDING (R83). -/
  | resultLanding (core : Nat) (idx : Nat)
  /-- STASH_FILL (R105). -/
  | stashFill (core : Nat) (entry : Nat)
  /-- VALE_TLB_LOOKUP (R101). -/
  | valeTlbLookup (core : Nat) (idx : Nat)
  /-- PAGE_WALK_COMPLETE (R101). -/
  | pageWalkComplete (vale : Nat) (walker : Nat) (retryExhausted : Bool)
  /-- ATOMIC_APPLY (R108). -/
  | atomicApply (core : Nat) (entry : Nat)
  /-- OWNERSHIP_GRANT (R140). -/
  | ownershipGrant (core : Nat) (entry : Nat)
  /-- ATOMIC_RESPONSE (R140). -/
  | atomicResponse (core : Nat) (entry : Nat)
  /-- BARRIER_ARRIVAL (R75). -/
  | barrierArrival (core : Nat) (entry : Nat)
  /-- PHASE_BOUNDARY_COMPLETE (R110). -/
  | phaseBoundaryComplete (vale : Nat) (gang : Nat) (granules : Option Nat)
  /-- COPY_COMPLETE (R234). -/
  | copyComplete (core : Nat) (entry : Nat) (part : CopyPart)
  /-- RING_WAIT_RESUME (R229). -/
  | ringWaitResume (core : Nat) (entry : Nat)
  /-- MATRIX_COMMAND_START (R209). -/
  | matrixCommandStart (core : Nat)
  /-- MATRIX_COMMAND_FINISH (R209). -/
  | matrixCommandFinish (core : Nat) (idx : Nat)
  /-- CORE_SLEEP_WAKE (R173). -/
  | coreSleepWake (core : Nat)
  /-- X_SLEEP_WAKE (R287). -/
  | xSleepWake (ctl : Nat)
  /-- X_MWAIT_TIMEOUT (R290). -/
  | xMwaitTimeout (ctl : Nat)
  /-- FATAL_LAUNCH_END (R374). -/
  | fatalLaunchEnd (vf : Nat)
  /-- MODULE_FAILURE (R376). -/
  | moduleFailure (unit : BitVec 16) (detail : Word)
  /-- PATROL_SCRUB (R377). -/
  | patrolScrub (site : ErrorSite) (correctable : Bool)
  /-- LINK_RETRY_EXHAUSTED (R448). -/
  | linkRetryExhausted (link : Nat)
  /-- LINK_RETRAIN (R448). -/
  | linkRetrain (link : Nat)
  /-- VALE_MESH_LINK_FAIL (R449). -/
  | valeMeshLinkFail (link : Nat) (unreachable : Option Nat)
  /-- SCOREBOARD_CLEAR (R66). -/
  | scoreboardClear (ctl : Nat)
  /-- GANG_DISPATCH (R76). -/
  | gangDispatch (vale : Nat) (gang : Nat)
  /-- SEQUENCER_PREFETCH (R77). -/
  | sequencerPrefetch (core : Nat)
  /-- SEQUENCER_READY (R77). -/
  | sequencerReady (core : Nat)
  /-- SEQUENCER_BOUNDARY (R77). -/
  | sequencerBoundary (core : Nat)
  /-- MACRO_COMPLETE (R68). -/
  | macroComplete (ctl : Nat) (entry : Nat)
  /-- MACRO_STOPPED (R412). -/
  | macroStopped (ctl : Nat) (entry : Nat)
  /-- MACRO_KILLED (R267). -/
  | macroKilled (ctl : Nat) (entry : Nat)
  /-- COL_ADMISSION (R303). -/
  | colAdmission (vale : Nat)
  /-- COL_DELIVERY (R312). -/
  | colDelivery (vale : Nat)
  /-- BASIN_MERGE (R311). -/
  | basinMerge (vale : Nat) (idx : Nat)
  /-- CATCH_UP_SWEEP (R315). -/
  | catchUpSweep (vale : Nat)
  /-- SWEEP_ENTRY (R315). -/
  | sweepEntry (vale : Nat)
  /-- COLLECTIVE_REGISTRATION (R445). -/
  | collectiveRegistration (ctl : Nat) (entry : Nat) (rank : Nat) (key : Word) (opNumber : Nat)
  /-- CHUNK_DELIVERY (R280). -/
  | chunkDelivery (ctl : Nat) (entry : Nat) (rank : Nat) (chunk : Nat) (tag : Word) (data : List Byte)
  /-- CHUNK_ACK (R281). -/
  | chunkAck (ctl : Nat) (entry : Nat) (rank : Nat)
  /-- COLLECTIVE_COMPLETE (R282). -/
  | collectiveComplete (ctl : Nat) (entry : Nat)
  /-- DTLBI_DROP_VA (R102). -/
  | dtlbiDropVa (w : Word)
  /-- DTLBI_DROP_ALL (R102). -/
  | dtlbiDropAll (w : Word)
  /-- TQBASE (R370). -/
  | tqbase (w : Word)
  /-- MRTE (R269). -/
  | mrte (w : Word)
  /-- SUPERVISOR_TIMER_INTERRUPT (R272). -/
  | supervisorTimerInterrupt (ctl : Nat)
  /-- NDETU_PORT_UP (R358). -/
  | ndetuPortUp (port : Nat)
  /-- HYPERVISOR_SUSPEND (R328). -/
  | hypervisorSuspend (vf : Nat)
  /-- CONTEXT_DESTROY (R328). -/
  | contextDestroy (vf : Nat)
  /-- CORE_RETIREMENT (R12). -/
  | coreRetirement (core : Nat)
  /-- SOFT_ERROR (R377). -/
  | softError (site : ErrorSite) (correctable : Bool)
deriving DecidableEq, Repr

end Sys2Proof
end

