-- ==== Sys2Proof/Machine/Encoding.lean ====
section
/-! DEFINITION. The decode checks of one slot operation (R388): which operations take LIMM (R130), which types,
rounding, saturation and function fields a vector operation accepts (R183), and the reason a failing field
takes. Reason 0 means that the operation decodes. -/

namespace Sys2Proof.Machine

open Sys2Proof

/-- The first nonzero reason of a list of checks. -/
def firstReason : List (Bool × Nat) → Nat
  | [] => 0
  | (c, r) :: rest => if c then r else firstReason rest

/-- Reason 5 where LIMM stands on an operation that does not take it (R126, R388). -/
def noLimm (e : Option (BitVec 24)) : Nat := if e.isSome then 5 else 0

/-- Does a vector field name a stream register (R127)? -/
def isStream (n : BitVec 6) : Bool := decide (56 ≤ n.toNat)

/-- An XF40 operand is an even register, never a stream (R36, R181). -/
def badPair (n : BitVec 6) : Bool := isStream n || n.getLsbD 0

/-- The types R183 calls "fp" and "int". -/
def accFp (t : BitVec 4) : Bool := decide (t.toNat ≤ 2)
/-- Integer type codes. -/
def accInt (t : BitVec 4) : Bool := decide (8 ≤ t.toNat ∧ t.toNat ≤ 12)

/-- Element width of a type code that `vpack` and `vwide` accept: 4, 8 or 16 bits (R183). -/
def packWidth (t : BitVec 4) : Nat :=
  match t.toNat with
  | 1 | 2 | 10 => 16
  | 3 | 4 | 6 | 7 | 8 | 9 | 14 => 8
  | 5 => 4
  | _ => 0

/-- The checks of a vector operation: must-be-zero fields first (reason 2), then values it does not accept
(reason 3), then register classes (reason 6). `b`, `c`, `d` say whether vb, vc and vd are used; `rm`, `sat`
and `fn` whether those fields hold an allowed shape; `ok` whether ty and fn hold accepted values. -/
def vChecks (f : VF) (d b c rm sat fn ok : Bool) (badReg : Bool) : Nat :=
  firstReason [(!d && f.vd != 0, 2), (!b && f.vb != 0, 2), (!c && f.vc != 0, 2), (!rm && f.rm != 0, 2),
    (!sat && f.sat != 0, 2), (!fn, 2), (!ok, 3), (badReg, 6)]

/-- The reason a slot operation fails decode, or 0 (R388). -/
def slotReason (i : Instr) : Nat :=
  match i with
  | .clz f | .popc f => firstReason [(f.sb != 0, 2)]
  | .shli f | .shri f | .srai f => firstReason [(f.ext.isSome, 5), (decide (63 < f.imm.toNat), 3)]
  | .li f | .lih f => firstReason [(f.sa != 0, 2)]
  | .cmp f => firstReason [(decide (5 < f.cc.toNat), 3)]
  | .cmpi f => firstReason [(decide (5 < f.cc.toNat), 3)]
  | .st f | .stg f => firstReason [(f.sx != 0, 2)]
  | .sts f => firstReason [(f.sx != 0, 2)]
  | .probe f => firstReason [(f.sz != 0, 2)]
  | .sqld f => firstReason [(f.sd != 0, 2)]
  | .amo f => firstReason [(decide (f.sz.toNat < 2), 3), (decide (8 < f.aop.toNat), 3)]
  | .cas f => firstReason [(decide (f.sz.toNat < 2), 3), (f.aop != 0, 3)]
  | .loop off _ _ => firstReason [(off == 0, 3)]
  | .gjoin g | .gleave g | .gbar g | .garr g | .gwait g | .phase g => firstReason [(decide (63 < g.toNat), 3)]
  | .sync m => firstReason [(decide (31 < m.toNat), 2)]
  | .vadd f | .vsub f | .vmul f =>
    vChecks f true true false (accFp f.ty) true (f.fn == 0) (accFp f.ty || accInt f.ty) false
  | .vfma f | .vfms f =>
    vChecks f true true true (accFp f.ty) true (f.fn == 0) (accFp f.ty || accInt f.ty) false
  | .vmin f | .vmax f =>
    vChecks f true true false false false (f.fn == 0) (accFp f.ty || accInt f.ty) false
  | .vabs f | .vneg f =>
    let int := f.ty == 8 || f.ty == 10 || f.ty == 11
    vChecks f true false false false int (f.fn == 0) (accFp f.ty || f.ty == 3 || f.ty == 4 || int) false
  | .vand f | .vor f | .vxor f =>
    vChecks f true true false false false (f.fn == 0 && f.ty == 0) true false
  | .vshl f | .vshr f | .vsra f =>
    vChecks f true true false false false (decide (f.fn.toNat ≤ 1)) (accInt f.ty) false
  | .vcmp f =>
    vChecks f true true false false false (decide (f.fn.toNat ≤ 7) && decide (f.vd.toNat ≤ 7))
      (decide (f.fn.toNat ≤ 4) && (accFp f.ty || accInt f.ty)) false
  | .vcvt f =>
    vChecks f true false true true true (f.fn == 0 && decide (f.vc.toNat ≤ 15))
      (decide (f.vc.toNat ≤ 12) && (decide (f.ty.toNat ≤ 5) || decide (7 ≤ f.ty.toNat ∧ f.ty.toNat ≤ 12))) false
  | .vrq f => vChecks f true true true false false true (accInt f.ty) false
  | .vexp2 f =>
    vChecks f true false false false false (f.fn == 0) (f.ty == 0 || f.ty == 13) (f.ty == 13 && badPair f.vd)
  | .vtanh f | .vlgst f | .vrcp f | .vrsqrt f =>
    vChecks f true false false false false (f.fn == 0) (f.ty == 0) false
  | .vredsum f =>
    vChecks f true false true (f.ty == 0) (f.ty == 11 || f.ty == 12) (f.fn == 0)
      (f.ty == 0 || f.ty == 11 || f.ty == 12) false
  | .vredmax f | .vredmin f =>
    vChecks f true false true false false (f.fn == 0) (f.ty == 0 || f.ty == 11 || f.ty == 12) false
  | .vstat f => vChecks f true false false false false (f.fn == 0) (f.ty == 0) (decide (53 < f.vd.toNat))
  | .vperm f => vChecks f true true true false false (f.fn == 0 && f.ty == 0) true false
  | .vbcast f =>
    vChecks f true (f.fn.getLsbD 0) false false false (decide (f.fn.toNat ≤ 1) && f.ty == 0) true false
  | .vmov f =>
    vChecks f true false false false false (f.fn == 0) (f.ty == 0 || f.ty == 13)
      (f.ty == 13 && (badPair f.vd || badPair f.va))
  | .vsel f =>
    vChecks f true true false false false (decide (f.fn.toNat ≤ 7)) (f.ty == 0 || f.ty == 13)
      (f.ty == 13 && (badPair f.vd || badPair f.va || badPair f.vb))
  | .vslide f => vChecks f true true false false false (f.ty == 0) true false
  | .vld f | .vst f | .vgth f | .vsct f =>
    vChecks f true true false false false (decide (f.fn.toNat ≤ 3) && f.ty == 0) (decide (f.fn.toNat ≤ 2)) false
  | .vamo f =>
    let a := f.fn.toNat
    vChecks f false true true (f.ty == 0 && a == 0) false (decide (a ≤ 15))
      (decide (a ≤ 8) && (f.ty == 11 || f.ty == 12 || (f.ty == 0 && (a == 0 || a == 4 || a == 5 || a == 8)))) false
  | .vunp3 f =>
    vChecks f true false false false false true ((f.ty == 8 || f.ty == 11) && decide (f.fn.toNat ≤ 19)) false
  | .vtacc f =>
    vChecks f true true true false true (f.fn == 0) (f.ty == 8 || f.ty == 9 || f.ty == 10) false
  | .vdp8 f =>
    vChecks f true true true true false (f.fn == 0) (accFp f.ty || f.ty == 8 || f.ty == 10) false
  | .vpack f | .vwide f =>
    let w := packWidth f.ty
    vChecks f true false false false false true (decide (w ≠ 0) && decide (f.fn.toNat < 32 / w)) false
  | .vxadd f =>
    let op := f.fn.toNat % 8
    vChecks f true true (op == 3) true true (decide (f.fn.toNat ≤ 15)) (decide (op ≤ 4) && f.ty == 13)
      (badPair f.vd || badPair f.va || (!f.fn.getLsbD 3 && badPair f.vb) || (op == 3 && badPair f.vc))
  | .vxcvt f =>
    let src := f.vc.toNat
    vChecks f true false true true true (f.fn == 0 && decide (src ≤ 15))
      ((f.ty == 13 && decide (src ≤ 2)) || (accFp f.ty && src == 13))
      ((f.ty == 13 && badPair f.vd) || (src == 13 && badPair f.va))
  | .mcall f => firstReason [(f.f2 != 0 || f.ty != 0 || f.mp != 0 || f.sa != 0, 2)]
  | .mpset f => firstReason [(f.f2 != 0 || f.ty != 0 || f.imm != 0 || f.bank != 0, 2)]
  | .mzero f => firstReason [(f.f2 != 0 || f.ty != 0 || f.imm != 0 || f.mp != 0 || f.sa != 0, 2)]
  | .mdrain f =>
    let rq := f.imm.getLsbD 4
    let rm := f.imm.toNat / 32 % 4
    let t := f.ty.toNat
    firstReason [(f.f2 != 0, 2), (f.imm.getLsbD 7, 2), (rq && rm != 0, 2),
      (t == 6 || t == 7 || decide (13 ≤ t), 3), (rq && !accInt f.ty, 3)]
  | .mmode f =>
    firstReason [(f.f2 != 0 || f.ty != 0 || f.mp != 0 || f.sa != 0 || f.bank != 0, 2), (decide (31 < f.imm.toNat), 2)]
  | .mgsel f =>
    firstReason [(f.f2 != 0 || f.ty != 0 || f.imm != 0 || f.mp != 0 || f.bank != 0, 2),
      (f.sa.getLsbD 0 || decide (54 < f.sa.toNat), 6)]
  | .mwr f => firstReason [(f.f2 != 0 || f.ty != 0 || f.imm != 0 || f.mp != 0 || f.bank != 0, 2)]
  | .mwait f => firstReason [(f.f2 != 0 || f.ty != 0 || f.imm != 0 || f.mp != 0 || f.sa != 0 || f.bank != 0, 2)]
  | .mrsum f =>
    firstReason [(f.f2 != 0 || f.ty != 0 || f.mp != 0 || f.bank != 0, 2), (decide (3 < f.imm.toNat), 2)]
  | .cp f | .cpm f | .sqfill f => firstReason [(f.f != 0 || f.st != 0 || f.sy != 0 || f.rg != 0, 2)]
  | .cpg f | .cps f => firstReason [(f.f != 0 || f.st != 0 || f.rg != 0, 2)]
  | .cpa f => firstReason [(f.st != 0 || f.sy != 0 || f.rg != 0, 2)]
  | .cdld f => firstReason [(f.f != 0 || f.st != 0 || f.sx != 0 || f.rg != 0, 2)]
  | .cpw f => firstReason [(f.st != 0 || f.sx != 0 || f.rg != 0 || f.cd != 0, 2)]
  | .rgcfg f | .rgpost f | .rgfree f => firstReason [(f.f != 0 || f.st != 0 || f.sx != 0 || f.cd != 0, 2)]
  | .sbind f => firstReason [(f.f != 0 || f.sx != 0 || f.cd != 0, 2)]
  | .sfree f => firstReason [(f.f != 0 || f.sy != 0 || f.sx != 0 || f.rg != 0 || f.cd != 0, 2)]
  | _ => 0

end Sys2Proof.Machine
end

