-- ==== Sys2Proof/WellFormed.lean ====
section
/-! DEFINITION. Well-formed instructions: the terms of `Instr` that stand for an encoding or an event the
manual gives. A slot operation is well formed when it passes the decode checks of R388; an event when it names
units that exist (R11, R12). -/

namespace Sys2Proof

open Sys2Proof.Machine

/-- A virtual function's number (R21). -/
def wfVf (n : Nat) : Bool := decide (n < 32)
/-- A Vale's number (R11). -/
def wfVale (n : Nat) : Bool := decide (n < 8)
/-- A core's number: 8 Vales of 192 cores (R11). -/
def wfCore (n : Nat) : Bool := decide (n < 1536)
/-- A control core's or a slice's number (R11). -/
def wfCtl (n : Nat) : Bool := decide (n < 64)
/-- A gang's number (R73). -/
def wfGang (n : Nat) : Bool := decide (n < 64)

/-- A RISC-V word that no Xamiyxo instruction takes: not in custom-0 to custom-3, and a compressed one has
nothing above its 16 bits (R141, R270). -/
def wfRiscv (w : BitVec 32) : Bool :=
  let op := w.toNat % 128
  if w.toNat % 4 = 3 then op != 0x0B && op != 0x2B && op != 0x5B && op != 0x7B else decide (w.toNat < 65536)

/-- Well-formed instructions and events. -/
def Instr.wf (i : Instr) : Bool :=
  match i with
  | .lnchv vf _ | .vfimg vf _ | .mbin vf _ | .vfjqWrite vf _ | .tmctlGo vf _ => wfVf vf
  | .mbostPop vf | .vfdctlSnap vf | .vfdctlSettle vf | .quotaPeriodStart vf | .quotaExhaustion vf => wfVf vf
  | .dirtySwitchComplete vf | .settleComplete vf | .writeProtectWindowCopied vf | .backgroundPull vf => wfVf vf
  | .fatalLaunchEnd vf | .hypervisorSuspend vf | .contextDestroy vf => wfVf vf
  | .vfMemoryWrite vf _ _ => wfVf vf
  | .vfMemoryRead vf _ _ => wfVf vf
  | .registerWrite (some vf) o _ => wfVf vf && decide (o % 8 = 0)
  | .registerWrite none o _ => decide (o % 8 = 0)
  | .ptpMessage p _ => decide (p < 2)
  | .ndetuPortDown p | .ndetuPortUp p => decide (p < 2)
  | .thermalLimit v n => wfVale v && decide (n.toNat ≤ 48)
  | .clockSwallowUpdate v n => wfVale v && decide (n.toNat ≤ 48)
  | .placeTableWrite v vf i _ => wfVale v && wfVf vf && decide (i < 200)
  | .bindEntryWrite sl e _ _ => wfCtl sl && decide (e < 8)
  | .quantumEnd g | .stepLimitExpiry g | .contextBind g | .preload g => wfCtl g
  | .newcomer g e => wfCtl g && decide (e < 8)
  | .contextSave vf v | .contextRestore vf v => wfVf vf && wfVale v
  | .bundleIssue k | .bundleFetch k | .matrixCommandStart k | .coreSleepWake k => wfCore k
  | .sequencerPrefetch k | .sequencerReady k | .sequencerBoundary k | .coreRetirement k => wfCore k
  | .resultLanding k _ | .matrixCommandFinish k _ => wfCore k
  | .stashFill k e => wfCore k && decide (e < 64)
  | .valeTlbLookup k e => wfCore k && decide (e < 256)
  | .pageWalkComplete v w _ => wfVale v && decide (w < 64)
  | .atomicApply k e | .ownershipGrant k e | .atomicResponse k e => wfCore k && decide (e < 64)
  | .barrierArrival k e => wfCore k && decide (e < 8)
  | .phaseBoundaryComplete v g _ => wfVale v && wfGang g
  | .copyComplete k e _ => wfCore k && decide (e < 32)
  | .ringWaitResume k e => wfCore k && decide (e < 32)
  | .xSleepWake k | .xMwaitTimeout k | .scoreboardClear k | .supervisorTimerInterrupt k => wfCtl k
  | .linkRetryExhausted l | .linkRetrain l => decide (l < 36)
  | .gangDispatch v g => wfVale v && wfGang g
  | .macroComplete k e | .macroStopped k e | .macroKilled k e | .collectiveComplete k e => wfCtl k && decide (e < 64)
  | .colAdmission v | .colDelivery v | .catchUpSweep v | .sweepEntry v => wfVale v
  | .basinMerge v _ => wfVale v
  | .collectiveRegistration k e r _ _ => wfCtl k && decide (e < 64) && decide (r < 1024)
  | .chunkDelivery k e r _ _ _ => wfCtl k && decide (e < 64) && decide (r < 1024)
  | .chunkAck k e r => wfCtl k && decide (e < 64) && decide (r < 1024)
  | .riscvInstruction w => wfRiscv w
  | i => slotReason i == 0

end Sys2Proof
end

