-- ==== Sys2Proof/Decode.lean ====
section
/-! DEFINITION. Decoding, total on any bits: slot words (R128, R131, R133, R137), bundles with the reason of
every refusal (R124, R125, R386 to R388), and control-core words (R141, R394); then the encoder, written from
the same tables, and the numbering of the opcode table. -/

namespace Sys2Proof

open Sys2Proof.Machine

/-! ## Field layouts -/

/-- SR fields of a word (R128). -/
def srOf (w : BitVec 32) : SR :=
  { pn := w.extractLsb' 30 1, pg := w.extractLsb' 26 4, sb := w.extractLsb' 20 6,
    sa := w.extractLsb' 14 6, sd := w.extractLsb' 8 6 }
/-- SI fields of a word with its extension. -/
def siOf (w : BitVec 32) (e : Option (BitVec 24)) : SI :=
  { imm := w.extractLsb' 20 12, ext := e, sa := w.extractLsb' 14 6, sd := w.extractLsb' 8 6 }
/-- SM fields. -/
def smOf (w : BitVec 32) (e : Option (BitVec 24)) : SM :=
  { imm := w.extractLsb' 23 9, ext := e, sx := w.extractLsb' 22 1, sz := w.extractLsb' 20 2,
    sa := w.extractLsb' 14 6, sd := w.extractLsb' 8 6 }
/-- SS fields. -/
def ssOf (w : BitVec 32) : SS :=
  { off := w.extractLsb' 17 12, sx := w.extractLsb' 16 1, sz := w.extractLsb' 14 2, sd := w.extractLsb' 8 6 }
/-- SA fields. -/
def saOf (w : BitVec 32) : SA :=
  { sz := w.extractLsb' 30 2, aop := w.extractLsb' 26 4, sb := w.extractLsb' 20 6,
    sa := w.extractLsb' 14 6, sd := w.extractLsb' 8 6 }
/-- SC fields, register form. -/
def scrOf (w : BitVec 32) : SCR :=
  { sb := w.extractLsb' 21 6, sa := w.extractLsb' 15 6, cc := w.extractLsb' 12 3, pd := w.extractLsb' 8 4 }
/-- SC fields, immediate form. -/
def sciOf (w : BitVec 32) (e : Option (BitVec 24)) : SCI :=
  { imm := w.extractLsb' 21 11, ext := e, sa := w.extractLsb' 15 6, cc := w.extractLsb' 12 3, pd := w.extractLsb' 8 4 }
/-- SP fields. -/
def spOf (w : BitVec 32) : SP :=
  { tt := w.extractLsb' 20 4, pb := w.extractLsb' 16 4, pa := w.extractLsb' 12 4, pd := w.extractLsb' 8 4 }
/-- V-slot fields (R131). -/
def vfOfWord (w : BitVec 48) : VF :=
  { fn := w.extractLsb' 42 6, sat := w.extractLsb' 41 1, rm := w.extractLsb' 39 2, ty := w.extractLsb' 35 4,
    vm := w.extractLsb' 32 3, vc := w.extractLsb' 26 6, vb := w.extractLsb' 20 6, va := w.extractLsb' 14 6,
    vd := w.extractLsb' 8 6 }
/-- M-slot fields (R133). -/
def mfOf (w : BitVec 32) : MF :=
  { f2 := w.extractLsb' 30 2, imm := w.extractLsb' 22 8, ty := w.extractLsb' 18 4, mp := w.extractLsb' 15 3,
    sa := w.extractLsb' 9 6, bank := w.extractLsb' 8 1 }
/-- C-slot fields (R137). -/
def cfOf (w : BitVec 32) : CF :=
  { f := w.extractLsb' 31 1, st := w.extractLsb' 28 3, sy := w.extractLsb' 22 6, sx := w.extractLsb' 16 6,
    rg := w.extractLsb' 12 4, cd := w.extractLsb' 8 4 }
/-- Register fields of an R-type word (R141). -/
def xfOf (w : BitVec 32) : XF :=
  { rd := w.extractLsb' 7 5, rs1 := w.extractLsb' 15 5, rs2 := w.extractLsb' 20 5 }

/-- An instruction, or the reason of R386 that its checks give. -/
def checkedSlot (i : Instr) : Except Nat (Option Instr) :=
  if slotReason i = 0 then .ok (some i) else .error (slotReason i)

/-- The same, where the bits `z`, which the operation does not use, must be zero (reason 2). -/
def checkedZero {n : Nat} (z : BitVec n) (i : Instr) : Except Nat (Option Instr) :=
  if z = 0 then checkedSlot i else .error 2

/-- The S-slot opcodes that take LIMM (R130). -/
def takesLimm (op : Nat) : Bool :=
  match op with
  | 0x10 | 0x11 | 0x12 | 0x13 | 0x17 | 0x18 | 0x21 | 0x30 | 0x31 | 0x34 | 0x35 | 0x36 | 0x37 | 0x40 => true
  | _ => false

/-- An S-slot operation that does not take LIMM, in the W word's place (R388 names slot W for it). -/
def plainSlot (e : Option (BitVec 24)) (r : Except Nat (Option Instr)) : Except Nat (Option Instr) :=
  if e.isSome then .error 5 else r

/-- The S slot: `none` for the nop, a reason of R386 where it fails decode (R130, R388). -/
def decodeS (w : BitVec 32) (e : Option (BitVec 24)) : Except Nat (Option Instr) :=
  match (w.extractLsb' 0 8).toNat with
  | 0x00 => plainSlot e (.ok none)
  | 0x01 => plainSlot e (checkedZero (w.extractLsb' 31 1) (.add (srOf w)))
  | 0x02 => plainSlot e (checkedZero (w.extractLsb' 31 1) (.sub (srOf w)))
  | 0x03 => plainSlot e (checkedZero (w.extractLsb' 31 1) (.sAnd (srOf w)))
  | 0x04 => plainSlot e (checkedZero (w.extractLsb' 31 1) (.sOr (srOf w)))
  | 0x05 => plainSlot e (checkedZero (w.extractLsb' 31 1) (.xor (srOf w)))
  | 0x06 => plainSlot e (checkedZero (w.extractLsb' 31 1) (.shl (srOf w)))
  | 0x07 => plainSlot e (checkedZero (w.extractLsb' 31 1) (.shr (srOf w)))
  | 0x08 => plainSlot e (checkedZero (w.extractLsb' 31 1) (.sra (srOf w)))
  | 0x09 => plainSlot e (checkedZero (w.extractLsb' 31 1) (.mul (srOf w)))
  | 0x0A => plainSlot e (checkedZero (w.extractLsb' 31 1) (.mulh (srOf w)))
  | 0x0B => plainSlot e (checkedZero (w.extractLsb' 31 1) (.mulhu (srOf w)))
  | 0x0C => plainSlot e (checkedZero (w.extractLsb' 31 1) (.min (srOf w)))
  | 0x0D => plainSlot e (checkedZero (w.extractLsb' 31 1) (.max (srOf w)))
  | 0x0E => plainSlot e (checkedZero (w.extractLsb' 31 1) (.minu (srOf w)))
  | 0x0F => plainSlot e (checkedZero (w.extractLsb' 31 1) (.maxu (srOf w)))
  | 0x19 => plainSlot e (checkedZero (w.extractLsb' 31 1) (.clz (srOf w)))
  | 0x1A => plainSlot e (checkedZero (w.extractLsb' 31 1) (.popc (srOf w)))
  | 0x1B => plainSlot e (checkedZero (w.extractLsb' 31 1) (.sel (srOf w)))
  | 0x10 => checkedSlot (.addi (siOf w e))
  | 0x11 => checkedSlot (.andi (siOf w e))
  | 0x12 => checkedSlot (.ori (siOf w e))
  | 0x13 => checkedSlot (.xori (siOf w e))
  | 0x14 => plainSlot e (checkedSlot (.shli (siOf w e)))
  | 0x15 => plainSlot e (checkedSlot (.shri (siOf w e)))
  | 0x16 => plainSlot e (checkedSlot (.srai (siOf w e)))
  | 0x17 => checkedSlot (.li (siOf w e))
  | 0x18 => checkedSlot (.lih (siOf w e))
  | 0x20 => plainSlot e (checkedZero (w.extractLsb' 27 5) (.cmp (scrOf w)))
  | 0x21 => checkedSlot (.cmpi (sciOf w e))
  | 0x22 => plainSlot e (checkedZero (w.extractLsb' 24 8) (.plog (spOf w)))
  | 0x30 => checkedSlot (.ld (smOf w e))
  | 0x31 => checkedSlot (.st (smOf w e))
  | 0x34 => checkedSlot (.ldg (smOf w e))
  | 0x35 => checkedSlot (.stg (smOf w e))
  | 0x36 => checkedSlot (.probe (smOf w e))
  | 0x37 => checkedSlot (.sqld (smOf w e))
  | 0x32 => plainSlot e (checkedZero (w.extractLsb' 29 3) (.lds (ssOf w)))
  | 0x33 => plainSlot e (checkedZero (w.extractLsb' 29 3) (.sts (ssOf w)))
  | 0x38 => plainSlot e (checkedSlot (.amo (saOf w)))
  | 0x39 => plainSlot e (checkedSlot (.cas (saOf w)))
  | 0x40 => checkedZero (w.extractLsb' 11 1) (.pbr (w.extractLsb' 12 20) e (w.extractLsb' 8 3))
  | 0x41 => plainSlot e (checkedZero (w.extractLsb' 18 14 ++ w.extractLsb' 11 1) (.pbrr (w.extractLsb' 12 6) (w.extractLsb' 8 3)))
  | 0x42 => plainSlot e (checkedZero (w.extractLsb' 16 16) (.br (w.extractLsb' 12 4) (w.extractLsb' 11 1) (w.extractLsb' 8 3)))
  | 0x43 => plainSlot e (checkedZero (w.extractLsb' 22 10) (.brl (w.extractLsb' 16 6) (w.extractLsb' 12 4) (w.extractLsb' 11 1) (w.extractLsb' 8 3)))
  | 0x44 => plainSlot e (checkedSlot (.loop (w.extractLsb' 16 16) (w.extractLsb' 10 6) (w.extractLsb' 8 2)))
  | 0x45 => plainSlot e (checkedZero (w.extractLsb' 8 24) .halt)
  | 0x50 => plainSlot e (checkedZero (w.extractLsb' 8 12) (.gjoin (w.extractLsb' 20 12)))
  | 0x51 => plainSlot e (checkedZero (w.extractLsb' 8 12) (.gleave (w.extractLsb' 20 12)))
  | 0x52 => plainSlot e (checkedZero (w.extractLsb' 8 12) (.gbar (w.extractLsb' 20 12)))
  | 0x53 => plainSlot e (checkedZero (w.extractLsb' 8 12) (.garr (w.extractLsb' 20 12)))
  | 0x54 => plainSlot e (checkedZero (w.extractLsb' 8 12) (.gwait (w.extractLsb' 20 12)))
  | 0x55 => plainSlot e (checkedZero (w.extractLsb' 8 12) (.phase (w.extractLsb' 20 12)))
  | 0x56 => plainSlot e (checkedZero (w.extractLsb' 8 12) (.sync (w.extractLsb' 20 12)))
  | 0x57 => plainSlot e (checkedZero (w.extractLsb' 20 12) (.waita (w.extractLsb' 8 6) (w.extractLsb' 14 6)))
  | 0x58 => plainSlot e (checkedZero (w.extractLsb' 20 12 ++ w.extractLsb' 8 6) (.sleep (w.extractLsb' 14 6)))
  | 0x59 => plainSlot e (checkedZero (w.extractLsb' 14 18) (.rdns (w.extractLsb' 8 6)))
  | 0x5A => plainSlot e (checkedZero (w.extractLsb' 14 18) (.rdnj (w.extractLsb' 8 6)))
  | 0x5B => plainSlot e (checkedZero (w.extractLsb' 14 6) (.csrr (w.extractLsb' 8 6) (w.extractLsb' 20 12)))
  | 0x5C => plainSlot e (checkedZero (w.extractLsb' 8 6) (.csrw (w.extractLsb' 20 12) (w.extractLsb' 14 6)))
  | 0x5D => plainSlot e (checkedZero (w.extractLsb' 8 12) (.trap (w.extractLsb' 20 12)))
  | 0x5E => plainSlot e (checkedZero (w.extractLsb' 8 12) (.brk (w.extractLsb' 20 12)))
  | _ => .error 1

/-- A vector slot (R132, R388). -/
def decodeV (w : BitVec 48) : Except Nat (Option Instr) :=
  match (w.extractLsb' 0 8).toNat with
  | 0x00 => .ok none
  | 0x01 => checkedSlot (.vadd (vfOfWord w))
  | 0x02 => checkedSlot (.vsub (vfOfWord w))
  | 0x03 => checkedSlot (.vmul (vfOfWord w))
  | 0x04 => checkedSlot (.vfma (vfOfWord w))
  | 0x05 => checkedSlot (.vfms (vfOfWord w))
  | 0x06 => checkedSlot (.vmin (vfOfWord w))
  | 0x07 => checkedSlot (.vmax (vfOfWord w))
  | 0x08 => checkedSlot (.vabs (vfOfWord w))
  | 0x09 => checkedSlot (.vneg (vfOfWord w))
  | 0x10 => checkedSlot (.vand (vfOfWord w))
  | 0x11 => checkedSlot (.vor (vfOfWord w))
  | 0x12 => checkedSlot (.vxor (vfOfWord w))
  | 0x13 => checkedSlot (.vshl (vfOfWord w))
  | 0x14 => checkedSlot (.vshr (vfOfWord w))
  | 0x15 => checkedSlot (.vsra (vfOfWord w))
  | 0x18 => checkedSlot (.vcmp (vfOfWord w))
  | 0x20 => checkedSlot (.vcvt (vfOfWord w))
  | 0x21 => checkedSlot (.vrq (vfOfWord w))
  | 0x28 => checkedSlot (.vexp2 (vfOfWord w))
  | 0x29 => checkedSlot (.vtanh (vfOfWord w))
  | 0x2A => checkedSlot (.vlgst (vfOfWord w))
  | 0x2B => checkedSlot (.vrcp (vfOfWord w))
  | 0x2C => checkedSlot (.vrsqrt (vfOfWord w))
  | 0x30 => checkedSlot (.vredsum (vfOfWord w))
  | 0x31 => checkedSlot (.vredmax (vfOfWord w))
  | 0x32 => checkedSlot (.vredmin (vfOfWord w))
  | 0x33 => checkedSlot (.vstat (vfOfWord w))
  | 0x38 => checkedSlot (.vperm (vfOfWord w))
  | 0x39 => checkedSlot (.vbcast (vfOfWord w))
  | 0x3A => checkedSlot (.vmov (vfOfWord w))
  | 0x3B => checkedSlot (.vsel (vfOfWord w))
  | 0x3C => checkedSlot (.vslide (vfOfWord w))
  | 0x40 => checkedSlot (.vld (vfOfWord w))
  | 0x41 => checkedSlot (.vst (vfOfWord w))
  | 0x42 => checkedSlot (.vgth (vfOfWord w))
  | 0x43 => checkedSlot (.vsct (vfOfWord w))
  | 0x44 => checkedSlot (.vamo (vfOfWord w))
  | 0x48 => checkedSlot (.vunp3 (vfOfWord w))
  | 0x49 => checkedSlot (.vtacc (vfOfWord w))
  | 0x4A => checkedSlot (.vdp8 (vfOfWord w))
  | 0x4B => checkedSlot (.vpack (vfOfWord w))
  | 0x4C => checkedSlot (.vwide (vfOfWord w))
  | 0x50 => checkedSlot (.vxadd (vfOfWord w))
  | 0x51 => checkedSlot (.vxcvt (vfOfWord w))
  | _ => .error 1

/-- The matrix slot (R134, R388). -/
def decodeM (w : BitVec 32) : Except Nat (Option Instr) :=
  match (w.extractLsb' 0 8).toNat with
  | 0x00 => .ok none
  | 0x01 => checkedSlot (.mcall (mfOf w))
  | 0x02 => checkedSlot (.mpset (mfOf w))
  | 0x03 => checkedSlot (.mzero (mfOf w))
  | 0x04 => checkedSlot (.mdrain (mfOf w))
  | 0x05 => checkedSlot (.mmode (mfOf w))
  | 0x06 => checkedSlot (.mgsel (mfOf w))
  | 0x07 => checkedSlot (.mwr (mfOf w))
  | 0x08 => checkedSlot (.mwait (mfOf w))
  | 0x09 => checkedSlot (.mrsum (mfOf w))
  | _ => .error 1

/-- A copy slot (R138, R388). -/
def decodeC (w : BitVec 32) : Except Nat (Option Instr) :=
  match (w.extractLsb' 0 8).toNat with
  | 0x00 => .ok none
  | 0x01 => checkedSlot (.cp (cfOf w))
  | 0x02 => checkedSlot (.cpm (cfOf w))
  | 0x03 => checkedSlot (.cpg (cfOf w))
  | 0x04 => checkedSlot (.cps (cfOf w))
  | 0x05 => checkedSlot (.cpa (cfOf w))
  | 0x06 => checkedSlot (.cdld (cfOf w))
  | 0x07 => checkedSlot (.cpw (cfOf w))
  | 0x08 => checkedSlot (.rgcfg (cfOf w))
  | 0x09 => checkedSlot (.rgpost (cfOf w))
  | 0x0A => checkedSlot (.rgfree (cfOf w))
  | 0x0B => checkedSlot (.sbind (cfOf w))
  | 0x0C => checkedSlot (.sfree (cfOf w))
  | 0x0D => checkedSlot (.sqfill (cfOf w))
  | _ => .error 1

/-! ## Bundles (R124, R125, R386 to R388) -/

/-- A failed decode check: reason, opcode, slot and detail of R386. -/
structure BundleFault where
  reason : Nat
  opcode : Nat
  slot : Nat
  detail : Nat := 0
deriving DecidableEq, Repr

/-- A decoded bundle: the operation of each slot, `none` for a nop, and its idle clk. -/
structure Bundle where
  s : Option Instr := none
  v0 : Option Instr := none
  v1 : Option Instr := none
  m : Option Instr := none
  c0 : Option Instr := none
  c1 : Option Instr := none
  idle : Nat := 0
deriving DecidableEq, Repr

/-- A destination that two slots of one bundle may not share (R84, R388). -/
inductive Target where
  | scalar (n : Nat) | vec (n : Nat) | mask (n : Nat) | stream (n : Nat)
deriving DecidableEq, Repr

/-- A scalar destination; `s0` never conflicts. -/
def scalarTarget (n : BitVec 6) : List Target := if n = 0 then [] else [.scalar n.toNat]

/-- n consecutive vector registers from a field, or the stream it names. -/
def vecTarget (v : BitVec 6) (n : Nat) : List Target :=
  if isStream v then [.stream (v.toNat - 56)] else (List.range n).map fun i => .vec (v.toNat + i)

/-- The destinations of a slot operation that conflicts are counted over (R388). -/
def targets (i : Instr) : List Target :=
  match i with
  | .add f | .sub f | .sAnd f | .sOr f | .xor f | .shl f | .shr f | .sra f | .mul f | .mulh f | .mulhu f | .min f | .max f | .minu f | .maxu f | .clz f | .popc f | .sel f => scalarTarget f.sd
  | .addi f | .andi f | .ori f | .xori f | .shli f | .shri f | .srai f | .li f | .lih f => scalarTarget f.sd
  | .ld f | .ldg f | .probe f => scalarTarget f.sd
  | .lds f => scalarTarget f.sd
  | .amo f | .cas f => scalarTarget f.sd
  | .brl sd _ _ _ | .waita sd _ | .rdns sd | .rdnj sd | .csrr sd _ => scalarTarget sd
  | .vcmp f => if f.vd = 0 then [] else [.mask f.vd.toNat]
  | .vst _ | .vsct _ | .vamo _ => []
  | .vstat f => vecTarget f.vd 3
  | .vexp2 f | .vmov f | .vsel f => vecTarget f.vd (if f.ty = 13 then 2 else 1)
  | .vxadd f => vecTarget f.vd 2
  | .vxcvt f => vecTarget f.vd (if f.ty = 13 then 2 else 1)
  | .vadd f | .vsub f | .vmul f | .vfma f | .vfms f | .vmin f | .vmax f | .vabs f | .vneg f | .vand f | .vor f | .vxor f | .vshl f | .vshr f | .vsra f | .vcvt f | .vrq f | .vtanh f | .vlgst f | .vrcp f | .vrsqrt f | .vredsum f | .vredmax f | .vredmin f | .vperm f | .vbcast f | .vslide f | .vld f | .vgth f | .vunp3 f | .vtacc f | .vdp8 f | .vpack f | .vwide f => vecTarget f.vd 1
  | .mrsum f => vecTarget f.sa 1
  | .mdrain f => if f.imm.getLsbD 0 then [.stream (f.imm.toNat / 2 % 8)] else []
  | .cp f | .cpm f | .cpg f | .cps f | .cpa f | .sqfill f => scalarTarget f.sx
  | _ => []

/-- The earliest slot whose destinations meet `t`. -/
def conflictWith (t : List Target) : List (Nat × List Target) → Option Nat
  | [] => none
  | (n, u) :: rest => if t.any (fun x => u.contains x) then some n else conflictWith t rest

/-- The slots of a bundle checked in order: first failing slot, its own reason before a conflict with an
earlier slot (R387, R388). `seen` holds the earlier slots' destinations. -/
def checkSlots (seen : List (Nat × List Target)) : List (Nat × Nat × Except Nat (Option Instr)) → Option BundleFault
  | [] => none
  | (n, op, .error r) :: _ => some { reason := r, opcode := op, slot := n }
  | (_, _, .ok none) :: rest => checkSlots seen rest
  | (n, op, .ok (some i)) :: rest =>
    match conflictWith (targets i) seen with
    | some e => some { reason := 4, opcode := op, slot := n, detail := e }
    | none => checkSlots (seen ++ [(n, targets i)]) rest

/-- The operation of a slot that passed its checks. -/
def slotInstr (r : Except Nat (Option Instr)) : Option Instr :=
  match r with
  | .ok i => i
  | .error _ => none

/-- A 256-bit bundle decoded, or the check it fails (R124 to R126, R386 to R388). -/
def decodeBundle (w : BitVec 256) : Except BundleFault Bundle :=
  let sw : BitVec 32 := w.extractLsb' 0 32
  let v0 : BitVec 48 := w.extractLsb' 32 48
  let v1 : BitVec 48 := w.extractLsb' 80 48
  let mw : BitVec 32 := w.extractLsb' 128 32
  let c0 : BitVec 32 := w.extractLsb' 160 32
  let c1 : BitVec 32 := w.extractLsb' 192 32
  let ww : BitVec 32 := w.extractLsb' 224 32
  let ext : Option (BitVec 24) := if ww.getLsbD 5 then some (ww.extractLsb' 8 24) else none
  let sop := sw.toNat % 256
  let ds := decodeS sw ext
  if ww.extractLsb' 6 2 ≠ 0#2 then .error { reason := 2, opcode := 0, slot := 6 }
  else if (match ds with
      | .error 5 => true
      | _ => false) then .error { reason := 5, opcode := sop, slot := 6 }
  else
    let slots := [(0, sop, ds), (1, v0.toNat % 256, decodeV v0), (2, v1.toNat % 256, decodeV v1),
      (3, mw.toNat % 256, decodeM mw), (4, c0.toNat % 256, decodeC c0), (5, c1.toNat % 256, decodeC c1)]
    match checkSlots [] slots with
    | some f => .error f
    | none => .ok { s := slotInstr ds, v0 := slotInstr (decodeV v0), v1 := slotInstr (decodeV v1),
                    m := slotInstr (decodeM mw), c0 := slotInstr (decodeC c0), c1 := slotInstr (decodeC c1),
                    idle := ww.toNat % 32 }

/-! ## Control-core words (R141, R270, R394) -/

/-- A Xamiyxo form: the instruction where its unused register fields are x0 and funct3 is as given. -/
def xForm (ok : Bool) (w : BitVec 32) (i : Instr) : Instr := if ok then i else .riscvInstruction w

/-- A 32-bit control-core word: a Xamiyxo instruction, or a word of the RISC-V base, to which every encoding
that R394 calls illegal also goes. -/
def decodeCtl (w : BitVec 32) : Instr :=
  let f := xfOf w
  let f3 := (w.extractLsb' 12 3).toNat
  match (w.extractLsb' 0 7).toNat, (w.extractLsb' 25 7).toNat with
  | 0x0B, 0x01 => if f3 = 0 then .mGemm f else xForm (f3 == 1) w (.mGemmR f)
  | 0x0B, 0x02 => if f3 = 0 then .mConv f else xForm (f3 == 1) w (.mConvR f)
  | 0x0B, 0x03 => if f3 = 0 then .mAttn f else xForm (f3 == 1) w (.mAttnR f)
  | 0x0B, 0x04 => if f3 = 0 then .mSort f else xForm (f3 == 1) w (.mSortR f)
  | 0x0B, 0x05 => if f3 = 0 then .mGath f else xForm (f3 == 1) w (.mGathR f)
  | 0x0B, 0x06 => if f3 = 0 then .mScat f else xForm (f3 == 1) w (.mScatR f)
  | 0x0B, 0x07 => if f3 = 0 then .mNorm f else xForm (f3 == 1) w (.mNormR f)
  | 0x0B, 0x08 => if f3 = 0 then .mKern f else xForm (f3 == 1) w (.mKernR f)
  | 0x0B, 0x09 => if f3 = 0 then .mRcpy f else xForm (f3 == 1) w (.mRcpyR f)
  | 0x0B, 0x0A => if f3 = 0 then .mRinit f else xForm (f3 == 1) w (.mRinitR f)
  | 0x2B, 0x01 => xForm (f3 == 0 && f.rs2 == 0) w (.mWait f.rd f.rs1)
  | 0x2B, 0x02 => xForm (f3 == 0) w (.mStat f)
  | 0x2B, 0x03 => xForm (f3 == 0 && f.rs2 == 0) w (.mResume f.rd f.rs1)
  | 0x2B, 0x04 => xForm (f3 == 0 && f.rs2 == 0 && f.rd == 0) w (.mKill f.rs1)
  | 0x2B, 0x05 => xForm (f3 == 0 && f.rs2 == 0 && f.rs1 == 0 && f.rd == 0) w (.mFence)
  | 0x5B, 0x01 => if f3 = 0 then .cAred f else xForm (f3 == 1) w (.cAredR f)
  | 0x5B, 0x02 => if f3 = 0 then .cAgat f else xForm (f3 == 1) w (.cAgatR f)
  | 0x5B, 0x03 => if f3 = 0 then .cRsct f else xForm (f3 == 1) w (.cRsctR f)
  | 0x5B, 0x04 => if f3 = 0 then .cA2a f else xForm (f3 == 1) w (.cA2aR f)
  | 0x5B, 0x05 => if f3 = 0 then .cBcst f else xForm (f3 == 1) w (.cBcstR f)
  | 0x5B, 0x06 => if f3 = 0 then .cSend f else xForm (f3 == 1) w (.cSendR f)
  | 0x5B, 0x07 => if f3 = 0 then .cRecv f else xForm (f3 == 1) w (.cRecvR f)
  | 0x5B, 0x08 => if f3 = 0 then .cBar f else xForm (f3 == 1) w (.cBarR f)
  | 0x5B, 0x10 => xForm (f3 == 0 && f.rs2 == 0) w (.gForm f.rd f.rs1)
  | 0x5B, 0x11 => xForm (f3 == 0 && f.rs2 == 0 && f.rd == 0) w (.gFree f.rs1)
  | 0x7B, 0x01 => xForm (f3 == 0 && f.rs2 == 0 && f.rd == 0) w (.xSleep f.rs1)
  | 0x7B, 0x02 => xForm (f3 == 0 && f.rs2 == 0) w (.xMon f.rd f.rs1)
  | 0x7B, 0x03 => xForm (f3 == 0 && f.rs2 == 0) w (.xMwait f.rd f.rs1)
  | 0x7B, 0x04 => xForm (f3 == 0 && f.rs2 == 0 && f.rs1 == 0) w (.tqPop f.rd)
  | 0x7B, 0x05 => xForm (f3 == 0 && f.rs2 == 0 && f.rd == 0) w (.tqAck f.rs1)
  | _, _ => .riscvInstruction w

/-- What stands at a control core's pc, from the 32 bits there: a compressed instruction takes 16 of them
(R270). -/
def decodeAtPc (w : BitVec 32) : Instr × Nat :=
  if w.extractLsb' 0 2 = 3#2 then (decodeCtl w, 4) else (.riscvInstruction ((w.extractLsb' 0 16).setWidth 32), 2)

/-! ## The encoder -/

/-- The code of an instruction: a slot's word, with the LIMM of the bundle for the S slot, or a control-core
word. -/
inductive Code where
  | s (w : BitVec 32) (ext : Option (BitVec 24))
  | v (w : BitVec 48)
  | m (w : BitVec 32)
  | c (w : BitVec 32)
  | ctl (w : BitVec 32)
deriving DecidableEq, Repr

/-- SR word (R128). -/
def encSR (op : BitVec 8) (f : SR) : Code := .s (0#1 ++ f.pn ++ f.pg ++ f.sb ++ f.sa ++ f.sd ++ op) none
/-- SI word. -/
def encSI (op : BitVec 8) (f : SI) : Code := .s (f.imm ++ f.sa ++ f.sd ++ op) f.ext
/-- SM word. -/
def encSM (op : BitVec 8) (f : SM) : Code := .s (f.imm ++ f.sx ++ f.sz ++ f.sa ++ f.sd ++ op) f.ext
/-- SS word. -/
def encSS (op : BitVec 8) (f : SS) : Code := .s (0#3 ++ f.off ++ f.sx ++ f.sz ++ f.sd ++ op) none
/-- SA word. -/
def encSA (op : BitVec 8) (f : SA) : Code := .s (f.sz ++ f.aop ++ f.sb ++ f.sa ++ f.sd ++ op) none
/-- SI word of fields imm12, sa, sd. -/
def encI (op : BitVec 8) (imm : BitVec 12) (sa sd : BitVec 6) : Code := .s (imm ++ sa ++ sd ++ op) none
/-- V word (R131). -/
def encV (op : BitVec 8) (f : VF) : Code :=
  .v (f.fn ++ f.sat ++ f.rm ++ f.ty ++ f.vm ++ f.vc ++ f.vb ++ f.va ++ f.vd ++ op)
/-- M word (R133). -/
def encM (op : BitVec 8) (f : MF) : Code := .m (f.f2 ++ f.imm ++ f.ty ++ f.mp ++ f.sa ++ f.bank ++ op)
/-- C word (R137). -/
def encC (op : BitVec 8) (f : CF) : Code := .c (f.f ++ f.st ++ f.sy ++ f.sx ++ f.rg ++ f.cd ++ op)
/-- Xamiyxo word (R141). -/
def encX (op f7 : BitVec 7) (f3 : BitVec 3) (rd rs1 rs2 : BitVec 5) : Code :=
  .ctl (f7 ++ rs2 ++ rs1 ++ f3 ++ rd ++ op)

/-- The encoding of an instruction; `none` for host writes and events, which have none. -/
def encode (i : Instr) : Option Code :=
  match i with
  | .add f => some (encSR 0x01 f)
  | .sub f => some (encSR 0x02 f)
  | .sAnd f => some (encSR 0x03 f)
  | .sOr f => some (encSR 0x04 f)
  | .xor f => some (encSR 0x05 f)
  | .shl f => some (encSR 0x06 f)
  | .shr f => some (encSR 0x07 f)
  | .sra f => some (encSR 0x08 f)
  | .mul f => some (encSR 0x09 f)
  | .mulh f => some (encSR 0x0A f)
  | .mulhu f => some (encSR 0x0B f)
  | .min f => some (encSR 0x0C f)
  | .max f => some (encSR 0x0D f)
  | .minu f => some (encSR 0x0E f)
  | .maxu f => some (encSR 0x0F f)
  | .clz f => some (encSR 0x19 f)
  | .popc f => some (encSR 0x1A f)
  | .sel f => some (encSR 0x1B f)
  | .addi f => some (encSI 0x10 f)
  | .andi f => some (encSI 0x11 f)
  | .ori f => some (encSI 0x12 f)
  | .xori f => some (encSI 0x13 f)
  | .shli f => some (encSI 0x14 f)
  | .shri f => some (encSI 0x15 f)
  | .srai f => some (encSI 0x16 f)
  | .li f => some (encSI 0x17 f)
  | .lih f => some (encSI 0x18 f)
  | .cmp f => some (.s (0#5 ++ f.sb ++ f.sa ++ f.cc ++ f.pd ++ 0x20#8) none)
  | .cmpi f => some (.s (f.imm ++ f.sa ++ f.cc ++ f.pd ++ 0x21#8) f.ext)
  | .plog f => some (.s (0#8 ++ f.tt ++ f.pb ++ f.pa ++ f.pd ++ 0x22#8) none)
  | .ld f => some (encSM 0x30 f)
  | .st f => some (encSM 0x31 f)
  | .ldg f => some (encSM 0x34 f)
  | .stg f => some (encSM 0x35 f)
  | .probe f => some (encSM 0x36 f)
  | .sqld f => some (encSM 0x37 f)
  | .lds f => some (encSS 0x32 f)
  | .sts f => some (encSS 0x33 f)
  | .amo f => some (encSA 0x38 f)
  | .cas f => some (encSA 0x39 f)
  | .pbr off e b => some (.s (off ++ 0#1 ++ b ++ 0x40#8) e)
  | .pbrr sa b => some (.s (0#14 ++ sa ++ 0#1 ++ b ++ 0x41#8) none)
  | .br pg pn b => some (.s (0#16 ++ pg ++ pn ++ b ++ 0x42#8) none)
  | .brl sd pg pn b => some (.s (0#10 ++ sd ++ pg ++ pn ++ b ++ 0x43#8) none)
  | .loop off sa l => some (.s (off ++ sa ++ l ++ 0x44#8) none)
  | .halt => some (.s 0x45#32 none)
  | .gjoin g => some (encI 0x50 g 0 0)
  | .gleave g => some (encI 0x51 g 0 0)
  | .gbar g => some (encI 0x52 g 0 0)
  | .garr g => some (encI 0x53 g 0 0)
  | .gwait g => some (encI 0x54 g 0 0)
  | .phase g => some (encI 0x55 g 0 0)
  | .sync g => some (encI 0x56 g 0 0)
  | .waita sd sa => some (encI 0x57 0 sa sd)
  | .sleep sa => some (encI 0x58 0 sa 0)
  | .rdns sd => some (encI 0x59 0 0 sd)
  | .rdnj sd => some (encI 0x5A 0 0 sd)
  | .csrr sd csr => some (encI 0x5B csr 0 sd)
  | .csrw csr sa => some (encI 0x5C csr sa 0)
  | .trap code => some (encI 0x5D code 0 0)
  | .brk code => some (encI 0x5E code 0 0)
  | .vadd f => some (encV 0x01 f)
  | .vsub f => some (encV 0x02 f)
  | .vmul f => some (encV 0x03 f)
  | .vfma f => some (encV 0x04 f)
  | .vfms f => some (encV 0x05 f)
  | .vmin f => some (encV 0x06 f)
  | .vmax f => some (encV 0x07 f)
  | .vabs f => some (encV 0x08 f)
  | .vneg f => some (encV 0x09 f)
  | .vand f => some (encV 0x10 f)
  | .vor f => some (encV 0x11 f)
  | .vxor f => some (encV 0x12 f)
  | .vshl f => some (encV 0x13 f)
  | .vshr f => some (encV 0x14 f)
  | .vsra f => some (encV 0x15 f)
  | .vcmp f => some (encV 0x18 f)
  | .vcvt f => some (encV 0x20 f)
  | .vrq f => some (encV 0x21 f)
  | .vexp2 f => some (encV 0x28 f)
  | .vtanh f => some (encV 0x29 f)
  | .vlgst f => some (encV 0x2A f)
  | .vrcp f => some (encV 0x2B f)
  | .vrsqrt f => some (encV 0x2C f)
  | .vredsum f => some (encV 0x30 f)
  | .vredmax f => some (encV 0x31 f)
  | .vredmin f => some (encV 0x32 f)
  | .vstat f => some (encV 0x33 f)
  | .vperm f => some (encV 0x38 f)
  | .vbcast f => some (encV 0x39 f)
  | .vmov f => some (encV 0x3A f)
  | .vsel f => some (encV 0x3B f)
  | .vslide f => some (encV 0x3C f)
  | .vld f => some (encV 0x40 f)
  | .vst f => some (encV 0x41 f)
  | .vgth f => some (encV 0x42 f)
  | .vsct f => some (encV 0x43 f)
  | .vamo f => some (encV 0x44 f)
  | .vunp3 f => some (encV 0x48 f)
  | .vtacc f => some (encV 0x49 f)
  | .vdp8 f => some (encV 0x4A f)
  | .vpack f => some (encV 0x4B f)
  | .vwide f => some (encV 0x4C f)
  | .vxadd f => some (encV 0x50 f)
  | .vxcvt f => some (encV 0x51 f)
  | .mcall f => some (encM 0x01 f)
  | .mpset f => some (encM 0x02 f)
  | .mzero f => some (encM 0x03 f)
  | .mdrain f => some (encM 0x04 f)
  | .mmode f => some (encM 0x05 f)
  | .mgsel f => some (encM 0x06 f)
  | .mwr f => some (encM 0x07 f)
  | .mwait f => some (encM 0x08 f)
  | .mrsum f => some (encM 0x09 f)
  | .cp f => some (encC 0x01 f)
  | .cpm f => some (encC 0x02 f)
  | .cpg f => some (encC 0x03 f)
  | .cps f => some (encC 0x04 f)
  | .cpa f => some (encC 0x05 f)
  | .cdld f => some (encC 0x06 f)
  | .cpw f => some (encC 0x07 f)
  | .rgcfg f => some (encC 0x08 f)
  | .rgpost f => some (encC 0x09 f)
  | .rgfree f => some (encC 0x0A f)
  | .sbind f => some (encC 0x0B f)
  | .sfree f => some (encC 0x0C f)
  | .sqfill f => some (encC 0x0D f)
  | .mGemm f => some (encX 0x0B 0x01 0 f.rd f.rs1 f.rs2)
  | .mGemmR f => some (encX 0x0B 0x01 1 f.rd f.rs1 f.rs2)
  | .mConv f => some (encX 0x0B 0x02 0 f.rd f.rs1 f.rs2)
  | .mConvR f => some (encX 0x0B 0x02 1 f.rd f.rs1 f.rs2)
  | .mAttn f => some (encX 0x0B 0x03 0 f.rd f.rs1 f.rs2)
  | .mAttnR f => some (encX 0x0B 0x03 1 f.rd f.rs1 f.rs2)
  | .mSort f => some (encX 0x0B 0x04 0 f.rd f.rs1 f.rs2)
  | .mSortR f => some (encX 0x0B 0x04 1 f.rd f.rs1 f.rs2)
  | .mGath f => some (encX 0x0B 0x05 0 f.rd f.rs1 f.rs2)
  | .mGathR f => some (encX 0x0B 0x05 1 f.rd f.rs1 f.rs2)
  | .mScat f => some (encX 0x0B 0x06 0 f.rd f.rs1 f.rs2)
  | .mScatR f => some (encX 0x0B 0x06 1 f.rd f.rs1 f.rs2)
  | .mNorm f => some (encX 0x0B 0x07 0 f.rd f.rs1 f.rs2)
  | .mNormR f => some (encX 0x0B 0x07 1 f.rd f.rs1 f.rs2)
  | .mKern f => some (encX 0x0B 0x08 0 f.rd f.rs1 f.rs2)
  | .mKernR f => some (encX 0x0B 0x08 1 f.rd f.rs1 f.rs2)
  | .mRcpy f => some (encX 0x0B 0x09 0 f.rd f.rs1 f.rs2)
  | .mRcpyR f => some (encX 0x0B 0x09 1 f.rd f.rs1 f.rs2)
  | .mRinit f => some (encX 0x0B 0x0A 0 f.rd f.rs1 f.rs2)
  | .mRinitR f => some (encX 0x0B 0x0A 1 f.rd f.rs1 f.rs2)
  | .mWait rd rs1 => some (encX 0x2B 0x01 0 rd rs1 0)
  | .mStat f => some (encX 0x2B 0x02 0 f.rd f.rs1 f.rs2)
  | .mResume rd rs1 => some (encX 0x2B 0x03 0 rd rs1 0)
  | .mKill rs1 => some (encX 0x2B 0x04 0 0 rs1 0)
  | .mFence => some (encX 0x2B 0x05 0 0 0 0)
  | .cAred f => some (encX 0x5B 0x01 0 f.rd f.rs1 f.rs2)
  | .cAredR f => some (encX 0x5B 0x01 1 f.rd f.rs1 f.rs2)
  | .cAgat f => some (encX 0x5B 0x02 0 f.rd f.rs1 f.rs2)
  | .cAgatR f => some (encX 0x5B 0x02 1 f.rd f.rs1 f.rs2)
  | .cRsct f => some (encX 0x5B 0x03 0 f.rd f.rs1 f.rs2)
  | .cRsctR f => some (encX 0x5B 0x03 1 f.rd f.rs1 f.rs2)
  | .cA2a f => some (encX 0x5B 0x04 0 f.rd f.rs1 f.rs2)
  | .cA2aR f => some (encX 0x5B 0x04 1 f.rd f.rs1 f.rs2)
  | .cBcst f => some (encX 0x5B 0x05 0 f.rd f.rs1 f.rs2)
  | .cBcstR f => some (encX 0x5B 0x05 1 f.rd f.rs1 f.rs2)
  | .cSend f => some (encX 0x5B 0x06 0 f.rd f.rs1 f.rs2)
  | .cSendR f => some (encX 0x5B 0x06 1 f.rd f.rs1 f.rs2)
  | .cRecv f => some (encX 0x5B 0x07 0 f.rd f.rs1 f.rs2)
  | .cRecvR f => some (encX 0x5B 0x07 1 f.rd f.rs1 f.rs2)
  | .cBar f => some (encX 0x5B 0x08 0 f.rd f.rs1 f.rs2)
  | .cBarR f => some (encX 0x5B 0x08 1 f.rd f.rs1 f.rs2)
  | .gForm rd rs1 => some (encX 0x5B 0x10 0 rd rs1 0)
  | .gFree rs1 => some (encX 0x5B 0x11 0 0 rs1 0)
  | .xSleep rs1 => some (encX 0x7B 0x01 0 0 rs1 0)
  | .xMon rd rs1 => some (encX 0x7B 0x02 0 rd rs1 0)
  | .xMwait rd rs1 => some (encX 0x7B 0x03 0 rd rs1 0)
  | .tqPop rd => some (encX 0x7B 0x04 0 rd 0 0)
  | .tqAck rs1 => some (encX 0x7B 0x05 0 0 rs1 0)
  | .riscvInstruction w => some (.ctl w)
  | _ => none

/-- The instruction that a code stands for; a slot's nop and a refused slot stand for none. -/
def decodeCode (c : Code) : Option Instr :=
  match c with
  | .s w e => slotInstr (decodeS w e)
  | .v w => slotInstr (decodeV w)
  | .m w => slotInstr (decodeM w)
  | .c w => slotInstr (decodeC w)
  | .ctl w => some (decodeAtPc w).1

/-! ## The opcode table's numbering -/

/-- What the decoder reads from an instruction of the opcode table whose bits are w: the table gives bits to
control-core words alone, of 32 bits, or 16 for a compressed one; a 48-bit word is a vector slot's. -/
def decodeTableWord (nbits w : Nat) : Option Instr :=
  match nbits with
  | 32 => some (decodeAtPc (BitVec.ofNat 32 w)).1
  | 16 => some (decodeAtPc (BitVec.ofNat 32 (w % 65536))).1
  | 48 => slotInstr (decodeV (BitVec.ofNat 48 w))
  | _ => none

end Sys2Proof
end

