-- ==== Sys2Proof/Config.lean ====
section
/-! DEFINITION. What the manual leaves to the implementation or leaves open: every constant here is
opaque, or made of opaque ones, so no proof can see a value and a claim holds whatever it is. -/

namespace Sys2Proof.Config

/-- A value the manual calls undefined (R6, R83, R84): the one drawn for `what` by the n-th drawing step. -/
opaque undefined : Nat → Nat → BitVec 64

/-- Lane `i` of an undefined vector value (R6, R83), drawn for `what` by the n-th drawing step. -/
opaque undefinedLane : Nat → Nat → Nat → BitVec 32

/-- The byte at an address of a range whose contents are undefined (R6, R267, R374): `gen` counts the
events that made a range undefined. -/
opaque undefinedByte : Nat → Nat → BitVec 8

/-- The special-function table (R456): coefficient word c (0, 1 or 2) of function `fn`, segment `seg`. -/
opaque sfCoefficient : Nat → Nat → Nat → BitVec 64

/-- `vexp2` to XF40 where x − floor(x) is not an FP32 value (R58): the results rise in steps between those of the FP32 values
below and above it. How far above the lower one, by its pattern, step i comes, in units of 2^-149. -/
opaque exp2Step : Nat → Nat → Nat

/-- The set of the Vale TLB that a virtual function's page of an address and size takes (R101). -/
opaque valeTlbSet : Nat → Nat → Nat → BitVec 10

/-- The energy in pJ that the fused table of a meter, of a kind and number, gives the n-th charged operation (R345). -/
opaque tableEnergy : Nat × Nat → Nat → BitVec 32

/-- The supply rail of a meter (R345). -/
opaque meterRail : Nat × Nat → Nat

/-- The calibration factor of a rail as fitted at test, in parts of 2^16 (R345). -/
opaque fittedFactor : Nat → BitVec 32

/-- The smallest n that holds the power limit for a Vale (R19, R344), as the controller finds it at an instant of NSTIME
from the charges of the settlement window in progress. -/
opaque powerSwallow : Nat → Nat → List (Nat × Nat) → BitVec 6

/-- The preloaded microwords 0 to 4,094 (R135, R224), whose contents the manual does not give. -/
opaque preloadedMicroword : Nat → BitVec 64

/-- The preloaded routine-directory entries 0 to 63 (R135). -/
opaque preloadedDirectory : Nat → BitVec 13

/-- The stepping fused in `mdid` (R354). -/
opaque stepping : BitVec 8

/-- Is the capability of an id from 1 to 5 present on this module (R363)? -/
opaque capabilityPresent : Nat → Bool

/-- The version of a capability (R363). -/
opaque capabilityVersion : Nat → Byte

/-- The doublewords left free after a capability record and its data (R363). -/
opaque capabilityGap : Nat → BitVec 3

/-- The capability ids of this module, rising: that of the special-function table is on every module (R363). -/
def capabilityIds : List (BitVec 16) := ([1, 2, 3, 4, 5].filter fun i => capabilityPresent i.toNat) ++ [6]

/-- The DER-encoded X.509 certificates of the identity chain, leaf first: the identity certificate, up to Tamfedel's root
(R357, R364). -/
opaque certificates : List (List Byte)

/-- The fused rollback counter (R364). -/
opaque rollbackCounter : BitVec 64

/-- The fuse state of an attestation report (R357). -/
opaque fuseState : BitVec 64

/-- The SHA-512 of each firmware stage, in boot order (R357). -/
opaque firmwareStages : List (BitVec 512)

/-- The signature of the identity key over a message (R357, R364), 512 bytes: RSA private-key
arithmetic, which no program can see. -/
opaque identitySignature : List Byte → List Byte

/-- The module's per-boot save-area key (R453), for the n-th boot. -/
opaque bootKey : Nat → List Byte

/-- The highest temperature of a Vale's part of the die in °C (R367), by NSTIME. -/
opaque valeTemperature : Nat → Nat → BitVec 8

/-- Does Solvanko link k lead to the module of a node (R359, R448)? -/
opaque linkReaches : Nat → Nat → Bool

/-- A byte of host memory at a bus address, as the n-th drawing step reads it (R362): host memory is outside the
module. -/
opaque hostMemory : Nat → Nat → BitVec 8

/-- The byte that names a register class in a save area's list of pending writes (R366): 0 scalar, 1 predicate, 2
branch, 3 mask, 4 vector, 5 core CSR, 6 flags alone. -/
opaque pendingClass : Nat → BitVec 8

/-- The physical address of a line whose stash image a migrated save area brings: the image holds no physical address (R334,
R400), by stash slot. -/
opaque stashHome : Nat → Nat

/-- Reset values of fields whose reset entry is a dash (R5): `mdret`. -/
opaque retiredAtReset : Nat → Nat

end Sys2Proof.Config
end

