-- ==== Sys2Proof/Machine/Flags.lean ====
section
/-! DEFINITION. The sticky flags of `astat` (R380, R381), and the roundings and conversions that raise them
(R29, R42 to R47, R385): every rounding of the module goes through `roundTo` or `convert`. -/

namespace Sys2Proof.Machine

open Sys2Proof

/-- Flags of `astat`, bits 6:0: bt, sat, nv, dz, of, uf, nx (R380). -/
abbrev Flags := BitVec 7

/-- no flag -/
def fNone : Flags := 0
/-- inexact -/
def fNx : Flags := 1
/-- underflow -/
def fUf : Flags := 2
/-- overflow -/
def fOf : Flags := 4
/-- division by zero -/
def fDz : Flags := 8
/-- invalid operation -/
def fNv : Flags := 16
/-- an integer result was clamped -/
def fSat : Flags := 32
/-- a TRIT5 byte 243 to 255 was decoded -/
def fBt : Flags := 64

/-- The flag f where c holds. -/
def flagIf (c : Bool) (f : Flags) : Flags := if c then f else 0

/-- The strict bit of `astat` (R380). -/
def astatStrict (a : Word) : Bool := a.getLsbD 31

/-- `astat` with flags merged in (R382). -/
def astatMerge (a : Word) (f : Flags) : Word := a ||| f.setWidth 64

/-- What a `csrw` of `astat` leaves: reserved bits read zero (R380). -/
def astatWrite (w : Word) : Word := w &&& 0x8000007F#64

/-! ## Rounding (R42, R43) -/

/-- floor of num / den · 2^(exp − q), and whether anything is left over below, at or above half:
0 exact, 1 below half, 2 half, 3 above half. -/
def quotParts (num den : Nat) (exp q : Int) : Nat × Nat :=
  let n := if q ≤ exp then num * 2 ^ (exp - q).toNat else num
  let d := if q ≤ exp then den else den * 2 ^ (q - exp).toNat
  let m := n / d
  let r := n % d
  (m, if r = 0 then 0 else if 2 * r < d then 1 else if 2 * r = d then 2 else 3)

/-- The magnitude rounded from its floor m and left-over class, for a value of the given sign (R42). -/
def roundMag (rm : Rm) (neg : Bool) (m rest : Nat) : Nat :=
  match rm with
  | .rne => if rest = 3 ∨ (rest = 2 ∧ m % 2 = 1) then m + 1 else m
  | .rtz => m
  | .rdn => if neg ∧ rest ≠ 0 then m + 1 else m
  | .rup => if ¬ neg ∧ rest ≠ 0 then m + 1 else m

/-- The exponent k with 2^k ≤ num / den · 2^exp < 2^(k+1). -/
def binade (num den : Nat) (exp : Int) : Int :=
  let k : Int := (Nat.log2 num : Int) - (Nat.log2 den : Int)
  let below := if 0 ≤ k then num < den * 2 ^ k.toNat else num * 2 ^ (-k).toNat < den
  (if below then k - 1 else k) + exp

/-- The bit pattern of the canonical NaN of a floating-point format (R28). -/
def canonicalNan (f : FloatFmt) : Nat :=
  match f.top with
  | .ieee => (2 ^ f.ebits - 1) * 2 ^ f.fbits + 2 ^ (f.fbits - 1)
  | .oneNan => (2 ^ f.ebits - 1) * 2 ^ f.fbits + (2 ^ f.fbits - 1)
  | .ordinary => 0

/-- The magnitude pattern of the largest finite value (R27, R30, R31, R35). -/
def largestFinite (f : FloatFmt) : Nat :=
  match f.top with
  | .ieee => (2 ^ f.ebits - 1) * 2 ^ f.fbits - 1
  | .oneNan => (2 ^ f.ebits - 1) * 2 ^ f.fbits + (2 ^ f.fbits - 2)
  | .ordinary => 2 ^ (f.ebits + f.fbits) - 1

/-- The pattern of an infinity's magnitude; E4M3 has none and gives its NaN (R30, R43). -/
def infinityPattern (f : FloatFmt) : Nat :=
  match f.top with
  | .ieee => (2 ^ f.ebits - 1) * 2 ^ f.fbits
  | .oneNan => canonicalNan f
  | .ordinary => largestFinite f

/-- A magnitude pattern with its sign bit; the canonical NaN of E4M3 keeps sign 0 (R28). -/
def withSign (f : FloatFmt) (neg : Bool) (mag : Nat) : Nat :=
  if neg then 2 ^ (f.ebits + f.fbits) + mag else mag

/-- Does an overflow under this mode and sign go past the largest finite value (R43)? -/
def overflowsAway (rm : Rm) (neg : Bool) : Bool :=
  match rm with
  | .rne => true
  | .rtz => false
  | .rdn => neg
  | .rup => !neg

/-- The pattern an overflow delivers (R43). -/
def overflowPattern (f : FloatFmt) (rm : Rm) (sat neg : Bool) : Nat :=
  if sat ∨ ¬ overflowsAway rm neg ∨ f.top = .ordinary then withSign f neg (largestFinite f)
  else if f.top = .oneNan then canonicalNan f
  else withSign f neg (infinityPattern f)

/-- The pattern of m · 2^q for m ≤ 2^(fbits+1), q ≥ qmin, m ≥ 2^fbits unless q = qmin. -/
def finitePattern (f : FloatFmt) (m : Nat) (q : Int) : Nat :=
  if m < 2 ^ f.fbits then m else (q - f.qmin).toNat * 2 ^ f.fbits + m

/-- A nonzero number rounded to a floating-point format: pattern and flags (R29, R37, R42, R43, R381). -/
def roundFin (f : FloatFmt) (rm : Rm) (sat neg : Bool) (num den : Nat) (exp : Int) : Nat × Flags :=
  let q0 := binade num den exp - f.fbits
  let (mu, ru) := quotParts num den exp q0
  let roundedUnbounded := roundMag rm neg mu ru
  let tiny : Bool := decide (q0 < f.qmin) && (decide (q0 + 1 < f.qmin) || decide (roundedUnbounded < 2 ^ (f.fbits + 1)))
  if f.flush ∧ tiny then (withSign f neg 0, fUf ||| fNx)
  else
    let q := if q0 < f.qmin then f.qmin else q0
    let (m, r) := quotParts num den exp q
    let mag := finitePattern f (roundMag rm neg m r) q
    if largestFinite f < mag then (overflowPattern f rm sat neg, fOf ||| fNx)
    else (withSign f neg mag, flagIf (r != 0) fNx ||| flagIf (tiny && r != 0) fUf)

/-- An exact value delivered in a floating-point format: rounded once, canonical NaN, infinities as R45 maps
them, which is inexact where it saturates one (R381). The flags are those of the delivery alone; invalid operands are the
caller's. -/
def roundTo (f : FloatFmt) (rm : Rm) (sat : Bool) (v : FVal) : Nat × Flags :=
  match v with
  | .nan _ => if f.top = .ordinary then (0, fNv) else (canonicalNan f, 0)
  | .inf n =>
    match f.top with
    | .ieee => if sat then (withSign f n (largestFinite f), fNx) else (withSign f n (infinityPattern f), 0)
    | .oneNan => (if sat then withSign f n (largestFinite f) else canonicalNan f, fNv)
    | .ordinary => (withSign f n (largestFinite f), fNv)
  | .zero n => (withSign f n 0, 0)
  | .fin n a d e => roundFin f rm sat n a d e

/-- The result of an operation that rounds once without a conversion: an infinity formed by the exact operation keeps
its pattern, and only overflow saturates (R43, R51, R192, R206). -/
def roundArith (f : FloatFmt) (rm : Rm) (sat : Bool) (v : FVal) : Nat × Flags :=
  match v with
  | .inf n => (withSign f n (infinityPattern f), 0)
  | x => roundTo f rm sat x

/-- A magnitude rounded to a power of two, as an E8M0 byte (R47, R385). -/
def toE8m0 (rm : Rm) (sat : Bool) (v : FVal) : Nat × Flags :=
  match v with
  | .nan _ => (0xFF, 0)
  | .inf _ => (if sat then 0xFE else 0xFF, fNv)
  | .zero _ => (0, 0)
  | .fin neg a d e =>
    let k := binade a d e
    if k < -127 then (0, fUf ||| fNx)
    else
      let (_, below) := quotParts a d e k
      -- 1.5 · 2^k is the tie between 2^k and 2^(k+1)
      let up : Bool := match rm with
        | .rne => decide (below = 3) || (decide (below = 2) && decide ((k + 127) % 2 = 1))
        | .rup => decide (below ≠ 0)
        | _ => false
      let k' : Int := if up then k + 1 else k
      if 127 < k' then (if sat then 0xFE else 0xFF, fOf ||| fNx)
      else ((k' + 127).toNat, flagIf (below != 0 || neg) fNx)

/-- A value rounded to an integer under `rm`, and whether it was inexact. Not for NaN and infinities. -/
def roundInt (rm : Rm) (v : FVal) : Int × Bool :=
  match v with
  | .fin neg a d e =>
    let (m, r) := quotParts a d e 0
    let n : Int := roundMag rm neg m r
    (if neg then -n else n, r != 0)
  | _ => (0, false)

/-- A float converted to an integer type: rounded, then always clamped (R46, R385). -/
def floatToInt (t : Ty) (rm : Rm) (v : FVal) : Nat × Flags :=
  match v with
  | .nan _ => (0, fNv)
  | .inf n =>
    (wrapTo (tyWidth t) (satTy t (if n then -(2 ^ 64) else 2 ^ 64)), fNv)
  | x =>
    let (n, inexact) := roundInt rm x
    let c := satTy t n
    (wrapTo (tyWidth t) c, if c = n then flagIf inexact fNx else fNv)

/-- An integer delivered at an integer type: low bits, or clamped when `sat` (R46). -/
def intToInt (t : Ty) (sat : Bool) (n : Int) : Nat × Flags :=
  if sat then (wrapTo (tyWidth t) (satTy t n), flagIf (satTy t n != n) fSat)
  else (wrapTo (tyWidth t) n, 0)

/-- The exact result n of integer arithmetic at type t (R184, R381). -/
def intResult (t : Ty) (sat : Bool) (n : Int) : Nat × Flags := intToInt t sat n

/-- CVT(v, t, rm, sat) for a value of a floating-point kind (R42 to R47). -/
def convertVal (t : Ty) (rm : Rm) (sat : Bool) (v : FVal) : Nat × Flags :=
  match floatFmt t with
  | some f => roundTo f rm sat v
  | none => if t = .e8m0 then toE8m0 rm sat v else floatToInt t rm v

/-- A conversion from one element type to another, element bits to element bits (R45, R46, R189, R385). -/
def convert (dst src : Ty) (rm : Rm) (sat : Bool) (bits : Nat) : Nat × Flags :=
  if tyIsInt src then
    let n := intOf (tySigned src) (tyWidth src) bits
    if tyIsInt dst then
      if dst = src then (bits % 2 ^ tyWidth src, 0) else intToInt dst sat n
    else convertVal dst rm sat (ofInt n)
  else
    let v := decode src bits
    if dst = src then
      match floatFmt dst with
      | some f => (if v.isNan then canonicalNan f else bits % 2 ^ (1 + f.ebits + f.fbits), flagIf v.isSnan fNv)
      | none => (bits % 2 ^ tyWidth src, 0)
    else
      let (r, fl) := convertVal dst rm sat v
      (r, fl ||| flagIf v.isSnan fNv)

/-- CVT(x, dst, rm, sat) as drains and built-in macro-instructions convert (R45, R184, R223, R251): `convert`, and a
float of the destination's own type is converted like any other value. -/
def cvt (dst src : Ty) (rm : Rm) (sat : Bool) (bits : Nat) : Nat × Flags :=
  if dst = src ∧ (floatFmt dst).isSome then
    let v := decode src bits
    let (r, fl) := convertVal dst rm sat v
    (r, fl ||| flagIf v.isSnan fNv)
  else convert dst src rm sat bits

/-- FP32 layout. -/
def fmt32 : FloatFmt := ⟨8, 23, 127, .ieee, false⟩

/-- XF40 layout. -/
def fmtXf : FloatFmt := ⟨16, 23, 32767, .ieee, true⟩

/-- One FP32 addition with one rounding (R51, R192). -/
def add32 (rm : Rm) (a : FVal) (b : FVal) : Nat × Flags :=
  let (s, iv) := addExact rm a b
  let (r, fl) := roundArith fmt32 rm false s
  (r, fl ||| flagIf iv fNv)

/-- Requantisation to D with the flag of a changed value (R49, R381). -/
def requant (d : Ty) (x m : Int) (s : Nat) (zp : Int) : Nat × Flags :=
  intToInt d true (requantExact x m s zp)

/-! ## Minimum and maximum (R185) -/

/-- `vmin`/`vmax` of two elements of type t: one operand, bit for bit. -/
def minMax (t : Ty) (wantMax : Bool) (a b : Nat) : Nat × Flags :=
  if tyIsInt t then
    let x := intOf (tySigned t) (tyWidth t) a
    let y := intOf (tySigned t) (tyWidth t) b
    let aFirst := if wantMax then decide (y ≤ x) else decide (x ≤ y)
    ((if aFirst then a else b) % 2 ^ tyWidth t, 0)
  else
    let x := decode t a
    let y := decode t b
    let fl := flagIf (x.isSnan || y.isSnan) fNv
    let nan := match floatFmt t with
      | some f => canonicalNan f
      | none => 0
    if x.isNan && y.isNan then (nan, fl)
    else if x.isNan then (b % 2 ^ tyWidth t, fl)
    else if y.isNan then (a % 2 ^ tyWidth t, fl)
    else
      let bFirst := if wantMax then x.below y else y.below x
      ((if bFirst then b else a) % 2 ^ tyWidth t, fl)

/-! ## Special functions (R55 to R58, R191, R381) -/

/-- A coefficient word m · 2^k of the special-function table (R456). -/
def coefficient (w : Word) : FVal :=
  let m := intOf true 48 w.toNat
  let k := intOf true 16 (w.toNat / 2 ^ 48)
  if m = 0 then .zero false else .fin (m < 0) m.natAbs 1 k

/-- A segment number: sign, biased exponent and fraction bits 22:17 (R55). -/
def segNumber (neg : Bool) (be j : Nat) : Nat := (if neg then 2 ^ 14 else 0) + be * 64 + j

/-- Can an evaluation of function `fn` select a segment (R456)? The others lie in a fixed range of R57 or R58. -/
def segSelected (fn seg : Nat) : Bool :=
  let neg := decide (2 ^ 14 ≤ seg)
  let be := seg / 64 % 256
  let j := seg % 64
  match fn with
  | 0 => decide (102 ≤ be) && (decide (be < 134) || (neg && decide (be = 134) && decide (j ≤ 10)))
  | 1 => decide (115 ≤ be) && (decide (be ≤ 129) || (decide (be = 130) && decide (j < 16)))
  | 2 =>
    if neg then decide (be ≤ 132) || (decide (be = 133) && decide (j < 41))
    else decide (be ≤ 130) || (decide (be = 131) && decide (j < 8))
  | 3 => decide (be ≤ 254)
  | 4 => !neg && decide (be ≤ 254)
  | 5 => !neg && decide (be ≤ 126)
  | _ => false

/-- Word c of a segment's entry in the special-function table (R309, R456): zero where the segment is never selected;
the constant term that serves x − n = 0 is exactly 1. -/
def sfWord (fn seg c : Nat) : Word :=
  if 2 ^ 15 ≤ seg then Config.sfCoefficient fn seg c
  else if !segSelected fn seg then 0
  else if fn = 5 ∧ seg = 0 ∧ c = 0 ∧ !(coefficient (Config.sfCoefficient 5 0 0)).eq (ofInt 1) then 1
  else Config.sfCoefficient fn seg c

/-- c0 + c1·t + c2·t² for segment `seg` of function `fn`, exact (R55). -/
def segmentValue (fn seg t : Nat) : FVal :=
  let c := fun i => coefficient (sfWord fn seg i)
  let tv := ofInt t
  let lin := (mulExact (c 1) tv).1
  let quad := (mulExact (c 2) (mulExact tv tv).1).1
  (addExact .rne (addExact .rne (c 0) lin).1 quad).1

/-- The segment of sign, binade k and fraction bits 22:17 (R55). A normalised value whose biased exponent is negative has no
15-bit number: it takes a number past the table (log entry 134). -/
def segOf (neg : Bool) (k : Int) (j : Nat) : Nat :=
  let be := k + 127
  let seg := segNumber neg be.natAbs j
  if be < 0 then 2 ^ 15 + seg else seg

/-- Segment number and t of a nonzero number as a 24-bit float, subnormals normalised (R55). -/
def sfFields (v : FVal) : Nat × Nat :=
  match v with
  | .fin neg a d e =>
    let k := binade a d e
    let (m, _) := quotParts a d e (k - 23)
    let frac := m % 2 ^ 23
    (segOf neg k (frac / 2 ^ 17), frac % 2 ^ 17)
  | _ => (0, 0)

/-- Is x at or above n · 2^0, for an integer n? -/
def atLeast (v : FVal) (n : Int) : Bool := (ofInt n).le v

/-- Is |x| < 2^k for a nonzero number? -/
def magBelow (v : FVal) (k : Int) : Bool :=
  match v with
  | .fin _ a d e => decide (binade a d e < k)
  | .zero _ => true
  | _ => false

/-- The mathematical value of the special function `fn` at a finite nonzero x, where it is representable at
all: 2^x for an integer x, 1/x and 1/√x for the powers of two and of four (R56, R57). -/
def sfMath (fn : Nat) (v : FVal) : Option FVal :=
  match v with
  | .fin neg a d e =>
    let k := binade a d e
    let isPow := decide ((quotParts a d e k) = (1, 0))
    match fn with
    | 0 =>
      let (n, inexact) := roundInt .rtz v
      if inexact then none else some (.fin false 1 1 n)
    | 3 => if isPow then some (.fin neg 1 1 (-k)) else none
    | 4 => if isPow && !neg && decide (k % 2 = 0) then some (.fin false 1 1 (-(k / 2))) else none
    | _ => none
  | _ => none

/-! ### Error bounds (R56, R58)

The bound needs the exact value of the function. 2^x, tanh and the logistic function are formed from e^y to about
2^-140 of their value, in fixed point with 160 fraction bits; 1/x is exact and 1/√x comes from an integer root. -/

/-- One in fixed point. -/
def fxOne : Nat := 2 ^ 160

/-- ln 2 in fixed point, by its series over 1 / (k · 2^k). -/
def fxLn2 : Nat := (List.range 164).foldl (fun a k => a + fxOne / ((k + 1) * 2 ^ (k + 1))) 0

/-- e^y for a fixed-point y below 1, by its series. -/
def fxExp (y : Nat) : Nat :=
  ((List.range 48).foldl (fun (a : Nat × Nat) k => (a.1 + a.2, a.2 * y / fxOne / (k + 1))) (0, fxOne)).1

/-- A finite number in fixed point, rounded towards −∞. -/
def fxOf (v : FVal) : Int :=
  match v with
  | .fin neg a d e =>
    let m : Int := (quotParts a d e (-160)).1
    if neg then -m else m
  | _ => 0

/-- e^y for a fixed-point y: mantissa in fixed point and exponent of two. -/
def fxExpInt (y : Int) : Nat × Int :=
  let n := y / (fxLn2 : Int)
  (fxExp (y - n * fxLn2).toNat, n)

/-- floor of √n, bit by bit from 2^i down. -/
def isqrt (n : Nat) (r : Nat) : Nat → Nat
  | 0 => if (r + 1) * (r + 1) ≤ n then r + 1 else r
  | i + 1 =>
    let c := r + 2 ^ (i + 1)
    isqrt n (if c * c ≤ n then c else r) i

/-- The value of the special function `fn` at a nonzero number, to about 2^-100 of its value; that of function 5 is
2^x. -/
def sfValue (fn : Nat) (v : FVal) : FVal :=
  match fn, v with
  | 0, x | 5, x =>
    let n := (roundInt .rdn x).1
    let f := fxOf (addExact .rne x (ofInt (-n))).1
    .fin false (fxExp (f.toNat * fxLn2 / fxOne)) 1 (n - 160)
  | 1, x =>
    let (m, k) := fxExpInt (2 * fxOf x.abs)
    let e : Nat := m * 2 ^ k.toNat
    .fin x.sign (e - fxOne) (e + fxOne) 0
  | 2, x =>
    let (m, k) := fxExpInt (-(fxOf x))
    let one : Nat := fxOne * 2 ^ (-k).toNat
    .fin false one (one + m * 2 ^ k.toNat) 0
  | 3, x => (divExact (ofInt 1) x).1
  | _, .fin _ a _ e =>
    let half := e / 2
    .fin false (isqrt (2 ^ 400 / (a * 2 ^ (e % 2).toNat)) 0 199) 1 (-200 - half)
  | _, x => x

/-- Does a result lie within n units of 2^q of a value? -/
def withinUnits (n : Nat) (q : Int) (e r : FVal) : Bool :=
  ((addExact .rne r e.negate).1.abs).le (.fin false (n * 2 ^ 60 + 1) 1 (q - 60))

/-- The exponent of the FP32 ulp at a value: no less than -149 (R56). -/
def ulp32 (e : FVal) : Int :=
  let q := match e with
    | .fin _ a d k => binade a d k - 23
    | _ => -149
  if q < -149 then -149 else q

/-- The result r of function `fn` at x, held within 2 ulp of the exact value (R56): for the published table this changes
nothing, and a result that is farther off becomes the nearest one (log entry 135). -/
def sfHeld (fn : Nat) (x : FVal) (r : Nat) : Nat :=
  let e := sfValue fn x
  if withinUnits 2 (ulp32 e) e (decodeFloat fmt32 r) then r else (roundArith fmt32 .rne false e).1

/-! ### Monotony (R56, R58)

`vexp2`, `vtanh`, `vlgst` and the fraction of `vexp2.xf40` rise. The table is opaque, so that the model asks whether its
results rise: within each segment, a quadratic, at its ends and at its turn, and across every seam and into the fixed ranges.
With a table whose results do, as the published one's, R55 gives the result; with another the nearest value stands for it
(log entry 135). Either rises; the bound is kept by what rises itself. -/

/-- A value delivered in a format. -/
def delivered (f : FloatFmt) (rm : Rm) (v : FVal) : FVal := decodeFloat f (roundArith f rm false v).1

/-- The inputs of binade k have every t of a segment, or subnormal ones every `tStep`-th, in every `jStep`-th segment. -/
def tStep (k : Int) : Nat := if k < -126 then 2 ^ Nat.min 17 (-126 - k).toNat else 1
def jStep (k : Int) : Nat := if k < -143 then 2 ^ Nat.min 6 (-143 - k).toNat else 1

/-- The last t of a segment at or below the turn of its quadratic, of those in steps; 0 where it has none. -/
def turnOf (fn seg step : Nat) : Nat :=
  let c := fun i => coefficient (sfWord fn seg i)
  if (c 2).isZero then 0
  else
    let v := (roundInt .rdn (divExact (c 1).negate (mulExact (c 2) (ofInt 2)).1).1).1
    if v < 0 then 0 else Nat.min v.toNat (131072 - step) / step * step

/-- The results of a segment at its ends and about its turn, by rising input: between them they rise or fall throughout. -/
def segmentPoints (f : FloatFmt) (fn : Nat) (neg : Bool) (k : Int) (j : Nat) : List FVal :=
  let seg := segOf neg k j
  let step := tStep k
  let turn := turnOf fn seg step
  let l := [0, turn, Nat.min (turn + step) (131072 - step), 131072 - step].map fun t => delivered f .rne (segmentValue fn seg t)
  if neg then l.reverse else l

/-- The same of every segment from 2^lo up to 2^hi · (1 + n / 64), or of its negatives, by rising input. -/
def rangePoints (f : FloatFmt) (fn : Nat) (neg : Bool) (lo hi : Int) (n : Nat) : List FVal :=
  let part := fun (k : Int) (n : Nat) => ((List.range n).filter fun j => j % jStep k == 0).map fun j => segmentPoints f fn neg k j
  let all := ((List.range (hi - lo).toNat).flatMap fun (i : Nat) => part (lo + i) 64) ++ part hi n
  (if neg then all.reverse else all).flatten

/-- Do values rise? -/
def risesAll : List FVal → Bool
  | a :: b :: rest => if a.le b then risesAll (b :: rest) else false
  | _ => true

/-- Do the results of the table rise, from fixed range to fixed range (R56, R57)? -/
def expRises : Bool :=
  risesAll (.zero false :: rangePoints fmt32 0 true (-25) 7 11 ++ ofInt 1 :: rangePoints fmt32 0 false (-25) 7 0 ++ [.inf false])
def tanhRises : Bool := risesAll (.fin false (2 ^ 24 - 1) 1 (-36) :: rangePoints fmt32 1 false (-12) 3 16 ++ [ofInt 1])
def logisticRises : Bool :=
  risesAll (.zero false :: rangePoints fmt32 2 true (-149) 6 41 ++ .fin false 1 1 (-1) :: rangePoints fmt32 2 false (-149) 4 8 ++ [ofInt 1])
def fractionRises : Bool := risesAll (ofInt 1 :: rangePoints fmtXf 5 false (-149) 0 0 ++ [ofInt 2])

/-- The least and the greatest value within 2 units of 2^q of a value (R56). -/
def lowBound (q : Int) (e : FVal) : FVal := (addExact .rne e (.fin true (2 * 2 ^ 60 + 1) 1 (q - 60))).1
def highBound (q : Int) (e : FVal) : FVal := (addExact .rne e (.fin false (2 * 2 ^ 60 + 1) 1 (q - 60))).1
/-- The smaller and the greater of two values. -/
def FVal.min (a b : FVal) : FVal := if a.le b then a else b
def FVal.max (a b : FVal) : FVal := if a.le b then b else a

/-- A result of a format held between two bounds. -/
def between (f : FloatFmt) (lo hi r : FVal) : FVal :=
  if hi.lt r then delivered f .rdn hi else if r.lt lo then delivered f .rup lo else r

/-- The FP32 numbers by rising value, and the value of function `fn` at one. -/
def ordinal (bits : Nat) : Int := if bits < 2 ^ 31 then bits else -((bits - 2 ^ 31 : Nat) : Int)
def ordinalValue (fn : Nat) (i : Int) : FVal :=
  if i = 0 then (if fn = 0 then ofInt 1 else .fin false 1 1 (-1))
  else sfValue fn (decodeFloat fmt32 (if i < 0 then 2 ^ 31 + i.natAbs else i.toNat))

/-- The greatest number between lo and hi whose value lies below b, with that of lo below it and that of hi not. -/
def lastBelow (fn : Nat) (b : FVal) (lo hi : Int) : Nat → Int
  | 0 => lo
  | fuel + 1 =>
    if hi - lo ≤ 1 then lo
    else
      let mid := (lo + hi) / 2
      if (ordinalValue fn mid).lt b then lastBelow fn b mid hi fuel else lastBelow fn b lo mid fuel

/-- The lowest result that the bound and monotony leave at a number with value e: the bound widens where the value enters a
binade, and what the last number below it leaves holds on. -/
def lowestAt (fn bits : Nat) (e : FVal) : FVal :=
  let lo := lowBound (ulp32 e) e
  let base : FVal := match e with
    | .fin _ a d k => .fin false 1 1 (binade a d k)
    | _ => .zero false
  let first : Int := match fn with
    | 0 => 1 - 0x43160000
    | 1 => 0x39800000
    | _ => 1 - 0x42D20000
  if ulp32 e = -149 ∨ base.le lo = true ∨ (ordinalValue fn first).lt base = false then lo
  else
    let below := ordinalValue fn (lastBelow fn base first (ordinal bits) 32)
    lo.max (lowBound (ulp32 below) below)

/-- The result of function 0, 1 or 2 at an FP32 number, from what the table gives for it (R55, R56). -/
def risingResult (fn bits : Nat) (r : FVal) : Nat :=
  let e := sfValue fn (decodeFloat fmt32 bits)
  let ok := match fn with
    | 0 => expRises
    | 1 => tanhRises
    | _ => logisticRises
  let r := if ok then r else delivered fmt32 .rne e
  (roundArith fmt32 .rne false (between fmt32 (lowestAt fn bits e) (highBound (ulp32 e) e) r)).1

/-- Flags of a special function's result: inexact unless it equals the mathematical value; overflow and
underflow as the rounding of the result shows (R57, R381). -/
def sfFlags (fn : Nat) (v : FVal) (result : Nat) : Flags :=
  let r := decodeFloat fmt32 result
  let exact := match sfMath fn v with
    | some m => m.eq r
    | none => false
  let small := match r with
    | .zero _ => true
    | .fin _ a d e => decide (binade a d e < -126)
    | _ => false
  let big := match r with
    | .inf _ => true
    | _ => false
  if exact then 0 else fNx ||| flagIf small fUf ||| flagIf big fOf

/-- A fixed result of R57: `some` pattern, or `none` where R55 evaluates the segment. -/
def sfFixed (fn : Nat) (v : FVal) : Option Nat :=
  let one := 0x3F800000
  let inf := 0x7F800000
  let nan := 0x7FC00000
  match fn, v with
  | _, .nan _ => some nan
  | 0, .inf n => some (if n then 0 else inf)
  | 0, .zero _ => some one
  | 0, x => if atLeast x 128 then some inf else if x.le (ofInt (-150)) then some 0
            else if magBelow x (-25) then some one else none
  | 1, .inf n => some (if n then 0xBF800000 else one)
  | 1, .zero n => some (if n then 0x80000000 else 0)
  | 1, x => if atLeast x.abs 10 then some (if x.sign then 0xBF800000 else one)
            else if magBelow x (-12) then some (roundTo fmt32 .rne false x).1 else none
  | 2, .inf n => some (if n then 0 else one)
  | 2, .zero _ => some 0x3F000000
  | 2, x => if atLeast x 18 then some one else if x.le (ofInt (-105)) then some 0 else none
  | 3, .inf n => some (if n then 0x80000000 else 0)
  | 3, .zero n => some (if n then 0xFF800000 else inf)
  | 3, x => if magBelow x (-128) then some (if x.sign then 0xFF800000 else inf) else none
  | 4, .inf n => some (if n then nan else 0)
  | 4, .zero n => some (if n then 0xFF800000 else inf)
  | 4, x => if x.sign then some nan else none
  | _, _ => none

/-- A special function on an FP32 pattern (R55 to R57): function number of R456, 0 to 4. `vtanh` is odd, and
`vrcp` and `vrsqrt` are exact where their value is representable (R56). -/
def special32 (fn bits : Nat) : Nat × Flags :=
  let v := decodeFloat fmt32 bits
  let base : Flags :=
    flagIf v.isSnan fNv ||| flagIf (fn == 4 && v.sign && !v.isZero) fNv
      ||| flagIf ((fn == 3 || fn == 4) && v.isZero) fDz
  match v, sfFixed fn v with
  | .fin _ _ _ _, some r => (r, if fn = 4 then base else base ||| sfFlags fn v r)
  | _, some r => (r, base)
  | x, none =>
    let y := if fn = 1 then x.abs else x
    let (seg, t) := sfFields y
    let e := match sfMath fn v with
      | some m => if fn = 0 then segmentValue fn seg t else m
      | none => segmentValue fn seg t
    let (r, _) := roundArith fmt32 .rne false e
    let r := if fn ≤ 2 then risingResult fn (if fn = 1 then bits % 2 ^ 31 else bits) (decodeFloat fmt32 r) else sfHeld fn y r
    let r' := if fn = 1 && x.sign then (r + 2 ^ 31) % 2 ^ 32 else r
    (r', base ||| sfFlags fn v r')

/-- 2^f for an FP32 value f from 0 to 1, rounded to the 23-bit fraction, within 2 units of it of the exact value (R58). -/
def fractionOf (f : FVal) : FVal :=
  if f.isZero then ofInt 1 else if (ofInt 1).le f then ofInt 2
  else
    let (seg, t) := sfFields f
    let e := sfValue 5 f
    let r := delivered fmtXf .rne (if fractionRises then segmentValue 5 seg t else e)
    between fmtXf ((ofInt 1).max (lowBound (-23) e)) ((ofInt 2).min (highBound (-23) e)) r

/-- 2^f for any f from 0 to 1: where f is no FP32 value, R58 names no segment for it. DESIGN CHOICE (log entry 12): the result
lies between those of the FP32 values below and above f, and rises with f in steps that stay free values. -/
def fractionAt (f : FVal) : FVal :=
  let lo := delivered fmt32 .rdn f
  if lo.eq f then fractionOf f
  else
    let a := fractionOf lo
    let e := sfValue 5 f
    let units := (roundInt .rdn ((addExact .rne (fractionOf (delivered fmt32 .rup f)) a.negate).1.scale 23)).1.toNat
    let pos := (roundInt .rdn ((addExact .rne f lo.negate).1.scale 149)).1.toNat
    let n := ((List.range units).filter fun i => decide (Config.exp2Step (roundArith fmt32 .rdn false lo).1 i ≤ pos)).length
    between fmtXf ((ofInt 1).max (lowBound (-23) e)) ((ofInt 2).min (highBound (-23) e)) (addExact .rne a ((ofInt n).scale (-23))).1

/-- `vexp2` to XF40 (R58): clamp, floor, fraction evaluated by function 5, exponent set. -/
def exp2Xf (bits : Nat) : Nat × Flags :=
  let v := decodeFloat fmt32 bits
  match v with
  | .nan s => (canonicalNan fmtXf, flagIf s fNv)
  | .inf true => (0, 0)
  | .inf false => ((roundFin fmtXf .rne false false 1 1 16384).1, fNx)
  | .zero _ => ((roundFin fmtXf .rne false false 1 1 0).1, 0)
  | x =>
    let c := if x.lt (ofInt (-16384)) then ofInt (-16384) else if (ofInt 16384).lt x then ofInt 16384 else x
    let clamped := !(c.eq x)
    let n := (roundInt .rdn c).1
    let fr := (addExact .rne c (ofInt (-n))).1
    if fr.isZero then ((roundFin fmtXf .rne false false 1 1 n).1, flagIf clamped fNx)
    else ((roundArith fmtXf .rne false ((fractionAt fr).scale n)).1, fNx)

/-! ## Row statistics (R59, R384) -/

/-- One Welford update of a lane: (n, m, M2) and the flags it raises. -/
def welford (n m m2 x : Nat) : (Nat × Nat × Nat) × Flags :=
  if n = 2 ^ 32 - 1 then ((n, m, m2), fSat)
  else
    let n' := n + 1
    let mo := decodeFloat fmt32 m
    let xv := decodeFloat fmt32 x
    let (d, i1) := subExact .rne xv mo
    let (qt, i2, _) := divExact d (ofInt n')
    let (sm, i3) := addExact .rne mo qt
    let (mr, f1) := roundArith fmt32 .rne false sm
    let mv := decodeFloat fmt32 mr
    let (d2, i4) := subExact .rne xv mv
    let (p, i5) := mulExact d d2
    let (s2, i6) := addExact .rne (decodeFloat fmt32 m2) p
    let (r2, f2) := roundArith fmt32 .rne false s2
    ((n', mr, if s2.isZero then 0 else r2),
      f1 ||| f2 ||| flagIf (i1 || i2 || i3 || i4 || i5 || i6) fNv)

end Sys2Proof.Machine
end

