-- ==== Sys2Proof/Machine/State.lean ====
section
/-! DEFINITION. The state of a Kalyth 8V module, as plain data: every register, table, queue and memory the
manual names, held where the manual puts it. Tables are finite maps from their index (`FMap`), so that the
state after reset is small. A core is keyed by 192 × Vale + physical core, a control core by
8 × Vale + slice, a context by 8 × virtual function + Vale (R11, R323). -/

namespace Sys2Proof.Machine

open Sys2Proof

/-! ## Memories -/

/-- A range [lo, hi) whose bytes are undefined since the `gen`-th such event (R6, R267, R374). -/
structure UndefRange where
  lo : Nat
  hi : Nat
  gen : Nat
deriving DecidableEq, Repr

/-- A byte memory: listed bytes, ranges of undefined contents (newest first), and the poisoned aligned
64-bit words (R377), by address div 8, rising. A byte that is neither listed nor in an undefined range
reads as 0 (log entry 1). -/
structure Mem where
  cells : List Host.Cell := []
  undef : List UndefRange := []
  poison : List Nat := []
deriving DecidableEq, Repr, Inhabited

/-! ## Core state -/

/-- Where a pending result lands (R83). -/
inductive Dest where
  | s (n : Nat) | p (n : Nat) | b (n : Nat) | vm (n : Nat) | v (n : Nat)
  /-- a core CSR written by `csrw` -/
  | csr (n : Nat)
  /-- an element group pushed to destination stream k -/
  | push (k : Nat)
  /-- flags only -/
  | none
deriving DecidableEq, Repr

/-- A register result on its way (R83, R84): issue clk, bound, value, the lanes a vector result writes, and
the flags merged when it lands (R382). -/
structure Pending where
  dest : Dest
  scalar : Word := 0
  lanes : List Lane := []
  mask : Word := 0
  flags : BitVec 7 := 0
  /-- scratchpad offset and ring slot of a pushed group (R181) -/
  offs : Nat := 0
  rslot : Nat := 0
  issued : Nat
  bound : Nat
  landed : Bool := false
deriving DecidableEq, Repr

/-- A hardware loop register (R164, R335): remaining count, start and last bundle, and when it was started. -/
structure LoopReg where
  cnt : Word := 0
  active : Bool := false
  start : Word := 0
  last : Word := 0
  age : Nat := 0
deriving DecidableEq, Repr

/-- The kind of an accumulator bank (R210). -/
inductive BankKind where
  | none | fp32 | int32 | idx
deriving DecidableEq, Repr

/-- An accumulator bank (R210, R334): cell (i, j) at key 128·i + j, one k-count (every STEP adds equally to
every cell), the kind, and the exact sum of the open BLK8 block of each cell (R52), with the overflow mode of the
k-steps in an integer one (R54). -/
structure Bank where
  kind : BankKind := .none
  count : Nat := 0
  cells : FMap (BitVec 32) := []
  open_ : FMap FVal := []
  openInt : FMap Int := []
  openSat : Bool := false
  /-- scales of the block in progress (R214) -/
  scaleA : Option Byte := none
  scaleB : Option Byte := none
deriving DecidableEq, Repr

/-- The matrix mode that `mmode` sets (R222). -/
structure MMode where
  blk8 : Bool := false
  satInt : Bool := false
  aSigned : Bool := false
  bSigned : Bool := false
  capture : Bool := false
deriving DecidableEq, Repr

/-- How far a running routine or drain has come (R216, R223): microword index, open loops (first, last,
remaining iterations), k-steps of the current STEP already applied, rows already drained, flags raised. -/
structure MatrixRun where
  pc : Nat := 0
  loops : List (Nat × Nat × Nat) := []
  kdone : Nat := 0
  rows : Nat := 0
  flags : BitVec 7 := 0
deriving DecidableEq, Repr

/-- A command of the matrix unit with the operands it read at issue (R208). -/
structure MatrixCmd where
  op : Nat
  form : MF
  sval : Word := 0
  veca : List Lane := []
  vecb : List Lane := []
  mps : FMap Word := []
  issued : Nat := 0
  /-- own scratchpad bytes whose last direct store had not performed at issue, or follows it: offset, bytes before
  (R115, R139) -/
  hazard : List (Nat × List Byte) := []
  run : Option MatrixRun := none
deriving DecidableEq, Repr

/-- An item of the scale queue (R218): a scale, or the place an `sqfill` reserved, with its data once read. -/
inductive SqItem where
  | scale (b : Byte)
  /-- a poisoned one, which came by `sqfill` (R378) -/
  | bad (b : Byte)
  | hole (channel : Nat) (id : Nat) (n : Nat) (data : Option (List Byte))
deriving DecidableEq, Repr

/-- A ring (R237 to R239): configuration, pointers, counts, and the slots held by producers and consumers,
each with a flag that its holder has finished. -/
structure Ring where
  cfg : Bool := false
  sz : Nat := 0
  ns : Nat := 0
  base : Nat := 0
  wp : Nat := 0
  rp : Nat := 0
  free : Nat := 0
  filled : Nat := 0
  prod : List (Nat × Bool) := []
  cons : List (Nat × Bool) := []
  /-- copies that wait for a free slot, in the order in which their requests reached the ring: core key of the
  issuer and its copy entry (R229, R230) -/
  want : List (Nat × Nat) := []
deriving DecidableEq, Repr

/-- A stream register bound to a ring with an affine pattern (R240): position within the current slot, the
slot taken, groups reserved and not yet written, and the clk from which it is usable. -/
structure Stream where
  bound : Bool := false
  ring : Nat := 0
  o : Nat := 0
  counts : List Nat := []
  strides : List Int := []
  dst : Bool := false
  pos : Nat := 0
  slot : Option Nat := none
  landed : Nat := 0
  usableAt : Nat := 0
  /-- a release by `sfree` waits for the stream's last use (R241) -/
  freeing : Bool := false
deriving DecidableEq, Repr

/-- A copy that the sequencer issues for a tile (R77, R413): tensor, whether it moves scale bytes, direction,
step number, and the offset of its slot in the scratchpad or, for a built-in operation, in the sequencer's own
buffer. -/
structure TileCopy where
  tensor : Nat
  scale : Bool
  input : Bool
  step : Nat
  offs : Nat
  buf : Bool
deriving DecidableEq, Repr

/-- A copy entry of the in-flight record (R337). -/
structure CopyEntry where
  desc : List Byte := []
  id : Nat := 0
  done : Nat := 0
  tag0 : Nat := 0
  op : Nat := 0
  f : Bool := false
  channel : Nat := 0
  bySeq : Bool := false
  cls : Nat := 0
  slot : Option Nat := none
  /-- slots taken at the targets of a `cpm` (core key, slot), and the targets that have their data -/
  targets : List (Nat × Nat) := []
  delivered : List Nat := []
  /-- flags that a `cpa` has raised so far (R382) -/
  flags : BitVec 7 := 0
  list : Nat := 0
  tile : Option TileCopy := none
  faulted : Bool := false
  issued : Nat := 0
  /-- own scratchpad bytes whose last direct store had not performed at issue, or follows it: offset, bytes before
  (R115, R139) -/
  hazard : List (Nat × List Byte) := []
  /-- units whose 32-byte granules have been written ahead of `done` (R114, R228) -/
  early : List Nat := []
  /-- what stood where the last event wrote several granules of a line or a target at once: core, or `none` for memory,
  offset or physical address, bytes; and at which ns of real time that was (R114) -/
  raced : List (Option Nat × Nat × List Byte) := []
  racedAt : Nat := 0
  /-- what a `cpm` has read: the bytes of each unit and their poison (R230) -/
  data : Option (List (List Byte × Bool)) := none
deriving DecidableEq, Repr

/-- A load entry of the in-flight record (R337): kind 0 a fill, 1 a `probe` fill, 2 an own-Vale atomic. -/
structure LoadEntry where
  addr : Word := 0
  kind : Nat := 0
  applied : Bool := false
  interlocked : Bool := false
  sz : Nat := 0
  aop : Nat := 0
  cas : Bool := false
  sd : Nat := 0
  operand : Word := 0
  expected : Word := 0
  /-- a store's fill, translated as a write (R398) -/
  write : Bool := false
  faulted : Bool := false
deriving DecidableEq, Repr

/-- A remote-atomic entry of the in-flight record (R337, R201): kind 0 `amo`, 1 `cas`, 2 `vamo`. -/
structure AtomicEntry where
  addr : Word := 0
  kind : Nat := 0
  interlocked : Bool := false
  sz : Nat := 0
  aop : Nat := 0
  sd : Nat := 0
  ty : Nat := 0
  rm : Nat := 0
  first : Nat := 0
  sent : Nat := 0
  /-- elements below this had been sent before the replay in progress (R406) -/
  resend : Nat := 0
  seq0 : Nat := 0
  operand : Word := 0
  newv : Word := 0
  /-- the old value, once acknowledged: an interlocked entry keeps it until its bundle issues (R337) -/
  result : Word := 0
  mask : Word := 0
  vb : List Lane := []
  vc : List Lane := []
  faulted : Bool := false
deriving DecidableEq, Repr

/-- A barrier-arrival entry of the in-flight record (R337): operation 0 `gbar`, 1 `garr`, 2 `phase`,
3 `gleave`. -/
structure BarrierEntry where
  gang : Nat := 0
  op : Nat := 0
  acked : Bool := false
  seq : Nat := 0
  episode : Nat := 0
deriving DecidableEq, Repr

/-- A translation that a core waits for (R101, R399): virtual address, access code, agent code. -/
structure TransReq where
  va : Nat
  access : Nat
  agent : Nat
  /-- the Vale TLB has been looked up and the request waits for a walk -/
  walking : Bool := false
deriving DecidableEq, Repr

/-- A cached translation (R101): virtual function, page base, log2 of the page size, physical base, w and x. -/
structure TlbEntry where
  vf : Nat
  va : Nat
  bits : Nat
  pa : Nat
  w : Bool
  x : Bool
deriving DecidableEq, Repr

/-- A stash slot (R104, R105): the line it holds, per-byte dirty mask, exclusive ownership, the w bit of its
page (R400) and its last use. The bytes lie in the scratchpad at the slot's local address. -/
structure StashSlot where
  va : Nat
  pa : Nat
  dirty : BitVec 128 := 0
  owned : Bool := false
  w : Bool := true
  used : Nat := 0
deriving DecidableEq, Repr

/-- A monitor entry (R171, R288). -/
inductive Monitor where
  | free
  /-- armed on a physical line, or on a line of a scratchpad (`scratch` = its core key), with the device
  virtual address and the order of arming -/
  | armed (scratch : Option Nat) (line : Nat) (va : Nat) (since : Nat)
  /-- fired with a cause, on the line it watched -/
  | fired (cause : Nat) (scratch : Option Nat) (line va : Nat)
deriving DecidableEq, Repr

/-- A subscriber-list entry (R306): sequence, by its place in the pass, key-value head, ordinal, key and value page
(PBN), and whether a delivery has served it. -/
structure ColEntry where
  seq : Nat
  h : Nat
  n : Nat
  kpbn : Nat
  vpbn : Nat
  served : Bool := false
deriving DecidableEq, Repr

/-- A delivery of the Col engine in a member's buffer (R304, R307): the member's entries of it, each with the key and value
rows of its head, token by token, as they were fetched. With `key` the buffer holds only that key page, and waits for the
first value page of it that the member has entries of. -/
structure Delivery where
  entries : List (ColEntry × List (List Byte × List Byte)) := []
  key : Option Nat := none
deriving DecidableEq, Repr

/-- The macro-instruction or collective that a gang receives (R66, R76): issuing control core, tag, table
entry, operation, gang, descriptor bytes and T3, members in rank order once fixed, and whether it resumes. -/
structure Dispatch where
  ctl : Nat
  tag : Word
  entry : Nat
  op : Nat
  coll : Bool := false
  gang : Nat
  desc : List Byte
  t3 : List Byte := []
  descAddr : Word := 0
  pc : Word := 0
  resume : Bool := false
  members : List Nat := []
  /-- the ns of real time at which it reached the queue of its gang, and then, an `m.attn`, that of the Col engine (R76,
  R301) -/
  reached : Nat := 0
deriving DecidableEq, Repr

/-- A core's sequencer (R76 to R81): executing and pending dispatch, rank, number of the member's steps whose
prefetch has been issued, whether the current step has passed its ready stage and its body has ended. -/
structure Sequencer where
  exec : Option Dispatch := none
  pend : Option Dispatch := none
  rank : Nat := 0
  prefetched : Nat := 0
  ready : Bool := false
  bodyDone : Bool := false
  /-- the tiles of the current step are to be fetched again, since its body met poison in them (R414) -/
  refetch : Bool := false
  /-- resumed outside a body: the next body is entered at its first bundle (R259) -/
  fromStart : Bool := false
  /-- copy entries with the member's step that each belongs to, inputs and outputs (R77) -/
  inputs : List (Nat × Nat) := []
  outputs : List (Nat × Nat) := []
  /-- the tiles of a built-in operation, with the poison that came with them (R414) -/
  buf : Mem := {}
  /-- `m.sort`: barrier entry taken for the end of a phase, phases ended, digit counts by chunk (R255) -/
  arrival : Option Nat := none
  phases : Nat := 0
  counts : FMap (List Nat) := []
  /-- `m.attn`: deliveries received and not yet processed, at most two (R304, R307, R312) -/
  deliveries : List Delivery := []
deriving DecidableEq, Repr

/-- What a core is doing (R61, R177, R401). -/
inductive CoreStatus where
  | idle | running | stopped | frozen
deriving DecidableEq, Repr

/-- What a bundle held at issue has already done (R140, R167, R171, R337): the arrival it recorded (gang,
episode), whether its interlocked atomic has taken its entry and the result delivered, whether its monitor has
been armed, and the in-flight load entry of its fill. -/
structure Held where
  arrival : Option (Nat × Nat) := none
  atomicSent : Bool := false
  atomicResult : Option Word := none
  armed : Bool := false
  fill : Option Nat := none
deriving DecidableEq, Repr

/-- One core (R61, R143, R335): registers, matrix unit, copies, stash, in-flight record and sequencer. -/
structure Core where
  status : CoreStatus := .idle
  clk : Nat := 0
  earliest : Nat := 0
  pc : Word := 0
  s : FMap Word := []
  p : FMap Bool := []
  b : FMap Word := []
  l : FMap LoopReg := []
  v : FMap (List Lane) := []
  vm : FMap Word := []
  mp : FMap Word := []
  astat : Word := 0
  stcfg : Word := 0x100
  pending : List Pending := []
  held : Held := {}
  /-- direct stores still within their write bound (R139): offset, the bytes before, issue clk -/
  recent : List (Nat × List Byte × Nat) := []
  /-- stores of the bundle that issues, performed after its reads (R115, R182): target core (`none` for the
  spill memory), offset, bytes -/
  stores : List (Option Nat × Nat × List Byte) := []
  /-- where a branch, or a loop without iterations, of the bundle that issues sends the core (R162, R164) -/
  branch : Option Word := none
  /-- the cause and code of a `trap` or `brk` of the bundle that issues (R177) -/
  trap : Option (Nat × Nat) := none
  -- matrix unit
  acc0 : Bank := {}
  acc1 : Bank := {}
  mmode : MMode := {}
  rowSum : FMap (BitVec 32) := []
  colSum : FMap (BitVec 32) := []
  latch : FMap Byte := []
  latchPos : Nat := 0
  microwords : FMap Word := []
  directory : FMap (BitVec 13) := []
  mqueue : List MatrixCmd := []
  matrixFault : Bool := false
  sq : List SqItem := []
  -- copies, rings, streams
  cd : FMap (List Byte) := []
  /-- contents that a `cdld` has read and the clk from which copies use them (R139) -/
  cdNew : FMap (List Byte) := []
  cdReady : FMap Nat := []
  ring : FMap Ring := []
  stream : FMap Stream := []
  nextId0 : Nat := 0
  nextId1 : Nat := 0
  doneIds0 : List Nat := []
  doneIds1 : List Nat := []
  xdone0 : Nat := 0
  xdone1 : Nat := 0
  copyPos : Nat := 0
  -- in-flight record
  copies : FMap CopyEntry := []
  loads : FMap LoadEntry := []
  atomics : FMap AtomicEntry := []
  barriers : FMap BarrierEntry := []
  ord : List Nat := []
  tagSeq : Nat := 0
  lastArrival : FMap Nat := []
  -- memories of the core
  spm : Mem := {}
  spill : Mem := {}
  stash : FMap StashSlot := []
  sbuf : FMap Byte := []
  pend : FMap Byte := []
  /-- aligned words whose pending bytes are poisoned (R405, R408) -/
  pendPoison : List Nat := []
  tlb : List TlbEntry := []
  treq : FMap TransReq := []
  fetched : Option (Word × List Byte) := none
  monitors : FMap Monitor := []
  monClock : Nat := 0
  -- sequencer and progress registers
  seq : Sequencer := {}
  prgI : FMap Nat := []
  prgStep : Nat := 0
  prgAcc : Word := 0
  prgCmask : BitVec 32 := 0
  ktile : FMap Word := []
  karg : Word := 0
  /-- tags this core's scratchpad atomic port stores (R339): (source, sequence number, result) -/
  portTags : List (Nat × Nat × Word) := []
  /-- what the core was doing when it was frozen (R330) -/
  was : CoreStatus := .idle
  /-- the bytes of `ord` of the entries still to be reissued in a replay, and of those reissued by it that
  have not left the record (R342, R406) -/
  replay : List Nat := []
  replayed : List Nat := []
  /-- halted for the debugger: results land at the last clk of their bounds (R366) -/
  exact : Bool := false
  /-- stopped by `brk` for the debugger (R177) -/
  brk : Bool := false
deriving DecidableEq, Repr

/-! ## Control cores -/

/-- Privilege modes (R271). -/
inductive Priv where
  | u | s | m
deriving DecidableEq, Repr

/-- The state of a macro-table entry (R263); stopping reads as running (R411). -/
inductive EntryState where
  | free | running | stopping | stopped | completed | killing | killed
deriving DecidableEq, Repr

/-- A range [lo, hi) of device virtual addresses (R69). -/
structure VRange where
  lo : Int
  hi : Int
deriving DecidableEq, Repr

/-- A peer of a collective as this rank sees it (R281, R283, R446): registered for this operation, withdrawn or
registered for a later one, the count of its chunks acknowledged, and, for a rank of this module, the chunks of its
window that have landed. -/
structure Peer where
  registered : Bool := false
  absent : Bool := false
  acked : Nat := 0
  landed : List Nat := []
deriving DecidableEq, Repr

/-- What a collective keeps in its entry (R276, R279 to R283, R445): operation number, match key, peers by rank,
chunks landed, chunks written whole, which land once the writes have performed, pieces received by rank · 65,536 + chunk,
and the tags received by its window, newest first. -/
structure Coll where
  opNumber : Nat := 0
  key : Word := 0
  peers : FMap Peer := []
  landed : List Nat := []
  whole : List Nat := []
  pieces : FMap (List Byte) := []
  tags : List (Nat × Word) := []
deriving DecidableEq, Repr

/-- A macro-table entry (R263), which is also the scoreboard entry (R66, R70). -/
structure MacroEntry where
  state : EntryState := .free
  tag : Word := 0
  tags : List Word := []
  op : Nat := 0
  isColl : Bool := false
  desc : List Byte := []
  t3 : List Byte := []
  descAddr : Word := 0
  pc : Word := 0
  gang : Nat := 0
  reads : List VRange := []
  writes : List VRange := []
  members : List Nat := []
  dispatched : Bool := false
  finished : List Nat := []
  totalSteps : Nat := 0
  cause : Nat := 0
  causeSeq : Nat := 0
  recordsHeld : Nat := 0
  rte : Word := 0
  coll : Coll := {}
  affected : List Nat := []
  /-- the members' progress registers at completion or kill, by rank (R265) -/
  prgs : List (List Nat) := []
deriving DecidableEq, Repr

/-- A macro-instruction or collective whose descriptor has been read and that waits for the scoreboard or for an
entry (R66): operation, destination register, gang, descriptor, T3 or participant table, and ranges. -/
structure HeldMacro where
  op : Nat
  isColl : Bool
  rd : Nat
  gang : Nat
  desc : List Byte
  t3 : List Byte
  descAddr : Word
  reads : List VRange
  writes : List VRange
deriving DecidableEq, Repr

/-- What a control core is doing (R61). -/
inductive CtlStatus where
  | idle | running | waiting | frozen | stopped
deriving DecidableEq, Repr

/-- The leaf of the tables that a control core's monitor entry was armed through (R103, R289): bits of its page, ASID,
and whether the mapping is global. -/
structure CtlLeaf where
  bits : Nat := 0
  asid : Nat := 0
  global : Bool := false
deriving DecidableEq, Repr

/-- One control core (R270 to R273): integer registers, pc, privilege mode, CSRs by number, reservation,
macro table, monitors. -/
structure Ctl where
  status : CtlStatus := .idle
  x : FMap Word := []
  pc : Word := 0
  priv : Priv := .m
  csr : FMap Word := []
  instret : Nat := 0
  cycle : Nat := 0
  /-- the control-core clk of the module that `cycle` has counted up to (R272) -/
  clkSeen : Nat := 0
  reservation : Option Nat := none
  timer : Option Word := none
  macros : FMap MacroEntry := []
  issued : Nat := 0
  monitors : FMap Monitor := []
  monClock : Nat := 0
  /-- the leaves that the monitor entries were armed through; none in an entry armed without Sv57 -/
  monLeaf : FMap CtlLeaf := []
  mrtsel : BitVec 6 := 0
  /-- the instant that an `x.sleep` waits for; the register and limit of an `x.mwait` that waits (R287, R290) -/
  sleepUntil : Option Word := none
  mwaitUntil : Option (Nat × Word) := none
  tagSeq : Nat := 0
  /-- the macro-instruction or collective that waits at the scoreboard or for an entry (R66) -/
  held : Option HeldMacro := none
  /-- what the control core was doing when it was frozen (R330) -/
  was : CtlStatus := .idle
  /-- collectives issued, by cid and pair of ranks (R276) -/
  opCount : List (Nat × Nat × Nat) := []
  /-- the chunk deliveries that each rank it runs has made: the sequence counters of their tags (R339, R359) -/
  sendSeq : FMap Nat := []
  /-- registrations sent: cid, pair of ranks, operation number, match key (R445) -/
  sent : List (Nat × Nat × Nat × Word) := []
deriving DecidableEq, Repr

/-! ## Vale state -/

/-- A gang (R73, R75): owner, members (logical cores), arrivals of the current episode with the operation
that made each, members leaving, the episode number, waiting joiners, and the dispatches queued. -/
structure Gang where
  owner : Option Nat := none
  vf : Nat := 0
  members : List Nat := []
  arrived : List (Nat × Nat) := []
  leavers : List Nat := []
  joiners : List Nat := []
  /-- the members of the episode that has completed and commits (R110, R168) -/
  committers : List Nat := []
  episode : Nat := 0
  /-- the members still to commit, in order, and the granules of the first of them already committed: the
  commit cursor cg, cm, cgr of R336 -/
  committing : Option (List Nat) := none
  granules : Nat := 0
  /-- the episode that commits, by the number that follows its own, and the completed commit episodes behind it with their
  members, in order (R110, R167) -/
  commitEp : Nat := 0
  commits : List (Nat × List Nat) := []
  queue : List Dispatch := []
  /-- tags the gang barrier unit stores (R339) -/
  tags : List (Nat × Nat) := []
deriving DecidableEq, Repr

/-- A pointer kept in a Vale's pointer cache (R101): virtual function, level of the table that it points to, first
address that the table maps, physical address of the table. -/
structure PtrEntry where
  vf : Nat
  level : Nat
  va : Nat
  pa : Nat
deriving DecidableEq, Repr

/-- A page walk in progress or queued (R101). -/
structure Walk where
  vf : Nat
  va : Nat
  waiters : List (Nat × Nat) := []
deriving DecidableEq, Repr

/-- One place-table map (R88, R429): 192 core entries at keys 0 to 191 and 8 slice entries at 192 to 199; `bad`: a
bind has found the written copy to break R89 (R430). -/
structure PlaceMap where
  active : FMap (BitVec 16) := []
  written : FMap (BitVec 16) := []
  bad : Bool := false
deriving DecidableEq, Repr

/-- A row of the sequence table as the pass read it (R254, R303, R315): sequence slot, key and value base, length,
whether the sweep serves it, whether an uncorrectable error affects it (R441), the energy attributed to it (R319), whether
its queries have been read, and these in FP32 at key 128 · head + d. -/
structure ColSeq where
  slot : Nat
  kva : Nat
  vva : Nat
  len : Nat
  sweep : Bool := false
  affected : Bool := false
  charge : Nat := 0
  asked : Bool := false
  queries : FMap (BitVec 32) := []
deriving DecidableEq, Repr

/-- A Basin slot (R310): N and Dn in XF40 containers, the lowest ordinal not yet merged, one past the last
ordinal, and whether the output stands. -/
structure BasinSlot where
  n : List Word := []
  dn : Word := 0
  next : Nat := 0
  count : Nat := 0
  written : Bool := false
deriving DecidableEq, Repr

/-- A contribution to a Basin slot (R311), parked or on its way from a core: its bit of `prg.cmask`, and whether a
parking entry is reserved for it (R312). -/
structure Partial where
  slot : Nat
  n : Nat
  nv : List Word
  dn : Word
  core : Nat := 0
  bit : Nat := 0
  reserved : Bool := false
  /-- lost on its way to the Basin: sent again once its core goes on (R444) -/
  lost : Bool := false
deriving DecidableEq, Repr

/-- A pass of a Col engine, being served or put aside (R301 to R317, R415, R441 to R443): its sequences, main ones
first; subscriber entries; Basin slots at key query heads · sequence + head; contributions parked and on their way;
the rows that wait to enter the sweep. `admitted`, `walked`: the snapshot and the main walks stand; `halted`: a
finding stops it; `recorded`: its poison record is written; `stopped`: put aside by a stop; `rewalk`: a `dtlbi`
reached it (R305). `due` are the contributions of deliveries that members have not processed yet; `keyPage` is the key page
that the engine holds, with the rows that its entries take of it, by sequence, head and ordinal (R306). The sequences below
`resumedTo` were in the pass at its last resume (R443). -/
structure Pass where
  disp : Dispatch
  vf : Nat
  admitted : Bool := false
  walked : Bool := false
  seqs : List ColSeq := []
  entries : List ColEntry := []
  slots : FMap BasinSlot := []
  parked : List Partial := []
  sends : List Partial := []
  due : List Partial := []
  keyPage : Option Nat := none
  keyRows : List ((Nat × Nat × Nat) × List (List Byte)) := []
  sweeping : Bool := false
  sweepRows : List ColSeq := []
  sweepPairs : Nat := 0
  resumedTo : Nat := 0
  halted : Bool := false
  recorded : Bool := false
  stopped : Bool := false
  rewalk : Bool := false
deriving DecidableEq, Repr

/-- One Vale: gangs, place tables, Vale TLB, pointer cache and walkers, Col engine, tag stores, clock swallowing. -/
structure Vale where
  gangs : FMap Gang := []
  maps : FMap PlaceMap := []
  tlb : List TlbEntry := []
  ptrs : List PtrEntry := []
  walkers : FMap Walk := []
  missQueue : List Walk := []
  pass : Option Pass := none
  passQueue : List Dispatch := []
  /-- passes put aside by a stop or a freeze (R317, R443) -/
  aside : List Pass := []
  /-- a read that exhausts its retry budget: at a level 0 to 4 that of the entry of the next walk by this Vale's walkers that
  reads one of this level, at 255 the next read of data by the Col engine (R377, R398, R415) -/
  lostRead : Option Nat := none
  /-- lines owned exclusively by a stash: physical line → core key (R107) -/
  owners : FMap Nat := []
  /-- tags of the Vale-cache atomic units (R339): (source, sequence number, result) -/
  cacheTags : List (Nat × Nat × Word) := []
  swallow : BitVec 6 := 0
  /-- NSTIME of the last change of `swallow` (R344) -/
  swallowAt : Option Word := none
deriving DecidableEq, Repr

/-! ## Virtual functions, mailboxes, trap queue -/

/-- A trap-queue record (R371). -/
structure Record where
  ns : Word
  cid : BitVec 12
  vale : BitVec 3
  unit : BitVec 16
  cause : Byte
  flags : Byte
  lid : Word
  pc : Word
  addr : Word
  tag : Word
  info : Word
  /-- the logical slice whose control core issued what the tag names; no part of the 64 bytes -/
  slice : Option Nat := none
  /-- the ns of real time at which the fault was detected, and its place among the faults of one core at one clk: a bundle's
  0, one without an entry 1, one with an entry from 2 on (R387, R402); no part of the 64 bytes -/
  made : Nat := 0
  rank : Nat := 1
deriving DecidableEq, Repr

/-- The state of a trap-queue entry (R370 to R372). -/
inductive TqEntry where
  | free | written | popped
deriving DecidableEq, Repr

/-- The trap queue of a virtual function (R370, R372). -/
structure TrapQueue where
  base : Word := 0
  en : Bool := false
  /-- the translation kept since the last write of `tqbase`: physical page of each 64 KiB page touched -/
  pages : FMap Nat := []
  err : Bool := false
  entries : FMap TqEntry := []
  /-- landed and not yet popped, oldest first; popped are tracked in `entries` -/
  order : List Nat := []
  fatalEntry : Option Nat := none
  seq : Nat := 0
  sup : Nat := 0
  held : List Record := []
  /-- replayable records of the clk in progress, by Vale, unit class and index: they land as time passes (R372) -/
  fresh : List Record := []
  /-- the fatal record written but not yet landed (R374 step 1) -/
  fatalPending : Option (Nat × Record) := none
deriving DecidableEq, Repr

/-- A launch of a virtual function (R62 to R65): in progress or pending. -/
structure Launch where
  /-- the `lnchv` value written -/
  word : Word := 0
  lid : Word := 0
  arg : Word := 0
  /-- entry address and stack pointer of each taking-part control core, by logical slice, and the logical slices
  that have finished their part (R65) -/
  parts : List (Nat × Word × Word) := []
  done : List Nat := []
  code : Nat := 0
  /-- the launch waits for its contexts to be bound (R326) -/
  pending : Bool := false
  ending : Bool := false
deriving DecidableEq, Repr

/-- What is parked in the I/O die during a write-protect window (R120, R409): a write, or an atomic element
of a core's remote-atomic entry. -/
inductive Parked where
  | write (pa : Nat) (bs : List Byte)
  /-- the poison that a parked write carries, by word -/
  | poison (word : Nat)
  /-- element `elem` of an entry, with the source and sequence number of its tag -/
  | atomic (pa src seq : Nat) (x : AtomicEntry) (elem : Nat)
deriving DecidableEq, Repr

/-- A tier migration in progress (R119 to R121), or a host-resident section (R362): each page with the address of its
leaf, the old PBN, or the host bus address of its bytes, and the new PBN. -/
structure TierMove where
  va : Nat
  count : Nat
  /-- write-protect window (R120) or pull on first touch (R121) -/
  window : Bool
  pages : List (Nat × Nat × Nat)
  /-- what the engine stored in each page's leaf as the migration began: software may have stored over it (R409) -/
  leaves : List Nat := []
  /-- lines present in the new pages (R121), by physical line -/
  present : FMap Bool := []
  /-- writes and atomics parked in arrival order (R120, R409), by physical address in the old page -/
  parked : List Parked := []
  host : Bool := false
  /-- a pass still needs a page of the range, so that the migration's invalidation has not completed (R119, R305) -/
  dropWait : Bool := false
deriving DecidableEq, Repr

/-- A collective window registered with the receivers (R279): group identifier, logical slice, table entry. -/
structure Window where
  cid : Nat
  slice : Nat
  entry : Nat
deriving DecidableEq, Repr

/-- A trace buffer of one Vale (R351). -/
structure TraceBuf where
  base : Word := 0
  sz : BitVec 20 := 0
  en : BitVec 7 := 0
  drop : Nat := 0
  wp : BitVec 32 := 0
  rp : BitVec 32 := 0
deriving DecidableEq, Repr

/-- One virtual function: its registers in the physical function's space (R98, R119, R347, R348, R379, R430,
R451), mailbox (R356), trap queue (R370), launch and image. -/
structure Vf where
  root : Word := 0
  hbase : BitVec 32 := 0
  hlim : BitVec 32 := 0
  /-- has the HBM range been set since the module reset? HBM is unowned until then (R367; log entry 93) -/
  hset : Bool := false
  cbase : BitVec 32 := 0
  clim : BitVec 32 := 0
  tmva : Word := 0
  tmdst : BitVec 32 := 0
  tmcount : BitVec 32 := 0
  tmerr : Bool := false
  tier : Option TierMove := none
  jq : Word := BitVec.allOnes 64
  jp : BitVec 32 := 1000000
  jused : Nat := 0
  exhausted : Bool := false
  /-- the quota period in progress, counted from NSTIME 0 -/
  period : Nat := 0
  dbm : Word := 0
  dbEn : Bool := false
  dbCur : Bool := false
  dbBusy : Bool := false
  settling : Bool := false
  cec : Word := 0
  uec : Word := 0
  ptErr : Bool := false
  ptInfo : BitVec 19 := 0
  dbmErr : Bool := false
  snf : Bool := false
  -- mailbox
  inq : List Word := []
  inDropped : Bool := false
  outq : List (List Word) := []
  modq : List (List Word) := []
  modDropped : Bool := false
  attest : Option Word := none
  -- image
  /-- the `vfimg` word of a check in progress (R362) -/
  checking : Option Word := none
  image : Option Word := none
  measurement : List Byte := []
  /-- host-resident sections, pulled on first touch from the host (R362) -/
  hostSections : List TierMove := []
  -- launch
  launch : Option Launch := none
  lnprevSeq : BitVec 32 := 0
  lnprevF : Bool := false
  lnprevCode : Byte := 0
  tq : TrapQueue := {}
  suspended : Bool := false
  windows : List Window := []
  trace : FMap TraceBuf := []
deriving DecidableEq, Repr

/-! ## Scheduling -/

/-- A bind-record entry (R325). -/
structure BindEntry where
  v : Bool := false
  bk : BitVec 2 := 0
  vf : BitVec 5 := 0
  cid : BitVec 12 := 0
  w : BitVec 8 := 0
  prio : BitVec 3 := 0
  tok : BitVec 8 := 0
  gmax : BitVec 6 := 0
  rr : Bool := false
  sva : BitVec 36 := 0
  deficit : Int := 0
deriving DecidableEq, Repr

/-- The slot-table slot of a slice (R325), with where its slice group's deficit round robin stands (R326, R327):
the entry bound, entries written while bound (R332), the NSTIME at which the bind began, the entry next in turn, the
newcomers that run next, as they came, and the entries pre-empted by newcomers, latest first, those that have not been runnable since the
bind, and the entry preloaded (R343). -/
structure Slot where
  q : BitVec 16 := 1000
  ts : BitVec 16 := 20
  cur : BitVec 3 := 0
  bound : Bool := false
  entries : FMap BindEntry := []
  written : FMap BindEntry := []
  turn : Nat := 0
  since : Nat := 0
  newcomers : List Nat := []
  returnTo : List Nat := []
  unready : List Nat := []
  preloaded : Option Nat := none
deriving DecidableEq, Repr

/-- The states of a context (R329). Saving and discarding each end within the step that begins them; `halted`:
frozen for the debugger, on its slices (R365). -/
inductive CtxStatus where
  | unbound | binding | running | stepping | freezing | halted | lost
deriving DecidableEq, Repr

/-- What the save area of a context says (R333 to R337): its cores and control cores by logical number, with every
number of a unit in them logical too, its gangs and passes, its containment ID and the NSTIME of the save, whether it was accepted, an area imported from another
module (R452), and the area's bytes as the save wrote them, against which its tags hold (R453). -/
structure Image where
  cid : Nat := 0
  time : Word := 0
  cores : List (Nat × Core) := []
  ctls : List (Nat × Ctl) := []
  gangs : List (Nat × Gang) := []
  passes : List Pass := []
  accepted : Bool := true
  saved : Mem := {}
deriving DecidableEq, Repr, Inhabited

/-- A context (R323, R329): its state, the generation of its last save (R453), the end of a STEP (R331), its image while unbound, whether the bind in progress has restored it (R341), and the entries of
the replay (R352). -/
structure Context where
  status : CtxStatus := .unbound
  generation : Nat := 0
  deadline : Nat := 0
  image : Option Image := none
  restored : Bool := false
  replayed : Nat := 0
deriving DecidableEq, Repr

/-! ## The module -/

/-- What one completed host transaction returned (R353, R355, R450). -/
structure HostReply where
  error : Bool := false
  data : List Byte := []
  poison : List Bool := []
deriving DecidableEq, Repr

/-- The module's power and boot state (R364, R367, R376). -/
inductive BootState where
  | running
  /-- recovery: the stage that failed and the reason (R364), or a module failure (R376) -/
  | recovery
  /-- the module has removed its own power (R367) -/
  | off
deriving DecidableEq, Repr

/-- Registers of the physical function and of the I/O die (R350, R353 to R367, R448, R456). -/
structure Io where
  boot : BootState := .running
  /-- the last boot failed, so that no firmware runs (R364) -/
  bootFailed : Bool := false
  bootCount : Nat := 0
  ps : BitVec 4 := 0
  mdnode : BitVec 24 := 0
  mdret : FMap Nat := []
  retired : List Nat := []
  eccCorr : BitVec 32 := 0
  eccUncorr : BitVec 32 := 0
  links : BitVec 36 := BitVec.allOnes 36
  meshDown : List Nat := []
  sfn : BitVec 3 := 0
  sfseg : BitVec 15 := 0
  mbi : FMap Word := []
  mbiTaken : Option (List Word) := none
  /-- inbound messages that the firmware has copied and not answered yet (R357) -/
  mbiHeld : List (List Word) := []
  mbo : List (List Word) := []
  /-- messages of the firmware that wait for room in the outbound queue (R357) -/
  mbWait : List (List Word) := []
  mbLost : Bool := false
  dbgAtt : Bool := false
  dbgSl : BitVec 8 := 0
  dbgCid : BitVec 12 := 0
  dbgHalted : Bool := false
  dbgSc : Word := 0
  steady : Bool := false
  nsOff : BitVec 32 := 0
  /-- ns of real time since the module reset, which no correction of NSTIME changes -/
  realNs : Nat := 0
  ratePpb : Int := 0
  nsFrac : Int := 0
  nsHold : Nat := 0
  inBound : Nat := 0
  portDown : List Nat := []
  /-- GiB of CXL memory that enumeration found at port 0 and port 1 (R360; log entry 136) -/
  cxlGiB : Nat × Nat := (8192, 8192)
  /-- tags of the I/O die's atomic units (R339) -/
  tags : List (Nat × Nat × Word) := []
deriving DecidableEq, Repr

/-- The energy meters (R22): one in every core and control core, Vale-cache slice, Col engine with its Basin, HBM stack
controller and link, one for a Vale's mesh links, and that of the management core (R346). -/
inductive Meter where
  | core (k : Nat) | ctl (k : Nat) | cache (slice : Nat) | col (vale : Nat) | hbm (stack : Nat) | link (k : Nat)
  | mesh (vale : Nat) | management
deriving DecidableEq, Repr

/-- Energy accounts (R345, R346): charges by account, charges of the settlement window in progress, the rails'
calibration factors, and the operations charged. -/
structure Energy where
  accounts : FMap Nat := []
  window : FMap Nat := []
  factors : FMap Nat := []
  ops : Nat := 0
  /-- the NSTIME up to which the idle power of each slice has been charged -/
  idle : FMap Nat := []
  /-- the settlement window in progress, counted from NSTIME 0 -/
  settled : Nat := 0
deriving DecidableEq, Repr

/-- A request whose retry budget is exhausted, of an agent that R401, R415 or R444 stops for it (R373, R377). -/
inductive LostRequest where
  /-- a fill or the ownership request of a load entry of a core -/
  | load (core entry : Nat)
  /-- the next element of a remote-atomic entry of a core -/
  | atomic (core entry : Nat)
  /-- the next access of a copy of a core -/
  | copy (core entry : Nat)
  /-- the fetch of a core's next bundle -/
  | fetch (core : Nat)
  /-- the entry read at a level of a Vale's next walk that has one, or at 255 the next read of data of its Col engine -/
  | engine (vale level : Nat)
  /-- the contribution at a place among those on their way to a Vale's Basin -/
  | send (vale idx : Nat)
deriving DecidableEq, Repr

/-- What comes from outside the module's own agents and has no row in the opcode table. -/
inductive Outside where
  /-- the home directory drops its record of a watched line, given by physical line number (R172, R289) -/
  | recordDropped (line : Nat)
  /-- the peer of a rank in a collective of control core `ctl`, on another module, withdraws its window (R281, R283) -/
  | peerWithdrawn (ctl entry rank : Nat)
  /-- a chunk delivery of a rank on another module, with its header flit's operation number and match key, and the 8-byte
  words of it that are poisoned (R359, R445, R447) -/
  | delivery (ctl entry rank chunk : Nat) (tag : Word) (opNumber : Nat) (key : Word) (data : List Byte) (poison : List Nat)
  /-- firmware writes the header word of a slice's slot: quantum and step limit (R325) -/
  | slotHeader (slice : Nat) (w : Word)
  /-- firmware has copied the inbound message of the physical function's mailbox (R357) -/
  | messageCopied
  /-- the management core ends the check of a virtual function's image (R362) -/
  | imageChecked (vf : Nat)
  /-- the retry budget of a request is exhausted (R373, R377) -/
  | requestLost (x : LostRequest)
  /-- a flit is received right on a retry: an error corrected, of the virtual function whose request it carries, if any (R377,
  R379) -/
  | flitRetried (vf : Option Nat)
deriving DecidableEq, Repr

/-- Who takes the next step: a control core runs its next instruction, an event of the opcode table comes about, or
something else from outside. -/
inductive Turn where
  | ctl (k : Nat)
  | event (i : Instr)
  | outside (x : Outside)
deriving DecidableEq, Repr

/-- The whole module. `agenda` says which agent moves next and which outside event comes, each after a
number of nanoseconds; with an empty agenda control core `ctl` runs its next instruction. `core` and `slot`
name the core and the slot a slot operation issues in. `free` counts the free values drawn (R6). -/
structure State where
  nstime : Word := 0
  mem : Mem := {}
  io : Io := {}
  cores : FMap Core := []
  ctls : FMap Ctl := []
  vales : FMap Vale := []
  vfs : FMap Vf := []
  slots : FMap Slot := []
  contexts : FMap Context := []
  energy : Energy := {}
  agenda : List (Nat × Turn) := []
  ctl : Nat := 0
  core : Nat := 0
  slot : Nat := 0
  reply : Option HostReply := none
  free : Nat := 0
  undefGen : Nat := 0
deriving DecidableEq, Repr

/-- Why the machine stops with a fault. Machine faults of the manual are trap-queue records and launch ends,
which are next states; these are the model's own stops. -/
inductive Fault where
  /-- Raised by `step` when the module has removed its own power (R367) and the next turn is not a power-on
  reset: nothing runs. Safe. -/
  | poweredOff
deriving DecidableEq, Repr

/-- Why a step is refused. -/
inductive Refusal where
  /-- Raised by an arm of `exec` whose instruction has no meaning yet. Safe. -/
  | notModelled (mnemonic : String)
deriving DecidableEq, Repr

/-- The module right after reset (R5, R367): no context bound, no virtual function configured, every field
at its reset value; what each of them is where the manual gives none stands in the assumption log. -/
def State.reset : State := {}

end Sys2Proof.Machine
end

