-- ==== Sys2Proof/Machine/Ops.lean ====
section
/-! DEFINITION. The named operations over memory, registers and tables that every meaning is built from:
access to units, byte memories in canonical form, partitions and logical numbers, writes at module scope with
their side effects, page tables, trap-queue records and fatal launch ends, and taking and returning from a
RISC-V exception. -/

namespace Sys2Proof.Machine

open Sys2Proof

/-! ## Access to the units -/

/-- Core k. -/
def coreOf (s : State) (k : Nat) : Core := s.cores.get {} k
/-- The state with core k replaced. -/
def setCore (s : State) (k : Nat) (c : Core) : State := { s with cores := s.cores.put {} k c }
/-- The state with core k changed by f. -/
def modCore (s : State) (k : Nat) (f : Core → Core) : State := setCore s k (f (coreOf s k))
/-- The core that slot operations issue in. -/
def curCore (s : State) : Core := coreOf s s.core
/-- Control core k. -/
def ctlOf (s : State) (k : Nat) : Ctl := s.ctls.get {} k
/-- The state with control core k replaced. -/
def setCtl (s : State) (k : Nat) (c : Ctl) : State := { s with ctls := s.ctls.put {} k c }
/-- The state with control core k changed by f. -/
def modCtl (s : State) (k : Nat) (f : Ctl → Ctl) : State := setCtl s k (f (ctlOf s k))
/-- The control core that runs. -/
def curCtl (s : State) : Ctl := ctlOf s s.ctl
/-- Vale v. -/
def valeOf (s : State) (v : Nat) : Vale := s.vales.get {} v
/-- The state with Vale v replaced. -/
def setVale (s : State) (v : Nat) (x : Vale) : State := { s with vales := s.vales.put {} v x }
/-- The state with Vale v changed by f. -/
def modVale (s : State) (v : Nat) (f : Vale → Vale) : State := setVale s v (f (valeOf s v))
/-- Virtual function n. -/
def vfOf (s : State) (n : Nat) : Vf := s.vfs.get {} n
/-- The state with virtual function n replaced. -/
def setVf (s : State) (n : Nat) (x : Vf) : State := { s with vfs := s.vfs.put {} n x }
/-- The state with virtual function n changed by f. -/
def modVf (s : State) (n : Nat) (f : Vf → Vf) : State := setVf s n (f (vfOf s n))
/-- The slot-table slot of slice j. -/
def slotOf (s : State) (j : Nat) : Slot := s.slots.get {} j
/-- The state with slot j replaced. -/
def setSlot (s : State) (j : Nat) (x : Slot) : State := { s with slots := s.slots.put {} j x }
/-- The context of virtual function n in Vale v (R323). -/
def ctxOf (s : State) (n v : Nat) : Context := s.contexts.get {} (8 * n + v)
/-- The state with a context replaced. -/
def setCtx (s : State) (n v : Nat) (x : Context) : State :=
  { s with contexts := s.contexts.put {} (8 * n + v) x }
/-- The state with a context changed by f. -/
def modCtx (s : State) (n v : Nat) (f : Context → Context) : State := setCtx s n v (f (ctxOf s n v))
/-- Gang g of Vale v (R73). -/
def gangOf (s : State) (v g : Nat) : Gang := (valeOf s v).gangs.get {} g
/-- The state with a gang replaced. -/
def setGang (s : State) (v g : Nat) (x : Gang) : State :=
  modVale s v fun w => { w with gangs := w.gangs.put {} g x }
/-- The macro-table entry e of control core k (R263). -/
def entryOf (s : State) (k e : Nat) : MacroEntry := (ctlOf s k).macros.get {} e
/-- The state with a macro-table entry replaced. -/
def setEntry (s : State) (k e : Nat) (x : MacroEntry) : State :=
  modCtl s k fun c => { c with macros := c.macros.put {} e x }
/-- The state with a macro-table entry changed by f. -/
def modEntry (s : State) (k e : Nat) (f : MacroEntry → MacroEntry) : State := setEntry s k e (f (entryOf s k e))

/-! ## Free values and energy -/

/-- The undefined 64-bit value (R6) that this step draws for `what`, a number that tells its draws apart. -/
def freeWord (s : State) (what : Nat) : Word := Config.undefined s.free what
/-- The undefined vector value (R6, R83) that this step draws for `what`. -/
def freeLanes (s : State) (what : Nat) : List Lane :=
  (List.range 64).map fun i => Config.undefinedLane s.free what i
/-- The state whose next step draws new free values. -/
def bump (s : State) : State := { s with free := s.free + 1 }

/-- The kind and number of a meter. -/
def Meter.code (m : Meter) : Nat × Nat :=
  match m with
  | .core k => (0, k)
  | .ctl k => (1, k)
  | .cache k => (2, k)
  | .col k => (3, k)
  | .hbm k => (4, k)
  | .link k => (5, k)
  | .mesh k => (6, k)
  | .management => (7, 0)

/-- The calibration factor of a meter's rail, in parts of 2^16: as last corrected, else as fitted at test (R345). -/
def meterFactor (s : State) (m : Meter) : Nat :=
  (s.energy.factors.find? (Config.meterRail m.code)).getD (Config.fittedFactor (Config.meterRail m.code)).toNat

/-- What a meter counts for the next charged operation in whole pJ: its table energy times its factor (R345). -/
def nextEnergy (s : State) (m : Meter) : Nat := (Config.tableEnergy m.code s.energy.ops).toNat * meterFactor s m / 2 ^ 16

/-- An amount charged to an account, and to the quota period of a virtual function unless the account is the system's
(R346, R347). -/
def chargeAmount (s : State) (vf account pj : Nat) : State :=
  let s := { s with energy := { s.energy with
    accounts := s.energy.accounts.put 0 account (s.energy.accounts.get 0 account + pj)
    window := s.energy.window.put 0 account (s.energy.window.get 0 account + pj) } }
  if account = 0 then s else modVf s vf fun v => { v with jused := v.jused + pj }

/-- A charge of the next operation's energy by a meter to an account (R345, R346). -/
def charge (s : State) (m : Meter) (vf account : Nat) : State :=
  chargeAmount { s with energy := { s.energy with ops := s.energy.ops + 1 } } vf account (nextEnergy s m)

/-- The meters of an access by an agent of a Vale to a line: the home Vale's cache slice and HBM stack controller, its mesh
where it comes from another Vale, or the link to CXL memory (R22, R97, R346). Solvanko links count from 0, the CXL ports
after them. -/
def accessMeters (vale pa : Nat) : List Meter :=
  if pa < 2 ^ 40 then
    let v := pa / 2 ^ 37 % 8
    [.cache (32 * v + pa / 2 ^ 11 % 32), .hbm (2 * v + pa / 2 ^ 10 % 2)] ++ (if v = vale then [] else [.mesh v])
  else [.link (36 + pa / 2 ^ 16 % 2)]

/-- An access to a line charged by every meter on its way. -/
def chargeAccess (s : State) (vale pa vf account : Nat) : State :=
  (accessMeters vale pa).foldl (fun st m => charge st m vf account) s

/-! ## Bytes and words -/

/-- Little-endian value of a byte list (R1). -/
def leNat : List Byte → Nat
  | [] => 0
  | b :: bs => b.toNat + 256 * leNat bs

/-- n little-endian bytes of a value (R1). -/
def leBytes : Nat → Nat → List Byte
  | 0, _ => []
  | n + 1, v => BitVec.ofNat 8 v :: leBytes n (v / 256)

/-- Bits hi:lo of a number. -/
def bitsOf (v hi lo : Nat) : Nat := v / 2 ^ lo % 2 ^ (hi + 1 - lo)

/-- A 64-bit word of a byte list at an offset. -/
def word64At (bs : List Byte) (o : Nat) : Nat := leNat ((bs.drop o).take 8)
/-- n bytes of a byte list at an offset, as a number. -/
def numAt (bs : List Byte) (o n : Nat) : Nat := leNat ((bs.drop o).take n)
/-- The signed reading of a w-bit number. -/
def signedOf (w v : Nat) : Int := intOf true w v

/-- The first n of a list, padded with d. -/
def padTo {α : Type} (n : Nat) (d : α) (l : List α) : List α :=
  l.take n ++ List.replicate (n - l.length) d

/-! ## Byte memories in canonical form -/

/-- What an address reads as when no byte is listed there: a free byte of the newest undefined range that
holds it, else 0 (log entry 1). -/
def undefByte : List UndefRange → Nat → Byte
  | [], _ => 0
  | r :: rs, a => if r.lo ≤ a ∧ a < r.hi then Config.undefinedByte r.gen a else undefByte rs a

/-- The byte an unlisted address reads as. -/
def Mem.base (m : Mem) (a : Nat) : Byte := undefByte m.undef a

/-- The byte at an address. -/
def Mem.read (m : Mem) (a : Nat) : Byte := FMap.get (m.base a) m.cells a

/-- The memory with one byte written; canonical form is kept. -/
def Mem.write (m : Mem) (a : Nat) (b : Byte) : Mem := { m with cells := FMap.put (m.base a) m.cells a b }

/-- n bytes from an address up. -/
def Mem.readN (m : Mem) (a : Nat) : Nat → List Byte
  | 0 => []
  | n + 1 => m.read a :: Mem.readN m (a + 1) n

/-- The memory with bytes written from an address up. -/
def Mem.writeN (m : Mem) (a : Nat) : List Byte → Mem
  | [] => m
  | b :: bs => Mem.writeN (m.write a b) (a + 1) bs

/-- A memory with the bytes of [lo, hi) undefined from now on. -/
def Mem.forget (m : Mem) (lo hi gen : Nat) : Mem :=
  { m with
    cells := m.cells.filter (fun e => !(decide (lo ≤ e.1) && decide (e.1 < hi)))
    undef := { lo := lo, hi := hi, gen := gen } :: m.undef }

/-- A word number inserted in rising order. -/
def insertRising (n : Nat) : List Nat → List Nat
  | [] => [n]
  | a :: rest => if a < n then a :: insertRising n rest else if a = n then a :: rest else n :: a :: rest

/-- The parts of an undefined range outside [lo, hi). -/
def cutRange (lo hi : Nat) (r : UndefRange) : List UndefRange :=
  [{ r with hi := Nat.min r.hi lo }, { r with lo := Nat.max r.lo hi }].filter fun r => decide (r.lo < r.hi)

/-- The part of an undefined range inside [lo, lo + n), moved to d. -/
def moveRange (lo n d : Nat) (r : UndefRange) : Option UndefRange :=
  let a := Nat.max r.lo lo
  let b := Nat.min r.hi (lo + n)
  if a < b then some { r with lo := a - lo + d, hi := b - lo + d } else none

/-- The listed bytes of [lo, lo + n), moved to d. -/
def moveCells (cells : FMap Byte) (lo n d : Nat) : FMap Byte :=
  (cells.filter fun e => decide (lo ≤ e.1) && decide (e.1 < lo + n)).map fun e => (e.1 - lo + d, e.2)

/-- A memory whose bytes [d, d + n) become those of another memory's [lo, lo + n), undefined ones undefined, with
their poisoned words; d and lo are aligned to a word. -/
def Mem.moveIn (m : Mem) (d : Nat) (src : Mem) (lo n : Nat) : Mem :=
  let undef := src.undef.filterMap (moveRange lo n d) ++ m.undef.flatMap (cutRange d (d + n))
  let cells := (m.cells.filter fun e => decide (e.1 < d)) ++ moveCells src.cells lo n d
    ++ m.cells.filter fun e => decide (d + n ≤ e.1)
  let words := src.poison.filter fun w => decide (lo ≤ 8 * w) && decide (8 * w < lo + n)
  { cells := cells.filter fun e => decide (e.2 ≠ undefByte undef e.1)
    undef := undef
    poison := words.foldl (fun l w => insertRising (w - lo / 8 + d / 8) l)
      (m.poison.filter fun w => !(decide (d ≤ 8 * w) && decide (8 * w < d + n))) }

/-- Strictly rising lists of word numbers. -/
def rising : List Nat → Bool
  | [] => true
  | [_] => true
  | a :: b :: rest => decide (a < b) && rising (b :: rest)

/-- The canonical form of a memory: addresses strictly rising and no byte listed that an unlisted address
reads as; poisoned words rising. -/
def Mem.wf (m : Mem) : Bool :=
  FMap.sorted m.cells && m.cells.all (fun e => decide (e.2 ≠ m.base e.1)) && rising m.poison

/-- Does a byte range touch a poisoned word (R377)? -/
def Mem.poisoned (m : Mem) (a n : Nat) : Bool := m.poison.any fun w => decide (8 * w < a + n ∧ a < 8 * w + 8)

/-- The memory with a word poisoned (R377). -/
def Mem.poisonWord (m : Mem) (w : Nat) : Mem := { m with poison := insertRising w m.poison }

/-- The poison that a write of n bytes at a leaves: an aligned write of a whole word clears its poison
(R378). -/
def Mem.clearPoison (m : Mem) (a n : Nat) : Mem :=
  { m with poison := m.poison.filter fun w => !(decide (a ≤ 8 * w ∧ 8 * w + 8 ≤ a + n)) }

/-- Bytes written with poison cleared under R378. -/
def Mem.store (m : Mem) (a : Nat) (bs : List Byte) : Mem := (m.clearPoison a bs.length).writeN a bs

/-- Poison moved with data (R378): word w of the destination is poisoned where any source byte it takes is. -/
def Mem.movePoison (m : Mem) (words : List Nat) : Mem := words.foldl Mem.poisonWord m

/-! ## Partitions, logical numbers and identities (R88, R323, R325) -/

/-- Slices hold 24 physical cores; a core's slot-table slot (R11). -/
def sliceOfCore (k : Nat) : Nat := 8 * (k / 192) + k % 192 / 24

/-- The bind entry bound on slice j, if one is. -/
def boundEntry (s : State) (j : Nat) : Option BindEntry :=
  let sl := slotOf s j
  if sl.bound then
    let e := sl.entries.get {} sl.cur.toNat
    if e.v then some e else none
  else none

/-- The virtual function bound on slice j. -/
def vfOfSlice (s : State) (j : Nat) : Option Nat := (boundEntry s j).map (·.vf.toNat)

/-- The virtual function a core runs for; 0 where its slice is unbound. -/
def vfOfCore (s : State) (k : Nat) : Nat := (vfOfSlice s (sliceOfCore k)).getD 0

/-- The virtual function a control core runs for; 0 where its slice is unbound. -/
def vfOfCtl (s : State) (k : Nat) : Nat := (vfOfSlice s k).getD 0

/-- The containment ID of slice j's bound context; 0, the system account, where none is bound. -/
def cidOfSlice (s : State) (j : Nat) : Nat := ((boundEntry s j).map (·.cid.toNat)).getD 0

/-- The containment ID of a virtual function's context in a Vale: that of the entry bound there, else that of a valid
record (R323, R325). -/
def contextCid (s : State) (vf vale : Nat) : BitVec 12 :=
  let bound := (List.range 8).findSome? fun i => (boundEntry s (8 * vale + i)).bind fun e =>
    if e.vf.toNat = vf then some e.cid else none
  match bound with
  | some c => c
  | none => ((List.range 8).findSome? fun i =>
      (List.find? (fun e : Nat × BindEntry => e.2.v && e.2.vf.toNat == vf) (slotOf s (8 * vale + i)).entries).map fun e =>
        e.2.cid).getD 0

/-- An operation of core k charged by its meter to the context bound there (R346). -/
def chargeCore (s : State) (k : Nat) : State := charge s (.core k) (vfOfCore s k) (cidOfSlice s (sliceOfCore k))

/-- An access of core k to global memory charged, by its own meter and by those on the way (R346). -/
def chargeCoreAccess (s : State) (k pa : Nat) : State :=
  chargeAccess (chargeCore s k) (k / 192) pa (vfOfCore s k) (cidOfSlice s (sliceOfCore k))

/-- A use of core j's scratchpad by an agent of core k: by j's meter, and by the mesh between two cores (R22, R346). -/
def chargeScratch (s : State) (k j : Nat) : State :=
  let s := charge s (.core j) (vfOfCore s k) (cidOfSlice s (sliceOfCore k))
  if j = k then s else charge s (.mesh (k / 192)) (vfOfCore s k) (cidOfSlice s (sliceOfCore k))

/-- An access of an agent of core k to global memory charged by the meters on the way (R22, R346). -/
def chargeGlobal (s : State) (k pa : Nat) : State :=
  chargeAccess s (k / 192) pa (vfOfCore s k) (cidOfSlice s (sliceOfCore k))

/-- An access of control core k to memory charged by the meters on the way (R22, R346). -/
def chargeCtlAccess (s : State) (k pa : Nat) : State := chargeAccess s (k / 8) pa (vfOfCtl s k) (cidOfSlice s k)

/-- The idle power of slice j since it was last charged, to the context bound on it or to the system (R346). -/
def idleSlice (s : State) (j : Nat) : State :=
  if s.energy.idle.get 0 j = s.nstime.toNat then s
  else
    let s := charge s (.ctl j) ((vfOfSlice s j).getD 0) (cidOfSlice s j)
    { s with energy := { s.energy with idle := s.energy.idle.put 0 j s.nstime.toNat } }

/-- The active place-table map of a virtual function in a Vale (R88). -/
def placeMap (s : State) (vale vf : Nat) : PlaceMap := (valeOf s vale).maps.get {} vf

/-- The physical number that entry i of a map gives: cores at 0 to 191, slices at 192 to 199. -/
def placeEntry (m : FMap (BitVec 16)) (i : Nat) : Option Nat :=
  let e := m.get 0 i
  if e.getLsbD 15 then some (e.toNat % 256) else none

/-- The core key of logical core n of a virtual function in a Vale (R88, R93). -/
def physCore (s : State) (vale vf n : Nat) : Option Nat :=
  if n < 192 then (placeEntry (placeMap s vale vf).active n).map (fun p => 192 * vale + p) else none

/-- First index below `fuel` + i whose entry is physical number p. -/
def findPlace (m : FMap (BitVec 16)) (p i : Nat) : Nat → Option Nat
  | 0 => none
  | fuel + 1 => if placeEntry m i = some p then some i else findPlace m p (i + 1) fuel

/-- The logical number of a core (R90); its physical number where the map does not name it. -/
def logicalCore (s : State) (k : Nat) : Nat :=
  (findPlace (placeMap s (k / 192) (vfOfCore s k)).active (k % 192) 0 192).getD (k % 192)

/-- The logical slices of a virtual function, in order, as control-core numbers (R61, R88). -/
def logicalSlices (s : State) (vf : Nat) : List Nat :=
  (List.range 8).flatMap fun v =>
    (List.range 8).filterMap fun i => (placeEntry (placeMap s v vf).active (192 + i)).map (fun p => 8 * v + p)

/-- Index of an element in a list, from i. -/
def indexIn (x i : Nat) : List Nat → Option Nat
  | [] => none
  | y :: ys => if y = x then some i else indexIn x (i + 1) ys

/-- The logical slice number of a control core (R61). -/
def logicalSlice (s : State) (k : Nat) : Nat := (indexIn k 0 (logicalSlices s (vfOfCtl s k))).getD 0

/-- Do the banks that bk allows on the slice of core k include the bank of offset o (R426)? -/
def bankAllowed (s : State) (k o : Nat) : Bool :=
  match boundEntry s (sliceOfCore k) with
  | some e => e.bk.getLsbD (o / 2 ^ 21 % 2)
  | none => true

/-- A trace or trap unit number: class and index (R352). -/
def unitNo (cls idx : Nat) : BitVec 16 := BitVec.ofNat 16 (cls * 4096 + idx % 4096)

/-- Is the PBN of an address inside the HBM or the CXL range of a virtual function (R98)? A module reset leaves HBM
unowned (R367), so the HBM range counts from the first write of its registers on (log entry 93). -/
def pbnOwned (v : Vf) (pbn : Nat) : Bool :=
  (v.hset && decide (v.hbase.toNat ≤ pbn) && decide (pbn ≤ v.hlim.toNat) && decide (pbn < 2 ^ 24))
    || (decide (v.cbase.toNat ≤ pbn) && decide (pbn ≤ v.clim.toNat) && decide (2 ^ 28 ≤ pbn) && decide (pbn < 2 ^ 29))

/-- Pages of the HBM range of a virtual function. -/
def hbmPages (v : Vf) : Nat := if v.hset then v.hlim.toNat + 1 - v.hbase.toNat else 0

/-- Does enumerated CXL memory stand behind a PBN of the CXL range (R97, R360)? With both ports populated bit 16 of the
address, the lowest of the PBN, names the port; 2^14 pages make a GiB. -/
def cxlPresent (gib : Nat × Nat) (pbn : Nat) : Bool :=
  let i := pbn - 2 ^ 28
  if gib.1 ≠ 0 ∧ gib.2 ≠ 0 then decide (i / 2 < (if i % 2 = 0 then gib.1 else gib.2) * 2 ^ 14)
  else decide (i < (gib.1 + gib.2) * 2 ^ 14)

/-- Does memory stand behind a PBN, HBM or enumerated CXL memory (R97, R360)? -/
def pbnPresent (s : State) (pbn : Nat) : Bool :=
  decide (pbn < 2 ^ 24) || (decide (2 ^ 28 ≤ pbn) && decide (pbn < 2 ^ 29) && cxlPresent s.io.cxlGiB pbn)

/-- May a virtual function's requests go to a PBN (R97, R98)? -/
def ownsPbn (s : State) (vf pbn : Nat) : Bool := pbnOwned (vfOf s vf) pbn && pbnPresent s pbn

/-- May they go to every PBN of a page of 2^bits bytes? Ranges have no holes, and at the end of CXL memory the ports take
turns, so that the first page and the last two decide it. -/
def ownsPage (s : State) (vf pa bits : Nat) : Bool :=
  let n := 2 ^ (bits - 16)
  ownsPbn s vf (pa / 65536) && ownsPbn s vf (pa / 65536 + n - 1) && (decide (n = 1) || ownsPbn s vf (pa / 65536 + n - 2))

/-- Home Vale of a physical address in HBM (R97); `none` for CXL memory. -/
def homeVale (pa : Nat) : Option Nat := if pa < 2 ^ 40 then some (pa / 2 ^ 37 % 8) else none

/-! ## Writes at module scope -/

/-- A monitor entry after an event on a physical line. -/
def firePhys (line cause : Nat) (m : Monitor) : Monitor :=
  match m with
  | .armed none l va _ => if l = line then .fired cause none l va else m
  | x => x

/-- A monitor entry after a write to a line of core k's scratchpad. -/
def fireScratch (k line : Nat) (m : Monitor) : Monitor :=
  match m with
  | .armed (some j) l va _ => if j = k ∧ l = line then .fired 0 (some j) l va else m
  | x => x

/-- A monitor entry after its context is frozen or resumed (R172, R289). -/
def fireAll (cause : Nat) (m : Monitor) : Monitor :=
  match m with
  | .armed sc l va _ => .fired cause sc l va
  | x => x

/-- Every monitor table of the module changed by f. -/
def mapMonitors (s : State) (f : Monitor → Monitor) : State :=
  { s with
    cores := s.cores.map fun e => (e.1, { e.2 with monitors := e.2.monitors.map fun m => (m.1, f m.2) })
    ctls := s.ctls.map fun e => (e.1, { e.2 with monitors := e.2.monitors.map fun m => (m.1, f m.2) }) }

/-- Reservations on a line are lost by any write to it (R273). -/
def dropReservations (s : State) (line : Nat) : State :=
  { s with ctls := s.ctls.map fun e =>
      (e.1, if e.2.reservation = some line then { e.2 with reservation := none } else e.2) }

/-- The exclusive ownership of a line is recalled: the value stands at its home already, and the owner's slot
becomes a clean one (R108). -/
def recallLine (s : State) (line : Nat) : State :=
  match homeVale (128 * line) with
  | none => s
  | some v =>
    match (valeOf s v).owners.find? line with
    | none => s
    | some k =>
      let s := modVale s v fun w => { w with owners := w.owners.erase line }
      modCore s k fun c => { c with
        stash := c.stash.map fun e => (e.1, if e.2.pa = 128 * line then { e.2 with owned := false } else e.2) }

/-- Page index of a PBN in a virtual function's dirty bitmaps: the HBM range, then the CXL range (R348). -/
def dirtyIndex (v : Vf) (pbn : Nat) : Nat :=
  if v.hset ∧ v.hbase.toNat ≤ pbn ∧ pbn ≤ v.hlim.toNat then pbn - v.hbase.toNat
  else hbmPages v + (pbn - v.cbase.toNat)

/-- Bytes from bitmap 0 to the next 4 KiB boundary after it, where bitmap 1 begins (R348). -/
def bitmapBytes (v : Vf) : Nat := (hbmPages v + (v.clim.toNat + 1 - v.cbase.toNat) + 32767) / 32768 * 4096

/-- The dirty bit of a page set by atomic OR in the bitmap that receives new bits (R348). -/
def markDirty (s : State) (pbn : Nat) : State :=
  s.vfs.foldl (fun st e =>
    let v := e.2
    if v.dbEn && pbnOwned v pbn then
      let i := dirtyIndex v pbn
      let a := v.dbm.toNat + (if v.dbCur then bitmapBytes v else 0) + i / 8
      { st with mem := st.mem.write a (st.mem.read a ||| (1#8 <<< (i % 8))) }
    else st) s

/-- The virtual function whose write-protect window covers an old page (R120). -/
def windowOf (s : State) (pbn : Nat) : Option Nat :=
  (List.find? (fun e : Nat × Vf => match e.2.tier with
    | some t => t.window && t.pages.any (fun p => p.2.1 == pbn)
    | none => false) s.vfs).map (·.1)

/-- The pulls on first touch in progress for a virtual function: a tier migration's and its host-resident sections
(R121, R362). -/
def pullsOf (v : Vf) : List TierMove :=
  (match v.tier with
    | some t => if t.window then [] else [t]
    | none => []) ++ v.hostSections

/-- Is any pull in progress? -/
def pulling (s : State) : Bool := s.vfs.any fun e => !(pullsOf e.2).isEmpty

/-- The pull that fills a new page: its virtual function, the old page and the pull. -/
def pullOf (s : State) (pbn : Nat) : Option (Nat × Nat × TierMove) :=
  s.vfs.findSome? fun e => (pullsOf e.2).findSome? fun t =>
    (t.pages.find? (fun p => p.2.2 == pbn)).map fun p => (e.1, p.2.1, t)

/-- The address of the old copy of a byte whose line has not been pulled yet, and whether it lies in the host. -/
def oldByte (s : State) (a : Nat) : Option (Bool × Nat) :=
  match pullOf s (a / 65536) with
  | none => none
  | some (_, old, t) =>
    if t.present.get false (a / 128) then none
    else some (t.host, (if t.host then old else old * 65536) + a % 65536)

/-- The byte at a physical address, from the old page where its line has not been pulled yet. -/
def physByte (s : State) (a : Nat) : Byte :=
  match oldByte s a with
  | none => s.mem.read a
  | some (true, b) => Config.hostMemory s.free b
  | some (false, b) => s.mem.read b

/-- n bytes of physical memory. -/
def physRead (s : State) (pa n : Nat) : List Byte :=
  if pulling s then (List.range n).map fun i => physByte s (pa + i) else s.mem.readN pa n

/-- Is a byte poisoned? -/
def physBad (s : State) (a : Nat) : Bool :=
  match oldByte s a with
  | none => s.mem.poisoned a 1
  | some (true, _) => false
  | some (false, b) => s.mem.poisoned b 1

/-- Is a byte range poisoned? -/
def physPoisoned (s : State) (pa n : Nat) : Bool :=
  if pulling s then (List.range n).any fun i => physBad s (pa + i) else s.mem.poisoned pa n

/-- Bytes written at their home within one line: ownership recalled, reservations lost, monitors fired with
cause 0, the page marked dirty (R107, R172, R273, R348). -/
def homeWrite (s : State) (pa : Nat) (bs : List Byte) : State :=
  let line := pa / 128
  let s := recallLine s line
  let s := { s with mem := s.mem.store pa bs }
  let s := dropReservations s line
  let s := mapMonitors s (firePhys line 0)
  markDirty s (pa / 65536)

/-- A line of a new page marked present. -/
def markPresent (v : Vf) (line : Nat) : Vf :=
  let one := fun (t : TierMove) =>
    if !t.window && t.pages.any (fun p => p.2.2 == 128 * line / 65536) then
      { t with present := t.present.put false line true } else t
  { v with tier := v.tier.map one, hostSections := v.hostSections.map one }

/-- The engine's last store to the leaf of a migration's page i, `f` of what it stored there first. Where software has stored
to the leaf since, it ends with either value, a free choice (R409). -/
def settleLeaf (s : State) (t : TierMove) (i : Nat) (f : Nat → Nat) : State :=
  match t.pages[i]? with
  | none => s
  | some p =>
    let e := leNat (s.mem.readN p.1 8)
    let was := t.leaves.getD i e
    if e = was ∨ (freeWord s (510 + i)).getLsbD 0 then homeWrite s p.1 (leBytes 8 (f was)) else s

/-- The pf bit of the leaves of a pull's page cleared (R121). -/
def clearPf (s : State) (t : TierMove) (pbn : Nat) : State :=
  (List.range t.pages.length).foldl (fun st i =>
    if (t.pages[i]?).any (·.2.2 == pbn) then settleLeaf st t i fun e => if e / 64 % 2 = 1 then e - 64 else e else st) s

/-- Is every line of a new page present? -/
def pagePresent (t : TierMove) (pbn : Nat) : Bool := (List.range 512).all fun i => t.present.get false (512 * pbn + i)

/-- Is the whole range of a pull present? -/
def allPresent (t : TierMove) : Bool := t.pages.all fun p => pagePresent t p.2.2

/-- A virtual function without the pulls that have ended: a tier migration is no longer busy (R121). -/
def endPulls (v : Vf) : Vf :=
  { v with
    tier := v.tier.filter fun t => t.window || t.dropWait || !allPresent t
    hostSections := v.hostSections.filter fun t => !allPresent t }

/-- The lines of a new page that an access touches are copied from the old page first, each once (R121). The words'
poison moves with them (R409). The last line of a page clears its pf bit, the last of the range ends the pull. -/
def pullLine (s : State) (line : Nat) : State :=
  let pbn := 128 * line / 65536
  match pullOf s pbn with
  | none => s
  | some (vf, _, t) =>
    if t.present.get false line then s
    else
      let bytes := physRead s (128 * line) 128
      let bad := (List.range 16).filterMap fun i =>
        if physPoisoned s (128 * line + 8 * i) 8 then some (16 * line + i) else none
      let s := { s with mem := (s.mem.store (128 * line) bytes).movePoison bad }
      let s := markDirty (modVf s vf fun v => markPresent v line) pbn
      if pagePresent { t with present := t.present.put false line true } pbn then
        modVf (clearPf s t pbn) vf endPulls
      else s

/-- The lines of a byte range. -/
def linesOf (a n : Nat) : List Nat :=
  if n = 0 then [] else (List.range ((a + n - 1) / 128 + 1 - a / 128)).map (· + a / 128)

/-- A read of n bytes at a physical address touches its lines (R121). -/
def touch (s : State) (pa n : Nat) : State := (linesOf pa n).foldl pullLine s

/-- Bytes written within one line: parked while the page is in a write-protect window (R120), otherwise
pulled if need be (R121) and performed at home. -/
def lineWrite (s : State) (pa : Nat) (bs : List Byte) : State :=
  match windowOf s (pa / 65536) with
  | some vf => modVf s vf fun v => { v with tier := v.tier.map fun t => { t with parked := t.parked ++ [.write pa bs] } }
  | none => homeWrite (pullLine s (pa / 128)) pa bs

/-- Bytes written from a physical address up, line by line; `fuel` bounds the number of lines. -/
def physWriteF (s : State) (pa : Nat) (bs : List Byte) : Nat → State
  | 0 => s
  | fuel + 1 =>
    if bs.isEmpty then s
    else
      let n := 128 - pa % 128
      physWriteF (lineWrite s pa (bs.take n)) (pa + n) (bs.drop n) fuel

/-- Bytes written at module scope from a physical address up (R116). -/
def physWrite (s : State) (pa : Nat) (bs : List Byte) : State := physWriteF s pa bs (bs.length / 128 + 2)

/-- A word poisoned where a moved source word was poisoned (R378); parked with its write in a window (R409). -/
def physPoisonWord (s : State) (w : Nat) : State :=
  match windowOf s (8 * w / 65536) with
  | some vf => modVf s vf fun v => { v with tier := v.tier.map fun t => { t with parked := t.parked ++ [.poison w] } }
  | none => { s with mem := s.mem.poisonWord w }

/-- Words poisoned where moved source words were poisoned (R378). -/
def physPoison (s : State) (words : List Nat) : State := words.foldl physPoisonWord s

/-- The physical address of something parked. -/
def parkedPa (p : Parked) : Nat :=
  match p with
  | .write pa _ => pa
  | .poison w => 8 * w
  | .atomic pa _ _ _ _ => pa

/-- Does a line hold a parked write, so that a later read of it waits (R120)? -/
def parkedOn (s : State) (line : Nat) : Bool :=
  match windowOf s (128 * line / 65536) with
  | some vf => match (vfOf s vf).tier with
    | some t => t.parked.any (fun p => parkedPa p / 128 == line)
    | none => false
  | none => false

/-- Do the lines of a range hold parked writes? -/
def parkedIn (s : State) (pa n : Nat) : Bool := (linesOf pa n).any (parkedOn s)

/-- The lines that hold parked writes. -/
def parkedLines (t : TierMove) : List Nat := (t.parked.map fun p => parkedPa p / 128).eraseDups

/-- Is a write to this line refused for now, because 8,192 other lines are parked already (R409)? -/
def parkFull (s : State) (pa : Nat) : Bool :=
  match windowOf s (pa / 65536) with
  | some vf => match (vfOf s vf).tier with
    | some t => !(parkedLines t).contains (pa / 128) && decide (8192 ≤ (parkedLines t).length)
    | none => false
  | none => false

/-- Does a read-modify-write of n bytes within a line wait: for the replay of what is parked on it, or for room to park
its result (R120, R409)? -/
def updateWaits (s : State) (pa n : Nat) : Bool := parkedIn s pa n || parkFull s pa

/-- Does a virtual function's write-protect window hold parked writes, which have not performed (R120)? -/
def parkedWrites (s : State) (vf : Nat) : Bool :=
  match (vfOf s vf).tier with
  | some t => t.window && !t.parked.isEmpty
  | none => false

/-- Does any window hold parked writes? -/
def anyParked (s : State) : Bool := s.vfs.any fun e => parkedWrites s e.1

/-- A physical range made undefined (R6, R267, R374). -/
def physForget (s : State) (pa n : Nat) : State :=
  { s with mem := s.mem.forget pa (pa + n) s.undefGen, undefGen := s.undefGen + 1 }

/-! ## Scratchpads -/

/-- Bytes written into core k's scratchpad: monitors armed on its lines fire (R172). -/
def spmWrite (s : State) (k o : Nat) (bs : List Byte) : State :=
  let s := modCore s k fun c => { c with spm := c.spm.store o bs }
  (linesOf o bs.length).foldl (fun st l => mapMonitors st (fireScratch k l)) s

/-- A scratchpad range made undefined (R6). -/
def spmForget (s : State) (k o n : Nat) : State :=
  { modCore s k (fun c => { c with spm := c.spm.forget o (o + n) s.undefGen }) with undefGen := s.undefGen + 1 }

/-! ## The stash (R104 to R106) -/

/-- 256 KiB units of bank 0 and bank 1 that serve as stash (R104). -/
def stashUnits (c : Core) : Nat × Nat := (c.stcfg.toNat % 16, c.stcfg.toNat / 256 % 16)

/-- Number of stash slots. -/
def stashSlots (c : Core) : Nat := ((stashUnits c).1 + (stashUnits c).2) * 2048

/-- The scratchpad offset of stash slot i, first through the bank-0 part, then the bank-1 part (R104). -/
def stashOffset (c : Core) (i : Nat) : Nat :=
  let n0 := (stashUnits c).1
  if i < n0 * 2048 then 2 ^ 21 - n0 * 2 ^ 18 + 128 * i
  else 2 ^ 22 - (stashUnits c).2 * 2 ^ 18 + 128 * (i - n0 * 2048)

/-- Is a scratchpad offset in the stash region (R104)? -/
def inStash (c : Core) (o : Nat) : Bool :=
  let (n0, n1) := stashUnits c
  (decide (2 ^ 21 - n0 * 2 ^ 18 ≤ o) && decide (o < 2 ^ 21)) || (decide (2 ^ 22 - n1 * 2 ^ 18 ≤ o) && decide (o < 2 ^ 22))

/-- The slot that holds the line of a virtual address. -/
def stashFind (c : Core) (va : Nat) : Option (Nat × StashSlot) :=
  List.find? (fun e => e.2.va == va / 128 * 128) c.stash

/-- The clean, non-owned lines of a stash discarded (R110 step 4). -/
def stashDiscard (c : Core) : Core :=
  { c with stash := c.stash.filter fun e => e.2.owned || e.2.dirty != 0 }

/-- The clean, non-owned lines that a copy wrote are dropped from the issuing core's stash (R113). -/
def stashDropRange (c : Core) (pa n : Nat) : Core :=
  { c with stash := c.stash.filter fun e =>
      e.2.owned || e.2.dirty != 0 || !(decide (e.2.pa < pa + n) && decide (pa < e.2.pa + 128)) }

/-- Indices below n whose bit is set in a mask. -/
def setBits (mask : BitVec 128) : List Nat := (List.range 128).filter fun i => mask.getLsbD i

/-- The bytes of a slot's line that the core has stored, by physical address (R105). -/
def slotDirty (c : Core) (i : Nat) (sl : StashSlot) : List (Nat × Byte) :=
  (setBits sl.dirty).map fun j => (sl.pa + j, c.spm.read (stashOffset c i + j))

/-- The poisoned words of a slot's line that hold dirty bytes, by physical word number (R405). -/
def slotDirtyPoison (c : Core) (i : Nat) (sl : StashSlot) : List Nat :=
  (List.range 16).filterMap fun j =>
    if c.spm.poisoned (stashOffset c i + 8 * j) 8 && (setBits sl.dirty).any (fun b => b / 8 == j) then some (sl.pa / 8 + j)
    else none

/-- Dirty bytes moved to the pending entries of their core, their poison with them (R102, R106). -/
def toPending (c : Core) (i : Nat) (sl : StashSlot) : Core :=
  { c with
    pend := (slotDirty c i sl).foldl (fun m e => FMap.insert m e.1 e.2) c.pend
    pendPoison := (slotDirtyPoison c i sl).foldl (fun l w => insertRising w l) c.pendPoison
    stash := c.stash.erase i }

/-- Lines of 128 bytes, or store-buffer granules beyond the 1,024 of the store buffer, that pending entries
hold (R106). How many entries those granules take the rule does not say: DESIGN CHOICE, one each (log entry 162). -/
def pendingEntries (c : Core) : Nat :=
  ((c.pend.map fun e => e.1 / 128).eraseDups).length + (((c.sbuf.map fun e => e.1 / 32).eraseDups).length - 1024)

/-- A core that has overflowed its buffered stores (R106). -/
def overflowed (c : Core) : Bool := decide (2048 < pendingEntries c)

/-! ## Page tables (R98 to R101, R398) -/

/-- The finding that ends a walk: cause, reason and level of R398, and whether the read of the entry itself failed, so that
its record holds access 4 (R399). -/
structure Finding where
  cause : Nat
  reason : Nat := 0
  level : Nat := 255
  entryRead : Bool := false
deriving DecidableEq, Repr

/-- What a walk returns: a translation or a finding. -/
inductive Walked where
  | ok (t : TlbEntry)
  | bad (f : Finding)
deriving DecidableEq, Repr

/-- Index of a level's table for a virtual address (R99). -/
def tableIndex (level va : Nat) : Nat :=
  match level with
  | 4 => va / 2 ^ 48 % 256
  | 3 => va / 2 ^ 39 % 512
  | 2 => va / 2 ^ 30 % 512
  | 1 => va / 2 ^ 21 % 512
  | _ => va / 2 ^ 16 % 32

/-- log2 of the page that a leaf of a level maps (R99). -/
def pageBits (level : Nat) : Nat :=
  match level with
  | 2 => 30
  | 1 => 21
  | _ => 16

/-- Reserved and must-be-zero bits of an entry, by level and leaf bit (R100, R398). -/
def entryMalformed (level e : Nat) : Bool :=
  let l := e / 4 % 2 == 1
  let pa := e / 256 % 2 ^ 40 * 256
  decide (e / 2 ^ 48 ≠ 0) || decide (e / 128 % 2 ≠ 0) || decide (e / 2 % 2 ≠ 0)
    || (l && decide (3 ≤ level)) || (!l && decide (level = 0))
    || (if l then decide (pa % 2 ^ pageBits level ≠ 0) else decide (level ≠ 1) && decide (pa % 4096 ≠ 0))

/-- A walk from a level down, reading entries at module scope (R98 to R100, R398). -/
def walkFrom (s : State) (vf va table : Nat) : Nat → Walked
  | 0 =>
    let a := table + 8 * tableIndex 0 va
    if physPoisoned s a 8 then .bad { cause := 3, level := 0, entryRead := true }
    else
      let e := leNat (physRead s a 8)
      if e % 2 = 0 then .bad { cause := 1, level := 0 }
      else if entryMalformed 0 e then .bad { cause := 0x10, reason := 2, level := 0 }
      else if !ownsPbn s vf (e / 256 % 2 ^ 40 / 256) then .bad { cause := 0x10, reason := 3, level := 0 }
      else .ok { vf := vf, va := va / 65536 * 65536, bits := 16, pa := e / 256 % 2 ^ 40 * 256,
                 w := e / 8 % 2 == 1, x := e / 16 % 2 == 1 }
  | level + 1 =>
    let a := table + 8 * tableIndex (level + 1) va
    if physPoisoned s a 8 then .bad { cause := 3, level := level + 1, entryRead := true }
    else
      let e := leNat (physRead s a 8)
      if e % 2 = 0 then .bad { cause := 1, level := level + 1 }
      else if entryMalformed (level + 1) e then .bad { cause := 0x10, reason := 2, level := level + 1 }
      else
        let pa := e / 256 % 2 ^ 40 * 256
        let b := pageBits (level + 1)
        if !ownsPbn s vf (pa / 65536) then .bad { cause := 0x10, reason := 3, level := level + 1 }
        else if e / 4 % 2 = 1 then
          if !ownsPage s vf pa b then .bad { cause := 0x10, reason := 3, level := level + 1 }
          else .ok { vf := vf, va := va / 2 ^ b * 2 ^ b, bits := b, pa := pa, w := e / 8 % 2 == 1, x := e / 16 % 2 == 1 }
        else walkFrom s vf va pa level

/-- A walk of a virtual function's tables from the root (R98, R99). -/
def walkDevice (s : State) (vf va : Nat) : Walked :=
  if 2 ^ 56 ≤ va then .bad { cause := 0x10, reason := 1 }
  else
    let root := (vfOf s vf).root.toNat
    if !ownsPbn s vf (root / 65536) then .bad { cause := 0x10, reason := 3, level := 4 }
    else walkFrom s vf va root 4

/-! ### The pointer cache of a Vale (R101) -/

/-- log2 of the bytes that a table of a level maps (R99). -/
def tableBits (level : Nat) : Nat :=
  match level with
  | 4 => 56
  | 3 => 48
  | 2 => 39
  | 1 => 30
  | _ => 21

/-- Does a cached pointer serve an address of a virtual function? -/
def PtrEntry.covers (p : PtrEntry) (vf va : Nat) : Bool :=
  p.vf == vf && p.va == va / 2 ^ tableBits p.level * 2 ^ tableBits p.level

/-- The pointers that a walk reads from a table down, up to its leaf or its finding. -/
def walkPtrs (s : State) (vf va table : Nat) : Nat → List PtrEntry
  | 0 => []
  | level + 1 =>
    let a := table + 8 * tableIndex (level + 1) va
    let e := leNat (physRead s a 8)
    let pa := e / 256 % 2 ^ 40 * 256
    if physPoisoned s a 8 ∨ e % 2 = 0 ∨ e / 4 % 2 = 1 ∨ entryMalformed (level + 1) e = true ∨ !ownsPbn s vf (pa / 65536)
    then []
    else
      { vf := vf, level := level, va := va / 2 ^ tableBits level * 2 ^ tableBits level, pa := pa }
        :: walkPtrs s vf va pa level

/-- The lowest table that a Vale's pointer cache gives for an address. -/
def cachedPtr (v : Vale) (vf va : Nat) : Option PtrEntry :=
  (List.range 4).findSome? fun level => List.find? (fun p => p.level == level && p.covers vf va) v.ptrs

/-- Pointers kept in a cache of 512 entries; the one that makes room is a free choice (log entry 137). -/
def ptrFill (draw : Nat) (l : List PtrEntry) (p : PtrEntry) : List PtrEntry :=
  if l.contains p then l else p :: (if l.length < 512 then l else l.eraseIdx (draw % l.length))

/-- Does a walk from a table down meet an entry on a line that holds a parked write, so that it waits (R120)? -/
def walkHeldFrom (s : State) (va table : Nat) : Nat → Bool
  | 0 => parkedOn s ((table + 8 * tableIndex 0 va) / 128)
  | level + 1 =>
    let a := table + 8 * tableIndex (level + 1) va
    let e := leNat (physRead s a 8)
    parkedOn s (a / 128)
      || (decide (e % 2 = 1 ∧ e / 4 % 2 = 0) && !entryMalformed (level + 1) e && walkHeldFrom s va (e / 256 % 2 ^ 40 * 256) level)

/-- Does a walk for an address wait so, from its root or from a Vale's pointer cache? -/
def walkHeld (s : State) (vale : Option Nat) (vf va : Nat) : Bool :=
  anyParked s && decide (va < 2 ^ 56) && (match vale.bind fun v => cachedPtr (valeOf s v) vf va with
    | some p => walkHeldFrom s va p.pa p.level
    | none => walkHeldFrom s va (vfOf s vf).root.toNat 4)

/-- Does a cached translation cover an address of a virtual function? -/
def TlbEntry.covers (t : TlbEntry) (vf va : Nat) : Bool :=
  t.vf == vf && t.va == va / 2 ^ t.bits * 2 ^ t.bits

/-- The physical address a translation gives. -/
def TlbEntry.phys (t : TlbEntry) (va : Nat) : Nat := t.pa + va % 2 ^ t.bits

/-- A translation put in front of a first-level TLB of at most n, most recently used first (R101). -/
def tlbFill (n : Nat) (l : List TlbEntry) (t : TlbEntry) : List TlbEntry :=
  (t :: l.filter (fun u => u != t)).take n

/-- The set of the Vale TLB that an entry takes: 16,384 entries in sets of 16 (R101). -/
def tlbSet (t : TlbEntry) : Nat := (Config.valeTlbSet t.vf t.va t.bits).toNat

/-- A translation kept in a Vale TLB: where its set is full, the entry that makes room is a free choice (R101; log
entry 137). -/
def valeFill (draw : Nat) (l : List TlbEntry) (t : TlbEntry) : List TlbEntry :=
  if l.contains t then l
  else if l.length < 16 then t :: l
  else
    let set := l.filter fun u => tlbSet u == tlbSet t
    match (if set.length < 16 then none else set[draw % set.length]?) with
    | some u => t :: l.filter (· != u)
    | none => t :: l

/-- A Vale with a translation kept. -/
def valeKeep (s : State) (v : Vale) (t : TlbEntry) : Vale := { v with tlb := valeFill (freeWord s 501).toNat v.tlb t }

/-- The leaf checks of R398, made on a hit as on a walk: access 1 or 2 needs w, 3 needs x. -/
def leafCheck (access : Nat) (t : TlbEntry) : Option Finding :=
  if (access = 1 ∨ access = 2) ∧ ¬ t.w then some { cause := 0x10, reason := 4 }
  else if access = 3 ∧ ¬ t.x then some { cause := 0x10, reason := 5 }
  else none

/-- Where a walk by the walkers of a Vale begins: the lowest table that the pointer cache gives, else the root; `none` where
it reads no entry. -/
def walkStart (s : State) (vale vf va : Nat) : Option (Nat × Nat) :=
  if 2 ^ 56 ≤ va then none
  else match cachedPtr (valeOf s vale) vf va with
    | some p => some (p.pa, p.level)
    | none =>
      let root := (vfOf s vf).root.toNat
      if ownsPbn s vf (root / 65536) then some (root, 4) else none

/-- The entries that a walk reads, by level and address: that of the table it begins at, and one for each pointer it follows. -/
def walkReads (va table level : Nat) (ptrs : List PtrEntry) : List (Nat × Nat) :=
  (level, table + 8 * tableIndex level va) :: ptrs.map fun p => (p.level, p.pa + 8 * tableIndex p.level va)

/-- The entry reads of a walk touch their lines and are charged to the context that a Vale's walkers walk for: every requester of a virtual function in
a Vale is of its context there (R121, R323, R346). -/
def chargeReads (s : State) (vale vf : Nat) (reads : List (Nat × Nat)) : State :=
  reads.foldl (fun st r => chargeAccess (touch st r.2 8) vale r.2 vf (contextCid s vf vale).toNat) s

/-- A walk by the walkers of a Vale for requests of these accesses. It fills the Vale TLB and the pointer cache, unless it ends
in a finding (R398); a leaf check that every request fails is one too (log entry 172). The retry budget of one of the entries
that it reads may be exhausted: as PAGE_WALK_COMPLETE says, any of them, or that of the level that the Vale's lost read names
(R377). -/
def walkVale (s : State) (vale vf va : Nat) (accesses : List Nat) (exhausted : Bool) : Walked × State :=
  match walkStart s vale vf va with
  | none => (walkDevice s vf va, s)
  | some (table, level) =>
    let ptrs := walkPtrs s vf va table level
    let reads := walkReads va table level ptrs
    let lost := if exhausted then (reads[(freeWord s 500).toNat % reads.length]?).map (·.1)
      else (valeOf s vale).lostRead.filter fun n => reads.any (·.1 == n)
    match lost with
    | some n =>
      let s := chargeReads s vale vf (reads.filter fun r => decide (n ≤ r.1))
      (.bad { cause := 2, level := n, entryRead := true },
        if exhausted then s else modVale s vale fun v => { v with lostRead := none })
    | none =>
      let s := chargeReads s vale vf reads
      match walkFrom s vf va table level with
      | .bad f => (.bad f, s)
      | .ok t =>
        if !accesses.isEmpty && accesses.all fun a => (leafCheck a t).isSome then (.ok t, s)
        else (.ok t, modVale s vale fun v =>
          valeKeep s { v with ptrs := ptrs.foldl (ptrFill (freeWord s 502).toNat) v.ptrs } t)

/-- The TLB entry of a core that covers an address: its first-level TLB, then its Vale's (R101). -/
def tlbLookup (s : State) (k vf va : Nat) : Option TlbEntry :=
  match (coreOf s k).tlb.find? (·.covers vf va) with
  | some t => some t
  | none => (valeOf s (k / 192)).tlb.find? (·.covers vf va)

/-- Does a translation of core k's wait for parked writes, since it has to be walked for (R120)? -/
def translateHeld (s : State) (k vf va : Nat) : Bool :=
  anyParked s && (tlbLookup s k vf va).isNone && walkHeld s (some (k / 192)) vf va

/-- A translation kept in a core's first-level TLB and its Vale TLB (R101). -/
def tlbKeep (s : State) (k : Nat) (t : TlbEntry) : State :=
  let s := modCore s k fun c => { c with tlb := tlbFill 512 c.tlb t }
  modVale s (k / 192) fun v => valeKeep s v t

/-- A translation that an engine of core k waits for to its end: hit, or walk and fill (R101, R398). The level
of a leaf finding is the leaf's on a walk and 0xFF on a hit (R399). -/
def translate (s : State) (k vf va access : Nat) : Except Finding Nat × State :=
  if 2 ^ 56 ≤ va then (.error { cause := 0x10, reason := 1 }, s)
  else match tlbLookup s k vf va with
    | some t =>
      match leafCheck access t with
      | some f => (.error f, s)
      | none => (.ok (t.phys va), tlbKeep s k t)
    | none =>
      match walkVale s (k / 192) vf va [access] false with
      | (.bad f, s) => (.error f, s)
      | (.ok t, s) =>
        match leafCheck access t with
        | some f => (.error { f with level := if t.bits = 16 then 0 else if t.bits = 21 then 1 else 2 }, s)
        | none => (.ok (t.phys va), tlbKeep s k t)

/-- A translation by an agent of a virtual function that keeps no TLB of a core: the Col engine, collectives,
the launch table (R96). -/
def translateVf (s : State) (vf va access : Nat) : Except Finding Nat :=
  match walkDevice s vf va with
  | .bad f => .error f
  | .ok t =>
    match leafCheck access t with
    | some f => .error { f with level := if t.bits = 16 then 0 else if t.bits = 21 then 1 else 2 }
    | none => .ok (t.phys va)

/-- Bytes at a device virtual address, page by page, with the first finding met; `fuel` bounds the pieces. -/
def vaReadF (s : State) (vf va n : Nat) : Nat → Except (Nat × Finding) (List Byte)
  | 0 => .ok []
  | fuel + 1 =>
    if n = 0 then .ok []
    else match translateVf s vf va 0 with
      | .error f => .error (va, f)
      | .ok pa =>
        let m := Nat.min n (65536 - va % 65536)
        match vaReadF s vf (va + m) (n - m) fuel with
        | .error e => .error e
        | .ok rest => .ok (physRead s pa m ++ rest)

/-- Bytes at a device virtual address of a virtual function. -/
def vaRead (s : State) (vf va n : Nat) : Except (Nat × Finding) (List Byte) :=
  vaReadF s vf va n (n / 65536 + 2)

/-- Does an access of n bytes at a device virtual address wait for parked writes, of its bytes or of the tables that map
them (R120)? -/
def vaHeld (s : State) (vf va n : Nat) : Bool :=
  anyParked s && decide (0 < n) && ((List.range ((va + n - 1) / 65536 + 1 - va / 65536)).any fun i =>
    let lo := Nat.max va ((va / 65536 + i) * 65536)
    walkHeld s none vf lo || (match translateVf s vf lo 0 with
      | .ok pa => parkedIn s pa (Nat.min (va + n - lo) (65536 - lo % 65536))
      | .error _ => false))

/-- An access of n bytes at a device virtual address touches their lines (R121). -/
def vaTouch (s : State) (vf va n : Nat) : State :=
  if !pulling s ∨ n = 0 then s
  else (List.range ((va + n - 1) / 65536 + 1 - va / 65536)).foldl (fun st i =>
    let lo := Nat.max va ((va / 65536 + i) * 65536)
    match translateVf st vf lo 0 with
    | .ok pa => touch st pa (Nat.min (va + n - lo) (65536 - lo % 65536))
    | .error _ => st) s

/-- Bytes written at a device virtual address, page by page; a page that makes a finding takes nothing. -/
def vaWriteF (s : State) (vf va : Nat) (bs : List Byte) : Nat → State
  | 0 => s
  | fuel + 1 =>
    if bs.isEmpty then s
    else
      let m := 65536 - va % 65536
      let s' := match translateVf s vf va 1 with
        | .error _ => s
        | .ok pa => physWrite s pa (bs.take m)
      vaWriteF s' vf (va + m) (bs.drop m) fuel

/-- Bytes written at a device virtual address of a virtual function. -/
def vaWrite (s : State) (vf va : Nat) (bs : List Byte) : State := vaWriteF s vf va bs (bs.length / 65536 + 2)

/-- The bytes of [lo, hi) of a virtual function made undefined, page by page (R267, R374). -/
def vaForgetF (s : State) (vf lo hi : Nat) : Nat → State
  | 0 => s
  | fuel + 1 =>
    if hi ≤ lo then s
    else
      let m := Nat.min (hi - lo) (65536 - lo % 65536)
      let s' := match translateVf s vf lo 0 with
        | .error _ => s
        | .ok pa => physForget s pa m
      vaForgetF s' vf (lo + m) hi fuel

/-- A range of device virtual addresses made undefined. -/
def vaForget (s : State) (vf : Nat) (r : VRange) : State :=
  let lo := r.lo.toNat
  let hi := r.hi.toNat
  vaForgetF s vf lo hi ((hi - lo) / 65536 + 2)

/-! ## The trap queue (R370 to R374) -/

/-- Entries written or popped and not yet acknowledged (R370). -/
def tqUsed (q : TrapQueue) : Nat := (q.entries.filter fun e => e.2 != TqEntry.free).length

/-- The lowest free entry from i on, below `fuel` + i. -/
def tqFree (q : TrapQueue) (i : Nat) : Nat → Option Nat
  | 0 => none
  | fuel + 1 => if q.entries.get .free i = .free then some i else tqFree q (i + 1) fuel

/-- The 64 bytes of a record with its sequence number and suppressed count (R371). -/
def recordBytes (r : Record) (seq sup : Nat) : List Byte :=
  leBytes 8 r.ns.toNat ++ leBytes 4 seq
    ++ leBytes 2 (r.cid.toNat + 4096 * r.vale.toNat) ++ leBytes 2 r.unit.toNat
    ++ [r.cause, r.flags] ++ leBytes 2 (Nat.min sup 0xFFFF) ++ leBytes 4 0
    ++ leBytes 8 r.lid.toNat ++ leBytes 8 r.pc.toNat ++ leBytes 8 r.addr.toNat
    ++ leBytes 8 r.tag.toNat ++ leBytes 8 r.info.toNat

/-- The device virtual address of trap-queue entry i. -/
def tqEntryVa (q : TrapQueue) (i : Nat) : Nat := bitsOf q.base.toNat 55 15 * 2 ^ 15 + 64 * i

/-- The physical address of entry i under the translation kept since `tqbase` was written (R370). -/
def tqEntryPa (q : TrapQueue) (i : Nat) : Nat := q.pages.get 0 0 * 65536 + tqEntryVa q i % 65536

/-- The control core of logical slice n of a virtual function changed by f, on its slice or in its saved image. -/
def modSliceCtl (s : State) (vf n : Nat) (f : Ctl → Ctl) : State :=
  match (logicalSlices s vf)[n]? with
  | none => s
  | some k =>
    match (ctxOf s vf (k / 8)).image with
    | some _ => modCtx s vf (k / 8) fun x => { x with
        image := x.image.map fun i => { i with ctls := i.ctls.map fun e => (e.1, if e.1 = n then f e.2 else e.2) } }
    | none => if vfOfSlice s k = some vf then modCtl s k f else s

/-- The control core of logical slice n of a virtual function, on its slice or in its saved image. -/
def sliceCtl (s : State) (vf n : Nat) : Ctl :=
  match (logicalSlices s vf)[n]? with
  | none => {}
  | some k =>
    match (ctxOf s vf (k / 8)).image with
    | some i => ((i.ctls.find? fun e => e.1 == n).map (·.2)).getD {}
    | none => if vfOfSlice s k = some vf then ctlOf s k else {}

/-- Supervisor external interrupt pending on a control core: bit 9 of mip. -/
def withSei (c : Ctl) : Ctl := { c with csr := c.csr.put 0 0x344 (c.csr.get 0 0x344 ||| 0x200) }

/-- A supervisor external interrupt for logical slice 0 of a virtual function (R372). -/
def raiseQueueInterrupt (s : State) (vf : Nat) : State := modSliceCtl s vf 0 withSei

/-- A record written into its entry and landed: numbered, with the suppressed count it takes; the write is charged to its
containment ID (R370 to R372). -/
def landIn (s : State) (vf i : Nat) (r : Record) : State :=
  let q := (vfOf s vf).tq
  let pa := tqEntryPa q i
  let s := physWrite (chargeAccess s r.vale.toNat pa vf r.cid.toNat) pa (recordBytes r q.seq q.sup)
  let s := modVf s vf fun v => { v with tq := { v.tq with
    entries := v.tq.entries.put .free i .written, order := v.tq.order ++ [i]
    seq := (v.tq.seq + 1) % 2 ^ 32, sup := 0 } }
  raiseQueueInterrupt s vf

/-- A macro table whose entry has the record's tag learns that the record has landed: the cause of the lowest sequence
number stands (R412). -/
def noteIn (seq : Nat) (r : Record) (c : Ctl) : Ctl :=
  let e := r.tag.toNat % 64
  let m := c.macros.get {} e
  if m.tags.contains r.tag ∧ m.recordsHeld ≠ 0 then
    { c with macros := c.macros.put {} e { m with
        recordsHeld := m.recordsHeld - 1
        cause := if m.cause = 0 then r.cause.toNat else m.cause
        causeSeq := if m.cause = 0 then seq else m.causeSeq } }
  else c

/-- The macro table of the control core that issued what a record's tag names learns that it has landed. -/
def noteLanded (s : State) (vf seq : Nat) (r : Record) : State :=
  match r.slice with
  | some n => modSliceCtl s vf n (noteIn seq r)
  | none => s

/-- A replayable record: landed in the lowest free entry of 0 to 507, or held back (R372). A queue that is
not enabled holds nothing: the record is counted as suppressed. -/
def landReplayable (s : State) (vf : Nat) (r : Record) : State :=
  let q := (vfOf s vf).tq
  if !q.en then modVf s vf fun v => { v with tq := { v.tq with sup := v.tq.sup + 1 } }
  else match q.held, tqFree q 0 508 with
    | [], some i => noteLanded (landIn s vf i r) vf q.seq r
    | _, _ => modVf s vf fun v => { v with tq := { v.tq with
        held := v.tq.held ++ [{ r with flags := r.flags ||| 4 }] } }

/-- Held records land, oldest first, as entries free (R372); `fuel` bounds their number. -/
def landHeld (s : State) (vf : Nat) : Nat → State
  | 0 => s
  | fuel + 1 =>
    let q := (vfOf s vf).tq
    match q.held, tqFree q 0 508 with
    | r :: rest, some i =>
      let s := modVf s vf fun v => { v with tq := { v.tq with held := rest } }
      landHeld (noteLanded (landIn s vf i r) vf q.seq r) vf fuel
    | _, _ => s

/-- The place of a record among those of one clk: Vale, unit class, unit index (R372). -/
def recordKey (r : Record) : Nat := 65536 * r.vale.toNat + r.unit.toNat

/-- A record put among those of the clk in progress, in their order. -/
def insertRecord (r : Record) : List Record → List Record
  | [] => [r]
  | x :: rest => if recordKey r < recordKey x then r :: x :: rest else x :: insertRecord r rest

/-- A replayable record is produced: it lands, or is held back, once the other records of its clk are known (R372). -/
def postReplayable (s : State) (vf : Nat) (r : Record) : State :=
  modVf s vf fun v => { v with tq := { v.tq with fresh := insertRecord r v.tq.fresh } }

/-- The records of a virtual function that a clk has produced land in their order. -/
def landFreshOf (s : State) (vf : Nat) : State :=
  let l := (vfOf s vf).tq.fresh
  l.foldl (fun st r => landReplayable st vf r) (modVf s vf fun v => { v with tq := { v.tq with fresh := [] } })

/-- The records of the clk that ends land, as time passes. -/
def landFresh (s : State) : State :=
  s.vfs.foldl (fun st e => if e.2.tq.fresh.isEmpty then st else landFreshOf st e.1) s

/-- Does a fault come before one that its core has stopped on in the same clk (R387, R402)? -/
def comesBefore (s : State) (r old : Record) : Bool :=
  old.made == s.io.realNs && recordKey old == recordKey r && decide (r.rank < old.rank)

/-- A fault of a core that has stopped: its record replaces that of a later fault of the same clk, and is not produced where
there is none (R402). -/
def supersede (s : State) (vf : Nat) (r : Record) : State :=
  modVf s vf fun v => { v with tq := { v.tq with
    fresh := v.tq.fresh.map fun x => if comesBefore s r x then { r with slice := x.slice } else x } }

/-- A record with its common fields filled in. -/
def mkRecord (s : State) (vf vale cls idx cause flags : Nat) (pc addr tag info : Nat) : Record :=
  { ns := s.nstime, cid := contextCid s vf vale, vale := BitVec.ofNat 3 vale, unit := unitNo cls idx
    cause := BitVec.ofNat 8 cause, flags := BitVec.ofNat 8 flags
    lid := ((vfOf s vf).launch.map (·.lid)).getD 0
    pc := BitVec.ofNat 64 pc, addr := BitVec.ofNat 64 addr, tag := BitVec.ofNat 64 tag, info := BitVec.ofNat 64 info
    made := s.io.realNs }

/-- Is a fatal record the first of its clk, ahead of the one that ends the launch: of a lower unit, or of an earlier fault of
the same (R372, R387)? -/
def firstFatal (s : State) (r old : Record) : Bool :=
  old.made == s.io.realNs && (decide (recordKey r < recordKey old) || comesBefore s r old)

/-- A fatal record (R372, R374 step 1): it takes the lowest free entry and marks the launch as ending; it
lands in step 4's event. A second one of the same launch only counts, unless it is the first of its clk. Outside a launch it
lands at once. -/
def postFatal (s : State) (vf : Nat) (r : Record) : State :=
  let v := vfOf s vf
  match v.launch with
  | some l =>
    if l.ending then
      match v.tq.fatalPending with
      | some (i, old) =>
        if firstFatal s r old then modVf s vf fun v => { v with
          launch := some { l with code := 0x100 + r.cause.toNat }
          tq := { v.tq with fatalPending := some (i, r), sup := v.tq.sup + 1 } }
        else modVf s vf fun v => { v with tq := { v.tq with sup := v.tq.sup + 1 } }
      | none => modVf s vf fun v => { v with tq := { v.tq with sup := v.tq.sup + 1 } }
    else
      let s := modVf s vf fun v => { v with launch := some { l with ending := true, code := 0x100 + r.cause.toNat } }
      match v.tq.en, tqFree v.tq 0 512 with
      | true, some i => modVf s vf fun v => { v with tq := { v.tq with
          entries := v.tq.entries.put .free i .written, fatalEntry := some i, fatalPending := some (i, r) } }
      | _, _ => modVf s vf fun v => { v with tq := { v.tq with sup := v.tq.sup + 1 } }
  | none =>
    match v.tq.en, tqFree v.tq 0 512 with
    | true, some i => modVf (landIn s vf i r) vf fun v => { v with tq := { v.tq with fatalEntry := some i } }
    | _, _ => modVf s vf fun v => { v with tq := { v.tq with sup := v.tq.sup + 1 } }

/-! ## How a core stops (R401, R402, R386, R411) -/

/-- The tag of the macro-instruction a core executes, or 0. -/
def coreTag (c : Core) : Nat := (c.seq.exec.map (·.tag.toNat)).getD 0

/-- The logical slice whose control core issued what a core executes. -/
def coreSlice (s : State) (c : Core) : Option Nat := c.seq.exec.map fun d => logicalSlice s d.ctl

/-- The entry of the macro-instruction that core k executes begins to stop (R411). -/
def beginStop (s : State) (k : Nat) : State :=
  match (coreOf s k).seq.exec with
  | none => s
  | some d => modEntry s d.ctl d.entry fun m =>
      if m.state = .running ∨ m.state = .stopping then
        { m with state := .stopping, recordsHeld := m.recordsHeld + 1 } else m

/-- Core k stops on a replayable fault: fault-stopped, its macro-instruction stopping, one record for its
first fault (R401, R402, R411). -/
def stopReplayable (s : State) (k cause pc addr info flags : Nat) (rank : Nat := 1) : State :=
  let c := coreOf s k
  let vf := vfOfCore s k
  let r := { mkRecord s vf (k / 192) 0 (logicalCore s k) cause flags pc addr (coreTag c) info with rank := rank }
  if c.status = .stopped then supersede s vf r
  else
    let s' := setCore s k { c with status := .stopped }
    postReplayable (beginStop s' k) vf { r with slice := coreSlice s c }

/-- Has the launch of a virtual function a fatal fault already? -/
def launchEnding (s : State) (vf : Nat) : Bool := (vfOf s vf).launch.any (·.ending)

/-- Core k stops on a fault that is fatal to the launch (R374). A core that a fault has stopped writes nothing for a later
fault of one of its entries (R402). -/
def stopFatal (s : State) (k cause pc addr info flags : Nat) (rank : Nat := 1) : State :=
  let c := coreOf s k
  let vf := vfOfCore s k
  let r := { mkRecord s vf (k / 192) 0 (logicalCore s k) cause (1 ||| flags) pc addr (coreTag c) info with rank := rank }
  let first := (vfOf s vf).tq.fresh.any fun x => comesBefore s r x
  if c.status = .stopped ∧ 2 ≤ rank ∧ first = false ∧ launchEnding s vf = false then s
  else
    let s := modVf s vf fun v => { v with tq := { v.tq with fresh := v.tq.fresh.filter fun x => !comesBefore s r x } }
    postFatal (setCore s k { c with status := .stopped }) vf r

/-- Is a cause replayable (R373)? -/
def replayable (cause : Nat) : Bool := decide (cause < 0x10)

/-- Core k stops with a cause of either class, by a fault of a rank among those of its clk. -/
def stopCore (s : State) (k cause pc addr info : Nat) (rank : Nat := 1) : State :=
  if replayable cause then stopReplayable s k cause pc addr info 0 rank else stopFatal s k cause pc addr info 0 rank

/-- The rank of a fault of the entry of an `ord` byte: its place in the record (R402). -/
def entryRank (s : State) (k o : Nat) : Nat := 2 + ((coreOf s k).ord.takeWhile (· != o)).length

/-- The info field of R386: reason, opcode, slot and detail. -/
def info386 (reason opcode slot detail : Nat) : Nat :=
  detail % 2 ^ 32 * 2 ^ 32 + reason % 256 * 2 ^ 16 + opcode % 256 * 2 ^ 8 + slot % 8

/-- The info field of R399: level, access, agent, ord byte, reason, element. -/
def info399 (f : Finding) (access agent ord element : Nat) : Nat :=
  f.level % 256 * 2 ^ 56 + (if f.entryRead then 4 else access) % 256 * 2 ^ 48 + agent % 256 * 2 ^ 40
    + ord % 256 * 2 ^ 32 + f.reason % 256 * 2 ^ 16 + element % 2 ^ 16

/-- Control core k stops with a cause fatal to the launch (R395). -/
def stopCtl (s : State) (k cause addr tag info : Nat) : State :=
  let c := ctlOf s k
  let vf := vfOfCtl s k
  let r := mkRecord s vf (k / 8) 1 (logicalSlice s k) cause 1 c.pc.toNat addr tag info
  postFatal (setCtl s k { c with status := .stopped }) vf r

/-! ## RISC-V exceptions and interrupts (R270 to R272) -/

/-- What a control-core CSR that nothing has written reads as: the firmware delegates exceptions and
supervisor interrupts to S mode and opens the counters (log entry 30). -/
def csrDefault (n : Nat) : Word :=
  match n with
  | 0x302 => 0xB1FF
  | 0x303 => 0x222
  | 0x306 => 0x7
  | 0x106 => 0x7
  | 0x300 => 0xA00000000
  | _ => 0

/-- The value a control core holds in CSR n. -/
def csrGet (c : Ctl) (n : Nat) : Word := c.csr.get (csrDefault n) n
/-- The control core with CSR n holding w. -/
def csrSet (c : Ctl) (n : Nat) (w : Word) : Ctl := { c with csr := c.csr.put (csrDefault n) n w }
/-- Integer register n; x0 reads zero. -/
def xGet (c : Ctl) (n : Nat) : Word := if n = 0 then 0 else c.x.get 0 n
/-- Integer register n written; writes of x0 are discarded. -/
def xSet (c : Ctl) (n : Nat) (w : Word) : Ctl := if n = 0 then c else { c with x := c.x.put 0 n w }

/-- Bit i of a word set or cleared. -/
def withBit (w : Word) (i : Nat) (b : Bool) : Word :=
  if b then w ||| (1#64 <<< i) else w &&& ~~~(1#64 <<< i)

/-- The privilege code of the RISC-V architecture. -/
def privCode (p : Priv) : Nat :=
  match p with
  | .u => 0
  | .s => 1
  | .m => 3

/-- The mode of a privilege code. -/
def privOf (n : Nat) : Priv :=
  match n with
  | 0 => .u
  | 1 => .s
  | _ => .m

/-- A trap handler's address: base, or base + 4 · cause for a vectored interrupt. -/
def trapTarget (tvec : Word) (interrupt : Bool) (cause : Nat) : Word :=
  let base := tvec &&& ~~~3#64
  if interrupt ∧ tvec &&& 3#64 = 1#64 then base + BitVec.ofNat 64 (4 * cause) else base

/-- Taking a RISC-V exception or interrupt: the pc and cause saved, the interrupt-enable and mode stacked in
mstatus, the mode entered, and the pc at the handler, in S mode where the cause is delegated and the mode is
not M, else in M mode (R270, R369). -/
def takeTrap (c : Ctl) (interrupt : Bool) (cause : Nat) (tval : Word) : Ctl :=
  let code := BitVec.ofNat 64 (cause + if interrupt then 2 ^ 63 else 0)
  let deleg := csrGet c (if interrupt then 0x303 else 0x302)
  let st := csrGet c 0x300
  if c.priv ≠ .m ∧ deleg.getLsbD cause then
    let st := withBit (withBit (withBit st 5 (st.getLsbD 1)) 1 false) 8 (c.priv == .s)
    let c' := csrSet (csrSet (csrSet (csrSet c 0x141 c.pc) 0x142 code) 0x143 tval) 0x300 st
    { c' with priv := .s, pc := trapTarget (csrGet c 0x105) interrupt cause, status := .running }
  else
    let p := privCode c.priv
    let st := withBit (withBit st 7 (st.getLsbD 3)) 3 false
    let st := withBit (withBit st 11 (p % 2 == 1)) 12 (p / 2 == 1)
    let c' := csrSet (csrSet (csrSet (csrSet c 0x341 c.pc) 0x342 code) 0x343 tval) 0x300 st
    { c' with priv := .m, pc := trapTarget (csrGet c 0x305) interrupt cause, status := .running }

/-- Return from an S-mode handler (sret): mode and interrupt enable restored, pc from sepc. -/
def returnS (c : Ctl) : Ctl :=
  let st := csrGet c 0x300
  let p : Priv := if st.getLsbD 8 then .s else .u
  let st' := withBit (withBit (withBit (withBit st 1 (st.getLsbD 5)) 5 true) 8 false) 17 false
  { csrSet c 0x300 st' with priv := p, pc := csrGet c 0x141 }

/-- Return from an M-mode handler (mret). -/
def returnM (c : Ctl) : Ctl :=
  let st := csrGet c 0x300
  let p := privOf ((st.toNat / 2 ^ 11) % 4)
  let st' := withBit (withBit (withBit (withBit st 3 (st.getLsbD 7)) 7 true) 11 false) 12 false
  let st'' := if p = .m then st' else withBit st' 17 false
  { csrSet c 0x300 st'' with priv := p, pc := csrGet c 0x341 }

/-- The running control core takes an exception. -/
def raise (s : State) (cause : Nat) (tval : Word) : State :=
  modCtl s s.ctl fun c => takeTrap c false cause tval

/-- The illegal-instruction exception of the running control core, with the instruction word as its value
(R394). -/
def raiseIllegal (s : State) (w : Nat) : State := raise s 2 (BitVec.ofNat 64 w)

end Sys2Proof.Machine
end

