-- ==== Sys2Proof/Machine/CtlMem.lean ====
section
/-! DEFINITION. A control core's own memory accesses (R71, R103, R273, R416): Sv57 translation with the PBN
check, the scoreboard's waits, alignment, poison, and instruction fetch; NSTIME and pending interrupts. -/

namespace Sys2Proof.Machine

open Sys2Proof

/-! ## Sv57 (R103, R270) -/

/-- Kinds of access: instruction fetch, load, store or AMO. -/
inductive CtlKind where
  | fetch | load | store
deriving DecidableEq, Repr

/-- Page-fault exception of a kind. -/
def pageFault (k : CtlKind) : Nat :=
  match k with
  | .fetch => 12
  | .load => 13
  | .store => 15

/-- Access-fault exception of a kind. -/
def accessFault (k : CtlKind) : Nat :=
  match k with
  | .fetch => 1
  | .load => 5
  | .store => 7

/-- Address-misaligned exception of a kind. -/
def misaligned (k : CtlKind) : Nat :=
  match k with
  | .fetch => 0
  | .load => 4
  | .store => 6

/-- May control core k use this physical address in mode p? S and U mode pass the PBN check of their virtual
function (R103); M-mode firmware reaches all HBM and CXL memory. -/
def ctlMayUse (s : State) (k : Nat) (p : Priv) (pa : Nat) : Bool :=
  match p with
  | .m => pbnPresent s (pa / 65536)
  | _ => ownsPbn s (vfOfCtl s k) (pa / 65536)

/-- Does a leaf PTE permit the access in mode p (U, SUM, MXR, R, W, X, A and D bits)? -/
def leafPermits (st : Word) (p : Priv) (kind : CtlKind) (e : Nat) : Bool :=
  let bit := fun i => e / 2 ^ i % 2 == 1
  let modeOk := match p with
    | .u => bit 4
    | _ => !bit 4 || (st.getLsbD 18 && kind != .fetch)
  let accOk := match kind with
    | .fetch => bit 3
    | .load => bit 1 || (st.getLsbD 19 && bit 3)
    | .store => bit 2
  modeOk && accOk && bit 6 && (kind != .store || bit 7)

/-- An Sv57 walk from a level down. -/
def sv57Walk (s : State) (k : Nat) (st : Word) (p : Priv) (kind : CtlKind) (va table : Nat) : Nat → Except Nat Nat
  | 0 => .error (pageFault kind)
  | level + 1 =>
    let a := table + 8 * (va / 2 ^ (12 + 9 * level) % 512)
    if !ctlMayUse s k .s a || physPoisoned s a 8 then .error (accessFault kind)
    else
      let e := leNat (physRead s a 8)
      let r := e / 2 % 2 == 1
      let w := e / 4 % 2 == 1
      let x := e / 8 % 2 == 1
      if e % 2 = 0 ∨ (w ∧ ¬ r) ∨ e / 2 ^ 54 ≠ 0 then .error (pageFault kind)
      else
        let ppn := e / 2 ^ 10 % 2 ^ 44
        if r || x then
          if ppn % 2 ^ (9 * level) ≠ 0 ∨ ¬ leafPermits st p kind e then .error (pageFault kind)
          else .ok (ppn * 4096 + va % 2 ^ (12 + 9 * level))
        else if e / 16 % 16 / 4 ≠ 0 ∨ e / 16 % 2 = 1 then .error (pageFault kind)
        else sv57Walk s k st p kind va (ppn * 4096) level

/-- The size in bits of the page that an Sv57 walk from a level down ends at, and whether the mapping is global. -/
def sv57Leaf (s : State) (va table : Nat) : Nat → Nat × Bool
  | 0 => (12, false)
  | level + 1 =>
    let e := leNat (physRead s (table + 8 * (va / 2 ^ (12 + 9 * level) % 512)) 8)
    let g := e / 32 % 2 == 1
    if e / 2 % 2 = 1 ∨ e / 8 % 2 = 1 then (12 + 9 * level, g)
    else
      let r := sv57Leaf s va (e / 2 ^ 10 % 2 ^ 44 * 4096) level
      (r.1, g || r.2)

/-- The mode a data access is made in: MPRV applies in M mode. -/
def dataPriv (c : Ctl) : Priv :=
  let st := csrGet c 0x300
  if c.priv = .m ∧ st.getLsbD 17 then privOf (st.toNat / 2 ^ 11 % 4) else c.priv

/-- A control core's translation, or the exception it raises (R103). -/
def ctlTranslate (s : State) (k va : Nat) (kind : CtlKind) : Except Nat Nat :=
  let c := ctlOf s k
  let p := if kind = .fetch then c.priv else dataPriv c
  let satp := (csrGet c 0x180).toNat
  let phys : Except Nat Nat :=
    if p = .m ∨ satp / 2 ^ 60 ≠ 10 then .ok va
    else if va / 2 ^ 56 ≠ 0 ∧ va / 2 ^ 56 ≠ 255 then .error (pageFault kind)
    else sv57Walk s k (csrGet c 0x300) p kind va (satp % 2 ^ 44 * 4096) 5
  match phys with
  | .error e => .error e
  | .ok pa => if ctlMayUse s k p pa then .ok pa else .error (accessFault kind)

/-- The leaf through which control core k's data access at a virtual address is translated; none without Sv57. -/
def ctlLeaf (s : State) (k va : Nat) : Option CtlLeaf :=
  let c := ctlOf s k
  let satp := (csrGet c 0x180).toNat
  if dataPriv c = .m ∨ satp / 2 ^ 60 ≠ 10 then none
  else
    let r := sv57Leaf s va (satp % 2 ^ 44 * 4096) 5
    some { bits := r.1, asid := satp / 2 ^ 44 % 2 ^ 16, global := r.2 }

/-- Does an Sv57 walk from a level down read an entry whose line holds a parked write (R120)? -/
def sv57Held (s : State) (va table : Nat) : Nat → Bool
  | 0 => false
  | level + 1 =>
    let a := table + 8 * (va / 2 ^ (12 + 9 * level) % 512)
    let e := leNat (physRead s a 8)
    parkedOn s (a / 128) || (decide (e % 16 = 1) && sv57Held s va (e / 2 ^ 10 % 2 ^ 44 * 4096) level)

/-- Does a control core's translation wait for parked writes? -/
def ctlHeld (s : State) (k va : Nat) (kind : CtlKind) : Bool :=
  let c := ctlOf s k
  let satp := (csrGet c 0x180).toNat
  anyParked s && (if kind = .fetch then c.priv else dataPriv c) != .m && decide (satp / 2 ^ 60 = 10)
    && sv57Held s va (satp % 2 ^ 44 * 4096) 5

/-! ## The scoreboard and the control core's own accesses (R71, R416) -/

/-- Do n bytes at va share a byte with a range? -/
def overlaps (r : VRange) (va n : Nat) : Bool := decide (r.lo < va + n) && decide ((va : Int) < r.hi)

/-- Is an entry outstanding on the scoreboard (R70, R263)? -/
def outstanding (m : MacroEntry) : Bool :=
  match m.state with
  | .running | .stopping | .stopped | .killing => true
  | _ => false

/-- Does an access of a control core wait for the scoreboard (R71)? An access above U mode does not wait on
entries that are stopped or stopping (R416). -/
def scoreboardHolds (c : Ctl) (va n : Nat) (isStore : Bool) : Bool :=
  c.macros.any fun e =>
    let m := e.2
    outstanding m
      && !(c.priv != .u && (m.state == .stopped || m.state == .stopping))
      && (m.writes.any (fun r => overlaps r va n) || (isStore && m.reads.any (fun r => overlaps r va n)))

/-- How a control core's access ends: a value and the state after it, a wait, or an exception with its address. -/
inductive CtlAccess (α : Type) where
  | ok (a : α) (s : State)
  | wait
  | trap (cause va : Nat) (s : State)

/-- A control core takes poisoned data: a replayable record of its unit, and the access-fault exception to its
runtime (R378; log entry 31). -/
def ctlPoison (s : State) (va : Nat) : State :=
  let k := s.ctl
  let c := ctlOf s k
  let vf := vfOfCtl s k
  postReplayable s vf (mkRecord s vf (k / 8) 1 (logicalSlice s k) 3 0 c.pc.toNat va 0 0xFF000000FF000000)

/-- n aligned bytes loaded by the running control core. -/
def ctlLoad (s : State) (va n : Nat) : CtlAccess (List Byte × Nat) :=
  let c := curCtl s
  if va % n ≠ 0 then .trap (misaligned .load) va s
  else if scoreboardHolds c va n false || ctlHeld s s.ctl va .load then .wait
  else match ctlTranslate s s.ctl va .load with
    | .error e => .trap e va s
    | .ok pa =>
      if parkedIn s pa n then .wait
      else
        let s := chargeCtlAccess (touch s pa n) s.ctl pa
        if physPoisoned s pa n then .trap 5 va (ctlPoison s va) else .ok (physRead s pa n, pa) s

/-- The physical address of n aligned bytes to be stored or updated by the running control core. -/
def ctlStoreAddr (s : State) (va n : Nat) : CtlAccess Nat :=
  let c := curCtl s
  if va % n ≠ 0 then .trap (misaligned .store) va s
  else if scoreboardHolds c va n true || ctlHeld s s.ctl va .store then .wait
  else match ctlTranslate s s.ctl va .store with
    | .error e => .trap e va s
    | .ok pa => if parkFull s pa then .wait else .ok pa (chargeCtlAccess s s.ctl pa)

/-- Bytes of a block read by the running control core piece by piece, 8 aligned bytes at a time: descriptors,
member sets and tables (R245, R284). -/
def ctlBlock (s : State) (va : Nat) : Nat → CtlAccess (List Byte)
  | 0 => .ok [] s
  | n + 1 =>
    match ctlLoad s va 8 with
    | .wait => .wait
    | .trap c a s' => .trap c a s'
    | .ok (b, _) s' =>
      match ctlBlock s' (va + 8) n with
      | .ok rest s'' => .ok (b ++ rest) s''
      | .wait => .wait
      | .trap c a s'' => .trap c a s''

/-! ## Fetch, time and interrupts -/

/-- A control core's instruction fetch at its pc: the 32 bits there. The upper half of a 32-bit instruction
is translated by itself where it begins a page. -/
def ctlFetch (s : State) : CtlAccess (BitVec 32) :=
  let c := curCtl s
  if ctlHeld s s.ctl c.pc.toNat .fetch || ctlHeld s s.ctl (c.pc.toNat + 2) .fetch then .wait
  else match ctlTranslate s s.ctl c.pc.toNat .fetch with
  | .error e => .trap e c.pc.toNat s
  | .ok pa =>
    if parkedIn s pa 2 then .wait
    else
    let s := touch s pa 2
    if physPoisoned s pa 2 then .trap (accessFault .fetch) c.pc.toNat (ctlPoison s c.pc.toNat)
    else
      let lo := leNat (physRead s pa 2)
      if lo % 4 ≠ 3 then .ok (BitVec.ofNat 32 lo) s
      else match ctlTranslate s s.ctl (c.pc.toNat + 2) .fetch with
        | .error e => .trap e (c.pc.toNat + 2) s
        | .ok pb =>
          if parkedIn s pb 2 then .wait
          else
          let s := touch s pb 2
          if physPoisoned s pb 2 then .trap (accessFault .fetch) (c.pc.toNat + 2) (ctlPoison s (c.pc.toNat + 2))
          else .ok (BitVec.ofNat 32 (lo + 65536 * leNat (physRead s pb 2))) s

/-- NSTIME after dt ns of real time: it advances by 1 + a per ns, and by nothing while it is held (R350). -/
def passTime (s : State) (dt : Nat) : State :=
  let total := (dt : Int) * (1000000000 + s.io.ratePpb) + s.io.nsFrac
  let adv := (total / 1000000000).toNat
  let held := Nat.min adv s.io.nsHold
  { s with
    nstime := s.nstime + BitVec.ofNat 64 (adv - held)
    io := { s.io with realNs := s.io.realNs + dt, nsFrac := total % 1000000000, nsHold := s.io.nsHold - held } }

/-- The supervisor timer interrupt is pending from its instant on (R272). -/
def timerDue (s : State) (c : Ctl) : Bool :=
  match c.timer with
  | some t => decide (t.toNat ≤ s.nstime.toNat)
  | none => false

/-- Is interrupt i taken: pending, enabled, and enabled for its target mode? -/
def takenNow (c : Ctl) (i : Nat) : Bool :=
  let st := csrGet c 0x300
  let both := (csrGet c 0x344 &&& csrGet c 0x304).getLsbD i
  let delegated := (csrGet c 0x303).getLsbD i
  both && (if delegated then c.priv == .u || (c.priv == .s && st.getLsbD 1)
           else c.priv != .m || st.getLsbD 3)

/-- The interrupt that the running control core takes now, in the priority order of the privileged
architecture. -/
def interruptNow (c : Ctl) : Option Nat := [11, 3, 7, 9, 1, 5].find? (takenNow c)

/-- The interrupt taken: the external interrupt of a landed record is acknowledged by taking it (log entry
32). An instruction that waits starts over afterwards. -/
def takeInterrupt (c : Ctl) (i : Nat) : Ctl :=
  let c := { c with held := none, sleepUntil := none, mwaitUntil := none }
  let c := if i = 9 then csrSet c 0x344 (withBit (csrGet c 0x344) 9 false) else c
  takeTrap c true i 0

/-- Control-core clk since the module reset, 2.2 to a ns (R3, R12). -/
def ctlClks (s : State) : Nat := s.io.realNs * 11 / 5

/-- `cycle` counts the control-core clk that have passed (R272): those of real time, and at least one for an instruction,
which no agenda can make take less. -/
def countClks (now : Nat) (c : Ctl) : Ctl :=
  let n := Nat.max 1 (now - c.clkSeen)
  { c with cycle := c.cycle + n, clkSeen := c.clkSeen + n }

/-- The control-core clk up to an instruction, and the charge of the instruction (R272, R346). -/
def ctlTick (s : State) : State :=
  let s := modCtl s s.ctl (countClks (ctlClks s))
  charge s (.ctl s.ctl) (vfOfCtl s s.ctl) (cidOfSlice s s.ctl)

/-- The pc of the running control core past an instruction of n bytes, the instruction retired (R272). -/
def retire (s : State) (n : Nat) : State :=
  modCtl s s.ctl fun c => { c with pc := c.pc + BitVec.ofNat 64 n, instret := c.instret + 1, status := .running }

/-- The running control core waits: its instruction repeats until what it waits for has come about (R61). -/
def ctlWait (s : State) : State := modCtl s s.ctl fun c => { c with status := .waiting }

/-- The running control core with register rd written and the instruction of 4 bytes retired. -/
def ctlResult (s : State) (rd : BitVec 5) (w : Word) : State :=
  retire (modCtl s s.ctl fun c => xSet c rd.toNat w) 4

end Sys2Proof.Machine
end

