-- ==== Sys2Proof/Machine/Operands.lean ====
section
/-! DEFINITION. Operand forms of the core: register reads in the issue clk with the undefined windows of R83
and R84, results on their way and their landing, local, global, spill and tagged addresses (R92, R150, R389,
R426), stash access, and the element groups of rings and streams (R181, R237 to R241). -/

namespace Sys2Proof.Machine

open Sys2Proof

/-! ## Register reads (R83, R84, R127, R179) -/

/-- Is a result for this destination on its way, issued before this clk and not past its bound (R83, R84)? For a core
halted for the debugger it lands at its bound exactly, so that no read of it is undefined (R366). -/
def inFlight (c : Core) (d : Dest) : Bool :=
  !c.exact && c.pending.any fun p => p.dest == d && decide (p.issued < c.clk) && decide (c.clk < p.bound)

/-- Scalar register n in the issue clk: `s0` reads zero, a register with a result on its way an undefined
value (R83, R127). -/
def sRead (s : State) (n : Nat) : Word :=
  let c := curCore s
  if n = 0 then 0 else if inFlight c (.s n) then freeWord s n else c.s.get 0 n

/-- Predicate n in the issue clk: `p0` reads true. -/
def pRead (s : State) (n : Nat) : Bool :=
  let c := curCore s
  if n = 0 then true else if inFlight c (.p n) then (freeWord s (64 + n)).getLsbD 0 else c.p.get false n

/-- Branch-target register n in the issue clk. -/
def bRead (s : State) (n : Nat) : Word :=
  let c := curCore s
  if inFlight c (.b n) then freeWord s (80 + n) else c.b.get 0 n

/-- Vector mask n in the issue clk: `vm0` reads all ones (R180). -/
def vmRead (s : State) (n : Nat) : Word :=
  let c := curCore s
  if n = 0 then BitVec.allOnes 64
  else if inFlight c (.vm n) then freeWord s (88 + n) else c.vm.get 0 n

/-- 64 lanes, filled up with zeros. -/
def lanes64 (l : List Lane) : List Lane := padTo 64 0 l

/-- Lane i of a vector value. -/
def lane (l : List Lane) (i : Nat) : Lane := l.getD i 0

/-- Vector register n (0 to 55) in the issue clk. -/
def vRead (s : State) (n : Nat) : List Lane :=
  let c := curCore s
  if inFlight c (.v n) then freeLanes s (100 + n) else lanes64 (c.v.get [] n)

/-- Matrix parameter n in the issue clk; an `mpset` result is seen one clk later (R139). -/
def mpRead (s : State) (n : Nat) : Word := (curCore s).mp.get 0 n

/-! ## Results on their way -/

/-- A result issued by the current core in this clk. -/
def issue (s : State) (p : Pending) : State :=
  modCore s s.core fun c => { c with pending := c.pending ++ [p] }

/-- A scalar result with bound L; a write of `s0` is discarded (R127, R149). -/
def issueS (s : State) (n : Nat) (w : Word) (bound : Nat) : State :=
  if n = 0 then s
  else issue s { dest := .s n, scalar := w, issued := (curCore s).clk, bound := (curCore s).clk + bound }

/-- A predicate result; a write of `p0` is discarded. -/
def issueP (s : State) (n : Nat) (b : Bool) (bound : Nat) : State :=
  if n = 0 then s
  else issue s { dest := .p n, scalar := if b then 1 else 0, issued := (curCore s).clk, bound := (curCore s).clk + bound }

/-- A branch-target result. -/
def issueB (s : State) (n : Nat) (w : Word) (bound : Nat) : State :=
  issue s { dest := .b n, scalar := w, issued := (curCore s).clk, bound := (curCore s).clk + bound }

/-- A mask result for the bits selected; a write of `vm0` is discarded (R188). -/
def issueVM (s : State) (n : Nat) (w mask : Word) (flags : Flags) (bound : Nat) : State :=
  issue s { dest := if n = 0 then .none else .vm n, scalar := w, mask := mask, flags := flags,
            issued := (curCore s).clk, bound := (curCore s).clk + bound }

/-- A write of a core CSR (R139, R176). -/
def issueCsr (s : State) (n : Nat) (w : Word) : State :=
  issue s { dest := .csr n, scalar := w, issued := (curCore s).clk, bound := (curCore s).clk + 2 }

/-! ## Rings (R237, R238) -/

/-- Ring n of a core. -/
def ringOf (c : Core) (n : Nat) : Ring := c.ring.get {} n
/-- The core with ring n replaced. -/
def setRing (c : Core) (n : Nat) (r : Ring) : Core := { c with ring := c.ring.put {} n r }
/-- Slots of a ring. -/
def ringSlots (r : Ring) : Nat := r.ns + 1
/-- Scratchpad offset of a ring's slot. -/
def slotBase (r : Ring) (i : Nat) : Nat := r.base + i * (r.sz * 64)

/-- A producer takes the next free slot (R238). -/
def ringTakeFree (r : Ring) : Option (Nat × Ring) :=
  if r.free = 0 then none
  else
    let i := (r.wp + r.prod.length) % ringSlots r
    some (i, { r with free := r.free - 1, prod := r.prod ++ [(i, false)] })

/-- A consumer takes the next filled slot (R238). -/
def ringTakeFilled (r : Ring) : Option (Nat × Ring) :=
  if r.filled = 0 then none
  else
    let i := (r.rp + r.cons.length) % ringSlots r
    some (i, { r with filled := r.filled - 1, cons := r.cons ++ [(i, false)] })

/-- Finished slots at the head of the producers' list are posted, in slot order. -/
def ringPost (r : Ring) : List (Nat × Bool) → Ring
  | (_, true) :: rest => ringPost { r with prod := rest, filled := r.filled + 1, wp := (r.wp + 1) % ringSlots r } rest
  | l => { r with prod := l }

/-- Finished slots at the head of the consumers' list are freed, in slot order. -/
def ringFree (r : Ring) : List (Nat × Bool) → Ring
  | (_, true) :: rest => ringFree { r with cons := rest, free := r.free + 1, rp := (r.rp + 1) % ringSlots r } rest
  | l => { r with cons := l }

/-- Slot i marked finished in a list of held slots. -/
def markDone (i : Nat) (l : List (Nat × Bool)) : List (Nat × Bool) :=
  l.map fun e => if e.1 = i then (i, true) else e

/-- The producer of slot i has finished (R238). -/
def ringProduced (r : Ring) (i : Nat) : Ring := ringPost r (markDone i r.prod)
/-- The consumer of slot i has finished (R238). -/
def ringConsumed (r : Ring) (i : Nat) : Ring := ringFree r (markDone i r.cons)

/-! ## Streams (R181, R240) -/

/-- Stream k of a core. -/
def streamOf (c : Core) (k : Nat) : Stream := c.stream.get {} k
/-- The core with stream k replaced. -/
def setStream (c : Core) (k : Nat) (t : Stream) : Core := { c with stream := c.stream.put {} k t }
/-- Groups of one slot's pattern. -/
def streamTotal (t : Stream) : Nat := t.counts.foldl (· * ·) 1

/-- Byte offset in its slot of group number n: i0 innermost (R240). -/
def groupOffset : Nat → List Nat → List Int → Int
  | _, [], _ => 0
  | _, _ :: _, [] => 0
  | n, c :: cs, st :: sts => (n % c : Nat) * st + groupOffset (n / c) cs sts

/-- The ring slot a stream is in: of its own, or the current step's for the sequencer's rings (R78). -/
def streamSlot (c : Core) (t : Stream) : Nat :=
  if 8 ≤ t.ring then c.prgStep % 2 else t.slot.getD 0

/-- Scratchpad offset of group n of a stream's current slot. -/
def groupAddr (c : Core) (t : Stream) (slot n : Nat) : Nat :=
  ((slotBase (ringOf c t.ring) slot : Int) + t.o + groupOffset n t.counts t.strides).toNat

/-- Groups a source stream can deliver now. -/
def streamAvail (c : Core) (k : Nat) : Nat :=
  let t := streamOf c k
  let r := ringOf c t.ring
  if 8 ≤ t.ring then streamTotal t - t.pos
  else (if t.slot.isSome then streamTotal t - t.pos else 0) + r.filled * streamTotal t

/-- Groups a destination stream has room for now (R181). -/
def streamRoom (c : Core) (k : Nat) : Nat :=
  let t := streamOf c k
  let r := ringOf c t.ring
  if 8 ≤ t.ring then streamTotal t - t.pos
  else (if t.slot.isSome then streamTotal t - t.pos else 0) + r.free * streamTotal t

/-- The stream as it moves past one group of slot i: at the slot's last group it leaves the slot. -/
def streamNext (t : Stream) (i : Nat) : Stream :=
  if t.pos + 1 < streamTotal t then { t with pos := t.pos + 1, slot := some i }
  else if 8 ≤ t.ring then { t with pos := t.pos + 1 }
  else { t with pos := 0, slot := none }

/-- A source stream pops one group: its 256 bytes and the core after it. A slot is freed after its last group
(R240); the sequencer frees the slots of its own rings (R78). -/
def streamPop (c : Core) (k : Nat) : List Byte × Core :=
  let t := streamOf c k
  if 8 ≤ t.ring then
    (c.spm.readN (groupAddr c t (streamSlot c t) t.pos) 256, setStream c k (streamNext t (streamSlot c t)))
  else
    let r := ringOf c t.ring
    let (i, r) := match t.slot with
      | some i => (i, r)
      | none => (ringTakeFilled r).getD (0, r)
    let last := decide (streamTotal t ≤ t.pos + 1)
    let bytes := c.spm.readN (groupAddr c t i t.pos) 256
    (bytes, setRing (setStream c k (streamNext t i)) t.ring (if last then ringConsumed r i else r))

/-- Is the next group of a source stream poisoned (R378)? -/
def headPoisoned (c : Core) (k : Nat) : Bool :=
  let t := streamOf c k
  let r := ringOf c t.ring
  let slot := if 8 ≤ t.ring then streamSlot c t else t.slot.getD ((r.rp + r.cons.length) % ringSlots r)
  c.spm.poisoned (groupAddr c t slot t.pos) 256

/-- A destination stream reserves room for one group: its offset, its ring slot, and the core after it. -/
def streamReserve (c : Core) (k : Nat) : (Nat × Nat) × Core :=
  let t := streamOf c k
  if 8 ≤ t.ring then
    ((groupAddr c t (streamSlot c t) t.pos, streamSlot c t), setStream c k (streamNext t (streamSlot c t)))
  else
    let r := ringOf c t.ring
    let (i, r) := match t.slot with
      | some i => (i, r)
      | none => (ringTakeFree r).getD (0, r)
    ((groupAddr c t i t.pos, i), setRing (setStream c k (streamNext t i)) t.ring r)

/-- Is every group of slot i of a destination stream reserved and landed? -/
def slotLanded (c : Core) (k i : Nat) : Bool :=
  decide ((streamOf c k).slot ≠ some i)
    && !(c.pending.any fun p => p.dest == Dest.push k && p.rslot == i && !p.landed)

/-- The slot posted once its last group has landed (R181, R240). -/
def postIfLanded (c : Core) (k i : Nat) : Core :=
  let t := streamOf c k
  if t.ring < 8 ∧ slotLanded c k i then setRing c t.ring (ringProduced (ringOf c t.ring) i) else c

/-- The 256 bytes of 64 lanes. -/
def laneBytes (l : List Lane) : List Byte := (lanes64 l).flatMap fun w => leBytes 4 w.toNat

/-- 64 lanes from 256 bytes. -/
def bytesLanes (b : List Byte) : List Lane := (List.range 64).map fun i => BitVec.ofNat 32 (numAt b (4 * i) 4)

/-- A vector source field: a register, or a popped group of a stream (R179, R181). -/
def vSource (s : State) (n : Nat) : List Lane × State :=
  if n < 56 then (vRead s n, s)
  else
    let (b, c) := streamPop (curCore s) (n - 56)
    (bytesLanes b, setCore s s.core c)

/-- Groups of stream k that have not landed land by clk t at the latest: a group issued behind them lands then, and
groups of one stream are written in issue order (R181). -/
def boundPushes (c : Core) (k t : Nat) : Core :=
  { c with pending := c.pending.map fun p => if p.dest = .push k ∧ t < p.bound then { p with bound := t } else p }

/-- A vector result: a register's selected lanes, or a group for a destination stream, whose unselected lanes
are zero (R179, R181). -/
def issueV (s : State) (n : Nat) (l : List Lane) (mask : Word) (flags : Flags) (bound : Nat) : State :=
  let t := (curCore s).clk
  if n < 56 then
    issue s { dest := .v n, lanes := lanes64 l, mask := mask, flags := flags, issued := t, bound := t + bound }
  else
    let ((o, i), c) := streamReserve (curCore s) (n - 56)
    issue (setCore s s.core (boundPushes c (n - 56) (t + bound)))
      { dest := .push (n - 56), lanes := lanes64 l, mask := mask, flags := flags, offs := o, rslot := i,
        issued := t, bound := t + bound }

/-! ## Core CSRs (R143, R176, R389, R390) -/

/-- What `csrr` reads from a core CSR (R143); `none` for a number not assigned. -/
def coreCsr (c : Core) (n : Nat) : Option Word :=
  match n with
  | 0x010 => some c.astat
  | 0x020 => some c.stcfg
  | 0x030 => some (BitVec.allOnes 64)
  | 0x047 => some (BitVec.ofNat 64 c.prgStep)
  | 0x048 => some c.prgAcc
  | 0x049 => some (c.prgCmask.setWidth 64)
  | 0x050 => some (BitVec.ofNat 64 c.xdone0)
  | 0x051 => some (BitVec.ofNat 64 c.xdone1)
  | 0x052 =>
    let cnt := (c.sq.filter fun i => match i with
      | .scale _ | .bad _ => true
      | .hole _ _ _ _ => false).length
    let rsv := c.sq.foldl (fun a i => match i with
      | .scale _ | .bad _ => a
      | .hole _ _ k _ => a + k) 0
    some (BitVec.ofNat 64 (rsv * 256 + cnt))
  | 0x074 => some c.karg
  | k =>
    if 0x031 ≤ k ∧ k ≤ 0x037 then some (c.vm.get 0 (k - 0x030))
    else if 0x040 ≤ k ∧ k ≤ 0x046 then some (BitVec.ofNat 64 (c.prgI.get 0 (k - 0x040)))
    else if 0x054 ≤ k ∧ k ≤ 0x057 then some (c.l.get {} (k - 0x054)).cnt
    else if 0x060 ≤ k ∧ k ≤ 0x06F then
      let r := ringOf c (k - 0x060)
      some (BitVec.ofNat 64 ((if r.cfg then 2 ^ 63 else 0) + r.wp * 2 ^ 40 + r.rp * 2 ^ 32 + r.free * 2 ^ 16 + r.filled))
    else if 0x070 ≤ k ∧ k ≤ 0x073 then some (c.ktile.get 0 (k - 0x070))
    else none

/-- The core after a CSR write has taken effect; CSRs of access `r` ignore it (R176, R389), reserved bits
read zero (R380). One of `stcfg` takes effect only where the stash holds no dirty byte and no owned line then (R104; log
entry 138). -/
def coreCsrWrite (c : Core) (n : Nat) (w : Word) : Core :=
  match n with
  | 0x010 => { c with astat := astatWrite w }
  | 0x020 => if c.stash.any fun e => e.2.dirty != 0 || e.2.owned then c else { c with stcfg := w &&& 0xF0F#64, stash := [] }
  | k => if 0x031 ≤ k ∧ k ≤ 0x037 then { c with vm := c.vm.put 0 (k - 0x030) w } else c

/-! ## Landing (R83, R84, R382) -/

/-- Selected lanes of a result over the old lanes. -/
def mergeLanes (mask : Word) (new old : List Lane) : List Lane :=
  (List.range 64).map fun i => if mask.getLsbD i then lane new i else lane old i

/-- Selected bits of a result over the old word. -/
def mergeBits (mask new old : Word) : Word := (new &&& mask) ||| (old &&& ~~~mask)

/-- A core with one result written and its flags merged. A pushed group goes to its place in the ring with
zero in its unselected lanes. -/
def applyResult (c : Core) (p : Pending) : Core :=
  let c := { c with astat := astatMerge c.astat p.flags }
  match p.dest with
  | .s n => { c with s := c.s.put 0 n p.scalar }
  | .p n => { c with p := c.p.put false n (p.scalar != 0) }
  | .b n => { c with b := c.b.put 0 n p.scalar }
  | .vm n => { c with vm := c.vm.put 0 n (mergeBits p.mask p.scalar (c.vm.get 0 n)) }
  | .v n => { c with v := c.v.put [] n (mergeLanes p.mask p.lanes (lanes64 (c.v.get [] n))) }
  | .csr n => coreCsrWrite c n p.scalar
  | .push k =>
    let bytes := laneBytes (mergeLanes p.mask p.lanes [])
    postIfLanded { c with spm := c.spm.store p.offs bytes } k p.rslot
  | .none => c

/-- Has a result of a later-issued write to the same destination landed already (R84)? `l` are the results
issued after p. -/
def superseded (p : Pending) (l : List Pending) : Bool :=
  match p.dest with
  | .push _ => false
  | .none => false
  | d => l.any fun q => q.dest == d && (q.landed || decide (q.bound ≤ p.bound))

/-- A result landed: written unless a later write has landed before it; its flags are merged either way. -/
def landResult (c : Core) (p : Pending) (later : List Pending) : Core :=
  if superseded p later then { c with astat := astatMerge c.astat p.flags } else applyResult c p

/-- Results that land by clk `now`, in order of their bounds, writes of CSRs first among equals (R84, R382).
`b` counts the clk from the oldest bound on. -/
def landAt (now : Nat) (csr : Bool) (c : Core) : List Pending → Core
  | [] => c
  | p :: rest =>
    let isCsr := match p.dest with
      | .csr _ => true
      | _ => false
    let c' := if p.bound = now ∧ ¬ p.landed ∧ isCsr = csr then landResult c p rest else c
    landAt now csr c' rest

/-- Every result whose bound is one of the `fuel` clk from `t` on has landed. -/
def landUpTo (c : Core) (t : Nat) : Nat → Core
  | 0 => c
  | fuel + 1 => landUpTo (landAt t false (landAt t true c c.pending) c.pending) (t + 1) fuel

/-- The results still on their way after clk `now`. Of one that a later-issued write to its register has overtaken
only the flags are left to land (R84, R382). -/
def onTheirWay (now : Nat) : List Pending → List Pending
  | [] => []
  | p :: rest =>
    if p.bound ≤ now then onTheirWay now rest
    else (if superseded p (rest.filter fun q => decide (q.bound ≤ now)) then { p with dest := .none } else p)
      :: onTheirWay now rest

/-- The core at clk `now`: every result whose bound has passed has landed and left the list (R83). No bound
exceeds 32 clk (R85). -/
def advance (c : Core) (now : Nat) : Core :=
  let due := c.pending.filter fun p => decide (p.bound ≤ now)
  let first := due.foldl (fun m p => Nat.min m p.bound) now
  let c := landUpTo c first (now + 1 - first)
  let c := { c with clk := now, pending := onTheirWay now c.pending,
                    recent := c.recent.filter (fun r => decide (now < r.2.2 + 4)) }
  due.foldl (fun c p => match p.dest with
    | .push k => postIfLanded c k p.rslot
    | _ => c) c

/-- Monitors on the lines of core k's scratchpad that a pushed group takes fire (R172). -/
def firePush (s : State) (k : Nat) (p : Pending) : State :=
  match p.dest with
  | .push _ => (linesOf p.offs 256).foldl (fun st l => mapMonitors st (fireScratch k l)) s
  | _ => s

/-- Core k replaced by what it is once results have landed: the groups among them fire monitors. -/
def landOn (s : State) (k : Nat) (c : Core) : State :=
  ((coreOf s k).pending.filter fun p => !p.landed && !c.pending.contains p).foldl (fun st p => firePush st k p) (setCore s k c)

/-! ## Local addresses (R92, R93, R389, R426) -/

/-- Where a local address lies. -/
inductive Loc where
  | spm (core off : Nat)
  | spill (off : Nat)
deriving DecidableEq, Repr

/-- A local address resolved for core k, or the reason of an access violation: 8 for an operand value of
R389 and for an invalid logical core (R426), 9 for a bank outside bk. -/
def resolveLocal (s : State) (k a : Nat) : Except Nat Loc :=
  let sp := a / 2 ^ 30 % 4
  let n := a / 2 ^ 22 % 256
  let o := a % 2 ^ 22
  if 2 ≤ sp then .error 8
  else if sp = 1 then
    if (n = 255 ∨ n = logicalCore s k) ∧ o < 4096 then .ok (.spill o) else .error 8
  else if n = 255 ∨ n = logicalCore s k then
    if bankAllowed s k o then .ok (.spm k o) else .error 9
  else if 192 ≤ n then .error 8
  else match physCore s (k / 192) (vfOfCore s k) n with
    | none => .error 8
    | some j => if bankAllowed s j o then .ok (.spm j o) else .error 9

/-- Bytes of the own scratchpad as a command or a copy sees them: without the stores whose bound had not passed at its
issue (R115, R139). -/
def hazardRead (m : Mem) (h : List (Nat × List Byte)) (o : Nat) : Byte :=
  match h.find? fun e => decide (e.1 ≤ o) && decide (o < e.1 + e.2.length) with
  | some e => e.2.getD (o - e.1) 0
  | none => m.read o

/-- n bytes so read. -/
def hazardReadN (m : Mem) (h : List (Nat × List Byte)) (o n : Nat) : List Byte :=
  (List.range n).map fun i => hazardRead m h (o + i)

/-! ### Loads that race with copies and direct stores (R114) -/

/-- Does a piece of a write touch a granule? -/
def inGranule (g : Nat) (h : Nat × List Byte) : Bool := decide (h.1 < 32 * (g + 1)) && decide (32 * g < h.1 + h.2.length)

/-- What uncompleted copies are overwriting in a granule of a scratchpad, or of memory; nothing once the scratchpad's core has
stored there itself. -/
def copyRaces (s : State) (place : Option Nat) (g : Nat) : List (Nat × List Byte) :=
  let own := place.any fun j => (coreOf s j).recent.any fun r => inGranule g (r.1, r.2.1)
  if own then []
  else (s.cores.flatMap fun e => e.2.copies.flatMap fun x =>
    if x.2.racedAt = s.io.realNs then x.2.raced.filterMap fun r => if r.1 = place then some r.2 else none else []).filter
      (inGranule g)

/-- Direct stores of a core to a granule of its scratchpad that another core need not see yet, by issue clk. -/
def storeRaces (s : State) (j g : Nat) : List (Nat × Nat × List Byte) :=
  let c := coreOf s j
  if c.status = .running ∧ c.held.arrival.isNone then
    (c.recent.filter fun r => decide (c.clk < r.2.2 + 4) && inGranule g (r.1, r.2.1)).map fun r => (r.2.2, r.1, r.2.1)
  else []

/-- A byte as a load of core k takes it from a memory, the scratchpad of `place` or global memory: of each granule, whether the
load comes before or after a write that it races with is a free choice (R114). -/
def racedByte (s : State) (k : Nat) (place : Option Nat) (m : Mem) (a : Nat) : Byte :=
  let draw := (freeWord s (2 ^ 32 + a / 32)).toNat
  let stores := match place with
    | some j => if j = k then [] else storeRaces s j (a / 32)
    | none => []
  let clks := (stores.map (·.1)).eraseDups
  let late := clks.drop (draw / 2 % (clks.length + 1))
  hazardRead m (((stores.filter fun r => late.contains r.1).map (·.2))
    ++ (if draw % 2 = 1 then copyRaces s place (a / 32) else [])) a

/-- n bytes at a local place as core k reads them: its own buffered stores over a remote scratchpad's
content (R111). -/
def locRead (s : State) (k : Nat) (l : Loc) (n : Nat) : List Byte :=
  match l with
  | .spill o => (coreOf s k).spill.readN o n
  | .spm j o =>
    let m := (coreOf s j).spm
    if j = k then (List.range n).map fun i => racedByte s k (some j) m (o + i)
    else (List.range n).map fun i =>
      ((coreOf s k).sbuf.find? (j * 2 ^ 22 + o + i)).getD (racedByte s k (some j) m (o + i))

/-- Are the bytes at a local place poisoned? -/
def locPoisoned (s : State) (k : Nat) (l : Loc) (n : Nat) : Bool :=
  match l with
  | .spill o => (coreOf s k).spill.poisoned o n
  | .spm j o => (coreOf s j).spm.poisoned o n

/-- Copies in flight that read the core's own scratchpad, and matrix commands that do, keep what was there before a direct
store that follows their issue (R115): offset and bytes. -/
def noteStore (c : Core) (h : Nat × List Byte) : Core :=
  { c with
    copies := c.copies.map fun e =>
      (e.1, if !e.2.bySeq && (e.2.op == 3 || e.2.op == 4 || word64At e.2.desc 0 / 2 ^ 63 == 1
          || word64At e.2.desc 0x10 / 2 ^ 12 % 4 == 2) then
        { e.2 with hazard := e.2.hazard ++ [h] } else e.2)
    mqueue := c.mqueue.map fun m => if m.op = 4 ∨ m.op = 6 ∨ m.op = 7 then { m with hazard := m.hazard ++ [h] } else m }

/-- Is a core frozen, so that nothing that comes back reaches it (R330)? -/
def isFrozen (s : State) (k : Nat) : Bool := (coreOf s k).status == .frozen

/-- Does core j's scratchpad discard what core k asks of it? A frozen core's does: the request is never acknowledged, so
that it stays in the in-flight record until the replay (R330). -/
def portDead (s : State) (k j : Nat) : Bool := j != k && isFrozen s j

/-- A plain store by core k: direct into its own scratchpad and spill memory, buffered towards another
core's scratchpad (R109). Lines of spill memory stand under number 4096 + k in monitor tables. -/
def locWrite (s : State) (k : Nat) (l : Loc) (bs : List Byte) : State :=
  match l with
  | .spill o =>
    let s := modCore s k fun c => { c with spill := c.spill.store o bs }
    (linesOf o bs.length).foldl (fun st l => mapMonitors st (fireScratch (4096 + k) l)) s
  | .spm j o =>
    if j = k then
      let old := (coreOf s k).spm.readN o bs.length
      spmWrite (modCore s k fun c => { noteStore c (o, old) with recent := c.recent ++ [(o, old, c.clk)] }) k o bs
    else
      let base := j * 2 ^ 22 + o
      modCore s k fun c => { c with
        sbuf := (bs.zipIdx).foldl (fun m e => FMap.insert m (base + e.2) e.1) c.sbuf }

/-- Latency of a scratchpad read: 4 clk from the own scratchpad or spill memory, 24 from another core's
(R139). -/
def readBound (k : Nat) (l : Loc) : Nat :=
  match l with
  | .spill _ => 4
  | .spm j _ => if j = k then 4 else 24

/-- Is an own-scratchpad offset in the stash region, or a remote one in its core's (R389)? -/
def locInStash (s : State) (l : Loc) (n : Nat) : Bool :=
  match l with
  | .spill _ => false
  | .spm j o => inStash (coreOf s j) o || inStash (coreOf s j) (o + n - 1)

/-! ## The S slot's immediates and addresses (R126, R149, R150) -/

/-- An immediate field, extended by LIMM when lv = 1 (R126). -/
def immOf {w : Nat} (imm : BitVec w) (ext : Option (BitVec 24)) : Word :=
  match ext with
  | none => imm.signExtend 64
  | some l => (l ++ imm).signExtend 64

/-- Bytes of a size field (R128). -/
def sizeOf2 (sz : BitVec 2) : Nat := 2 ^ sz.toNat

/-- X of R157 and R161: a value of n bytes extended to 64 bits. -/
def extend (sx : Bool) (n v : Nat) : Word :=
  if sx then BitVec.ofInt 64 (signedOf (8 * n) v) else BitVec.ofNat 64 v

/-- The address of an SM operation. -/
def smAddr (s : State) (f : SM) : Word := sRead s f.sa.toNat + immOf f.imm f.ext

/-- A tagged address (R150). -/
inductive Tagged where
  | localAddr (a : Nat)
  | globalAddr (a : Nat)
  /-- tagged local form with bits 62:32 nonzero (R389) -/
  | malformed
deriving DecidableEq, Repr

/-- The two forms of a tagged address. -/
def taggedOf (w : Word) : Tagged :=
  if w.getLsbD 63 then
    if w.toNat % 2 ^ 63 / 2 ^ 32 = 0 then .localAddr (w.toNat % 2 ^ 32) else .malformed
  else .globalAddr w.toNat

/-! ## The stash as plain loads and stores see it (R105, R111, R158) -/

/-- The stash slot used now: its age becomes the youngest. -/
def stashUse (c : Core) (i : Nat) (sl : StashSlot) : Core :=
  { c with stash := c.stash.insert i { sl with used := c.clk }, monClock := c.monClock }

/-- The n bytes of a slot at an address of its line. -/
def slotBytes (c : Core) (i va n : Nat) : List Byte := c.spm.readN (stashOffset c i + va % 128) n

/-- The mask of n bytes at an address of a line. -/
def byteMask (va n : Nat) : BitVec 128 := BitVec.ofNat 128 ((2 ^ n - 1) * 2 ^ (va % 128))

/-- A store into a slot: its bytes written and marked dirty (R105, R158). -/
def slotStore (s : State) (k i : Nat) (sl : StashSlot) (va : Nat) (bs : List Byte) : State :=
  let c := coreOf s k
  let s := spmWrite s k (stashOffset c i + va % 128) bs
  modCore s k fun c => { c with stash := c.stash.insert i { sl with dirty := sl.dirty ||| byteMask va bs.length, used := c.clk } }

/-- The slot a fill takes: the lowest free one, else the least recently used clean line that is not owned,
else the least recently used line with dirty bytes. Which line goes where every one is clean and owned exclusively the rule
does not say: DESIGN CHOICE, the least recently used (log entry 161). -/
def stashVictim (c : Core) : Option (Nat × Option StashSlot) :=
  let n := stashSlots c
  match (List.range n).find? (fun i => (c.stash.find? i).isNone) with
  | some i => some (i, none)
  | none =>
    let oldest := fun (l : FMap StashSlot) => l.foldl (fun (b : Option (Nat × StashSlot)) e =>
      match b with
      | none => some e
      | some x => if e.2.used < x.2.used then some e else b) none
    let clean := oldest (List.filter (fun e => e.2.dirty == 0 && !e.2.owned) c.stash)
    let dirty := oldest (List.filter (fun e => e.2.dirty != 0) c.stash)
    match clean, dirty, oldest c.stash with
    | some (i, sl), _, _ => some (i, some sl)
    | none, some (i, sl), _ => some (i, some sl)
    | none, none, some (i, sl) => some (i, some sl)
    | none, none, none => none

/-- A line filled from memory into a slot, its evicted predecessor's dirty bytes moved to pending entries,
and the core's own pending bytes of the line dirty in it again (R105, R106). Poison comes with the data
(R405). -/
def stashFillLine (s : State) (k va pa : Nat) (w : Bool) : State :=
  let line := va / 128 * 128
  let p := pa / 128 * 128
  let s := touch s p 128
  let c := coreOf s k
  match stashVictim c with
  | none => s
  | some (i, old) =>
    let s := match old with
      | some sl => if sl.owned then recallLine s (sl.pa / 128) else s
      | none => s
    let c := coreOf s k
    let c := match old with
      | some sl => if sl.dirty = 0 then { c with stash := c.stash.erase i } else toPending c i sl
      | none => c
    let o := stashOffset c i
    let bad := (List.range 16).filterMap fun j => if s.mem.poisoned (p + 8 * j) 8 then some (o / 8 + j) else none
    let mine := List.filter (fun e : Nat × Byte => e.1 / 128 == p / 128) c.pend
    let bytes := (physRead s p 128).zipIdx.map fun b => match copyRaces s none ((p + b.2) / 32) with
      | [] => b.1
      | _ => racedByte s k none s.mem (p + b.2)
    let spm := (c.spm.store o bytes).movePoison bad
    let spm := mine.foldl (fun m e => m.write (o + e.1 % 128) e.2) spm
    let dirty := mine.foldl (fun d e => d ||| byteMask e.1 1) (0 : BitVec 128)
    let back := List.filter (fun q => q / 16 == p / 128) c.pendPoison
    setCore s k { c with
      spm := spm.movePoison (back.map fun q => o / 8 + q % 16)
      pendPoison := List.filter (fun q => q / 16 != p / 128) c.pendPoison
      pend := List.filter (fun e : Nat × Byte => e.1 / 128 != p / 128) c.pend
      stash := c.stash.insert i { va := line, pa := p, dirty := dirty, w := w, used := c.clk } }

end Sys2Proof.Machine
end

