-- ==== Sys2Proof/Machine/CopyDesc.lean ====
section
/-! DEFINITION. Copy descriptors (R226, R228), their checks at issue (R391), gangs as a core names them, and
the assignment of copy entries (R77). -/

namespace Sys2Proof.Machine

open Sys2Proof

/-- A copy descriptor's fields (R226): sizes and strides of the 7 dimensions, dimension 0 contiguous. -/
structure CopyDesc where
  src : Nat
  dst : Nat
  ty : Nat
  nd : Nat
  sdst : Bool
  ring : Nat
  rmode : Nat
  gang : Nat
  base : Nat
  bmap : Nat
  n : List Nat
  d : List Int
  reserved : Nat
deriving DecidableEq, Repr

/-- The fields of a 64-byte descriptor. `reserved` collects the reserved bits of ctl and the reserved field. -/
def copyDesc (b : List Byte) : CopyDesc :=
  let ctl := word64At b 0x10
  { src := word64At b 0, dst := word64At b 8
    ty := ctl % 16, nd := ctl / 16 % 8, sdst := ctl / 128 % 2 == 1, ring := ctl / 256 % 16
    rmode := ctl / 2 ^ 12 % 4, gang := ctl / 2 ^ 16 % 64, base := ctl / 2 ^ 22 % 256, bmap := ctl / 2 ^ 32
    n := (List.range 7).map fun j => numAt b (0x18 + 2 * j) 2
    d := (List.range 6).map fun j => signedOf 32 (numAt b (0x28 + 4 * j) 4)
    reserved := ctl / 2 ^ 14 % 4 + ctl / 2 ^ 30 % 4 * 4 + numAt b 0x26 2 * 16 + (if ctl / 16 % 8 = 7 then 2 ^ 20 else 0) }

/-- Bytes of one unit that a copy moves: an element, or two E2M1 elements in a byte (R26). -/
def unitBytes (ty : Nat) : Nat :=
  match tyOf ty with
  | some t => Nat.max 1 (tyWidth t / 8)
  | none => 1

/-- Sizes of the dimensions in units, absent ones 1. -/
def CopyDesc.units (d : CopyDesc) : List Nat :=
  (List.range 7).map fun j =>
    if d.nd < j then 1
    else if j = 0 ∧ d.ty = 5 then d.n.getD 0 0 / 2
    else d.n.getD j 0

/-- Strides of the dimensions, dimension 0 contiguous. -/
def CopyDesc.strides (d : CopyDesc) : List Int := (unitBytes d.ty : Int) :: d.d

/-- Number of units a copy moves. -/
def CopyDesc.count (d : CopyDesc) : Nat := d.units.foldl (· * ·) 1

/-- Bytes a copy moves. -/
def CopyDesc.bytes (d : CopyDesc) : Nat := d.count * unitBytes d.ty

/-- Offset of unit number lin on the strided side, i0 innermost (R228). -/
def stridedOffset (lin : Nat) : List Nat → List Int → Int
  | n :: ns, d :: ds => (lin % n : Nat) * d + stridedOffset (lin / n) ns ds
  | _, _ => 0

/-- Lowest and highest byte offset of the strided side. -/
def stridedSpan (e : Nat) : List Nat → List Int → Int × Int
  | n :: ns, d :: ds =>
    let (lo, hi) := stridedSpan e ns ds
    let x := d * ((n : Int) - 1)
    if x < 0 then (lo + x, hi) else (lo, hi + x)
  | _, _ => (0, (e : Int) - 1)

/-- The offset of unit k at the source and at the destination (R228). -/
def CopyDesc.offsets (d : CopyDesc) (k : Nat) : Int × Int :=
  let dense : Int := k * unitBytes d.ty
  let st := stridedOffset k d.units d.strides
  if d.sdst then (dense, st) else (st, dense)

/-- The multicast targets of a descriptor, as logical cores (R230). -/
def CopyDesc.targets (d : CopyDesc) : List Nat :=
  (List.range 32).filterMap fun j => if d.bmap / 2 ^ j % 2 = 1 then some (d.base + j) else none

/-! ## Gangs as agents of a virtual function name them (R73, R427) -/

/-- Is gang g of a Vale formed by this virtual function's context there? A foreign gang looks free (R427). -/
def gangOwned (s : State) (vale vf g : Nat) : Bool :=
  let x := gangOf s vale g
  x.owner.isSome && x.vf == vf

/-- Is core k a member of gang g (R73)? -/
def gangMember (s : State) (k g : Nat) : Bool :=
  gangOwned s (k / 192) (vfOfCore s k) g && (gangOf s (k / 192) g).members.contains (logicalCore s k)

/-- The members of a gang that are not leaving it: those that later dispatches and episodes count (R75). -/
def stayers (x : Gang) : List Nat := x.members.filter fun n => !x.leavers.contains n

/-- The gangs of its Vale that a logical core of a virtual function is a member of, or waits to join at a `gjoin` (R74,
R75). -/
def membershipCount (s : State) (vale vf n : Nat) : Nat :=
  ((valeOf s vale).gangs.filter fun e =>
    e.2.owner.isSome && e.2.vf == vf && (e.2.members.contains n || e.2.joiners.contains n)).length

/-- A dispatch put into a queue at the clk that it names: last, but among those of one clk in ascending control core: the
queue of a gang, and that of a Col engine (R76, R301). -/
def queueDispatch (d : Dispatch) : List Dispatch → List Dispatch
  | [] => [d]
  | x :: rest => if x.reached = d.reached ∧ d.ctl < x.ctl then d :: x :: rest else x :: queueDispatch d rest

/-! ## Descriptor checks (R391) -/

/-- The lowest offset of a list of failing fields. -/
def lowestOffset : List (Bool × Nat) → Option Nat
  | [] => none
  | (c, o) :: rest =>
    match lowestOffset rest with
    | none => if c then some o else none
    | some m => if c then some (Nat.min o m) else some m

/-- The byte of ctl or of the reserved field in which a reserved bit is set. -/
def reservedOffsets (b : List Byte) : List (Bool × Nat) :=
  [(numAt b 0x11 1 / 64 % 4 != 0, 0x11), (numAt b 0x13 1 / 64 % 4 != 0, 0x13),
   (numAt b 0x26 1 != 0, 0x26), (numAt b 0x27 1 != 0, 0x27)]

/-- The checks that every copy's snapshot passes, by offset of the failing field (R391). -/
def commonChecks (c : Core) (b : List Byte) (d : CopyDesc) (ringed : Bool) : List (Bool × Nat) :=
  let r := ringOf c d.ring
  [(d.ty == 15, 0x10), (d.nd == 7, 0x10), (d.rmode == 3, 0x11),
   (d.ty == 5 && d.n.getD 0 0 % 2 == 1, 0x18),
   (ringed && (d.rmode == 1 || d.rmode == 2) && (!r.cfg || decide (r.sz * 64 < d.bytes)), 0x11)]
  ++ reservedOffsets b
  ++ (List.range 7).map (fun j => (decide (d.nd < j) && d.n.getD j 0 != 0, 0x18 + 2 * j))
  ++ (List.range 6).map (fun j => (decide (d.nd < j + 1) && d.d.getD j 0 != 0, 0x28 + 4 * j))

/-- Offset of the first failing byte of a copy's descriptor, by C opcode (R391). -/
def copyDescFails (s : State) (k op : Nat) (f : Bool) (b : List Byte) : Option Nat :=
  let c := coreOf s k
  let d := copyDesc b
  let extra : List (Bool × Nat) :=
    match op with
    | 2 =>
      let owned := gangOwned s (k / 192) (vfOfCore s k) d.gang
      let mem := (gangOf s (k / 192) d.gang).members
      [(!owned, 0x12), (d.targets.any (fun t => !mem.contains t), 0x12),
       (decide (191 < d.base + 31) && d.targets.any (fun t => decide (191 < t)), 0x12),
       (d.rmode == 1 && d.targets.any (fun t => match physCore s (k / 192) (vfOfCore s k) t with
          | some j => let r := ringOf (coreOf s j) d.ring
                      !r.cfg || decide (r.sz * 64 < d.bytes)
          | none => false), 0x11)]
    | 3 | 4 => [(d.nd != 1, 0x10)]
    | 5 => [(d.ty != 0 && d.ty != 11, 0x10), (d.ty != (if f then 11 else 0), 0x10), (d.rmode != 0, 0x11)]
    | 13 =>
      [(d.ty != 7, 0x10), (d.dst != 0, 0x08), (d.sdst, 0x10), (d.rmode != 0, 0x11),
       (d.count == 0 || decide (64 < d.count), 0x18)]
    | _ => []
  lowestOffset (commonChecks c b d (op != 2 || d.rmode == 2) ++ extra)

/-! ## Copy entries (R77, R337) -/

/-- The first free copy entry at or after a position, cyclically through 0 to 31 (R77). -/
def freeCopyEntry (c : Core) (i : Nat) : Nat → Option Nat
  | 0 => none
  | fuel + 1 => if (c.copies.find? (i % 32)).isNone then some (i % 32) else freeCopyEntry c (i + 1) fuel

/-- Own-scratchpad bytes whose direct store has not performed at this clk (R139). -/
def hazards (c : Core) : List (Nat × List Byte) :=
  (c.recent.filter fun r => decide (c.clk < r.2.2 + 4) && decide (r.2.2 < c.clk)).map fun r => (r.1, r.2.1)

end Sys2Proof.Machine
end

