-- ==== Sys2Proof/Machine/Trace.lean ====
section
/-! DEFINITION. Slice groups (R324), trace records in the trace buffer of a virtual function in one Vale (R351, R352),
and those of the scheduler. -/

namespace Sys2Proof.Machine

open Sys2Proof

/-! ## Slice groups (R324) -/

/-- The virtual functions whose bind records slice j carries, those of valid entries. -/
def recordsOf (s : State) (j : Nat) : List Nat := ((slotOf s j).entries.filter fun e => e.2.v).map fun e => e.2.vf.toNat

/-- The slices of the group of slice j, rising. -/
def groupSlices (s : State) (j : Nat) : List Nat :=
  (List.range 64).filter fun i => i == j || (recordsOf s i).any fun v => (recordsOf s j).contains v

/-- The first slice of the group of slice j, which stands for the group. -/
def groupFirst (s : State) (j : Nat) : Nat := (groupSlices s j).getD 0 j

/-- The slices whose records name a virtual function. -/
def slicesOf (s : State) (vf : Nat) : List Nat := (List.range 64).filter fun i => (recordsOf s i).contains vf

/-- The Vales in which a virtual function holds slices. -/
def valesOf (s : State) (vf : Nat) : List Nat := ((slicesOf s vf).map (· / 8)).eraseDups

/-- The slice group of a virtual function. -/
def groupOfVf (s : State) (vf : Nat) : Nat := (slicesOf s vf).getD 0 0

/-- A virtual function has ceased to be runnable: an entry of it that becomes runnable again while another is bound is a
newcomer (R327). -/
def noteUnready (s : State) (vf : Nat) : State :=
  { s with slots := s.slots.map fun e => (e.1, { e.2 with
      unready := (e.2.entries.filter fun x => x.2.vf.toNat == vf).foldl (fun l x => insertRising x.1 l) e.2.unready }) }

/-! ## Trace records (R351, R352) -/

/-- The trace buffer of a virtual function in a Vale. -/
def traceBuf (s : State) (vf vale : Nat) : TraceBuf := (vfOf s vf).trace.get {} vale

/-- Records that a buffer holds when full (R351). -/
def traceCapacity (t : TraceBuf) : Nat := 128 * (t.sz.toNat + 1)

/-- The 32 bytes of a trace record (R352). -/
def traceBytes (s : State) (vf vale cls idx ev : Nat) (payload : Word) : List Byte :=
  leBytes 8 s.nstime.toNat ++ leBytes 2 ((contextCid s vf vale).toNat + 4096 * vale) ++ leBytes 2 (unitNo cls idx).toNat
    ++ leBytes 2 ev ++ leBytes 2 0 ++ leBytes 8 payload.toNat ++ leBytes 8 0

/-- A trace record of an event: written where its class is enabled, dropped where the buffer is full or its page
does not translate (R351). -/
def traceRecord (s : State) (vf vale cls idx ev : Nat) (payload : Word) : State :=
  let t := traceBuf s vf vale
  let put := fun (st : State) (t : TraceBuf) => modVf st vf fun v => { v with trace := v.trace.put {} vale t }
  let drop := put s { t with drop := Nat.min (t.drop + 1) 0xFFFF }
  if !t.en.getLsbD cls then s
  else if (t.wp - t.rp).toNat = traceCapacity t then drop
  else match translateVf s vf (t.base.toNat + 32 * (t.wp.toNat % traceCapacity t)) 1 with
    | .error _ => drop
    | .ok pa =>
      let s := chargeAccess s vale pa vf (contextCid s vf vale).toNat
      put (physWrite s pa (traceBytes s vf vale cls idx ev payload)) { t with wp := t.wp + 1 }

/-- A record of the scheduler in the buffers of a virtual function's contexts (R352). -/
def schedTrace (s : State) (vf vale ev payload : Nat) : State :=
  traceRecord s vf vale 6 (groupOfVf s vf) ev (BitVec.ofNat 64 payload)

/-- A record of the scheduler for every context of a virtual function. -/
def schedTraceAll (s : State) (vf ev payload : Nat) : State :=
  (valesOf s vf).foldl (fun st v => schedTrace st vf v ev payload) s

end Sys2Proof.Machine
end

