-- ==== Sys2Proof/Machine/Launch.lean ====
section
/-! DEFINITION. Launches (R62 to R65): the start-vector table, the beginning and the end of a launch, and the module's
own messages (R356). -/

namespace Sys2Proof.Machine

open Sys2Proof

/-! ## What the host reaches (R353, R364, R449) -/

/-- Is a Ndetu port up? -/
def portsUp (s : State) : Bool := !(s.io.portDown.contains 0 && s.io.portDown.contains 1)

/-- Do the registers and memories of virtual functions answer the host? In recovery they do not (R364). -/
def hostReaches (s : State) : Bool := portsUp s && s.io.boot == .running

/-! ## Module messages (R356) -/

/-- A message of the module itself; only message 0x8001 is ever dropped. -/
def moduleMessage (s : State) (vf : Nat) (m : List Word) : State :=
  modVf s vf fun v =>
    if m.getD 0 0 = 0x8001 ∧ 4 ≤ v.modq.length then { v with modDropped := true }
    else { v with modq := v.modq ++ [padTo 8 0 m] }

/-- A launch refused, with a reason: 1 in progress, 2 bad table, 3 image not accepted, 4 trap queue not ready. -/
def refuseLaunch (s : State) (vf : Nat) (w : Word) (reason : Nat) : State :=
  moduleMessage s vf [0x8001, w, BitVec.ofNat 64 reason]

/-! ## The start-vector table (R63) -/

/-- Does a virtual range hold a poisoned byte? -/
def vaPoisoned (s : State) (vf va n : Nat) : Bool :=
  (List.range ((va + n - 1) / 65536 + 1 - va / 65536)).any fun i =>
    let a := Nat.max va ((va / 65536 + i) * 65536)
    let b := Nat.min (va + n) ((va / 65536 + i + 1) * 65536)
    match translateVf s vf a 0 with
    | .ok pa => physPoisoned s pa (b - a)
    | .error _ => false

/-- n sound bytes at a device virtual address. -/
def vaSound (s : State) (vf va n : Nat) : Option (List Byte) :=
  match vaRead s vf va n with
  | .error _ => none
  | .ok b => if vaPoisoned s vf va n then none else some b

/-- A start-vector table: launch identifier, argument, and for each control core that takes part its logical slice,
entry address and stack pointer. -/
structure StartTable where
  lid : Word
  arg : Word
  parts : List (Nat × Word × Word)

/-- Entry k of a start-vector table with the stack pointers beside it: none where it does not take part, an error
where it is bad. -/
def startEntry (slices : Nat) (entries sps : List Byte) (k : Nat) : Except Unit (Option (Nat × Word × Word)) :=
  let e := word64At entries (8 * k)
  let sp := word64At sps (8 * k)
  if e / 2 ^ 56 ≠ 0 then .error ()
  else if e % 2 = 0 then .ok none
  else if slices ≤ k ∨ sp % 16 ≠ 0 then .error ()
  else .ok (some (k, BitVec.ofNat 64 (e - 1), BitVec.ofNat 64 sp))

/-- The control cores that take part, from entry k on; none where an entry is bad. -/
def startParts (slices : Nat) (entries sps : List Byte) (k : Nat) : Nat → Option (List (Nat × Word × Word))
  | 0 => some []
  | n + 1 =>
    match startEntry slices entries sps k, startParts slices entries sps (k + 1) n with
    | .ok none, some l => some l
    | .ok (some p), some l => some (p :: l)
    | _, _ => none

/-- The start-vector table that an `lnchv` value names, with its stack table; none where it is bad (R63). What becomes of a
table with a nonzero reserved field or nonzero entry bits 63:56, of a core that takes part or not, or with a stack table
that is not 8-byte aligned, R63 does not say: DESIGN CHOICE, such a table is bad too (log entry 142). -/
def startTable (s : State) (vf : Nat) (w : Word) : Option StartTable :=
  let va := bitsOf w.toNat 55 6 * 64
  match vaSound s vf va 64 with
  | none => none
  | some h =>
    let n := numAt h 0x10 4
    let stk := word64At h 0x18
    if n = 0 ∨ 64 < n ∨ numAt h 0x14 4 ≠ 0 ∨ numAt h 0x20 32 ≠ 0 ∨ stk % 8 ≠ 0 then none
    else match vaSound s vf (va + 64) (8 * n), vaSound s vf stk (8 * n) with
      | some entries, some sps =>
        (startParts (logicalSlices s vf).length entries sps 0 n).map fun parts =>
          { lid := BitVec.ofNat 64 (word64At h 0), arg := BitVec.ofNat 64 (word64At h 8), parts := parts }
      | _, _ => none

/-- Does reading the tables that an `lnchv` value names wait for parked writes (R120)? -/
def tableHeld (s : State) (vf : Nat) (w : Word) : Bool :=
  let va := bitsOf w.toNat 55 6 * 64
  vaHeld s vf va 64 || (match vaSound s vf va 64 with
    | some h => decide (numAt h 0x10 4 ≤ 64)
        && (vaHeld s vf (va + 64) (8 * numAt h 0x10 4) || vaHeld s vf (word64At h 0x18) (8 * numAt h 0x10 4))
    | none => false)

/-- The lines of those tables touched (R121). -/
def touchTable (s : State) (vf : Nat) (w : Word) : State :=
  let va := bitsOf w.toNat 55 6 * 64
  match vaSound s vf va 64 with
  | some h => if 64 < numAt h 0x10 4 then vaTouch s vf va 64
    else vaTouch (vaTouch s vf va (64 + 8 * numAt h 0x10 4)) vf (word64At h 0x18) (8 * numAt h 0x10 4)
  | none => s

/-! ## Beginning and end (R64, R65, R375) -/

/-- The end of a launch whose control cores have all finished: `lnprev` holds its status (R65, R375). -/
def endLaunch (s : State) (vf code : Nat) : State :=
  modVf (noteUnready s vf) vf fun v =>
    { v with launch := none, lnprevSeq := 0, lnprevF := false, lnprevCode := BitVec.ofNat 8 code }

/-- A control core that receives a launch: in U mode at its entry address with the registers of R64. How the S-mode runtime
receives the launch, the manual does not say: DESIGN CHOICE, the model takes the runtime's part and leaves whatever the
control core was executing (log entry 143). -/
def launchedCtl (c : Ctl) (t : StartTable) (p : Nat × Word × Word) : Ctl :=
  { c with
    status := .running, priv := .u, pc := p.2.1, held := none, sleepUntil := none, mwaitUntil := none
    x := (((FMap.put 0 [] 2 p.2.2).put 0 10 t.lid).put 0 11 t.arg).put 0 12 (BitVec.ofNat 64 p.1) }

/-- A launch begins: the tables are read and each control core that takes part receives it (R63, R64). -/
def beginLaunch (s : State) (vf : Nat) (w : Word) : State :=
  let s := touchTable s vf w
  match startTable s vf w with
  | none => refuseLaunch (modVf s vf fun v => { v with launch := none }) vf w 2
  | some t =>
    let s := modVf s vf fun v => { v with launch := some { word := w, lid := t.lid, arg := t.arg, parts := t.parts } }
    let cores := logicalSlices s vf
    let s := t.parts.foldl (fun st p => match cores[p.1]? with
      | some k => modCtl st k fun c => launchedCtl c t p
      | none => st) s
    if t.parts.isEmpty then endLaunch s vf 0 else s

/-- Are all contexts of a virtual function bound and running? -/
def allRunning (s : State) (vf : Nat) : Bool :=
  let l := valesOf s vf
  !l.isEmpty && l.all fun v => (ctxOf s vf v).status == .running

/-- A pending launch begins once the contexts are bound and its tables can be read (R120, R326). -/
def beginPending (s : State) (vf : Nat) : State :=
  match (vfOf s vf).launch with
  | some l => if l.pending && allRunning s vf && !tableHeld s vf l.word then beginLaunch s vf l.word else s
  | none => s

/-- Is the trap queue ready for a launch: enabled, with a reserved entry free (R375)? -/
def queueReady (q : TrapQueue) : Bool :=
  q.en && [508, 509, 510, 511].any fun i => q.entries.get .free i == .free

/-- A write of `lnchv` (R62, R326, R362, R375). -/
def writeLnchv (s : State) (vf : Nat) (w : Word) : State :=
  let v := vfOf s vf
  if v.launch.isSome then refuseLaunch s vf w 1
  else if v.image.isNone then refuseLaunch s vf w 3
  else if !queueReady v.tq then refuseLaunch s vf w 4
  else if allRunning s vf && !tableHeld s vf w then beginLaunch s vf w
  else modVf s vf fun v => { v with launch := some { word := w, pending := true } }

end Sys2Proof.Machine
end

