-- ==== Sys2Proof/Machine/Issue.lean ====
section
/-! DEFINITION. How a slot operation issues (R82 to R86, R386 to R391): the streams it names, the checks of
its descriptor and operand values, the conditions that stall it, what a held bundle does when it first reaches
issue, and the in-flight entries it takes (R336, R337). -/

namespace Sys2Proof.Machine

open Sys2Proof

/-! ## Stops -/

/-- How an operation that fails a check stops its core. -/
structure Stop where
  cause : Nat
  addr : Nat := 0
  info : Nat := 0
  /-- does info hold the `ord` byte of an in-flight entry (R399)? -/
  entry : Bool := false
deriving DecidableEq, Repr

/-- The opcode of a slot operation. -/
def opcodeOf (i : Instr) : Nat :=
  match encode i with
  | some (.s w _) => w.toNat % 256
  | some (.v w) => w.toNat % 256
  | some (.m w) => w.toNat % 256
  | some (.c w) => w.toNat % 256
  | _ => 0

/-- Cause 0x11, reason 8: an operand value or state that the operation does not accept (R389). -/
def illegal (s : State) (i : Instr) (detail : Nat) : Option Stop :=
  some { cause := 0x11, info := info386 8 (opcodeOf i) s.slot detail }

/-- Cause 0x10 found at issue (R389, R426). -/
def violation (s : State) (i : Instr) (reason addr : Nat) : Option Stop :=
  some { cause := 0x10, addr := addr, info := info386 reason (opcodeOf i) s.slot 0 }

/-- Cause 0x13 (R389). -/
def misalign (s : State) (i : Instr) (addr : Nat) : Option Stop :=
  some { cause := 0x13, addr := addr, info := info386 8 (opcodeOf i) s.slot 0 }

/-- The agent code of a slot (R399). -/
def slotAgent (slot : Nat) : Nat :=
  match slot with
  | 0 => 0
  | 1 | 2 => 1
  | 3 => 5
  | 4 => 2
  | _ => 3

/-- Cause 0x03: poisoned data taken as an operand (R378, R399). -/
def poisonStop (s : State) (addr : Nat) : Option Stop :=
  some { cause := 3, addr := addr, info := info399 { cause := 3 } 0 (slotAgent s.slot) 0xFF 0 }

/-- A finding of a translation made for a slot operation (R398, R399). -/
def findingStop (s : State) (f : Finding) (va access ord : Nat) : Stop :=
  { cause := f.cause, addr := va, info := info399 f access (slotAgent s.slot) ord 0, entry := decide (ord ≠ 0xFF) }

/-- The first stop of a list. -/
def firstStop : List (Option Stop) → Option Stop
  | [] => none
  | some x :: _ => some x
  | none :: rest => firstStop rest

/-- A stop where a condition holds. -/
def stopIf (c : Bool) (x : Option Stop) : Option Stop := if c then x else none

/-! ## The registers that a vector operation names (R181, R183) -/

/-- Fields of vector registers or streams read, in the order in which streams pop. -/
def vReads (i : Instr) : List Nat :=
  match i with
  | .vadd f | .vsub f | .vmul f | .vmin f | .vmax f | .vand f | .vor f | .vxor f | .vcmp f | .vslide f =>
    [f.va.toNat, f.vb.toNat]
  | .vshl f | .vshr f | .vsra f => if f.fn.getLsbD 0 then [f.va.toNat] else [f.va.toNat, f.vb.toNat]
  | .vfma f | .vfms f | .vrq f | .vperm f | .vtacc f | .vdp8 f => [f.va.toNat, f.vb.toNat, f.vc.toNat]
  | .vabs f | .vneg f | .vcvt f | .vexp2 f | .vtanh f | .vlgst f | .vrcp f | .vrsqrt f | .vstat f | .vunp3 f
  | .vpack f | .vwide f => [f.va.toNat]
  | .vmov f => if f.ty = 13 then [] else [f.va.toNat]
  | .vsel f => if f.ty = 13 then [] else [f.va.toNat, f.vb.toNat]
  | .vredsum f | .vredmax f | .vredmin f => [f.va.toNat, f.vc.toNat]
  | .vbcast f => if f.fn.getLsbD 0 then [f.va.toNat] else []
  | .vst f => [f.vd.toNat]
  | .vgth f => [f.vb.toNat]
  | .vsct f => [f.vb.toNat, f.vd.toNat]
  | .vamo f => [f.vb.toNat, f.vc.toNat]
  | .vxadd f => if f.fn.getLsbD 3 then [f.vb.toNat] else []
  | .vxcvt f => if f.vc = 13 then [] else [f.va.toNat]
  | _ => []

/-- Source streams an operation pops, once for each field. -/
def streamsRead (i : Instr) : List Nat := ((vReads i).filter (fun n => decide (56 ≤ n))).map (· - 56)

/-- Destination streams an operation pushes at issue. -/
def streamsWritten (i : Instr) : List Nat :=
  (targets i).filterMap fun t => match t with
    | .stream k => match i with
      | .mdrain _ => none
      | _ => some k
    | _ => none

/-- How often k stands in a list. -/
def countOf (k : Nat) (l : List Nat) : Nat := (l.filter (· == k)).length

/-- May stream k be read (dst = false) or written n more groups, after `before` groups named earlier in the
bundle: bound, in this direction, and not past its pattern in the current step (R78, R389)? -/
def streamUsable (c : Core) (k : Nat) (dst : Bool) (before n : Nat) : Bool :=
  let t := streamOf c k
  t.bound && t.dst == dst && (decide (t.ring < 8) || decide (t.pos + before + n ≤ streamTotal t))

/-- The checks of the streams an operation names; `rd` and `wr` hold the streams that slots before it in the
order of R86 name. -/
def streamStop (s : State) (i : Instr) (rd wr : List Nat) : Option Stop :=
  let c := curCore s
  let r := streamsRead i
  let w := streamsWritten i
  let poison := r.any fun k =>
    decide (countOf k rd < streamAvail c k)
      && headPoisoned ((List.range (countOf k rd)).foldl (fun c _ => (streamPop c k).2) c) k
  if poison then poisonStop s 0
  else stopIf (r.any (fun k => !streamUsable c k false (countOf k rd) (countOf k r))
    || w.any (fun k => !streamUsable c k true (countOf k wr) (countOf k w))) (illegal s i 0)

/-! ## Checks of addresses (R389, R426) -/

/-- A local address, of 64 bits as it was formed, of an access of n bytes aligned to `al`. -/
def localStop (s : State) (i : Instr) (a n al : Nat) (store : Bool) : Option Stop :=
  if 2 ^ 32 ≤ a then violation s i 8 0
  else match resolveLocal s s.core a with
    | .error r => violation s i r 0
    | .ok l =>
      if store && locInStash s l n then violation s i 8 0
      else if a % al ≠ 0 then misalign s i 0
      else if !store && locPoisoned s s.core l n then poisonStop s 0
      else none

/-- A local address that must lie in the own scratchpad. -/
def ownStop (s : State) (i : Instr) (a n al : Nat) : Option Stop :=
  match resolveLocal s s.core a with
  | .error r => violation s i r 0
  | .ok (.spill _) => violation s i 8 0
  | .ok (.spm k o) =>
    if k ≠ s.core then violation s i 8 0
    else if a % al ≠ 0 then misalign s i 0
    else if 2 ^ 22 < o + n then violation s i 8 0
    else if (coreOf s k).spm.poisoned o n then poisonStop s 0
    else none

/-- The offset of an own-scratchpad address. -/
def ownOffset (a : Nat) : Nat := a % 2 ^ 22

/-- The target of an `amo`, `cas` or `vamo` element of n bytes (R108, R389). -/
def atomicStop (s : State) (i : Instr) (t : Tagged) (n : Nat) : Option Stop :=
  match t with
  | .malformed => violation s i 8 0
  | .globalAddr va => stopIf (va % n != 0) (misalign s i va)
  | .localAddr a =>
    match resolveLocal s s.core a with
    | .error r => violation s i r 0
    | .ok (.spill _) => violation s i 8 0
    | .ok (.spm _ _) => stopIf (a % n != 0) (misalign s i 0)

/-- Bytes per lane of an ew field (R198). -/
def ewBytes (fn : BitVec 6) : Nat :=
  match fn.toNat % 4 with
  | 0 => 4
  | 1 => 2
  | _ => 1

/-- The address of a `vld` or `vst`, as an integer before it is taken as a local address (R198). -/
def vldAddr (s : State) (f : VF) : Int :=
  ((sRead s f.va.toNat).toNat % 2 ^ 32 : Nat) + f.vb.toInt * (64 * ewBytes f.fn : Nat)

/-- Selected lanes of a mask. -/
def selected (m : Word) : List Nat := (List.range 64).filter fun i => m.getLsbD i

/-- The checks of `vld` and `vst` (R198, R389). DESIGN CHOICE (log entry 156): the check against the stash looks at all 64
lanes, also at those that the mask leaves out. -/
def vldStop (s : State) (i : Instr) (f : VF) (store : Bool) : Option Stop :=
  let e := ewBytes f.fn
  let x := vldAddr s f
  if (sRead s f.va.toNat).toNat / 2 ^ 32 ≠ 0 ∨ x < 0 ∨ 2 ^ 32 ≤ x then violation s i 8 0
  else
    let a := x.toNat
    let o := a % 2 ^ 22
    match resolveLocal s s.core a with
    | .error r => violation s i r 0
    | .ok l =>
      let crosses := match l with
        | .spill q => decide (4096 < q + 64 * e)
        | .spm _ _ => decide (2 ^ 21 < o % 2 ^ 21 + 64 * e)
      if store && locInStash s l (64 * e) then violation s i 8 0
      else if a % e != 0 || crosses then misalign s i 0
      else if !store && (selected (vmRead s f.vm.toNat)).any (fun j =>
          match l with
          | .spill q => (coreOf s s.core).spill.poisoned (q + e * j) e
          | .spm k q => (coreOf s k).spm.poisoned (q + e * j) e) then poisonStop s 0
      else none

/-- The lanes of vector field n as the operation will read them after `before` groups of the same stream have
been popped; `none` where that group is not there yet (R86, R389). -/
def vPeek (s : State) (n : Nat) (before : List Nat) : Option (List Lane) :=
  if n < 56 then some (vRead s n)
  else
    let c := curCore s
    let k := n - 56
    let skip := countOf k before
    if streamAvail c k ≤ skip then none
    else
      let c := (List.range skip).foldl (fun c _ => (streamPop c k).2) c
      some (bytesLanes (streamPop c k).1)

/-- Lane address of `vgth` and `vsct` (R199). -/
def gthAddr (base : Word) (v : Lane) : Nat := (base.toNat % 2 ^ 32 + v.toNat) % 2 ^ 32

/-- The tagged address of a `vamo` element (R201). -/
def vamoAddr (base : Word) (v : Lane) : Tagged :=
  match taggedOf base with
  | .localAddr a => .localAddr ((a + v.toNat) % 2 ^ 32)
  | .globalAddr a => .globalAddr (a + v.toNat)
  | .malformed => .malformed

/-- The checks of a vector operation's own addresses; `rd` holds the streams popped before it. -/
def vAddrStop (s : State) (i : Instr) (rd : List Nat) : Option Stop :=
  match i with
  | .vld f => vldStop s i f false
  | .vst f => vldStop s i f true
  | .vgth f =>
    match vPeek s f.vb.toNat rd with
    | none => none
    | some l => firstStop ((selected (vmRead s f.vm.toNat)).map fun j =>
        localStop s i (gthAddr (sRead s f.va.toNat) (lane l j)) (ewBytes f.fn) (ewBytes f.fn) false)
  | .vsct f =>
    match vPeek s f.vb.toNat rd with
    | none => none
    | some l => firstStop ((selected (vmRead s f.vm.toNat)).map fun j =>
        localStop s i (gthAddr (sRead s f.va.toNat) (lane l j)) (ewBytes f.fn) (ewBytes f.fn) true)
  | .vamo f =>
    match taggedOf (sRead s f.va.toNat), vPeek s f.vb.toNat rd with
    | .malformed, _ => violation s i 8 0
    | _, none => none
    | _, some l => firstStop ((selected (vmRead s f.vm.toNat)).map fun j =>
        atomicStop s i (vamoAddr (sRead s f.va.toNat) (lane l j)) 4)
  | _ => none

/-! ## Checks of the S slot -/

/-- Is the branch taken (R162)? -/
def branchTaken (s : State) (pg : BitVec 4) (pn : BitVec 1) : Bool := (pRead s pg.toNat) != (pn == 1)

/-- Target text that is mapped without x = 1 (R389). -/
def textStop (s : State) (i : Instr) (target : Nat) : Option Stop :=
  match (translate s s.core (vfOfCore s s.core) target 3).1 with
  | .error f => stopIf (f.cause == 0x10 && f.reason == 5) (violation s i 8 target)
  | .ok _ => none

/-- The checks of a branch to target. -/
def branchStop (s : State) (i : Instr) (taken : Bool) (target : Nat) : Option Stop :=
  if ¬ taken then none
  else if target % 32 ≠ 0 then misalign s i target
  else textStop s i target

/-- Entries of a Vale's control cores that stand for a macro-instruction or collective issued to gang g of a
virtual function and neither completed nor killed (R75). -/
def gangEntries (s : State) (vale vf g : Nat) : List MacroEntry :=
  ((s.ctls.filter fun e => e.1 / 8 == vale && vfOfCtl s e.1 == vf).flatMap fun e => e.2.macros.map (·.2)).filter
    fun m => m.gang == g && (m.state == .running || m.state == .stopping || m.state == .stopped || m.state == .killing)

/-- May the core not leave the gang now (R75, R389)? -/
def cannotLeave (s : State) (k g : Nat) : Bool :=
  let c := coreOf s k
  let x := gangOf s (k / 192) g
  let n := logicalCore s k
  let entries := gangEntries s (k / 192) (vfOfCore s k) g
  let inSeq := fun (d : Option Dispatch) => match d with
    | some d => d.gang == g
    | none => false
  let queued := fun (d : Dispatch) => !d.resume || (entryOf s d.ctl d.entry).members.contains n
  inSeq c.seq.exec || inSeq c.seq.pend || x.queue.any queued
    || entries.any (fun m => (m.state == .stopped || m.state == .stopping) && m.members.contains n)
    || (stayers x == [n] && !entries.isEmpty)

/-- The region of the macro-instruction a core executes: scratchpad offset and bytes (R242). -/
def seqRegion (c : Core) : Option (Nat × Nat) :=
  c.seq.exec.map fun d => (numAt d.desc 8 4, numAt d.desc 6 2 * 65536)

/-- Do two byte ranges meet? -/
def rangesMeet (a n b m : Nat) : Bool := decide (a < b + m) && decide (b < a + n) && decide (0 < n) && decide (0 < m)

/-- The stash region of n0 and n1 units as two offset ranges (R104). -/
def stashRanges (n0 n1 : Nat) : List (Nat × Nat) :=
  [(2 ^ 21 - n0 * 2 ^ 18, n0 * 2 ^ 18), (2 ^ 22 - n1 * 2 ^ 18, n1 * 2 ^ 18)]

/-- Bytes of a ring. -/
def ringBytes (r : Ring) : Nat := ringSlots r * r.sz * 64

/-- The checks of a `csrw` of `stcfg` (R104, R389, R426). -/
def stcfgStop (s : State) (i : Instr) (w : Word) : Option Stop :=
  let c := curCore s
  let n0 := w.toNat % 16
  let n1 := w.toNat / 256 % 16
  let meets := fun a n => (stashRanges n0 n1).any fun r => rangesMeet r.1 r.2 a n
  firstStop [
    stopIf ((n0 != 0 && !bankAllowed s s.core 0) || (n1 != 0 && !bankAllowed s s.core (2 ^ 21))) (violation s i 9 0),
    stopIf (n0 + n1 == 0 || decide (4 < n0 + n1)
      || c.stash.any (fun e => e.2.dirty != 0 || e.2.owned)
      || c.ring.any (fun e => e.2.cfg && meets e.2.base (ringBytes e.2))
      || (match seqRegion c with
          | some (a, n) => meets a n
          | none => false)) (illegal s i 0)]

/-- Has the bundle at issue recorded its arrival on gang g already (R167)? Its check has passed then. -/
def arrivedOn (s : State) (g : Nat) : Bool :=
  match (curCore s).held.arrival with
  | some (h, _) => h == g
  | none => false

/-- The checks of an S-slot operation's operand values (R389). -/
def sStop (s : State) (i : Instr) : Option Stop :=
  match i with
  | .ld f => localStop s i (smAddr s f).toNat (sizeOf2 f.sz) (sizeOf2 f.sz) false
  | .st f => localStop s i (smAddr s f).toNat (sizeOf2 f.sz) (sizeOf2 f.sz) true
  | .lds f =>
    let n := sizeOf2 f.sz
    if f.off.toNat % n ≠ 0 then misalign s i 0
    else stopIf ((curCore s).spill.poisoned f.off.toNat n) (poisonStop s 0)
  | .sts f => stopIf (f.off.toNat % sizeOf2 f.sz != 0) (misalign s i 0)
  | .ldg f => stopIf ((smAddr s f).toNat % sizeOf2 f.sz != 0) (misalign s i (smAddr s f).toNat)
  | .stg f => stopIf ((smAddr s f).toNat % sizeOf2 f.sz != 0) (misalign s i (smAddr s f).toNat)
  | .sqld f =>
    let a := (smAddr s f).toNat
    if a / 2 ^ 30 ≠ 0 then violation s i 8 0 else localStop s i a (sizeOf2 f.sz) (sizeOf2 f.sz) false
  | .amo f => atomicStop s i (taggedOf (sRead s f.sa.toNat)) (sizeOf2 f.sz)
  | .cas f => atomicStop s i (taggedOf (sRead s f.sa.toNat)) (sizeOf2 f.sz)
  | .br pg pn b => branchStop s i (branchTaken s pg pn) (bRead s b.toNat).toNat
  | .brl _ pg pn b => branchStop s i (branchTaken s pg pn) (bRead s b.toNat).toNat
  | .gbar g => stopIf (!gangMember s s.core g.toNat) (illegal s i 0)
  | .gwait g => stopIf (!gangMember s s.core g.toNat) (illegal s i 0)
  | .phase g => stopIf (!gangMember s s.core g.toNat) (illegal s i 0)
  | .garr g =>
    stopIf (!arrivedOn s g.toNat && (!gangMember s s.core g.toNat
      || (curCore s).barriers.any (fun e => e.2.gang == g.toNat))) (illegal s i 0)
  | .gleave g =>
    stopIf (!arrivedOn s g.toNat && (!gangMember s s.core g.toNat || cannotLeave s s.core g.toNat)) (illegal s i 0)
  | .gjoin g =>
    let vf := vfOfCore s s.core
    stopIf (!gangOwned s (s.core / 192) vf g.toNat
      || (!gangMember s s.core g.toNat
          && decide (4 ≤ membershipCount s (s.core / 192) vf (logicalCore s s.core)
              - (if (gangOf s (s.core / 192) g.toNat).joiners.contains (logicalCore s s.core) then 1 else 0))))
      (illegal s i 0)
  | .waita _ sa =>
    if sa = 0 then none
    else match taggedOf (sRead s sa.toNat) with
      | .malformed => violation s i 8 0
      | .globalAddr _ => none
      | .localAddr a => match resolveLocal s s.core a with
        | .error r => violation s i r 0
        | .ok _ => none
  | .csrr _ n => stopIf ((coreCsr (curCore s) n.toNat).isNone) (illegal s i n.toNat)
  | .csrw n sa =>
    if (coreCsr (curCore s) n.toNat).isNone then illegal s i n.toNat
    else if n = 0x020 then stcfgStop s i (sRead s sa.toNat)
    else none
  | _ => none

/-! ## Checks of the C slots (R389, R391) -/

/-- The copy descriptor register that a copy names, with the value in effect at issue: a `cdld` of the same
clk is not seen, one of the last 3 clk leaves it undefined (R83, R139, R227). -/
def cdOf (s : State) (n : Nat) : List Byte :=
  let c := curCore s
  match c.cdNew.find? n with
  | none => padTo 64 0 (c.cd.get [] n)
  | some b =>
    let ready := c.cdReady.get 0 n
    if ready ≤ c.clk then padTo 64 0 b
    else if c.clk + 4 = ready then padTo 64 0 (c.cd.get [] n)
    else (List.range 64).map fun i => (Config.undefinedLane s.free (400 + n) i).setWidth 8

/-- The snapshot of a copy operation: C opcode, flag and descriptor (R227). -/
def copyOf (s : State) (i : Instr) : Option (Nat × CF × List Byte) :=
  let snap := fun op (f : CF) => some (op, f, cdOf s f.cd.toNat)
  match i with
  | .cp f => snap 1 f
  | .cpm f => snap 2 f
  | .cpg f => snap 3 f
  | .cps f => snap 4 f
  | .cpa f => snap 5 f
  | .sqfill f => snap 13 f
  | _ => none

/-- Lowest and highest byte offset of a strided side with rows chosen by an index list (R231). -/
def indexedSpan (d : CopyDesc) (rows : List Nat) : Int × Int :=
  let len : Int := (d.units.getD 0 0 * unitBytes d.ty : Nat)
  let offs := rows.map fun x => Int.ofNat x * d.d.getD 0 0
  (offs.foldl min (offs.headD 0), offs.foldl max (offs.headD 0) + len - 1)

/-- The check of one local side of a copy: a tagged address and the offsets of its lowest and highest byte. -/
def sideStop (s : State) (i : Instr) (w : Nat) (lo hi : Int) (e : Nat) : Option Stop :=
  match taggedOf (BitVec.ofNat 64 w) with
  | .malformed => violation s i 8 0
  | .globalAddr va => stopIf (va % e != 0) (misalign s i va)
  | .localAddr a =>
    match resolveLocal s s.core a with
    | .error r => violation s i r 0
    | .ok (.spill _) => violation s i 8 0
    | .ok (.spm k o) =>
      if o + lo < 0 ∨ 2 ^ 22 ≤ o + hi then violation s i 8 0
      else if !bankAllowed s k (o + lo).toNat || !bankAllowed s k (o + hi).toNat then violation s i 9 0
      else stopIf (o % e != 0) (misalign s i 0)

/-- The index list of a `cpg` or `cps`, as words of the own scratchpad, without the stores whose bound has not passed: the
list that the copy reads (R115, R231). -/
def indexList (m : Mem) (h : List (Nat × List Byte)) (a n : Nat) : List Nat :=
  (List.range n).map fun r => leNat (hazardReadN m h (a + 4 * r) 4)

/-- The check of the scratchpad that one side of a copy names, of a copy that moves no byte there too (R389, R426). -/
def nameStop (s : State) (i : Instr) (w : Nat) : Option Stop :=
  match taggedOf (BitVec.ofNat 64 w) with
  | .malformed => violation s i 8 0
  | .globalAddr _ => none
  | .localAddr a =>
    match resolveLocal s s.core a with
    | .error r => violation s i r 0
    | .ok (.spill _) => violation s i 8 0
    | .ok (.spm _ _) => none

/-- The check of the tagged form and the space of a `cpm` destination, whose core field is ignored (R230, R389). -/
def multicastStop (s : State) (i : Instr) (w : Nat) : Option Stop :=
  stopIf (decide (w / 2 ^ 63 = 1) && decide (w / 2 ^ 30 % 2 ^ 33 ≠ 0)) (violation s i 8 0)

/-- The operand-value checks of a copy (R226, R230, R231, R389, R426). -/
def copyStop (s : State) (i : Instr) (op : Nat) (f : CF) (b : List Byte) : Option Stop :=
  let c := curCore s
  let d := copyDesc b
  let e := unitBytes d.ty
  let list := (sRead s f.sy.toNat).toNat % 2 ^ 32
  let rows := indexList c.spm (hazards c) (ownOffset list) (d.n.getD 1 0)
  let strided := if op = 3 ∨ op = 4 then indexedSpan d rows else stridedSpan e d.units d.strides
  let dense : Int × Int := (0, (d.bytes : Int) - 1)
  let (ss, ds) := if d.sdst then (dense, strided) else (strided, dense)
  let ringed := (d.rmode == 1 || d.rmode == 2) && decide (8 ≤ d.ring)
  firstStop [
    stopIf (decide (8 ≤ f.cd.toNat) || ringed) (illegal s i 0),
    (if op = 3 ∨ op = 4 then ownStop s i list (4 * d.n.getD 1 0) 4 else none),
    (if op = 2 ∧ d.rmode ≠ 1 then multicastStop s i d.dst else none),
    (if d.bytes = 0 then
       firstStop [
         (if d.rmode = 2 then none else nameStop s i d.src),
         (if d.rmode = 1 ∨ op = 13 then none
          else if op = 2 then
            firstStop (d.targets.map fun t => match physCore s (s.core / 192) (vfOfCore s s.core) t with
              | none => violation s i 8 0
              | some _ => nameStop s i (2 ^ 63 + t * 2 ^ 22 + d.dst % 2 ^ 22))
          else nameStop s i d.dst)]
     else firstStop [
       (if d.rmode = 2 then none else sideStop s i d.src ss.1 ss.2 e),
       (if d.rmode = 1 ∨ op = 13 then none
        else if op = 2 then
          firstStop (d.targets.map fun t => match physCore s (s.core / 192) (vfOfCore s s.core) t with
            | none => violation s i 8 0
            | some _ => sideStop s i (2 ^ 63 + t * 2 ^ 22 + d.dst % 2 ^ 22) ds.1 ds.2 e)
        else sideStop s i d.dst ds.1 ds.2 e),
       stopIf (if op = 3 ∨ op = 4 then rows.any fun x => Int.ofNat x * d.d.getD 0 0 % (e : Int) != 0
           else (List.range 6).any fun j => decide (1 < d.units.getD (j + 1) 1) && d.d.getD j 0 % (e : Int) != 0)
         (misalign s i 0)])]

/-- The fields of a ring configuration value (R237). -/
def ringConfig (w : Nat) : Ring :=
  { cfg := decide (w / 2 ^ 40 % 65536 ≠ 0), sz := w / 2 ^ 40 % 65536, ns := w / 2 ^ 32 % 256
    base := w % 2 ^ 22, free := if w / 2 ^ 40 % 65536 = 0 then 0 else w / 2 ^ 32 % 256 + 1 }

/-- Does a multicast copy of any core still have to post a slot of ring n of core k (R230)? -/
def multicastTo (s : State) (k n : Nat) : Bool :=
  s.cores.any fun e => e.1 / 192 == k / 192 && e.2.copies.any fun x =>
    let d := copyDesc x.2.desc
    x.2.op == 2 && d.rmode == 1 && d.ring == n && !x.2.delivered.contains k
      && d.targets.any fun t => physCore s (k / 192) (vfOfCore s e.1) t == some k

/-- Does a copy of core k itself produce into, or consume from, its ring n? -/
def copyServes (c : Core) (n rmode : Nat) : Bool :=
  c.copies.any fun e => let d := copyDesc e.2.desc
    !e.2.bySeq && d.ring == n && d.rmode == rmode && !(e.2.op == 2 && rmode == 1)

/-- Does a copy or a stream still use ring n of core k (R237)? -/
def ringInUse (s : State) (k n : Nat) : Bool :=
  let c := coreOf s k
  c.stream.any (fun e => e.2.bound && e.2.ring == n) || copyServes c n 1 || copyServes c n 2 || multicastTo s k n
    || !(ringOf c n).prod.isEmpty || !(ringOf c n).cons.isEmpty

/-- The offset of the field in which an `rgcfg` value for core k fails, or none (R237, R391). -/
def rgcfgFails (s : State) (k n w : Nat) : Option Nat :=
  let c := coreOf s k
  let r := ringConfig w
  let leaves := decide (2 ^ 21 < r.base % 2 ^ 21 + ringBytes r)
  let inStash := (stashRanges (stashUnits c).1 (stashUnits c).2).any fun x => rangesMeet x.1 x.2 r.base (ringBytes r)
  lowestOffset [(w / 2 ^ 60 != n, 7), (w / 2 ^ 56 % 16 != 0, 7), (w / 2 ^ 22 % 4 != 0, 2), (w / 2 ^ 24 % 256 != 0, 3),
    (r.base % 64 != 0, 0), (r.cfg && (leaves || inStash), 0), (ringInUse s k n, 7)]

/-- A binding pattern of 32 bytes (R240). -/
def patternOf (b : List Byte) (ring : Nat) : Stream :=
  { bound := true, ring := ring, o := numAt b 0 4
    counts := (List.range 4).map fun j => numAt b (4 + 2 * j) 2
    strides := (List.range 4).map fun j => signedOf 32 (numAt b (0xC + 4 * j) 4)
    dst := numAt b 0x1C 4 % 2 == 1 }

/-- The offset of the field in which a binding pattern fails, or none (R240, R391). -/
def sbindFails (c : Core) (ring : Nat) (b : List Byte) : Option Nat :=
  let t := patternOf b ring
  let r := ringOf c ring
  let reach := (List.range 4).map fun j => (((t.counts.getD j 0 : Int) - 1) * t.strides.getD j 0)
  let lo := (t.o : Int) + (reach.filter (fun x => decide (x < 0))).foldl (· + ·) 0
  let hi := (t.o : Int) + (reach.filter (fun x => decide (0 < x))).foldl (· + ·) 0 + 256
  lowestOffset ((List.range 4).map (fun j => (t.counts.getD j 0 == 0, 4 + 2 * j))
    ++ (List.range 4).map (fun j => (decide (1 < t.counts.getD j 0) && t.strides.getD j 0 % 64 != 0, 0xC + 4 * j))
    ++ [(t.o % 64 != 0, 0), (decide (lo < 0) || decide ((r.sz * 64 : Nat) < hi), 0), (!r.cfg, 0),
        (numAt b 0x1C 4 / 2 != 0, 0x1C)])

/-- Does a bound stream or a ring-bound copy serve a side of ring n of core k: its producers, or its consumers
(R389)? -/
def sideServed (s : State) (k n : Nat) (producer : Bool) : Bool :=
  let c := coreOf s k
  c.stream.any (fun e => e.2.bound && e.2.ring == n && e.2.dst == producer)
    || copyServes c n (if producer then 1 else 2) || (producer && multicastTo s k n)

/-- Cause 0x15 of a descriptor kind (R391). -/
def descStop (s : State) (kind offset : Nat) : Option Stop :=
  some { cause := 0x15, info := s.slot * 2 ^ 24 + kind * 2 ^ 16 + offset }

/-- Group 2 of R387: descriptors. -/
def descriptorStop (s : State) (i : Instr) : Option Stop :=
  match i with
  | .rgcfg f =>
    match rgcfgFails s s.core f.rg.toNat (sRead s f.sy.toNat).toNat with
    | some o => descStop s 4 o
    | none => none
  | .sbind f =>
    let a := (sRead s f.sy.toNat).toNat % 2 ^ 32
    match ownStop s i a 32 32 with
    | some _ => none
    | none =>
      match sbindFails (curCore s) f.rg.toNat ((curCore s).spm.readN (ownOffset a) 32) with
      | some o => descStop s 5 o
      | none => none
  | _ =>
    match copyOf s i with
    | none => none
    | some (op, f, b) =>
      match copyDescFails s s.core op (f.f == 1) b with
      | some o => descStop s 2 o
      | none => none

/-- The next transfer id of a channel (R234). -/
def nextId (c : Core) (ch : Nat) : Nat := if ch = 0 then c.nextId0 else c.nextId1
/-- `xdone0` or `xdone1` (R234). -/
def xdone (c : Core) (ch : Nat) : Nat := if ch = 0 then c.xdone0 else c.xdone1

/-- What the C0 operation of a bundle leaves less of ring n, in slots that its side may still take, and whether it comes to
serve that side itself. -/
def ringUse (s : State) (i : Instr) (n : Nat) (producer : Bool) : Nat × Bool :=
  match i with
  | .rgpost f => (if producer ∧ f.rg.toNat = n then (sRead s f.sy.toNat).toNat else 0, false)
  | .rgfree f => (if !producer ∧ f.rg.toNat = n then (sRead s f.sy.toNat).toNat else 0, false)
  | .sbind f =>
    let t := patternOf ((curCore s).spm.readN (ownOffset ((sRead s f.sy.toNat).toNat % 2 ^ 32)) 32) f.rg.toNat
    (0, t.ring == n && t.dst == producer)
  | _ =>
    match copyOf s i with
    | none => (0, false)
    | some (op, _, b) => (0, op != 2 && (copyDesc b).ring == n && (copyDesc b).rmode == if producer then 1 else 2)

/-- The checks of a C1 operation against what the C0 operation of its bundle does to the same ring or stream: C0 counts as the
earlier of the two (R238, R389; log entry 166). -/
def pairStop (s : State) (c0 i : Instr) : Option Stop :=
  let one := fun (n : Nat) (producer : Bool) (have_ want : Nat) =>
    let (used, served) := ringUse s c0 n producer
    stopIf (served || (used != 0 && decide (have_ < used + want))) (illegal s i 0)
  match i with
  | .rgpost f => one f.rg.toNat true (ringOf (curCore s) f.rg.toNat).free (sRead s f.sy.toNat).toNat
  | .rgfree f => one f.rg.toNat false (ringOf (curCore s) f.rg.toNat).filled (sRead s f.sy.toNat).toNat
  | .sbind f => match c0 with
    | .sbind g => stopIf (f.st == g.st) (illegal s i 0)
    | _ => none
  | _ => none

/-- The checks of a C-slot operation's operand values (R389). What becomes of an `sbind` to a side of a ring that another
stream or a copy serves already the manual does not say: DESIGN CHOICE, it is accepted (R240; log entry 167). -/
def cStop (s : State) (i : Instr) : Option Stop :=
  let c := curCore s
  match i with
  | .cdld f =>
    firstStop [stopIf (decide (8 ≤ f.cd.toNat)) (illegal s i 0),
      ownStop s i ((sRead s f.sy.toNat).toNat % 2 ^ 32) 64 64]
  | .cpw f => stopIf (decide (nextId c f.f.toNat ≤ (sRead s f.sy.toNat).toNat)) (illegal s i 0)
  | .rgcfg f =>
    let r := ringConfig (sRead s f.sy.toNat).toNat
    firstStop [stopIf (decide (8 ≤ f.rg.toNat)) (illegal s i 0),
      stopIf (r.cfg && !bankAllowed s s.core r.base) (violation s i 9 0)]
  | .rgpost f =>
    let r := ringOf c f.rg.toNat
    stopIf (decide (8 ≤ f.rg.toNat) || !r.cfg || decide (r.free < (sRead s f.sy.toNat).toNat)
      || sideServed s s.core f.rg.toNat true) (illegal s i 0)
  | .rgfree f =>
    let r := ringOf c f.rg.toNat
    stopIf (decide (8 ≤ f.rg.toNat) || !r.cfg || decide (r.filled < (sRead s f.sy.toNat).toNat)
      || sideServed s s.core f.rg.toNat false) (illegal s i 0)
  | .sbind f =>
    firstStop [ownStop s i ((sRead s f.sy.toNat).toNat % 2 ^ 32) 32 32,
      stopIf (streamOf c f.st.toNat).bound (illegal s i 0)]
  | _ =>
    match copyOf s i with
    | none => none
    | some (op, f, b) => copyStop s i op f b

/-- The check of an `mwr` source's alignment (R389). -/
def mStop (s : State) (i : Instr) : Option Stop :=
  match i with
  | .mwr f => stopIf ((sRead s f.sa.toNat).toNat % 8 != 0) (misalign s i 0)
  | _ => none

/-- Group 3 of R387 for one operation; `rd` and `wr` hold the streams of the slots before it (R86). -/
def operandStop (s : State) (i : Instr) (rd wr : List Nat) : Option Stop :=
  firstStop [sStop s i, streamStop s i rd wr, vAddrStop s i rd, mStop s i, cStop s i]

/-! ## Elements of remote-atomic entries (R201) -/

/-- The lanes that an entry's elements come from. -/
def elemLanes (x : AtomicEntry) : List Nat := if x.kind = 2 then selected x.mask else [0]

/-- Bytes of an element. -/
def elemBytes (x : AtomicEntry) : Nat := if x.kind = 2 then 4 else 2 ^ x.sz

/-- The address of element j. -/
def elemAddr (x : AtomicEntry) (j : Nat) : Tagged :=
  if x.kind = 2 then vamoAddr x.addr (lane x.vb ((elemLanes x).getD j 0)) else taggedOf x.addr

/-- The line of element j of an entry of core k: a scratchpad's core and line, or a physical line. -/
def elemLine (s : State) (k : Nat) (x : AtomicEntry) (j : Nat) : Option (Option Nat × Nat) :=
  match elemAddr x j with
  | .localAddr a => match resolveLocal s k a with
    | .ok (.spm i o) => some (some i, o / 128)
    | _ => none
  | .globalAddr va => match walkDevice s (vfOfCore s k) va with
    | .ok t => some (none, t.phys va / 128)
    | .bad _ => none
  | .malformed => none

/-- The elements of an entry that have not been sent. -/
def unsentElems (x : AtomicEntry) : List Nat := (List.range (elemLanes x).length).drop x.sent

/-- Does an atomic among the entries of some `ord` bytes of core k still have to apply to a line (R108)? -/
def atomicOnLine (s : State) (k : Nat) (l : List Nat) (line : Option (Option Nat × Nat)) : Bool :=
  let c := coreOf s k
  line.isSome && l.any fun o =>
    if 0x60 ≤ o ∧ o < 0x70 then
      match c.atomics.find? (o - 0x60) with
      | some y => (unsentElems y).any fun j => elemLine s k y j == line
      | none => false
    else if 0x20 ≤ o ∧ o < 0x60 then
      match c.loads.find? (o - 0x20) with
      | some y => y.kind == 2 && !y.applied && elemLine s k { addr := y.addr } 0 == line
      | none => false
    else false

/-- Does an atomic issued before the entry of an `ord` byte still have to apply to a line (R108)? -/
def earlierOnLine (s : State) (k o : Nat) (line : Option (Option Nat × Nat)) : Bool :=
  atomicOnLine s k ((coreOf s k).ord.takeWhile (· != o)) line

/-- Does element j of an entry lie in the own scratchpad, which belongs to class SW (R115, R201)? -/
def ownElem (s : State) (k : Nat) (x : AtomicEntry) (j : Nat) : Bool :=
  match elemAddr x j with
  | .localAddr a => match resolveLocal s k a with
    | .ok (.spm i _) => i == k
    | _ => false
  | _ => false

/-- The elements of an entry that have not been acknowledged. -/
def pendingElems (x : AtomicEntry) : List Nat := (List.range (elemLanes x).length).drop x.first

/-! ## Stalls (R86) -/

/-- Remote-atomic entries free (R337). -/
def atomicsFree (c : Core) : Nat := 16 - c.atomics.length
/-- Load entries free. -/
def loadsFree (c : Core) : Nat := 64 - c.loads.length
/-- Barrier-arrival entries free. -/
def barriersFree (c : Core) : Nat := 8 - c.barriers.length

/-- Commands that still wait in the queue of the matrix unit (R208). Whether a command that has started still takes one of
the 16 entries the rule does not say: DESIGN CHOICE, it does not (log entry 40). -/
def queuedCommands (c : Core) : Nat := (c.mqueue.filter fun m => m.run.isNone).length

/-- Scales present in the queue, and scales reserved (R220). -/
def scalesPresent (c : Core) : Nat := (c.sq.filter fun i => match i with
  | .scale _ | .bad _ => true
  | .hole _ _ _ _ => false).length
/-- Scales that outstanding `sqfill` operations have reserved. -/
def scalesReserved (c : Core) : Nat := c.sq.foldl (fun a i => match i with
  | .scale _ | .bad _ => a
  | .hole _ _ n _ => a + n) 0

/-- Has every earlier operation of the classes of a `sync` mask performed (R115, R170)? Elements of a `vamo` on the own
scratchpad are slot writes (R201). Classes C0 and C1 take in the copies of the C slots; whether they take in those of the
core's sequencer, which names no channel to software, R170 does not say: DESIGN CHOICE, they do not (log entry 139). -/
def syncDone (s : State) (mask : BitVec 12) : Bool :=
  let c := curCore s
  let elems := fun (own : Bool) => c.atomics.any fun e => (pendingElems e.2).any fun j => ownElem s s.core e.2 j == own
  let sw := c.recent.all (fun r => decide (r.2.2 + 4 ≤ c.clk)) && !elems true
  let gm := c.loads.isEmpty && !elems false
  let copies := fun ch => !c.copies.any (fun e => e.2.channel == ch && !e.2.bySeq)
  (!mask.getLsbD 1 || sw) && (!mask.getLsbD 2 || gm) && (!mask.getLsbD 3 || copies 0) && (!mask.getLsbD 4 || copies 1)

/-- The conditions that hold one operation at issue, other than streams, copies and in-flight entries, which
are counted over the bundle. -/
def slotStalls (s : State) (i : Instr) : Bool :=
  let c := curCore s
  match i with
  | .sync m => !syncDone s m
  | .sleep sa => decide (s.nstime.toNat < (sRead s sa.toNat).toNat)
  | .sqld f => scalesReserved c != 0 || decide (64 < scalesPresent c + sizeOf2 f.sz)
  | .mwait _ => !c.mqueue.isEmpty
  | .mrsum _ => decide (16 ≤ queuedCommands c) || c.mqueue.any (fun m => m.op == 1)
  | .mcall _ | .mpset _ | .mzero _ | .mdrain _ | .mmode _ | .mgsel _ | .mwr _ => decide (16 ≤ queuedCommands c)
  | .cpw f =>
    let y := (sRead s f.sy.toNat).toNat
    decide (y < nextId c f.f.toNat) && decide (xdone c f.f.toNat ≤ y)
  | _ => false

/-- Operations of the bundle that are copies. -/
def isCopy (i : Instr) : Bool :=
  match i with
  | .cp _ | .cpm _ | .cpg _ | .cps _ | .cpa _ | .sqfill _ => true
  | _ => false

/-- Scales that an `sqfill` reserves. -/
def fillCount (s : State) (i : Instr) : Nat :=
  match i with
  | .sqfill f => (copyDesc (cdOf s f.cd.toNat)).count
  | _ => 0

/-- Scales that an `sqld` puts into the queue. -/
def loadCount (i : Instr) : Nat :=
  match i with
  | .sqld f => sizeOf2 f.sz
  | _ => 0

/-- Is an operation a `vamo`? -/
def isVamo (i : Instr) : Bool :=
  match i with
  | .vamo _ => true
  | _ => false

/-- Does a stall condition of R86 hold for a list of operations, in the order in which they pop streams? A
stream that its check refuses stalls nothing. -/
def stalls (s : State) (ops : List Instr) : Bool :=
  let c := curCore s
  let rd := ops.flatMap streamsRead
  let wr := ops.flatMap streamsWritten
  let bad := rd.any (fun k => !streamUsable c k false 0 (countOf k rd)) || wr.any (fun k => !streamUsable c k true 0 (countOf k wr))
  let streams := rd.any (fun k => decide (streamAvail c k < countOf k rd) || decide (c.clk < (streamOf c k).usableAt))
    || wr.any (fun k => decide (streamRoom c k < countOf k wr) || decide (c.clk < (streamOf c k).usableAt))
  let copies := (ops.filter isCopy).length
  let fills := (ops.map (fillCount s)).foldl (· + ·) 0
  let vamos := (ops.filter isVamo).length
  (!bad && streams) || ops.any (slotStalls s)
    || (decide (0 < copies) && decide (32 < c.copies.length + copies))
    || (decide (0 < fills) && decide (64 < scalesPresent c + scalesReserved c + (ops.map loadCount).foldl (· + ·) 0 + fills))
    || (decide (0 < vamos) && decide (atomicsFree c < vamos))

/-! ## In-flight entries (R336, R337) -/

/-- The lowest number below n at which a table holds nothing. -/
def freeIndex {α : Type} (m : FMap α) (n : Nat) : Option Nat := (List.range n).find? fun i => (m.find? i).isNone

/-- Order bytes of the in-flight record (R336). -/
def ordCopy (e : Nat) : Nat := e
/-- The order byte of load entry e. -/
def ordLoad (e : Nat) : Nat := 0x20 + e
/-- The order byte of remote-atomic entry e. -/
def ordAtomic (e : Nat) : Nat := 0x60 + e
/-- The order byte of barrier entry e. -/
def ordBarrier (e : Nat) : Nat := 0x70 + e

/-- A load entry taken. -/
def takeLoad (s : State) (k : Nat) (x : LoadEntry) : Option (Nat × State) :=
  (freeIndex (coreOf s k).loads 64).map fun e =>
    (e, modCore s k fun c => { c with loads := c.loads.insert e x, ord := c.ord ++ [ordLoad e] })

/-- A remote-atomic entry taken, with its sequence numbers reserved: `n` elements (R339). -/
def takeAtomic (s : State) (k n : Nat) (x : AtomicEntry) : Option (Nat × State) :=
  (freeIndex (coreOf s k).atomics 16).map fun e =>
    (e, modCore s k fun c => { c with
      atomics := c.atomics.insert e { x with seq0 := c.tagSeq }, ord := c.ord ++ [ordAtomic e]
      tagSeq := (c.tagSeq + n) % 2 ^ 40 })

/-- A barrier-arrival entry taken for an arrival on gang g by an operation (0 `gbar`, 1 `garr`, 2 `phase`,
3 `gleave`). -/
def takeBarrier (s : State) (k g op : Nat) : Option (Nat × State) :=
  let ep := (gangOf s (k / 192) g).episode
  (freeIndex (coreOf s k).barriers 8).map fun e =>
    (e, modCore s k fun c => { c with
      barriers := c.barriers.insert e { gang := g, op := op, seq := c.tagSeq, episode := ep }
      ord := c.ord ++ [ordBarrier e], tagSeq := (c.tagSeq + 1) % 2 ^ 40 })

/-- The entry of an `ord` byte is no longer in the record, nor in a replay. -/
def leaveRecord (c : Core) (o : Nat) : Core :=
  { c with
    ord := c.ord.filter (· != o), replay := c.replay.filter (· != o), replayed := c.replayed.filter (· != o) }
/-- An entry that has been served leaves the in-flight record. -/
def dropLoad (c : Core) (e : Nat) : Core := leaveRecord { c with loads := c.loads.erase e } (ordLoad e)
/-- A remote-atomic entry leaves the record. -/
def dropAtomic (c : Core) (e : Nat) : Core := leaveRecord { c with atomics := c.atomics.erase e } (ordAtomic e)
/-- The entries of the interlocked atomic of a bundle that is done with leave the record with it: until then they hold its
result (R337). -/
def dropDelivered (c : Core) : Core :=
  let c := (c.loads.filter fun e => e.2.kind == 2 && e.2.interlocked && e.2.applied).foldl (fun c e => dropLoad c e.1) c
  (c.atomics.filter fun e => e.2.kind != 2 && e.2.interlocked && e.2.first != 0).foldl (fun c e => dropAtomic c e.1) c
/-- A barrier entry leaves the record. -/
def dropBarrier (c : Core) (e : Nat) : Core := leaveRecord { c with barriers := c.barriers.erase e } (ordBarrier e)

/-! ## Replay (R342, R406) -/

/-- A core begins its pass over the valid entries of its in-flight record, in ord order: requests sent and not
acknowledged go out again, what faulted or waited for a translation starts over, and a copy writes again what it had written
beyond `done`, a `cpm` at every target but those whose ring slot it has posted (R407). -/
def beginReplay (c : Core) : Core :=
  let todo := c.ord.filter fun o => match c.barriers.find? (o - 0x70) with
    | some b => decide (o < 0x70) || !b.acked
    | none => true
  { c with
    copies := c.copies.map fun e => (e.1, { e.2 with
      faulted := false, early := [], raced := [], delivered := if (copyDesc e.2.desc).rmode = 1 then e.2.delivered else [] })
    loads := c.loads.map fun e => (e.1, { e.2 with faulted := false })
    atomics := c.atomics.map fun e => (e.1, { e.2 with faulted := false, resend := e.2.sent, sent := e.2.first })
    treq := [], fetched := none, replay := todo, replayed := todo }

/-- May the entry of an `ord` byte act: every entry before it in the pass has been reissued? -/
def replayTurn (c : Core) (o : Nat) : Bool :=
  match c.replay with
  | [] => true
  | h :: _ => h == o || !c.replay.contains o

/-- The entry of an `ord` byte has been reissued. -/
def reissued (c : Core) (o : Nat) : Core := { c with replay := c.replay.filter (· != o) }

/-- The control cores of a context and their Vale's cores: the context runs once its cores' replay has been
issued, and a launch that waited for it may begin (R326, R329, R342). -/
def replayDone (s : State) (vf vale : Nat) : State :=
  let x := ctxOf s vf vale
  if x.status ≠ .binding ∨ ((s.cores.filter fun e => e.1 / 192 == vale && vfOfCore s e.1 == vf).any fun e => !e.2.replay.isEmpty)
  then s
  else
    let s := setCtx s vf vale { x with status := .running }
    let s := { s with ctls := s.ctls.map fun e =>
        (e.1, if e.1 / 8 = vale ∧ vfOfCtl s e.1 = vf ∧ e.2.status = .frozen then { e.2 with status := e.2.was } else e.2) }
    beginPending (schedTrace s vf vale 0x0104 x.replayed) vf

/-- The entry of an `ord` byte of core k is reissued now, where its turn has come. -/
def reissue (s : State) (k o : Nat) : Option State :=
  let c := coreOf s k
  if replayTurn c o then
    if c.replay.isEmpty then some s
    else
      let s := setCore s k (reissued c o)
      some (if (coreOf s k).replay.isEmpty then replayDone s (vfOfCore s k) (k / 192) else s)
  else none

/-! ## What holds the S slot at issue (R86, R140, R167, R171) -/

/-- What the first clk at issue makes of a bundle: it may issue, it is held, or its core stops. -/
inductive Hold where
  | go (s : State)
  | wait (s : State)
  | stop (x : Stop) (s : State)

/-- Does a slot's line hold a poisoned word at an access (R405)? -/
def slotPoisoned (c : Core) (i va n : Nat) : Bool := c.spm.poisoned (stashOffset c i + va % 128) n

/-- Clean lines with poisoned words leave the stash at the stop of core k, and with them their ownership (R405). -/
def dropPoisonedLines (s : State) (k : Nat) : State :=
  let gone := fun (c : Core) (e : Nat × StashSlot) => e.2.dirty == 0 && c.spm.poisoned (stashOffset c e.1) 128
  let s := ((coreOf s k).stash.filter fun e => gone (coreOf s k) e && e.2.owned).foldl (fun st e => recallLine st (e.2.pa / 128)) s
  modCore s k fun c => { c with stash := c.stash.filter fun e => !gone c e }

/-- The load entry outstanding for a line. -/
def lineFill (c : Core) (va : Nat) : Option Nat :=
  (List.find? (fun e : Nat × LoadEntry => e.2.kind != 2 && e.2.addr.toNat / 128 == va / 128) c.loads).map (·.1)

/-- `ldg` and `stg`: a hit goes on, a miss waits for the line's fill (R158, R400, R405). -/
def holdStash (s : State) (va n : Nat) (isStore : Bool) : Hold :=
  let c := curCore s
  let access := if isStore then 1 else 0
  if 2 ^ 56 ≤ va then
    match takeLoad s s.core { addr := BitVec.ofNat 64 va, kind := 0, write := isStore, faulted := true } with
    | some (e, s') => .stop (findingStop s' { cause := 0x10, reason := 1 } va access (ordLoad e)) s'
    | none => .wait s
  else match stashFind c va with
    | some (i, sl) =>
      if isStore && !sl.w then .stop (findingStop s { cause := 0x10, reason := 4 } va 1 0xFF) s
      else if !isStore && slotPoisoned c i va n then
        .stop (findingStop s { cause := 3 } va 0 0xFF) (dropPoisonedLines s s.core)
      else .go s
    | none =>
      match lineFill c va with
      | some _ => .wait s
      | none =>
        match takeLoad s s.core { addr := BitVec.ofNat 64 va, kind := 0, write := isStore } with
        | some (e, s') => .wait (modCore s' s.core fun c => { c with held := { c.held with fill := some e } })
        | none => .wait s

/-- Where a scalar atomic goes (R108). -/
inductive Home where
  /-- the own scratchpad -/
  | own (o : Nat)
  /-- another core's scratchpad -/
  | remote
  /-- a global line homed in the own Vale -/
  | vale
  /-- a global line homed elsewhere -/
  | other
  /-- its translation ends in a finding -/
  | bad (f : Finding) (va : Nat)
deriving DecidableEq, Repr

/-- Where an atomic of core k goes, its line translated (R108, R398). -/
def homeOf (s : State) (k : Nat) (t : Tagged) : Home × State :=
  match t with
  | .malformed => (.remote, s)
  | .localAddr a =>
    match resolveLocal s k a with
    | .ok (.spm j o) => (if j = k then .own o else .remote, s)
    | _ => (.remote, s)
  | .globalAddr va =>
    match translate s k (vfOfCore s k) va 2 with
    | (.error f, s') => (.bad f va, s')
    | (.ok pa, s') => (if homeVale pa = some (k / 192) then .vale else .other, s')

/-- Is a page that can be read homed in the Vale of the selected core? A leaf refused for w = 0 still names the
home, and with it the entry that the atomic takes (R398, R403). -/
def ownHomed (s : State) (va : Nat) : Bool :=
  match translate s s.core (vfOfCore s s.core) va 0 with
  | (.ok pa, _) => decide (homeVale pa = some (s.core / 192))
  | _ => false

/-- The atomic operations of R128 on words of n bytes: add, and, or, xor, min, max, minu, maxu, swap. -/
def amoOp (aop n old v : Nat) : Nat :=
  let m := 2 ^ (8 * n)
  let sg := fun x => signedOf (8 * n) x
  (match aop with
   | 0 => old + v
   | 1 => (BitVec.ofNat 64 old &&& BitVec.ofNat 64 v).toNat
   | 2 => (BitVec.ofNat 64 old ||| BitVec.ofNat 64 v).toNat
   | 3 => (BitVec.ofNat 64 old ^^^ BitVec.ofNat 64 v).toNat
   | 4 => if sg (old % m) ≤ sg (v % m) then old else v
   | 5 => if sg (v % m) ≤ sg (old % m) then old else v
   | 6 => Nat.min (old % m) (v % m)
   | 7 => Nat.max (old % m) (v % m)
   | _ => v) % m

/-- What a scalar atomic leaves in the word: the new value (R161). -/
def atomicNew (cas : Bool) (aop n old operand expected : Nat) : Nat :=
  let m := 2 ^ (8 * n)
  if cas then (if old % m = expected % m then operand % m else old % m) else amoOp aop n old operand

/-- The own-scratchpad word updated by its atomic port (R108); the old value. -/
def ownAtomic (s : State) (o n : Nat) (cas : Bool) (aop operand expected : Nat) : Nat × State :=
  let old := leNat ((curCore s).spm.readN o n)
  (old, spmWrite s s.core o (leBytes n (atomicNew cas aop n old operand expected)))

/-- Does the translation of a tagged address wait for parked writes (R120)? -/
def taggedHeld (s : State) (t : Tagged) : Bool :=
  match t with
  | .globalAddr va => translateHeld s s.core (vfOfCore s s.core) va
  | _ => false

/-- Would an atomic of core k be executed in a stash slot that is recorded with w = 0, so that it does not issue (R400)? -/
def slotRefuses (s : State) (k : Nat) (t : Tagged) : Bool :=
  match t with
  | .globalAddr va => match stashFind (coreOf s k) va with
    | some (_, sl) => !sl.w && homeVale sl.pa == some (k / 192)
    | none => false
  | _ => false

/-- `amo` and `cas` at issue: interlocked with a destination, else posted (R140, R401). `vamos` counts the
`vamo` operations of the bundle, which need entries of their own. -/
def holdAtomic (s : State) (vamos : Nat) (f : SA) (cas : Bool) : Hold :=
  let c := curCore s
  let posted := f.sd == 0
  let n := sizeOf2 f.sz
  let expected := sRead s f.sd.toNat
  let operand := sRead s f.sb.toNat
  let addr := sRead s f.sa.toNat
  if c.held.atomicResult.isSome then .go s
  else if c.held.atomicSent ∨ taggedHeld s (taggedOf addr) then .wait s
  else if slotRefuses s s.core (taggedOf addr) then
    .stop (findingStop s { cause := 0x10, reason := 4 } addr.toNat 2 0xFF) s
  else
    let x : AtomicEntry :=
      { addr := addr, kind := if cas then 1 else 0, interlocked := !posted, sz := f.sz.toNat, aop := f.aop.toNat
        sd := f.sd.toNat, operand := if cas then expected else operand, newv := if cas then operand else 0 }
    let y : LoadEntry :=
      { addr := addr, kind := 2, interlocked := !posted, sz := f.sz.toNat, aop := f.aop.toNat, cas := cas
        sd := f.sd.toNat, operand := operand, expected := if cas then expected else 0 }
    let sent := fun (st : State) => modCore st st.core fun c => { c with held := { c.held with atomicSent := true } }
    let remote := fun (st : State) (x : AtomicEntry) =>
      if atomicsFree (curCore st) ≤ vamos then Hold.wait st
      else match takeAtomic st st.core 1 x with
        | none => .wait st
        | some (_, st') => if posted then .go st' else .wait (sent st')
    match homeOf s s.core (taggedOf addr) with
    | (.own o, s) =>
      if atomicOnLine s s.core (curCore s).ord (some (some s.core, o / 128)) then .wait s
      else if (curCore s).spm.poisoned o n then .stop (findingStop s { cause := 3 } 0 2 0xFF) s
      else
        let (old, s) := ownAtomic s o n cas f.aop.toNat operand.toNat expected.toNat
        .go (modCore s s.core fun c => { c with held := { c.held with atomicResult := some (extend (n == 4) n old) } })
    | (.remote, s) => remote s x
    | (.other, s) => remote s x
    | (.vale, s) =>
      match takeLoad s s.core y with
      | none => .wait s
      | some (_, s') => if posted then .go s' else .wait (sent s')
    | (.bad fd va, s) =>
      if fd.reason = 4 ∧ ownHomed s va then
        match takeLoad s s.core { y with faulted := !posted } with
        | none => .wait s
        | some (e, s') => if posted then .go s' else .stop (findingStop s' fd va 2 (ordLoad e)) (sent s')
      else if atomicsFree (curCore s) ≤ vamos then .wait s
      else match takeAtomic s s.core 1 { x with faulted := !posted } with
        | none => .wait s
        | some (e, s') =>
          if posted then .go s'
          else .stop (findingStop s' fd va 2 (ordAtomic e)) (sent s')

/-- An arrival on a gang: the barrier unit sees it in its own event (R167, R169). The place of a `gleave` among the
issue checks of the gang is its issue (R75). -/
def holdArrive (s : State) (g op : Nat) : Hold :=
  let c := curCore s
  let v := s.core / 192
  match c.held.arrival with
  | some _ => .go s
  | none =>
    if barriersFree c = 0 then .wait s
    else match takeBarrier s s.core g op with
      | none => .wait s
      | some (_, s') =>
        let x := gangOf s' v g
        let s' := if op = 3 then setGang s' v g { x with leavers := x.leavers ++ [logicalCore s s.core] } else s'
        .go (modCore s' s.core fun c => { c with
          held := { c.held with arrival := some (g, (gangOf s v g).episode) } })

/-- Does the episode of core k's latest arrival on gang g still run: its entry is in the record, or the episode has
completed and its commit goes on or is still to come (R167, R169)? -/
def arrivalPending (s : State) (k g : Nat) : Bool :=
  let c := coreOf s k
  let x := gangOf s (k / 192) g
  let n := c.lastArrival.get 0 g
  c.barriers.any (fun e => e.2.gang == g) || (x.committing.isSome && n == x.commitEp) || x.commits.any (fun e => e.1 == n)

/-- `gbar` and `phase`: the arrival, then the episode's completion and commit. -/
def holdBarrier (s : State) (g op : Nat) : Hold :=
  match holdArrive s g op with
  | .go s' => if arrivalPending s' s'.core g then .wait s' else .go s'
  | x => x

/-- `gjoin`: at once where nobody has arrived, else after the episode (R75). Whether a core that has executed `gleave`
is still a member until the episode completes the rule does not say: DESIGN CHOICE, it is, so that its `gjoin` issues
with no effect and is lost (log entry 140). -/
def holdJoin (s : State) (g : Nat) : Hold :=
  let v := s.core / 192
  let x := gangOf s v g
  let n := logicalCore s s.core
  if gangMember s s.core g then .go s
  else if x.arrived.isEmpty then
    .go (modCore (setGang s v g { x with members := insertRising n x.members, joiners := x.joiners.filter (· != n) })
      s.core fun c => { c with lastArrival := c.lastArrival.erase g })
  else .wait (setGang s v g { x with joiners := if x.joiners.contains n then x.joiners else x.joiners ++ [n] })

/-- The line that a `waita` watches: the scratchpad's key and line, or the physical line (R171). -/
def watchLine (s : State) (t : Tagged) : Except (Finding × Nat) (Option Nat × Nat × Nat) × State :=
  match t with
  | .localAddr a =>
    match resolveLocal s s.core a with
    | .ok (.spm j o) => (.ok (some j, o / 128, 0), s)
    | .ok (.spill o) => (.ok (some (4096 + s.core), o / 128, 0), s)
    | .error _ => (.ok (none, 0, 0), s)
  | .globalAddr va =>
    match translate s s.core (vfOfCore s s.core) va 0 with
    | (.error f, s') => (.error (f, va), s')
    | (.ok pa, s') => (.ok (none, pa / 128, va), s')
  | .malformed => (.ok (none, 0, 0), s)

/-- Is an entry armed or fired on this line (R171, R288)? DESIGN CHOICE (log entry 155): lines of global memory are compared
by their physical address, which after a page migration may differ from the one that an entry was armed on. -/
def watches (m : Monitor) (scratch : Option Nat) (line : Nat) : Bool :=
  match m with
  | .armed sc l _ _ => sc == scratch && l == line
  | .fired _ sc l _ => sc == scratch && l == line
  | .free => false

/-- The lowest fired entry of a monitor table of n entries, with its cause. -/
def firedEntry (m : FMap Monitor) (n : Nat) : Option (Nat × Nat) :=
  (List.range n).findSome? fun i => match m.get .free i with
    | .fired c _ _ _ => some (i, c)
    | _ => none

/-- Is any entry armed? -/
def anyArmed (m : FMap Monitor) : Bool := m.any fun e => match e.2 with
  | .armed _ _ _ _ => true
  | _ => false

/-- Is a monitor entry free? -/
def monitorFree (m : FMap Monitor) (n : Nat) : Option Nat := (List.range n).find? fun i => m.get .free i = .free

/-- `waita` at issue: arms its line once, then waits for a fired entry. The status is left in the held
bundle's result (R171). -/
def holdWaita (s : State) (sd sa : BitVec 6) : Hold :=
  let result := fun (st : State) (v : Nat) =>
    Hold.go (modCore st st.core fun c => { c with held := { c.held with atomicResult := some (BitVec.ofNat 64 v) } })
  let waitFor := fun (st : State) =>
    let c := curCore st
    if sd = 0 then Hold.go st
    else match firedEntry c.monitors 4 with
      | some (e, cause) =>
        result (modCore st st.core fun c => { c with monitors := c.monitors.erase e }) (e * 256 + cause)
      | none => if anyArmed c.monitors then .wait st else result st 0xFE
  let armed := fun (st : State) => modCore st st.core fun c => { c with held := { c.held with armed := true } }
  if (curCore s).held.atomicResult.isSome then .go s
  else if sa = 0 ∨ (curCore s).held.armed then waitFor s
  else if taggedHeld s (taggedOf (sRead s sa.toNat)) then .wait s
  else match watchLine s (taggedOf (sRead s sa.toNat)) with
    | (.error (f, va), s') => .stop { cause := f.cause, addr := va, info := info399 f 0 6 0xFF 0 } s'
    | (.ok (sc, line, va), s') =>
      let c := curCore s'
      if c.monitors.any (fun e => watches e.2 sc line) then waitFor (armed s')
      else match monitorFree c.monitors 4 with
        | none => if sd = 0 then .go s' else result s' 0xFF
        | some e =>
          waitFor (armed (modCore s' s'.core fun c => { c with
            monitors := c.monitors.put .free e (.armed sc line va c.monClock), monClock := c.monClock + 1 }))

/-- What the S slot's operation does in the first clk at issue, and whether it holds the bundle. -/
def holdSlot (s : State) (i : Instr) (vamos : Nat) : Hold :=
  match i with
  | .ldg f => holdStash s (smAddr s f).toNat (sizeOf2 f.sz) false
  | .stg f => holdStash s (smAddr s f).toNat (sizeOf2 f.sz) true
  | .amo f => holdAtomic s vamos f false
  | .cas f => holdAtomic s vamos f true
  | .gjoin g => holdJoin s g.toNat
  | .gleave g => holdArrive s g.toNat 3
  | .gbar g => holdBarrier s g.toNat 0
  | .garr g => holdArrive s g.toNat 1
  | .gwait g => if arrivalPending s s.core g.toNat then .wait s else .go s
  | .phase g => holdBarrier s g.toNat 2
  | .waita sd sa => holdWaita s sd sa
  | _ => .go s

/-! ## Issue of one operation -/

/-- The stores of the issuing bundle performed, in order (R115, R182). -/
def flushStores (s : State) : State :=
  let c := curCore s
  let s := setCore s s.core { c with stores := [] }
  c.stores.foldl (fun st x => match x with
    | (none, o, bs) => locWrite st st.core (.spill o) bs
    | (some j, o, bs) => locWrite st st.core (.spm j o) bs) s

/-- A store that the issuing bundle will perform after its reads. -/
def postStore (s : State) (l : Loc) (bs : List Byte) : State :=
  modCore s s.core fun c => { c with stores := c.stores ++ [match l with
    | .spill o => (none, o, bs)
    | .spm j o => (some j, o, bs)] }

/-- A core that exceeds its buffered stores ends the launch with cause 0x14 (R106, R373). -/
def overflowCheck (s : State) : State :=
  let c := curCore s
  if overflowed c then stopFatal s s.core 0x14 c.pc.toNat 0 0 0 else s

/-- The rank of a stop at issue: that of the in-flight entry which its info names, else of a fault of the bundle (R387, R399,
R402). -/
def stopRank (s : State) (x : Stop) : Nat :=
  let o := x.info / 2 ^ 32 % 256
  if x.entry ∧ (curCore s).ord.contains o then entryRank s s.core o else 0

/-- The core stops on a check of a bundle (R386, R401): the bundle does not issue. -/
def stopIssue (s : State) (x : Stop) : State := stopCore s s.core x.cause (curCore s).pc.toNat x.addr x.info (stopRank s x)

/-- One slot operation issued in the current core and slot, by itself: its decode checks, its descriptor, its
stalls, its operand values, what holds it, and its effect, whose stores follow its reads. An operation that
stalls or is held has no effect in this clk. -/
def issueSlot (i : Instr) (eff : State → State) (s : State) : Host.Outcome State Fault Refusal :=
  let s := bump s
  let r := slotReason i
  if r ≠ 0 then .next (stopIssue s { cause := 0x11, info := info386 r (opcodeOf i) s.slot 0 })
  else match descriptorStop s i with
    | some x => .next (stopIssue s x)
    | none =>
      if stalls s [i] then .next s
      else match operandStop s i [] [] with
        | some x => .next (stopIssue s x)
        | none =>
          match holdSlot s i 0 with
          | .wait s' => .next s'
          | .stop x s' => .next (stopIssue s' x)
          | .go s' => .next (overflowCheck (flushStores (modCore (eff s') s'.core fun c => dropDelivered { c with held := {} })))

end Sys2Proof.Machine
end

