-- ==== Sys2Proof/Machine/Boundary.lean ====
section
/-! DEFINITION. Duplicate-suppression tags (R339), barrier episodes of gangs and phase boundaries: arrivals, the
commit of buffered stores in ascending logical index, and what a boundary leaves (R75, R110, R167 to R169, R408). -/

namespace Sys2Proof.Machine

open Sys2Proof

/-! ## Tags (R339) -/

/-- The Vale index of a context within its virtual function: the Vales below it that hold slices of it. -/
def valeIndex (s : State) (vf vale : Nat) : Nat :=
  ((List.range vale).filter fun v =>
    (List.range 8).any fun i => (placeEntry (placeMap s v vf).active (192 + i)).isSome).length

/-- The source of a core's tags: containment ID and logical source. -/
def coreSource (s : State) (k : Nat) : Nat :=
  let vf := vfOfCore s k
  4096 * cidOfSlice s (sliceOfCore k) + 256 * valeIndex s vf (k / 192) + logicalCore s k

/-- The source of a control core's tags. -/
def ctlSource (s : State) (k : Nat) : Nat := 4096 * cidOfSlice s k + 0xE00 + logicalSlice s k

/-- A tag store without a source's tags beyond the n newest. -/
def dropOldTags {α : Type} (src n : Nat) : List (Nat × α) → List (Nat × α)
  | [] => []
  | e :: rest =>
    if e.1 = src then (if n = 0 then dropOldTags src 0 rest else e :: dropOldTags src (n - 1) rest)
    else e :: dropOldTags src n rest

/-- A tag stored, newest first: an agent keeps the last 16 of each source. -/
def storeTag {α : Type} (l : List (Nat × α)) (src : Nat) (x : α) : List (Nat × α) := (src, x) :: dropOldTags src 15 l

/-- The stored result of a tag. -/
def tagResult (l : List (Nat × Nat × Word)) (src seq : Nat) : Option Word :=
  (l.find? fun e => e.1 == src && e.2.1 == seq).map (·.2.2)

/-- The result of a tag, whichever target agent stores it. -/
def tagAnywhere (s : State) (src seq : Nat) : Option Word :=
  match tagResult s.io.tags src seq with
  | some r => some r
  | none =>
    match s.vales.findSome? (fun e => tagResult e.2.cacheTags src seq) with
    | some r => some r
    | none => s.cores.findSome? fun e => tagResult e.2.portTags src seq

/-! ## The commit of buffered stores (R110) -/

/-- Consecutive entries of a sorted byte map put together while `same` holds of neighbours. -/
def groupBytes (same : Nat → Nat → Bool) : FMap Byte → List (FMap Byte)
  | [] => []
  | e :: rest =>
    match groupBytes same rest with
    | (f :: g) :: gs => if same e.1 f.1 then (e :: f :: g) :: gs else [e] :: (f :: g) :: gs
    | gs => [e] :: gs

/-- The buffered bytes of a core for global memory: its stash's dirty bytes and its pending entries, by
physical address (R106, R400). -/
def bufferedGlobal (c : Core) : FMap Byte :=
  c.stash.foldl (fun m e => (slotDirty c e.1 e.2).foldl (fun m b => FMap.insert m b.1 b.2) m) c.pend

/-- The physical words whose buffered bytes are poisoned (R408). -/
def bufferedPoison (c : Core) : List Nat :=
  c.stash.foldl (fun l e => (slotDirtyPoison c e.1 e.2).foldl (fun l w => insertRising w l) l) c.pendPoison

/-- The 32-byte granules that a core's buffered stores fill, other cores' scratchpads first: whether a granule
is in a scratchpad, and its bytes. -/
def commitGranules (c : Core) : List (Bool × FMap Byte) :=
  (groupBytes (fun a b => a / 32 == b / 32) c.sbuf).map (fun g => (true, g))
    ++ (groupBytes (fun a b => a / 32 == b / 32) (bufferedGlobal c)).map fun g => (false, g)

/-- One granule performed at module scope. Its poison moves with it. -/
def commitGranule (s : State) (poison : List Nat) (g : Bool × FMap Byte) : State :=
  (groupBytes (fun a b => a + 1 == b) g.2).foldl (fun st run =>
    match run with
    | [] => st
    | (a, _) :: _ =>
      let bytes := run.map (·.2)
      if g.1 then spmWrite st (a / 2 ^ 22) (a % 2 ^ 22) bytes
      else
        let st := lineWrite st a bytes
        physPoison st (poison.filter fun w => decide (8 * w < a + bytes.length ∧ a < 8 * w + 8))) s

/-- The energy of a committed granule: of the target's port, or of the access to its line (R346). -/
def chargeGranule (s : State) (k : Nat) (g : Bool × FMap Byte) : State :=
  match g.2 with
  | [] => s
  | (a, _) :: _ =>
    if g.1 then charge s (.core (a / 2 ^ 22)) (vfOfCore s k) (cidOfSlice s (sliceOfCore k)) else chargeCoreAccess s k a

/-- A dirty mask of the line at pa without the bytes of some granules. -/
def cleanMask (gs : List Nat) (pa : Nat) (dirty : BitVec 128) : BitVec 128 :=
  (List.range 4).foldl (fun d j => if gs.contains (pa / 32 + j) then d &&& ~~~(BitVec.ofNat 128 ((2 ^ 32 - 1) * 2 ^ (32 * j))) else d) dirty

/-- A core whose buffers no longer hold the granules that have performed, those of scratchpads and those of global memory. -/
def dropGranules (c : Core) (spm glob : List Nat) : Core :=
  { c with
    stash := c.stash.map fun e => (e.1, { e.2 with dirty := cleanMask glob e.2.pa e.2.dirty })
    sbuf := c.sbuf.filter fun e => !spm.contains (e.1 / 32)
    pend := c.pend.filter fun e => !glob.contains (e.1 / 32)
    pendPoison := c.pendPoison.filter fun w => !glob.contains (w / 4) }

/-- The number of a granule. -/
def granuleNo (g : Bool × FMap Byte) : Nat := ((g.2.map (·.1)).headD 0) / 32

/-- The first n granules of a core performed, and no longer buffered: a store that the member makes later to one of them is
buffered anew. A save that a freeze makes meanwhile holds the granules from `cgr` on (log entry 163). -/
def commitSome (s : State) (k n : Nat) : State :=
  let c := coreOf s k
  let l := (commitGranules c).take n
  let s := l.foldl (fun st g => chargeGranule (commitGranule st (bufferedPoison c) g) k g) s
  modCore s k fun c => dropGranules c ((l.filter (·.1)).map granuleNo) ((l.filter fun g => !g.1).map granuleNo)

/-- The buffered stores of a core committed as one unit. Whether stores belong to it that a member which came by `garr` or
`gleave` makes after its arrival the rule does not say: DESIGN CHOICE, those do that are buffered when its turn comes
(log entry 163). -/
def commitCore (s : State) (k : Nat) : State := commitSome s k (commitGranules (coreOf s k)).length

/-- Does a line that a core has still to commit find no room for parking (R409)? -/
def commitBlocked (s : State) (k : Nat) : Bool :=
  (bufferedGlobal (coreOf s k)).any fun e => parkFull s e.1

/-- The stores of a set of cores committed in the order given. -/
def commitAll (s : State) (cores : List Nat) : State := cores.foldl commitCore s

/-- The clean lines of a set of cores discarded. -/
def discardAllClean (s : State) (cores : List Nat) : State := cores.foldl (fun st k => modCore st k stashDiscard) s

/-! ## Episodes (R75, R167 to R169) -/

/-- The physical cores of a gang's logical members. -/
def memberCores (s : State) (vale vf : Nat) (l : List Nat) : List Nat := l.filterMap (physCore s vale vf)

/-- The barrier entries of a core for a completed episode of gang g leave the record. -/
def releaseArrivals (c : Core) (g episode : Nat) : Core :=
  (c.barriers.filter fun e => e.2.gang == g && e.2.acked && decide (e.2.episode < episode)).foldl
    (fun c e => dropBarrier c e.1) c

/-- A gang whose next completed commit episode commits, or none. -/
def nextCommit (x : Gang) : Gang :=
  match x.commits with
  | [] => { x with committing := none, committers := [], granules := 0 }
  | (e, l) :: rest => { x with committing := some l, committers := l, granules := 0, commitEp := e, commits := rest }

/-- The end of an episode's commit: its members discard their clean lines (R110 step 4), and the commit of an episode that
has completed meanwhile begins. -/
def finishEpisode (s : State) (vale g : Nat) : State :=
  let x := gangOf s vale g
  setGang (discardAllClean s (memberCores s vale x.vf x.committers)) vale g (nextCommit x)

/-- An episode that every member has arrived in completes: the entries of its arrivals are released, leavers go and
joiners come, and the members commit where one came by `phase` or `gleave`, after the commit of an earlier episode that
still goes on (R75, R168, R169). -/
def completeEpisode (s : State) (vale g : Nat) : State :=
  let x := gangOf s vale g
  if x.members.isEmpty || x.members.any (fun m => !(x.arrived.any fun a => a.1 == m)) then s
  else
    let commit := x.arrived.any fun a => a.2 == 2 || a.2 == 3
    let s := (memberCores s vale x.vf x.members).foldl
      (fun st k => modCore st k fun c => releaseArrivals c g (x.episode + 1)) s
    let s := (memberCores s vale x.vf x.joiners).foldl
      (fun st k => modCore st k fun c => { c with lastArrival := c.lastArrival.erase g }) s
    let y := { x with
      arrived := [], episode := x.episode + 1
      members := x.joiners.foldl (fun l n => insertRising n l) (stayers x)
      leavers := [], joiners := []
      commits := x.commits ++ (if commit then [(x.episode + 1, x.members)] else []) }
    setGang s vale g (if x.committing.isSome then y else nextCommit y)

/-- Tagged requests of a core that are not acknowledged: its atomics, since arrivals and lines are acknowledged as they are
applied. A further request waits while 16 are (R340). -/
def unacknowledged (c : Core) : Nat := (c.atomics.map fun e => e.2.sent - e.2.first).foldl (· + ·) 0

/-- BARRIER_ARRIVAL: the gang barrier unit counts an arrival in the current episode, unless it stores its tag (R169,
R339). What a `gbar` or `phase` does while this core's `garr` on the gang is in an episode that has not completed the rule
does not say: DESIGN CHOICE, it is a second arrival in that episode (log entry 164). -/
def execBarrierArrival (k e : Nat) (s : State) : Host.Outcome State Fault Refusal :=
  let s := bump s
  let c := coreOf s k
  match c.barriers.find? e with
  | none => .next s
  | some b =>
    if b.acked ∨ c.status = .frozen ∨ 16 ≤ unacknowledged c then .next s
    else match reissue s k (ordBarrier e) with
    | none => .next s
    | some s =>
      let vale := k / 192
      let n := logicalCore s k
      let src := coreSource s k
      let x := gangOf s vale b.gang
      let s := modCore s k fun c => { c with
        barriers := c.barriers.insert e { b with acked := true, episode := x.episode }
        lastArrival := c.lastArrival.put 0 b.gang (x.episode + 1) }
      let s := charge s (.mesh vale) (vfOfCore s k) (cidOfSlice s (sliceOfCore k))
      if x.tags.any (fun t => t.1 == src && t.2 == b.seq) then .next s
      else
        let y := { x with
          arrived := x.arrived ++ [(n, b.op)]
          tags := storeTag x.tags src b.seq }
        .next (completeEpisode (setGang s vale b.gang y) vale b.gang)

/-- The commit carried through the members that are left. -/
def commitRest (s : State) (vale g : Nat) : List Nat → State
  | [] => setGang s vale g { gangOf s vale g with committing := some [], granules := 0 }
  | m :: rest =>
    let x := gangOf s vale g
    match physCore s vale x.vf m with
    | none => commitRest (setGang s vale g { x with committing := some rest, granules := 0 }) vale g rest
    | some k =>
      if commitBlocked s k then s
      else commitRest (setGang (commitCore s k) vale g { x with committing := some rest, granules := 0 }) vale g rest

/-- A commit whose members have all committed ends its episode, once nothing it wrote is parked (R120). -/
def endCommit (s : State) (vale g : Nat) : State :=
  let x := gangOf s vale g
  if x.committing = some [] ∧ ¬ parkedWrites s x.vf then finishEpisode s vale g else s

/-- Is a context frozen: freezing, or halted for the debugger (R330, R408)? -/
def ctxFrozen (s : State) (vf vale : Nat) : Bool :=
  match (ctxOf s vf vale).status with
  | .freezing | .halted => true
  | _ => false

/-- PHASE_BOUNDARY_COMPLETE: a commit goes on, by a number of granules of the member in progress or to its end
(R110, R336). -/
def execPhaseBoundaryComplete (vale g : Nat) (granules : Option Nat) (s : State) : Host.Outcome State Fault Refusal :=
  let s := bump s
  let x := gangOf s vale g
  if ctxFrozen s x.vf vale then .next s
  else match x.committing, granules with
  | none, _ => .next s
  | some l, none => .next (endCommit (commitRest s vale g l) vale g)
  | some [], some _ => .next (endCommit s vale g)
  | some (m :: rest), some n =>
    match physCore s vale x.vf m with
    | none => .next (setGang s vale g { x with committing := some rest, granules := 0 })
    | some k =>
      if commitBlocked s k then .next s
      else if (commitGranules (coreOf s k)).length ≤ n then
        .next (endCommit (setGang (commitCore s k) vale g { x with committing := some rest, granules := 0 }) vale g)
      else .next (setGang (commitSome s k n) vale g { x with granules := x.granules + n })

end Sys2Proof.Machine
end

