-- ==== Sys2Proof/Machine/Matrix.lean ====
section
/-! DEFINITION. The matrix unit (R208 to R225, R392, R393): M-slot operations as commands with the operands
they read, the start of a command and its checks, microprogram execution, accumulation in the array (R50 to
R53), the scale queue, the gather latch and drains. -/

namespace Sys2Proof.Machine

open Sys2Proof

/-! ## Commands (R208, R221) -/

/-- A command put into the queue with the operands it reads at issue. -/
def enqueue (s : State) (op : Nat) (f : MF) (sval : Word) (va vb : List Lane) : State :=
  modCore s s.core fun c => { c with mqueue := c.mqueue ++ [
    { op := op, form := f, sval := sval, veca := va, vecb := vb, mps := c.mp, issued := c.clk, hazard := hazards c }] }

/-- The effect of `mcall` (R216, R221). -/
def effMcall (f : MF) (s : State) : State :=
  enqueue s 1 f 0 [] []
/-- `mcall` (R216, R221). -/
def execMcall (f : MF) (s : State) : Host.Outcome State Fault Refusal := issueSlot (.mcall f) (effMcall f) s

/-- The effect of `mpset`, at its issue (R221). -/
def effMpset (f : MF) (s : State) : State :=
  let w := sRead s f.sa.toNat
  modCore s s.core fun c => { c with mp := c.mp.put 0 f.mp.toNat w }
/-- `mpset`, at its issue (R221). -/
def execMpset (f : MF) (s : State) : Host.Outcome State Fault Refusal := issueSlot (.mpset f) (effMpset f) s

/-- The effect of `mzero` (R210, R221). -/
def effMzero (f : MF) (s : State) : State :=
  enqueue s 3 f 0 [] []
/-- `mzero` (R210, R221). -/
def execMzero (f : MF) (s : State) : Host.Outcome State Fault Refusal := issueSlot (.mzero f) (effMzero f) s

/-- The effect of `mdrain` (R223). -/
def effMdrain (f : MF) (s : State) : State :=
  enqueue s 4 f (sRead s f.sa.toNat) [] []
/-- `mdrain` (R223). -/
def execMdrain (f : MF) (s : State) : Host.Outcome State Fault Refusal := issueSlot (.mdrain f) (effMdrain f) s

/-- The effect of `mmode` (R222). -/
def effMmode (f : MF) (s : State) : State :=
  enqueue s 5 f 0 [] []
/-- `mmode` (R222). -/
def execMmode (f : MF) (s : State) : Host.Outcome State Fault Refusal := issueSlot (.mmode f) (effMmode f) s

/-- The effect of `mgsel` (R215). -/
def effMgsel (f : MF) (s : State) : State :=
  enqueue s 6 f 0 (vRead s f.sa.toNat) (vRead s (f.sa.toNat + 1))
/-- `mgsel` (R215). -/
def execMgsel (f : MF) (s : State) : Host.Outcome State Fault Refusal := issueSlot (.mgsel f) (effMgsel f) s

/-- The effect of `mwr` (R224). -/
def effMwr (f : MF) (s : State) : State :=
  enqueue s 7 f (sRead s f.sa.toNat) [] []
/-- `mwr` (R224). -/
def execMwr (f : MF) (s : State) : Host.Outcome State Fault Refusal := issueSlot (.mwr f) (effMwr f) s

/-- The effect of `mwait`: every earlier command has finished when its bundle issues (R225). -/
def effMwait (_ : MF) (s : State) : State := s
/-- `mwait`: every earlier command has finished when its bundle issues (R225). -/
def execMwait (f : MF) (s : State) : Host.Outcome State Fault Refusal := issueSlot (.mwait f) (effMwait f) s

/-- The effect of `mrsum`: every earlier `mcall` has finished when its bundle issues (R225). -/
def effMrsum (f : MF) (s : State) : State :=
  let c := curCore s
  let v := if f.imm.getLsbD 0 then c.colSum else c.rowSum
  let h := if f.imm.getLsbD 1 then 64 else 0
  issueV s f.sa.toNat ((List.range 64).map fun k => v.get 0 (h + k)) (BitVec.allOnes 64) 0 4
/-- `mrsum`: every earlier `mcall` has finished when its bundle issues (R225). -/
def execMrsum (f : MF) (s : State) : Host.Outcome State Fault Refusal := issueSlot (.mrsum f) (effMrsum f) s

/-! ## The microprogram store (R135, R136, R393) -/

/-- The END microword. -/
def microEnd : Word := 0x3000000000000000

/-- Microword i of a core: 0 to 4,094 preloaded, 4,095 END, the others writable. -/
def microword (c : Core) (i : Nat) : Nat :=
  (if i < 4095 then Config.preloadedMicroword i else if i = 4095 then microEnd
   else c.microwords.get microEnd i).toNat

/-- Routine-directory entry n of a core. -/
def routine (c : Core) (n : Nat) : Nat :=
  (if n < 64 then Config.preloadedDirectory n else c.directory.get 4095 n).toNat

/-- The fields of a STEP microword (R136). -/
structure StepWord where
  cop : Nat
  asrc : Nat
  aty : Nat
  asg : Nat
  bsrc : Nat
  bty : Nat
  bsg : Nat
  kcnt : Nat
  aScaled : Bool
  bScaled : Bool
deriving DecidableEq, Repr

/-- The fields of a STEP. -/
def stepWord (w : Nat) : StepWord :=
  { cop := bitsOf w 59 58, asrc := bitsOf w 57 54, aty := bitsOf w 53 50, asg := bitsOf w 49 48
    bsrc := bitsOf w 47 44, bty := bitsOf w 43 40, bsg := bitsOf w 39 38, kcnt := bitsOf w 37 32 + 1
    aScaled := bitsOf w 31 31 == 1, bScaled := bitsOf w 30 30 == 1 }

/-- k-steps per clk and the kind of the bank for a pair of types, where the pair is not reserved (R212). -/
def typePair (a b : Nat) : Option (Nat × BankKind) :=
  let half := fun t => t == 1 || t == 2
  let f8 := fun t => t == 3 || t == 4
  let i8 := fun t => t == 8 || t == 9
  if half a && half b then some (1, .fp32)
  else if f8 a && f8 b then some (2, .fp32)
  else if i8 a && i8 b then some (2, .int32)
  else if a == 6 && (f8 b || i8 b) then some (2, .fp32)
  else if b == 6 && (f8 a || i8 a) then some (2, .fp32)
  else if a == 5 && b == 5 then some (4, .fp32)
  else none

/-- An integer operand of the array. -/
def intOperand (t : Nat) : Bool := t == 8 || t == 9

/-- Microwords from an index up to the first END, in index order (R209). -/
def routineWords (c : Core) (i : Nat) : Nat → List Nat
  | 0 => []
  | fuel + 1 =>
    if 8191 < i then []
    else
      let w := microword c i
      if w / 2 ^ 60 = 3 then [] else w :: routineWords c (i + 1) fuel

/-- Does the routine of an `mcall` hold a CSL step (R209)? -/
def hasCsl (c : Core) (m : MatrixCmd) : Bool :=
  (routineWords c (routine c m.form.imm.toNat) 8192).any fun w => w / 2 ^ 60 == 0 && (stepWord w).cop == 2

/-- The banks a command reads or writes (R209). -/
def cmdBanks (c : Core) (m : MatrixCmd) : List Nat :=
  let b := m.form.bank.toNat
  match m.op with
  | 1 => if hasCsl c m then [b, 1 - b] else [b]
  | 3 | 4 => [b]
  | _ => []

/-- The next index after a microword: loops whose last microword it was begin again or end (R216). -/
def afterWord (i : Nat) : List (Nat × Nat × Nat) → Nat × List (Nat × Nat × Nat)
  | [] => (i + 1, [])
  | (first, last, n) :: rest =>
    if i = last then
      if 1 < n then (first, (first, last, n - 1) :: rest) else afterWord i rest
    else (i + 1, (first, last, n) :: rest)

/-- The count of a LOOP word of an `mcall`, under the parameters captured at its issue (R216). -/
def loopCount (m : MatrixCmd) (w : Nat) : Nat :=
  if bitsOf w 56 56 = 1 then (m.mps.get 0 (bitsOf w 59 57)).toNat % 65536 else bitsOf w 47 32 + 1

/-- The microwords that a routine executes from an index on, in order, each body as often as tells which words follow
which: twice in an open loop, once in one that begins. -/
def executedWords (c : Core) (m : MatrixCmd) (i : Nat) (loops : List (Nat × Nat × Nat)) : Nat → List Nat
  | 0 => []
  | fuel + 1 =>
    if 8191 < i then []
    else
      let w := microword c i
      if 3 ≤ w / 2 ^ 60 then [w]
      else
        let last := bitsOf w 12 0
        let (j, l) :=
          if w / 2 ^ 60 ≠ 1 then afterWord i loops
          else if loopCount m w = 0 ∨ last = i then afterWord last loops
          else (i + 1, (i + 1, last, 1) :: loops)
        w :: executedWords c m j l fuel

/-- Open loops, to be walked through at most once more. -/
def onceMore (loops : List (Nat × Nat × Nat)) : List (Nat × Nat × Nat) := loops.map fun x => (x.1, x.2.1, Nat.min x.2.2 2)

/-- The words that an `mcall` still executes: from its routine's first, or from where it has come. -/
def wordsLeft (c : Core) (m : MatrixCmd) : List Nat :=
  match m.run with
  | some r => executedWords c m r.pc (onceMore r.loops) 65536
  | none => executedWords c m (routine c m.form.imm.toNat) [] 65536

/-- Does a command use stream k (R241)? -/
def usesStream (c : Core) (m : MatrixCmd) (k : Nat) : Bool :=
  match m.op with
  | 1 => (wordsLeft c m).any fun w => w / 2 ^ 60 == 0 && ((stepWord w).asrc == k || (stepWord w).bsrc == k)
  | 4 => m.form.imm.getLsbD 0 && m.form.imm.toNat / 2 % 8 == k
  | _ => false

/-- The microwords or directory entries of an `mwr` loaded (R224). -/
def loadWords (c : Core) (m : MatrixCmd) : Core :=
  let w := m.sval.toNat
  let first := bitsOf w 44 32
  let count := bitsOf w 53 45 + 1
  let src := ownOffset (w % 2 ^ 32)
  let word := fun i => leNat (hazardReadN c.spm m.hazard (src + 8 * i) 8)
  if bitsOf w 63 62 = 0 then { c with
    microwords := (List.range count).foldl
      (fun mw i => FMap.put microEnd mw (first + i) (BitVec.ofNat 64 (word i))) c.microwords }
  else { c with
    directory := (List.range count).foldl (fun d i => FMap.put 4095 d (first + i) (BitVec.ofNat 13 (word i))) c.directory }

/-- Does a queued command use stream k, each `mcall` with the words that it will find (R209, R241)? -/
def queueUses (c : Core) (k : Nat) : List MatrixCmd → Bool
  | [] => false
  | m :: rest => usesStream c m k || queueUses (if m.op = 7 then loadWords c m else c) k rest

/-! ## Banks -/

/-- Bank b of a core. -/
def bankOf (c : Core) (b : Nat) : Bank := if b = 0 then c.acc0 else c.acc1
/-- The core with bank b replaced. -/
def setBank (c : Core) (b : Nat) (x : Bank) : Core := if b = 0 then { c with acc0 := x } else { c with acc1 := x }

/-- The key of cell (i, j). -/
def cellKey (i j : Nat) : Nat := 128 * i + j

/-- The keys of all cells of a bank. -/
def allCells : List Nat := List.range 16384

/-- A table of cells from a function of row and column. -/
def tabulate (keys : List Nat) (g : Nat → Nat → BitVec 32) : FMap (BitVec 32) :=
  (keys.map fun k => (k, g (k / 128) (k % 128))).filter fun e => e.2 != 0

/-- The incomplete block of every given cell added to its accumulator, under the overflow mode of its k-steps (R52,
R54), with the flags raised. -/
def closeBlocks (keys : List Nat) (b : Bank) : Bank × Flags :=
  if b.open_.isEmpty && b.openInt.isEmpty then (b, 0)
  else
    let cell := fun k =>
      let old := b.cells.get 0 k
      match b.open_.find? k, b.openInt.find? k with
      | some p, _ =>
        let (r, fl) := add32 .rne (decode .fp32 old.toNat) p
        (BitVec.ofNat 32 r, fl)
      | none, some n =>
        let e := signedOf 32 old.toNat + n
        let (r, fl) := intToInt .int32 b.openSat e
        (BitVec.ofNat 32 r, fl)
      | none, none => (old, 0)
    ({ b with cells := tabulate keys (fun i j => (cell (cellKey i j)).1), open_ := [], openInt := [], openSat := false },
      keys.foldl (fun a k => a ||| (cell k).2) 0)

/-! ## One k-step (R50 to R53, R217) -/

/-- Operand r of k-step q of a 256-byte group (R211). -/
def groupElem (per : Nat) (g : List Byte) (q r : Nat) : Nat :=
  match per with
  | 1 => numAt g (2 * r) 2
  | 2 => numAt g (128 * q + r) 1
  | _ => numAt g (64 * q + r / 2) 1 / 16 ^ (r % 2) % 16

/-- Operand r of k-step q of group p of the gather latch (R215). -/
def latchElem (per : Nat) (latch : FMap Byte) (p q r : Nat) : Nat :=
  let b := fun i => (latch.get 0 (256 * r + 2 * p + i)).toNat
  match per with
  | 1 => b 0 + 256 * b 1
  | 2 => b (q % 2)
  | _ => b (q / 2) / 16 ^ (q % 2) % 16

/-- The value of an operand of type code t; an integer one under its signedness (R213). -/
def operandVal (t : Nat) (signed : Bool) (bits : Nat) : FVal :=
  if intOperand t then ofInt (intOf signed 8 bits) else decode ((tyOf t).getD .fp32) bits

/-- A k-step's inputs: operands by lane, scales, and what selects the cell operation. -/
structure KStep where
  cop : Nat
  kind : BankKind
  a : Nat → FVal
  b : Nat → FVal
  ai : Nat → Int
  bi : Nat → Int
  sa : FVal
  sb : FVal
  blk8 : Bool
  sat : Bool

/-- The product or distance that a cell accumulates, and whether it is an invalid case (R50, R217). -/
def term (k : KStep) (i j : Nat) : FVal × Bool :=
  let (x, b1) := mulExact (k.a i) k.sa
  let (y, b2) := mulExact (k.b j) k.sb
  let (p, b3) := if k.cop = 0 then mulExact x y else
    let (d, b) := subExact .rne x y
    (d.abs, b)
  (p, b1 || b2 || b3)

/-- The integer term of an INT32 bank. -/
def termInt (k : KStep) (i j : Nat) : Int :=
  if k.cop = 0 then k.ai i * k.bi j else Int.ofNat (k.ai i - k.bi j).natAbs

/-- Signed reading of a cell. -/
def cellInt (b : Bank) (i j : Nat) : Int := signedOf 32 (b.cells.get 0 (cellKey i j)).toNat
/-- FP32 reading of a cell. -/
def cellVal (b : Bank) (i j : Nat) : FVal := decode .fp32 (b.cells.get 0 (cellKey i j)).toNat

/-- A table of cells with the flags raised. -/
def tabulateF (keys : List Nat) (g : Nat → Nat → BitVec 32 × Flags) : FMap (BitVec 32) × Flags :=
  (tabulate keys fun i j => (g i j).1,
   keys.foldl (fun a k => a ||| (g (k / 128) (k % 128)).2) 0)

/-- FMA or ADA in the given cells of a floating-point bank (R51, R52). -/
def accumulateFp (keys : List Nat) (bk : Bank) (k : KStep) : Bank × Flags :=
  if k.blk8 then
    let opened := keys.map fun c =>
      let (p, bad) := term k (c / 128) (c % 128)
      match bk.open_.find? c with
      | none => ((c, p), flagIf bad fNv)
      | some q =>
        let (e, b) := addExact .rne q p
        ((c, e), flagIf (bad || b) fNv)
    let bk' := { bk with open_ := opened.map (·.1), count := bk.count + 1 }
    let fl := opened.foldl (fun a x => a ||| x.2) 0
    if bk'.count % 8 = 0 then
      let (b2, f2) := closeBlocks keys bk'
      (b2, fl ||| f2)
    else (bk', fl)
  else
    let (cells, fl) := tabulateF keys fun i j =>
      let (p, bad) := term k i j
      let (r, f) := add32 .rne (cellVal bk i j) p
      (BitVec.ofNat 32 r, f ||| flagIf bad fNv)
    ({ bk with cells := cells, count := bk.count + 1 }, fl)

/-- FMA or ADA in the given cells of an INT32 bank (R53). Under which mode a BLK8 block is added whose k-steps came partly under
wrap and partly under saturate the rules do not say: DESIGN CHOICE, under that of its last k-step (R54; log entry 169). -/
def accumulateInt (keys : List Nat) (bk : Bank) (k : KStep) : Bank × Flags :=
  if k.blk8 then
    let bk' := { bk with
      openInt := keys.map fun c =>
        (c, (bk.openInt.find? c).getD 0 + termInt k (c / 128) (c % 128))
      openSat := k.sat
      count := bk.count + 1 }
    if bk'.count % 8 = 0 then closeBlocks keys bk' else (bk', 0)
  else
    let (cells, fl) := tabulateF keys fun i j =>
      let (r, f) := intToInt .int32 k.sat (cellInt bk i j + termInt k i j)
      (BitVec.ofNat 32 r, f)
    ({ bk with cells := cells, count := bk.count + 1 }, fl)

/-- CSL: the running minimum in one bank and its k index in the other (R217). A block that FMA or ADA k-steps left open
ends where the count passes a multiple of 8 (R52). -/
def compareSelect (bk ix : Bank) (k : KStep) : Bank × Bank × Flags :=
  let c := bk.count
  let cand := fun i j => match k.kind with
    | .int32 => (BitVec.ofInt 32 (k.ai i + k.bi j), (0 : Flags),
        c == 0 || decide (k.ai i + k.bi j < cellInt bk i j))
    | _ =>
      let (x, b1) := mulExact (k.a i) k.sa
      let (y, b2) := mulExact (k.b j) k.sb
      let (e, b3) := addExact .rne x y
      let (r, fl) := roundArith fmt32 .rne false e
      let v := decode .fp32 r
      let acc := cellVal bk i j
      (BitVec.ofNat 32 r, fl ||| flagIf (b1 || b2 || b3) fNv, c == 0 || acc.isNan || (!v.isNan && v.below acc))
  let cells := tabulate allCells fun i j =>
    let (v, _, take) := cand i j
    if take then v else bk.cells.get 0 (cellKey i j)
  let idx := tabulate allCells fun i j => if (cand i j).2.2 then BitVec.ofNat 32 c else ix.cells.get 0 (cellKey i j)
  let fl := allCells.foldl (fun a n => a ||| (cand (n / 128) (n % 128)).2.1) 0
  let bk' := { bk with cells := cells, count := c + 1 }
  let (bk', f2) := if bk'.count % 8 = 0 then closeBlocks allCells bk' else (bk', 0)
  (bk', { ix with cells := idx, kind := .idx }, fl ||| f2)

/-- Integer operands of a k-step added to the captured sums (R222). -/
def captureSums (c : Core) (a : Bool) (b : Bool) (k : KStep) : Core :=
  if !c.mmode.capture then c
  else
    let add := fun (m : FMap (BitVec 32)) (g : Nat → Int) =>
      ((List.range 128).map fun r => (r, m.get 0 r + BitVec.ofInt 32 (g r))).filter fun e => e.2 != 0
    { c with rowSum := if a then add c.rowSum k.ai else c.rowSum, colSum := if b then add c.colSum k.bi else c.colSum }

/-! ## Faults of the matrix unit (R392) -/

/-- An asynchronous fault: the core stops at its next bundle boundary, with slot 7 in info. -/
def matrixStop (s : State) (k cause reason opcode detail extra : Nat) : State :=
  let c := coreOf s k
  stopCore (setCore s k { c with matrixFault := true }) k cause c.pc.toNat 0 (info386 reason opcode 7 detail + extra)

/-- A poisoned operand of the matrix unit (R378, R399). -/
def matrixPoison (s : State) (k : Nat) : State :=
  let c := coreOf s k
  stopCore (setCore s k { c with matrixFault := true }) k 3 c.pc.toNat 0 (info399 { cause := 3 } 0 5 0xFF 0)

/-- The command at position n removed. -/
def dropCmd (c : Core) (n : Nat) : Core := { c with mqueue := c.mqueue.eraseIdx n }

/-- A local address of the matrix unit: own scratchpad, n bytes inside it, in an allowed bank. -/
def matrixLocal (s : State) (k a n : Nat) : Option Nat :=
  match resolveLocal s k a with
  | .error r => some r
  | .ok (.spill _) => some 8
  | .ok (.spm j o) =>
    if j ≠ k ∨ 2 ^ 22 < o + n then some 8
    else if n ≠ 0 ∧ ¬ bankAllowed s k (o + n - 1) then some 9
    else none

/-! ## What a command needs before it takes effect (R392) -/

/-- Bytes of a drained row of 128 elements. -/
def rowBytes (t : Nat) : Nat := 128 * tyWidth ((tyOf t).getD .fp32) / 8

/-- The row pitch of a drain (R223). -/
def drainPitch (m : MatrixCmd) : Nat :=
  let p := bitsOf m.sval.toNat 47 32
  if p = 0 then rowBytes m.form.ty.toNat else p

/-- Does a drain requantise, and push a stream? -/
def drainRq (m : MatrixCmd) : Bool := m.form.imm.getLsbD 4
/-- Does a drain push a stream? -/
def drainStream (m : MatrixCmd) : Bool := m.form.imm.getLsbD 0

/-- The fault that a command's operands give before it takes effect: cause, reason, detail. -/
def cmdFault (s : State) (k : Nat) (m : MatrixCmd) : Option (Nat × Nat × Nat) :=
  let c := coreOf s k
  match m.op with
  | 4 =>
    let row := rowBytes m.form.ty.toNat
    let pitch := drainPitch m
    let mp := (m.mps.get 0 m.form.mp.toNat).toNat
    let st := streamOf c (m.form.imm.toNat / 2 % 8)
    if drainStream m = false ∧ m.sval.toNat / 2 ^ 48 ≠ 0 then some (0x11, 8, 0)
    else if drainRq m && ((bankOf c m.form.bank.toNat).kind != .int32 || mp % 64 != 0 || decide (mp / 2 ^ 38 ≠ 0)) then
      some (0x11, 8, 0)
    else if drainStream m && (!st.bound || !st.dst) then some (0x11, 8, 0)
    else if !drainStream m && (decide (pitch % 64 ≠ 0) || decide (pitch < row)) then some (0x11, 8, 0)
    else
      let d := if drainStream m then none else matrixLocal s k (m.sval.toNat % 2 ^ 32) (127 * pitch + row)
      let t := if drainRq m then matrixLocal s k (mp % 2 ^ 32) 1024 else none
      match d, t with
      | some r, _ => some (0x10, r, 0)
      | none, some r => some (0x10, r, 0)
      | none, none => none
  | 6 =>
    let row := fun (l : Lane) =>
      let a := l.toNat
      match resolveLocal s k a with
      | .error r => some (0x10, r, 0)
      | .ok (.spill _) => some (0x13, 8, 0)
      | .ok (.spm j o) =>
        if j ≠ k ∨ a % 64 ≠ 0 ∨ 2 ^ 21 < o % 2 ^ 21 + 256 then some (0x13, 8, 0) else none
    ((lanes64 m.veca) ++ (lanes64 m.vecb)).findSome? row
  | 7 =>
    let w := m.sval.toNat
    let first := bitsOf w 44 32
    let count := bitsOf w 53 45 + 1
    let target := bitsOf w 63 62
    if 2 ≤ target ∨ bitsOf w 61 54 ≠ 0 then some (0x11, 8, 0)
    else match matrixLocal s k (w % 2 ^ 32) (8 * count) with
      | some r => some (0x10, r, 0)
      | none =>
        if target = 0 then (if first < 4096 ∨ 8192 < first + count then some (0x10, 8, 0) else none)
        else if first < 64 ∨ 256 < first + count then some (0x10, 8, 0)
        else ((List.range count).find? fun i =>
            decide (8192 ≤ leNat (hazardReadN c.spm m.hazard (ownOffset (w % 2 ^ 32) + 8 * i) 8))).map
          fun i => (0x11, 7, first + i)
  | _ => none

/-! ## Running commands -/

/-- The command at position n with its run replaced. -/
def setRun (c : Core) (n : Nat) (m : MatrixCmd) (r : MatrixRun) : Core :=
  { c with mqueue := c.mqueue.set n { m with run := some r } }

/-- A command that has finished: it leaves the queue, and its flags are merged (R382). -/
def finishCmd (c : Core) (n : Nat) (fl : Flags) : Core :=
  { dropCmd c n with astat := astatMerge c.astat fl }

/-- What one microword makes of a run. -/
inductive Micro where
  /-- go on with the next microword -/
  | next (c : Core) (r : MatrixRun)
  /-- wait for a group or a scale -/
  | wait (c : Core) (r : MatrixRun)
  | done (c : Core) (r : MatrixRun)
  /-- a fault: cause, reason, bits to add to info -/
  | fault (c : Core) (r : MatrixRun) (cause reason extra : Nat)
  /-- poisoned data would be taken (R378): nothing of it is used -/
  | poison (c : Core) (r : MatrixRun)

/-- Is a stream source usable, unbound or still waiting: `none` for a fault, else whether a group is there. -/
def sourceReady (c : Core) (k : Nat) : Option Bool :=
  let t := streamOf c k
  if !t.bound || t.dst then none
  else some (decide (t.usableAt ≤ c.clk) && decide (1 ≤ streamAvail c k))

/-- The scale at the head of the queue: a scale and the queue without it, a hole that waits, or nothing. -/
def scaleHead (c : Core) : Option (Option (Byte × Core)) :=
  match c.sq with
  | .scale b :: rest | .bad b :: rest => some (some (b, { c with sq := rest }))
  | .hole _ _ _ _ :: _ => some none
  | [] => none

/-- The checks of a STEP before it takes effect: reason 7, or none (R210, R392). -/
def stepBad (c : Core) (bank : Nat) (w : Nat) : Bool :=
  let t := stepWord w
  let bad := fun (ty sg : Nat) (scaled : Bool) => sg == 3 || (!intOperand ty && sg != 0) || (intOperand ty && scaled)
  let kindBad := match typePair t.aty t.bty with
    | none => true
    | some (per, kd) =>
      let bk := (bankOf c bank).kind
      decide (t.kcnt % per ≠ 0) || (bk != .none && bk != kd)
        || (t.cop == 2 && (bankOf c (1 - bank)).kind != .none && (bankOf c (1 - bank)).kind != .idx)
  t.cop == 3 || decide (8 < t.asrc) || decide (8 < t.bsrc) || bitsOf w 29 0 != 0
    || bad t.aty t.asg t.aScaled || bad t.bty t.bsg t.bScaled || t.asrc == t.bsrc || kindBad

/-- One k-step q of the current groups, with the block's scales popped at its first k-step (R214). -/
def kStep (s : State) (c : Core) (bank : Nat) (t : StepWord) (per q : Nat) (kd : BankKind)
    (ga gb : List Byte) (pa pb : Nat) : Option (Core × Flags) × Core × Nat :=
  let bk := bankOf c bank
  let first := bk.count % 8 = 0
  let popFor := fun (c : Core) (scaled : Bool) => if first ∧ scaled then
      (match scaleHead c with
       | some (some (b, c')) => (true, some b, c')
       | _ => (false, none, c))
    else (true, none, c)
  let (okA, na, c1) := popFor c t.aScaled
  if !okA then (none, c, 0)
  else
    let (okB, nb, c2) := popFor c1 t.bScaled
    if !okB then (none, c1, 1)
    else
      let sclA := if first then na else bk.scaleA
      let sclB := if first then nb else bk.scaleB
      let scale := fun (scaled : Bool) (b : Option Byte) (what : Nat) =>
        if scaled then decodeE8m0 ((b.map (·.toNat)).getD ((freeWord s what).toNat % 256)) else ofInt 1
      let sgA := if t.asg = 0 then c.mmode.aSigned else t.asg == 2
      let sgB := if t.bsg = 0 then c.mmode.bSigned else t.bsg == 2
      let ea := fun i => if t.asrc = 8 then latchElem per c.latch pa q i else groupElem per ga q i
      let eb := fun j => if t.bsrc = 8 then latchElem per c.latch pb q j else groupElem per gb q j
      let k : KStep :=
        { cop := t.cop, kind := kd, a := fun i => operandVal t.aty sgA (ea i), b := fun j => operandVal t.bty sgB (eb j)
          ai := fun i => intOf sgA 8 (ea i), bi := fun j => intOf sgB 8 (eb j)
          sa := scale t.aScaled sclA 300, sb := scale t.bScaled sclB 301, blk8 := c.mmode.blk8, sat := c.mmode.satInt }
      let bk := { bk with kind := if bk.kind = .none then kd else bk.kind, scaleA := sclA, scaleB := sclB }
      let ints := intOperand t.aty && intOperand t.bty
      let c3 := captureSums c2 ints ints k
      if t.cop = 2 then
        let (b1, b2, fl) := compareSelect bk (bankOf c3 (1 - bank)) k
        (some (setBank (setBank c3 bank b1) (1 - bank) b2, fl), c3, 0)
      else
        let (b1, fl) := match kd with
          | .int32 => accumulateInt allCells bk k
          | _ => accumulateFp allCells bk k
        (some (setBank c3 bank b1, fl), c3, 0)

/-- The k-steps of one clk, from k-step q on. -/
def clkSteps (s : State) (c : Core) (bank : Nat) (t : StepWord) (per : Nat) (kd : BankKind)
    (ga gb : List Byte) (pa pb q : Nat) (r : MatrixRun) : Nat → Micro
  | 0 => .next c r
  | fuel + 1 =>
    match kStep s c bank t per q kd ga gb pa pb with
    | (none, c', src) => .fault c' r 0x12 0 (src * 2 ^ 24)
    | (some (c', fl), _, _) =>
      clkSteps s c' bank t per kd ga gb pa pb (q + 1) { r with kdone := r.kdone + 1, flags := r.flags ||| fl } fuel

/-- Scales that the next `per` k-steps pop from a bank with count n. -/
def scalesNeeded (t : StepWord) (n per : Nat) : Nat :=
  let firsts := ((List.range per).filter fun q => (n + q) % 8 = 0).length
  firsts * ((if t.aScaled then 1 else 0) + if t.bScaled then 1 else 0)

/-- The clk of a STEP, as many as its sources allow (R211, R214, R216, R219). -/
def stepClks (s : State) (c : Core) (bank : Nat) (t : StepWord) (per : Nat) (kd : BankKind) (r : MatrixRun) :
    Nat → Micro
  | 0 => .wait c r
  | fuel + 1 =>
    if t.kcnt ≤ r.kdone then .next c r
    else
      let ready := fun (src : Nat) => if src = 8 then (if c.latchPos < 128 then some (some true) else none)
        else some (sourceReady c src)
      match ready t.asrc, ready t.bsrc with
      | none, _ => .fault c r 0x11 7 0
      | _, none => .fault c r 0x11 7 0
      | some none, _ => .fault c r 0x11 8 0
      | _, some none => .fault c r 0x11 8 0
      | some (some a), some (some b) =>
        let need := scalesNeeded t (bankOf c bank).count per
        if !a || !b || (decide (scalesReserved c ≠ 0) && decide ((c.sq.takeWhile fun i => match i with
            | .scale _ | .bad _ => true
            | .hole _ _ _ _ => false).length < need)) then .wait c r
        else if (t.asrc != 8 && headPoisoned c t.asrc) || (t.bsrc != 8 && headPoisoned c t.bsrc)
            || (c.sq.take need).any (fun i => match i with
              | .bad _ => true
              | _ => false) then .poison c r
        else
          let pos := c.latchPos
          let (ga, c) := if t.asrc = 8 then ([], { c with latchPos := pos + 1 }) else streamPop c t.asrc
          let (gb, c) := if t.bsrc = 8 then ([], { c with latchPos := pos + 1 }) else streamPop c t.bsrc
          match clkSteps s c bank t per kd ga gb pos pos 0 r per with
          | .next c' r' => stepClks s c' bank t per kd r' fuel
          | x => x

/-- The source that an ADV moves: that of the next STEP executed; 9 where none is (R216). -/
def advSource (c : Core) (m : MatrixCmd) (r : MatrixRun) (isB : Bool) : Nat :=
  let (i, l) := afterWord r.pc r.loops
  match (executedWords c m i (onceMore l) 65536).find? fun w => w / 2 ^ 60 == 0 with
  | some w => if isB then (stepWord w).bsrc else (stepWord w).asrc
  | none => 9

/-- Groups popped and discarded. -/
def discardGroups (c : Core) (k : Nat) : Nat → Core
  | 0 => c
  | n + 1 => discardGroups (streamPop c k).2 k n

/-- One microword of a routine (R216). `mps` are the parameters captured at issue. -/
def microStep (s : State) (c : Core) (m : MatrixCmd) (r : MatrixRun) : Micro :=
  if 8191 < r.pc then .fault c r 0x11 7 0
  else
    let w := microword c r.pc
    let goOn := fun (c : Core) (r : MatrixRun) =>
      let (i, l) := afterWord r.pc r.loops
      Micro.next c { r with pc := i, loops := l, kdone := 0 }
    let mp := (m.mps.get 0 (bitsOf w 59 57)).toNat % 65536
    match w / 2 ^ 60 with
    | 0 =>
      let bank := m.form.bank.toNat
      let t := stepWord w
      if r.kdone = 0 && stepBad c bank w then .fault c r 0x11 7 0
      else match typePair t.aty t.bty with
        | none => .fault c r 0x11 7 0
        | some (per, kd) =>
          match stepClks s c bank t per kd r 65 with
          | .next c' r' => goOn c' r'
          | x => x
    | 1 =>
      let n := loopCount m w
      let last := bitsOf w 12 0
      let beyond := match r.loops with
        | (_, l, _) :: _ => decide (l < last)
        | [] => false
      if bitsOf w 55 48 ≠ 0 ∨ bitsOf w 31 13 ≠ 0 ∨ last < r.pc ∨ beyond ∨ 4 ≤ r.loops.length then .fault c r 0x11 7 0
      else if n = 0 ∨ last = r.pc then
        let (i, l) := afterWord last r.loops
        .next c { r with pc := i, loops := l }
      else .next c { r with pc := r.pc + 1, loops := (r.pc + 1, last, n) :: r.loops }
    | 2 =>
      let n : Int := signedOf 16 (if bitsOf w 56 56 = 1 then mp else bitsOf w 47 32)
      let src := advSource c m r (bitsOf w 55 55 == 1)
      if bitsOf w 54 48 ≠ 0 ∨ bitsOf w 31 0 ≠ 0 then .fault c r 0x11 7 0
      else if src = 8 then
        let p := (c.latchPos : Int) + n
        if p < 0 ∨ 128 < p then .fault c r 0x11 7 0 else goOn { c with latchPos := p.toNat } r
      else if src = 9 then goOn c r
      else if n < 0 then .fault c r 0x11 7 0
      else match sourceReady c src with
        | none => .fault c r 0x11 8 0
        | some _ =>
          let left := n.toNat - r.kdone
          let now := Nat.min left (if (streamOf c src).usableAt ≤ c.clk then streamAvail c src else 0)
          let c' := discardGroups c src now
          if now = left then goOn c' r else .wait c' { r with kdone := r.kdone + now }
    | 3 => if bitsOf w 59 0 ≠ 0 then .fault c r 0x11 7 0 else .done c r
    | _ => .fault c r 0x11 7 0

/-- A routine run on, for at most `fuel` microwords. -/
def runRoutine (s : State) (m : MatrixCmd) (c : Core) (r : MatrixRun) : Nat → Micro
  | 0 => .wait c r
  | fuel + 1 =>
    match microStep s c m r with
    | .next c' r' => runRoutine s m c' r' fuel
    | x => x

/-- The element of a drained row: cell (i, j) converted or requantised (R223, R385). -/
def drainElem (c : Core) (m : MatrixCmd) (i j : Nat) : Nat × Flags :=
  let bk := bankOf c m.form.bank.toNat
  let x := (bk.cells.get 0 (cellKey i j)).toNat
  let ty := (tyOf m.form.ty.toNat).getD .fp32
  if drainRq m then
    let mp := (m.mps.get 0 m.form.mp.toNat).toNat
    let tab := ownOffset (mp % 2 ^ 32)
    let mul := signedOf 32 (leNat (hazardReadN c.spm m.hazard (tab + 4 * j) 4))
    let zp := signedOf 32 (leNat (hazardReadN c.spm m.hazard (tab + 512 + 4 * j) 4))
    requant ty (signedOf 32 x) mul (bitsOf mp 37 32) zp
  else
    let rm := rmOf (BitVec.ofNat 2 (m.form.imm.toNat / 32))
    match bk.kind with
    | .int32 => cvt ty .int32 rm true x
    | .idx => cvt ty .uint32 rm true x
    | _ => cvt ty .fp32 rm true x

/-- Packed bytes of elements of width w bits. -/
def packElems (w : Nat) (l : List Nat) : List Byte :=
  leBytes (l.length * w / 8) ((l.zipIdx).foldl (fun a e => a + e.1 % 2 ^ w * 2 ^ (w * e.2)) 0)

/-- Row i of a drain, packed, with its flags. -/
def drainRow (c : Core) (m : MatrixCmd) (i : Nat) : List Byte × Flags :=
  let r := (List.range 128).map fun j => drainElem c m i j
  (packElems (tyWidth ((tyOf m.form.ty.toNat).getD .fp32)) (r.map (·.1)), r.foldl (fun a x => a ||| x.2) 0)

/-- Every row of a drain to the own scratchpad. -/
def drainRows (s : State) (k : Nat) (m : MatrixCmd) : State × Flags :=
  let c := coreOf s k
  let base := ownOffset (m.sval.toNat % 2 ^ 32)
  (List.range 128).foldl (fun (a : State × Flags) i =>
    let (b, fl) := drainRow c m i
    (spmWrite a.1 k (base + i * drainPitch m) b, a.2 ||| fl)) (s, 0)

/-- The groups of a drain pushed to its stream, from group g on, while there is room. -/
def drainPush (s : State) (k : Nat) (m : MatrixCmd) (bytes : List Byte) (st g : Nat) : Nat → State × Nat
  | 0 => (s, g)
  | fuel + 1 =>
    let c := coreOf s k
    if bytes.length ≤ 256 * g ∨ streamRoom c st = 0 ∨ c.clk < (streamOf c st).usableAt then (s, g)
    else
      let ((o, slot), c) := streamReserve c st
      let s := spmWrite (setCore s k c) k o ((bytes.drop (256 * g)).take 256)
      drainPush (modCore s k fun c => postIfLanded c st slot) k m bytes st (g + 1) fuel

/-- The release of a stream that waited for its last use (R241). -/
def releaseStream (c : Core) (k : Nat) : Core :=
  let t := streamOf c k
  if !t.freeing || queueUses c k c.mqueue
      || c.pending.any (fun p => p.dest == Dest.push k && !p.landed) then c
  else
    let c := setStream c k {}
    match t.slot with
    | none => c
    | some i =>
      if 8 ≤ t.ring then c
      else setRing c t.ring (if t.dst then ringProduced (ringOf c t.ring) i else ringConsumed (ringOf c t.ring) i)

/-- Every stream whose release waits is looked at again. -/
def releaseStreams (c : Core) : Core := (List.range 8).foldl releaseStream c

/-! ## The two events of the unit (R209) -/

/-- May the command at position n of the queue start: every earlier command has started, none earlier on its
banks is left, and its pipe is free? -/
def mayStart (c : Core) (n : Nat) (m : MatrixCmd) : Bool :=
  let earlier := c.mqueue.take n
  let banks := cmdBanks c m
  earlier.all (fun e => e.run.isSome && !(cmdBanks c e).any (fun b => banks.contains b))
    && !(earlier.any fun e => (e.op == 4) == (m.op == 4))

/-- The first command that has not started, with its position. -/
def firstWaiting (c : Core) : Option (Nat × MatrixCmd) :=
  ((c.mqueue.zipIdx.find? fun e => e.1.run.isNone)).map fun e => (e.2, e.1)

/-- MATRIX_COMMAND_START: the first waiting command starts if it may, once its operands pass their checks
(R209, R392). -/
def execMatrixCommandStart (k : Nat) (s : State) : Host.Outcome State Fault Refusal :=
  let s := bump s
  let c := coreOf s k
  if c.status = .frozen ∨ c.matrixFault then .next s
  else match firstWaiting c with
    | none => .next s
    | some (n, m) =>
      if !mayStart c n m then .next s
      else match cmdFault s k m with
        | some (cause, reason, detail) =>
          .next (matrixStop (setCore s k (dropCmd c n)) k cause reason m.op detail 0)
        | none => .next (setCore s k (setRun c n m { pc := routine c m.form.imm.toNat }))

/-- A started command carried on as far as it can go (R208 to R224). -/
def runCmd (s : State) (k n : Nat) (m : MatrixCmd) (r : MatrixRun) : State :=
  let c := coreOf s k
  let bank := m.form.bank.toNat
  match m.op with
  | 1 =>
    match runRoutine s m c r 4096 with
    | .next c' r' => setCore s k (setRun c' n m r')
    | .wait c' r' => setCore s k (setRun c' n m r')
    | .done c' r' => setCore s k (finishCmd c' n r'.flags)
    | .poison c' r' => matrixPoison (setCore s k (setRun c' n m r')) k
    | .fault c' r' cause reason extra =>
      matrixStop (setCore s k (finishCmd c' n r'.flags)) k cause reason 1 (if reason = 8 then 0 else r'.pc) extra
  | 3 => setCore s k (finishCmd (setBank c bank {}) n 0)
  | 4 =>
    let mp := (m.mps.get 0 m.form.mp.toNat).toNat
    if drainRq m && c.spm.poisoned (ownOffset (mp % 2 ^ 32)) 1024 then matrixPoison s k
    else
      let (bk, f0) := closeBlocks allCells (bankOf c bank)
      let s := setCore s k (setBank c bank bk)
      let c := coreOf s k
      if drainStream m then
        let rows := (List.range 128).map fun i => drainRow c m i
        let bytes := rows.flatMap (·.1)
        let fl := rows.foldl (fun a x => a ||| x.2) f0
        let (s, g) := drainPush s k m bytes (m.form.imm.toNat / 2 % 8) r.rows 512
        let r' := { r with rows := g, flags := r.flags ||| f0 }
        if bytes.length ≤ 256 * g then modCore s k fun c => finishCmd c n (fl ||| r.flags)
        else modCore s k fun c => setRun c n m r'
      else
        let (s, fl) := drainRows s k m
        modCore s k fun c => finishCmd c n (fl ||| f0)
  | 5 =>
    let i := m.form.imm
    let mode : MMode :=
      { blk8 := i.getLsbD 0, satInt := i.getLsbD 1, aSigned := i.getLsbD 2, bSigned := i.getLsbD 3, capture := i.getLsbD 4 }
    let change := mode.blk8 != c.mmode.blk8
    let (a0, f0) := if change then closeBlocks allCells c.acc0 else (c.acc0, 0)
    let (a1, f1) := if change then closeBlocks allCells c.acc1 else (c.acc1, 0)
    let c := { c with acc0 := a0, acc1 := a1, mmode := mode
                      rowSum := if mode.capture then [] else c.rowSum, colSum := if mode.capture then [] else c.colSum }
    setCore s k (finishCmd c n (f0 ||| f1))
  | 6 =>
    let offs := (lanes64 m.veca ++ lanes64 m.vecb).map fun l => ownOffset l.toNat
    if offs.any (fun o => c.spm.poisoned o 256) then matrixPoison s k
    else
      let latch := (offs.zipIdx.flatMap fun e =>
        (List.range 256).map fun i => (256 * e.2 + i, hazardRead c.spm m.hazard (e.1 + i))).filter fun x => x.2 != 0
      setCore s k (finishCmd { c with latch := latch, latchPos := 0 } n 0)
  | _ =>
    let w := m.sval.toNat
    let count := bitsOf w 53 45 + 1
    let src := ownOffset (w % 2 ^ 32)
    if c.spm.poisoned src (8 * count) then matrixPoison s k
    else
      setCore s k (finishCmd (loadWords c m) n 0)

/-- MATRIX_COMMAND_FINISH: the started command at a position of the queue runs on, to its end or to a wait
for a group or a scale (R209, R382). Streams whose release waited for it are released (R241). -/
def execMatrixCommandFinish (k idx : Nat) (s : State) : Host.Outcome State Fault Refusal :=
  let s := bump s
  let c := coreOf s k
  if c.status = .frozen ∨ c.matrixFault then .next s
  else match c.mqueue[idx]? with
    | none => .next s
    | some m =>
      match m.run with
      | none => .next s
      | some r => .next (modCore (runCmd (chargeCore s k) k idx m r) k releaseStreams)

end Sys2Proof.Machine
end

