-- ==== Sys2Proof/Machine/CopyOps.lean ====
section
/-! DEFINITION. The C slots (R226 to R241): copies put in flight with their descriptor snapshot, transfer id
and ring slot, `cdld`, rings, streams and the scale queue's fills. -/

namespace Sys2Proof.Machine

open Sys2Proof

/-! ## Copies put in flight (R77, R228 to R234, R338) -/

/-- The channel of the current slot: C1 uses channel 1 (R138). -/
def channelOf (s : State) : Nat := if s.slot = 5 then 1 else 0

/-- Where a unit of a copy lies: device virtual memory, a scratchpad, the sequencer's buffer, or nowhere (a
padding value). -/
inductive Place where
  | glob (va : Nat)
  | spm (core off : Nat)
  | buf (off : Nat)
  | pad (v : Nat)
deriving DecidableEq, Repr

/-- One unit: n bytes, or one nibble of a byte on each side (upper where true) (R26). -/
structure Move where
  src : Place
  dst : Place
  n : Nat
  nib : Option (Bool × Bool) := none
deriving DecidableEq, Repr

/-- Half bytes of a unit. -/
def Move.halves (m : Move) : Nat := if m.nib.isSome then 1 else 2 * m.n

/-- A virtual address reached by an offset. -/
def vaOf (base : Nat) (o : Int) : Nat := (((base : Int) + o) % 2 ^ 64).toNat

/-- The place at an offset of a tagged side of core k's copy. -/
def sidePlace (s : State) (k w : Nat) (o : Int) : Place :=
  match taggedOf (BitVec.ofNat 64 w) with
  | .globalAddr va => .glob (vaOf va o)
  | .localAddr a =>
    match resolveLocal s k a with
    | .ok (.spm j b) => .spm j ((b : Int) + o).toNat
    | _ => .spm k (((a % 2 ^ 22 : Nat) : Int) + o).toNat
  | .malformed => .spm k 0

/-- The offsets of a copy's units at source and destination; rows of `cpg` and `cps` come from their index
list. What a `cpg` with sdst = 1 or a `cps` with sdst = 0 does R231 does not say: DESIGN CHOICE, it moves as with the other
sdst, while the span check goes by the bit that stands there (log entry 168). -/
def unitOffsets (s : State) (k : Nat) (x : CopyEntry) : List (Int × Int) :=
  let d := copyDesc x.desc
  let e := unitBytes d.ty
  if x.op = 3 ∨ x.op = 4 then
    let n0 := d.units.getD 0 1
    let m := (coreOf s k).spm
    (List.range (d.n.getD 1 0)).flatMap fun r =>
      let i := leNat (hazardReadN m x.hazard (ownOffset x.list + 4 * r) 4)
      let row := Int.ofNat i * d.d.getD 0 0
      (List.range n0).map fun u =>
        let dense : Int := Int.ofNat ((r * n0 + u) * e)
        let st : Int := row + Int.ofNat (u * e)
        if x.op = 3 then (st, dense) else (dense, st)
  else (List.range d.count).map d.offsets

/-- The place of a unit in a ring slot: dense from the slot's start (R229). -/
def ringPlace (s : State) (k ring slot i e : Nat) : Place :=
  .spm k (slotBase (ringOf (coreOf s k) ring) slot + i * e)

/-- The units of a copy other than `cpm`, `cpa` and `sqfill`. -/
def slotMoves (s : State) (k : Nat) (x : CopyEntry) : List Move :=
  let d := copyDesc x.desc
  let e := unitBytes d.ty
  let slot := x.slot.getD 0
  (unitOffsets s k x).zipIdx.map fun u =>
    { src := if d.rmode = 2 then ringPlace s k d.ring slot u.2 e else sidePlace s k d.src u.1.1
      dst := if d.rmode = 1 then ringPlace s k d.ring slot u.2 e else sidePlace s k d.dst u.1.2
      n := e }

/-- The units of a `cpm` towards one target core (R230). -/
def targetMoves (s : State) (k : Nat) (x : CopyEntry) (j : Nat) (slot : Option Nat) : List Move :=
  let d := copyDesc x.desc
  let e := unitBytes d.ty
  (unitOffsets s k x).zipIdx.map fun u =>
    { src := if d.rmode = 2 then ringPlace s k d.ring (x.slot.getD 0) u.2 e else sidePlace s k d.src u.1.1
      dst := match slot with
        | some i => ringPlace s j d.ring i u.2 e
        | none => .spm j (((d.dst % 2 ^ 22 : Nat) : Int) + u.1.2).toNat
      n := e }

/-- The bounding range of places by address space: 0 global memory, 1 + j the scratchpad of core j. -/
def widen (b : FMap (Nat × Nat)) (p : Place) (n : Nat) : FMap (Nat × Nat) :=
  let put := fun (k a : Nat) => match b.find? k with
    | none => b.insert k (a, a + n)
    | some (lo, hi) => b.insert k (Nat.min lo a, Nat.max hi (a + n))
  match p with
  | .glob va => put 0 va
  | .spm j o => put (j + 1) o
  | _ => b

/-- Do two tables of bounding ranges share bytes of one address space? -/
def boxesMeet (a b : FMap (Nat × Nat)) : Bool :=
  a.any fun x => b.any fun y => x.1 == y.1 && decide (x.2.1 < y.2.2) && decide (y.2.1 < x.2.2)

/-- Is a copy replayed by 128-byte lines of its destination: a `cpa`, or one whose ranges overlap (R338)? -/
def replaysByLine (s : State) (k : Nat) (x : CopyEntry) : Bool :=
  x.op == 5 || ((x.op == 1 || x.op == 3 || x.op == 4)
    && (let l := slotMoves s k x
        boxesMeet (l.foldl (fun b m => widen b m.src m.n) []) (l.foldl (fun b m => widen b m.dst m.n) [])))

/-- The units of a copy with the half byte at which each begins, in the order of R228. -/
def placed (h : Nat) : List Move → List (Nat × Move)
  | [] => []
  | m :: rest => (h, m) :: placed (h + m.halves) rest

/-- The 128-byte line of a place. -/
def lineOfPlace (p : Place) : Place :=
  match p with
  | .glob va => .glob (va / 128)
  | .spm j o => .spm j (o / 128)
  | .buf o => .buf (o / 128)
  | .pad v => .pad v

/-- Neighbouring units with one destination line put together: the lines that carry tags (R338). -/
def lineRuns : List (Nat × Move) → List (List (Nat × Move))
  | [] => []
  | u :: rest =>
    match lineRuns rest with
    | (v :: g) :: gs => if lineOfPlace u.2.dst = lineOfPlace v.2.dst then (u :: v :: g) :: gs else [u] :: (v :: g) :: gs
    | gs => [u] :: gs

/-- A copy whose places stand is classed, and one of class IC1 takes a tag for each of its lines (R338, R339). -/
def classCopy (s : State) (k e : Nat) : State :=
  match (coreOf s k).copies.find? e with
  | none => s
  | some x =>
    if ((copyDesc x.desc).rmode ≠ 0 ∧ x.slot = none) ∨ replaysByLine s k x = false then s
    else
      let n := (lineRuns (placed 0 (slotMoves s k x))).length
      modCore s k fun c => { c with
        copies := c.copies.insert e { x with cls := 1, tag0 := c.tagSeq }, tagSeq := (c.tagSeq + n) % 2 ^ 40 }

/-- Does an earlier copy of a core wait for a filled slot of a ring (R229)? -/
def slotWanted (c : Core) (ring : Nat) (before : List Nat) : Bool :=
  before.any fun o => match c.copies.find? o with
    | some e =>
      let d := copyDesc e.desc
      !e.bySeq && d.rmode == 2 && d.ring == ring && e.slot.isNone
    | none => false

/-- Copy entry e of core k asks for a free slot of a ring, unless it has asked before (R229, R230). -/
def askSlot (r : Ring) (k e : Nat) : Ring := if r.want.contains (k, e) then r else { r with want := r.want ++ [(k, e)] }

/-- The request at the head of a ring's queue takes the next free slot (R230). -/
def serveHead (r : Ring) (k e : Nat) : Option (Nat × Ring) :=
  if r.want.head? = some (k, e) then (ringTakeFree r).map fun p => (p.1, { p.2 with want := p.2.want.tail }) else none

/-- Copy entry e of core k tries to take its slot in a ring of its core: a filled one for its source, a free one for its
destination, each in the issue order of the copies that name the ring (R229). -/
def takeSlot (c : Core) (k e : Nat) : Core :=
  match c.copies.find? e with
  | none => c
  | some x =>
    let d := copyDesc x.desc
    let taken := fun (p : Nat × Ring) => setRing { c with copies := c.copies.insert e { x with slot := some p.1 } } d.ring p.2
    if x.bySeq || x.slot.isSome then c
    else if d.rmode = 1 ∧ x.op ≠ 2 then
      let r := askSlot (ringOf c d.ring) k e
      match serveHead r k e with
      | some p => taken p
      | none => setRing c d.ring r
    else if d.rmode = 2 then
      if slotWanted c d.ring ((c.ord.takeWhile (· != ordCopy e)).filter fun o => decide (o < 32)) then c
      else match ringTakeFilled (ringOf c d.ring) with
        | some p => taken p
        | none => c
    else c

/-- A `cpm` into rings asks at each target for a free slot, and takes it where its turn has come (R230). The requests
reach the targets at the issue of the copy, an order that the rule leaves open (log entry 46). -/
def takeTargets (s : State) (k e : Nat) : State :=
  match (coreOf s k).copies.find? e with
  | none => s
  | some x =>
    let d := copyDesc x.desc
    if x.op ≠ 2 ∨ d.rmode ≠ 1 then s
    else d.targets.foldl (fun st t =>
      match physCore st (k / 192) (vfOfCore st k) t, (coreOf st k).copies.find? e with
      | some j, some x =>
        if x.targets.any (fun p => p.1 == j) || portDead st k j then st
        else
          let r := askSlot (ringOf (coreOf st j) d.ring) k e
          match serveHead r k e with
          | none => modCore st j fun c => setRing c d.ring r
          | some (i, r) =>
            let st := modCore st j fun c => setRing c d.ring r
            modCore st k fun c => { c with copies := c.copies.insert e { x with targets := x.targets ++ [(j, i)] } }
      | _, _ => st) s

/-- A copy of core k takes what slots it can; one whose places stand from then on is classed. -/
def takeSlots (s : State) (k e : Nat) : State :=
  let waits := match (coreOf s k).copies.find? e with
    | some x => x.slot.isNone && (copyDesc x.desc).rmode != 0
    | none => false
  let s := takeTargets (modCore s k fun c => takeSlot c k e) k e
  if waits && ((coreOf s k).copies.find? e).any fun x => x.slot.isSome then classCopy s k e else s

/-- A copy put into an entry of the in-flight record (R77). -/
def enterCopy (c : Core) (x : CopyEntry) : Option (Nat × Core) :=
  (freeCopyEntry c c.copyPos 32).map fun e =>
    (e, { c with copies := c.copies.insert e x, ord := c.ord ++ [ordCopy e], copyPos := (e + 1) % 32 })

/-- A copy operation issued: its snapshot, its transfer id in sx, its entry and its ring slot (R227, R229,
R234). -/
def copyEff (s : State) (op : Nat) (f : CF) : State :=
  let c := curCore s
  let ch := channelOf s
  let id := nextId c ch
  let b := cdOf s f.cd.toNat
  let d := copyDesc b
  let x : CopyEntry :=
    { desc := b, id := id, op := op, f := f.f == 1, channel := ch, tag0 := c.tagSeq
      list := (sRead s f.sy.toNat).toNat % 2 ^ 32, issued := c.clk, hazard := hazards c }
  match enterCopy c x with
  | none => s
  | some (e, c) =>
    let c := { c with
      nextId0 := if ch = 0 then id + 1 else c.nextId0
      nextId1 := if ch = 0 then c.nextId1 else id + 1
      sq := if op = 13 then c.sq ++ [SqItem.hole ch id d.count none] else c.sq }
    let s := setCore s s.core c
    let s := if d.rmode = 0 then classCopy s s.core e else takeSlots s s.core e
    issueS s f.sx.toNat (BitVec.ofNat 64 id) 1

/-- The effect of `cp` (R228). -/
def effCp (f : CF) (s : State) : State :=
  copyEff s 1 f
/-- `cp` (R228). -/
def execCp (f : CF) (s : State) : Host.Outcome State Fault Refusal := issueSlot (.cp f) (effCp f) s

/-- The effect of `cpm` (R230). -/
def effCpm (f : CF) (s : State) : State :=
  copyEff s 2 f
/-- `cpm` (R230). -/
def execCpm (f : CF) (s : State) : Host.Outcome State Fault Refusal := issueSlot (.cpm f) (effCpm f) s

/-- The effect of `cpg` (R231). -/
def effCpg (f : CF) (s : State) : State :=
  copyEff s 3 f
/-- `cpg` (R231). -/
def execCpg (f : CF) (s : State) : Host.Outcome State Fault Refusal := issueSlot (.cpg f) (effCpg f) s

/-- The effect of `cps` (R231). -/
def effCps (f : CF) (s : State) : State :=
  copyEff s 4 f
/-- `cps` (R231). -/
def execCps (f : CF) (s : State) : Host.Outcome State Fault Refusal := issueSlot (.cps f) (effCps f) s

/-- The effect of `cpa` (R232). -/
def effCpa (f : CF) (s : State) : State :=
  copyEff s 5 f
/-- `cpa` (R232). -/
def execCpa (f : CF) (s : State) : Host.Outcome State Fault Refusal := issueSlot (.cpa f) (effCpa f) s

/-- The effect of `sqfill` (R218, R233). -/
def effSqfill (f : CF) (s : State) : State :=
  copyEff s 13 f
/-- `sqfill` (R218, R233). -/
def execSqfill (f : CF) (s : State) : Host.Outcome State Fault Refusal := issueSlot (.sqfill f) (effSqfill f) s

/-- The effect of `cdld`, used by copies issued 4 clk or more later (R139, R227). -/
def effCdld (f : CF) (s : State) : State :=
  let b := (curCore s).spm.readN (ownOffset ((sRead s f.sy.toNat).toNat % 2 ^ 32)) 64
  let n := f.cd.toNat
  let old := cdOf s n
  modCore s s.core fun c => { c with
    cd := c.cd.put [] n old, cdNew := c.cdNew.put [] n b, cdReady := c.cdReady.put 0 n (c.clk + 4) }
/-- `cdld`, used by copies issued 4 clk or more later (R139, R227). -/
def execCdld (f : CF) (s : State) : Host.Outcome State Fault Refusal := issueSlot (.cdld f) (effCdld f) s

/-- The effect of `cpw`: the transfer id is covered when its bundle issues (R235). -/
def effCpw (_ : CF) (s : State) : State := s
/-- `cpw`: the transfer id is covered when its bundle issues (R235). -/
def execCpw (f : CF) (s : State) : Host.Outcome State Fault Refusal := issueSlot (.cpw f) (effCpw f) s

/-! ## Rings and streams (R237 to R241) -/

/-- The effect of `rgcfg` (R237). -/
def effRgcfg (f : CF) (s : State) : State :=
  let r := ringConfig (sRead s f.sy.toNat).toNat
  modCore s s.core fun c => setRing c f.rg.toNat r
/-- `rgcfg` (R237). -/
def execRgcfg (f : CF) (s : State) : Host.Outcome State Fault Refusal := issueSlot (.rgcfg f) (effRgcfg f) s

/-- The effect of `rgpost` (R238). -/
def effRgpost (f : CF) (s : State) : State :=
  let n := (sRead s f.sy.toNat).toNat
  modCore s s.core fun c =>
    let r := ringOf c f.rg.toNat
    setRing c f.rg.toNat { r with free := r.free - n, filled := r.filled + n, wp := (r.wp + n) % ringSlots r }
/-- `rgpost` (R238). -/
def execRgpost (f : CF) (s : State) : Host.Outcome State Fault Refusal := issueSlot (.rgpost f) (effRgpost f) s

/-- The effect of `rgfree` (R238). -/
def effRgfree (f : CF) (s : State) : State :=
  let n := (sRead s f.sy.toNat).toNat
  modCore s s.core fun c =>
    let r := ringOf c f.rg.toNat
    setRing c f.rg.toNat { r with free := r.free + n, filled := r.filled - n, rp := (r.rp + n) % ringSlots r }
/-- `rgfree` (R238). -/
def execRgfree (f : CF) (s : State) : Host.Outcome State Fault Refusal := issueSlot (.rgfree f) (effRgfree f) s

/-- The effect of `sbind`, usable 4 clk later (R240). -/
def effSbind (f : CF) (s : State) : State :=
  let a := (sRead s f.sy.toNat).toNat % 2 ^ 32
  modCore s s.core fun c =>
    setStream c f.st.toNat { patternOf (c.spm.readN (ownOffset a) 32) f.rg.toNat with usableAt := c.clk + 4 }
/-- `sbind`, usable 4 clk later (R240). -/
def execSbind (f : CF) (s : State) : Host.Outcome State Fault Refusal := issueSlot (.sbind f) (effSbind f) s

/-- The effect of `sfree`: at once, or after the stream's last use; of an unbound stream no effect (R241, R389). -/
def effSfree (f : CF) (s : State) : State :=
  modCore s s.core fun c =>
    let t := streamOf c f.st.toNat
    if t.bound then releaseStream (setStream c f.st.toNat { t with freeing := true }) f.st.toNat else c
/-- `sfree`: at once, or after the stream's last use; of an unbound stream no effect (R241, R389). -/
def execSfree (f : CF) (s : State) : Host.Outcome State Fault Refusal := issueSlot (.sfree f) (effSfree f) s

/-- RING_WAIT_RESUME: a copy that waits in its engine takes a slot that has appeared (R229, R230). -/
def execRingWaitResume (k e : Nat) (s : State) : Host.Outcome State Fault Refusal :=
  let s := bump s
  if (coreOf s k).status = .frozen then .next s
  else .next (takeSlots s k e)

end Sys2Proof.Machine
end

