-- ==== Sys2Proof/Machine/MacroDesc.lean ====
section
/-! DEFINITION. Macro descriptors (R242 to R261): their fields, the ranges they declare, the checks made at issue
(R395), the nest of tile steps and its division among members (R246, R247). -/

namespace Sys2Proof.Machine

open Sys2Proof

/-! ## Fields (R242, R243) -/

/-- A tensor descriptor (R243). -/
structure Tensor where
  base : Nat
  sbase : Nat
  ty : Nat
  nd : Nat
  b32 : Bool
  n : List Nat
  d : List Int
  bytes : List Byte
deriving DecidableEq, Repr

/-- The fields of a 64-byte tensor descriptor. -/
def tensorOf (b : List Byte) : Tensor :=
  let ctl := numAt b 0x10 4
  { base := word64At b 0, sbase := word64At b 8
    ty := ctl % 16, nd := ctl / 16 % 8, b32 := ctl / 128 % 2 == 1
    n := (List.range 7).map fun j => numAt b (0x14 + 2 * j) 2
    d := (List.range 7).map fun j => signedOf 32 (numAt b (0x24 + 4 * j) 4)
    bytes := b }

/-- Size of dimension j. -/
def Tensor.size (t : Tensor) (j : Nat) : Nat := t.n.getD j 1
/-- Stride of dimension j. -/
def Tensor.stride (t : Tensor) (j : Nat) : Int := t.d.getD j 0
/-- Bits of an element; 0 for the reserved type. -/
def Tensor.width (t : Tensor) : Nat := ((tyOf t.ty).map tyWidth).getD 0
/-- Bytes of an element, 1 for E2M1. -/
def Tensor.unit (t : Tensor) : Nat := Nat.max 1 (t.width / 8)
/-- Elements that share a scale (R244). -/
def Tensor.block (t : Tensor) : Nat := if t.b32 then 32 else 8
/-- Number of elements. -/
def Tensor.count (t : Tensor) : Nat := t.n.foldl (· * ·) 1

/-- A macro descriptor with its tensors (R242). -/
structure Macro where
  op : Nat
  ver : Nat
  fh : Nat
  use : Nat
  role : Nat
  pm : Nat
  rgn : Nat
  rgo : Nat
  kre : Nat
  rte : Nat
  t3a : Nat
  t : List Nat
  p0 : Nat
  p1 : Nat
  tens : List Tensor
  bytes : List Byte
deriving DecidableEq, Repr

/-- The fields of a 256-byte descriptor with T3's 64 bytes. -/
def macroOf (b t3 : List Byte) : Macro :=
  { op := numAt b 0 1, ver := numAt b 1 1, fh := numAt b 2 1, use := numAt b 3 1
    role := numAt b 4 1, pm := numAt b 5 1, rgn := numAt b 6 2, rgo := numAt b 8 4, kre := numAt b 0xC 4
    rte := word64At b 0x10, t3a := word64At b 0x18
    t := (List.range 7).map fun j => numAt b (0x20 + 2 * j) 2
    p0 := word64At b 0x30, p1 := word64At b 0x38
    tens := [tensorOf ((b.drop 0x40).take 64), tensorOf ((b.drop 0x80).take 64),
             tensorOf ((b.drop 0xC0).take 64), tensorOf t3]
    bytes := b }

/-- Is Tj present? -/
def Macro.has (m : Macro) (j : Nat) : Bool := m.use / 2 ^ j % 2 == 1
/-- Tensor Tj. -/
def Macro.tn (m : Macro) (j : Nat) : Tensor := m.tens.getD j (tensorOf [])
/-- Tile extent of level j. -/
def Macro.ext (m : Macro) (j : Nat) : Nat := m.t.getD j 0
/-- Role of Tj in an `m.kern`. -/
def Macro.roleOf (m : Macro) (j : Nat) : Nat := m.role / 4 ^ j % 4
/-- Offset of tensor descriptor Tj as failures report it: T3's bytes stand at 0x100. -/
def tensorOffset (j : Nat) : Nat := 0x40 * (j + 1)
/-- The tensors of an `m.kern` that share its nest (R259). -/
def Macro.kernTensors (m : Macro) : List Nat := (List.range 4).filter fun j => m.has j && m.roleOf j != 0

/-- Smallest multiple of n not below x. -/
def roundUp (x n : Nat) : Nat := (x + n - 1) / n * n

/-! ## Ranges (R69, R244, R250) -/

/-- The range of a tensor's elements; none where it is empty (R69). The last element of an E2M1 tensor is taken
as one byte. -/
def tensorRange (t : Tensor) : List VRange :=
  if t.n.any (· == 0) then []
  else
    let e := t.unit
    let steps := (List.range 7).map fun j => t.stride j * ((t.size j : Int) - 1)
    let lo := steps.foldl (fun a x => if x < 0 then a + x else a) (t.base : Int)
    let hi := steps.foldl (fun a x => if x < 0 then a else a + x) ((t.base : Int) + e)
    [{ lo := lo, hi := hi }]

/-- Scale bytes along dimension 0 (R244). -/
def Tensor.blocks (t : Tensor) : Nat := (t.size 0 + t.block - 1) / t.block

/-- The range of a tensor's scales (R244). -/
def scaleRange (t : Tensor) : List VRange :=
  if t.sbase = 0 ∨ t.n.any (· == 0) then []
  else [{ lo := t.sbase, hi := (t.sbase : Int) + ((t.blocks * (t.n.drop 1).foldl (· * ·) 1 : Nat) : Int) }]

/-- How an operation uses Tj: 0 not at all, 1 read, 2 written, 3 both (R249, R250). -/
def Macro.access (m : Macro) (j : Nat) : Nat :=
  if !m.has j then 0
  else match m.op, j with
    | 8, j => m.roleOf j
    | 4, 2 => 2 | 4, 3 => 2
    | 9, 0 => 1 | 9, 2 => 2 | 9, _ => 0
    | 10, 0 => 1 | 10, 2 => 2 | 10, _ => 0
    | 5, 3 => 0 | 6, 3 => 0
    | 7, 1 => 0
    | _, 2 => 2
    | _, _ => 1

/-- The read ranges a macro-instruction declares. -/
def Macro.reads (m : Macro) : List VRange :=
  (List.range 4).flatMap fun j => if m.access j % 2 = 1 then tensorRange (m.tn j) ++ scaleRange (m.tn j) else []

/-- The write ranges a macro-instruction declares. -/
def Macro.writes (m : Macro) : List VRange :=
  (List.range 4).flatMap fun j => if m.access j / 2 = 1 then tensorRange (m.tn j) ++ scaleRange (m.tn j) else []

/-! ## The nest (R246, R259) -/

/-- The parameters of `m.conv` (R253): strides, paddings, dilation. -/
structure ConvP where
  sx : Nat
  sy : Nat
  px : Nat
  py : Nat
  dil : Nat
  pad : Nat

/-- The fields of p1 of an `m.conv`. -/
def convP (p1 : Nat) : ConvP :=
  { sx := p1 % 16 + 1, sy := p1 / 16 % 16 + 1, px := p1 / 2 ^ 8 % 8, py := p1 / 2 ^ 11 % 8
    dil := p1 / 2 ^ 14 % 4 + 1, pad := p1 / 2 ^ 16 % 2 ^ 16 }

/-- Bytes of the sort key, which is the number of its passes (R255). -/
def Macro.keyBytes (m : Macro) : Nat := (m.tn 0).unit

/-- Levels 0 to 6 as (extent, tile extent); an unused level has one value. What nest an `m.kern` without a present tensor of
nonzero role has R259 does not say: DESIGN CHOICE, one step (log entry 171). -/
def Macro.levels (m : Macro) : List (Nat × Nat) :=
  let a := m.tn 0
  let b := m.tn 1
  let c := m.tn 2
  let one := (1, 1)
  match m.op with
  | 1 => [(a.size 0, m.ext 0), (b.size 1, m.ext 1), (a.size 1, m.ext 2),
          (a.size 2, 1), (a.size 3, 1), (a.size 4, 1), (a.size 5, 1)]
  | 2 => [(b.size 0 * b.size 1 * b.size 2, m.ext 0), (b.size 3, m.ext 1),
          (a.size 3 * c.size 1 * c.size 2, m.ext 2), one, one, one, one]
  | 4 => [(a.count, m.ext 0), (2, 1), (m.keyBytes, 1), one, one, one, one]
  | 5 | 6 => [one, (c.size 1, m.ext 1), one, one, one, one, one]
  | 7 => [one, ((a.n.drop 1).foldl (· * ·) 1, m.ext 1), one, one, one, one, one]
  | 8 =>
    (List.range 7).map fun j =>
      let n := m.kernTensors.foldl (fun x i => Nat.max x ((m.tn i).size j)) 0
      (if m.kernTensors.isEmpty then 1 else n, if m.ext j = 0 then 1 else m.ext j)
  | 9 | 10 => [one, (c.size 1, m.ext 1), one, one, one, one, one]
  | _ => [one, one, one, one, one, one, one]

/-- The numbers of values c_j of the levels (R246). -/
def Macro.counts (m : Macro) : List Nat := m.levels.map fun l => (l.1 + Nat.max 1 l.2 - 1) / Nat.max 1 l.2

/-- Total number of tile steps; 0 for `m.attn`, whose deliveries the Col engine plans. -/
def Macro.total (m : Macro) : Nat := if m.op = 3 then 0 else m.counts.foldl (· * ·) 1

/-- Steps of a chain (R247). -/
def Macro.perChain (m : Macro) : Nat := if m.op = 1 ∨ m.op = 2 then m.counts.getD 0 1 else 1

/-- Level indices of a step (R246); past the last step the outermost level that has more than one value shows
the number that comes next, its size (R80). Where every level has one value, the manual does not say which shows 1 past
the last step: DESIGN CHOICE, level 0 (log entry 145). -/
def indicesOf (step : Nat) : List Nat → List Nat
  | [] => []
  | c :: cs => if cs.all (· ≤ 1) then step :: cs.map (fun _ => 0) else step % c :: indicesOf (step / c) cs

/-- Number of items that fall to rank r of g out of c (R247). -/
def shareCount (pm c r g : Nat) : Nat :=
  if g = 0 then 0
  else if pm = 0 then (if r < c then (c - 1 - r) / g + 1 else 0)
  else
    let b := (c + g - 1) / g
    Nat.min c ((r + 1) * b) - Nat.min c (r * b)

/-- Item number i of rank r of g (R247). -/
def shareItem (pm c r g i : Nat) : Nat := if pm = 0 then r + i * g else r * ((c + g - 1) / g) + i

/-- Number of steps assigned to rank r of g; `m.sort` divides the chunks of each phase (R247, R255). -/
def Macro.assigned (m : Macro) (r g : Nat) : Nat :=
  if m.op = 3 then 0
  else if m.op = 4 then shareCount m.pm (m.counts.getD 0 0) r g * (2 * m.keyBytes)
  else
    let per := m.perChain
    shareCount m.pm (if per = 0 then 0 else m.total / per) r g * per

/-- Step number of assigned step i of rank r of g. -/
def Macro.stepOf (m : Macro) (r g i : Nat) : Nat :=
  if m.op = 4 then
    let c := m.counts.getD 0 0
    let n := shareCount m.pm c r g
    i / n * c + shareItem m.pm c r g (i % n)
  else
    let per := m.perChain
    shareItem m.pm (m.total / per) r g (i / per) * per + i % per

/-- The level indices that a member shows when it has passed p steps (R80): those of its next step, past its
last step those the nest takes next, without a step those past the whole nest. -/
def Macro.progress (m : Macro) (r g p : Nat) : List Nat :=
  let n := m.assigned r g
  let step := if n = 0 then m.total else if p < n then m.stepOf r g p else m.stepOf r g (n - 1) + 1
  indicesOf step m.counts

/-- First and one past the last element that a step covers along level j (R246). -/
def Macro.span (m : Macro) (step j : Nat) : Nat × Nat :=
  let l := m.levels.getD j (1, 1)
  let t := Nat.max 1 l.2
  let i := (indicesOf step m.counts).getD j 0
  (i * t, Nat.min l.1 ((i + 1) * t))

/-! ## Regions (R242, R251, R255, R259) -/

/-- Data bytes of a full tile of Tj of an `m.kern`. -/
def Macro.kernTile (m : Macro) (j : Nat) : Nat :=
  let t := m.tn j
  ((List.range 7).foldl (fun a i =>
    let l := m.levels.getD i (1, 1)
    a * (if t.size i = 1 then 1 else Nat.min (m.ext i) l.1)) t.width + 7) / 8

/-- Scale bytes of a full tile of Tj of an `m.kern`. -/
def Macro.kernScales (m : Macro) (j : Nat) : Nat :=
  let t := m.tn j
  if t.sbase = 0 then 0
  else (List.range 7).foldl (fun a i =>
    let l := m.levels.getD i (1, 1)
    let n := if t.size i = 1 then 1 else Nat.min (m.ext i) l.1
    a * (if i = 0 then (n + t.block - 1) / t.block else n)) 1

/-- Bytes of one slot of Tj of an `m.kern` (R259). -/
def Macro.kernSlot (m : Macro) (j : Nat) : Nat := roundUp (m.kernTile j) 64 + roundUp (m.kernScales j) 64

/-- Bytes of a box of t1 rows of a tensor with rows of n0 elements, rounded up to 64 bytes. -/
def rowTile (t : Tensor) (rows : Nat) : Nat := roundUp (rows * t.size 0 * t.width / 8) 64

/-- Bytes of region that an operation needs (R242). Where it states no size: the tiles of a step of `m.gath` are the table
rows, the indices and the output rows, of `m.norm` the rows and the two rows of T3, of `m.rinit` the pattern and the
segments. A step of `m.scat` scans every index; how many source rows it holds at once R257 does not say: DESIGN CHOICE, as
many as its tile extent (log entry 144). -/
def Macro.need (m : Macro) : Nat :=
  let rows := Nat.min (m.ext 1) (m.levels.getD 1 (1, 1)).1
  let slots := match m.op with
    | 1 | 2 => 2 * (m.ext 2 + m.ext 1) * m.ext 0 * (m.tn 0).width / 8
    | 4 => 2 * m.ext 0 * ((m.tn 0).width + if m.has 1 then (m.tn 1).width else 0) / 8
    | 5 => 2 * (rowTile (m.tn 0) rows + roundUp (4 * rows) 64 + rowTile (m.tn 2) rows)
    | 6 => 2 * (rowTile (m.tn 0) (Nat.min (m.ext 1) ((m.tn 0).size 1)) + roundUp (4 * (m.tn 1).size 0) 64 + rowTile (m.tn 2) rows)
    | 7 => 2 * (rowTile (m.tn 0) rows + rowTile (m.tn 2) rows + if m.has 3 then rowTile (m.tn 3) 2 else 0)
    | 8 => m.kernTensors.foldl (fun a j => a + 2 * m.kernSlot j) 0
    | 9 => 4 * 1024 * rows
    | 10 => 2 * (1024 + 1024 * rows)
    | _ => 0
  roundUp (slots + 65536) 65536

/-! ## Checks at issue (R395) -/

/-- A failing field: kind (0 header, 1 tensor) and offset. -/
abbrev Fail := Nat × Nat

/-- Failing fields of a list of conditions. -/
def failing (kind : Nat) (l : List (Bool × Nat)) : List Fail := (l.filter (·.1)).map fun e => (kind, e.2)

/-- Offset of the lowest byte, from `base` on, in which a word has a bit set. -/
def lowByte (base w : Nat) : Nat → Nat
  | 0 => base
  | fuel + 1 => if w % 256 ≠ 0 then base else lowByte (base + 1) (w / 256) fuel

/-- A failing field for bits that must be zero. -/
def zeroBits (base w : Nat) : Bool × Nat := (w != 0, lowByte base w 8)

/-- The checks of every header (R242). -/
def headerFails (m : Macro) (funct7 : Nat) : List Fail :=
  failing 0
    [(m.op != funct7, 0), (m.ver != 1, 1), (m.fh / 4 != 0, 2), (m.use / 16 != 0, 3),
     (m.role != 0 && m.op != 8, 4), (decide (1 < m.pm), 5),
     (m.rgn == 0 || decide (32 < m.rgn) || (m.op != 3 && decide (m.rgn * 65536 < m.need)), 6),
     (m.rgo % 65536 != 0 || m.rgo / 2 ^ 21 != (m.rgo + m.rgn * 65536 - 1) / 2 ^ 21 || decide (2 ^ 22 ≤ m.rgo), 8),
     (m.kre != 0 && m.op != 8, 0xC),
     (m.has 3 != (m.t3a != 0) || m.t3a % 64 != 0, 0x18),
     zeroBits 0x2E (numAt m.bytes 0x2E 2),
     (decide (4 < m.reads.length) || decide (2 < m.writes.length), 3)]

/-- Tile extents: a level of an operation is used (`some true`), unused, or takes 0 or 1. -/
def extentFails (m : Macro) : List Fail :=
  let kern := m.kernTensors.foldl (fun x j => Nat.max x ((m.tn j).nd + 1)) 0
  let used : List (Option Bool) := match m.op with
    | 1 => [some true, some true, some true, none, none, none, none]
    | 2 => [some true, some true, some true, some false, some false, some false, some false]
    | 3 => [some false, some false, some false, some false, some false, some false, some false]
    | 4 => [some true, some false, some false, some false, some false, some false, some false]
    | 8 => (List.range 7).map fun j => some (decide (j < kern))
    | _ => [some false, some true, some false, some false, some false, some false, some false]
  failing 0 (used.zipIdx.map fun e => (match e.1 with
    | some u => (m.ext e.2 != 0) != u
    | none => decide (1 < m.ext e.2), 0x20 + 2 * e.2))

/-- The level that tiles dimension 0 of Tj, for the operations that have one. -/
def level0 (m : Macro) (j : Nat) : Option Nat :=
  match m.op, j with
  | 1, 2 => some 1 | 2, 2 => some 1
  | 1, _ => some 0 | 2, _ => some 0
  | 4, _ => some 0 | 8, _ => some 0
  | _, _ => none

/-- The checks of a present tensor (R243). -/
def tensorFails (m : Macro) (j : Nat) : List Fail :=
  let t := m.tn j
  let o := tensorOffset j
  let above := (List.range 7).filter fun i => t.nd < i
  let e := t.width / 8
  failing 1
    ([(t.ty == 15 || t.nd == 7, o + 0x10), zeroBits (o + 0x11) (numAt t.bytes 0x11 3), zeroBits (o + 0x22) (numAt t.bytes 0x22 2)]
      ++ above.map (fun i => (t.size i != 1, o + 0x14 + 2 * i))
      ++ above.map (fun i => (t.stride i != 0, o + 0x24 + 4 * i))
      ++ (if 1 < e then (t.base % e != 0, o) :: (List.range 7).map fun i =>
            (decide (1 < t.size i) && t.stride i % (e : Int) != 0, o + 0x24 + 4 * i) else [])
      ++ (if t.ty = 5 then
            [(t.size 0 % 2 == 1, o + 0x14), (t.stride 0 != 1, o + 0x24),
             (match level0 m j with
              | some l => m.ext l % 2 == 1
              | none => false, 0x20 + 2 * (level0 m j).getD 0)]
          else []))

/-- Sizes that must equal given ones: offsets in Tj with the size and what it must be. -/
def sizeFails (m : Macro) (j : Nat) (l : List (Nat × Nat)) : List (Bool × Nat) :=
  l.map fun e => ((m.tn j).size e.1 != e.2, tensorOffset j + 0x14 + 2 * e.1)

/-- The types that a tensor may have. -/
def typeFails (m : Macro) (j : Nat) (ok : Nat → Bool) : List (Bool × Nat) := [(!ok (m.tn j).ty, tensorOffset j + 0x10)]

/-- Is a type code in some pair of R212? -/
def pairable (t : Nat) : Bool := (List.range 16).any fun u => (typePair t u).isSome
/-- An integer type of R25 that `mdrain` writes. -/
def intTy (t : Nat) : Bool := decide (8 ≤ t) && decide (t ≤ 12)

/-- Output positions of a convolution along one axis (R253); none where the window exceeds the padded input. -/
def convOut (n k p s dil : Nat) : Int := ((n : Int) + 2 * p - dil * ((k : Int) - 1) - 1) / s + 1

/-- The own rules of `m.gemm` and `m.conv` (R251, R253). Whether the dimensions of T3 above those that the epilogue names are
1 the rules do not say: DESIGN CHOICE, no check looks at them, while an `m.norm` holds those of its T3 to 1 (log entry 170). -/
def productFails (m : Macro) : List Fail :=
  let a := m.tn 0
  let b := m.tn 1
  let c := m.tn 2
  let t3 := m.tn 3
  let ep := m.p0 / 64 % 4
  let pair := typePair a.ty b.ty
  let kpc := (pair.map (·.1)).getD 1
  let p := convP m.p1
  let scales := (if a.sbase = 0 then [] else [a.block]) ++ (if b.sbase = 0 then [] else [b.block])
  let isInt := match pair with
    | some (_, .int32) => true
    | _ => false
  failing 0
    [(!m.has 0 || !m.has 1 || !m.has 2 || m.has 3 != (ep != 0), 3),
     (ep == 3, 0x30), zeroBits 0x30 (m.p0 / 2 ^ 14 * 2 ^ 14),
     zeroBits 0x38 (if m.op = 1 then m.p1 else m.p1 / 2 ^ 32 * 2 ^ 32),
     (ep == 1 && !(isInt && intTy c.ty), 0x30)]
  ++ failing 1
    ([(decide (128 < m.ext 1), 0x22), (decide (128 < m.ext 2), 0x24),
      (m.ext 0 % kpc != 0 || scales.any (fun s => m.ext 0 % s != 0), 0x20),
      (!pairable a.ty, 0x50), (pair.isNone, 0x90),
      (intOperand a.ty && a.sbase != 0, 0x48), (intOperand b.ty && b.sbase != 0, 0x88),
      (intTy c.ty && c.sbase != 0, 0xC8), (m.has 3 && intTy t3.ty && t3.sbase != 0, 0x108)]
      ++ typeFails m 2 (fun t => t != 6 && t != 7 && t != 13 && t != 14 && t != 15)
      ++ (if m.op = 1 then
            sizeFails m 1 ((0, a.size 0) :: (List.range 4).map (fun i => (i + 2, a.size (i + 2))))
            ++ sizeFails m 2 ([(0, b.size 1), (1, a.size 1)] ++ (List.range 4).map (fun i => (i + 2, a.size (i + 2))))
            ++ (List.range 3).flatMap (fun j => sizeFails m j [(6, 1)])
          else
            sizeFails m 1 [(0, a.size 0)]
            ++ sizeFails m 2 [(0, b.size 3), (3, a.size 3)]
            ++ [((c.size 1 : Int) != convOut (a.size 1) (b.size 1) p.px p.sx p.dil, 0xD6),
                ((c.size 2 : Int) != convOut (a.size 2) (b.size 2) p.py p.sy p.dil, 0xD8),
                (scales.any (fun s => a.size 0 % s != 0), 0x54)]
            ++ (List.range 3).flatMap (fun j => sizeFails m j [(4, 1), (5, 1), (6, 1)]))
      ++ (if m.has 3 ∧ ep = 1 then
            [(t3.ty != 11, 0x110), (t3.size 0 != b.size (if m.op = 1 then 1 else 3), 0x114), (t3.size 1 != 2, 0x116)]
          else if m.has 3 ∧ ep = 2 then
            [(t3.ty != 0, 0x110), (t3.size 0 != b.size (if m.op = 1 then 1 else 3), 0x114), (t3.size 1 != 1, 0x116)]
          else []))

/-- The own rules of `m.sort` (R255). -/
def sortFails (m : Macro) : List Fail :=
  let k := m.tn 0
  let out := fun (j ty : Nat) =>
    [((m.tn j).nd != k.nd + 1, tensorOffset j + 0x10), ((m.tn j).ty != ty, tensorOffset j + 0x10)]
      ++ sizeFails m j ((List.range 7).map fun i => (i, if i ≤ k.nd then k.size i else if i = k.nd + 1 then 2 else 1))
  failing 0 [(!m.has 0 || !m.has 2 || m.has 1 != m.has 3, 3), zeroBits 0x30 (m.p0 / 2 * 2), zeroBits 0x38 m.p1]
  ++ failing 1
    (typeFails m 0 (fun t => [0, 1, 2, 8, 9, 10, 11, 12].contains t) ++ [(decide (6 ≤ k.nd), 0x50)] ++ out 2 k.ty
      ++ (if m.has 1 then
            ((m.tn 1).nd != k.nd, 0x90) :: sizeFails m 1 ((List.range 7).map fun i => (i, k.size i)) else [])
      ++ (if m.has 3 then out 3 (m.tn 1).ty else []))

/-- Is a type code INT32 or UINT32? -/
def indexTy (t : Nat) : Bool := t == 11 || t == 12

/-- Sizes of dimensions 2 to 6 that must be 1. -/
def onlyRows (m : Macro) (j : Nat) : List (Bool × Nat) := sizeFails m j ((List.range 5).map fun i => (i + 2, 1))

/-- The own rules of `m.gath` and `m.scat` (R256, R257). -/
def indexedFails (m : Macro) : List Fail :=
  let t0 := m.tn 0
  let t1 := m.tn 1
  let q := if m.op = 5 then 2 else 0
  failing 0
    [(!m.has 0 || !m.has 1 || !m.has 2, 3), zeroBits 0x30 (if m.op = 5 then m.p0 else m.p0 - m.p0 / 2 % 2 * 2), zeroBits 0x38 m.p1]
  ++ failing 1
    (typeFails m 1 indexTy ++ [(t1.nd != 0, 0x90), (t1.size 0 != (m.tn q).size 1, 0x94)]
      ++ [((m.tn 2).ty != t0.ty || (m.op == 6 && t0.ty != 0 && t0.ty != 11), 0xD0)]
      ++ sizeFails m 2 [(0, t0.size 0)] ++ onlyRows m 0 ++ onlyRows m 2)

/-- The own rules of `m.norm` (R258). -/
def normFails (m : Macro) : List Fail :=
  let t0 := m.tn 0
  failing 0 [(!m.has 0 || !m.has 2, 3), zeroBits 0x30 (m.p0 / 2 ^ 36 * 2 ^ 36), zeroBits 0x38 m.p1]
  ++ failing 1
    (typeFails m 0 (fun t => t == 0 || t == 1 || t == 2) ++ typeFails m 2 (fun t => decide (t ≤ 4))
      ++ sizeFails m 2 ((List.range 7).map fun i => (i, t0.size i))
      ++ (if m.has 3 then
            typeFails m 3 (· == 0) ++ sizeFails m 3 ([(0, t0.size 0), (1, 2)] ++ (List.range 5).map fun i => (i + 2, 1)) else []))

/-- The own rules of `m.kern` (R259). -/
def kernFails (m : Macro) : List Fail :=
  failing 0 [(m.p0 % 32 != 0, 0x30)]
  ++ failing 1 (m.kernTensors.flatMap fun j =>
      (m.levels.zipIdx.map fun l =>
        let n := (m.tn j).size l.2
        (n != l.1.1 && (n != 1 || m.roleOf j / 2 == 1), tensorOffset j + 0x14 + 2 * l.2))
      ++ [((m.tn j).sbase != 0 && m.ext 0 % (m.tn j).block != 0, 0x20)])

/-- The own rules of `m.rcpy` and `m.rinit` (R261). -/
def rowFails (m : Macro) : List Fail :=
  let seg := fun (j nd : Nat) =>
    [((m.tn j).ty != 9, tensorOffset j + 0x10), ((m.tn j).nd != nd, tensorOffset j + 0x10)]
      ++ sizeFails m j [(0, 1024)] ++ [((m.tn j).stride 0 != 1, tensorOffset j + 0x24)]
  let row := fun (j : Nat) => [((m.tn j).stride 1 % 1024 != 0, tensorOffset j + 0x28)]
  failing 0 [(!m.has 0 || !m.has 2, 3), zeroBits 0x30 m.p0, zeroBits 0x38 m.p1]
  ++ failing 1 (seg 0 (if m.op = 9 then 1 else 0) ++ seg 2 1
      ++ (if m.op = 9 then sizeFails m 2 [(1, (m.tn 0).size 1)] ++ row 0 ++ row 2 else []))

/-- Every failure of a descriptor issued with a funct7. -/
def macroFails (m : Macro) (funct7 : Nat) : List Fail :=
  headerFails m funct7
    ++ (if m.op ≠ funct7 then []
        else extentFails m
          ++ ((List.range 4).filter m.has).flatMap (tensorFails m)
          ++ (match m.op with
              | 1 | 2 => productFails m
              | 4 => sortFails m
              | 5 | 6 => indexedFails m
              | 7 => normFails m
              | 8 => kernFails m
              | 9 | 10 => rowFails m
              | _ => []))

/-- The failure of the lowest offset, the header's first among equals. -/
def firstFail : List Fail → Option Fail
  | [] => none
  | x :: rest =>
    match firstFail rest with
    | none => some x
    | some y => if y.2 < x.2 ∨ (y.2 = x.2 ∧ y.1 < x.1) then some y else some x

end Sys2Proof.Machine
end

