-- ==== Sys2Proof/Machine/Tiles.lean ====
section
/-! DEFINITION. What a copy moves, unit by unit in its order: the copies that slots issue (R228 to R231) and the
tile copies of a sequencer (R77, R413, R251 to R261). -/

namespace Sys2Proof.Machine

open Sys2Proof

/-! ## Plans -/

/-- What a copy has to move: its units, or it waits for another copy, or it met an index outside its table, at
that position of the index list (R256). -/
inductive Plan where
  | moves (l : List Move)
  | wait
  | badIndex (q : Nat)

/-! ## Elements of tensors (R243, R244) -/

/-- Byte of an element, and for E2M1 whether it is the upper nibble. -/
def elemVa (t : Tensor) (idx : List Nat) : Nat × Bool :=
  let outer := ((List.range 6).map fun j => t.stride (j + 1) * Int.ofNat (idx.getD (j + 1) 0)).foldl (· + ·) 0
  let i0 := idx.getD 0 0
  if t.ty = 5 then (vaOf t.base (Int.ofNat (i0 / 2) + outer), i0 % 2 == 1)
  else (vaOf t.base (Int.ofNat i0 * t.stride 0 + outer), false)

/-- Linear index over dimensions 1 to 6 (R244). -/
def outerIndex (idx sizes : List Nat) : Nat :=
  match idx, sizes with
  | i :: is, n :: ns => i + n * outerIndex is ns
  | _, _ => 0

/-- The scale byte of block i0 of a row (R244). -/
def scaleVa (t : Tensor) (blk : Nat) (outer : List Nat) : Nat :=
  t.sbase + blk + t.blocks * outerIndex outer (t.n.drop 1)

/-- The tuples of a box, dimension 0 innermost (R228). -/
def boxTuples : List (Nat × Nat) → List (List Nat)
  | [] => [[]]
  | (lo, hi) :: rest => (boxTuples rest).flatMap fun t => (List.range (hi - lo)).map fun i => (lo + i) :: t

/-- Coordinates of a linear index over sizes, dimension 0 innermost. -/
def coordsOf (i : Nat) : List Nat → List Nat
  | [] => []
  | n :: ns => i % n :: coordsOf (i / n) ns

/-- One tile element at the tensor's side: its byte with its nibble, or padding. -/
abbrev Elem := Option (Nat × Bool)

/-- The units between a list of elements of w bits and the dense places of a slot. -/
def elemMoves (w pad : Nat) (at_ : Nat → Place) (input : Bool) (l : List Elem) : List Move :=
  let n := Nat.max 1 (w / 8)
  l.zipIdx.map fun e =>
    let here := at_ (if w = 4 then e.2 / 2 else e.2 * n)
    let far : Place := match e.1 with
      | some (va, _) => .glob va
      | none => .pad pad
    let hi := match e.1 with
      | some (_, h) => h
      | none => false
    let lhi := e.2 % 2 == 1
    if input then { src := far, dst := here, n := n, nib := if w = 4 then some (hi, lhi) else none }
    else { src := here, dst := far, n := n, nib := if w = 4 then some (lhi, hi) else none }

/-! ## Tiles of an `m.kern` (R259) -/

/-- The box of Tj in a step. -/
def kernBox (m : Macro) (step j : Nat) : List (Nat × Nat) :=
  (List.range 7).map fun i => if (m.tn j).size i = 1 then (0, 1) else m.span step i

/-- The elements of a box of a tensor. -/
def boxElems (t : Tensor) (box : List (Nat × Nat)) : List Elem := (boxTuples box).map fun i => some (elemVa t i)

/-- The scale bytes of a box of a tensor, in the order of R244 restricted to it. -/
def boxScales (t : Tensor) (box : List (Nat × Nat)) : List Elem :=
  match box with
  | [] => []
  | (lo, hi) :: rest =>
    (boxTuples ((lo / t.block, (hi + t.block - 1) / t.block) :: rest)).map fun i =>
      some (scaleVa t (i.getD 0 0) (i.drop 1), false)

/-- Data bytes of the tile of Tj in a step. -/
def kernBytes (m : Macro) (step j : Nat) : Nat :=
  (((kernBox m step j).foldl (fun a b => a * (b.2 - b.1)) (m.tn j).width) + 7) / 8

/-- Scratchpad offset of the slots of Tj in the region. Their order the manual does not give: DESIGN CHOICE, from rgo up,
tensors ascending, the two slots of each by the parity of the step (R259; log entry 165). -/
def kernOffset (m : Macro) (j : Nat) : Nat :=
  (m.kernTensors.filter (· < j)).foldl (fun a i => a + 2 * m.kernSlot i) m.rgo

/-! ## Tiles of `m.gemm` and `m.conv` (R251, R253, R413) -/

/-- Batch indices of a step of an `m.gemm`: those of dimensions 2 to 5. -/
def batchOf (m : Macro) (step : Nat) : List Nat := (indicesOf step m.counts).drop 3

/-- The element of A or B (j = 0 or 1) at k and lane; padding is `none`. -/
def operandAt (m : Macro) (step j k lane : Nat) : Option (List Nat) :=
  if m.op = 1 then some (k :: lane :: batchOf m step)
  else
    let a := m.tn 0
    let b := m.tn 1
    let c := m.tn 2
    let p := convP m.p1
    let ch := k % a.size 0
    let kx := k / a.size 0 % b.size 1
    let ky := k / a.size 0 / b.size 1
    if j = 1 then some [ch, kx, ky, lane]
    else
      let r := lane / c.size 1
      let x : Int := (lane % c.size 1 : Nat) * (p.sx : Int) + kx * p.dil - p.px
      let y : Int := (r % c.size 2 : Nat) * (p.sy : Int) + ky * p.dil - p.py
      if 0 ≤ x ∧ x < a.size 1 ∧ 0 ≤ y ∧ y < a.size 2 then some [ch, x.toNat, y.toNat, r / c.size 2] else none

/-- The lanes of A (m) or B (n) in a step. -/
def laneSpan (m : Macro) (step j : Nat) : Nat × Nat := m.span step (if j = 0 then 2 else 1)

/-- The numbers of a span. -/
def spanList (p : Nat × Nat) : List Nat := (List.range (p.2 - p.1)).map (· + p.1)

/-- The elements of an A or B tile, k-step by k-step (R413). -/
def operandElems (m : Macro) (step j : Nat) : List Elem :=
  (spanList (m.span step 0)).flatMap fun k => (spanList (laneSpan m step j)).map fun r =>
    (operandAt m step j k r).map (elemVa (m.tn j))

/-- The scales of an A or B tile, block of k by block of k. -/
def operandScales (m : Macro) (step j : Nat) : List Elem :=
  let t := m.tn j
  let sp := m.span step 0
  let blocks := (List.range ((sp.2 - sp.1 + t.block - 1) / t.block)).map fun i => sp.1 + i * t.block
  blocks.flatMap fun k => (spanList (laneSpan m step j)).map fun r =>
    (operandAt m step j k r).map fun i => (scaleVa t (i.getD 0 0 / t.block) (i.drop 1), false)

/-- The element of C at (n, m). -/
def outputAt (m : Macro) (step n r : Nat) : List Nat :=
  if m.op = 1 then n :: r :: batchOf m step
  else
    let c := m.tn 2
    [n, r % c.size 1, r / c.size 1 % c.size 2, r / c.size 1 / c.size 2]

/-- The elements of the C tile of a chain, n innermost. -/
def outputElems (m : Macro) (step : Nat) : List Elem :=
  (spanList (m.span step 2)).flatMap fun r => (spanList (m.span step 1)).map fun n =>
    some (elemVa (m.tn 2) (outputAt m step n r))

/-! ## Tiles of the other built-in operations (R255 to R261) -/

/-- Offset in the sequencer's buffer of Tj's data or scales for steps of a parity. -/
def bufAt (parity j : Nat) (scale : Bool) : Nat := (parity * 8 + 2 * j + if scale then 1 else 0) * 2 ^ 40

/-- Pass, phase and chunk of a step of `m.sort` (R255). -/
def sortStep (m : Macro) (step : Nat) : Nat × Nat × Nat :=
  let i := indicesOf step m.counts
  (i.getD 2 0, i.getD 1 0, i.getD 0 0)

/-- Element i of the keys (j = 0) or values (j = 1) as pass p reads them: from T0 and T1 in the first pass, from
the slice that the pass before it wrote in the others. -/
def sortSource (m : Macro) (j p i : Nat) : Elem :=
  let at0 := coordsOf i ((m.tn 0).n)
  if p = 0 then some (elemVa (m.tn j) at0)
  else
    let slice := (m.keyBytes - p) % 2
    some (elemVa (m.tn (j + 2)) ((List.range 7).map fun d => if d = (m.tn 0).nd + 1 then slice else at0.getD d 0))

/-- Element i of the keys or values as pass p writes them; the last pass writes slice 0. -/
def sortTarget (m : Macro) (j p i : Nat) : Elem :=
  let at0 := coordsOf i ((m.tn 0).n)
  let slice := (m.keyBytes - 1 - p) % 2
  some (elemVa (m.tn (j + 2)) ((List.range 7).map fun d => if d = (m.tn 0).nd + 1 then slice else at0.getD d 0))

/-- The digit that pass p sorts a key by, complemented in a descending sort (R255). -/
def sortDigit (m : Macro) (p x : Nat) : Nat :=
  let w := (m.tn 0).width
  let top := 2 ^ (w - 1)
  let f := match (m.tn 0).ty with
    | 8 | 10 | 11 => (x + top) % 2 ^ w
    | 9 | 12 => x
    | _ => if top ≤ x then 2 ^ w - 1 - x else x + top
  let d := f / 256 ^ p % 256
  if m.p0 % 2 = 1 then 255 - d else d

/-- Row r of a tensor over dimensions 1 to 6: its coordinates. -/
def rowCoords (t : Tensor) (r : Nat) : List Nat := coordsOf r (t.n.drop 1)

/-- The elements of rows lo to hi − 1 of a tensor. -/
def rowElems (t : Tensor) (rows : List Nat) : List Elem :=
  rows.flatMap fun r => (List.range (t.size 0)).map fun l => some (elemVa t (l :: rowCoords t r))

/-- Bytes of the sequencer's buffer of core k. -/
def bufBytes (s : State) (k o n : Nat) : List Byte := (coreOf s k).seq.buf.readN o n

/-- Index q of the T1 tile of a step whose first index is number q0, read from the buffer. -/
def indexAt (s : State) (k : Nat) (m : Macro) (parity i : Nat) : Int :=
  intOf ((m.tn 1).ty == 11) 32 (leNat (bufBytes s k (bufAt parity 1 false + 4 * i) 4))

/-- Is an input copy of Tj for the same step still in flight? -/
def tilePending (s : State) (k : Nat) (j step : Nat) : Bool :=
  (coreOf s k).copies.any fun e => match e.2.tile with
    | some t => t.input && t.tensor == j && t.step == step && !t.scale
    | none => false

/-- The positions of the index list whose rows fall in the block of a step of `m.scat` (R257). -/
def scatRows (s : State) (k : Nat) (m : Macro) (step parity : Nat) : List Nat :=
  let b := m.span step 1
  (List.range ((m.tn 1).size 0)).filter fun q =>
    let i := indexAt s k m parity q
    decide ((b.1 : Int) ≤ i) && decide (i < b.2)

/-- First index outside 0 to H − 1 among rows of a step of `m.gath` (R256). -/
def badGather (s : State) (k : Nat) (m : Macro) (step parity : Nat) : Option Nat :=
  let b := m.span step 1
  (spanList b).find? fun q =>
    let i := indexAt s k m parity (q - b.1)
    decide (i < 0) || decide (((m.tn 0).size 1 : Int) ≤ i)

/-- Where element i of a chunk goes in pass p: after all elements of smaller digits, those of the same digit in
earlier chunks, and those before it in its own (R255). `hist c d` counts digit d in chunk c. -/
def sortPosition (m : Macro) (hist : Nat → Nat → Nat) (chunk p : Nat) (keys : List Nat) (i : Nat) : Nat :=
  let d := sortDigit m p (keys.getD i 0)
  let chunks := m.counts.getD 0 0
  let below := ((List.range chunks).map fun c => ((List.range d).map (hist c)).foldl (· + ·) 0).foldl (· + ·) 0
  let before := ((List.range chunk).map fun c => hist c d).foldl (· + ·) 0
  below + before + ((keys.take i).filter fun x => sortDigit m p x == d).length

/-- The digit counts that the members of a dispatch hold for a chunk. -/
def memberCounts (s : State) (d : Dispatch) (chunk digit : Nat) : Nat :=
  let vale := d.ctl / 8
  let vf := vfOfCtl s d.ctl
  match (d.members.filterMap (physCore s vale vf)).findSome? fun k => (coreOf s k).seq.counts.find? chunk with
  | some h => h.getD digit 0
  | none => 0

/-- Elements of w bits in a byte list. -/
def elemAt (w : Nat) (bs : List Byte) (i : Nat) : Nat :=
  if w = 4 then numAt bs (i / 2) 1 / 16 ^ (i % 2) % 16 else numAt bs (i * (w / 8)) (w / 8)

/-- The keys of a chunk in the buffer. -/
def chunkKeys (s : State) (k : Nat) (m : Macro) (step parity : Nat) : List Nat :=
  let b := m.span step 0
  let w := (m.tn 0).width
  let bs := bufBytes s k (bufAt parity 0 false) ((b.2 - b.1) * (w / 8))
  (List.range (b.2 - b.1)).map fun i => elemAt w bs i

/-- What a tile copy of core k moves. -/
def tilePlan (s : State) (k : Nat) (d : Dispatch) (x : TileCopy) : Plan :=
  let m := macroOf d.desc d.t3
  let t := m.tn x.tensor
  let step := x.step
  let par := x.offs / 2 ^ 43 % 2
  let here : Nat → Place := fun o => if x.buf then .buf (x.offs + o) else .spm k (x.offs + o)
  let put := fun (w : Nat) (pad : Nat) (l : List Elem) => Plan.moves (elemMoves w pad here x.input l)
  let rows := spanList (m.span step 1)
  match m.op, x.tensor with
  | 8, j =>
    if x.scale then put 8 0 (boxScales t (kernBox m step j)) else put t.width 0 (boxElems t (kernBox m step j))
  | 1, 2 | 2, 2 => put t.width 0 (outputElems m step)
  | 1, 3 | 2, 3 =>
    let ns := spanList (m.span step 1)
    put 32 0 ((List.range (t.size 1)).flatMap fun r => ns.map fun n => some (elemVa t [n, r]))
  | 1, j | 2, j =>
    if x.scale then put 8 0x7F (operandScales m step j) else put t.width (convP m.p1).pad (operandElems m step j)
  | 4, j =>
    let (p, _, chunk) := sortStep m step
    let b := m.span step 0
    if x.input then put t.width 0 ((spanList b).map (sortSource m j p))
    else
      let keys := chunkKeys s k m step par
      let pos := (List.range keys.length).map (sortPosition m (memberCounts s d) chunk p keys)
      put t.width 0 (pos.map (sortTarget m (j - 2) p))
  | 5, 0 =>
    if tilePending s k 1 step then .wait
    else match badGather s k m step par with
      | some q => .badIndex q
      | none => put t.width 0 (rowElems t (rows.map fun q => (indexAt s k m par (q - (m.span step 1).1)).toNat))
  | 5, 1 => put 32 0 (rows.map fun q => some (elemVa t [q]))
  | 6, 0 => if tilePending s k 1 step then .wait else put t.width 0 (rowElems t (scatRows s k m step par))
  | 6, 1 => put 32 0 ((List.range (t.size 0)).map fun q => some (elemVa t [q]))
  | 7, 3 => put 32 0 ((List.range 2).flatMap fun r => (List.range (t.size 0)).map fun i => some (elemVa t [i, r]))
  | 9, _ =>
    .moves (rows.flatMap fun r => (List.range 128).map fun i =>
      { src := .glob (elemVa (m.tn 0) [8 * i, r]).1, dst := .glob (elemVa t [8 * i, r]).1, n := 8 })
  | 10, 0 => put 8 0 ((List.range 1024).map fun i => some (elemVa t [i]))
  | 10, _ =>
    .moves (rows.flatMap fun r => (List.range 128).map fun i =>
      { src := .buf (bufAt par 0 false + 8 * i), dst := .glob (elemVa t [8 * i, r]).1, n := 8 })
  | _, _ => put t.width 0 (rowElems t rows)

/-! ## The tile copies of a stage (R77, R262) -/

/-- A tile copy of an `m.kern`. -/
def kernCopy (m : Macro) (step parity j : Nat) (input scale : Bool) : TileCopy :=
  let base := kernOffset m j + parity * m.kernSlot j
  { tensor := j, scale := scale, input := input, step := step, buf := false
    offs := if scale then base + roundUp (kernBytes m step j) 64 else base }

/-- A tile copy of a built-in operation. -/
def bufCopy (step parity j : Nat) (input scale : Bool) : TileCopy :=
  { tensor := j, scale := scale, input := input, step := step, buf := true, offs := bufAt parity j scale }

/-- Is a step the last of its chain? -/
def lastOfChain (m : Macro) (step : Nat) : Bool := (indicesOf step m.counts).getD 0 0 + 1 == m.counts.getD 0 0

/-- The input copies of a step, tensors ascending, each tensor's data before its scales (R77). -/
def inputCopies (m : Macro) (step parity : Nat) : List TileCopy :=
  let one := fun j => [bufCopy step parity j true false]
  match m.op with
  | 8 => (m.kernTensors.filter fun j => m.roleOf j % 2 == 1).flatMap fun j =>
      kernCopy m step parity j true false :: (if (m.tn j).sbase = 0 then [] else [kernCopy m step parity j true true])
  | 1 | 2 =>
    [0, 1].flatMap (fun j => bufCopy step parity j true false
        :: (if (m.tn j).sbase = 0 then [] else [bufCopy step parity j true true]))
      ++ (if m.has 3 ∧ lastOfChain m step then one 3 else [])
  | 4 => one 0 ++ (if m.has 1 ∧ (sortStep m step).2.1 = 1 then one 1 else [])
  | 5 => one 0 ++ one 1
  | 6 => one 0 ++ one 1 ++ one 2
  | 7 => one 0 ++ (if m.has 3 then one 3 else [])
  | 10 => one 0
  | _ => []

/-- The output copies of a step. Keys and values of `m.sort` leave from the slots they were read into. -/
def outputCopies (m : Macro) (step parity : Nat) : List TileCopy :=
  let one := fun j => [bufCopy step parity j false false]
  match m.op with
  | 8 => (m.kernTensors.filter fun j => m.roleOf j / 2 == 1).flatMap fun j =>
      kernCopy m step parity j false false :: (if (m.tn j).sbase = 0 then [] else [kernCopy m step parity j false true])
  | 1 | 2 => if lastOfChain m step then one 2 else []
  | 4 =>
    if (sortStep m step).2.1 = 1 then
      { bufCopy step parity 0 false false with tensor := 2 }
        :: (if m.has 1 then [{ bufCopy step parity 1 false false with tensor := 3 }] else [])
    else []
  | 5 => [{ bufCopy step parity 0 false false with tensor := 2 }]
  | 3 => []
  | _ => one 2

/-! ## Replayed writes that overlap (R342) -/

/-- The units of a `cpm` towards the targets at which its place stands. -/
def cpmMoves (s : State) (k : Nat) (x : CopyEntry) : List Move :=
  let d := copyDesc x.desc
  if d.rmode = 1 then x.targets.flatMap fun (t : Nat × Nat) => targetMoves s k x t.1 (some t.2)
  else d.targets.flatMap fun t => match physCore s (k / 192) (vfOfCore s k) t with
    | some j => targetMoves s k x j none
    | none => []

/-- The ranges that the entry of an `ord` byte of core k may still write. -/
def writeBoxes (s : State) (k o : Nat) : FMap (Nat × Nat) :=
  let c := coreOf s k
  if o < 0x20 then
    match c.copies.find? o with
    | none => []
    | some x =>
      let l : List Move := match x.tile, c.seq.exec with
        | some t, some d => match tilePlan s k d t with
          | .moves l => l
          | _ => []
        | _, _ =>
          if x.op = 2 then cpmMoves s k x
          else if x.op = 13 then []
          else slotMoves s k x
      l.foldl (fun b m => widen b m.dst (Nat.max 1 m.n)) []
  else if 0x60 ≤ o ∧ o < 0x70 then
    match c.atomics.find? (o - 0x60) with
    | none => []
    | some x => ((List.range (elemLanes x).length).drop x.sent).foldl (fun b j =>
        match elemAddr x j with
        | .globalAddr va => widen b (.glob va) (elemBytes x)
        | .localAddr a => match resolveLocal s k a with
          | .ok (.spm i q) => widen b (.spm i q) (elemBytes x)
          | _ => b
        | .malformed => b) []
  else []

/-- Does a replayed entry have to wait for an older replayed write that its own overlaps? -/
def replayWaits (s : State) (k o : Nat) : Bool :=
  let c := coreOf s k
  c.replayed.contains o
    && (let mine := writeBoxes s k o
        (c.replayed.takeWhile (· != o)).any fun p => boxesMeet (writeBoxes s k p) mine)

/-! ## Copies of one channel that meet (R236) -/

/-- The units that a copy of a C slot writes where the places of its destination stand: one that waits for a filled slot as
its source has its destination (R229). -/
def writtenUnits (s : State) (k : Nat) (x : CopyEntry) : List Move :=
  let d := copyDesc x.desc
  if x.op = 13 ∨ (d.rmode = 1 ∧ x.slot = none ∧ x.op ≠ 2) then []
  else if x.op = 2 then cpmMoves s k x
  else slotMoves s k x

/-- Do two units write a common byte? -/
def unitsMeet (a b : Move) : Bool :=
  match a.dst, b.dst with
  | .glob x, .glob y => decide (x < y + b.n) && decide (y < x + a.n)
  | .spm i x, .spm j y => i == j && decide (x < y + b.n) && decide (y < x + a.n)
  | _, _ => false

/-- Does a copy of core k wait for an uncompleted copy of its channel that was issued before it and writes some of its
destination, so that its own value remains (R236)? -/
def behindCopy (s : State) (k e : Nat) (x : CopyEntry) : Bool :=
  let c := coreOf s k
  let mine := writtenUnits s k x
  !x.bySeq && (c.ord.takeWhile (· != ordCopy e)).any fun o =>
    decide (o < 0x20) && (match c.copies.find? o with
      | some y => !y.bySeq && y.channel == x.channel && boxesMeet (writeBoxes s k o) (writeBoxes s k (ordCopy e))
          && (writtenUnits s k y).any fun a => mine.any fun b => unitsMeet a b
      | none => false)

end Sys2Proof.Machine
end

