-- ==== Sys2Proof/Machine/MemEvents.lean ====
section
/-! DEFINITION. What comes back from memory to a core: stash fills, translations answered by the Vale TLB and
the walkers, ownership of lines, atomics applied at their targets and their acknowledgements (R101, R105, R108,
R140, R398 to R407). -/

namespace Sys2Proof.Machine

open Sys2Proof

/-! ## Faults of in-flight entries (R401 to R404) -/

/-- A load entry meets a finding: a `probe` fill is dropped, any other stops its core (R403, R404). -/
def loadFault (s : State) (k e : Nat) (x : LoadEntry) (f : Finding) : State :=
  if x.kind = 1 then modCore s k fun c => dropLoad c e
  else
    let s := modCore s k fun c => { c with loads := c.loads.insert e { x with faulted := true } }
    let access := if x.kind = 2 then 2 else if x.write then 1 else 0
    stopCore s k f.cause (coreOf s k).pc.toNat x.addr.toNat (info399 f access 0 (ordLoad e) 0) (entryRank s k (ordLoad e))

/-- A remote-atomic entry meets a finding at an element. -/
def atomicFault (s : State) (k e : Nat) (x : AtomicEntry) (j va : Nat) (f : Finding) : State :=
  let s := modCore s k fun c => { c with atomics := c.atomics.insert e { x with faulted := true } }
  stopCore s k f.cause (coreOf s k).pc.toNat va
    (info399 f 2 (if x.kind = 2 then 1 else 0) (ordAtomic e) (if x.kind = 2 then j else 0)) (entryRank s k (ordAtomic e))

/-- A bundle fetch meets a finding at a byte of the bundle: the bundle at pc does not issue. -/
def fetchFault (s : State) (k at_ : Nat) (f : Finding) : State :=
  let pc := (coreOf s k).pc.toNat
  stopCore s k f.cause pc at_ (info399 f 3 0 0xFF 0) 0

/-! ## First-level misses (R101) -/

/-- The number under which a load entry waits for its translation. -/
def loadRequest (e : Nat) : Nat := 0x20 + e
/-- The number under which a bundle fetch waits. -/
def fetchRequest : Nat := 0x80

/-- How an access looks up its core's first-level TLB. -/
inductive Lookup where
  | hit (t : TlbEntry) (s : State)
  | finding (f : Finding)
  | miss (s : State)

/-- A first-level lookup: a miss leaves a request for the Vale TLB. -/
def firstLevel (s : State) (k va access req : Nat) : Lookup :=
  if 2 ^ 56 ≤ va then .finding { cause := 0x10, reason := 1 }
  else match (coreOf s k).tlb.find? (·.covers (vfOfCore s k) va) with
    | some t =>
      match leafCheck access t with
      | some f => .finding f
      | none => .hit t (modCore s k fun c => { c with tlb := tlbFill 512 c.tlb t })
    | none =>
      .miss (modCore s k fun c =>
        if (c.treq.find? req).isSome then c
        else { c with treq := c.treq.insert req { va := va, access := access, agent := 0 } })

/-- What waits under a request number receives a finding. -/
def requestFault (s : State) (k req : Nat) (f : Finding) : State :=
  if req = fetchRequest then fetchFault s k (coreOf s k).pc.toNat f
  else match (coreOf s k).loads.find? (req - 0x20) with
    | none => s
    | some x => loadFault s k (req - 0x20) x f

/-- A request answered with a translation: kept in the first-level TLB, unless its leaf check fails. -/
def answerOk (s : State) (k req : Nat) (t : TlbEntry) (level : Nat) : State :=
  let c := coreOf s k
  match c.treq.find? req with
  | none => s
  | some r =>
    let s := setCore s k { c with treq := c.treq.erase req }
    match leafCheck r.access t with
    | some f => requestFault s k req { f with level := level }
    | none => modCore s k fun c => { c with tlb := tlbFill 512 c.tlb t }

/-- A request answered with a finding. -/
def answerBad (s : State) (k req : Nat) (f : Finding) : State :=
  let c := coreOf s k
  match c.treq.find? req with
  | none => s
  | some _ => requestFault (setCore s k { c with treq := c.treq.erase req }) k req f

/-- The level of the leaf that a translation came from. -/
def leafLevel (t : TlbEntry) : Nat := if t.bits = 16 then 0 else if t.bits = 21 then 1 else 2

/-- A walk with the same virtual function and VA bits 55:16. -/
def sameWalk (vf va : Nat) (w : Walk) : Bool := w.vf == vf && w.va / 65536 == va / 65536

/-- VALE_TLB_LOOKUP: a request hits, merges with a walk or a queued miss, takes a walker, or is queued
(R101). -/
def execValeTlbLookup (k idx : Nat) (s : State) : Host.Outcome State Fault Refusal :=
  let s := bump s
  let c := coreOf s k
  match c.treq.find? idx with
  | none => .next s
  | some r =>
    if r.walking ∨ isFrozen s k then .next s
    else
      let v := valeOf s (k / 192)
      let vf := vfOfCore s k
      match v.tlb.find? (·.covers vf r.va) with
      | some t =>
        .next (answerOk s k idx t 255)
      | none =>
        let me := (k, idx)
        let walking := modCore s k fun c => { c with treq := c.treq.insert idx { r with walking := true } }
        match List.find? (fun e : Nat × Walk => sameWalk vf r.va e.2) v.walkers with
        | some (i, w) => .next (modVale walking (k / 192) fun v => { v with
            walkers := v.walkers.insert i { w with waiters := w.waiters ++ [me] } })
        | none =>
          if v.missQueue.any (sameWalk vf r.va) then
            .next (modVale walking (k / 192) fun v => { v with
              missQueue := v.missQueue.map fun w => if sameWalk vf r.va w then { w with waiters := w.waiters ++ [me] } else w })
          else
            let w : Walk := { vf := vf, va := r.va, waiters := [me] }
            match freeIndex v.walkers 64 with
            | some i => .next (modVale walking (k / 192) fun v => { v with walkers := v.walkers.insert i w })
            | none =>
              if v.missQueue.length < 4096 then
                .next (modVale walking (k / 192) fun v => { v with missQueue := v.missQueue ++ [w] })
              else .next s

/-- The next queued miss takes a walker that has become free. -/
def nextMiss (s : State) (vale walker : Nat) : State :=
  modVale s vale fun v => match v.missQueue with
    | [] => v
    | w :: rest => { v with walkers := v.walkers.insert walker w, missQueue := rest }

/-- Every waiter of a walk that is not frozen is answered. -/
def answerAll (s : State) (waiters : List (Nat × Nat)) (f : State → Nat → Nat → State) : State :=
  waiters.foldl (fun st w => if isFrozen st w.1 then st else f st w.1 w.2) s

/-- PAGE_WALK_COMPLETE: a walk fills the Vale TLB and answers its waiters, a large page the queued misses that
lie in it too; a finding goes to every waiter and fills nothing (R101, R398). -/
def execPageWalkComplete (vale walker : Nat) (retryExhausted : Bool) (s : State) : Host.Outcome State Fault Refusal :=
  let s := bump s
  match (valeOf s vale).walkers.find? walker with
  | none => .next s
  | some w =>
    if ¬ retryExhausted ∧ walkHeld s (some vale) w.vf w.va = true then .next s
    else
    let s := modVale s vale fun v => { v with walkers := v.walkers.erase walker }
    match walkVale s vale w.vf w.va (w.waiters.filterMap fun q => ((coreOf s q.1).treq.find? q.2).map (·.access)) retryExhausted with
    | (.bad f, s) => .next (nextMiss (answerAll s w.waiters fun st k i => answerBad st k i f) vale walker)
    | (.ok t, s) =>
      let inside := fun (q : Walk) => q.vf == w.vf && t.covers w.vf q.va
      let extra := ((valeOf s vale).missQueue.filter inside).flatMap (·.waiters)
      let s := modVale s vale fun v => { v with missQueue := v.missQueue.filter fun q => !inside q }
      .next (nextMiss (answerAll s (w.waiters ++ extra) fun st k i => answerOk st k i t (leafLevel t)) vale walker)

/-! ## Fills (R105, R106) -/

/-- A core k that exceeds its buffered stores (R106). -/
def overflowAt (s : State) (k : Nat) : State :=
  let c := coreOf s k
  if overflowed c then stopFatal s k 0x14 c.pc.toNat 0 0 0 else s

/-- STASH_FILL: the line of a load entry arrives in a slot, and its entry leaves the record (R105). The fill of a `probe`
never stops its core: one that would make it exceed its buffered stores is dropped (R404). -/
def execStashFill (k e : Nat) (s : State) : Host.Outcome State Fault Refusal :=
  let s := bump s
  match (coreOf s k).loads.find? e with
  | none => .next s
  | some x =>
    let va := x.addr.toNat
    if x.kind = 2 ∨ x.faulted ∨ isFrozen s k then .next s
    else match reissue s k (ordLoad e) with
    | none => .next s
    | some s =>
      let dropped := modCore s k fun c => dropLoad c e
      match firstLevel s k va (if x.write then 1 else 0) (loadRequest e) with
      | .finding f => .next (loadFault s k e x f)
      | .miss s => .next s
      | .hit t s =>
        let pa := t.phys va
        if parkedIn s (pa / 128 * 128) 128 then .next s
        else
          let filled := modCore (stashFillLine (chargeCoreAccess s k pa) k va pa t.w) k fun c => dropLoad c e
          .next (if x.kind = 1 ∧ overflowed (coreOf filled k) = true then chargeCoreAccess dropped k pa else overflowAt filled k)

/-! ## Atomics in the own stash (R108, R140) -/

/-- Bytes at an address of a slot's line written into the slot where the core has not stored them itself (R108). -/
def slotRefresh (s : State) (k i : Nat) (sl : StashSlot) (va : Nat) (bs : List Byte) : State :=
  bs.zipIdx.foldl (fun st e =>
    if sl.dirty.getLsbD (va % 128 + e.2) then st
    else modCore st k fun c => { c with spm := c.spm.write (stashOffset c i + va % 128 + e.2) e.1 }) s

/-- A slot's line as the grant of its ownership brings it from home, under the bytes that the core has stored itself; the
poison of its words comes with it (R108, R112, R405). -/
def lineRefresh (s : State) (k i : Nat) (sl : StashSlot) : State :=
  let s := slotRefresh s k i sl sl.va (physRead s sl.pa 128)
  (List.range 16).foldl (fun st j =>
    let bad := physPoisoned st (sl.pa + 8 * j) 8
    let mine := (setBits sl.dirty).any fun b => b / 8 == j
    modCore st k fun c =>
      let o := stashOffset c i + 8 * j
      if bad then { c with spm := c.spm.poisonWord (o / 8) }
      else if mine then c else { c with spm := c.spm.clearPoison o 8 }) s

/-- An atomic on a line homed in the own Vale: the word's new value at its home, or parked for it in a write-protect
window, the line in the stash and owned exclusively (R107, R108, R120). -/
def ownStashApply (s : State) (k va pa : Nat) (w : Bool) (n new : Nat) : State :=
  let bytes := leBytes n new
  let s := lineWrite s pa bytes
  let s := match stashFind (coreOf s k) va with
    | some (i, sl) => lineRefresh s k i sl
    | none => stashFillLine s k va pa w
  let s := match stashFind (coreOf s k) va with
    | some (i, sl) => slotRefresh s k i sl va bytes
    | none => s
  let s := modVale s (k / 192) fun v => { v with owners := v.owners.insert (pa / 128) k }
  modCore s k fun c => match stashFind c va with
    | some (i, sl) => { c with stash := c.stash.insert i { sl with owned := true, used := c.clk } }
    | none => c

/-- Is the word of an atomic poisoned, at home or in the stash slot (R405)? -/
def atomicPoisoned (s : State) (k va pa n : Nat) : Bool :=
  physPoisoned s pa n || (match stashFind (coreOf s k) va with
    | some (i, _) => slotPoisoned (coreOf s k) i va n
    | none => false)

/-- The w bit of the page that a translation kept by core k gives. -/
def pageWritable (s : State) (k va : Nat) : Bool :=
  match tlbLookup s k (vfOfCore s k) va with
  | some t => t.w
  | none => true

/-- An own-Vale atomic has been applied: a posted one leaves the record; an interlocked one delivers its old value to the
bundle that it holds, and its entry keeps it until that bundle issues (R140, R337, R338). -/
def deliverOwn (s : State) (k e : Nat) (x : LoadEntry) (old : Word) : State :=
  modCore s k fun c =>
    if x.interlocked && c.held.atomicSent then
      { c with
        held := { c.held with atomicResult := some old }
        loads := c.loads.insert e { x with applied := true, expected := old } }
    else dropLoad c e

/-- OWNERSHIP_GRANT: the home directory grants the line of an own-Vale atomic; it is applied in the stash, and
an interlocked one delivers its old value (R108, R140). An entry recorded as applied delivers what it recorded (R338). -/
def execOwnershipGrant (k e : Nat) (s : State) : Host.Outcome State Fault Refusal :=
  let s := bump s
  match (coreOf s k).loads.find? e with
  | none => .next s
  | some x =>
    let va := x.addr.toNat
    let n := 2 ^ x.sz
    if x.kind ≠ 2 ∨ x.faulted ∨ isFrozen s k ∨ translateHeld s k (vfOfCore s k) va
      ∨ earlierOnLine s k (ordLoad e) (elemLine s k { addr := x.addr } 0) then .next s
    else match reissue s k (ordLoad e) with
    | none => .next s
    | some s =>
      if x.applied then .next (deliverOwn s k e x x.expected)
      else match translate s k (vfOfCore s k) va 2 with
      | (.error f, s) => .next (loadFault s k e x f)
      | (.ok pa, s) =>
        if slotRefuses s k (.globalAddr va) then .next (loadFault s k e x { cause := 0x10, reason := 4 })
        else if updateWaits s pa n then .next s
        else
          let s := touch s pa n
          if atomicPoisoned s k va pa n then
            .next (dropPoisonedLines (loadFault s k e x { cause := 3 }) k)
          else
            let old := leNat (physRead s pa n)
            let new := atomicNew x.cas x.aop n old x.operand.toNat x.expected.toNat
            let s := ownStashApply (chargeCoreAccess s k pa) k va pa (pageWritable s k va) n new
            .next (overflowAt (deliverOwn s k e x (extend (n == 4) n old)) k)

/-! ## Remote atomics (R108, R201, R339, R340) -/

/-- The operation of a `vamo` element under its type (R201), with the flags it raises (R381): `min` and `max`
follow the signedness of ty. -/
def vamoElement (ty aop rm old v : Nat) : Nat × Flags :=
  if ty = 0 then
    match aop with
    | 0 => add32 (rmOf (BitVec.ofNat 2 rm)) (decodeFloat fmt32 old) (decodeFloat fmt32 v)
    | 4 => minMax .fp32 false old v
    | 5 => minMax .fp32 true old v
    | _ => (v, 0)
  else if ty = 12 ∧ aop = 4 then (amoOp 6 4 old v, 0)
  else if ty = 12 ∧ aop = 5 then (amoOp 7 4 old v, 0)
  else (amoOp aop 4 old v, 0)

/-- What a `vamo` element leaves in its word. -/
def vamoNew (ty aop rm old v : Nat) : Nat := (vamoElement ty aop rm old v).1

/-- The new value of the word of element j. -/
def elemNew (x : AtomicEntry) (j old : Nat) : Nat :=
  match x.kind with
  | 0 => amoOp x.aop (elemBytes x) old x.operand.toNat
  | 1 => atomicNew true 0 (elemBytes x) old x.newv.toNat x.operand.toNat
  | _ => vamoNew x.ty x.aop x.rm old (lane x.vc ((elemLanes x).getD j 0)).toNat

/-- The flags that element j raises when the word it meets holds `old` (R381). -/
def elemFlags (x : AtomicEntry) (j old : Nat) : Flags :=
  if x.kind = 2 then (vamoElement x.ty x.aop x.rm old (lane x.vc ((elemLanes x).getD j 0)).toNat).2 else 0

/-- How sending an element ends. -/
inductive Sent where
  /-- sent and applied, its acknowledgement to come -/
  | sent (s : State)
  /-- applied by an agent of the core itself, which needs none -/
  | applied (old : Nat) (s : State)
  | wait
  | fault (f : Finding) (va : Nat) (s : State)

/-- Is the element of a tag parked in a write-protect window already (R409)? -/
def isParked (s : State) (src seq : Nat) : Bool :=
  s.vfs.any fun v => match v.2.tier with
    | some t => t.parked.any fun p => match p with
      | .atomic _ a b _ _ => a == src && b == seq
      | _ => false
    | none => false

/-- Element j of an entry sent to its target and applied there (R108, R339). A target that stores its tag applies
nothing, and a request sent before goes to that target without a translation (R406). -/
def sendElem (s : State) (k : Nat) (x : AtomicEntry) (j : Nat) : Sent :=
  let n := elemBytes x
  let src := coreSource s k
  let seq := (x.seq0 + j) % 2 ^ 40
  let first := x.first = x.sent
  if (tagAnywhere s src seq).isSome || isParked s src seq then .sent (chargeCore s k)
  else match elemAddr x j with
  | .malformed => .fault { cause := 0x10, reason := 8 } 0 s
  | .localAddr a =>
    match resolveLocal s k a with
    | .error r => .fault { cause := 0x10, reason := r } 0 s
    | .ok (.spill _) => .fault { cause := 0x10, reason := 8 } 0 s
    | .ok (.spm i o) =>
      let m := (coreOf s i).spm
      let old := leNat (m.readN o n)
      if portDead s k i then .wait
      else if m.poisoned o n then .fault { cause := 3 } 0 s
      else if i = k then
        if first then .applied old (spmWrite (chargeCore s k) k o (leBytes n (elemNew x j old))) else .wait
      else
        .sent (modCore (spmWrite (chargeCore (chargeCore s k) i) i o (leBytes n (elemNew x j old))) i fun c =>
          { c with portTags := storeTag c.portTags src (seq, BitVec.ofNat 64 old) })
  | .globalAddr va =>
    if translateHeld s k (vfOfCore s k) va then .wait
    else match translate s k (vfOfCore s k) va 2 with
    | (.error f, s) => .fault f va s
    | (.ok pa, s) =>
      let own := homeVale pa = some (k / 192)
      if (windowOf s (pa / 65536)).isSome ∧ ¬ own then
        if parkFull s pa then .wait
        else match windowOf s (pa / 65536) with
          | some vf => .sent (modVf s vf fun v => { v with
              tier := v.tier.map fun t => { t with parked := t.parked ++ [.atomic pa src seq x j] } })
          | none => .wait
      else if own ∧ (¬ first ∨ updateWaits s pa n = true) then .wait
      else if slotRefuses s k (.globalAddr va) then .fault { cause := 0x10, reason := 4 } va s
      else
        let s := touch s pa n
        if own ∧ atomicPoisoned s k va pa n = true then .fault { cause := 3 } va (dropPoisonedLines s k)
        else if physPoisoned s pa n then .fault { cause := 3 } va s
        else
          let s := chargeCoreAccess s k pa
          let old := leNat (physRead s pa n)
          let new := elemNew x j old
          match homeVale pa with
          | some v =>
            if v = k / 192 then .applied old (ownStashApply s k va pa (pageWritable s k va) n new)
            else .sent (modVale (lineWrite s pa (leBytes n new)) v fun w =>
              { w with cacheTags := storeTag w.cacheTags src (seq, BitVec.ofNat 64 old) })
          | none =>
            let s := lineWrite s pa (leBytes n new)
            .sent { s with io := { s.io with tags := storeTag s.io.tags src (seq, BitVec.ofNat 64 old) } }

/-- An entry whose elements have all been acknowledged: it leaves the record, but that of an interlocked atomic delivers its
result to the bundle that it holds, and keeps it until that bundle issues (R140, R337). -/
def deliverRemote (c : Core) (e : Nat) (x : AtomicEntry) : Core :=
  if x.kind ≠ 2 ∧ x.interlocked = true ∧ c.held.atomicSent = true then
    { c with held := { c.held with atomicResult := some x.result }, atomics := c.atomics.insert e x }
  else dropAtomic c e

/-- The next element of an entry acknowledged with its old value: a `vamo` element's flags reach `astat` (R381,
R382), and after the last one the entry has been served. -/
def acknowledge (s : State) (k e : Nat) (x : AtomicEntry) (old : Nat) : State :=
  let c := coreOf s k
  let c := { c with astat := astatMerge c.astat (elemFlags x x.first old) }
  let x := { x with first := x.first + 1, result := extend (elemBytes x == 4) (elemBytes x) old }
  setCore s k (if x.first < (elemLanes x).length then { c with atomics := c.atomics.insert e x } else deliverRemote c e x)

/-- ATOMIC_APPLY: the next element of a remote-atomic entry is sent and applied in its line's total order
(R108), with at most 16 requests of the core unacknowledged (R340). -/
def execAtomicApply (k e : Nat) (s : State) : Host.Outcome State Fault Refusal :=
  let s := bump s
  let c := coreOf s k
  match c.atomics.find? e with
  | none => .next s
  | some x =>
    let j := x.sent
    if x.faulted ∨ isFrozen s k ∨ (elemLanes x).length ≤ j ∨ 16 ≤ unacknowledged c ∨ ¬ replayTurn c (ordAtomic e)
      ∨ earlierOnLine s k (ordAtomic e) (elemLine s k x j) ∨ replayWaits s k (ordAtomic e) then .next s
    else match sendElem s k x j with
      | .wait => .next s
      | .fault f va s => .next (atomicFault s k e x j va f)
      | .sent s =>
        let s := modCore s k fun c => { c with atomics := c.atomics.insert e { x with sent := j + 1 } }
        .next (if x.resend ≤ j ∨ (elemLanes x).length = j + 1 then (reissue s k (ordAtomic e)).getD s else s)
      | .applied old s =>
        .next (overflowAt (acknowledge ((reissue s k (ordAtomic e)).getD s) k e { x with sent := j + 1 } old) k)

/-- ATOMIC_RESPONSE: the oldest unacknowledged element of an entry is acknowledged with the result that its
target stores (R140, R339); an entry with nothing left, as a settle marks one or a replay finds one, delivers what it has
recorded (R337, R349). -/
def execAtomicResponse (k e : Nat) (s : State) : Host.Outcome State Fault Refusal :=
  let s := bump s
  match (coreOf s k).atomics.find? e with
  | none => .next s
  | some x =>
    if x.faulted ∨ isFrozen s k then .next s
    else if (elemLanes x).length ≤ x.first then
      .next (match reissue s k (ordAtomic e) with
        | none => s
        | some s => modCore s k fun c => deliverRemote c e x)
    else if x.sent ≤ x.first then .next s
    else match tagAnywhere s (coreSource s k) ((x.seq0 + x.first) % 2 ^ 40) with
      | none => .next s
      | some r => .next (acknowledge s k e x r.toNat)

end Sys2Proof.Machine
end

