-- ==== Sys2Proof/Machine/Scalar.lean ====
section
/-! DEFINITION. The S slot: integer arithmetic, immediates, compares, predicates, loads and stores, the stash,
the scale queue's loads, atomics, branches, loops, `halt`, gang operations, waits, time, CSRs and traps (R149 to
R177). Each operation has its effect (`eff...`), which the bundle dispatcher also runs, and its meaning as one
slot operation (`exec...`). -/

namespace Sys2Proof.Machine

open Sys2Proof

/-! ## Integer arithmetic and logic (R152, R153) -/

/-- A guarded register operation: sd := g(s[sa], s[sb]) where its guard holds (R129, R152). -/
def srEff (s : State) (f : SR) (bound : Nat) (g : Word → Word → Word) : State :=
  if branchTaken s f.pg f.pn then issueS s f.sd.toNat (g (sRead s f.sa.toNat) (sRead s f.sb.toNat)) bound else s

/-- The amount of a scalar shift: bits 5:0 (R152). -/
def shiftAmount (y : Word) : Nat := y.toNat % 64

/-- Number of leading zeros; 64 for zero (R152). -/
def leadingZeros (x : Word) : Nat := if x = 0 then 64 else 63 - Nat.log2 x.toNat

/-- Number of 1 bits (R152). -/
def popCount (x : Word) : Nat := ((List.range 64).filter fun i => x.getLsbD i).length

/-- The effect of `add` (R152). -/
def effAdd (f : SR) (s : State) : State :=
  srEff s f 1 fun x y => x + y
/-- `add` (R152). -/
def execAdd (f : SR) (s : State) : Host.Outcome State Fault Refusal := issueSlot (.add f) (effAdd f) s

/-- The effect of `sub` (R152). -/
def effSub (f : SR) (s : State) : State :=
  srEff s f 1 fun x y => x - y
/-- `sub` (R152). -/
def execSub (f : SR) (s : State) : Host.Outcome State Fault Refusal := issueSlot (.sub f) (effSub f) s

/-- The effect of `and` (R152). -/
def effSAnd (f : SR) (s : State) : State :=
  srEff s f 1 fun x y => x &&& y
/-- `and` (R152). -/
def execSAnd (f : SR) (s : State) : Host.Outcome State Fault Refusal := issueSlot (.sAnd f) (effSAnd f) s

/-- The effect of `or` (R152). -/
def effSOr (f : SR) (s : State) : State :=
  srEff s f 1 fun x y => x ||| y
/-- `or` (R152). -/
def execSOr (f : SR) (s : State) : Host.Outcome State Fault Refusal := issueSlot (.sOr f) (effSOr f) s

/-- The effect of `xor` (R152). -/
def effXor (f : SR) (s : State) : State :=
  srEff s f 1 fun x y => x ^^^ y
/-- `xor` (R152). -/
def execXor (f : SR) (s : State) : Host.Outcome State Fault Refusal := issueSlot (.xor f) (effXor f) s

/-- The effect of `shl` (R152). -/
def effShl (f : SR) (s : State) : State :=
  srEff s f 1 fun x y => x <<< shiftAmount y
/-- `shl` (R152). -/
def execShl (f : SR) (s : State) : Host.Outcome State Fault Refusal := issueSlot (.shl f) (effShl f) s

/-- The effect of `shr` (R152). -/
def effShr (f : SR) (s : State) : State :=
  srEff s f 1 fun x y => x >>> shiftAmount y
/-- `shr` (R152). -/
def execShr (f : SR) (s : State) : Host.Outcome State Fault Refusal := issueSlot (.shr f) (effShr f) s

/-- The effect of `sra` (R152). -/
def effSra (f : SR) (s : State) : State :=
  srEff s f 1 fun x y => x.sshiftRight (shiftAmount y)
/-- `sra` (R152). -/
def execSra (f : SR) (s : State) : Host.Outcome State Fault Refusal := issueSlot (.sra f) (effSra f) s

/-- The effect of `mul` (R152). -/
def effMul (f : SR) (s : State) : State :=
  srEff s f 3 fun x y => x * y
/-- `mul` (R152). -/
def execMul (f : SR) (s : State) : Host.Outcome State Fault Refusal := issueSlot (.mul f) (effMul f) s

/-- The effect of `mulh` (R152). -/
def effMulh (f : SR) (s : State) : State :=
  srEff s f 3 fun x y => BitVec.ofInt 64 (x.toInt * y.toInt / 2 ^ 64)
/-- `mulh` (R152). -/
def execMulh (f : SR) (s : State) : Host.Outcome State Fault Refusal := issueSlot (.mulh f) (effMulh f) s

/-- The effect of `mulhu` (R152). -/
def effMulhu (f : SR) (s : State) : State :=
  srEff s f 3 fun x y => BitVec.ofNat 64 (x.toNat * y.toNat / 2 ^ 64)
/-- `mulhu` (R152). -/
def execMulhu (f : SR) (s : State) : Host.Outcome State Fault Refusal := issueSlot (.mulhu f) (effMulhu f) s

/-- The effect of `min` (R152). -/
def effMin (f : SR) (s : State) : State :=
  srEff s f 1 fun x y => if x.toInt ≤ y.toInt then x else y
/-- `min` (R152). -/
def execMin (f : SR) (s : State) : Host.Outcome State Fault Refusal := issueSlot (.min f) (effMin f) s

/-- The effect of `max` (R152). -/
def effMax (f : SR) (s : State) : State :=
  srEff s f 1 fun x y => if x.toInt ≤ y.toInt then y else x
/-- `max` (R152). -/
def execMax (f : SR) (s : State) : Host.Outcome State Fault Refusal := issueSlot (.max f) (effMax f) s

/-- The effect of `minu` (R152). -/
def effMinu (f : SR) (s : State) : State :=
  srEff s f 1 fun x y => if x.toNat ≤ y.toNat then x else y
/-- `minu` (R152). -/
def execMinu (f : SR) (s : State) : Host.Outcome State Fault Refusal := issueSlot (.minu f) (effMinu f) s

/-- The effect of `maxu` (R152). -/
def effMaxu (f : SR) (s : State) : State :=
  srEff s f 1 fun x y => if x.toNat ≤ y.toNat then y else x
/-- `maxu` (R152). -/
def execMaxu (f : SR) (s : State) : Host.Outcome State Fault Refusal := issueSlot (.maxu f) (effMaxu f) s

/-- The effect of `clz` (R152). -/
def effClz (f : SR) (s : State) : State :=
  srEff s f 1 fun x _ => BitVec.ofNat 64 (leadingZeros x)
/-- `clz` (R152). -/
def execClz (f : SR) (s : State) : Host.Outcome State Fault Refusal := issueSlot (.clz f) (effClz f) s

/-- The effect of `popc` (R152). -/
def effPopc (f : SR) (s : State) : State :=
  srEff s f 1 fun x _ => BitVec.ofNat 64 (popCount x)
/-- `popc` (R152). -/
def execPopc (f : SR) (s : State) : Host.Outcome State Fault Refusal := issueSlot (.popc f) (effPopc f) s

/-- The effect of `sel`, whose write always takes place (R153). -/
def effSel (f : SR) (s : State) : State :=
  issueS s f.sd.toNat (if branchTaken s f.pg f.pn then sRead s f.sa.toNat else sRead s f.sb.toNat) 1
/-- `sel`, whose write always takes place (R153). -/
def execSel (f : SR) (s : State) : Host.Outcome State Fault Refusal := issueSlot (.sel f) (effSel f) s

/-! ## Immediates (R154) -/

/-- An immediate operation: sd := g(s[sa], imm). -/
def siEff (s : State) (f : SI) (g : Word → Word → Word) : State :=
  issueS s f.sd.toNat (g (sRead s f.sa.toNat) (immOf f.imm f.ext)) 1

/-- The effect of `addi` (R154). -/
def effAddi (f : SI) (s : State) : State :=
  siEff s f fun x k => x + k
/-- `addi` (R154). -/
def execAddi (f : SI) (s : State) : Host.Outcome State Fault Refusal := issueSlot (.addi f) (effAddi f) s

/-- The effect of `andi` (R154). -/
def effAndi (f : SI) (s : State) : State :=
  siEff s f fun x k => x &&& k
/-- `andi` (R154). -/
def execAndi (f : SI) (s : State) : Host.Outcome State Fault Refusal := issueSlot (.andi f) (effAndi f) s

/-- The effect of `ori` (R154). -/
def effOri (f : SI) (s : State) : State :=
  siEff s f fun x k => x ||| k
/-- `ori` (R154). -/
def execOri (f : SI) (s : State) : Host.Outcome State Fault Refusal := issueSlot (.ori f) (effOri f) s

/-- The effect of `xori` (R154). -/
def effXori (f : SI) (s : State) : State :=
  siEff s f fun x k => x ^^^ k
/-- `xori` (R154). -/
def execXori (f : SI) (s : State) : Host.Outcome State Fault Refusal := issueSlot (.xori f) (effXori f) s

/-- The effect of `shli`, by 0 to 63 (R154). -/
def effShli (f : SI) (s : State) : State :=
  siEff s f fun x _ => x <<< f.imm.toNat
/-- `shli`, by 0 to 63 (R154). -/
def execShli (f : SI) (s : State) : Host.Outcome State Fault Refusal := issueSlot (.shli f) (effShli f) s

/-- The effect of `shri`, by 0 to 63 (R154). -/
def effShri (f : SI) (s : State) : State :=
  siEff s f fun x _ => x >>> f.imm.toNat
/-- `shri`, by 0 to 63 (R154). -/
def execShri (f : SI) (s : State) : Host.Outcome State Fault Refusal := issueSlot (.shri f) (effShri f) s

/-- The effect of `srai`, by 0 to 63 (R154). -/
def effSrai (f : SI) (s : State) : State :=
  siEff s f fun x _ => x.sshiftRight f.imm.toNat
/-- `srai`, by 0 to 63 (R154). -/
def execSrai (f : SI) (s : State) : Host.Outcome State Fault Refusal := issueSlot (.srai f) (effSrai f) s

/-- The effect of `li` (R154). -/
def effLi (f : SI) (s : State) : State :=
  siEff s f fun _ k => k
/-- `li` (R154). -/
def execLi (f : SI) (s : State) : Host.Outcome State Fault Refusal := issueSlot (.li f) (effLi f) s

/-- The effect of `lih`, which reads its own destination (R154). -/
def effLih (f : SI) (s : State) : State :=
  issueS s f.sd.toNat ((immOf f.imm f.ext).extractLsb' 0 32 ++ (sRead s f.sd.toNat).extractLsb' 0 32) 1
/-- `lih`, which reads its own destination (R154). -/
def execLih (f : SI) (s : State) : Host.Outcome State Fault Refusal := issueSlot (.lih f) (effLih f) s

/-! ## Compares and predicates (R155, R156) -/

/-- The conditions of R128 and R155. -/
def condition (cc : BitVec 3) (x y : Word) : Bool :=
  match cc.toNat with
  | 0 => x == y
  | 1 => x != y
  | 2 => decide (x.toInt < y.toInt)
  | 3 => decide (x.toNat < y.toNat)
  | 4 => decide (x.toInt ≤ y.toInt)
  | _ => decide (x.toNat ≤ y.toNat)

/-- The effect of `cmp` (R155). -/
def effCmp (f : SCR) (s : State) : State :=
  issueP s f.pd.toNat (condition f.cc (sRead s f.sa.toNat) (sRead s f.sb.toNat)) 1
/-- `cmp` (R155). -/
def execCmp (f : SCR) (s : State) : Host.Outcome State Fault Refusal := issueSlot (.cmp f) (effCmp f) s

/-- The effect of `cmpi` (R155). -/
def effCmpi (f : SCI) (s : State) : State :=
  issueP s f.pd.toNat (condition f.cc (sRead s f.sa.toNat) (immOf f.imm f.ext)) 1
/-- `cmpi` (R155). -/
def execCmpi (f : SCI) (s : State) : Host.Outcome State Fault Refusal := issueSlot (.cmpi f) (effCmpi f) s

/-- The effect of `plog` (R156). -/
def effPlog (f : SP) (s : State) : State :=
  let j := (if pRead s f.pa.toNat then 2 else 0) + if pRead s f.pb.toNat then 1 else 0
  issueP s f.pd.toNat (f.tt.getLsbD j) 1
/-- `plog` (R156). -/
def execPlog (f : SP) (s : State) : Host.Outcome State Fault Refusal := issueSlot (.plog f) (effPlog f) s

/-! ## Loads and stores (R157 to R160) -/

/-- The low n bytes of a register. -/
def lowBytes (n : Nat) (w : Word) : List Byte := leBytes n w.toNat

/-- The effect of `ld` (R157). -/
def effLd (f : SM) (s : State) : State :=
  match resolveLocal s s.core (smAddr s f).toNat with
  | .error _ => s
  | .ok l =>
    let n := sizeOf2 f.sz
    issueS s f.sd.toNat (extend (f.sx == 1) n (leNat (locRead s s.core l n))) (readBound s.core l)
/-- `ld` (R157). -/
def execLd (f : SM) (s : State) : Host.Outcome State Fault Refusal := issueSlot (.ld f) (effLd f) s

/-- The effect of `st` (R157). -/
def effSt (f : SM) (s : State) : State :=
  match resolveLocal s s.core (smAddr s f).toNat with
  | .error _ => s
  | .ok l => postStore s l (lowBytes (sizeOf2 f.sz) (sRead s f.sd.toNat))
/-- `st` (R157). -/
def execSt (f : SM) (s : State) : Host.Outcome State Fault Refusal := issueSlot (.st f) (effSt f) s

/-- The effect of `lds` (R157). -/
def effLds (f : SS) (s : State) : State :=
  let n := sizeOf2 f.sz
  issueS s f.sd.toNat (extend (f.sx == 1) n (leNat (locRead s s.core (.spill f.off.toNat) n))) 1
/-- `lds` (R157). -/
def execLds (f : SS) (s : State) : Host.Outcome State Fault Refusal := issueSlot (.lds f) (effLds f) s

/-- The effect of `sts` (R157). -/
def effSts (f : SS) (s : State) : State :=
  postStore s (.spill f.off.toNat) (lowBytes (sizeOf2 f.sz) (sRead s f.sd.toNat))
/-- `sts` (R157). -/
def execSts (f : SS) (s : State) : Host.Outcome State Fault Refusal := issueSlot (.sts f) (effSts f) s

/-- The effect of `ldg`: the line stands in the stash when the bundle issues (R158). -/
def effLdg (f : SM) (s : State) : State :=
  let va := (smAddr s f).toNat
  let n := sizeOf2 f.sz
  match stashFind (curCore s) va with
  | none => s
  | some (i, sl) =>
    let v := leNat (slotBytes (curCore s) i va n)
    issueS (modCore s s.core fun c => stashUse c i sl) f.sd.toNat (extend (f.sx == 1) n v) 6
/-- `ldg`: the line stands in the stash when the bundle issues (R158). -/
def execLdg (f : SM) (s : State) : Host.Outcome State Fault Refusal := issueSlot (.ldg f) (effLdg f) s

/-- The effect of `stg`: the line stands in the stash when the bundle issues (R158). -/
def effStg (f : SM) (s : State) : State :=
  let va := (smAddr s f).toNat
  match stashFind (curCore s) va with
  | none => s
  | some (i, sl) => slotStore s s.core i sl va (lowBytes (sizeOf2 f.sz) (sRead s f.sd.toNat))
/-- `stg`: the line stands in the stash when the bundle issues (R158). -/
def execStg (f : SM) (s : State) : Host.Outcome State Fault Refusal := issueSlot (.stg f) (effStg f) s

/-- The effect of `probe`: hit, queued miss, or a miss that is not queued (R159). -/
def effProbe (f : SM) (s : State) : State :=
  let va := (smAddr s f).toNat
  let result := fun (st : State) (v : Nat) => issueS st f.sd.toNat (BitVec.ofNat 64 v) 6
  match stashFind (curCore s) va with
  | some (i, sl) =>
    result (modCore s s.core fun c => stashUse c i sl) (0xFF * 2 ^ 22 + stashOffset (curCore s) i + va % 128)
  | none =>
    match lineFill (curCore s) va with
    | some _ => result s (2 * 2 ^ 62)
    | none =>
      match takeLoad s s.core { addr := BitVec.ofNat 64 va, kind := 1 } with
      | some (_, s') => result s' (2 * 2 ^ 62)
      | none => result s (3 * 2 ^ 62)
/-- `probe`: hit, queued miss, or a miss that is not queued (R159). -/
def execProbe (f : SM) (s : State) : Host.Outcome State Fault Refusal := issueSlot (.probe f) (effProbe f) s

/-- The effect of `sqld` (R160). -/
def effSqld (f : SM) (s : State) : State :=
  match resolveLocal s s.core (smAddr s f).toNat with
  | .error _ => s
  | .ok l =>
    let bytes := locRead s s.core l (sizeOf2 f.sz)
    modCore s s.core fun c => { c with sq := c.sq ++ bytes.map SqItem.scale }
/-- `sqld` (R160). -/
def execSqld (f : SM) (s : State) : Host.Outcome State Fault Refusal := issueSlot (.sqld f) (effSqld f) s

/-! ## Atomics (R161) -/

/-- The result of the atomic that held the bundle, in sd: a posted one delivers none (R140). -/
def atomicEff (s : State) (f : SA) : State :=
  match (curCore s).held.atomicResult with
  | some v => issueS s f.sd.toNat v 6
  | none => s

/-- The effect of `amo` (R140, R161): applied or posted as the bundle reached issue. -/
def effAmo (f : SA) (s : State) : State :=
  atomicEff s f
/-- `amo` (R140, R161): applied or posted as the bundle reached issue. -/
def execAmo (f : SA) (s : State) : Host.Outcome State Fault Refusal := issueSlot (.amo f) (effAmo f) s

/-- The effect of `cas` (R140, R161): applied or posted as the bundle reached issue. -/
def effCas (f : SA) (s : State) : State :=
  atomicEff s f
/-- `cas` (R140, R161): applied or posted as the bundle reached issue. -/
def execCas (f : SA) (s : State) : Host.Outcome State Fault Refusal := issueSlot (.cas f) (effCas f) s

/-! ## Branches and loops (R162 to R165) -/

/-- The address of the bundle that issues. -/
def bundlePc (s : State) : Word := (curCore s).pc

/-- A taken branch: loops whose bodies do not hold the target end (R165). -/
def leaveLoops (c : Core) (target : Word) : Core :=
  { c with l := c.l.map fun e =>
      (e.1, if e.2.active && !(decide (e.2.start.toNat ≤ target.toNat) && decide (target.toNat ≤ e.2.last.toNat))
        then { e.2 with active := false } else e.2) }

/-- The bundle's branch. -/
def branchTo (s : State) (target : Word) : State :=
  modCore s s.core fun c => { leaveLoops c target with branch := some target }

/-- The effect of `pbr` (R162). -/
def effPbr (off : BitVec 20) (ext : Option (BitVec 24)) (b : BitVec 3) (s : State) : State :=
  issueB s b.toNat (bundlePc s + 32 * immOf off ext) 1
/-- `pbr` (R162). -/
def execPbr (off : BitVec 20) (ext : Option (BitVec 24)) (b : BitVec 3) (s : State) : Host.Outcome State Fault Refusal := issueSlot (.pbr off ext b) (effPbr off ext b) s

/-- The effect of `pbrr` (R162). -/
def effPbrr (sa : BitVec 6) (b : BitVec 3) (s : State) : State :=
  issueB s b.toNat (sRead s sa.toNat) 1
/-- `pbrr` (R162). -/
def execPbrr (sa : BitVec 6) (b : BitVec 3) (s : State) : Host.Outcome State Fault Refusal := issueSlot (.pbrr sa b) (effPbrr sa b) s

/-- The effect of `br` (R162). -/
def effBr (pg : BitVec 4) (pn : BitVec 1) (b : BitVec 3) (s : State) : State :=
  if branchTaken s pg pn then branchTo s (bRead s b.toNat) else s
/-- `br` (R162). -/
def execBr (pg : BitVec 4) (pn : BitVec 1) (b : BitVec 3) (s : State) : Host.Outcome State Fault Refusal := issueSlot (.br pg pn b) (effBr pg pn b) s

/-- The effect of `brl`, which links only when taken (R162). -/
def effBrl (sd : BitVec 6) (pg : BitVec 4) (pn : BitVec 1) (b : BitVec 3) (s : State) : State :=
  if branchTaken s pg pn then issueS (branchTo s (bRead s b.toNat)) sd.toNat (bundlePc s + 32) 1 else s
/-- `brl`, which links only when taken (R162). -/
def execBrl (sd : BitVec 6) (pg : BitVec 4) (pn : BitVec 1) (b : BitVec 3) (s : State) : Host.Outcome State Fault Refusal := issueSlot (.brl sd pg pn b) (effBrl sd pg pn b) s

/-- The effect of `loop` (R164, R165). DESIGN CHOICE (log entry 154): the skip over a loop with count 0 counts as a taken
branch, so that in the last bundle of an enclosing active loop it suppresses that loop's return. -/
def effLoop (off : BitVec 16) (sa : BitVec 6) (l : BitVec 2) (s : State) : State :=
  let n := sRead s sa.toNat
  let last := bundlePc s + 32 * off.setWidth 64
  modCore s s.core fun c =>
    let age := c.l.foldl (fun m e => Nat.max m e.2.age) 0 + 1
    if n = 0 then { c with l := FMap.put {} c.l l.toNat { cnt := 0, age := age }, branch := some (last + 32) }
    else { c with l := FMap.put {} c.l l.toNat { cnt := n, active := true, start := bundlePc s + 32, last := last, age := age } }
/-- `loop` (R164, R165). -/
def execLoop (off : BitVec 16) (sa : BitVec 6) (l : BitVec 2) (s : State) : Host.Outcome State Fault Refusal := issueSlot (.loop off sa l) (effLoop off sa l) s

/-- The effect of `halt`: the step body ends and every loop with it (R165, R166). -/
def effHalt (s : State) : State :=
  modCore s s.core fun c =>
    { c with
      l := c.l.map (fun e => (e.1, { e.2 with active := false }))
      status := .idle
      seq := { c.seq with bodyDone := true } }
/-- `halt`: the step body ends and every loop with it (R165, R166). -/
def execHalt (s : State) : Host.Outcome State Fault Refusal := issueSlot (.halt) (effHalt) s

/-! ## Gang operations, `sync` and waits (R167 to R173). What they arrive at and wait for stands in
`holdSlot`; once a bundle issues, they have no further effect of their own. -/

/-- The effect of `gjoin`: the core has joined when its bundle issues (R75, R167). -/
def effGjoin (_ : BitVec 12) (s : State) : State := s
/-- `gjoin`: the core has joined when its bundle issues (R75, R167). -/
def execGjoin (g : BitVec 12) (s : State) : Host.Outcome State Fault Refusal := issueSlot (.gjoin g) (effGjoin g) s

/-- The effect of `gleave`: the arrival is recorded, and the core does not wait (R75, R167). -/
def effGleave (_ : BitVec 12) (s : State) : State := s
/-- `gleave`: the arrival is recorded, and the core does not wait (R75, R167). -/
def execGleave (g : BitVec 12) (s : State) : Host.Outcome State Fault Refusal := issueSlot (.gleave g) (effGleave g) s

/-- The effect of `gbar`: the episode has completed when its bundle issues (R167, R168). -/
def effGbar (_ : BitVec 12) (s : State) : State := s
/-- `gbar`: the episode has completed when its bundle issues (R167, R168). -/
def execGbar (g : BitVec 12) (s : State) : Host.Outcome State Fault Refusal := issueSlot (.gbar g) (effGbar g) s

/-- The effect of `garr`: the arrival is recorded (R167). -/
def effGarr (_ : BitVec 12) (s : State) : State := s
/-- `garr`: the arrival is recorded (R167). -/
def execGarr (g : BitVec 12) (s : State) : Host.Outcome State Fault Refusal := issueSlot (.garr g) (effGarr g) s

/-- The effect of `gwait`: the episode of the most recent arrival has completed (R167). -/
def effGwait (_ : BitVec 12) (s : State) : State := s
/-- `gwait`: the episode of the most recent arrival has completed (R167). -/
def execGwait (g : BitVec 12) (s : State) : Host.Outcome State Fault Refusal := issueSlot (.gwait g) (effGwait g) s

/-- The effect of `phase`: the episode has completed and committed (R110, R167). -/
def effPhase (_ : BitVec 12) (s : State) : State := s
/-- `phase`: the episode has completed and committed (R110, R167). -/
def execPhase (g : BitVec 12) (s : State) : Host.Outcome State Fault Refusal := issueSlot (.phase g) (effPhase g) s

/-- The effect of `sync`: the named classes have performed when its bundle issues (R115, R170). -/
def effSync (_ : BitVec 12) (s : State) : State := s
/-- `sync`: the named classes have performed when its bundle issues (R115, R170). -/
def execSync (mask : BitVec 12) (s : State) : Host.Outcome State Fault Refusal := issueSlot (.sync mask) (effSync mask) s

/-- The effect of `waita`: the status of the wake-up, or of the refusal (R171). -/
def effWaita (sd : BitVec 6) (_ : BitVec 6) (s : State) : State :=
  match (curCore s).held.atomicResult with
  | some v => issueS s sd.toNat v 1
  | none => s
/-- `waita`: the status of the wake-up, or of the refusal (R171). -/
def execWaita (sd : BitVec 6) (sa : BitVec 6) (s : State) : Host.Outcome State Fault Refusal := issueSlot (.waita sd sa) (effWaita sd sa) s

/-- The effect of `sleep`: the instant has come when its bundle issues (R173). -/
def effSleep (_ : BitVec 6) (s : State) : State := s
/-- `sleep`: the instant has come when its bundle issues (R173). -/
def execSleep (sa : BitVec 6) (s : State) : Host.Outcome State Fault Refusal := issueSlot (.sleep sa) (effSleep sa) s

/-! ## Time, energy and CSRs (R174 to R176) -/

/-- The effect of `rdns` (R174). -/
def effRdns (sd : BitVec 6) (s : State) : State :=
  issueS s sd.toNat s.nstime 1
/-- `rdns` (R174). -/
def execRdns (sd : BitVec 6) (s : State) : Host.Outcome State Fault Refusal := issueSlot (.rdns sd) (effRdns sd) s

/-- The effect of `rdnj`: the charge of the core's containment ID (R175). -/
def effRdnj (sd : BitVec 6) (s : State) : State :=
  issueS s sd.toNat (BitVec.ofNat 64 (s.energy.accounts.get 0 (cidOfSlice s (sliceOfCore s.core)))) 2
/-- `rdnj`: the charge of the core's containment ID (R175). -/
def execRdnj (sd : BitVec 6) (s : State) : Host.Outcome State Fault Refusal := issueSlot (.rdnj sd) (effRdnj sd) s

/-- A core CSR in the issue clk: one with a write or a mask result on its way reads as an undefined value. -/
def csrValue (s : State) (n : Nat) : Word :=
  if 0x031 ≤ n ∧ n ≤ 0x037 then vmRead s (n - 0x030)
  else if inFlight (curCore s) (.csr n) then freeWord s (200 + n)
  else (coreCsr (curCore s) n).getD 0

/-- The effect of `csrr` (R176). -/
def effCsrr (sd : BitVec 6) (csr : BitVec 12) (s : State) : State :=
  issueS s sd.toNat (csrValue s csr.toNat) 2
/-- `csrr` (R176). -/
def execCsrr (sd : BitVec 6) (csr : BitVec 12) (s : State) : Host.Outcome State Fault Refusal := issueSlot (.csrr sd csr) (effCsrr sd csr) s

/-- The effect of `csrw`: writes of CSRs of access r are ignored (R176, R180, R389). -/
def effCsrw (csr : BitVec 12) (sa : BitVec 6) (s : State) : State :=
  let n := csr.toNat
  let w := sRead s sa.toNat
  if 0x031 ≤ n ∧ n ≤ 0x037 then issueVM s (n - 0x030) w (BitVec.allOnes 64) 0 2
  else if n = 0x010 ∨ n = 0x020 then issueCsr s n w
  else s
/-- `csrw`: writes of CSRs of access r are ignored (R176, R180, R389). -/
def execCsrw (csr : BitVec 12) (sa : BitVec 6) (s : State) : Host.Outcome State Fault Refusal := issueSlot (.csrw csr sa) (effCsrw csr sa) s

/-! ## trap and brk (R177) -/

/-- Is a debugger attached to the context of the current core (R365)? -/
def debugged (s : State) : Bool :=
  s.io.dbgAtt && s.io.dbgCid.toNat == cidOfSlice s (sliceOfCore s.core)

/-- The stop of a `trap` or `brk`, once the pc is that of the next bundle: a record with the code, or a stop
for the debugger. -/
def finishTrap (s : State) : State :=
  let c := curCore s
  match c.trap with
  | none => s
  | some (cause, code) =>
    let s := setCore s s.core { c with trap := none }
    if cause = 5 && debugged s then
      { modCore s s.core (fun c => { c with status := .stopped, brk := true }) with
        io := { s.io with dbgHalted := true, dbgSc := if s.io.dbgHalted then s.io.dbgSc else 0 } }
    else stopReplayable s s.core cause c.pc.toNat 0 code 0

/-- The pc moved to the next bundle. -/
def nextBundle (s : State) : State := modCore s s.core fun c => { c with pc := c.pc + 32 }

/-- The effect of `trap` within its bundle. -/
def effTrap (code : BitVec 12) (s : State) : State := modCore s s.core fun c => { c with trap := some (4, code.toNat) }
/-- The effect of `brk` within its bundle. -/
def effBrk (code : BitVec 12) (s : State) : State := modCore s s.core fun c => { c with trap := some (5, code.toNat) }

/-- `trap`: a software-trap record with pc the next bundle; the core stops as on a replayable fault (R177). -/
def execTrap (code : BitVec 12) (s : State) : Host.Outcome State Fault Refusal :=
  issueSlot (.trap code) (fun s => finishTrap (nextBundle (effTrap code s))) s

/-- `brk`: a stop for the debugger, or as `trap` with cause 0x05 (R177). -/
def execBrk (code : BitVec 12) (s : State) : Host.Outcome State Fault Refusal :=
  issueSlot (.brk code) (fun s => finishTrap (nextBundle (effBrk code s))) s

end Sys2Proof.Machine
end

