-- ==== Sys2Proof/Machine/Vector.lean ====
section
/-! DEFINITION. The V slots: lane arithmetic, logic, shifts, compares, conversions, special functions,
reductions, data arrangement, scratchpad access, vector atomics, ternary and DP8 operations and XF40 (R178 to
R207). -/

namespace Sys2Proof.Machine

open Sys2Proof

/-! ## Lanes, sources and results (R178, R179, R181) -/

/-- The values of source fields, streams popped in field order. -/
def sources (s : State) : List Nat → List (List Lane) × State
  | [] => ([], s)
  | n :: ns =>
    let (l, s') := vSource s n
    let (r, s'') := sources s' ns
    (l :: r, s'')

/-- Element i of source j, as a number of the lane's 32 bits. -/
def elem (src : List (List Lane)) (j i : Nat) : Nat := (lane (src.getD j []) i).toNat

/-- The lanes that g gives for the lanes a mask selects, and their flags together. -/
def mapLanes (mask : Word) (g : Nat → Nat × Flags) : List Lane × Flags :=
  let r := (List.range 64).map fun i => if mask.getLsbD i then g i else (0, 0)
  (r.map fun x => BitVec.ofNat 32 x.1, r.foldl (fun a x => a ||| x.2) 0)

/-- An operation that gives each selected lane of vd a value of the sources' lanes. -/
def laneEff (s : State) (f : VF) (src : List Nat) (bound : Nat) (g : List (List Lane) → Nat → Nat × Flags) : State :=
  let mask := vmRead s f.vm.toNat
  let (v, s') := sources s src
  let (l, fl) := mapLanes mask (g v)
  issueV s' f.vd.toNat l mask fl bound

/-- The type that a `ty` field names. -/
def tyOfField (t : BitVec 4) : Ty := (tyOf t.toNat).getD .fp32

/-- The layout of a floating-point type. -/
def fmtOf (t : Ty) : FloatFmt := (floatFmt t).getD fmt32

/-- A pair of results that hold 64-bit containers: low words in vd, high words in vd + 1 (R36). -/
def issuePair (s : State) (n : Nat) (l : List Nat) (mask : Word) (fl : Flags) (bound : Nat) : State :=
  let s := issueV s n (l.map fun x => BitVec.ofNat 32 x) mask fl bound
  issueV s (n + 1) (l.map fun x => BitVec.ofNat 32 (x / 2 ^ 32)) mask 0 bound

/-- The XF40 containers of a register pair (R36). -/
def pairElem (s : State) (n i : Nat) : Nat :=
  (lane (vRead s n) i).toNat + 2 ^ 32 * (lane (vRead s (n + 1)) i).toNat

/-! ## Arithmetic (R184 to R186) -/

/-- An exact operation on values and on integers, delivered at a type (R184). -/
def arith (f : VF) (fv : Rm → FVal → FVal → FVal → FVal × Bool) (iv : Int → Int → Int → Int)
    (x y z : Nat) : Nat × Flags :=
  let t := tyOfField f.ty
  if tyIsInt t then
    let n := fun b => intOf (tySigned t) (tyWidth t) b
    intResult t (f.sat == 1) (iv (n x) (n y) (n z))
  else
    let (e, bad) := fv (rmOf f.rm) (decode t x) (decode t y) (decode t z)
    let (r, fl) := roundTo (fmtOf t) (rmOf f.rm) (f.sat == 1) e
    (r, fl ||| flagIf bad fNv)

/-- A two-operand arithmetic operation. -/
def arith2 (s : State) (f : VF) (bound : Nat) (fv : Rm → FVal → FVal → FVal × Bool) (iv : Int → Int → Int) : State :=
  laneEff s f [f.va.toNat, f.vb.toNat] bound fun v i =>
    arith f (fun rm x y _ => fv rm x y) (fun x y _ => iv x y) (elem v 0 i) (elem v 1 i) 0

/-- A three-operand arithmetic operation. -/
def arith3 (s : State) (f : VF) (fv : Rm → FVal → FVal → FVal → FVal × Bool) (iv : Int → Int → Int → Int) : State :=
  laneEff s f [f.va.toNat, f.vb.toNat, f.vc.toNat] 4 fun v i =>
    arith f fv iv (elem v 0 i) (elem v 1 i) (elem v 2 i)

/-- The effect of `vadd` (R184). -/
def effVadd (f : VF) (s : State) : State :=
  arith2 s f 2 (fun rm x y => addExact rm x y) (fun x y => x + y)
/-- `vadd` (R184). -/
def execVadd (f : VF) (s : State) : Host.Outcome State Fault Refusal := issueSlot (.vadd f) (effVadd f) s

/-- The effect of `vsub` (R184). -/
def effVsub (f : VF) (s : State) : State :=
  arith2 s f 2 (fun rm x y => subExact rm x y) (fun x y => x - y)
/-- `vsub` (R184). -/
def execVsub (f : VF) (s : State) : Host.Outcome State Fault Refusal := issueSlot (.vsub f) (effVsub f) s

/-- The effect of `vmul` (R184). -/
def effVmul (f : VF) (s : State) : State :=
  arith2 s f 4 (fun _ x y => mulExact x y) (fun x y => x * y)
/-- `vmul` (R184). -/
def execVmul (f : VF) (s : State) : Host.Outcome State Fault Refusal := issueSlot (.vmul f) (effVmul f) s

/-- The effect of `vfma`, rounded once (R184). -/
def effVfma (f : VF) (s : State) : State :=
  arith3 s f (fun rm x y z => fmaExact rm x y z) (fun x y z => x * y + z)
/-- `vfma`, rounded once (R184). -/
def execVfma (f : VF) (s : State) : Host.Outcome State Fault Refusal := issueSlot (.vfma f) (effVfma f) s

/-- The effect of `vfms`, rounded once (R184). -/
def effVfms (f : VF) (s : State) : State :=
  arith3 s f (fun rm x y z => fmaExact rm x y z.negate) (fun x y z => x * y - z)
/-- `vfms`, rounded once (R184). -/
def execVfms (f : VF) (s : State) : Host.Outcome State Fault Refusal := issueSlot (.vfms f) (effVfms f) s

/-- `vmin` or `vmax` of the lanes. -/
def minMaxEff (s : State) (f : VF) (wantMax : Bool) : State :=
  laneEff s f [f.va.toNat, f.vb.toNat] 2 fun v i => minMax (tyOfField f.ty) wantMax (elem v 0 i) (elem v 1 i)

/-- The effect of `vmin` (R185). -/
def effVmin (f : VF) (s : State) : State :=
  minMaxEff s f false
/-- `vmin` (R185). -/
def execVmin (f : VF) (s : State) : Host.Outcome State Fault Refusal := issueSlot (.vmin f) (effVmin f) s

/-- The effect of `vmax` (R185). -/
def effVmax (f : VF) (s : State) : State :=
  minMaxEff s f true
/-- `vmax` (R185). -/
def execVmax (f : VF) (s : State) : Host.Outcome State Fault Refusal := issueSlot (.vmax f) (effVmax f) s

/-- The sign bit of a type's element. -/
def signBit (t : Ty) : Nat := 2 ^ (tyWidth t - 1)

/-- `vabs` or `vneg` of one element (R186). -/
def signOp (t : Ty) (sat neg : Bool) (x : Nat) : Nat × Flags :=
  let w := 2 ^ tyWidth t
  if tyIsInt t then
    let n := intOf (tySigned t) (tyWidth t) x
    intToInt t sat (if neg then -n else if n < 0 then -n else n)
  else if neg then ((x % w + signBit t) % w, 0)
  else (x % signBit t, 0)

/-- The effect of `vabs` (R186). -/
def effVabs (f : VF) (s : State) : State :=
  laneEff s f [f.va.toNat] 2 fun v i => signOp (tyOfField f.ty) (f.sat == 1) false (elem v 0 i)
/-- `vabs` (R186). -/
def execVabs (f : VF) (s : State) : Host.Outcome State Fault Refusal := issueSlot (.vabs f) (effVabs f) s

/-- The effect of `vneg` (R186). -/
def effVneg (f : VF) (s : State) : State :=
  laneEff s f [f.va.toNat] 2 fun v i => signOp (tyOfField f.ty) (f.sat == 1) true (elem v 0 i)
/-- `vneg` (R186). -/
def execVneg (f : VF) (s : State) : Host.Outcome State Fault Refusal := issueSlot (.vneg f) (effVneg f) s

/-! ## Logic, shifts and compares (R187, R188) -/

/-- A bitwise operation on the lanes. -/
def logicEff (s : State) (f : VF) (g : Lane → Lane → Lane) : State :=
  laneEff s f [f.va.toNat, f.vb.toNat] 2 fun v i =>
    ((g (lane (v.getD 0 []) i) (lane (v.getD 1 []) i)).toNat, 0)

/-- The effect of `vand` (R187). -/
def effVand (f : VF) (s : State) : State :=
  logicEff s f fun x y => x &&& y
/-- `vand` (R187). -/
def execVand (f : VF) (s : State) : Host.Outcome State Fault Refusal := issueSlot (.vand f) (effVand f) s

/-- The effect of `vor` (R187). -/
def effVor (f : VF) (s : State) : State :=
  logicEff s f fun x y => x ||| y
/-- `vor` (R187). -/
def execVor (f : VF) (s : State) : Host.Outcome State Fault Refusal := issueSlot (.vor f) (effVor f) s

/-- The effect of `vxor` (R187). -/
def effVxor (f : VF) (s : State) : State :=
  logicEff s f fun x y => x ^^^ y
/-- `vxor` (R187). -/
def execVxor (f : VF) (s : State) : Host.Outcome State Fault Refusal := issueSlot (.vxor f) (effVxor f) s

/-- A shift of the w-bit elements by an amount n: g gives the result for n < w, h for n ≥ w (R187). -/
def shiftEff (s : State) (f : VF) (g : Nat → Nat → Nat → Nat) (h : Nat → Nat → Nat) : State :=
  let w := tyWidth (tyOfField f.ty)
  let imm := f.fn.getLsbD 0
  laneEff s f (if imm then [f.va.toNat] else [f.va.toNat, f.vb.toNat]) 2 fun v i =>
    let x := elem v 0 i % 2 ^ w
    let n := if imm then f.vb.toNat else elem v 1 i
    ((if n < w then g w x n else h w x) % 2 ^ w, 0)

/-- All bits equal to the sign bit of a w-bit element. -/
def signFill (w x : Nat) : Nat := if 2 ^ (w - 1) ≤ x then 2 ^ w - 1 else 0

/-- The effect of `vshl` (R187). -/
def effVshl (f : VF) (s : State) : State :=
  shiftEff s f (fun _ x n => x * 2 ^ n) (fun _ _ => 0)
/-- `vshl` (R187). -/
def execVshl (f : VF) (s : State) : Host.Outcome State Fault Refusal := issueSlot (.vshl f) (effVshl f) s

/-- The effect of `vshr` (R187). -/
def effVshr (f : VF) (s : State) : State :=
  shiftEff s f (fun _ x n => x / 2 ^ n) (fun _ _ => 0)
/-- `vshr` (R187). -/
def execVshr (f : VF) (s : State) : Host.Outcome State Fault Refusal := issueSlot (.vshr f) (effVshr f) s

/-- The effect of `vsra` (R187). -/
def effVsra (f : VF) (s : State) : State :=
  shiftEff s f (fun w x n => wrapTo w (signedOf w x / 2 ^ n)) signFill
/-- `vsra` (R187). -/
def execVsra (f : VF) (s : State) : Host.Outcome State Fault Refusal := issueSlot (.vsra f) (effVsra f) s

/-- One compare, and the flags it raises (R188, R381). -/
def compareOp (t : Ty) (cc : Nat) (a b : Nat) : Bool × Flags :=
  if tyIsInt t then
    let x := intOf (tySigned t) (tyWidth t) a
    let y := intOf (tySigned t) (tyWidth t) b
    (match cc with
     | 0 => decide (x = y)
     | 1 => decide (x ≠ y)
     | 2 => decide (x < y)
     | 3 => decide (x ≤ y)
     | _ => false, 0)
  else
    let x := decode t a
    let y := decode t b
    let nan := x.isNan || y.isNan
    let snan := x.isSnan || y.isSnan
    match cc with
    | 0 => (x.eq y, flagIf snan fNv)
    | 1 => (!x.eq y, flagIf snan fNv)
    | 2 => (x.lt y, flagIf nan fNv)
    | 3 => (x.le y, flagIf nan fNv)
    | _ => (nan, flagIf snan fNv)

/-- A word with bit i = b i. -/
def wordOfBits (b : Nat → Bool) : Word :=
  (List.range 64).foldl (fun w i => if b i then w ||| (1#64 <<< i) else w) 0

/-- The effect of `vcmp` (R188). -/
def effVcmp (f : VF) (s : State) : State :=
  let mask := vmRead s f.vm.toNat
  let (v, s') := sources s [f.va.toNat, f.vb.toNat]
  let r := fun i => compareOp (tyOfField f.ty) f.fn.toNat (elem v 0 i) (elem v 1 i)
  let fl := (selected mask).foldl (fun a i => a ||| (r i).2) (0 : Flags)
  issueVM s' f.vd.toNat (wordOfBits fun i => mask.getLsbD i && (r i).1) mask fl 2
/-- `vcmp` (R188). -/
def execVcmp (f : VF) (s : State) : Host.Outcome State Fault Refusal := issueSlot (.vcmp f) (effVcmp f) s

/-! ## Conversions and special functions (R189 to R191) -/

/-- The effect of `vcvt` (R189). -/
def effVcvt (f : VF) (s : State) : State :=
  laneEff s f [f.va.toNat] 4 fun v i =>
    convert (tyOfField f.ty) ((tyOf f.vc.toNat).getD .fp32) (rmOf f.rm) (f.sat == 1) (elem v 0 i)
/-- `vcvt` (R189). -/
def execVcvt (f : VF) (s : State) : Host.Outcome State Fault Refusal := issueSlot (.vcvt f) (effVcvt f) s

/-- The effect of `vrq` (R49, R190). -/
def effVrq (f : VF) (s : State) : State :=
  laneEff s f [f.va.toNat, f.vb.toNat, f.vc.toNat] 4 fun v i =>
    requant (tyOfField f.ty) (signedOf 32 (elem v 0 i)) (signedOf 32 (elem v 1 i)) f.fn.toNat (signedOf 32 (elem v 2 i))
/-- `vrq` (R49, R190). -/
def execVrq (f : VF) (s : State) : Host.Outcome State Fault Refusal := issueSlot (.vrq f) (effVrq f) s

/-- A special function of the FP32 lanes (R55 to R57). -/
def specialEff (s : State) (f : VF) (fn : Nat) : State :=
  laneEff s f [f.va.toNat] 8 fun v i => special32 fn (elem v 0 i)

/-- The effect of `vexp2` to FP32 or to an XF40 pair (R55 to R58, R191). -/
def effVexp2 (f : VF) (s : State) : State :=
  if f.ty = 13 then
    let mask := vmRead s f.vm.toNat
    let (v, s') := sources s [f.va.toNat]
    let r := (List.range 64).map fun i => if mask.getLsbD i then exp2Xf (elem v 0 i) else (0, 0)
    issuePair s' f.vd.toNat (r.map (·.1)) mask (r.foldl (fun a x => a ||| x.2) 0) 8
  else specialEff s f 0
/-- `vexp2` to FP32 or to an XF40 pair (R55 to R58, R191). -/
def execVexp2 (f : VF) (s : State) : Host.Outcome State Fault Refusal := issueSlot (.vexp2 f) (effVexp2 f) s

/-- The effect of `vtanh` (R55 to R57, R191). -/
def effVtanh (f : VF) (s : State) : State :=
  specialEff s f 1
/-- `vtanh` (R55 to R57, R191). -/
def execVtanh (f : VF) (s : State) : Host.Outcome State Fault Refusal := issueSlot (.vtanh f) (effVtanh f) s

/-- The effect of `vlgst` (R55 to R57, R191). -/
def effVlgst (f : VF) (s : State) : State :=
  specialEff s f 2
/-- `vlgst` (R55 to R57, R191). -/
def execVlgst (f : VF) (s : State) : Host.Outcome State Fault Refusal := issueSlot (.vlgst f) (effVlgst f) s

/-- The effect of `vrcp` (R55 to R57, R191). -/
def effVrcp (f : VF) (s : State) : State :=
  specialEff s f 3
/-- `vrcp` (R55 to R57, R191). -/
def execVrcp (f : VF) (s : State) : Host.Outcome State Fault Refusal := issueSlot (.vrcp f) (effVrcp f) s

/-- The effect of `vrsqrt` (R55 to R57, R191). -/
def effVrsqrt (f : VF) (s : State) : State :=
  specialEff s f 4
/-- `vrsqrt` (R55 to R57, R191). -/
def execVrsqrt (f : VF) (s : State) : Host.Outcome State Fault Refusal := issueSlot (.vrsqrt f) (effVrsqrt f) s

/-! ## Reductions and row statistics (R192, R193) -/

/-- A reduction of all 64 lanes of va, from lane 0 of vc, into every selected lane (R192). -/
def reduceEff (s : State) (f : VF) (g : Nat → Nat → Nat × Flags) : State :=
  let mask := vmRead s f.vm.toNat
  let (v, s') := sources s [f.va.toNat, f.vc.toNat]
  let (acc, fl) := (List.range 64).foldl (fun (a : Nat × Flags) i =>
    let (r, x) := g a.1 (elem v 0 i)
    (r, a.2 ||| x)) (elem v 1 0, 0)
  issueV s' f.vd.toNat ((List.range 64).map fun _ => BitVec.ofNat 32 acc) mask fl 6

/-- The effect of `vredsum`, in ascending lane order (R192). -/
def effVredsum (f : VF) (s : State) : State :=
  let t := tyOfField f.ty
  reduceEff s f fun acc x =>
    if tyIsInt t then intResult t (f.sat == 1) (intOf (tySigned t) 32 acc + intOf (tySigned t) 32 x)
    else add32 (rmOf f.rm) (decode .fp32 acc) (decode .fp32 x)
/-- `vredsum`, in ascending lane order (R192). -/
def execVredsum (f : VF) (s : State) : Host.Outcome State Fault Refusal := issueSlot (.vredsum f) (effVredsum f) s

/-- The effect of `vredmax` (R192). -/
def effVredmax (f : VF) (s : State) : State :=
  reduceEff s f fun acc x => minMax (tyOfField f.ty) true acc x
/-- `vredmax` (R192). -/
def execVredmax (f : VF) (s : State) : Host.Outcome State Fault Refusal := issueSlot (.vredmax f) (effVredmax f) s

/-- The effect of `vredmin` (R192). -/
def effVredmin (f : VF) (s : State) : State :=
  reduceEff s f fun acc x => minMax (tyOfField f.ty) false acc x
/-- `vredmin` (R192). -/
def execVredmin (f : VF) (s : State) : Host.Outcome State Fault Refusal := issueSlot (.vredmin f) (effVredmin f) s

/-- The effect of `vstat`: Welford statistics in three registers (R59, R193, R384). -/
def effVstat (f : VF) (s : State) : State :=
  let mask := vmRead s f.vm.toNat
  let d := f.vd.toNat
  let n := vRead s d
  let m := vRead s (d + 1)
  let q := vRead s (d + 2)
  let (v, s') := sources s [f.va.toNat]
  let r := (List.range 64).map fun i =>
    if mask.getLsbD i then welford (lane n i).toNat (lane m i).toNat (lane q i).toNat (elem v 0 i) else ((0, 0, 0), 0)
  let s' := issueV s' d (r.map fun x => BitVec.ofNat 32 x.1.1) mask (r.foldl (fun a x => a ||| x.2) 0) 6
  let s' := issueV s' (d + 1) (r.map fun x => BitVec.ofNat 32 x.1.2.1) mask 0 6
  issueV s' (d + 2) (r.map fun x => BitVec.ofNat 32 x.1.2.2) mask 0 6
/-- `vstat`: Welford statistics in three registers (R59, R193, R384). -/
def execVstat (f : VF) (s : State) : Host.Outcome State Fault Refusal := issueSlot (.vstat f) (effVstat f) s

/-! ## Data arrangement (R194 to R197) -/

/-- The effect of `vperm` (R194). -/
def effVperm (f : VF) (s : State) : State :=
  laneEff s f [f.va.toNat, f.vb.toNat, f.vc.toNat] 4 fun v i =>
    let k := elem v 2 i % 128
    (if k < 64 then elem v 0 k else elem v 1 (k - 64), 0)
/-- `vperm` (R194). -/
def execVperm (f : VF) (s : State) : Host.Outcome State Fault Refusal := issueSlot (.vperm f) (effVperm f) s

/-- The effect of `vbcast` of a scalar or a lane (R195). -/
def effVbcast (f : VF) (s : State) : State :=
  if f.fn.getLsbD 0 then laneEff s f [f.va.toNat] 2 fun v _ => (elem v 0 f.vb.toNat, 0)
  else
    let x := (sRead s f.va.toNat).toNat % 2 ^ 32
    laneEff s f [] 2 fun _ _ => (x, 0)
/-- `vbcast` of a scalar or a lane (R195). -/
def execVbcast (f : VF) (s : State) : Host.Outcome State Fault Refusal := issueSlot (.vbcast f) (effVbcast f) s

/-- The effect of `vmov`, bit for bit (R196). -/
def effVmov (f : VF) (s : State) : State :=
  if f.ty = 13 then
    issuePair s f.vd.toNat ((List.range 64).map (pairElem s f.va.toNat)) (vmRead s f.vm.toNat) 0 2
  else laneEff s f [f.va.toNat] 2 fun v i => (elem v 0 i, 0)
/-- `vmov`, bit for bit (R196). -/
def execVmov (f : VF) (s : State) : Host.Outcome State Fault Refusal := issueSlot (.vmov f) (effVmov f) s

/-- The effect of `vsel` by a selector mask (R196). -/
def effVsel (f : VF) (s : State) : State :=
  let sel := vmRead s (f.fn.toNat % 8)
  if f.ty = 13 then
    issuePair s f.vd.toNat
      ((List.range 64).map fun i => pairElem s (if sel.getLsbD i then f.va.toNat else f.vb.toNat) i)
      (vmRead s f.vm.toNat) 0 2
  else laneEff s f [f.va.toNat, f.vb.toNat] 2 fun v i => (if sel.getLsbD i then elem v 0 i else elem v 1 i, 0)
/-- `vsel` by a selector mask (R196). -/
def execVsel (f : VF) (s : State) : Host.Outcome State Fault Refusal := issueSlot (.vsel f) (effVsel f) s

/-- The effect of `vslide` (R197). -/
def effVslide (f : VF) (s : State) : State :=
  let n := f.fn.toNat
  laneEff s f [f.va.toNat, f.vb.toNat] 2 fun v i =>
    (if i + n < 64 then elem v 0 (i + n) else elem v 1 (i + n - 64), 0)
/-- `vslide` (R197). -/
def execVslide (f : VF) (s : State) : Host.Outcome State Fault Refusal := issueSlot (.vslide f) (effVslide f) s

/-! ## Scratchpad access (R198 to R200) -/

/-- The place i · e bytes behind another. -/
def Loc.offset (l : Loc) (n : Nat) : Loc :=
  match l with
  | .spm k o => .spm k (o + n)
  | .spill o => .spill (o + n)

/-- The effect of `vld` (R198). -/
def effVld (f : VF) (s : State) : State :=
  let e := ewBytes f.fn
  match resolveLocal s s.core (vldAddr s f).toNat with
  | .error _ => s
  | .ok l =>
    laneEff s f [] (readBound s.core l) fun _ i => (leNat (locRead s s.core (l.offset (e * i)) e), 0)
/-- `vld` (R198). -/
def execVld (f : VF) (s : State) : Host.Outcome State Fault Refusal := issueSlot (.vld f) (effVld f) s

/-- The runs of consecutive numbers in a rising list: first number and length. -/
def runsOf : List Nat → List (Nat × Nat)
  | [] => []
  | i :: rest => match runsOf rest with
    | (j, n) :: more => if j = i + 1 then (i, n + 1) :: more else (i, 1) :: (j, n) :: more
    | [] => [(i, 1)]

/-- The effect of `vst`: the elements of neighbouring lanes are one write, which clears the poison of the words that it
covers (R198, R200, R378). -/
def effVst (f : VF) (s : State) : State :=
  let e := ewBytes f.fn
  let mask := vmRead s f.vm.toNat
  let addr := (vldAddr s f).toNat
  let (v, s') := sources s [f.vd.toNat]
  match resolveLocal s s.core addr with
  | .error _ => s'
  | .ok l => (runsOf (selected mask)).foldl (fun st r => postStore st (l.offset (e * r.1))
      ((List.range r.2).flatMap fun j => leBytes e (elem v 0 (r.1 + j)))) s'
/-- `vst` (R198, R200). -/
def execVst (f : VF) (s : State) : Host.Outcome State Fault Refusal := issueSlot (.vst f) (effVst f) s

/-- The resolved place of a lane address that passed its check. -/
def gthLoc (s : State) (base : Word) (v : List Lane) (i : Nat) : Loc :=
  match resolveLocal s s.core (gthAddr base (lane v i)) with
  | .ok l => l
  | .error _ => .spill 0

/-- The effect of `vgth` (R199, R200). -/
def effVgth (f : VF) (s : State) : State :=
  let e := ewBytes f.fn
  let mask := vmRead s f.vm.toNat
  let base := sRead s f.va.toNat
  let (v, s') := sources s [f.vb.toNat]
  let at_ := gthLoc s base (v.getD 0 [])
  let bound := (selected mask).foldl (fun b i => Nat.max b (readBound s.core (at_ i))) 4
  let (l, _) := mapLanes mask fun i => (leNat (locRead s s.core (at_ i) e), 0)
  issueV s' f.vd.toNat l mask 0 bound
/-- `vgth` (R199, R200). -/
def execVgth (f : VF) (s : State) : Host.Outcome State Fault Refusal := issueSlot (.vgth f) (effVgth f) s

/-- The effect of `vsct`, in ascending lane order (R199). -/
def effVsct (f : VF) (s : State) : State :=
  let e := ewBytes f.fn
  let mask := vmRead s f.vm.toNat
  let base := sRead s f.va.toNat
  let (v, s') := sources s [f.vb.toNat, f.vd.toNat]
  (selected mask).foldl (fun st i => postStore st (gthLoc s base (v.getD 0 []) i) (leBytes e (elem v 1 i))) s'
/-- `vsct`, in ascending lane order (R199). -/
def execVsct (f : VF) (s : State) : Host.Outcome State Fault Refusal := issueSlot (.vsct f) (effVsct f) s

/-! ## Vector atomics (R201) -/

/-- The effect of `vamo`: posted, its elements apply in their own events (R201). -/
def effVamo (f : VF) (s : State) : State :=
  let mask := vmRead s f.vm.toNat
  let base := sRead s f.va.toNat
  let (v, s') := sources s [f.vb.toNat, f.vc.toNat]
  let n := (selected mask).length
  if n = 0 then s'
  else match takeAtomic s' s.core n
      { addr := base, kind := 2, sz := 2, aop := f.fn.toNat, ty := f.ty.toNat, rm := f.rm.toNat, mask := mask
        vb := v.getD 0 [], vc := v.getD 1 [] } with
    | some (_, s'') => s''
    | none => s'
/-- `vamo`: posted, its elements apply in their own events (R201). -/
def execVamo (f : VF) (s : State) : Host.Outcome State Fault Refusal := issueSlot (.vamo f) (effVamo f) s

/-! ## Ternary and dyadic-pair arithmetic (R202 to R204) -/

/-- The effect of `vunp3`: TRIT5 bytes decoded (R40, R41, R202, R383). -/
def effVunp3 (f : VF) (s : State) : State :=
  let strict := astatStrict (curCore s).astat
  let t := tyOfField f.ty
  laneEff s f [f.va.toNat] 4 fun v k =>
    let g := 64 * f.fn.toNat + k
    let j := g / 5
    let b := elem v 0 (j / 4) / 2 ^ (8 * (j % 4)) % 256
    let trit := if tritBad b ∧ strict then 0 else tritOf b (g % 5)
    (wrapTo (tyWidth t) trit, flagIf (tritBad b) fBt)
/-- `vunp3`: TRIT5 bytes decoded (R40, R41, R202, R383). -/
def execVunp3 (f : VF) (s : State) : Host.Outcome State Fault Refusal := issueSlot (.vunp3 f) (effVunp3 f) s

/-- The effect of `vtacc` (R203). -/
def effVtacc (f : VF) (s : State) : State :=
  let t := tyOfField f.ty
  laneEff s f [f.va.toNat, f.vb.toNat, f.vc.toNat] 4 fun v i =>
    let w := signedOf 8 (elem v 0 i)
    let x := intOf (tySigned t) (tyWidth t) (elem v 1 i)
    intResult .int32 (f.sat == 1) (signedOf 32 (elem v 2 i) + Int.sign w * x)
/-- `vtacc` (R203). -/
def execVtacc (f : VF) (s : State) : Host.Outcome State Fault Refusal := issueSlot (.vtacc f) (effVtacc f) s

/-- The effect of `vdp8`, rounded once (R204). -/
def effVdp8 (f : VF) (s : State) : State :=
  let t := tyOfField f.ty
  laneEff s f [f.va.toNat, f.vb.toNat, f.vc.toNat] 4 fun v i =>
    let w := elem v 0 i
    let (p, b1) := mulExact (decodeDp8 (w % 256)) (decodeE8m0 (w / 256 % 256))
    let (q, b2) := mulExact p (decode t (elem v 1 i))
    let (e, b3) := addExact (rmOf f.rm) (decode .fp32 (elem v 2 i)) q
    let (r, fl) := roundArith fmt32 (rmOf f.rm) false e
    (r, fl ||| flagIf (b1 || b2 || b3) fNv)
/-- `vdp8`, rounded once (R204). -/
def execVdp8 (f : VF) (s : State) : Host.Outcome State Fault Refusal := issueSlot (.vdp8 f) (effVdp8 f) s

/-! ## Pack and widen (R205) -/

/-- The effect of `vpack` (R205). -/
def effVpack (f : VF) (s : State) : State :=
  let w := packWidth f.ty
  let c := 32 / w
  let n := 64 / c
  let part := f.fn.toNat
  let range := wordOfBits fun i => decide (part * n ≤ i) && decide (i < part * n + n)
  let mask := vmRead s f.vm.toNat &&& range
  let (v, s') := sources s [f.va.toNat]
  let (l, _) := mapLanes mask fun i =>
    ((List.range c).foldl (fun a k => a + elem v 0 (c * (i - part * n) + k) % 2 ^ w * 2 ^ (w * k)) 0, 0)
  issueV s' f.vd.toNat l mask 0 2
/-- `vpack` (R205). -/
def execVpack (f : VF) (s : State) : Host.Outcome State Fault Refusal := issueSlot (.vpack f) (effVpack f) s

/-- The effect of `vwide` (R205). -/
def effVwide (f : VF) (s : State) : State :=
  let w := packWidth f.ty
  let c := 32 / w
  let n := 64 / c
  laneEff s f [f.va.toNat] 2 fun v i =>
    (elem v 0 (f.fn.toNat * n + i / c) / 2 ^ (w * (i % c)) % 2 ^ w, 0)
/-- `vwide` (R205). -/
def execVwide (f : VF) (s : State) : Host.Outcome State Fault Refusal := issueSlot (.vwide f) (effVwide f) s

/-! ## XF40 (R206, R207) -/

/-- One XF40 operation: container and flags (R206, R381). -/
def xfOp (op : Nat) (rm : Rm) (sat : Bool) (a b c : FVal) : Nat × Flags :=
  let deliver := fun (e : FVal) (fl : Flags) =>
    let (r, x) := roundArith fmtXf rm sat e
    (r, x ||| fl)
  match op with
  | 0 => let (e, bad) := addExact rm a b; deliver e (flagIf bad fNv)
  | 1 => let (e, bad) := subExact rm a b; deliver e (flagIf bad fNv)
  | 2 => let (e, bad) := mulExact a b; deliver e (flagIf bad fNv)
  | 3 => let (e, bad) := fmaExact rm a b c; deliver e (flagIf bad fNv)
  | _ => let (e, bad, dz) := divExact a b; deliver e (flagIf bad fNv ||| flagIf dz fDz)

/-- The effect of `vxadd` (R206). -/
def effVxadd (f : VF) (s : State) : State :=
  let mask := vmRead s f.vm.toNat
  let narrow := f.fn.getLsbD 3
  let op := f.fn.toNat % 8
  let (v, s') := sources s (if narrow then [f.vb.toNat] else [])
  let r := (List.range 64).map fun i =>
    if mask.getLsbD i then
      let a := decode .xf40 (pairElem s f.va.toNat i)
      let b := if narrow then decode .fp32 (elem v 0 i) else decode .xf40 (pairElem s f.vb.toNat i)
      let c := if op = 3 then decode .xf40 (pairElem s f.vc.toNat i) else .zero false
      xfOp op (rmOf f.rm) (f.sat == 1) a b c
    else (0, 0)
  issuePair s' f.vd.toNat (r.map (·.1)) mask (r.foldl (fun a x => a ||| x.2) 0) 4
/-- `vxadd` (R206). -/
def execVxadd (f : VF) (s : State) : Host.Outcome State Fault Refusal := issueSlot (.vxadd f) (effVxadd f) s

/-- The effect of `vxcvt` into and out of XF40 (R207). -/
def effVxcvt (f : VF) (s : State) : State :=
  let dst := tyOfField f.ty
  let src := (tyOf f.vc.toNat).getD .fp32
  if f.ty = 13 then
    let mask := vmRead s f.vm.toNat
    let (v, s') := sources s [f.va.toNat]
    let r := (List.range 64).map fun i =>
      if mask.getLsbD i then convert .xf40 src (rmOf f.rm) (f.sat == 1) (elem v 0 i) else (0, 0)
    issuePair s' f.vd.toNat (r.map (·.1)) mask (r.foldl (fun a x => a ||| x.2) 0) 4
  else
    laneEff s f [] 4 fun _ i => convert dst .xf40 (rmOf f.rm) (f.sat == 1) (pairElem s f.va.toNat i)
/-- `vxcvt` into and out of XF40 (R207). -/
def execVxcvt (f : VF) (s : State) : Host.Outcome State Fault Refusal := issueSlot (.vxcvt f) (effVxcvt f) s

end Sys2Proof.Machine
end

