-- ==== Sys2Proof/Machine/Bundle.lean ====
section
/-! DEFINITION. Bundles (R82 to R87, R124, R164, R386, R387): their fetch, the checks and conditions of the whole
bundle, the six slots' effects in one clk, the next bundle, and the landing of results. -/

namespace Sys2Proof.Machine

open Sys2Proof

/-- The effect of a slot operation that issues. -/
def effOf (i : Instr) (s : State) : State :=
  match i with
  | .add f => effAdd f s
  | .sub f => effSub f s
  | .sAnd f => effSAnd f s
  | .sOr f => effSOr f s
  | .xor f => effXor f s
  | .shl f => effShl f s
  | .shr f => effShr f s
  | .sra f => effSra f s
  | .mul f => effMul f s
  | .mulh f => effMulh f s
  | .mulhu f => effMulhu f s
  | .min f => effMin f s
  | .max f => effMax f s
  | .minu f => effMinu f s
  | .maxu f => effMaxu f s
  | .clz f => effClz f s
  | .popc f => effPopc f s
  | .sel f => effSel f s
  | .addi f => effAddi f s
  | .andi f => effAndi f s
  | .ori f => effOri f s
  | .xori f => effXori f s
  | .shli f => effShli f s
  | .shri f => effShri f s
  | .srai f => effSrai f s
  | .li f => effLi f s
  | .lih f => effLih f s
  | .cmp f => effCmp f s
  | .cmpi f => effCmpi f s
  | .plog f => effPlog f s
  | .ld f => effLd f s
  | .st f => effSt f s
  | .lds f => effLds f s
  | .sts f => effSts f s
  | .ldg f => effLdg f s
  | .stg f => effStg f s
  | .probe f => effProbe f s
  | .sqld f => effSqld f s
  | .amo f => effAmo f s
  | .cas f => effCas f s
  | .pbr off ext b => effPbr off ext b s
  | .pbrr sa b => effPbrr sa b s
  | .br pg pn b => effBr pg pn b s
  | .brl sd pg pn b => effBrl sd pg pn b s
  | .loop off sa l => effLoop off sa l s
  | .halt => effHalt s
  | .gjoin g => effGjoin g s
  | .gleave g => effGleave g s
  | .gbar g => effGbar g s
  | .garr g => effGarr g s
  | .gwait g => effGwait g s
  | .phase g => effPhase g s
  | .sync mask => effSync mask s
  | .waita sd sa => effWaita sd sa s
  | .sleep sa => effSleep sa s
  | .rdns sd => effRdns sd s
  | .rdnj sd => effRdnj sd s
  | .csrr sd csr => effCsrr sd csr s
  | .csrw csr sa => effCsrw csr sa s
  | .trap code => effTrap code s
  | .brk code => effBrk code s
  | .vadd f => effVadd f s
  | .vsub f => effVsub f s
  | .vmul f => effVmul f s
  | .vfma f => effVfma f s
  | .vfms f => effVfms f s
  | .vmin f => effVmin f s
  | .vmax f => effVmax f s
  | .vabs f => effVabs f s
  | .vneg f => effVneg f s
  | .vand f => effVand f s
  | .vor f => effVor f s
  | .vxor f => effVxor f s
  | .vshl f => effVshl f s
  | .vshr f => effVshr f s
  | .vsra f => effVsra f s
  | .vcmp f => effVcmp f s
  | .vcvt f => effVcvt f s
  | .vrq f => effVrq f s
  | .vexp2 f => effVexp2 f s
  | .vtanh f => effVtanh f s
  | .vlgst f => effVlgst f s
  | .vrcp f => effVrcp f s
  | .vrsqrt f => effVrsqrt f s
  | .vredsum f => effVredsum f s
  | .vredmax f => effVredmax f s
  | .vredmin f => effVredmin f s
  | .vstat f => effVstat f s
  | .vperm f => effVperm f s
  | .vbcast f => effVbcast f s
  | .vmov f => effVmov f s
  | .vsel f => effVsel f s
  | .vslide f => effVslide f s
  | .vld f => effVld f s
  | .vst f => effVst f s
  | .vgth f => effVgth f s
  | .vsct f => effVsct f s
  | .vamo f => effVamo f s
  | .vunp3 f => effVunp3 f s
  | .vtacc f => effVtacc f s
  | .vdp8 f => effVdp8 f s
  | .vpack f => effVpack f s
  | .vwide f => effVwide f s
  | .vxadd f => effVxadd f s
  | .vxcvt f => effVxcvt f s
  | .mcall f => effMcall f s
  | .mpset f => effMpset f s
  | .mzero f => effMzero f s
  | .mdrain f => effMdrain f s
  | .mmode f => effMmode f s
  | .mgsel f => effMgsel f s
  | .mwr f => effMwr f s
  | .mwait f => effMwait f s
  | .mrsum f => effMrsum f s
  | .cp f => effCp f s
  | .cpm f => effCpm f s
  | .cpg f => effCpg f s
  | .cps f => effCps f s
  | .cpa f => effCpa f s
  | .cdld f => effCdld f s
  | .cpw f => effCpw f s
  | .rgcfg f => effRgcfg f s
  | .rgpost f => effRgpost f s
  | .rgfree f => effRgfree f s
  | .sbind f => effSbind f s
  | .sfree f => effSfree f s
  | .sqfill f => effSqfill f s
  | _ => s

/-! ## The slots of a bundle -/

/-- The operations of a bundle in the order in which they pop streams: V0, V1, S, M, C0, C1 (R86). -/
def popOrder (b : Bundle) : List (Nat × Instr) :=
  [(1, b.v0), (2, b.v1), (0, b.s), (3, b.m), (4, b.c0), (5, b.c1)].filterMap fun e => e.2.map fun i => (e.1, i)

/-- The operations in the order in which their checks are reported: S, V0, V1, M, C0, C1 (R387). -/
def reportOrder (b : Bundle) : List (Nat × Instr) :=
  [(0, b.s), (1, b.v0), (2, b.v1), (3, b.m), (4, b.c0), (5, b.c1)].filterMap fun e => e.2.map fun i => (e.1, i)

/-- The operand checks of the operation in slot n: streams that earlier slots name are popped first. -/
def slotOperandStop (s : State) (b : Bundle) (n : Nat) (i : Instr) : Option Stop :=
  let before := ((popOrder b).takeWhile fun e => e.1 != n).map (·.2)
  let s := { s with slot := n }
  firstStop [operandStop s i (before.flatMap streamsRead) (before.flatMap streamsWritten),
    if n = 5 then b.c0.bind fun j => pairStop s j i else none]

/-- The loop that is served first where a bundle is the last of several: the one started last (R164). -/
def latestLoop (l : FMap LoopReg) (pc : Nat) : Option (Nat × LoopReg) :=
  (l.filter fun e => e.2.active && e.2.last.toNat == pc).foldl (fun (b : Option (Nat × LoopReg)) e =>
    match b with
    | none => some e
    | some x => if x.2.age < e.2.age then some e else b) none

/-- The loop-back of the bundle at pc: loops that are over end, until one goes on (R164). There are four loop
registers. -/
def loopBack (c : Core) (pc : Nat) : Nat → Core × Option Word
  | 0 => (c, none)
  | fuel + 1 =>
    match latestLoop c.l pc with
    | none => (c, none)
    | some (i, r) =>
      if 1 < r.cnt.toNat then ({ c with l := FMap.put {} c.l i { r with cnt := r.cnt - 1 } }, some r.start)
      else loopBack { c with l := FMap.put {} c.l i { r with cnt := 0, active := false } } pc fuel

/-- The check of a loop-back's target (R389). -/
def loopBackStop (s : State) (b : Bundle) : Option Stop :=
  let c := curCore s
  let own := match b.s with
    | some (.loop _ _ l) => { c with l := FMap.put {} c.l l.toNat {} }
    | some .halt => { c with l := [] }
    | some (.br pg pn _) => if branchTaken s pg pn then { c with l := [] } else c
    | some (.brl _ pg pn _) => if branchTaken s pg pn then { c with l := [] } else c
    | _ => c
  match (loopBack own c.pc.toNat 4).2 with
  | none => none
  | some t =>
    match (translate s s.core (vfOfCore s s.core) t.toNat 3).1 with
    | .error f => stopIf (f.cause == 0x10 && f.reason == 5)
        (some { cause := 0x10, addr := t.toNat, info := info386 8 ((b.s.map opcodeOf).getD 0) 0 0 })
    | .ok _ => none

/-- The operand checks of the whole bundle in the order in which they are reported; the loop-back is one of slot S's (R387). -/
def bundleStop (s : State) (b : Bundle) : Option Stop :=
  let one := fun (l : List (Nat × Instr)) => firstStop (l.map fun e => slotOperandStop s b e.1 e.2)
  firstStop [one ((reportOrder b).filter fun e => e.1 == 0), loopBackStop s b, one ((reportOrder b).filter fun e => e.1 != 0)]

/-- Does an S operation act as soon as its bundle reaches issue, whatever stalls the other slots: a stash miss,
an interlocked atomic that leaves the core, an arrival, an arm (R86, R140, R167, R171)? -/
def actsAtIssue (s : State) (i : Instr) : Bool :=
  let leaves := fun (f : SA) => f.sd != 0 && (match taggedOf (sRead s f.sa.toNat) with
    | .localAddr a => match resolveLocal s s.core a with
      | .ok (.spm j _) => j != s.core
      | _ => false
    | _ => true)
  match i with
  | .ldg _ | .stg _ | .gjoin _ | .gleave _ | .gbar _ | .garr _ | .phase _ | .waita _ _ => true
  | .amo f => leaves f
  | .cas f => leaves f
  | _ => false

/-! ## Issue (R82) -/

/-- The clk of core k passes without issue. -/
def idleClk (s : State) (k : Nat) : State := modCore s k fun c => { c with clk := c.clk + 1 }

/-- The effects of a bundle's operations, in the order in which they pop streams. -/
def bundleEffects (b : Bundle) (s : State) : State :=
  (popOrder b).foldl (fun st e => effOf e.2 { st with slot := e.1 }) s

/-- The pc after a bundle that has issued: its branch, its loop-back, or the next bundle (R124, R164, R165). -/
def advancePc (c : Core) : Core :=
  match c.branch with
  | some t => { c with pc := t, branch := none }
  | none =>
    match loopBack c c.pc.toNat 4 with
    | (c', some t) => { c' with pc := t }
    | (c', none) => { c' with pc := c'.pc + 32 }

/-- A bundle whose S slot nothing holds any more: every slot's effect in this clk, stores after reads, then the
next bundle no earlier than clk + 1 + IDLE (R82). -/
def issueBundle (b : Bundle) (s : State) : State :=
  let k := s.core
  let s := flushStores (bundleEffects b s)
  let s := modCore s k fun c =>
    let c := advancePc (dropDelivered { c with held := {}, fetched := none })
    { c with clk := c.clk + 1, earliest := c.clk + 1 + b.idle }
  let s := { s with slot := 0 }
  let s := overflowCheck (finishTrap s)
  chargeCore s k

/-- The check that a decoded bundle fails in this clk, descriptors before operand values (R386, R387). Every slot is checked
before the S slot's operation acts, in a clk in which another slot stalls too. -/
def bundleFault (b : Bundle) (s : State) : Option Stop :=
  match firstStop ((reportOrder b).map fun e => descriptorStop { s with slot := e.1 } e.2) with
  | some x => some x
  | none =>
    if stalls s ((popOrder b).map (·.2)) && !(b.s.any (actsAtIssue s)) then none else bundleStop s b

/-- The current core tries to issue a decoded bundle in this clk (R82, R86, R386, R387). -/
def tryBundle (b : Bundle) (s : State) : State :=
  let k := s.core
  let vamos := ((popOrder b).filter fun e => isVamo e.2).length
  match bundleFault b s with
  | some x => stopIssue s x
  | none =>
    if stalls s ((popOrder b).map (·.2)) then
      match b.s with
      | none => idleClk s k
      | some i =>
        if !actsAtIssue s i then idleClk s k
        else match holdSlot s i vamos with
          | .go s' => idleClk s' k
          | .wait s' => idleClk s' k
          | .stop x s' => stopIssue s' x
    else match b.s with
      | none => issueBundle b s
      | some i =>
        match holdSlot s i vamos with
        | .go s' => issueBundle b s'
        | .wait s' => idleClk s' k
        | .stop x s' => stopIssue s' x

/-- The 256 bits of 32 bytes. -/
def bundleWord (bs : List Byte) : BitVec 256 := BitVec.ofNat 256 (leNat bs)

/-- The bundle that stands fetched for the pc of a core. -/
def fetchedBundle (c : Core) : Option (Except BundleFault Bundle) :=
  match c.fetched with
  | some (a, bs) => if a = c.pc then some (decodeBundle (bundleWord bs)) else none
  | none => none

/-- A core with the clk that comes next for its bundle, every result due by then landed, and streams unbound whose last use
has ended with it (R83, R85, R241). -/
def atIssueClk (c : Core) : Core := releaseStreams (advance c (Nat.max c.clk c.earliest))

/-- Has an asynchronous fault stopped core k in this clk (R387)? -/
def stoppedNow (s : State) (k : Nat) : Bool :=
  let q := (vfOf s (vfOfCore s k)).tq
  let mine := fun (r : Record) => decide (r.made = s.io.realNs ∧ r.rank ≠ 0)
    && recordKey r == 65536 * (k / 192) + (unitNo 0 (logicalCore s k)).toNat
  (coreOf s k).status == .stopped && (q.fresh.any mine || q.fatalPending.any fun p => mine p.2)

/-- A core that an asynchronous fault has stopped in this clk: a fault of its bundle in the same clk is the one that is
reported (R387). -/
def bundleFirst (s : State) (k : Nat) : State :=
  match fetchedBundle (coreOf s k) with
  | some (.error f) => stopIssue s { cause := 0x11, info := info386 f.reason f.opcode f.slot f.detail }
  | some (.ok b) => match bundleFault b s with
    | some x => stopIssue s x
    | none => s
  | none => s

/-- Does the context of core k still replay, so that none of its new operations issues (R342)? -/
def ctxBinding (s : State) (k : Nat) : Bool := (ctxOf s (vfOfCore s k) (k / 192)).status == .binding

/-- BUNDLE_ISSUE: a running core tries to issue the bundle at its pc (R82). -/
def execBundleIssue (k : Nat) (s : State) : Host.Outcome State Fault Refusal :=
  let s := bump { s with core := k, slot := 0 }
  if (coreOf s k).status ≠ .running ∨ ¬ (coreOf s k).replay.isEmpty ∨ ctxBinding s k = true then
    .next (if stoppedNow s k then bundleFirst (setCore s k (atIssueClk (coreOf s k))) k else s)
  else
    let s := landOn s k (atIssueClk (coreOf s k))
    match fetchedBundle (coreOf s k) with
    | none => .next (idleClk s k)
    | some (.error f) =>
      .next (stopIssue s { cause := 0x11, info := info386 f.reason f.opcode f.slot f.detail })
    | some (.ok b) => .next (tryBundle b s)

/-- BUNDLE_FETCH: the bundle at the pc of a core arrives from its text (R87, R124, R398). -/
def execBundleFetch (k : Nat) (s : State) : Host.Outcome State Fault Refusal :=
  let s := bump { s with core := k, slot := 0 }
  let c := coreOf s k
  let pc := c.pc.toNat
  if c.status ≠ .running then .next s
  else match firstLevel s k pc 3 fetchRequest with
    | .finding f => .next (fetchFault s k pc f)
    | .miss s => .next s
    | .hit t s =>
      let pa := t.phys pc
      if parkedIn s pa 32 then .next s
      else
        let s := chargeCoreAccess (touch s pa 32) k pa
        match (List.range 4).find? fun i => physPoisoned s (pa + 8 * i) 8 with
        | some i => .next (fetchFault s k (pc + 8 * i) { cause := 3 })
        | none => .next (modCore s k fun c => { c with fetched := some (c.pc, physRead s pa 32) })

/-- Would a group overtake one issued before it to the same stream (R181)? -/
def overtakes (c : Core) (idx : Nat) (p : Pending) : Bool :=
  match p.dest with
  | .push _ => (c.pending.take idx).any fun q => q.dest == p.dest && !q.landed
  | _ => false

/-- Is a result a write of `astat`, which takes effect at its bound and not before (R382)? -/
def exactResult (p : Pending) : Bool := p.dest == .csr 0x010

/-- RESULT_LANDING: a pending result of a core lands before its bound (R83, R84, R179, R181). -/
def execResultLanding (k idx : Nat) (s : State) : Host.Outcome State Fault Refusal :=
  let s := bump s
  let c := coreOf s k
  match c.pending[idx]? with
  | none => .next s
  | some p =>
    if p.landed ∨ c.clk ≤ p.issued ∨ c.status = .frozen ∨ overtakes c idx p ∨ exactResult p then .next s
    else
      let c := { c with pending := c.pending.set idx { p with landed := true } }
      .next (landOn s k (releaseStreams (landResult c { p with landed := true } (c.pending.drop (idx + 1)))))

/-- CORE_SLEEP_WAKE: the instant of a `sleep` that holds a core's bundle has come, and the bundle issues
(R173). -/
def execCoreSleepWake (k : Nat) (s : State) : Host.Outcome State Fault Refusal :=
  match fetchedBundle (coreOf s k) with
  | some (.ok b) =>
    match b.s with
    | some (.sleep sa) =>
      if (sRead { s with core := k } sa.toNat).toNat ≤ s.nstime.toNat then execBundleIssue k s else .next (bump s)
    | _ => .next (bump s)
  | _ => .next (bump s)

end Sys2Proof.Machine
end

