-- ==== Sys2Proof/Machine/CopyEngine.lean ====
section
/-! DEFINITION. COPY_COMPLETE: the copy engines move an entry's units, all that are left or some of them, by whole
granules or lines, and a completed copy leaves the in-flight record (R113, R114, R228 to R236, R338, R382, R401 to R403,
R413). -/

namespace Sys2Proof.Machine

open Sys2Proof

/-! ## One unit -/

/-- How a unit of a copy ends. -/
inductive UnitEnd where
  /-- done; whether its source was poisoned -/
  | ok (s : State) (poison : Bool)
  | wait
  /-- a finding at a virtual address, for a read or a write -/
  | fault (s : State) (va access : Nat) (f : Finding)

/-- What reading a unit's source gives. -/
inductive UnitRead where
  | ok (s : State) (bytes : List Byte) (poison : Bool)
  | wait
  | fault (s : State) (va : Nat) (f : Finding)

/-- The bytes of a place, as a copy of core k reads them (R113, R228), charged to the copy engine and to the place (R346). -/
def placeRead (s : State) (k : Nat) (hazard : List (Nat × List Byte)) (p : Place) (n : Nat) : UnitRead :=
  match p with
  | .pad v => .ok (chargeCore s k) (leBytes n v) false
  | .buf o =>
    let b := (coreOf s k).seq.buf
    .ok (chargeScratch (chargeCore s k) k k) (b.readN o n) (b.poisoned o n)
  | .spm j o =>
    let m := (coreOf s j).spm
    if portDead s k j then .wait
    else .ok (chargeScratch (chargeCore s k) k j) (if j = k then hazardReadN m hazard o n else m.readN o n) (m.poisoned o n)
  | .glob va =>
    if translateHeld s k (vfOfCore s k) va then .wait
    else match translate s k (vfOfCore s k) va 0 with
    | (.error f, s) => .fault s va f
    | (.ok pa, s) =>
      if parkedIn s pa n then .wait
      else
        let s := chargeGlobal (chargeCore (touch s pa n) k) k pa
        .ok s (physRead s pa n) (physPoisoned s pa n)

/-- A byte with one nibble replaced. -/
def setNibble (old : Byte) (hi : Bool) (v : Nat) : Byte :=
  if hi then BitVec.ofNat 8 (old.toNat % 16 + 16 * v) else BitVec.ofNat 8 (old.toNat / 16 * 16 + v)

/-- The bytes to store for a unit: for a nibble, the old byte with the nibble that the source byte gives. -/
def unitBytesOver (nib : Option (Bool × Bool)) (new old : List Byte) : List Byte :=
  match nib with
  | none => new
  | some (sh, dh) =>
    let b := (new.getD 0 0).toNat
    [setNibble (old.getD 0 0) dh (if sh then b / 16 else b % 16)]

/-- Poison that a unit carries into its destination words of a memory (R378). -/
def carryPoison (m : Mem) (o n : Nat) (poison : Bool) : Mem :=
  if poison then m.movePoison ((List.range ((o + n - 1) / 8 + 1 - o / 8)).map (· + o / 8)) else m

/-- A core's sequencer buffer changed. -/
def modBuf (s : State) (k : Nat) (f : Mem → Mem) : State :=
  modCore s k fun c => { c with seq := { c.seq with buf := f c.seq.buf } }

/-- Bytes written at a place by core k's copy engine, with the poison they carry, charged to the place (R346). A store to
global memory drops the core's clean lines of the range (R113). -/
def placeWrite (s : State) (k : Nat) (p : Place) (nib : Option (Bool × Bool)) (bs : List Byte) (poison : Bool) : UnitEnd :=
  let n := bs.length
  match p with
  | .pad _ => .ok s poison
  | .buf o =>
    .ok (modBuf (chargeScratch s k k) k fun m => carryPoison (m.store o (unitBytesOver nib bs (m.readN o 1))) o n poison) poison
  | .spm j o =>
    let out := unitBytesOver nib bs ((coreOf s j).spm.readN o 1)
    if portDead s k j then .wait
    else .ok (modCore (spmWrite (chargeScratch s k j) j o out) j fun c => { c with spm := carryPoison c.spm o n poison }) poison
  | .glob va =>
    if translateHeld s k (vfOfCore s k) va then .wait
    else match translate s k (vfOfCore s k) va 1 with
    | (.error f, s) => .fault s va 1 f
    | (.ok pa, s) =>
      if parkFull s pa || (nib.isSome && parkedIn s pa 1) then .wait
      else
        let s := if nib.isSome then touch s pa 1 else s
        let s := physWrite (chargeGlobal s k pa) pa (unitBytesOver nib bs (physRead s pa 1))
        let s := if poison then physPoison s [pa / 8] else s
        .ok (modCore s k fun c => stashDropRange c pa n) poison

/-- One unit moved. -/
def moveUnit (s : State) (k : Nat) (hazard : List (Nat × List Byte)) (m : Move) : UnitEnd :=
  match placeRead s k hazard m.src m.n with
  | .wait => .wait
  | .fault s va f => .fault s va 0 f
  | .ok s bs poison => placeWrite s k m.dst m.nib bs poison

/-! ## Runs of units -/

/-- Which aligned word of its destination a copy is filling: the word, the bytes of it written without a gap from
its start, and whether any of them was poisoned (R378). -/
structure Filling where
  at_ : Place := .pad 0
  bytes : Nat := 0
  poison : Bool := false

/-- The word of a place, with the offset in it. -/
def wordOf (p : Place) : Place × Nat :=
  match p with
  | .glob va => (.glob (va / 8), va % 8)
  | .spm j o => (.spm j (o / 8), o % 8)
  | .buf o => (.buf (o / 8), o % 8)
  | .pad v => (.pad v, 8)

/-- The poison of a whole word cleared, since clean data has filled it (R378). -/
def clearWord (s : State) (k : Nat) (p : Place) : State :=
  match p with
  | .glob w =>
    match translate s k (vfOfCore s k) (8 * w) 1 with
    | (.ok pa, s) => if (windowOf s (pa / 65536)).isSome then s else { s with mem := s.mem.clearPoison (pa / 8 * 8) 8 }
    | (.error _, s) => s
  | .spm j w => modCore s j fun c => { c with spm := c.spm.clearPoison (8 * w) 8 }
  | .buf w => modBuf s k fun m => m.clearPoison (8 * w) 8
  | .pad _ => s

/-- The filling after a unit, with the word's poison cleared where the unit completes it. -/
def fillWord (s : State) (k : Nat) (f : Filling) (m : Move) (poison : Bool) : State × Filling :=
  let (w, o) := wordOf m.dst
  let n := if m.nib.isSome then 0 else m.n
  if m.nib.isNone ∧ (o = 0 ∨ (f.at_ = w ∧ f.bytes = o)) then
    let bad := poison || (o != 0 && f.poison)
    if o + n = 8 then (if bad then s else clearWord s k w, {}) else (s, { at_ := w, bytes := o + n, poison := bad })
  else (s, {})

/-- How a run of units ends: done, or waiting or faulting at the unit that begins at a half byte. -/
inductive RunEnd where
  | all
  | wait (h : Nat)
  | fault (h va access : Nat) (f : Finding)

/-- Units moved in order until one waits or faults. `before` is made before each unit, with the half byte at which it
begins, and answers a finding that keeps it from beginning. -/
def runMoves (k : Nat) (hazard : List (Nat × List Byte)) (before : State → Nat → Move → Option (Nat × Nat × Finding))
    (s : State) (f : Filling) : List (Nat × Move) → State × RunEnd
  | [] => (s, .all)
  | (h, m) :: rest =>
    match before s h m with
    | some (va, access, x) => (s, .fault h va access x)
    | none =>
      match moveUnit s k hazard m with
      | .wait => (s, .wait h)
      | .fault s va access x => (s, .fault h va access x)
      | .ok s poison =>
        let (s, f) := fillWord s k f m poison
        runMoves k hazard before s f rest

/-! ### Granules (R114, R228) -/

/-- The aligned 32-byte granule of a place. -/
def granuleOf (p : Place) : Place :=
  match p with
  | .glob va => .glob (va / 32)
  | .spm j o => .spm j (o / 32)
  | .buf o => .buf (o / 32)
  | .pad v => .pad v

/-- The units of a list that write no granule which a unit of another list writes. -/
def wholeGranules (l rest : List (Nat × Move)) : List (Nat × Move) :=
  l.filter fun u => !(rest.any fun v => granuleOf v.2.dst == granuleOf u.2.dst)

/-- The units of a copy that are left: not below `done`, nor in a granule written ahead of it. -/
def unitsLeft (all : List (Nat × Move)) (x : CopyEntry) : List (Nat × Move) :=
  all.filter fun u => decide (2 * x.done < u.1 + u.2.halves)
    && !(x.early.any fun i => (all[i]?).any fun v => granuleOf v.2.dst == granuleOf u.2.dst)

/-- The units, among those left, that an event moves. -/
def unitsOf (all left : List (Nat × Move)) (part : CopyPart) : List (Nat × Move) :=
  match part with
  | .toEnd => left
  | .upTo n => wholeGranules left (left.filter fun u => decide (2 * n < u.1 + u.2.halves))
  | .granule i =>
    match all[i]? with
    | none => []
    | some v => left.filter fun u => granuleOf u.2.dst == granuleOf v.2.dst

/-- The units of a run that moved: where it ended early, those of the granules which it wrote whole. -/
def unitsRun (todo : List (Nat × Move)) (fin : RunEnd) : List (Nat × Move) :=
  match fin with
  | .all => todo
  | .wait h => wholeGranules todo (todo.filter fun u => decide (h ≤ u.1))
  | .fault h _ _ _ => wholeGranules todo (todo.filter fun u => decide (h ≤ u.1))

/-- Units moved by whole granules: where one waits or faults, no granule is left written in part. -/
def runGranules (k : Nat) (hazard : List (Nat × List Byte)) (before : State → Nat → Move → Option (Nat × Nat × Finding))
    (s : State) (todo : List (Nat × Move)) : State × RunEnd :=
  match runMoves k hazard before s {} todo with
  | (s', .all) => (s', .all)
  | (_, fin) => ((runMoves k hazard before s {} (unitsRun todo fin)).1, fin)

/-- The byte below which every unit has moved. -/
def doneAfter (all left ran : List (Nat × Move)) : Nat :=
  match left.find? fun u => !(ran.any fun v => v.1 == u.1) with
  | some u => u.1 / 2
  | none => (all.map fun u => u.2.halves).foldl (· + ·) 0 / 2

/-! ## `cpa` (R232) -/

/-- One element added into its destination, with the flags it raises; poison of either operand stays in the sum. `mine`
holds what the elements before it in its line have made of the line, whose sums a write-protect window parks (R120). -/
def addUnit (s : State) (k : Nat) (hazard : List (Nat × List Byte)) (f : Bool) (mine : FMap Byte) (m : Move) :
    UnitEnd × FMap Byte × Flags :=
  match placeRead s k hazard m.src 4 with
  | .wait => (.wait, mine, 0)
  | .fault s va x => (.fault s va 0 x, mine, 0)
  | .ok s src p1 =>
    let add := fun (old : List Byte) =>
      let a := leNat old
      let b := leNat src
      if f then ((a + b) % 2 ^ 32, (0 : Flags)) else add32 .rne (decodeFloat fmt32 a) (decodeFloat fmt32 b)
    match m.dst with
    | .spm j o =>
      let c := coreOf s j
      let (r, fl) := add (c.spm.readN o 4)
      let bad := p1 || c.spm.poisoned o 4
      if portDead s k j then (.wait, mine, 0)
      else (.ok (modCore (spmWrite (chargeScratch s k j) j o (leBytes 4 r)) j fun c => { c with spm := carryPoison c.spm o 4 bad }) bad, mine, fl)
    | .glob va =>
      if translateHeld s k (vfOfCore s k) va then (.wait, mine, 0)
      else match translate s k (vfOfCore s k) va 1 with
      | (.error x, s) => (.fault s va 1 x, mine, 0)
      | (.ok pa, s) =>
        if mine.isEmpty && updateWaits s pa 4 then (.wait, mine, 0)
        else
          let s := chargeGlobal (touch s pa 4) k pa
          let (r, fl) := add ((physRead s pa 4).zipIdx.map fun b => (mine.find? (pa + b.2)).getD b.1)
          let bad := p1 || physPoisoned s pa 4
          let s := physWrite s pa (leBytes 4 r)
          let s := if bad then physPoison s [pa / 8] else s
          let mine := (leBytes 4 r).zipIdx.foldl (fun l b => FMap.insert l (pa + b.2) b.1) mine
          (.ok (modCore s k fun c => stashDropRange c pa 4) bad, mine, fl)
    | _ => (.ok s false, mine, 0)

/-- The elements of a line added in order until one waits or faults. -/
def runAdds (k : Nat) (hazard : List (Nat × List Byte)) (f : Bool) (s : State) (mine : FMap Byte) (fl : Flags) :
    List (Nat × Move) → State × Flags × RunEnd
  | [] => (s, fl, .all)
  | (h, m) :: rest =>
    match addUnit s k hazard f mine m with
    | (.wait, _, _) => (s, fl, .wait h)
    | (.fault s va access x, _, _) => (s, fl, .fault h va access x)
    | (.ok s _, mine, g) => runAdds k hazard f s mine (fl ||| g) rest

/-! ## Lines with tags (R338 to R340) -/

/-- The tag of a line stored at the line's target (R339). -/
def storeLineTag (s : State) (k seq : Nat) (p : Place) : State :=
  let src := coreSource s k
  match p with
  | .spm j _ => modCore s j fun c => { c with portTags := storeTag c.portTags src (seq, 0) }
  | .glob va =>
    match (translate s k (vfOfCore s k) va 1).1 with
    | .error _ => s
    | .ok pa =>
      match (if (windowOf s (pa / 65536)).isSome then none else homeVale pa) with
      | some v => modVale s v fun w => { w with cacheTags := storeTag w.cacheTags src (seq, 0) }
      | none => { s with io := { s.io with tags := storeTag s.io.tags src (seq, 0) } }
  | _ => s

/-- Lines applied in order, each whole or not at all: one whose target stores its tag is not applied again, and one waits
while 16 requests of the core are unacknowledged. `line` applies one, `i` is the number of the first. -/
def runLines (k : Nat) (line : State → List (Nat × Move) → State × Flags × RunEnd) (tag0 : Nat) (s : State) (fl : Flags)
    (i : Nat) : List (List (Nat × Move)) → State × Flags × RunEnd
  | [] => (s, fl, .all)
  | l :: rest =>
    let h := (l.map (·.1)).headD 0
    let seq := (tag0 + i) % 2 ^ 40
    if (tagAnywhere s (coreSource s k) seq).isSome then runLines k line tag0 s fl (i + 1) rest
    else if 16 ≤ unacknowledged (coreOf s k) then (s, fl, .wait h)
    else match line s l with
      | (s', g, .all) => runLines k line tag0 (storeLineTag s' k seq (((l.map fun u => u.2.dst)).headD (.pad 0))) (fl ||| g) (i + 1) rest
      | (_, _, .wait _) => (s, fl, .wait h)
      | (_, _, .fault _ va access f) => (s, fl, .fault h va access f)

/-! ## Completion (R234, R238) -/

/-- Consecutive completed ids above a channel's `xdone` are passed; `fuel` bounds their number. -/
def passDone (x : Nat) (l : List Nat) : Nat → Nat × List Nat
  | 0 => (x, l)
  | fuel + 1 => if l.contains x then passDone (x + 1) (l.filter (· != x)) fuel else (x, l)

/-- A transfer id of a channel completed (R234). -/
def idDone (c : Core) (ch id : Nat) : Core :=
  if ch = 0 then
    let (x, l) := passDone c.xdone0 (id :: c.doneIds0) (c.doneIds0.length + 1)
    { c with xdone0 := x, doneIds0 := l }
  else
    let (x, l) := passDone c.xdone1 (id :: c.doneIds1) (c.doneIds1.length + 1)
    { c with xdone1 := x, doneIds1 := l }

/-- A copy entry leaves the record. -/
def dropCopy (c : Core) (e : Nat) : Core := leaveRecord { c with copies := c.copies.erase e } (ordCopy e)

/-- A ring slot that a copy used is posted or freed. -/
def settleSlot (c : Core) (x : CopyEntry) : Core :=
  let d := copyDesc x.desc
  match x.slot with
  | none => c
  | some i =>
    let r := ringOf c d.ring
    if d.rmode = 1 then setRing c d.ring (ringProduced r i)
    else if d.rmode = 2 then setRing c d.ring (ringConsumed r i)
    else c

/-- Core k after its copy in entry e has completed: the id, the ring slot and the entry. A sequencer copy clears
its bit of `prg.cmask` (R80). -/
def finishCopy (s : State) (k e : Nat) (x : CopyEntry) : State :=
  modCore s k fun c =>
    let c := dropCopy c e
    if x.bySeq then { c with
      prgCmask := c.prgCmask &&& ~~~(1#32 <<< e)
      seq := { c.seq with
        inputs := c.seq.inputs.filter (fun p => p.1 != e), outputs := c.seq.outputs.filter (fun p => p.1 != e) } }
    else idDone (settleSlot c x) x.channel x.id

/-- Core k with entry e's progress recorded. -/
def setDone (s : State) (k e done : Nat) (early : List Nat) : State :=
  modCore s k fun c => match c.copies.find? e with
    | none => c
    | some x => { c with copies := c.copies.insert e { x with done := done, early := early } }

/-- What stands where units are going to be written (R114). -/
def standing (s : State) (k : Nat) (l : List Move) : List (Option Nat × Nat × List Byte) :=
  l.filterMap fun m => match m.dst with
    | .spm j o => some (some j, o, (coreOf s j).spm.readN o m.n)
    | .glob va => match translate s k (vfOfCore s k) va 1 with
      | (.ok pa, _) => some (none, pa, physRead s pa m.n)
      | _ => none
    | _ => none

/-- Core k whose copy in entry e has written over those bytes and goes on. -/
def setRaced (s : State) (k e : Nat) (l : List (Option Nat × Nat × List Byte)) : State :=
  modCore s k fun c => match c.copies.find? e with
    | none => c
    | some x => { c with copies := c.copies.insert e { x with raced := l, racedAt := s.io.realNs } }

/-- A copy meets a finding: its entry stays, faulting, and its core stops (R401 to R403). A walk that made the finding is
charged, and has met the read that was lost in it (R346, R377). -/
def copyFault (s : State) (k e va access : Nat) (f : Finding) : State :=
  let s := if f.level = 255 then s else (translate s k (vfOfCore s k) va access).2
  let s := modCore s k fun c => match c.copies.find? e with
    | none => c
    | some x => { c with copies := c.copies.insert e { x with faulted := true } }
  let c := coreOf s k
  let agent := match c.copies.find? e with
    | some x => if x.bySeq then 4 else 2 + x.channel
    | none => 4
  let builtin := match c.seq.exec with
    | some d => d.op != 8
    | none => false
  stopCore s k f.cause (if builtin then 0 else c.pc.toNat) va (info399 f access agent (ordCopy e) 0) (entryRank s k (ordCopy e))

/-- A copy whose units have all moved completes, once its writes have performed: nothing parked in a write-protect
window is left where it wrote global memory (R113, R120). -/
def finishMoved (s : State) (k e : Nat) (x : CopyEntry) (all : List (Nat × Move)) : State :=
  if (all.any fun u => match u.2.dst with
      | .glob _ => true
      | _ => false) && parkedWrites s (vfOfCore s k) then
    setDone s k e ((all.map fun u => u.2.halves).foldl (· + ·) 0 / 2) []
  else finishCopy s k e x

/-- The state after a run of an entry's units, with what the run has left it at. -/
def endRun (s : State) (k e : Nat) (x : CopyEntry) (all : List (Nat × Move)) (done : Nat) (early : List Nat) (whole : Bool) :
    RunEnd → State
  | .all => if whole then finishMoved s k e x all else setDone s k e done early
  | .wait _ => setDone s k e done early
  | .fault _ va access f => copyFault (setDone s k e done early) k e va access f

/-! ## The row operations' limits (R122, R395) -/

/-- Is a segment at a physical address in HBM and 1 KiB-aligned? -/
def segmentOk (pa : Nat) : Bool := decide (pa < 2 ^ 40) && pa % 1024 == 0

/-- Do a source and a destination segment share Vale, stack, pseudo-channel and subarray, and differ in their
row (R122)? -/
def segmentsPair (a b : Nat) : Bool :=
  a / 2 ^ 27 == b / 2 ^ 27 && a / 2 ^ 10 % 64 == b / 2 ^ 10 % 64 && a / 2 ^ 16 % 2 ^ 11 != b / 2 ^ 16 % 2 ^ 11

/-- The physical address that a virtual address translates to, where it does. -/
def physOf (s : State) (k va access : Nat) : Option Nat :=
  match translate s k (vfOfCore s k) va access with
  | (.ok pa, _) => some pa
  | (.error _, _) => none

/-- The check of `m.rcpy` and `m.rinit` at the first unit of each segment, by the half bytes moved before it. A
translation that ends in a finding of its own leaves it to the unit. -/
def segmentCheck (op k : Nat) (s : State) (moved : Nat) (m : Move) : Option (Nat × Nat × Finding) :=
  match m.dst with
  | .glob d =>
    if (op ≠ 9 ∧ op ≠ 10) ∨ moved % 2048 ≠ 0 then none
    else match m.src, physOf s k d 1 with
      | .glob a, pd? =>
        match physOf s k a 0 with
        | none => none
        | some ps =>
          if !segmentOk ps then some (a, 0, { cause := 0x15 })
          else match pd? with
            | none => none
            | some pd => if segmentOk pd && segmentsPair ps pd then none else some (d, 1, { cause := 0x15 })
      | _, some pd => if segmentOk pd then none else some (d, 1, { cause := 0x15 })
      | _, none => none
  | _ => none

/-! ## COPY_COMPLETE -/

/-- Is an event the one that carries a copy to its end? -/
def toTheEnd (part : CopyPart) : Bool :=
  match part with
  | .toEnd => true
  | _ => false

/-- The part of an entry of class IC1: its lines that are left and lie below a byte. -/
def linesLeft (all : List (Nat × Move)) (x : CopyEntry) (part : CopyPart) : Nat × List (List (Nat × Move)) :=
  let runs := lineRuns all
  let first := (runs.takeWhile fun l => decide ((l.map (·.1)).headD 0 < 2 * x.done)).length
  (first, (runs.drop first).takeWhile fun l => match part with
    | .toEnd => true
    | .upTo n => l.all fun u => decide (u.1 + u.2.halves ≤ 2 * n)
    | .granule _ => false)

/-- The byte that a run of lines has reached. -/
def lineDone (x : CopyEntry) (l : List (List (Nat × Move))) (fin : RunEnd) : Nat :=
  match fin with
  | .all => (l.flatten.map fun u => u.1 + u.2.halves).foldl Nat.max (2 * x.done) / 2
  | .wait h => h / 2
  | .fault h _ _ _ => h / 2

/-- The units of lines that lie below a byte. -/
def below (lines : List (List (Nat × Move))) (done : Nat) : List Move :=
  (lines.flatten.filter fun u => decide (u.1 < 2 * done)).map (·.2)

/-- The fault of a sequencer's copy that an event meets: every unit before it in the tile's order is written, none at or
beyond it, and `done` is its offset; a granule ahead of its turn is left for later (R413). -/
def tileFault (s : State) (k e : Nat) (x : CopyEntry) (op : Nat) (all left : List (Nat × Move)) (part : CopyPart) : State :=
  match part with
  | .granule _ => s
  | _ => match runMoves k x.hazard (segmentCheck op k) s {} left with
    | (s', .fault h va access f) => endRun s' k e x all (h / 2) x.early false (.fault h va access f)
    | _ => s

/-- Would a granule of a sequencer's copy be written ahead of a unit that meets a finding (R413)? -/
def aheadOfFault (s : State) (k : Nat) (x : CopyEntry) (op : Nat) (left todo : List (Nat × Move)) : Bool :=
  x.tile.isSome && (match runMoves k x.hazard (segmentCheck op k) s {} (left.takeWhile fun u => !(todo.any fun v => v.1 == u.1)) with
    | (_, .fault _ _ _ _) => true
    | _ => false)

/-- An entry whose units are given: by granules, or by lines where its ranges overlap. -/
def runCopy (s : State) (k e : Nat) (x : CopyEntry) (op : Nat) (l : List Move) (part : CopyPart) : State :=
  let all := placed 0 l
  if x.cls = 1 then
    let (first, lines) := linesLeft all x part
    let (s', _, fin) := runLines k (fun s l => let (s, fin) := runMoves k x.hazard (fun _ _ _ => none) s {} l
                                               (s, 0, fin)) x.tag0 s 0 first lines
    setRaced (endRun s' k e x all (lineDone x lines fin) [] (toTheEnd part) fin) k e (standing s k (below lines (lineDone x lines fin)))
  else
    let left := unitsLeft all x
    let todo := unitsOf all left part
    let (s', fin) := runGranules k x.hazard (segmentCheck op k) s todo
    let early := match part, fin with
      | .granule i, .all => x.early ++ [i]
      | _, _ => x.early
    match x.tile, part, fin with
    | some _, _, .fault _ _ _ _ => tileFault s k e x op all left part
    | some _, .granule _, _ =>
      if aheadOfFault s k x op left todo then s
      else endRun s' k e x all (doneAfter all left (unitsRun todo fin)) early (toTheEnd part) fin
    | _, _, _ => endRun s' k e x all (doneAfter all left (unitsRun todo fin)) early (toTheEnd part) fin

/-- A `cpa`, line by line; its flags reach `astat` when it completes (R232, R382). -/
def runCpa (s : State) (k e : Nat) (x : CopyEntry) (part : CopyPart) : State :=
  let all := placed 0 (slotMoves s k x)
  let (first, lines) := linesLeft all x part
  let s0 := s
  let (s, fl, fin) := runLines k (fun s l => runAdds k x.hazard x.f s [] 0 l) x.tag0 s x.flags first lines
  let s := modCore s k fun c => match c.copies.find? e with
    | none => c
    | some y => { c with copies := c.copies.insert e { y with flags := fl } }
  let s := setRaced (endRun s k e x all (lineDone x lines fin) [] (toTheEnd part) fin) k e (standing s0 k (below lines (lineDone x lines fin)))
  if ((coreOf s k).copies.find? e).isNone then modCore s k fun c => { c with astat := astatMerge c.astat fl } else s

/-- The source of a `cpm`, read once (R230): the bytes and the poison of each unit. -/
def readOnce (k : Nat) (hazard : List (Nat × List Byte)) (s : State) (l : List (List Byte × Bool)) :
    List Move → State × List (List Byte × Bool) × RunEnd
  | [] => (s, l, .all)
  | m :: rest =>
    match placeRead s k hazard m.src m.n with
    | .ok s bs poison => readOnce k hazard s (l ++ [(bs, poison)]) rest
    | .wait => (s, l, .wait 0)
    | .fault s va f => (s, l, .fault 0 va 0 f)

/-- What a `cpm` has read written at one target. -/
def putUnits (k : Nat) (s : State) (f : Filling) : List (Move × List Byte × Bool) → State
  | [] => s
  | (m, bs, poison) :: rest =>
    match placeWrite s k m.dst none bs poison with
    | .ok s poison =>
      let (s, f) := fillWord s k f m poison
      putUnits k s f rest
    | _ => s

/-- A `cpm` reads its source, delivers to each target that has its place, and completes when every target has its data
(R230). -/
def runCpm (s : State) (k e : Nat) (x : CopyEntry) : State :=
  let d := copyDesc x.desc
  let vf := vfOfCore s k
  let (s, data, fin) := match x.data with
    | some l => (s, l, RunEnd.all)
    | none => readOnce k x.hazard s [] (targetMoves s k x k none)
  match fin with
  | .wait _ => s
  | .fault _ va access f => copyFault s k e va access f
  | .all =>
    let s := modCore s k fun c => { c with copies := c.copies.insert e { x with data := some data, raced := [], racedAt := s.io.realNs } }
    let one := fun (a : State × Bool) (t : Nat) =>
      let (s, waits) := a
      match physCore s (k / 192) vf t, (coreOf s k).copies.find? e with
      | some j, some x =>
        let slot := (x.targets.find? (fun p => p.1 == j)).map (·.2)
        if x.delivered.contains j then a
        else if (d.rmode = 1 ∧ slot.isNone) ∨ portDead s k j then (s, true)
        else
          let old := standing s k (targetMoves s k x j slot)
          let s := putUnits k s {} ((targetMoves s k x j slot).zip data)
          let s := match slot with
            | some i => modCore s j fun c => setRing c d.ring (ringProduced (ringOf c d.ring) i)
            | none => s
          (modCore s k fun c => { c with copies := c.copies.insert e { x with
            delivered := x.delivered ++ [j], raced := x.raced ++ old } }, waits)
      | _, _ => a
    let (s, waits) := d.targets.foldl one (s, false)
    if waits then s else finishCopy s k e x

/-- An `sqfill` delivers its scales into the place of the queue that it reserved (R218, R233). -/
def runSqfill (s : State) (k e : Nat) (x : CopyEntry) : State :=
  let d := copyDesc x.desc
  let srcs := (unitOffsets s k x).map fun u => sidePlace s k d.src u.1
  let read := srcs.foldl (fun (a : State × List SqItem × RunEnd) p =>
    match a with
    | (s, bs, .all) =>
      match placeRead s k x.hazard p 1 with
      | .ok s b bad => (s, bs ++ b.map (if bad then SqItem.bad else .scale), .all)
      | .wait => (s, bs, .wait 0)
      | .fault s va f => (s, bs, .fault 0 va 0 f)
    | x => x) (s, [], .all)
  match read with
  | (s, bs, .all) =>
    let s := modCore s k fun c => { c with sq := c.sq.flatMap fun i => match i with
      | .hole ch id n data => if ch = x.channel ∧ id = x.id then bs else [.hole ch id n data]
      | y => [y] }
    finishCopy s k e x
  | (s, _, fin) => endRun s k e x [] 0 [] false fin

/-- COPY_COMPLETE: an entry's copy is carried on by a part, or to its end, when it leaves the record. A copy that
waits for a ring slot, or for another copy, stays as it is (R229, R236). -/
def execCopyComplete (k e : Nat) (part : CopyPart) (s : State) : Host.Outcome State Fault Refusal :=
  let s := bump s
  match (coreOf s k).copies.find? e with
  | none => .next s
  | some x =>
    let d := copyDesc x.desc
    if x.faulted ∨ isFrozen s k ∨ replayWaits s k (ordCopy e) ∨ behindCopy s k e x then .next s
    else match reissue s k (ordCopy e) with
    | none => .next s
    | some s =>
      match x.tile, (coreOf s k).seq.exec with
      | some t, some disp =>
        match tilePlan s k disp t with
        | .moves l => .next (runCopy s k e x disp.op l part)
        | .wait => .next s
        | .badIndex q =>
          .next (stopFatal s k 0x10 0 (elemVa ((macroOf disp.desc disp.t3).tn 1) [q]).1 q 0)
      | _, _ =>
        if x.op = 2 then .next (if d.rmode = 2 ∧ x.slot.isNone then s else runCpm s k e x)
        else if (d.rmode = 1 ∨ d.rmode = 2) ∧ x.slot.isNone then .next s
        else if x.op = 5 then .next (runCpa s k e x part)
        else if x.op = 13 then .next (runSqfill s k e x)
        else .next (runCopy s k e x 0 (slotMoves s k x) part)

end Sys2Proof.Machine
end

