-- ==== Sys2Proof/Machine/Builtin.lean ====
section
/-! DEFINITION. The step bodies of the built-in macro-instructions, over the tiles in the sequencer's buffer
(R248, R251 to R258). -/

namespace Sys2Proof.Machine

open Sys2Proof

/-- The sequencer's buffer without what stands in the areas of a parity. -/
def clearParity (m : Mem) (parity : Nat) : Mem :=
  let lo := parity * 2 ^ 43
  let hi := (parity + 1) * 2 ^ 43
  { m with
    cells := m.cells.filter fun e => !(decide (lo ≤ e.1) && decide (e.1 < hi))
    poison := m.poison.filter fun w => !(decide (lo ≤ 8 * w) && decide (8 * w < hi)) }

/-- The virtual address of the first unit of a step's tiles that stands poisoned in the buffer (R414). -/
def poisonedInput (s : State) (k : Nat) (d : Dispatch) (step parity : Nat) : Option Nat :=
  let m := macroOf d.desc d.t3
  let buf := (coreOf s k).seq.buf
  (inputCopies m step parity).findSome? fun t => match tilePlan s k d t with
    | .moves l => l.findSome? fun mv => match mv.dst, mv.src with
      | .buf o, .glob va => if buf.poisoned o mv.n then some va else none
      | _, _ => none
    | _ => none

/-! ## Products (R251, R253) -/

/-- The values of one operand's lanes at a k-step, with scales applied, and whether a signalling NaN is among
them. -/
def laneValues (m : Macro) (j : Nat) (signed : Bool) (data scales : List Byte) (n kl : Nat) : List FVal × Bool :=
  let t := m.tn j
  let vals := (List.range n).map fun i =>
    let v := operandVal t.ty signed (elemAt t.width data (kl * n + i))
    if t.sbase = 0 then (v, false)
    else mulExact v (decodeE8m0 (scales.getD (kl / t.block * n + i) 0).toNat)
  (vals.map (·.1), vals.any (·.2))

/-- One k-step of a product added to the cells of a bank. -/
def productStep (m : Macro) (kind : BankKind) (keys : List Nat) (da sa db sb : List Byte) (na nb : Nat)
    (x : Bank × Flags) (kl : Nat) : Bank × Flags :=
  let sgA := m.p0 / 4 % 2 == 1
  let sgB := m.p0 / 8 % 2 == 1
  let (av, badA) := laneValues m 0 sgA da sa na kl
  let (bv, badB) := laneValues m 1 sgB db sb nb kl
  let ai := (List.range na).map fun i => intOf sgA 8 (elemAt 8 da (kl * na + i))
  let bi := (List.range nb).map fun i => intOf sgB 8 (elemAt 8 db (kl * nb + i))
  let k : KStep :=
    { cop := 0, kind := kind, a := fun i => av.getD i (.zero false), b := fun i => bv.getD i (.zero false)
      ai := fun i => ai.getD i 0, bi := fun i => bi.getD i 0, sa := ofInt 1, sb := ofInt 1
      blk8 := m.p0 % 2 == 1, sat := m.p0 / 2 % 2 == 1 }
  let (b, fl) := match kind with
    | .int32 => accumulateInt keys x.1 k
    | _ => accumulateFp keys x.1 k
  (b, x.2 ||| fl ||| flagIf (kind != .int32 && (badA || badB)) fNv)

/-- The epilogue's element of cell (i, j) (R251). -/
def epilogue (m : Macro) (b : Bank) (t3 : List Byte) (nb i j : Nat) : Nat × Flags :=
  let x := (b.cells.get 0 (cellKey i j)).toNat
  let ty := (tyOf (m.tn 2).ty).getD .fp32
  let rm := rmOf (BitVec.ofNat 2 (m.p0 / 16))
  match m.p0 / 64 % 4 with
  | 1 => requant ty (signedOf 32 x) (signedOf 32 (numAt t3 (4 * j) 4)) (m.p0 / 256 % 64) (signedOf 32 (numAt t3 (4 * (nb + j)) 4))
  | 2 =>
    let v := match b.kind with
      | .int32 => ofInt (signedOf 32 x)
      | _ => decode .fp32 x
    let (r, f1) := add32 .rne v (decode .fp32 (numAt t3 (4 * j) 4))
    let (y, f2) := cvt ty .fp32 rm true r
    (y, f1 ||| f2)
  | _ => match b.kind with
    | .int32 => cvt ty .int32 rm true x
    | _ => cvt ty .fp32 rm true x

/-- The body of a step of `m.gemm` or `m.conv`: the chain's accumulator is in `acc0`, and after the chain's last
step the tile of C stands in the buffer. -/
def productBody (c : Core) (m : Macro) (step parity : Nat) : Core × Flags :=
  let ks := m.span step 0
  let ms := m.span step 2
  let ns := m.span step 1
  let nk := ks.2 - ks.1
  let na := ms.2 - ms.1
  let nb := ns.2 - ns.1
  let kind := match typePair (m.tn 0).ty (m.tn 1).ty with
    | some (_, k) => k
    | none => .fp32
  let area := fun (j : Nat) (scale : Bool) (n : Nat) => c.seq.buf.readN (bufAt parity j scale) n
  let da := area 0 false ((nk * na * (m.tn 0).width + 7) / 8)
  let db := area 1 false ((nk * nb * (m.tn 1).width + 7) / 8)
  let sa := if (m.tn 0).sbase = 0 then [] else area 0 true (nk * na)
  let sb := if (m.tn 1).sbase = 0 then [] else area 1 true (nk * nb)
  let keys := (List.range na).flatMap fun i => (List.range nb).map (cellKey i)
  let b0 : Bank := if (indicesOf step m.counts).getD 0 0 = 0 then { kind := kind } else c.acc0
  let (b, fl) := (List.range nk).foldl (productStep m kind keys da sa db sb na nb) (b0, 0)
  if lastOfChain m step then
    let (b, f2) := closeBlocks keys b
    let t3 := area 3 false (8 * nb)
    let outs := (List.range na).flatMap fun i => (List.range nb).map fun j => epilogue m b t3 nb i j
    let bytes := packElems (m.tn 2).width (outs.map (·.1))
    ({ c with acc0 := b, seq := { c.seq with buf := c.seq.buf.store (bufAt parity 2 false) bytes } },
      outs.foldl (fun a x => a ||| x.2) (fl ||| f2))
  else ({ c with acc0 := b }, fl)

/-! ## Normalisation (R258) -/

/-- A value rounded to FP32 with the flags of an operation that had it as exact result. -/
def rnd (e : FVal × Bool) : Nat × Flags :=
  let (r, fl) := roundArith fmt32 .rne false e.1
  (r, fl ||| flagIf e.2 fNv)

/-- FMA32 on FP32 patterns. -/
def fma32 (x y z : Nat) : Nat × Flags :=
  rnd (fmaExact .rne (decodeFloat fmt32 x) (decodeFloat fmt32 y) (decodeFloat fmt32 z))

/-- One row normalised: output elements and flags. -/
def normRow (m : Macro) (xs gammas betas : List Nat) : List Nat × Flags :=
  let n := xs.length
  let eps := m.p0 % 2 ^ 32
  let v := decodeFloat fmt32
  let root := fun (num : Nat) (d : Nat) =>
    let (q, f1) := rnd (let (e, b, _) := divExact (v num) (ofInt d); (e, b))
    let (a, f2) := add32 .rne (v q) (v eps)
    let (r, f3) := special32 4 a
    (r, f1 ||| f2 ||| f3)
  let out := fun (t : Nat) (i : Nat) =>
    let (y, f1) := fma32 t (gammas.getD i 0) (betas.getD i 0)
    let (z, f2) := cvt ((tyOf (m.tn 2).ty).getD .fp32) .fp32 (rmOf (BitVec.ofNat 2 (m.p0 / 2 ^ 33))) (m.p0 / 2 ^ 35 % 2 == 1) y
    (z, f1 ||| f2)
  if m.p0 / 2 ^ 32 % 2 = 0 then
    let ((cnt, mean, m2), f0) := xs.foldl (fun (a : (Nat × Nat × Nat) × Flags) x =>
      let (w, fl) := welford a.1.1 a.1.2.1 a.1.2.2 x
      (w, a.2 ||| fl)) ((0, 0, 0), 0)
    let (r, f1) := root m2 cnt
    let ys := xs.zipIdx.map fun e =>
      let (d, g1) := rnd (subExact .rne (v e.1) (v mean))
      let (t, g2) := rnd (mulExact (v d) (v r))
      let (z, g3) := out t e.2
      (z, g1 ||| g2 ||| g3)
    (ys.map (·.1), ys.foldl (fun a y => a ||| y.2) (f0 ||| f1))
  else
    let (acc, f0) := xs.foldl (fun (a : Nat × Flags) x =>
      let (w, fl) := fma32 x x a.1
      (w, a.2 ||| fl)) (0, 0)
    let (r, f1) := root acc n
    let ys := xs.zipIdx.map fun e =>
      let (t, g2) := rnd (mulExact (v e.1) (v r))
      let (z, g3) := out t e.2
      (z, g2 ||| g3)
    (ys.map (·.1), ys.foldl (fun a y => a ||| y.2) (f0 ||| f1))

/-- The body of a step of `m.norm`: the output rows stand in the buffer. -/
def normBody (c : Core) (m : Macro) (step parity : Nat) : Core × Flags :=
  let t := m.tn 0
  let n := t.size 0
  let e := t.unit
  let rows := (m.span step 1).2 - (m.span step 1).1
  let src := (tyOf t.ty).getD .fp32
  let data := c.seq.buf.readN (bufAt parity 0 false) (rows * n * e)
  let t3 := c.seq.buf.readN (bufAt parity 3 false) (8 * n)
  let gammas := (List.range n).map fun i => if m.has 3 then numAt t3 (4 * i) 4 else 0x3F800000
  let betas := (List.range n).map fun i => if m.has 3 then numAt t3 (4 * (n + i)) 4 else 0
  let done : List (List Nat × Flags) := (List.range rows).map fun r =>
    let xs : List (Nat × Flags) := (List.range n).map fun i => convert .fp32 src .rne false (numAt data ((r * n + i) * e) e)
    let (ys, fl) := normRow m (xs.map (·.1)) gammas betas
    (ys, xs.foldl (fun (a : Flags) x => a ||| x.2) fl)
  let bytes := packElems (m.tn 2).width (done.flatMap (·.1))
  ({ c with seq := { c.seq with buf := c.seq.buf.store (bufAt parity 2 false) bytes } },
    done.foldl (fun (a : Flags) x => a ||| x.2) 0)

/-! ## Scattering and sorting (R255, R257) -/

/-- The element of a table row with a source element added. -/
def scatAdd (m : Macro) (old x : Nat) : Nat × Flags :=
  if (m.tn 2).ty = 0 then add32 .rne (decodeFloat fmt32 old) (decodeFloat fmt32 x)
  else intToInt .int32 (m.p0 / 2 % 2 == 1) (signedOf 32 old + signedOf 32 x)

/-- The body of a step of `m.scat`: the rows whose index falls in its block are added in ascending q. -/
def scatBody (s : State) (k : Nat) (m : Macro) (step parity : Nat) : Core × Flags :=
  let c := coreOf s k
  let len := (m.tn 2).size 0
  let lo := (m.span step 1).1
  let rows := (scatRows s k m step parity).zipIdx
  let (buf, fl) := rows.foldl (fun (a : Mem × Flags) e =>
    let row := (indexAt s k m parity e.1).toNat - lo
    (List.range len).foldl (fun (a : Mem × Flags) l =>
      let o := bufAt parity 2 false + (row * len + l) * 4
      let (r, f) := scatAdd m (leNat (a.1.readN o 4)) (leNat (a.1.readN (bufAt parity 0 false + (e.2 * len + l) * 4) 4))
      (a.1.store o (leBytes 4 r), a.2 ||| f)) a) (c.seq.buf, 0)
  ({ c with seq := { c.seq with buf := buf } }, fl)

/-- The body of a counting step of `m.sort`: the chunk's digit counts. -/
def sortBody (s : State) (k : Nat) (m : Macro) (step parity : Nat) : Core :=
  let c := coreOf s k
  let (p, phase, chunk) := sortStep m step
  if phase = 1 then c
  else
    let digits := (chunkKeys s k m step parity).map (sortDigit m p)
    let hist := (List.range 256).map fun d => (digits.filter (· == d)).length
    { c with seq := { c.seq with counts := c.seq.counts.insert chunk hist } }

/-- The body of a step of a built-in macro-instruction on core k, with the flags it raises. -/
def builtinBody (s : State) (k : Nat) (d : Dispatch) (step parity : Nat) : State × Flags :=
  let m := macroOf d.desc d.t3
  let c := coreOf s k
  let (c, fl) := match m.op with
    | 1 | 2 => productBody c m step parity
    | 4 => (sortBody s k m step parity, 0)
    | 6 => scatBody s k m step parity
    | 7 => normBody c m step parity
    | _ => (c, 0)
  (setCore s k c, fl)

end Sys2Proof.Machine
end

