-- ==== Sys2Proof/Machine/Freeze.lean ====
section
/-! DEFINITION. How the agents of a context come to rest: a freeze, a STEP, and the end that `m.kill`, KILL and
the fatal end of a launch make of a core's work (R267, R330, R331, R374, R408). -/

namespace Sys2Proof.Machine

open Sys2Proof

/-- The cores of a virtual function in a Vale, in logical order. -/
def contextCores (s : State) (vf vale : Nat) : List Nat := (List.range 192).filterMap (physCore s vale vf)

/-- The control cores of a virtual function in a Vale, in logical order. -/
def contextCtls (s : State) (vf vale : Nat) : List Nat :=
  (List.range 8).filterMap fun i => (placeEntry (placeMap s vale vf).active (192 + i)).map (fun p => 8 * vale + p)

/-- A core with every result of an issued operation landed and every direct store performed (R166, R330). -/
def landAll (c : Core) : Core :=
  advance c (c.recent.foldl (fun m r => Nat.max m (r.2.2 + 4)) (c.pending.foldl (fun m p => Nat.max m p.bound) c.clk))

/-- A core frozen: results land, its armed monitors fire with cause 2, and nothing that it waits for reaches
it (R172, R330). -/
def frozen (c : Core) : Core :=
  if c.status = .frozen then c
  else
    let c := landAll c
    { c with was := c.status, status := .frozen, monitors := c.monitors.map fun m => (m.1, fireAll 2 m.2) }

/-- Core k frozen. -/
def freezeCore (s : State) (k : Nat) : State := modCore s k frozen

/-- A control core frozen at an instruction boundary (R289, R330). -/
def frozenCtl (c : Ctl) : Ctl :=
  if c.status = .frozen then c
  else { c with
    was := c.status, status := .frozen, reservation := none
    monitors := c.monitors.map fun m => (m.1, fireAll 2 m.2) }

/-- A pass as it stands aside: the engine holds no page of it. -/
def Pass.putAside (p : Pass) : Pass := { p with keyPage := none, keyRows := [] }

/-- The Col engine's pass of a virtual function put aside, and its passes that wait (R317). -/
def freezePass (s : State) (vf vale : Nat) : State :=
  modVale s vale fun v => match v.pass with
    | some p => if p.vf = vf then { v with pass := none, aside := v.aside ++ [p.putAside] } else v
    | none => v

/-- Every agent of a context frozen (R330). -/
def freezeContext (s : State) (vf vale : Nat) : State :=
  let s := (contextCores s vf vale).foldl freezeCore s
  let s := (contextCtls s vf vale).foldl (fun st k => modCtl st k frozenCtl) s
  freezePass s vf vale

/-- Is the context of core k stepping (R331)? -/
def stepping (s : State) (k : Nat) : Bool := (ctxOf s (vfOfCore s k) (k / 192)).status == .stepping

end Sys2Proof.Machine
end

