-- ==== Sys2Proof/Machine/Sequencer.lean ====
section
/-! DEFINITION. The sequencers (R76 to R81, R110, R252, R259, R260, R262, R395, R419): dispatches passed by the
gang barrier unit, and the prefetch, ready, body and boundary stages of tile steps. -/

namespace Sys2Proof.Machine

open Sys2Proof

/-! ## A dispatch reaches a sequencer (R76 to R80, R110) -/

/-- The cores of a dispatch's members, in rank order. -/
def dispCores (s : State) (d : Dispatch) : List Nat := memberCores s (d.ctl / 8) (vfOfCtl s d.ctl) d.members

/-- Do two dispatches carry the same macro-instruction? -/
def sameDispatch (d : Dispatch) (ctl entry : Nat) : Bool := d.ctl == ctl && d.entry == entry

/-- Does core k execute the macro-instruction of an entry? -/
def executes (s : State) (k ctl entry : Nat) : Bool :=
  match (coreOf s k).seq.exec with
  | some d => sameDispatch d ctl entry
  | none => false

/-- The region of a dispatch in a scratchpad: offset and bytes. -/
def regionOf (d : Dispatch) : Nat × Nat := (numAt d.desc 8 4, numAt d.desc 6 2 * 65536)

/-- Offset of the spilled accumulator's 64 KiB. Where in the region they lie the manual does not say: DESIGN CHOICE, at its top
(R242, R252; log entry 165). -/
def spillOffset (d : Dispatch) : Nat := (regionOf d).1 + (regionOf d).2 - 65536

/-- The input and output rings that an `m.kern` uses: ring, slot bytes, offset (R259). -/
def kernRings (m : Macro) : List (Nat × Nat × Nat) :=
  m.kernTensors.map fun j => (if m.roleOf j = 1 then 8 + j else 12 + j, m.kernSlot j, kernOffset m j)

/-- The level indices shown by the progress registers. -/
def setIndices (c : Core) (l : List Nat) : Core :=
  { c with prgI := l.zipIdx.foldl (fun m e => m.put 0 e.2 e.1) [] }

/-- The start of a macro-instruction or collective on core k (R77, R80, R110). When a dispatch that was pending counts as
having reached the sequencer the manual does not say: DESIGN CHOICE, when it starts to execute, so that the position of
the next copy entry and the progress registers are reset then (log entry 146). -/
def startDispatch (s : State) (k : Nat) (d : Dispatch) : State :=
  let m := macroOf d.desc d.t3
  let r := (indexIn (logicalCore s k) 0 d.members).getD 0
  let s := modCore s k fun c =>
    let c := stashDiscard c
    let c := setIndices c (if d.coll || m.op == 3 then [] else m.progress r d.members.length 0)
    { c with
      copyPos := 0, prgStep := 0, prgAcc := 0, prgCmask := 0
      seq := { exec := some d, pend := c.seq.pend, rank := r } }
  if d.coll then s
  else
    let s := spmForget s k (regionOf d).1 (regionOf d).2
    if m.op ≠ 8 then s
    else modCore s k fun c =>
      (kernRings m).foldl (fun c e => setRing c e.1 { cfg := true, sz := e.2.1 / 64, ns := 1, base := e.2.2, free := 2 })
        { c with pc := BitVec.ofNat 64 m.p0 }

/-- An accumulator bank whose contents are undefined (R6, R248). -/
def undefinedBank (s : State) (what : Nat) : Bank :=
  let w := fun (n : Nat) => freeWord s (what + n)
  { kind := match (w 0).toNat % 4 with
      | 0 => .none
      | 1 => .fp32
      | 2 => .int32
      | _ => .idx
    count := (w 1).toNat
    cells := (List.range 16384).map fun i => (i, (w (2 + i)).setWidth 32) }

/-- A core without the streams and rings of a sequencer (R78). -/
def releaseRings (c : Core) : Core :=
  { c with
    stream := c.stream.filter fun e => decide (e.2.ring < 8)
    ring := c.ring.filter fun e => decide (e.1 < 8) }

/-- The sequencer of core k is done with what it executes, and its pending dispatch starts (R78, R248). -/
def releaseSequencer (s : State) (k : Nat) : State :=
  match (coreOf s k).seq.exec with
  | none => s
  | some d =>
    let builtin := !d.coll && numAt d.desc 0 1 != 8
    let s := if builtin then spmForget s k (regionOf d).1 (regionOf d).2 else s
    let a0 := undefinedBank s (1000000 + 100000 * k)
    let a1 := undefinedBank s (1050000 + 100000 * k)
    let s := modCore s k fun c =>
      let c := releaseRings c
      let c := if builtin then { c with acc0 := a0, acc1 := a1 } else c
      { c with seq := { pend := c.seq.pend }, prgCmask := 0 }
    match (coreOf s k).seq.pend with
    | none => s
    | some p => startDispatch (modCore s k fun c => { c with seq := {} }) k p

/-! ## GANG_DISPATCH (R76, R247, R395, R426) -/

/-- A fault of a macro-instruction after its issue: its control core stops, fatal to the launch (R395). -/
def dispatchStop (s : State) (d : Dispatch) (cause addr info : Nat) : State :=
  let k := d.ctl
  let vf := vfOfCtl s k
  let r := mkRecord s vf (k / 8) 1 (logicalSlice s k) cause 1 d.pc.toNat addr d.tag.toNat info
  postFatal (modCtl s k fun c => { c with status := .stopped }) vf r

/-- The check of a member's region: its bank, its stash and its configured rings (R395, R426). The number is a
cause with the reason or kind of the record. -/
def regionFault (s : State) (d : Dispatch) (k : Nat) : Option (Nat × Nat) :=
  let c := coreOf s k
  let (o, n) := regionOf d
  if !bankAllowed s k o then some (0x10, 9)
  else if (stashRanges (stashUnits c).1 (stashUnits c).2).any (fun r => rangesMeet r.1 r.2 o n)
      || c.ring.any (fun e => decide (e.1 < 8) && e.2.cfg && rangesMeet e.2.base (ringBytes e.2) o n) then some (0x15, 0)
  else none

/-- A fault-stopped member as it goes on: the results issued before its stop have landed, it replays its in-flight record, and
goes on in the stage that it stopped in; a member whose next body had not begun enters it at the first bundle (R259, R401,
R406, R410). -/
def wakeMember (c : Core) (d : Dispatch) : Core :=
  let kern := !d.coll && numAt d.desc 0 1 == 8
  let inBody := kern && c.seq.ready && !c.seq.bodyDone
  let pc := if kern && !c.seq.ready then BitVec.ofNat 64 (macroOf d.desc d.t3).p0 else c.pc
  { beginReplay c with
    status := if inBody then .running else .idle
    pc := pc
    seq := { c.seq with fromStart := kern && !inBody }
    matrixFault := false
    monitors := c.monitors.map fun m => (m.1, fireAll 2 m.2) }

/-- A resume reaches a member that executes the macro-instruction; one that has it pending behind another carries on with
that (R76, R419). -/
def resumeMember (s : State) (k : Nat) (d : Dispatch) : State :=
  if !executes s k d.ctl d.entry then s
  else
    let s := modCore s k fun c => { c with seq := { c.seq with exec := some d } }
    if (coreOf s k).status ≠ .stopped then s
    else modCore (landOn s k (landAll (coreOf s k))) k fun c => wakeMember c d

/-- Is a member's sequencer able to take a dispatch? -/
def canTake (s : State) (k : Nat) : Bool :=
  let c := coreOf s k
  !isFrozen s k && (c.seq.exec.isNone || c.seq.pend.isNone)

/-- A dispatch passed to a member: executing at once, or pending (R76). -/
def takeDispatch (d : Dispatch) (s : State) (k : Nat) : State :=
  if (coreOf s k).seq.exec.isNone then startDispatch s k d
  else modCore s k fun c => { c with seq := { c.seq with pend := some d } }

/-- The macro-table entry of a dispatch with its members fixed (R247). -/
def fixMembers (s : State) (d : Dispatch) : State :=
  modEntry s d.ctl d.entry fun e => { e with
    members := d.members, dispatched := true
    totalSteps := if d.coll then 0 else (macroOf d.desc d.t3).total }

/-- An `m.attn` reaches the Col engine of its Vale (R301). -/
def toEngine (s : State) (d : Dispatch) : State :=
  if !d.coll && numAt d.desc 0 1 == 3 then
    modVale s (d.ctl / 8) fun v => { v with passQueue := queueDispatch { d with reached := s.io.realNs } v.passQueue }
  else s

/-- GANG_DISPATCH: the gang barrier unit passes the dispatch at the head of a gang's queue to every member, once
each sequencer has room for it. -/
def execGangDispatch (vale g : Nat) (s : State) : Host.Outcome State Fault Refusal :=
  let s := bump s
  let x := gangOf s vale g
  match x.queue with
  | [] => .next s
  | d0 :: rest =>
    if (ctlOf s d0.ctl).status = .frozen ∨ parkedWrites s (vfOfCtl s d0.ctl) then .next s
    else if d0.resume then
      let d := { d0 with members := (entryOf s d0.ctl d0.entry).members }
      if (dispCores s d).any (isFrozen s) then .next s
      else
        let s := setGang s vale g { x with queue := rest }
        .next (toEngine ((dispCores s d).foldl (fun st k => resumeMember st k d) s) d)
    else
      let d := { d0 with members := stayers x }
      let cores := dispCores s d
      if cores.any fun k => !canTake s k then .next s
      else
        let s := setGang s vale g { x with queue := rest }
        match (if d.coll then none else cores.findSome? fun k => (regionFault s d k).map fun f => (k, f)) with
        | some (k, cause, kind) =>
          .next (dispatchStop s d cause d.descAddr.toNat (logicalCore s k * 2 ^ 32 + kind * 2 ^ 16 + 8))
        | none => .next (toEngine (cores.foldl (takeDispatch d) (fixMembers s d)) d)

/-! ## Stages (R77) -/

/-- The dispatch that the sequencer of core k may carry on: its core is neither stopped nor frozen nor in a
replay, and the entry is not being killed (R267, R330, R411). -/
def seqActive (s : State) (k : Nat) : Option Dispatch :=
  let c := coreOf s k
  match c.seq.exec with
  | none => none
  | some d =>
    let e := entryOf s d.ctl d.entry
    if c.status = .stopped ∨ c.status = .frozen ∨ ¬ c.replay.isEmpty ∨ (ctxOf s (vfOfCore s k) (k / 192)).status = .binding ∨ d.coll ∨ numAt d.desc 0 1 = 3
      ∨ ¬ (e.state = .running ∨ e.state = .stopping) then none
    else some d

/-- Tile copies put in flight with their bits of `prg.cmask` (R77, R80). Which of the two channels a copy takes the manual
does not say: DESIGN CHOICE, they take channels 0 and 1 in turn within a stage, from 0 (log entry 147). -/
def enterTiles (c : Core) (step : Nat) (l : List TileCopy) : Core × List (Nat × Nat) :=
  l.zipIdx.foldl (fun a t =>
    match enterCopy a.1 { op := 1, bySeq := true, channel := t.2 % 2, tile := some t.1, tag0 := a.1.tagSeq,
                          issued := a.1.clk, hazard := hazards a.1 } with
    | none => a
    | some (e, c) => ({ c with prgCmask := c.prgCmask ||| (1#32 <<< e) }, a.2 ++ [(e, step)])) (c, [])

/-- Has a core free copy entries for n more copies (R77)? -/
def roomFor (c : Core) (n : Nat) : Bool := decide (c.copies.length + n ≤ 32)

/-- The input copies of a member's step i issued. -/
def issueInputs (c : Core) (m : Macro) (d : Dispatch) (i : Nat) : Core :=
  let l := inputCopies m (m.stepOf c.seq.rank d.members.length i) (i % 2)
  let c := if m.op = 8 then c else { c with seq := { c.seq with buf := clearParity c.seq.buf (i % 2) } }
  let (c, es) := enterTiles c i l
  { c with seq := { c.seq with inputs := c.seq.inputs ++ es } }

/-- The free half of each input ring of an `m.kern` is taken, filled or released by f. -/
def inputRings (c : Core) (m : Macro) (f : Ring → Ring) : Core :=
  if m.op ≠ 8 then c
  else (m.kernTensors.filter fun j => m.roleOf j == 1).foldl (fun c j => setRing c (8 + j) (f (ringOf c (8 + j)))) c

/-- A ring with its next free slot taken. -/
def takeFree (r : Ring) : Ring := ((ringTakeFree r).map (·.2)).getD r
/-- A ring with its oldest taken slot posted. -/
def postOldest (r : Ring) : Ring :=
  match r.prod with
  | (i, _) :: _ => ringProduced r i
  | [] => r
/-- A ring with its oldest filled slot freed. -/
def freeOldest (r : Ring) : Ring :=
  match ringTakeFilled r with
  | some (i, r) => ringConsumed r i
  | none => r

/-- Chunks of each phase of an `m.sort` that fall to a member. -/
def sortChunks (m : Macro) (rank g : Nat) : Nat := shareCount m.pm (m.counts.getD 0 0) rank g

/-- What an `m.sort` does at the end of a phase: `none` where the member may prefetch (R255). -/
def sortPhase (s : State) (k : Nat) (m : Macro) (d : Dispatch) : Option State :=
  let c := coreOf s k
  let q := c.seq
  let n := sortChunks m q.rank d.members.length
  match q.arrival with
  | some e =>
    if (c.barriers.find? e).isSome || arrivalPending s k d.gang then some s
    else some (setCore s k { c with seq := { q with arrival := none, phases := q.phases + 1 } })
  | none =>
    if (q.phases + 1) * n ≤ c.prgStep ∧ q.phases + 1 < 2 * m.keyBytes ∧ q.outputs.isEmpty then
      match takeBarrier s k d.gang 0 with
      | none => some s
      | some (e, s) => some (modCore s k fun c => { c with seq := { c.seq with arrival := some e } })
    else if n ≠ 0 ∧ q.phases < q.prefetched / n then some s
    else none

/-- SEQUENCER_PREFETCH: the input copies of the next step go out, once the ready stage of the step before it has
passed and the output slots it takes are free (R77). -/
def execSequencerPrefetch (k : Nat) (s : State) : Host.Outcome State Fault Refusal :=
  let s := bump s
  match seqActive s k with
  | none => .next s
  | some d =>
    let m := macroOf d.desc d.t3
    let c := coreOf s k
    let q := c.seq
    let n := m.assigned q.rank d.members.length
    if q.refetch then
      if q.inputs.isEmpty && roomFor c (inputCopies m (m.stepOf q.rank d.members.length c.prgStep) (c.prgStep % 2)).length then
        .next (setCore s k (issueInputs { c with seq := { q with refetch := false } } m d c.prgStep))
      else .next s
    else match (if m.op = 4 then sortPhase s k m d else none) with
      | some s => .next s
      | none =>
        let i := q.prefetched
        if i < n ∧ (i = c.prgStep ∨ (i = c.prgStep + 1 ∧ q.ready)) ∧ q.inputs.isEmpty
          ∧ q.outputs.all (fun o => decide (i < o.2 + 2))
          ∧ roomFor c (inputCopies m (m.stepOf q.rank d.members.length i) (i % 2)).length then
          let c := inputRings (issueInputs c m d i) m takeFree
          .next (setCore s k { c with seq := { c.seq with prefetched := i + 1 } })
        else .next s

/-- The `prg.acc` word of an accumulator in `acc0`. -/
def accInBank : Word := 1#64 <<< 62
/-- The `prg.acc` word of a spilled accumulator. -/
def accSpilled (offs : Nat) : Word := BitVec.ofNat 64 (3 * 2 ^ 62 + offs)

/-- Is the accumulator of the open chain spilled? -/
def accIsSpilled (c : Core) : Bool := c.prgAcc.toNat / 2 ^ 62 == 3

/-- A spilled accumulator back in `acc0` (R81, R252); poison in it loses the context (R414). -/
def reloadAccumulator (s : State) (k : Nat) (d : Dispatch) : State :=
  let c := coreOf s k
  let o := spillOffset d
  if c.spm.poisoned o 65536 then stopFatal s k 0x20 0 0 0 8
  else
    let cells := (c.spm.readN o 65536)
    let bank := { c.acc0 with cells := (List.range 16384).foldl (fun m i =>
      FMap.put 0 m i (BitVec.ofNat 32 (numAt cells (4 * i) 4))) [] }
    setCore s k { c with acc0 := bank, prgAcc := accInBank }

/-- The accumulator of an open chain written to the region (R252). -/
def spillAccumulator (s : State) (k : Nat) (d : Dispatch) : State :=
  let c := coreOf s k
  if c.prgAcc ≠ accInBank ∨ ¬ (numAt d.desc 0 1 = 1 ∨ numAt d.desc 0 1 = 2) then s
  else
    let bytes := (List.range 16384).flatMap fun i => leBytes 4 (c.acc0.cells.get 0 i).toNat
    modCore (spmWrite s k (spillOffset d) bytes) k fun c => { c with prgAcc := accSpilled (spillOffset d) }

/-- The start of a step body of an `m.kern` (R78, R259, R260). -/
def startBody (c : Core) (m : Macro) : Core :=
  let slot := fun j => if m.roleOf j = 0 ∨ ¬ m.has j then 0 else 0x3FC00000 + kernOffset m j + c.prgStep % 2 * m.kernSlot j
  let c := inputRings c m postOldest
  { c with
    ktile := (List.range 4).foldl (fun t j => t.put 0 j (BitVec.ofNat 64 (slot j))) []
    karg := BitVec.ofNat 64 m.p1
    stream := c.stream.map fun e => (e.1, if 8 ≤ e.2.ring then { e.2 with pos := 0 } else e.2)
    seq := { c.seq with fromStart := false }
    status := .running, held := {}, fetched := none, branch := none, trap := none }

/-- SEQUENCER_READY: every input copy of the step has completed, and the step body starts (R77). -/
def execSequencerReady (k : Nat) (s : State) : Host.Outcome State Fault Refusal :=
  let s := bump s
  match seqActive s k with
  | none => .next s
  | some d =>
    let m := macroOf d.desc d.t3
    let c := coreOf s k
    let q := c.seq
    let i := c.prgStep
    if q.ready ∨ q.refetch ∨ q.prefetched ≤ i ∨ m.assigned q.rank d.members.length ≤ i
      ∨ q.inputs.any (fun e => e.2 == i) then .next s
    else
      let s := setCore s k { c with seq := { q with ready := true, bodyDone := false } }
      if m.op = 8 then .next (modCore s k fun c => startBody c m)
      else if accIsSpilled c then .next (reloadAccumulator s k d)
      else .next s

/-- The boundary stage: output copies out, input halves released, progress registers advanced, in one clk (R77,
R80). -/
def passBoundary (s : State) (k : Nat) (m : Macro) (d : Dispatch) (fl : Flags) : State :=
  let s := modCore s k fun c =>
    let i := c.prgStep
    let q := c.seq
    let step := m.stepOf q.rank d.members.length i
    let (c, es) := enterTiles c i (outputCopies m step (i % 2))
    let c := inputRings c m freeOldest
    let c := setIndices c (m.progress q.rank d.members.length (i + 1))
    { c with
      astat := astatMerge c.astat fl
      prgStep := i + 1
      prgAcc := if (m.op = 1 ∨ m.op = 2) ∧ ¬ lastOfChain m step then accInBank else 0
      pc := if m.op = 8 then BitVec.ofNat 64 (if q.fromStart then m.p0 else m.p0 + 32 * m.kre) else c.pc
      seq := { c.seq with ready := false, bodyDone := false, outputs := c.seq.outputs ++ es } }
  if stepping s k then freezeCore s k else s

/-- Have elements of core k's `vamo` operations on its own scratchpad still to perform (R166, R201)? -/
def ownElems (s : State) (k : Nat) : Bool :=
  (coreOf s k).atomics.any fun e => (pendingElems e.2).any fun j => ownElem s k e.2 j

/-- The boundary of a tile step of a macro-instruction other than `m.attn`: the step body has ended and its results land; a
built-in body takes effect here. Poison that it consumes stops the core, and the step's tiles are fetched again at the
resume. A member that was stopped with its step ready reloads its accumulator first (R77, R81, R382, R414). -/
def tileBoundary (s : State) (k : Nat) : State :=
  match seqActive s k with
  | none => s
  | some d =>
    let m := macroOf d.desc d.t3
    let c := coreOf s k
    let q := c.seq
    let i := c.prgStep
    let step := m.stepOf q.rank d.members.length i
    if ¬ q.ready ∨ (m.op = 8 ∧ (¬ q.bodyDone ∨ ownElems s k = true)) ∨ ¬ roomFor c (outputCopies m step (i % 2)).length then s
    else if m.op = 8 then passBoundary (landOn s k (releaseStreams (landAll c))) k m d 0
    else if accIsSpilled c then reloadAccumulator s k d
    else match poisonedInput s k d step (i % 2) with
      | some va =>
        let s := setCore s k { c with seq := { q with ready := false, refetch := true } }
        stopReplayable s k 3 0 va (info399 { cause := 3 } 0 (if m.op ≤ 2 then 5 else 1) 0xFF 0) 0
      | none =>
        let (s, fl) := builtinBody s k d step (i % 2)
        passBoundary (chargeCore s k) k m d fl

end Sys2Proof.Machine
end

