-- ==== Sys2Proof/Machine/Col.lean ====
section
/-! DEFINITION. The Col engine and the Basin: admission, walks, deliveries, merges, outputs, the catch-up sweep and
the stops of an attention pass (R254, R301 to R319, R415, R441 to R444). -/

namespace Sys2Proof.Machine

open Sys2Proof

/-! ## The descriptor (R254, R302) -/

/-- Query heads per key-value head. -/
def Macro.qpk (m : Macro) : Nat := m.p0 / 2 ^ 32 % 256
/-- Key-value heads. -/
def Macro.kvHeads (m : Macro) : Nat := m.p0 / 2 ^ 40 % 256
/-- Type code of keys and values. -/
def Macro.kvTy (m : Macro) : Nat := m.p0 / 2 ^ 48 % 16
/-- Bytes of a key or value element. -/
def Macro.kvBytes (m : Macro) : Nat := ((tyOf m.kvTy).map tyWidth).getD 8 / 8
/-- D: elements of a head. -/
def Macro.headDim (m : Macro) : Nat := (m.tn 0).size 0
/-- Hq: query heads. -/
def Macro.queryHeads (m : Macro) : Nat := (m.tn 0).size 1
/-- Tokens of a page. -/
def Macro.pageTokens (m : Macro) : Nat := 65536 / Nat.max 1 (m.kvHeads * m.headDim * m.kvBytes)
/-- Ordinals of a sequence of len tokens. -/
def Macro.ordinals (m : Macro) (len : Nat) : Nat := (len + m.pageTokens - 1) / Nat.max 1 m.pageTokens
/-- Type codes FP32, BF16, FP16, E4M3 and E5M2. -/
def outputTy (t : Nat) : Bool := match tyOf t with
  | some .fp32 | some .bf16 | some .fp16 | some .e4m3 | some .e5m2 => true
  | _ => false
/-- Type codes FP32, BF16 and FP16. -/
def queryTy (t : Nat) : Bool := match tyOf t with
  | some .fp32 | some .bf16 | some .fp16 => true
  | _ => false

/-- The checks of R302 that need no row of the table. -/
def attnFails (m : Macro) : List Fail :=
  let d := m.headDim
  let page := m.kvHeads * d * m.kvBytes
  failing 0
    [((List.range 4).any fun j => !m.has j, 3), (m.qpk == 0, 0x34), (m.kvHeads == 0, 0x35),
     (!outputTy m.kvTy, 0x36), (page == 0 || 65536 % Nat.max 1 page != 0, 0x35), (m.p0 / 2 ^ 54 != 0, 0x36), zeroBits 0x38 m.p1]
  ++ failing 1
    ([(d == 0 || decide (128 < d) || d % (64 / Nat.max 1 m.kvBytes) != 0, tensorOffset 0 + 0x14),
      (m.queryHeads != m.qpk * m.kvHeads || decide (16384 < m.queryHeads), tensorOffset 0 + 0x16),
      ((m.tn 0).nd != 2, tensorOffset 0 + 0x10), ((m.tn 1).nd != 1, tensorOffset 1 + 0x10), ((m.tn 2).nd != 2, tensorOffset 2 + 0x10),
      ((m.tn 3).nd != 0, 0x100 + 0x10),
      ((m.tn 1).base % 32 != 0, tensorOffset 1), ((m.tn 1).stride 0 != 1, tensorOffset 1 + 0x24)]
    ++ typeFails m 0 queryTy ++ typeFails m 1 (· == 9) ++ typeFails m 2 outputTy ++ [((m.tn 3).ty != 9, 0x100 + 0x10)]
    ++ sizeFails m 1 [(0, 32), (1, (m.tn 0).size 2)]
    ++ sizeFails m 2 [(0, d), (1, m.queryHeads), (2, (m.tn 0).size 2)])

/-- The rank to which R247 gives item c of n among g members. -/
def rankOf (pm c n g : Nat) : Nat := if pm = 0 then c % Nat.max 1 g else c / Nat.max 1 ((n + g - 1) / Nat.max 1 g)

/-- Bytes of a member's region for a pass of n pairs (R302). -/
def attnNeed (m : Macro) (n g : Nat) : Nat :=
  let p := ((List.range g).map fun r => shareCount m.pm n r g).foldl Nat.max 0
  5 * 65536 + (p * m.qpk * 512 + 65535) / 65536 * 65536

/-! ## The engine's accesses (R305, R398, R415) -/

/-- Is the engine's next read of data lost (R377, R415)? -/
def lostData (s : State) (vale : Nat) : Bool := (valeOf s vale).lostRead.any fun n => decide (4 < n)

/-- The engine has met its lost read. -/
def lostMet (s : State) (vale : Nat) : State := modVale s vale fun v => { v with lostRead := none }

/-- A translation by the Col engine of a Vale: Vale TLB, else a walk that fills it. -/
def colTranslate (s : State) (vale vf va access : Nat) : Except Finding Nat × State :=
  if 2 ^ 56 ≤ va then (.error { cause := 0x10, reason := 1 }, s)
  else match (valeOf s vale).tlb.find? (·.covers vf va) with
    | some t =>
      match leafCheck access t with
      | some f => (.error f, s)
      | none => (.ok (t.phys va), s)
    | none =>
      match walkVale s vale vf va [access] false with
      | (.bad f, s) => (.error f, s)
      | (.ok t, s) =>
        match leafCheck access t with
        | some f => (.error { f with level := if t.bits = 16 then 0 else if t.bits = 21 then 1 else 2 }, s)
        | none => (.ok (t.phys va), s)

/-- Where an engine's access failed, and why: sequence slot, virtual address, finding. -/
structure ColFault where
  slot : Nat
  va : Nat
  access : Nat
  f : Finding

/-- Bytes of at most one page at a virtual address, checked for poison; a read may be lost (R377, R415). -/
def colRead (s : State) (vale vf slot va n : Nat) : Except ColFault (List Byte) × State :=
  let part := fun (s : State) (va n : Nat) =>
    if n = 0 then (Except.ok [], s)
    else match colTranslate s vale vf va 0 with
      | (.error f, s) => (.error ⟨slot, va, 0, f⟩, s)
      | (.ok pa, s) =>
        let s := touch s pa n
        if lostData s vale then (.error ⟨slot, va, 0, { cause := 2 }⟩, lostMet s vale)
        else if physPoisoned s pa n then (.error ⟨slot, va, 0, { cause := 3 }⟩, s) else (.ok (physRead s pa n), s)
  let k := Nat.min n (65536 - va % 65536)
  match part s va k with
  | (.error e, s) => (.error e, s)
  | (.ok a, s) => match part s (va + k) (n - k) with
    | (.error e, s) => (.error e, s)
    | (.ok b, s) => (.ok (a ++ b), s)

/-- A fold that stops at the engine's first fault. -/
def colFold {α β : Type} (f : State → β → α → Except ColFault β × State) (s : State) (b : β) : List α → Except ColFault β × State
  | [] => (.ok b, s)
  | x :: rest => match f s b x with
    | (.error e, s) => (.error e, s)
    | (.ok b, s) => colFold f s b rest

/-- A fold that stops at the engine's first fault and keeps what it has gathered. -/
def colGather {α β : Type} (f : State → β → α → (Option ColFault × β) × State) (s : State) (b : β) : List α → (Option ColFault × β) × State
  | [] => ((none, b), s)
  | x :: rest => match f s b x with
    | ((some e, b), s) => ((some e, b), s)
    | ((none, b), s) => colGather f s b rest

/-- The address of a row of the sequence table. -/
def rowVa (m : Macro) (slot : Nat) : Nat := (elemVa (m.tn 1) [0, slot]).1

/-- The rows of the sequence table in the slots given, with their ready bits (R254, R303). -/
def readRows (s : State) (vale vf : Nat) (m : Macro) (slots : List Nat) : Except ColFault (List (ColSeq × Bool)) × State :=
  colFold (fun s acc slot => match colRead s vale vf slot (rowVa m slot) 32 with
    | (.error e, s) => (.error e, s)
    | (.ok b, s) =>
      let row : ColSeq := { slot := slot, kva := word64At b 0, vva := word64At b 8, len := numAt b 0x10 4 }
      (.ok (acc ++ [(row, numAt b 0x14 4 % 2 == 1)]), s)) s [] slots

/-- The queries of a sequence, converted exactly to FP32 (R303). -/
def readQueries (s : State) (vale vf : Nat) (m : Macro) (q : ColSeq) : Except ColFault ColSeq × State :=
  let t := m.tn 0
  let src := (tyOf t.ty).getD .fp32
  let all := (List.range m.queryHeads).flatMap fun h => (List.range m.headDim).map fun d => (h, d)
  colFold (fun s q x => match colRead s vale vf q.slot (elemVa t [x.2, x.1, q.slot]).1 t.unit with
    | (.error e, s) => (.error e, s)
    | (.ok b, s) =>
      let v := BitVec.ofNat 32 (convert .fp32 src .rne false (leNat b)).1
      (.ok { q with queries := q.queries.put 0 (128 * x.1 + x.2) v }, s)) s { q with asked := true } all

/-- The page of one ordinal, key page before value page (R305, R415). -/
def walkPair (s : State) (vale vf slot kva vva : Nat) : Except ColFault (Nat × Nat) × State :=
  match colTranslate s vale vf kva 0 with
  | (.error f, s) => (.error ⟨slot, kva, 0, f⟩, s)
  | (.ok kp, s) => match colTranslate s vale vf vva 0 with
    | (.error f, s) => (.error ⟨slot, vva, 0, f⟩, s)
    | (.ok vp, s) => (.ok (kp / 65536, vp / 65536), s)

/-- The subscriber entries of sequence i of a pass, from its walks: its ordinals under every key-value head, in
ascending head (R305, R306). -/
def walkSeq (s : State) (vale vf : Nat) (m : Macro) (i : Nat) (q : ColSeq) : Except ColFault (List ColEntry) × State :=
  let pages := colFold (fun s acc n => match walkPair s vale vf q.slot (q.kva + 65536 * n) (q.vva + 65536 * n) with
    | (.error e, s) => (.error e, s)
    | (.ok p, s) => (.ok (acc ++ [(n, p)]), s)) s ([] : List (Nat × Nat × Nat)) (List.range (m.ordinals q.len))
  match pages with
  | (.error e, s) => (.error e, s)
  | (.ok l, s) =>
    (.ok ((List.range m.kvHeads).flatMap fun h =>
      l.map fun x => { seq := i, h := h, n := x.1, kpbn := x.2.1, vpbn := x.2.2 }), s)

/-! ## A pass (R304, R306, R310 to R312) -/

/-- The descriptor of a pass. -/
def Pass.m (p : Pass) : Macro := macroOf p.disp.desc p.disp.t3
/-- Sequence i of a pass. -/
def Pass.seqAt (p : Pass) (i : Nat) : ColSeq := p.seqs.getD i { slot := 0, kva := 0, vva := 0, len := 0 }
/-- Sequences of the main pass. -/
def Pass.mainCount (p : Pass) : Nat := (p.seqs.filter fun q => !q.sweep).length
/-- Are the pages of an entry taken in ascending physical page: those of the main pass, and after a resume those of every
sequence that was in the pass then (R306, R443)? -/
def Pass.byPage (p : Pass) (e : ColEntry) : Bool := decide (e.seq < Nat.max p.mainCount p.resumedTo)
/-- The rank of the member that holds the pair of an entry (R304, R315). -/
def Pass.rankOfEntry (p : Pass) (e : ColEntry) : Nat :=
  let g := p.disp.members.length
  if (p.seqAt e.seq).sweep then rankOf p.m.pm ((e.seq - p.mainCount) * p.m.kvHeads + e.h) p.sweepPairs g
  else rankOf p.m.pm (e.seq * p.m.kvHeads + e.h) (p.mainCount * p.m.kvHeads) g
/-- The core of the member that holds the pair of an entry. -/
def Pass.coreOfEntry (p : Pass) (s : State) (e : ColEntry) : Nat := (dispCores s p.disp).getD (p.rankOfEntry e) 0
/-- The Basin slots of an entry's query heads (R310). -/
def Pass.slotsOf (p : Pass) (e : ColEntry) : List Nat :=
  (List.range p.m.qpk).map fun i => e.seq * p.m.queryHeads + e.h * p.m.qpk + i
/-- Basin slot k. -/
def Pass.slotAt (p : Pass) (k : Nat) : BasinSlot := p.slots.get {} k
/-- The sequence of Basin slot k. -/
def Pass.seqOfSlot (p : Pass) (k : Nat) : Nat := k / Nat.max 1 p.m.queryHeads
/-- Is the sequence of Basin slot k affected by an uncorrectable error (R441)? -/
def Pass.slotAffected (p : Pass) (k : Nat) : Bool := (p.seqAt (p.seqOfSlot k)).affected
/-- The entries still to be served, those of affected sequences apart. -/
def Pass.open_ (p : Pass) : List ColEntry := p.entries.filter fun e => !e.served && !(p.seqAt e.seq).affected

/-- Contributions parked, on their way, or due from deliveries in flight (R312). -/
def Pass.decided (p : Pass) : List Partial := p.parked ++ p.sends ++ p.due

/-- The planned next ordinal of a slot: as it stands once everything decided has merged (R312). -/
def Pass.plannedNext (p : Pass) (k : Nat) : Nat :=
  let l := (p.decided.filter fun x => x.slot == k).map (·.n)
  l.foldl (fun n _ => if l.contains n then n + 1 else n) (p.slotAt k).next

/-- Parking entries free in the planned state. -/
def Pass.plannedFree (p : Pass) : Nat := 8192 - (p.decided.filter fun x => decide (p.plannedNext x.slot ≤ x.n)).length

/-- Parking entries physically free: neither parked in nor reserved. -/
def Pass.physFree (p : Pass) : Nat := 8192 - p.parked.length - ((p.sends ++ p.due).filter (·.reserved)).length

/-- Parking entries that a delivery to entries reserves (R312). -/
def Pass.need (p : Pass) (l : List ColEntry) : Nat :=
  (l.map fun e => ((p.slotsOf e).filter fun k => decide (p.plannedNext k < e.n)).length).foldl (· + ·) 0

/-- The place of an entry's delivery in the order of the pass: those in page order first, by key page, then value page; then
those of the sweep, by sequence, then ordinal (R306, R315, R443). -/
def Pass.turn (p : Pass) (e : ColEntry) : Nat × Nat × Nat := if p.byPage e then (0, e.kpbn, e.vpbn) else (1, e.seq, e.n)

/-- The entries of the next delivery (R306, R315, R443). -/
def Pass.nextDelivery (p : Pass) : List ColEntry :=
  let key := p.turn
  let less := fun (a b : Nat × Nat × Nat) =>
    decide (a.1 < b.1) || (a.1 == b.1 && (decide (a.2.1 < b.2.1) || (a.2.1 == b.2.1 && decide (a.2.2 < b.2.2))))
  match p.open_ with
  | [] => []
  | e :: rest =>
    let best := rest.foldl (fun a x => if less (key x) a then key x else a) (key e)
    p.open_.filter fun x => key x == best

/-- The entries of a rescue fetch (R312). -/
def Pass.rescue (p : Pass) : List ColEntry :=
  let waiting := fun (e : ColEntry) => (p.slotsOf e).all fun k => p.plannedNext k == e.n
  let first := p.slots.findSome? fun x =>
    if p.slotAffected x.1 then none
    else p.open_.find? fun e => (p.slotsOf e).contains x.1 && p.plannedNext x.1 == e.n
  match first with
  | none => []
  | some e => p.open_.filter fun x => x.kpbn == e.kpbn && x.vpbn == e.vpbn && waiting x

/-- Basin slots held by sequences that are not finished. -/
def Pass.slotsHeld (p : Pass) : Nat :=
  let busy := (List.range p.seqs.length).filter fun i =>
    p.slots.any fun x => p.seqOfSlot x.1 == i && !x.2.written
  busy.length * p.m.queryHeads

/-- The Basin slots of sequence i, empty (R310). -/
def Pass.freshSlots (p : Pass) (i : Nat) : FMap BasinSlot :=
  let q := p.seqAt i
  (List.range p.m.queryHeads).map fun h => (i * p.m.queryHeads + h,
    { n := List.replicate p.m.headDim 0, dn := 0, next := 0, count := p.m.ordinals q.len })

/-- Deliveries that a list of entries makes to members, counted by page pair or, in the sweep, by ordinal. -/
def Pass.planned (p : Pass) (l : List ColEntry) : Nat :=
  ((l.map fun e => (if (p.seqAt e.seq).sweep then (e.seq, e.n) else (e.kpbn, e.vpbn), p.rankOfEntry e)).eraseDups).length

/-! ## Partials (R308) -/

/-- The logit of a query head and token row: FMA32 in ascending d, then the scale (R254). -/
def logit (m : Macro) (queries : List Nat) (keys : List FVal) : Nat × Flags :=
  let (a, f) := (queries.zip keys).foldl (fun (a : Nat × Flags) x =>
    let (r, g) := rnd (fmaExact .rne (decode .fp32 x.1) x.2 (decode .fp32 a.1))
    (r, a.2 ||| g)) (0, 0)
  let (t, g) := rnd (mulExact (decode .fp32 a) (decode .fp32 (m.p0 % 2 ^ 32)))
  (t, f ||| g)

/-- The bytes of head h in the row of a token within a page (R254). -/
def pageRowBytes (s : State) (m : Macro) (pbn tok h : Nat) : List Byte :=
  physRead s (pbn * 65536 + (tok * m.kvHeads + h) * m.headDim * m.kvBytes) (m.headDim * m.kvBytes)

/-- The elements of such a row. -/
def rowElemsOf (m : Macro) (b : List Byte) : List FVal :=
  (List.range m.headDim).map fun d => decode ((tyOf m.kvTy).getD .fp32) (numAt b (d * m.kvBytes) m.kvBytes)

/-- The rows of a page that an entry takes: of its head, token by token. -/
def entryRows (s : State) (m : Macro) (q : ColSeq) (e : ColEntry) (pbn : Nat) : List (List Byte) :=
  let lo := e.n * m.pageTokens
  (List.range (Nat.min q.len (lo + m.pageTokens) - lo)).map fun tok => pageRowBytes s m pbn tok e.h

/-- The partial (N, Dn) of query head qh over the key and value rows of an entry, with the flags it raises (R308). -/
def partialOf (m : Macro) (q : ColSeq) (qh : Nat) (rows : List (List Byte × List Byte)) : (List Word × Word) × Flags :=
  let queries := (List.range m.headDim).map fun d => (q.queries.get 0 (128 * qh + d)).toNat
  let start : (List Word × Word) × Flags := ((List.replicate m.headDim 0, 0), 0)
  rows.foldl (fun (a : (List Word × Word) × Flags) row =>
    let (x, f1) := logit m queries (rowElemsOf m row.1)
    let (w, f2) := exp2Xf x
    let wv := decode .xf40 w
    let ns := (a.1.1.zip (rowElemsOf m row.2)).map fun y => xfOp 3 .rne false wv y.2 (decode .xf40 y.1.toNat)
    let (dn, f3) := xfOp 0 .rne false (decode .xf40 a.1.2.toNat) wv (.zero false)
    ((ns.map fun y => BitVec.ofNat 64 y.1, BitVec.ofNat 64 dn),
      ns.foldl (fun (f : Flags) y => f ||| y.2) (a.2 ||| f1 ||| f2 ||| f3))) start

/-! ## Outputs (R313) -/

/-- The output elements of Basin slot k with their virtual addresses. -/
def Pass.output (p : Pass) (k : Nat) : List (Nat × List Byte) :=
  let m := p.m
  let b := p.slotAt k
  let t := m.tn 2
  (List.range m.headDim).map fun d =>
    let (o, _) := xfOp 4 .rne false (decode .xf40 (b.n.getD d 0).toNat) (decode .xf40 b.dn.toNat) (.zero false)
    let (x, _) := convert ((tyOf t.ty).getD .fp32) .xf40 (rmOf (BitVec.ofNat 2 (m.p0 / 2 ^ 52))) false o
    ((elemVa t [d, k % Nat.max 1 m.queryHeads, (p.seqAt (p.seqOfSlot k)).slot]).1, leBytes t.unit x)

/-- Does the entry of a pass still run: no `m.kill` has reached it (R420, R421)? -/
def passRuns (s : State) (p : Pass) : Bool :=
  (entryOf s p.disp.ctl p.disp.entry).state == .running || (entryOf s p.disp.ctl p.disp.entry).state == .stopping

/-- The record of a finding of the Col engine (R415): replayable ones stop the entry, others end the launch; a pass that
`m.kill` ends makes none (R420). -/
def colRecord (s : State) (vale : Nat) (p : Pass) (x : ColFault) : State :=
  if !passRuns s p then s
  else
  let agent := (freeWord s 810).toNat % 256
  let fatal := !replayable x.f.cause
  let r := mkRecord s p.vf vale 2 vale x.f.cause (if fatal then 1 else 0) 0 x.va p.disp.tag.toNat
    (info399 x.f x.access agent 0xFF x.slot)
  if fatal then postFatal s p.vf r
  else postReplayable (modEntry s p.disp.ctl p.disp.entry fun m =>
    { m with state := .stopping, recordsHeld := m.recordsHeld + 1 }) p.vf { r with slice := some (logicalSlice s p.disp.ctl) }

/-- A pass that a finding stops: its record written, no further delivery (R415). -/
def haltPass (s : State) (vale : Nat) (p : Pass) (x : ColFault) : State :=
  let s := colRecord s vale p x
  modVale s vale fun v => { v with pass := some { p with halted := true } }

/-- An amount of energy shared among sequences: equal shares, the remainder 1 pJ each to the earliest (R319). -/
def shareCharge (seqs : List ColSeq) (amount : Nat) (l : List Nat) : List ColSeq :=
  let n := Nat.max 1 l.length
  l.zipIdx.foldl (fun seqs x =>
    let part := amount / n + if x.2 < amount % n then 1 else 0
    seqs.modify x.1 fun q => { q with charge := q.charge + part }) seqs

/-- The next operation of the Col engine and its Basin charged to a pass, and attributed to sequences of it in equal shares
(R318, R319). -/
def chargePass (s : State) (vale : Nat) (p : Pass) (l : List Nat) : Pass × State :=
  ({ p with seqs := shareCharge p.seqs (nextEnergy s (.col vale)) l }, charge s (.col vale) p.vf (cidOfSlice s p.disp.ctl))

/-- The reading of a page charged: its home stacks, or the link to CXL memory, and the mesh links that its flits cross
(R318). -/
def chargePage (s : State) (vale : Nat) (p : Pass) (pbn : Nat) : State :=
  let v := pbn / 2 ^ 21 % 8
  let meters : List Meter := if pbn < 2 ^ 24 then [.hbm (2 * v), .hbm (2 * v + 1)] ++ (if v = vale then [] else [.mesh v])
    else [.link (36 + pbn % 2)]
  meters.foldl (fun st m => charge st m p.vf (cidOfSlice st p.disp.ctl)) s

/-- Does a translation by the engine wait for parked writes, since it has to be walked for (R120)? -/
def colHeld (s : State) (vale vf va : Nat) : Bool :=
  anyParked s && ((valeOf s vale).tlb.find? (·.covers vf va)).isNone && walkHeld s (some vale) vf va

/-- The output of Basin slot k written; it waits while a parked line has no room, or for parked writes of the tables (R120,
R313). -/
def writeOutput (s : State) (vale : Nat) (p : Pass) (k : Nat) : (Option ColFault × Pass) × State :=
  let slot := (p.seqAt (p.seqOfSlot k)).slot
  if (p.output k).any fun x => colHeld s vale p.vf x.1 then ((none, p), s)
  else
  let placed := colFold (fun s acc x => match colTranslate s vale p.vf x.1 1 with
    | (.error f, s) => (.error ⟨slot, x.1, 1, f⟩, s)
    | (.ok pa, s) => (.ok (acc ++ [(pa, x.2)]), s)) s ([] : List (Nat × List Byte)) (p.output k)
  match placed with
  | (.error e, s) => ((some e, p), s)
  | (.ok l, s) =>
    if l.any fun x => parkFull s x.1 then ((none, p), s)
    else
      let s := l.foldl (fun st x => physWrite st x.1 x.2) s
      let (p, s) := chargePass s vale p [p.seqOfSlot k]
      ((none, { p with slots := p.slots.modify {} k fun b => { b with written := true } }), s)

/-- Can a contribution reach the Basin: it is neither lost nor behind a lost one of its core (R307, R444)? -/
def Pass.moves (p : Pass) (x : Partial) : Bool := !(((p.sends.filter (·.core == x.core)).dropWhile (!·.lost)).contains x)

/-- Is every entry of unaffected sequences served, every contribution merged, and every output written? -/
def Pass.quiet (p : Pass) : Bool :=
  p.open_.isEmpty && p.sends.isEmpty && p.due.isEmpty && p.slots.all fun x => p.slotAffected x.1 || x.2.written

/-- Has the pass served everything (R315)? -/
def Pass.finished (p : Pass) : Bool := p.walked && p.sweeping && p.sweepRows.isEmpty && p.quiet

/-- Has a pass with affected sequences done all it can for the others: a row that still waits for Basin slots which affected
sequences hold enters after the resume (R441, R443)? -/
def Pass.exhausted (p : Pass) : Bool :=
  p.walked && p.sweeping && p.quiet && p.seqs.any (·.affected)
    && (p.sweepRows.isEmpty || decide (16384 < p.slotsHeld + p.m.queryHeads))

/-- The outputs that are due are written, and a pass that has to stop leaves the engine: a halted one when its
contributions have merged, those that a fault-stopped member still holds apart, one with affected sequences when the others
are done (R411, R415, R441, R443, R444). -/
def settlePass (vale : Nat) (s : State) : State :=
  match (valeOf s vale).pass with
  | none => s
  | some p =>
    let due := (p.slots.filter fun x => decide (x.2.count ≤ x.2.next) && !x.2.written && !p.slotAffected x.1).map (·.1)
    let r := if p.halted || !p.walked then ((none, p), s) else colGather (fun s q k => writeOutput s vale q k) s p due
    match r with
    | ((some x, p), s) => haltPass s vale p x
    | ((none, p), s) =>
      let done := !(p.sends.any p.moves) && p.due.all fun x => (coreOf s x.core).status == .stopped
      let stop := (p.halted && done) || p.exhausted
      modVale s vale fun v =>
        if stop then { v with pass := none, aside := v.aside ++ [{ p.putAside with stopped := true }] }
        else { v with pass := some p }

/-! ## COL_ADMISSION (R301 to R305, R415, R443) -/

/-- A fault of a pass that R395 gives to its control core: the pass leaves the engine. -/
def refusePass (s : State) (vale : Nat) (p : Pass) (addr info : Nat) : State :=
  let s := modVale s vale fun v => { v with pass := none }
  dispatchStop s p.disp 0x15 addr info

/-- The first misaligned row among those served, as the record's address and info (R302, R395). -/
def badRow (m : Macro) (l : List ColSeq) : Option (Nat × Nat) :=
  l.findSome? fun q =>
    let bad := fun (o : Nat) => some (rowVa m q.slot, q.slot * 2 ^ 32 + 8 * 2 ^ 16 + o)
    if q.kva % 65536 ≠ 0 then bad 0 else if q.vva % 65536 ≠ 0 then bad 8 else none

/-- The main walks of a pass, from the start, and its subscriber lists (R305, R306). To which sequence R319 attributes the
charge of walks the manual does not say: DESIGN CHOICE, each sequence has that of its own (log entry 148). -/
def walkMain (s : State) (vale : Nat) (p : Pass) : State :=
  match colGather (fun s (acc : Pass × List ColEntry) x =>
      let (q, s) := chargePass s vale acc.1 [x.2]
      match walkSeq s vale p.vf p.m x.2 x.1 with
      | (.error e, s) => ((some e, q, acc.2), s)
      | (.ok l, s) => ((none, q, acc.2 ++ l), s)) s (p, []) p.seqs.zipIdx with
  | ((some e, p, _), s) => haltPass s vale p e
  | ((none, p, l), s) =>
    let slots := (List.range p.seqs.length).flatMap p.freshSlots
    let p := { p with walked := true, entries := l, slots := slots }
    let s := modEntry s p.disp.ctl p.disp.entry fun m => { m with totalSteps := p.planned l }
    modVale s vale fun v => { v with pass := some p }

/-- The pages of the entries still to be served walked again, and their lists rebuilt (R305). -/
def walkAgain (s : State) (vale : Nat) (p : Pass) : State :=
  match colGather (fun s (acc : Pass × List ColEntry) e =>
      let q := p.seqAt e.seq
      if e.served then ((none, acc.1, acc.2 ++ [e]), s)
      else
        let (r, s) := chargePass s vale acc.1 [e.seq]
        match walkPair s vale p.vf q.slot (q.kva + 65536 * e.n) (q.vva + 65536 * e.n) with
        | (.error x, s) => ((some x, r, acc.2), s)
        | (.ok pages, s) => ((none, r, acc.2 ++ [{ e with kpbn := pages.1, vpbn := pages.2 }]), s)) s (p, []) p.entries with
  | ((some x, p, _), s) => haltPass s vale p x
  | ((none, p, l), s) => modVale s vale fun v => { v with pass := some { p with entries := l, rewalk := false } }

/-- A pass admitted: descriptor checked, table and queries read, pages walked (R302, R303). -/
def admitPass (s : State) (vale : Nat) (p : Pass) : State :=
  let m := p.m
  let addr := p.disp.descAddr.toNat
  match firstFail (attnFails m) with
  | some x => refusePass s vale p addr (x.1 * 2 ^ 16 + x.2)
  | none =>
    match readRows s vale p.vf m (List.range ((m.tn 1).size 1)) with
    | (.error e, s) => haltPass s vale p e
    | (.ok rows, s) =>
      let ready := (rows.filter (·.2)).map (·.1)
      let seqs := ready.take (16384 / Nat.max 1 m.queryHeads)
      match badRow m seqs with
      | some x => refusePass s vale p x.1 x.2
      | none =>
        if m.rgn * 65536 < attnNeed m (seqs.length * m.kvHeads) p.disp.members.length then refusePass s vale p addr 6
        else match colFold (fun s acc q => match readQueries s vale p.vf m q with
            | (.error e, s) => (.error e, s)
            | (.ok q, s) => (.ok (acc ++ [q]), s)) s ([] : List ColSeq) seqs with
          | (.error e, s) => haltPass s vale p e
          | (.ok seqs, s) => walkMain s vale { p with admitted := true, seqs := seqs }

/-- A pass that comes back to the engine: after a stop its marks and its cause are gone (R419, R443), after a freeze
it goes on as it was (R317). -/
def reloadPass (s : State) (vale : Nat) (p : Pass) (d : Dispatch) : State :=
  let resumed := d.tag != p.disp.tag
  let p := if resumed then { p with
      disp := d, halted := false, recorded := false, stopped := false, resumedTo := p.seqs.length
      seqs := p.seqs.map fun q => { q with affected := false } } else { p with stopped := false }
  let s := if resumed then modEntry s d.ctl d.entry fun m => { m with affected := [] } else s
  if !p.admitted then admitPass s vale p
  else if !p.walked then walkMain s vale p
  else if p.rewalk then walkAgain s vale p
  else modVale s vale fun v => { v with pass := some p }

/-- COL_ADMISSION: the engine takes up the next pass that has reached it, those of frozen contexts apart (R301, R317). It
waits while writes of the virtual function are parked, since its table, queries and walks may meet them (R120). -/
def execColAdmission (vale : Nat) (s : State) : Host.Outcome State Fault Refusal :=
  let s := bump s
  let v := valeOf s vale
  match v.pass, v.passQueue.find? fun d => (ctlOf s d.ctl).status != .frozen with
  | none, some d =>
    if parkedWrites s (vfOfCtl s d.ctl) then .next s
    else
      let mine := fun (p : Pass) => sameDispatch p.disp d.ctl d.entry
      let s := setVale s vale { v with passQueue := v.passQueue.erase d, aside := v.aside.filter fun p => !mine p }
      match v.aside.find? mine with
      | some p => .next (settlePass vale (reloadPass s vale p d))
      | none => .next (settlePass vale (admitPass s vale { disp := d, vf := vfOfCtl s d.ctl }))
  | _, _ => .next s

/-! ## COL_DELIVERY (R307, R312, R319, R441, R442) -/

/-- The bits of `prg.cmask` of a core: its contributions on their way (R262, R307). -/
def showSends (s : State) (p : Pass) (k : Nat) : State :=
  modCore s k fun c => { c with
    prgCmask := p.sends.foldl (fun m x => if x.core = k then m ||| (1#32 <<< x.bit) else m) 0 }

/-- The first poisoned byte of a page. -/
def poisonedByte (s : State) (pbn : Nat) : Option Nat :=
  (s.mem.poison.find? fun w => 8 * w / 65536 == pbn).map fun w => 8 * w % 65536

/-- Sequences become affected: their slots take nothing more, what is parked or on its way for them is dropped, and
the marks of entries not merged are cleared (R441). With `restart` their slots begin again from ordinal 0 (R444). -/
def Pass.affect (p : Pass) (l : List Nat) (restart : Bool) : Pass :=
  let p : Pass := { p with seqs := p.seqs.zipIdx.map fun x => if l.contains x.2 then { x.1 with affected := true } else x.1 }
  let mine := fun (k : Nat) => l.contains (p.seqOfSlot k)
  let again := fun (x : Nat × BasinSlot) => if restart && mine x.1 then (x.1, { x.2 with next := 0, written := false }) else x
  let p : Pass := { p with slots := p.slots.map again }
  { p with
    parked := p.parked.filter fun x => !mine x.slot
    sends := p.sends.filter fun x => !mine x.slot
    due := p.due.filter fun x => !mine x.slot
    entries := p.entries.map fun e =>
      if l.contains e.seq && (p.slotsOf e).any (fun k => decide ((p.slotAt k).next ≤ e.n)) then { e with served := false } else e }

/-- The sequence slots affected, ascending (R442). -/
def Pass.affectedSlots (p : Pass) : List Nat := (p.seqs.filter (·.affected)).foldl (fun l q => insertRising q.slot l) []

/-- An uncorrectable error stops sequences of a pass; the first one of a stop writes the record (R441, R442, R444). -/
def affectSeqs (s : State) (vale : Nat) (p : Pass) (l : List Nat) (addr pbn : Nat) (restart : Bool) : State :=
  let p := p.affect l restart
  let slots := p.affectedSlots
  let s := (dispCores s p.disp).foldl (fun st k => showSends st p k) s
  let s := modEntry s p.disp.ctl p.disp.entry fun m => { m with affected := slots }
  let s := modVale s vale fun v => { v with pass := some { p with recorded := true } }
  if p.recorded || !passRuns s p then s
  else
    let r := mkRecord s p.vf vale 2 vale 3 0 0 addr p.disp.tag.toNat (pbn * 2 ^ 32 + slots.length % 2 ^ 16 * 2 ^ 16 + slots.getD 0 0)
    postReplayable (modEntry s p.disp.ctl p.disp.entry fun m =>
      { m with state := .stopping, recordsHeld := m.recordsHeld + 1 }) p.vf { r with slice := some (logicalSlice s p.disp.ctl) }

/-- Does a delivery hold a key page that the engine still has from the delivery before (R306)? A rescue fetch and a
delivery of the sweep fetch it anew. -/
def Pass.holdsKey (p : Pass) (e : ColEntry) (rescue : Bool) : Bool := !rescue && p.byPage e && p.keyPage == some e.kpbn

/-- Is a delivery one that alone uses its key page: a rescue fetch, or one of the sweep (R306, R312, R315)? -/
def Pass.single (p : Pass) (e : ColEntry) (rescue : Bool) : Bool := rescue || !p.byPage e

/-- The entries to serve that a key page in page order is fetched for. -/
def Pass.ofKey (p : Pass) (e : ColEntry) : List ColEntry := p.open_.filter fun x => p.byPage x && x.kpbn == e.kpbn

/-- The members that get the key page of a delivery ahead of a value page: those with entries of it in later deliveries only
(R307). -/
def Pass.keyOnly (p : Pass) (s : State) (e : ColEntry) (rescue : Bool) (cores : List Nat) : List Nat :=
  if p.single e rescue || p.holdsKey e rescue then []
  else (((p.ofKey e).map (p.coreOfEntry s)).eraseDups).filter fun k => !cores.contains k

/-- The buffers of a member as a delivery finds them: a key page alone stays for a delivery that uses its own, and is
filled or dropped by any other (R307). -/
def keptBuffers (single : Bool) (l : List Delivery) : List Delivery := l.filter fun y => y.key.isNone || single

/-- The poisoned page of a delivery among those fetched for it: the address as its lowest entry maps it, and its PBN. -/
def poisonOf (s : State) (p : Pass) (e : ColEntry) (held : Bool) : Option (Nat × Nat) :=
  let q := p.seqAt e.seq
  match (if held then none else poisonedByte s e.kpbn), poisonedByte s e.vpbn with
  | some o, _ => some (q.kva + 65536 * e.n + o, e.kpbn)
  | none, some o => some (q.vva + 65536 * e.n + o, e.vpbn)
  | none, none => none

/-- What tells an entry of a subscriber list apart. -/
def ColEntry.key (e : ColEntry) : Nat × Nat × Nat := (e.seq, e.h, e.n)

/-- The key rows of an entry: of the page that the engine holds, else of memory. -/
def Pass.keyRowsOf (p : Pass) (s : State) (e : ColEntry) (held : Bool) : List (List Byte) :=
  if held then ((p.keyRows.find? fun x => x.1 == e.key).map (·.2)).getD [] else entryRows s p.m (p.seqAt e.seq) e e.kpbn

/-- The key page of a delivery kept for the deliveries that follow it. -/
def Pass.keepKey (p : Pass) (s : State) (e : ColEntry) (rescue : Bool) : Pass :=
  if p.single e rescue || p.keyPage == some e.kpbn then p
  else { p with
    keyPage := some e.kpbn
    keyRows := (p.ofKey e).map fun x => (x.key, entryRows s p.m (p.seqAt x.seq) x x.kpbn) }

/-- What a delivery to core k puts into its buffer. -/
def Pass.deliveryTo (p : Pass) (s : State) (l : List ColEntry) (k : Nat) (held : Bool) : Delivery :=
  { entries := (l.filter fun e => p.coreOfEntry s e == k).map fun e =>
      (e, (p.keyRowsOf s e held).zip (entryRows s p.m (p.seqAt e.seq) e e.vpbn)) }

/-- The contributions that a delivery to entries will make (R312). -/
def Pass.dueOf (p : Pass) (s : State) (l : List ColEntry) : List Partial :=
  l.flatMap fun e => (p.slotsOf e).map fun slot =>
    { slot := slot, n := e.n, nv := [], dn := 0, core := p.coreOfEntry s e, reserved := decide (p.plannedNext slot < e.n) }

/-- Is a member of a pass fault-stopped (R411, R444)? -/
def memberStopped (s : State) (p : Pass) : Bool :=
  (dispCores s p.disp).any fun k => executes s k p.disp.ctl p.disp.entry && (coreOf s k).status == .stopped

/-- May a member take a delivery: it executes the pass, is neither stopped nor frozen nor in a replay, and has a free
delivery buffer (R307)? -/
def takesDelivery (s : State) (p : Pass) (single : Bool) (k : Nat) : Bool :=
  let c := coreOf s k
  executes s k p.disp.ctl p.disp.entry && c.status != .stopped && c.status != .frozen && c.replay.isEmpty
    && decide ((keptBuffers single c.seq.deliveries).length < 2)

/-- A pass whose fault-stopped member keeps it from any further delivery: it stops with its entry (R411, R444). -/
def stallPass (s : State) (vale : Nat) (p : Pass) : State := modVale s vale fun v => { v with pass := some { p with halted := true } }

/-- A delivery made to its entries: pages fetched and checked, and sent to the members (R306, R307, R441). It waits while a
page fetched has parked writes (R120), or a member has no room for it; a lost read of a page, which of them the manual does
not say (a free value), stops the pass (R377, R415), and one that a fault-stopped member has no room for is the pass's last
until the resume (R411). -/
def deliver (s : State) (vale : Nat) (p : Pass) (l : List ColEntry) (rescue : Bool) : State :=
  match l with
  | [] => s
  | e :: _ =>
    let cores := (l.map (p.coreOfEntry s)).eraseDups
    let ahead := p.keyOnly s e rescue cores
    let single := p.single e rescue
    let held := p.holdsKey e rescue
    let pages := if held then [e.vpbn] else [e.kpbn, e.vpbn]
    let fetched := fun (s : State) (p : Pass) => chargePass (pages.foldl (fun st n => chargePage st vale p n) s) vale p (l.map (·.seq))
    if pages.any fun n => parkedIn s (n * 65536) 65536 then s
    else
      let s := pages.foldl (fun st n => touch st (n * 65536) 65536) s
      if lostData s vale then
        let (p, s) := fetched (lostMet s vale) p
        let q := p.seqAt e.seq
        let value := held || (freeWord s 811).getLsbD 0
        haltPass s vale p ⟨q.slot, (if value then q.vva else q.kva) + 65536 * e.n, 0, { cause := 2 }⟩
      else match poisonOf s p e held with
      | some (addr, pbn) =>
        let (p, s) := fetched s p
        affectSeqs s vale p (l.map (·.seq)).eraseDups addr pbn false
      | none =>
        let full := (cores ++ ahead).filter fun k => !takesDelivery s p single k
        if !full.isEmpty then if full.any fun k => (coreOf s k).status == .stopped then stallPass s vale p else s
        else
          let take := fun (st : State) (k : Nat) (x : Delivery) => modCore st k fun c => { c with
            seq := { c.seq with deliveries := keptBuffers single c.seq.deliveries ++ [x] } }
          let s := cores.foldl (fun st k => take st k (p.deliveryTo s l k held)) s
          let s := ahead.foldl (fun st k => take st k { key := some e.kpbn }) s
          let q := { p.keepKey s e rescue with
            due := p.due ++ p.dueOf s l
            entries := p.entries.map fun e => if l.contains e then { e with served := true } else e }
          let (q, s) := fetched s q
          let s := if rescue then modEntry s p.disp.ctl p.disp.entry fun m => { m with totalSteps := m.totalSteps + cores.length } else s
          modVale s vale fun v => { v with pass := some q }

/-- The pass that the engine may carry on: walked, not halted. -/
def livePass (s : State) (vale : Nat) : Option Pass :=
  match (valeOf s vale).pass with
  | some p => if p.walked && !p.halted then some p else none
  | none => none

/-- Can a pass do no more until contributions come which a fault-stopped member holds? It stops with its entry (R411,
R444). -/
def stuckPass (s : State) (p : Pass) : Bool := memberStopped s p && !p.sends.isEmpty && !(p.sends.any p.moves)

/-- COL_DELIVERY: the engine decides on its planned state, and makes the next delivery or a rescue fetch (R312). -/
def execColDelivery (vale : Nat) (s : State) : Host.Outcome State Fault Refusal :=
  let s := bump s
  match livePass s vale with
  | none => .next s
  | some p =>
    let l := p.nextDelivery
    let must := l.isEmpty || (decide (p.need l ≤ p.plannedFree) && decide (p.physFree < p.need l))
    if must && stuckPass s p then .next (settlePass vale (stallPass s vale p))
    else if l.isEmpty then .next (settlePass vale s)
    else if p.need l ≤ p.plannedFree then
      if p.need l ≤ p.physFree then .next (settlePass vale (deliver s vale p l false)) else .next s
    else .next (settlePass vale (deliver s vale p p.rescue true))

/-! ## The tile step of a member (R307, R308) -/

/-- The step of one member for a delivery: the partials of its entries go out, those of slots that take nothing more apart
(R307, R441). -/
def memberStep (s : State) (p : Pass) (k : Nat) (x : Delivery) : Pass × State :=
  let work := x.entries.flatMap fun e => (p.slotsOf e.1).filterMap fun slot =>
    (p.due.find? fun y => y.slot == slot && y.n == e.1.n && y.core == k).map fun y => (e, y)
  let made := work.zipIdx.map fun w =>
    let (e, y) := w.1
    let (v, fl) := partialOf p.m (p.seqAt e.1.seq) (y.slot % Nat.max 1 p.m.queryHeads) e.2
    ({ y with nv := v.1, dn := v.2, bit := w.2 % 32 }, fl)
  let mine := work.map (·.2)
  let q := { p with due := p.due.filter fun y => !mine.contains y, sends := p.sends ++ made.map (·.1) }
  let s := modCore (chargeCore s k) k fun c => { c with
    prgStep := c.prgStep + 1
    prgI := (c.prgI.put 0 0 (c.prgI.get 0 0 + 1)).put 0 1 (if p.sweeping then 1 else 0)
    seq := { c.seq with deliveries := c.seq.deliveries.erase x }
    astat := astatMerge c.astat (made.foldl (fun (f : Flags) x => f ||| x.2) 0) }
  let s := showSends s q k
  (q, if stepping s k then freezeCore s k else s)

/-- The boundary of a tile step of `m.attn`: the member's oldest delivery is processed, in the order received; a buffer with a
key page alone is none yet (R307). -/
def attnBoundary (s : State) (k : Nat) : State :=
  let c := coreOf s k
  let vale := k / 192
  match c.seq.exec, c.seq.deliveries.find? (·.key.isNone), (valeOf s vale).pass with
  | some d, some x, some p =>
    if ¬ sameDispatch p.disp d.ctl d.entry ∨ c.status = .stopped ∨ c.status = .frozen ∨ ¬ c.replay.isEmpty
      ∨ ¬ ((entryOf s d.ctl d.entry).state = .running ∨ (entryOf s d.ctl d.entry).state = .stopping) then s
    else
      let (q, s) := memberStep s p k x
      settlePass vale (modVale s vale fun v => { v with pass := some q })
  | _, _, _ => s

/-- SEQUENCER_BOUNDARY: the boundary stage of a tile step of the macro-instruction that core k executes (R77, R307). -/
def execSequencerBoundary (k : Nat) (s : State) : Host.Outcome State Fault Refusal :=
  let s := bump s
  .next (match (coreOf s k).seq.exec with
    | some d => if !d.coll && numAt d.desc 0 1 == 3 then attnBoundary s k else tileBoundary s k
    | none => s)

/-! ## BASIN_MERGE (R311, R313) -/

/-- A contribution added to a slot at its next ordinal. -/
def mergeInto (b : BasinSlot) (x : Partial) : BasinSlot :=
  let add := fun (u v : Word) => BitVec.ofNat 64 (xfOp 0 .rne false (decode .xf40 u.toNat) (decode .xf40 v.toNat) (.zero false)).1
  if x.n = 0 then { b with n := x.nv, dn := x.dn, next := 1 }
  else { b with n := (b.n.zip x.nv).map fun y => add y.1 y.2, dn := add b.dn x.dn, next := x.n + 1 }

/-- Parked contributions of slot k merged while one has its next ordinal; `fuel` bounds their number. -/
def drainParked (p : Pass) (k : Nat) : Nat → Pass
  | 0 => p
  | fuel + 1 =>
    let b := p.slotAt k
    match p.parked.find? fun x => x.slot == k && x.n == b.next with
    | none => p
    | some x => drainParked { p with
        slots := p.slots.put {} k (mergeInto b x)
        parked := p.parked.filter fun y => !(y.slot == k && y.n == x.n) } k fuel

/-- A contribution discarded, parked, or merged with what it lets in (R311). -/
def takePartial (p : Pass) (x : Partial) : Pass :=
  let b := p.slotAt x.slot
  if x.n < b.next || p.parked.any (fun y => y.slot == x.slot && y.n == x.n) then p
  else if b.next < x.n then { p with parked := p.parked ++ [x] }
  else drainParked { p with slots := p.slots.put {} x.slot (mergeInto b x) } x.slot p.parked.length

/-- BASIN_MERGE: the contribution at place `idx` of those on their way reaches the Basin; the contributions of one
core arrive in order (R307, R311). A lost one is sent again once its core is no longer stopped (R444). -/
def execBasinMerge (vale idx : Nat) (s : State) : Host.Outcome State Fault Refusal :=
  let s := bump s
  match (valeOf s vale).pass with
  | none => .next s
  | some p =>
    match p.sends[idx]? with
    | none => .next s
    | some x =>
      if ((p.sends.take idx).any fun y => y.core == x.core) || (x.lost && (coreOf s x.core).status == .stopped) then .next s
      else
        let q := takePartial { p with sends := p.sends.eraseIdx idx } x
        let (q, s) := chargePass s vale q [p.seqOfSlot x.slot]
        let s := showSends s q x.core
        .next (settlePass vale (modVale s vale fun v => { v with pass := some q }))

/-! ## The catch-up sweep (R315) -/

/-- CATCH_UP_SWEEP: every delivery of the main pass has merged, and the table is read once more. -/
def execCatchUpSweep (vale : Nat) (s : State) : Host.Outcome State Fault Refusal :=
  let s := bump s
  match livePass s vale with
  | none => .next s
  | some p =>
    if p.sweeping || !p.quiet || parkedWrites s p.vf then .next (settlePass vale s)
    else
      let m := p.m
      let slots := (List.range ((m.tn 1).size 1)).filter fun i => !(p.seqs.any fun q => q.slot == i)
      match readRows s vale p.vf m slots with
      | (.error e, s) => .next (settlePass vale (haltPass s vale p e))
      | (.ok rows, s) =>
        let late := (rows.filter (·.2)).map fun x => { x.1 with sweep := true }
        match badRow m late with
        | some x => .next (refusePass s vale p x.1 x.2)
        | none =>
          let s := (dispCores s p.disp).foldl (fun st k => modCore st k fun c => { c with prgI := c.prgI.put 0 1 1 }) s
          .next (settlePass vale (modVale s vale fun v => { v with
            pass := some { p with sweeping := true, sweepRows := late, sweepPairs := late.length * m.kvHeads } }))

/-- The walk of a row that enters the sweep charged to it (R318, R319). -/
def sweepCharge (s : State) (vale : Nat) (p : Pass) (q : ColSeq) : ColSeq × State :=
  ({ q with charge := q.charge + nextEnergy s (.col vale) }, charge s (.col vale) p.vf (cidOfSlice s p.disp.ctl))

/-- SWEEP_ENTRY: the next row enters the sweep when the Basin has slots for it; its queries and its walk are taken
now. After a finding of the walk, the resume has only the walk to make (R315, R415). -/
def execSweepEntry (vale : Nat) (s : State) : Host.Outcome State Fault Refusal :=
  let s := bump s
  match livePass s vale with
  | none => .next s
  | some p =>
    match p.sweepRows with
    | [] => .next (settlePass vale s)
    | row :: rest =>
      let m := p.m
      if 16384 < p.slotsHeld + m.queryHeads || parkedWrites s p.vf then .next s
      else match if row.asked then (.ok row, s) else readQueries s vale p.vf m row with
        | (.error e, s) => .next (settlePass vale (haltPass s vale p e))
        | (.ok q, s) =>
          let i := p.seqs.length
          let (q, s) := sweepCharge s vale p q
          match walkSeq s vale p.vf m i q with
          | (.error e, s) => .next (settlePass vale (haltPass s vale { p with sweepRows := q :: rest } e))
          | (.ok l, s) =>
            let p := { p with seqs := p.seqs ++ [q], sweepRows := rest, entries := p.entries ++ l }
            let p := { p with slots := p.slots ++ p.freshSlots i }
            let s := modEntry s p.disp.ctl p.disp.entry fun e => { e with totalSteps := e.totalSteps + p.planned l }
            .next (settlePass vale (modVale s vale fun v => { v with pass := some p }))

/-! ## The end of a pass (R315, R319) -/

/-- Is the pass of an entry complete? -/
def passComplete (s : State) (vale k e : Nat) : Bool :=
  match (valeOf s vale).pass with
  | some p => sameDispatch p.disp k e && p.finished && !(p.seqs.any (·.affected)) && !p.halted
  | none => false

/-- The engine lets a complete pass go, with a trace record for each sequence (R319). -/
def endPass (s : State) (vale : Nat) : State :=
  match (valeOf s vale).pass with
  | none => s
  | some p =>
    let s := p.seqs.foldl (fun st q =>
      traceRecord st p.vf vale 2 vale 0x0410 (BitVec.ofNat 64 (q.slot * 2 ^ 44 + q.charge % 2 ^ 44))) s
    modVale s vale fun v => { v with pass := none }

/-- Does some entry not served name a page that a translation maps (R305)? -/
def Pass.unserved (p : Pass) (inside : Nat → Bool) : Bool :=
  p.entries.any fun e =>
    let q := p.seqAt e.seq
    !e.served && (inside (q.kva + 65536 * e.n) || inside (q.vva + 65536 * e.n))

/-- Does a pass still need a page that a translation maps: some entry not served, of a sequence not affected, names it, and it
is no key page that the engine holds (R305)? -/
def Pass.names (p : Pass) (inside : Nat → Bool) : Bool :=
  p.open_.any fun e =>
    let q := p.seqAt e.seq
    (!p.holdsKey e false && inside (q.kva + 65536 * e.n)) || inside (q.vva + 65536 * e.n)

end Sys2Proof.Machine
end

