-- ==== Sys2Proof/Machine/CollDesc.lean ====
section
/-! DEFINITION. The descriptors and participant tables of collectives, and the peers that the links reach (R274 to R277,
R281, R448). -/

namespace Sys2Proof.Machine

open Sys2Proof

/-! ## Descriptors (R274, R275, R277, R278) -/

/-- A collective descriptor (R274). -/
structure CollDesc where
  op : Nat
  fl : Nat
  ty : Nat
  rop : Nat
  np : Nat
  me : Nat
  peer : Nat
  cid : Nat
  sbuf : Nat
  rbuf : Nat
  count : Nat
  chk : Nat
  ptab : Nat
  bmap : Nat
deriving DecidableEq, Repr

/-- The fields of a collective descriptor. -/
def collOf (b : List Byte) : CollDesc :=
  { op := numAt b 0 1, fl := numAt b 3 1, ty := numAt b 4 1, rop := numAt b 5 1, np := numAt b 6 2, me := numAt b 8 2
    peer := numAt b 0xA 2, cid := numAt b 0xC 4, sbuf := word64At b 0x18, rbuf := word64At b 0x20
    count := word64At b 0x28, chk := numAt b 0x30 1, ptab := word64At b 0x38, bmap := word64At b 0x40 }

/-- Bits of an element. -/
def CollDesc.width (d : CollDesc) : Nat := ((tyOf (d.ty % 16)).map tyWidth).getD 8
/-- Bytes of n parts of count elements. -/
def CollDesc.bytes (d : CollDesc) (n : Nat) : Nat := n * d.count * d.width / 8
/-- Is the operation a reduction? -/
def CollDesc.reduces (d : CollDesc) : Bool := d.op == 1 || d.op == 3
/-- Parts of this rank's send buffer (R277). -/
def CollDesc.sendParts (d : CollDesc) : Nat :=
  match d.op with
  | 1 | 2 | 6 => 1
  | 3 | 4 => d.np
  | 5 => if d.me = d.peer then 1 else 0
  | _ => 0
/-- Parts of this rank's window (R277). -/
def CollDesc.windowParts (d : CollDesc) : Nat :=
  match d.op with
  | 1 | 3 | 5 | 7 => 1
  | 2 | 4 => d.np
  | _ => 0
/-- Chunks of a window of n bytes (R279). -/
def CollDesc.chunksOf (d : CollDesc) (n : Nat) : Nat := (n + 2 ^ d.chk - 1) / 2 ^ d.chk
/-- Chunks of this rank's window. -/
def CollDesc.chunks (d : CollDesc) : Nat := d.chunksOf (d.bytes d.windowParts)

/-- The ranks that take part beside this one: the peer of a point-to-point operation, else every other rank. -/
def CollDesc.others (d : CollDesc) : List Nat :=
  if d.op = 6 ∨ d.op = 7 then [d.peer] else (List.range d.np).filter (· != d.me)

/-- Chunks that this rank delivers to rank r (R281). -/
def CollDesc.deliveries (d : CollDesc) (r : Nat) : Nat :=
  let whole := d.chunksOf (d.bytes 1)
  match d.op with
  | 1 | 3 => whole
  | 2 | 4 =>
    let p := d.bytes 1
    if p = 0 then 0 else (Nat.min ((d.me + 1) * p) (d.np * p) - 1) / 2 ^ d.chk + 1 - d.me * p / 2 ^ d.chk
  | 5 => if d.me = d.peer then whole else 0
  | 6 => if r = d.peer then whole else 0
  | _ => 0

/-! ## Ranks and links (R275, R448) -/

/-- The participant-table entry of a rank: node, virtual function, logical slice (R275). -/
def participant (ptab : List Byte) (r : Nat) : Nat × Nat × Nat := (numAt ptab (16 * r) 4, numAt ptab (16 * r + 4) 1, numAt ptab (16 * r + 5) 1)

/-- Is a rank on this module? -/
def rankHere (s : State) (ptab : List Byte) (r : Nat) : Bool := (participant ptab r).1 == s.io.mdnode.toNat

/-- Does no link in use lead to the node of a rank (R448)? Ranks of this module are reached over the Vale mesh. -/
def unreached (s : State) (ptab : List Byte) (r : Nat) : Bool :=
  let (node, _, _) := participant ptab r
  node != s.io.mdnode.toNat && !((List.range 36).any fun k => s.io.links.getLsbD k && Config.linkReaches k node)

/-- A collective that has deliveries to make to a peer no link reaches holds them and stops (R448). -/
def stopUnreached (s : State) (k e : Nat) : State :=
  let m := entryOf s k e
  let d := collOf m.desc
  let vf := vfOfCtl s k
  let waits := fun (r : Nat) => unreached s m.t3 r && decide ((m.coll.peers.get {} r).acked < d.deliveries r)
  if ¬ m.isColl ∨ m.state ≠ .running ∨ (ctlOf s k).status = .frozen then s
  else match d.others.find? waits with
    | none => s
    | some r =>
      let n := logicalSlice s k
      let rec_ := mkRecord s vf (k / 8) 1 n 2 0 m.pc.toNat 0 m.tag.toNat (r * 2 ^ 48)
      postReplayable (modEntry s k e fun m => { m with state := .stopping, recordsHeld := m.recordsHeld + 1 }) vf
        { rec_ with slice := some n }

end Sys2Proof.Machine
end

