-- ==== Sys2Proof/Machine/MacroIssue.lean ====
section
/-! DEFINITION. Macro-instructions on the control core: issue, the scoreboard and the macro table, resumes, waits,
`m.kill` and `m.fence`, and how an entry stops (R66 to R71, R245, R249, R263 to R268, R395, R396, R411, R412,
R418 to R420). -/

namespace Sys2Proof.Machine

open Sys2Proof

/-! ## The scoreboard and the macro table (R66, R70, R263) -/

/-- Do two ranges share a byte (R70)? -/
def sharesByte (a b : VRange) : Bool := decide (a.lo < b.hi) && decide (b.lo < a.hi) && decide (a.lo < a.hi) && decide (b.lo < b.hi)

/-- Does a range of one list share a byte with one of another? -/
def anyShared (l m : List VRange) : Bool := l.any fun a => m.any fun b => sharesByte a b

/-- Do ranges to read and to write conflict with an outstanding entry (R70)? -/
def conflicts (c : Ctl) (reads writes : List VRange) : Bool :=
  c.macros.any fun e => outstanding e.2
    && (anyShared reads e.2.writes || anyShared writes e.2.reads || anyShared writes e.2.writes)

/-- The entry of a control core's macro table. -/
def entryAt (c : Ctl) (e : Nat) : MacroEntry := c.macros.get {} e

/-- The entry that an issue takes: the free one of lowest index, failing that the completed or killed one of
lowest index (R263). -/
def takeEntry (c : Ctl) : Option Nat :=
  match (List.range 64).find? fun e => (entryAt c e).state == .free with
  | some e => some e
  | none => (List.range 64).find? fun e => (entryAt c e).state == .completed || (entryAt c e).state == .killed

/-- The control core stops at the instruction it runs, fatal to its launch (R395). -/
def issueStop (s : State) (cause addr info : Nat) : State := stopCtl s s.ctl cause addr 0 info

/-- Cause 0x11 with reason 8 (R395). -/
def issueIllegal (s : State) : State := issueStop s 0x11 0 (8 * 2 ^ 16)

/-- Is a gang that an issue names refused: bits 63:6 nonzero, a free gang, one of another context, or one without
members (R75, R395, R427)? -/
def gangRefused (s : State) (w : Word) : Bool :=
  let k := s.ctl
  let x := gangOf s (k / 8) (w.toNat % 64)
  w.toNat / 64 != 0 || x.owner.isNone || x.vf != vfOfCtl s k || (stayers x).isEmpty

/-- The gang of a held issue, refused at the grant. -/
def heldRefused (s : State) (h : HeldMacro) : Bool := gangRefused s (BitVec.ofNat 64 h.gang)

/-- Step 3 of R66 has passed for what the running control core holds: its entry, its tag and its dispatch (R66,
R67). The instruction retires. -/
def grantHeld (s : State) (h : HeldMacro) (e : Nat) : State :=
  let k := s.ctl
  let c := curCtl s
  let tag := BitVec.ofNat 64 (64 * c.issued + e)
  let entry : MacroEntry :=
    { state := .running, tag := tag, tags := [tag], op := h.op, isColl := h.isColl, desc := h.desc, t3 := h.t3
      descAddr := h.descAddr, pc := c.pc, gang := h.gang, reads := h.reads, writes := h.writes
      totalSteps := if h.isColl then 0 else (macroOf h.desc h.t3).total
      rte := BitVec.ofNat 64 (word64At h.desc 0x10) }
  let s := setCtl s k { c with macros := c.macros.put {} e entry, issued := c.issued + 1, held := none }
  let d : Dispatch :=
    { ctl := k, tag := tag, entry := e, op := h.op, coll := h.isColl, gang := h.gang, desc := h.desc, t3 := h.t3
      descAddr := h.descAddr, pc := c.pc, reached := s.io.realNs }
  let vale := k / 8
  let x := gangOf s vale h.gang
  let s := setGang s vale h.gang { x with queue := queueDispatch d x.queue }
  ctlResult s (BitVec.ofNat 5 h.rd) tag

/-- What the running control core holds is granted where no older entry conflicts, no store of its virtual function is
parked, and an entry can be taken; otherwise it waits (R66, R70, R117, R120). The entry number taken is answered as well. -/
def tryGrant (s : State) : Option Nat × State :=
  let c := curCtl s
  match c.held with
  | none => (none, s)
  | some h =>
    match takeEntry c with
    | none => (none, ctlWait s)
    | some e =>
      if conflicts c h.reads h.writes || parkedWrites s (vfOfCtl s s.ctl) then (none, ctlWait s)
      else if heldRefused s h then (none, issueIllegal (setCtl s s.ctl { c with held := none }))
      else (some e, grantHeld s h e)

/-! ## Issue (R66, R245, R249, R395) -/

/-- A descriptor read by the running control core: its bytes, or the state in which it waits or has raised an
exception (R245, R394). -/
def readBlock (s : State) (va words al : Nat) : Except State (List Byte × State) :=
  if va % al ≠ 0 then .error (raise s (misaligned .load) (BitVec.ofNat 64 va))
  else match ctlBlock s va words with
    | .wait => .error (ctlWait s)
    | .trap c a s' => .error (raise s' c (BitVec.ofNat 64 a))
    | .ok b s' => .ok (b, s')

/-- The bytes of T3, where a descriptor has it at an aligned address. -/
def readT3 (s : State) (b : List Byte) : Except State (List Byte × State) :=
  let m := macroOf b []
  if m.has 3 && m.t3a != 0 && m.t3a % 64 == 0 && m.ver == 1 then readBlock s m.t3a 8 64 else .ok ([], s)

/-- The issue of a macro-instruction (R66, R395). -/
def issueMacro (op : Nat) (f : XF) (s : State) : State :=
  let c := curCtl s
  match c.held with
  | some _ => (tryGrant s).2
  | none =>
    let va := (xGet c f.rs1.toNat).toNat
    let g := xGet c f.rs2.toNat
    match readBlock s va 32 64 with
    | .error s' => s'
    | .ok (b, s) =>
      match readT3 s b with
      | .error s' => s'
      | .ok (t3, s) =>
        let m := macroOf b t3
        match firstFail (macroFails m op) with
        | some (kind, off) => issueStop s 0x15 va (kind * 2 ^ 16 + off)
        | none =>
          if gangRefused s g then issueIllegal s
          else
            let h : HeldMacro :=
              { op := op, isColl := false, rd := f.rd.toNat, gang := g.toNat % 64, desc := b, t3 := t3
                descAddr := BitVec.ofNat 64 va, reads := m.reads, writes := m.writes }
            (tryGrant (modCtl s s.ctl fun c => { c with held := some h })).2

/-! ## Resumes (R245, R266, R417 to R419) -/

/-- Offset of the first byte in which two descriptors differ, `rte` apart. -/
def firstDiff (i : Nat) : List Byte → List Byte → Option Nat
  | a :: as, b :: bs => if a ≠ b ∧ ¬ (0x10 ≤ i ∧ i < 0x18) then some i else firstDiff (i + 1) as bs
  | _, _ => none

/-- The stop of a reissue that fails (R418). -/
def reissueStop (s : State) (addr off : Nat) : State := issueStop s 0x15 addr (7 * 2 ^ 16 + off)

/-- The window of a collective's entry registered with the module's receivers, where it is not (R279, R281). -/
def openWindow (s : State) (k e : Nat) : State :=
  let w : Window := { cid := numAt (entryOf s k e).desc 0xC 4, slice := logicalSlice s k, entry := e }
  modVf s (vfOfCtl s k) fun v => if v.windows.contains w then v else { v with windows := v.windows ++ [w] }

/-- A stopped entry continues: new `rte`, new tag, running, and the continuation sent to its gang; a collective's window is registered again where it had been withdrawn,
and one that no link carries to a peer stops again (R281, R419, R448). -/
def continueEntry (s : State) (e rd : Nat) (desc : List Byte) : State :=
  let k := s.ctl
  let c := curCtl s
  let m := entryAt c e
  let tag := BitVec.ofNat 64 (64 * c.issued + e)
  let m := { m with
    state := .running, tag := tag, tags := m.tags ++ [tag], desc := desc, rte := BitVec.ofNat 64 (word64At desc 0x10)
    cause := 0, causeSeq := 0, recordsHeld := 0 }
  let s := setCtl s k { c with macros := c.macros.put {} e m, issued := c.issued + 1 }
  let d : Dispatch :=
    { ctl := k, tag := tag, entry := e, op := m.op, coll := m.isColl, gang := m.gang, desc := desc, t3 := m.t3
      descAddr := m.descAddr, pc := m.pc, resume := true, members := m.members, reached := s.io.realNs }
  let x := gangOf s (k / 8) m.gang
  let s := setGang s (k / 8) m.gang { x with queue := queueDispatch d x.queue }
  let s := if m.isColl then stopUnreached (openWindow s k e) k e else s
  ctlResult s (BitVec.ofNat 5 rd) tag

/-- A stopped entry that a resume names: its descriptor is read again and compared (R245, R418). -/
def resumeEntry (s : State) (e rd : Nat) : State :=
  let m := entryAt (curCtl s) e
  match readBlock s m.descAddr.toNat 32 64 with
  | .error s' => s'
  | .ok (b, s) =>
    match firstDiff 0 m.desc b with
    | some o => reissueStop s m.descAddr.toNat o
    | none =>
      if m.isColl then continueEntry s e rd b
      else match readT3 s b with
        | .error s' => s'
        | .ok (t3, s) =>
          match firstDiff 0x100 m.t3 t3 with
          | some o => reissueStop s m.descAddr.toNat o
          | none => continueEntry s e rd b

/-- The entry of this control core, stopped or stopping, of an operation, descriptor address and gang, that was
issued earliest (R266, R418). -/
def matching (c : Ctl) (op : Nat) (coll : Bool) (va gang : Nat) : Option Nat :=
  let l := (List.range 64).filter fun e =>
    let m := entryAt c e
    m.op == op && m.isColl == coll && m.descAddr.toNat == va && m.gang == gang && (m.state == .stopped || m.state == .stopping)
  l.foldl (fun a e => match a with
    | none => some e
    | some b => if ((entryAt c e).tags.getD 0 0).toNat / 64 < ((entryAt c b).tags.getD 0 0).toNat / 64 then some e else some b) none

/-- A resume form (R418). -/
def resumeForm (op : Nat) (coll : Bool) (f : XF) (s : State) : State :=
  let c := curCtl s
  let va := (xGet c f.rs1.toNat).toNat
  let g := xGet c f.rs2.toNat
  if va % 64 ≠ 0 then raise s (misaligned .load) (BitVec.ofNat 64 va)
  else if g.toNat / 64 ≠ 0 then issueIllegal s
  else match matching c op coll va g.toNat with
    | none => reissueStop s va 0
    | some e => if (entryAt c e).state = .stopping then ctlWait s else resumeEntry s e f.rd.toNat

/-- M_GEMM: a batched matrix product (R251). -/
def execMGemm (f : XF) (s : State) : Host.Outcome State Fault Refusal := .next (issueMacro 1 f (bump s))
/-- M_GEMM_R: its resume form (R418). -/
def execMGemmR (f : XF) (s : State) : Host.Outcome State Fault Refusal := .next (resumeForm 1 false f (bump s))
/-- M_CONV: a convolution (R253). -/
def execMConv (f : XF) (s : State) : Host.Outcome State Fault Refusal := .next (issueMacro 2 f (bump s))
/-- M_CONV_R: its resume form (R418). -/
def execMConvR (f : XF) (s : State) : Host.Outcome State Fault Refusal := .next (resumeForm 2 false f (bump s))
/-- M_ATTN: a layer pass of decode attention (R254). -/
def execMAttn (f : XF) (s : State) : Host.Outcome State Fault Refusal := .next (issueMacro 3 f (bump s))
/-- M_ATTN_R: its resume form (R418). -/
def execMAttnR (f : XF) (s : State) : Host.Outcome State Fault Refusal := .next (resumeForm 3 false f (bump s))
/-- M_SORT: a stable sort (R255). -/
def execMSort (f : XF) (s : State) : Host.Outcome State Fault Refusal := .next (issueMacro 4 f (bump s))
/-- M_SORT_R: its resume form (R418). -/
def execMSortR (f : XF) (s : State) : Host.Outcome State Fault Refusal := .next (resumeForm 4 false f (bump s))
/-- M_GATH: a gather of rows (R256). -/
def execMGath (f : XF) (s : State) : Host.Outcome State Fault Refusal := .next (issueMacro 5 f (bump s))
/-- M_GATH_R: its resume form (R418). -/
def execMGathR (f : XF) (s : State) : Host.Outcome State Fault Refusal := .next (resumeForm 5 false f (bump s))
/-- M_SCAT: a scatter-add of rows (R257). -/
def execMScat (f : XF) (s : State) : Host.Outcome State Fault Refusal := .next (issueMacro 6 f (bump s))
/-- M_SCAT_R: its resume form (R418). -/
def execMScatR (f : XF) (s : State) : Host.Outcome State Fault Refusal := .next (resumeForm 6 false f (bump s))
/-- M_NORM: a normalisation of rows (R258). -/
def execMNorm (f : XF) (s : State) : Host.Outcome State Fault Refusal := .next (issueMacro 7 f (bump s))
/-- M_NORM_R: its resume form (R418). -/
def execMNormR (f : XF) (s : State) : Host.Outcome State Fault Refusal := .next (resumeForm 7 false f (bump s))
/-- M_KERN: the program's own step body (R259). -/
def execMKern (f : XF) (s : State) : Host.Outcome State Fault Refusal := .next (issueMacro 8 f (bump s))
/-- M_KERN_R: its resume form (R418). -/
def execMKernR (f : XF) (s : State) : Host.Outcome State Fault Refusal := .next (resumeForm 8 false f (bump s))
/-- M_RCPY: copies of row segments (R261). -/
def execMRcpy (f : XF) (s : State) : Host.Outcome State Fault Refusal := .next (issueMacro 9 f (bump s))
/-- M_RCPY_R: its resume form (R418). -/
def execMRcpyR (f : XF) (s : State) : Host.Outcome State Fault Refusal := .next (resumeForm 9 false f (bump s))
/-- M_RINIT: row segments filled (R261). -/
def execMRinit (f : XF) (s : State) : Host.Outcome State Fault Refusal := .next (issueMacro 10 f (bump s))
/-- M_RINIT_R: its resume form (R418). -/
def execMRinitR (f : XF) (s : State) : Host.Outcome State Fault Refusal := .next (resumeForm 10 false f (bump s))

/-! ## Entries named by a tag (R264, R265, R396, R417) -/

/-- What a tag names. -/
inductive Named where
  /-- not issued by this control core yet -/
  | future
  /-- its entry has been taken by a newer issue -/
  | retired
  | entry (e : Nat) (m : MacroEntry)

/-- The entry that a tag names. -/
def named (c : Ctl) (tag : Word) : Named :=
  let e := tag.toNat % 64
  let m := entryAt c e
  if c.issued ≤ tag.toNat / 64 then .future
  else if m.tags.contains tag then .entry e m
  else .retired

/-- M_WAIT: held until the entry is no longer running (R264, R396). -/
def execMWait (rd rs1 : BitVec 5) (s : State) : Host.Outcome State Fault Refusal :=
  let s := bump s
  let c := curCtl s
  match named c (xGet c rs1.toNat) with
  | .future => .next (ctlResult s rd 0xFF)
  | .retired => .next (ctlResult s rd 3)
  | .entry _ m =>
    match m.state with
    | .running | .stopping | .killing => .next (ctlWait s)
    | .stopped => .next (ctlResult s rd 1)
    | .completed => .next (ctlResult s rd 0)
    | .killed => .next (ctlResult s rd 2)
    | .free => .next (ctlResult s rd 3)

/-- M_RESUME: the stopped entry of a tag continues (R266, R418, R419). -/
def execMResume (rd rs1 : BitVec 5) (s : State) : Host.Outcome State Fault Refusal :=
  let s := bump s
  let c := curCtl s
  match named c (xGet c rs1.toNat) with
  | .entry e m =>
    match m.state with
    | .stopping => .next (ctlWait s)
    | .stopped => .next (resumeEntry s e rd.toNat)
    | _ => .next (ctlResult s rd (BitVec.allOnes 64))
  | _ => .next (ctlResult s rd (BitVec.allOnes 64))

/-- M_FENCE: waits until no entry is outstanding and no store is parked (R117, R120, R268). -/
def execMFence (s : State) : Host.Outcome State Fault Refusal :=
  let s := bump s
  if ((curCtl s).macros.any fun e => outstanding e.2) || parkedWrites s (vfOfCtl s s.ctl) then .next (ctlWait s)
  else .next (retire s 4)

/-! ## `m.kill` (R267, R420, R421) -/

/-- The macro-instruction of an entry is still queued for its gang, not yet passed. -/
def isQueued (s : State) (k e : Nat) (m : MacroEntry) : Bool :=
  (gangOf s (k / 8) m.gang).queue.any fun d => sameDispatch d k e && !d.resume

/-- The dispatches of an entry taken out of its gang's queue. -/
def unqueue (s : State) (k e : Nat) (m : MacroEntry) : State :=
  let x := gangOf s (k / 8) m.gang
  setGang s (k / 8) m.gang { x with queue := x.queue.filter fun d => !sameDispatch d k e }

/-- The write ranges of an entry hold undefined bytes (R6, R267). -/
def forgetWrites (s : State) (k : Nat) (m : MacroEntry) : State := m.writes.foldl (fun st r => vaForget st (vfOfCtl s k) r) s

/-- The members' progress registers, by rank (R265); zeros for a member that the dispatch has not reached. -/
def memberPrgs (s : State) (k : Nat) (m : MacroEntry) : List (List Nat) :=
  m.members.map fun n => match physCore s (k / 8) (vfOfCtl s k) n with
    | none => []
    | some j =>
      let c := coreOf s j
      if executes s j k (m.tag.toNat % 64) then
        (List.range 7).map (fun i => c.prgI.get 0 i) ++ [c.prgStep, c.prgAcc.toNat, c.prgCmask.toNat]
      else []

/-- The windows of an entry withdrawn (R279). -/
def withdraw (s : State) (k e : Nat) : State :=
  modVf s (vfOfCtl s k) fun v => { v with windows := v.windows.filter fun w => !(w.slice == logicalSlice s k && w.entry == e) }

/-- Held-back records of a stop discarded and counted (R420). -/
def discardHeld (s : State) (vf : Nat) (m : MacroEntry) : State :=
  modVf s vf fun v =>
    let (gone, kept) := v.tq.held.partition fun r => m.tags.contains r.tag
    { v with tq := { v.tq with held := kept, sup := v.tq.sup + gone.length } }

/-- A member stops at its next bundle boundary (R267, R420): fault-stopped or not, it becomes idle. -/
def killMember (c : Core) : Core :=
  if c.status = .frozen then { c with was := .idle }
  else { dropDelivered (landAll c) with status := .idle, held := {}, fetched := none, branch := none, trap := none, matrixFault := false }

/-- The entry of a control core ends as killed (R267, R263). -/
def finishKill (s : State) (k e : Nat) : State :=
  let m := entryOf s k e
  let s := forgetWrites s k m
  let s := withdraw s k e
  setEntry s k e { m with state := .killed, prgs := memberPrgs s k m, reads := [], writes := [] }

/-- Slot i of ring n of core j is undefined from now on (R6, R234). -/
def forgetSlot (s : State) (j n i : Nat) : State :=
  let r := ringOf (coreOf s j) n
  spmForget s j (slotBase r i) (r.sz * 64)

/-- A copy's request for a slot of ring n of core j withdrawn. -/
def unaskSlot (s : State) (j n k e : Nat) : State :=
  modCore s j fun c =>
    let r := ringOf c n
    setRing c n { r with want := r.want.filter (· != (k, e)) }

/-- A copy cancelled: its id completes, its ring slots and its place in the scale queue are released (R267); a
destination slot that it had taken is posted with undefined contents (R234). -/
def cancelCopy (s : State) (k e : Nat) (x : CopyEntry) : State :=
  let d := copyDesc x.desc
  let s := x.targets.foldl (fun st t =>
    if x.delivered.contains t.1 then st
    else modCore (forgetSlot st t.1 d.ring t.2) t.1 fun c => setRing c d.ring (ringProduced (ringOf c d.ring) t.2)) s
  let s := if x.bySeq ∨ d.rmode ≠ 1 then s
    else if x.op = 2 then d.targets.foldl (fun st t => match physCore st (k / 192) (vfOfCore st k) t with
      | some j => unaskSlot st j d.ring k e
      | none => st) s
    else match x.slot with
      | some i => forgetSlot s k d.ring i
      | none => unaskSlot s k d.ring k e
  modCore s k fun c =>
    let c := dropCopy c e
    if x.bySeq then { c with prgCmask := c.prgCmask &&& ~~~(1#32 <<< e) }
    else
      let c := idDone (settleSlot c x) x.channel x.id
      { c with sq := c.sq.filter fun i => match i with
          | .hole ch id _ _ => !(ch == x.channel && id == x.id)
          | .scale _ | .bad _ => true }

/-- Every copy of core k cancelled. -/
def cancelCopies (s : State) (k : Nat) : State := (coreOf s k).copies.foldl (fun st e => cancelCopy st k e.1 e.2) s

/-- The faulting entries of a killed member's record are discarded, and those of a bundle that will not issue
(R420). -/
def discardFaulted (c : Core) : Core :=
  let c := (c.loads.filter fun e => e.2.faulted || (e.2.kind == 2 && e.2.interlocked)).foldl (fun c e => dropLoad c e.1) c
  let c := (c.atomics.filter fun e => e.2.faulted || e.2.interlocked).foldl (fun c e => dropAtomic c e.1) c
  { c with replay := [], replayed := [] }

/-- The Col engine gives up the pass of an entry. -/
def dropPass (s : State) (vale k e : Nat) : State :=
  modVale s vale fun v => { v with
    pass := v.pass.filter fun p => !sameDispatch p.disp k e
    passQueue := v.passQueue.filter fun d => !sameDispatch d k e
    aside := v.aside.filter fun p => !sameDispatch p.disp k e }

/-- Core k waits at no `gjoin` any more (R75, R267). -/
def dropJoiner (s : State) (k : Nat) : State :=
  let n := logicalCore s k
  modVale s (k / 192) fun v => { v with
    gangs := v.gangs.map fun e => (e.1, if e.2.vf = vfOfCore s k then { e.2 with joiners := e.2.joiners.filter (· != n) } else e.2) }

/-- What a killed member leaves behind: its copies are cancelled, and the entries of its record that fault, or that a bundle
waits for, discarded (R267, R420). -/
def endMember (s : State) (k : Nat) : State := dropJoiner (modCore (cancelCopies s k) k discardFaulted) k

/-- The work of a killed entry is taken from its members: what executes ends with its copies, what is pending
never starts. -/
def clearMembers (s : State) (k e : Nat) : State :=
  let m := entryOf s k e
  let one := fun (st : State) (j : Nat) =>
    let st := modCore st j fun c => match c.seq.pend with
      | some d => if sameDispatch d k e then { c with seq := { c.seq with pend := none } } else c
      | none => c
    if executes st j k e then releaseSequencer (endMember st j) j else st
  (memberCores s (k / 8) (vfOfCtl s k) m.members).foldl one (dropPass s (k / 8) k e)

/-- M_KILL: a queued macro-instruction is removed at once; otherwise its members stop, and MACRO_KILLED ends it
(R267, R420). -/
def execMKill (rs1 : BitVec 5) (s : State) : Host.Outcome State Fault Refusal :=
  let s := bump s
  let k := s.ctl
  let c := curCtl s
  match named c (xGet c rs1.toNat) with
  | .entry e m =>
    if outstanding m then
      let queued := isQueued s k e m
      let s := unqueue s k e m
      if queued then .next (retire (finishKill s k e) 4)
      else
        let s := discardHeld s (vfOfCtl s k) m
        let cores := (memberCores s (k / 8) (vfOfCtl s k) m.members).filter fun j => executes s j k e
        let s := cores.foldl (fun st j => endMember (landOn st j (killMember (coreOf st j))) j) (dropPass s (k / 8) k e)
        .next (retire (modEntry s k e fun m => { m with state := .killing }) 4)
    else .next (retire s 4)
  | _ => .next (retire s 4)

/-- MACRO_KILLED: no member executes the entry any more, and its ranges are released (R267). -/
def execMacroKilled (k e : Nat) (s : State) : Host.Outcome State Fault Refusal :=
  let s := bump s
  if (entryOf s k e).state ≠ .killing ∨ (ctlOf s k).status = .frozen then .next s
  else
    let prgs := memberPrgs s k (entryOf s k e)
    let s := finishKill (clearMembers s k e) k e
    .next (modEntry s k e fun m => { m with prgs := prgs })

/-! ## MACRO_STOPPED (R411, R412) -/

/-- The gang for whose current episode core k waits: its own arrival is in an episode that has not completed, or it is held
at a `gjoin` (R75, R167, R411). -/
def waitsForGang (s : State) (k : Nat) : Option Nat :=
  let c := coreOf s k
  let inOpen := fun (g : Nat) => c.barriers.any fun e => e.2.gang == g
  let bySeq := c.seq.arrival.bind fun e => (c.barriers.find? e).map (·.gang)
  match fetchedBundle c with
  | some (.ok b) => match b.s with
    | some (.gbar g) | some (.phase g) | some (.gwait g) => if inOpen g.toNat then some g.toNat else bySeq
    | some (.gjoin g) =>
      if (gangOf s (k / 192) g.toNat).joiners.contains (logicalCore s k) then some g.toNat else bySeq
    | _ => bySeq
  | _ => bySeq

/-- Does the current episode of a gang wait for a fault-stopped member that has not arrived? -/
def episodeStuck (s : State) (vale g : Nat) : Bool :=
  let x := gangOf s vale g
  x.members.any fun n => !(x.arrived.any fun a => a.1 == n) && (match physCore s vale x.vf n with
    | some j => (coreOf s j).status == .stopped && !((coreOf s j).barriers.any fun e => e.2.gang == g && !e.2.acked)
    | none => false)

/-- Has a member passed its last assigned step, or of an `m.attn` every delivery that it has received? -/
def passedLast (c : Core) (d : Dispatch) : Bool :=
  if d.coll then true
  else if numAt d.desc 0 1 == 3 then c.seq.deliveries.all (·.key.isSome)
  else
    let m := macroOf d.desc d.t3
    decide (m.assigned c.seq.rank d.members.length ≤ c.prgStep) && !c.seq.ready

/-- Has a member ceased to advance (R411)? -/
def ceased (s : State) (k : Nat) (d : Dispatch) : Bool :=
  let c := coreOf s k
  c.status == .stopped || passedLast c d || (match waitsForGang s k with
    | some g => episodeStuck s (k / 192) g
    | none => false)

/-- Are a member's copies settled: completed, or on a fault-stopped member faulting, or waiting behind one that does
(R236, R412)? -/
def copiesSettled (s : State) (k : Nat) : Bool :=
  let c := coreOf s k
  c.copies.all fun e => c.status == .stopped && (e.2.faulted || behindCopy s k e.1 e.2)

end Sys2Proof.Machine
end

