-- ==== Sys2Proof/Machine/Coll.lean ====
section
/-! DEFINITION. Collectives (R274 to R283, R395, R445 to R447): issue, registrations, chunks and
completion; and SCOREBOARD_CLEAR, which grants what waits at the scoreboard (R66). Ranks of this module are read from
State; the ranks of other modules are outside: what comes from them is in the events' arguments. -/

namespace Sys2Proof.Machine

open Sys2Proof

/-! ## Issue checks (R274, R278, R395) -/

/-- The failing fields of a collective descriptor (R395). -/
def collFails (b : List Byte) (funct7 : Nat) : List Fail :=
  let d := collOf b
  let reduceTy := [0, 1, 2, 11, 12].contains (d.ty % 16)
  failing 3
    ([(d.op != funct7, 0), (numAt b 1 1 != 1, 1), (numAt b 2 1 / 4 != 0, 2), (d.fl / 2 != 0, 3)
      , (d.ty / 16 != 0 || d.ty % 16 == 15 || (d.reduces && !reduceTy), 4)
      , (if d.reduces then decide (2 < d.rop) else d.rop != 0, 5)
      , (d.np == 0 || decide (1024 < d.np), 6), (decide (d.np ≤ d.me), 8)
      , (!(d.op == 5 || d.op == 6 || d.op == 7) && d.peer != 0, 0xA)
      , (d.rbuf % 4096 != 0, 0x20)
      , ((d.ty % 16 == 5 && d.count % 2 == 1)
          || (decide (12 ≤ d.chk) && decide (d.chk ≤ 24) && decide (65536 < d.chunksOf (d.bytes (Nat.max d.windowParts (if d.op = 6 then 1 else 0))))), 0x28)
      , (decide (d.chk < 12) || decide (24 < d.chk), 0x30)]
      ++ (List.range 7).map (fun i => (numAt b (0x31 + i) 1 != 0, 0x31 + i))
      ++ (List.range 184).map (fun i => (numAt b (0x48 + i) 1 != 0, 0x48 + i)))

/-- A range of n bytes, none where it is empty. -/
def byteRange (lo n : Nat) : List VRange := if n = 0 then [] else [{ lo := lo, hi := (lo : Int) + (n : Int) }]

/-- Words of the chunk bitmap. -/
def CollDesc.bitmapWords (d : CollDesc) : Nat := (d.chunks + 63) / 64

/-- The ranges that a collective reads and writes (R278). -/
def collRanges (d : CollDesc) : List VRange × List VRange :=
  (byteRange d.sbuf (d.bytes d.sendParts),
    byteRange d.rbuf (d.bytes d.windowParts) ++ byteRange d.bmap (8 * d.bitmapWords))

/-! ## Matching (R276, R445) -/

/-- The counter that numbers an operation: group operations of a cid, or those of a pair of ranks. -/
def pairKey (d : CollDesc) : Nat :=
  match d.op with
  | 6 => 1 + 1024 * d.me + d.peer
  | 7 => 1 + 1024 * d.peer + d.me
  | _ => 0

/-- The number of the next operation of a kind, and the counters after it. -/
def nextOp (l : List (Nat × Nat × Nat)) (cid pair : Nat) : Nat × List (Nat × Nat × Nat) :=
  match l.find? fun e => e.1 == cid && e.2.1 == pair with
  | some e => (e.2.2 + 1, l.map fun x => if x.1 = cid ∧ x.2.1 = pair then (cid, pair, x.2.2 + 1) else x)
  | none => (1, l ++ [(cid, pair, 1)])

/-- The match key of a collective (R445): fields in the widths that they have in the descriptor. -/
def matchKey (d : CollDesc) (ptab : List Byte) : Word :=
  let op := if d.op = 7 then 6 else d.op
  let msg := leBytes 1 op ++ leBytes 1 d.ty ++ leBytes 1 d.rop ++ leBytes 1 d.fl ++ leBytes 2 d.np ++ leBytes 8 d.count
    ++ leBytes 1 d.chk ++ leBytes 2 (if d.op = 5 then d.peer else 0) ++ sha512 ptab
  BitVec.ofNat 64 (leNat ((sha512 msg).take 8))

/-! ## Pieces of chunks (R277, R279, R280) -/

/-- The bytes [lo, hi) of a window that rank r supplies, in window and send-buffer offsets; `none` where it
supplies none. -/
def CollDesc.supply (d : CollDesc) (r : Nat) : Option (Nat × Nat) :=
  let p := d.bytes 1
  match d.op with
  | 1 | 3 => some (0, p)
  | 2 | 4 => some (r * p, (r + 1) * p)
  | 5 => if r = d.peer then some (0, p) else none
  | 7 => if r = d.peer then some (0, p) else none
  | _ => none

/-- The window bytes [lo, hi) of chunk j that rank r supplies. -/
def CollDesc.piece (d : CollDesc) (r j : Nat) : Option (Nat × Nat) :=
  match d.supply r with
  | none => none
  | some (lo, hi) =>
    let a := Nat.max lo (j * 2 ^ d.chk)
    let b := Nat.min hi (Nat.min ((j + 1) * 2 ^ d.chk) (d.bytes d.windowParts))
    if a < b then some (a, b) else none

/-- Where byte a of rank r's window stands in this rank's send buffer (R277). -/
def CollDesc.source (d : CollDesc) (r a : Nat) : Nat :=
  match d.op with
  | 2 => d.sbuf + (a - d.me * d.bytes 1)
  | 3 => d.sbuf + r * d.bytes 1 + a
  | 4 => d.sbuf + r * d.bytes 1 + (a - d.me * d.bytes 1)
  | _ => d.sbuf + a

/-- The collective as rank r describes it: the peer's receipt for a send. -/
def CollDesc.atRank (d : CollDesc) (r : Nat) : CollDesc :=
  if d.op = 6 then { d with op := 7, me := r, peer := d.me } else { d with me := r }

/-- The chunks that this rank delivers to rank r, rising (R281). -/
def CollDesc.chunksTo (d : CollDesc) (r : Nat) : List Nat :=
  (List.range (d.atRank r).chunks).filter fun j => ((d.atRank r).piece d.me j).isSome

/-- The ranks that supply bytes of chunk j. -/
def CollDesc.suppliers (d : CollDesc) (j : Nat) : List Nat := (List.range d.np).filter fun r => (d.piece r j).isSome

/-- The fold of one element over the ranks' elements, in ascending rank order (R277). -/
def foldElems (ty : Ty) (rop : Nat) (sat : Bool) : List Nat → Nat × Flags
  | [] => (0, 0)
  | x :: xs =>
    xs.foldl (fun (a : Nat × Flags) y =>
      let (r, f) :=
        if rop ≠ 0 then minMax ty (rop == 2) a.1 y
        else if tyIsInt ty then
          let sum := intOf (tySigned ty) 32 a.1 + intOf (tySigned ty) 32 y
          let v := if ¬ sat then sum else if tySigned ty then satS sum 32 else satU sum 32
          ((v % 2 ^ 32).toNat, flagIf (sat && v != sum) fSat)
        else
          let fmt := (floatFmt ty).getD fmt32
          let (v, iv) := addExact .rne (decodeFloat fmt a.1) (decodeFloat fmt y)
          let (r, f) := roundArith fmt .rne false v
          (r, f ||| flagIf iv fNv)
      (r, a.2 ||| f)) (x, 0)

/-- The fold of chunk pieces of the same length. -/
def foldPieces (d : CollDesc) (pieces : List (List Byte)) : List Byte × Flags :=
  let ty := (tyOf (d.ty % 16)).getD .fp32
  let e := d.width / 8
  let n := (pieces.getD 0 []).length / e
  let r := (List.range n).map fun i => foldElems ty d.rop (d.fl % 2 == 1) (pieces.map fun p => numAt p (i * e) e)
  (r.flatMap fun x => leBytes e x.1, r.foldl (fun (a : Flags) x => a ||| x.2) 0)

/-! ## Issue (R66, R274, R279, R445) -/

/-- Zeros stored by the running control core in n words from an address: the chunk bitmap is cleared (R279). -/
def clearWords (s : State) (va : Nat) : Nat → Except State State
  | 0 => .ok s
  | n + 1 =>
    match ctlStoreAddr s va 8 with
    | .wait => .error (ctlWait s)
    | .trap c a s' => .error (raise s' c (BitVec.ofNat 64 a))
    | .ok pa s' => clearWords (physWrite s' pa (leBytes 8 0)) (va + 8) n

/-- A granted collective: its number, its key, its registrations and its window (R276, R279, R445); it stops where no link
leads to a peer (R448). -/
def beginColl (s : State) (e : Nat) (d : CollDesc) (ptab : List Byte) : State :=
  let k := s.ctl
  let (n, counts) := nextOp (ctlOf s k).opCount d.cid (pairKey d)
  let s := modCtl s k fun c => { c with opCount := counts }
  let key := matchKey d ptab
  let s := modCtl s k fun c => { c with sent := c.sent ++ [(d.cid, pairKey d, n, key)] }
  let s := modEntry s k e fun m => { m with coll := { opNumber := n, key := key } }
  stopUnreached (openWindow s k e) k e

/-- What the running control core holds is granted, a collective with its bitmap cleared before. -/
def grant (s : State) : State :=
  match (curCtl s).held with
  | none => s
  | some h =>
    if !h.isColl then (tryGrant s).2
    else
      let d := collOf h.desc
      if (takeEntry (curCtl s)).isNone || conflicts (curCtl s) h.reads h.writes || heldRefused s h then (tryGrant s).2
      else match clearWords s d.bmap d.bitmapWords with
        | .error s' => s'
        | .ok s =>
          match tryGrant s with
          | (some e, s) => beginColl s e d h.t3
          | (none, s) => s

/-- The issue of a collective (R66, R274, R395). -/
def issueColl (op : Nat) (f : XF) (s : State) : State :=
  let c := curCtl s
  match c.held with
  | some _ => grant s
  | none =>
    let va := (xGet c f.rs1.toNat).toNat
    let g := xGet c f.rs2.toNat
    match readBlock s va 32 64 with
    | .error s' => s'
    | .ok (b, s) =>
      match firstFail (collFails b op) with
      | some (kind, off) => issueStop s 0x15 va (kind * 2 ^ 16 + off)
      | none =>
        let d := collOf b
        match readBlock s d.ptab (2 * d.np) 8 with
        | .error s' => s'
        | .ok (pt, s) =>
          if gangRefused s g then issueIllegal s
          else
            let h : HeldMacro :=
              { op := op, isColl := true, rd := f.rd.toNat, gang := g.toNat % 64, desc := b, t3 := pt
                descAddr := BitVec.ofNat 64 va, reads := (collRanges d).1, writes := (collRanges d).2 }
            grant (modCtl s s.ctl fun c => { c with held := some h })

/-- C_ARED: an all-reduce (R277). -/
def execCAred (f : XF) (s : State) : Host.Outcome State Fault Refusal := .next (issueColl 1 f (bump s))
/-- C_ARED_R: its resume form (R282). -/
def execCAredR (f : XF) (s : State) : Host.Outcome State Fault Refusal := .next (resumeForm 1 true f (bump s))
/-- C_AGAT: an all-gather (R277). -/
def execCAgat (f : XF) (s : State) : Host.Outcome State Fault Refusal := .next (issueColl 2 f (bump s))
/-- C_AGAT_R: its resume form (R282). -/
def execCAgatR (f : XF) (s : State) : Host.Outcome State Fault Refusal := .next (resumeForm 2 true f (bump s))
/-- C_RSCT: a reduce-scatter (R277). -/
def execCRsct (f : XF) (s : State) : Host.Outcome State Fault Refusal := .next (issueColl 3 f (bump s))
/-- C_RSCT_R: its resume form (R282). -/
def execCRsctR (f : XF) (s : State) : Host.Outcome State Fault Refusal := .next (resumeForm 3 true f (bump s))
/-- C_A2A: an all-to-all (R277). -/
def execCA2a (f : XF) (s : State) : Host.Outcome State Fault Refusal := .next (issueColl 4 f (bump s))
/-- C_A2A_R: its resume form (R282). -/
def execCA2aR (f : XF) (s : State) : Host.Outcome State Fault Refusal := .next (resumeForm 4 true f (bump s))
/-- C_BCST: a broadcast (R277). -/
def execCBcst (f : XF) (s : State) : Host.Outcome State Fault Refusal := .next (issueColl 5 f (bump s))
/-- C_BCST_R: its resume form (R282). -/
def execCBcstR (f : XF) (s : State) : Host.Outcome State Fault Refusal := .next (resumeForm 5 true f (bump s))
/-- C_SEND: a send to a peer (R277). -/
def execCSend (f : XF) (s : State) : Host.Outcome State Fault Refusal := .next (issueColl 6 f (bump s))
/-- C_SEND_R: its resume form (R282). -/
def execCSendR (f : XF) (s : State) : Host.Outcome State Fault Refusal := .next (resumeForm 6 true f (bump s))
/-- C_RECV: a receipt from a peer (R277). -/
def execCRecv (f : XF) (s : State) : Host.Outcome State Fault Refusal := .next (issueColl 7 f (bump s))
/-- C_RECV_R: its resume form (R282). -/
def execCRecvR (f : XF) (s : State) : Host.Outcome State Fault Refusal := .next (resumeForm 7 true f (bump s))
/-- C_BAR: a barrier (R277). -/
def execCBar (f : XF) (s : State) : Host.Outcome State Fault Refusal := .next (issueColl 8 f (bump s))
/-- C_BAR_R: its resume form (R282). -/
def execCBarR (f : XF) (s : State) : Host.Outcome State Fault Refusal := .next (resumeForm 8 true f (bump s))

/-- SCOREBOARD_CLEAR: a control core that waits at the scoreboard takes its entry, once no older entry conflicts
(R66, R70). -/
def execScoreboardClear (k : Nat) (s : State) : Host.Outcome State Fault Refusal :=
  let s := bump { s with ctl := k }
  if (curCtl s).status = .waiting then .next (grant s) else .next s

/-! ## Peers (R281, R283, R445, R446) -/

/-- The window of an entry of logical slice n, while it is registered. -/
def windowOpen (s : State) (vf n e : Nat) : Bool := (vfOf s vf).windows.any fun w => w.slice == n && w.entry == e

/-- The entry of the control core of logical slice n of a virtual function. -/
def sliceEntry (s : State) (vf n e : Nat) : MacroEntry := (sliceCtl s vf n).macros.get {} e

/-- That entry changed by f. -/
def modSliceEntry (s : State) (vf n e : Nat) (f : MacroEntry → MacroEntry) : State :=
  modSliceCtl s vf n fun c => { c with macros := c.macros.put {} e (f (c.macros.get {} e)) }

/-- Whose collective entry e of the control core of slice k is: the virtual function bound there, or one whose context
is unbound (R433), with its logical slice. -/
def collOwner (s : State) (k e : Nat) : Option (Nat × Nat) :=
  let l := (vfOfSlice s k).toList ++ List.range 32
  l.findSome? fun vf => (indexIn k 0 (logicalSlices s vf)).bind fun n =>
    let m := sliceEntry s vf n e
    if m.isColl && outstanding m then some (vf, n) else none

/-- The entry of a rank of this module for the operation that an entry performs: virtual function, logical slice, index and
contents. -/
def peerEntry (s : State) (m : MacroEntry) (r : Nat) : Option (Nat × Nat × Nat × MacroEntry) :=
  let (_, vf, sl) := participant m.t3 r
  let d := collOf m.desc
  let same := fun (x : Nat × MacroEntry) =>
    let y := collOf x.2.desc
    x.2.isColl && outstanding x.2 && y.cid == d.cid && pairKey y == pairKey d && y.me == r && x.2.coll.opNumber == m.coll.opNumber
  if rankHere s m.t3 r then (List.find? same (sliceCtl s vf sl).macros).map fun x => (vf, sl, x.1, x.2) else none

/-- Has a rank of this module withdrawn the window of the operation that an entry performs? A window that it opens for a later
one changes nothing (R446). Ranks of other modules tell it by events only. -/
def withdrawnHere (s : State) (m : MacroEntry) (r : Nat) : Bool :=
  rankHere s m.t3 r && (match peerEntry s m r with
    | some (vf, sl, e, _) => !windowOpen s vf sl e
    | none => true)

/-- A peer as the sender sees it now: one of this module is absent once its window has gone before every chunk landed. -/
def peerNow (s : State) (m : MacroEntry) (r : Nat) : Peer :=
  let p := m.coll.peers.get {} r
  let d := collOf m.desc
  if p.registered && withdrawnHere s m r && (d.chunksTo r).any (fun j => !p.landed.contains j) then { p with absent := true }
  else p

/-- Did a rank of this module send a registration for an operation number with a key (R445)? -/
def sentHere (s : State) (m : MacroEntry) (r : Nat) (key : Word) (n : Nat) : Bool :=
  let (_, vf, sl) := participant m.t3 r
  let d := collOf m.desc
  (sliceCtl s vf sl).sent.contains (d.cid, pairKey d, n, key)

/-- The member that serves a chunk of an entry of control core k: which one the manual leaves open. -/
def chunkMember (s : State) (k : Nat) (m : MacroEntry) (j : Nat) : Option Nat :=
  let n := m.members.length
  if n = 0 then none
  else physCore s (k / 8) (vfOfCtl s k) (m.members.getD ((Config.undefined m.tag.toNat (700 + j)).toNat % n) 0)

/-- The chunk that is on its way to a peer: the next that it has not acknowledged, while its window is registered (R281). -/
def nextTo (s : State) (m : MacroEntry) (r : Nat) : Option Nat :=
  let p := peerNow s m r
  if p.registered && !p.absent then ((collOf m.desc).chunksTo r)[p.acked]? else none

/-- The members' `prg.cmask` shows the chunk copies on their way: the bit of a chunk is its index modulo 32 (R282; log entry
150). -/
def showCopies (s : State) (k e : Nat) : State :=
  let m := entryOf s k e
  let under := (collOf m.desc).others.filterMap fun r => (nextTo s m r).bind fun j => (chunkMember s k m j).map fun c => (c, j)
  if ¬ m.isColl ∨ (ctlOf s k).status = .frozen then s
  else ((memberCores s (k / 8) (vfOfCtl s k) m.members).filter fun c => executes s c k e).foldl (fun st c =>
    modCore st c fun x => { x with
      prgCmask := under.foldl (fun a y => if y.1 = c then a ||| (1#32 <<< (y.2 % 32)) else a) 0 }) s

/-- A peer's match key for the operation differs from the entry's own: cause 0x16, which ends the launch (R445). -/
def mismatchStop (s : State) (vf sl k : Nat) (m : MacroEntry) (r : Nat) : State :=
  let rec_ := mkRecord s vf (k / 8) 1 sl 0x16 1 m.pc.toNat 0 m.tag.toNat (r * 2 ^ 48)
  postFatal (modSliceCtl s vf sl fun c => if c.status = .frozen then c else { c with status := .stopped }) vf rec_

/-- COLLECTIVE_REGISTRATION: a peer's registration for an operation number with its match key; a rank of this module sends
one when it issues, and no other (R445, R446). -/
def execCollectiveRegistration (k e r : Nat) (key : Word) (n : Nat) (s : State) : Host.Outcome State Fault Refusal :=
  let s := bump s
  match collOwner s k e with
  | none => .next s
  | some (vf, sl) =>
    let m := sliceEntry s vf sl e
    let d := collOf m.desc
    if ¬ d.others.contains r ∨ (rankHere s m.t3 r = true ∧ sentHere s m r key n = false) then .next s
    else
      let p := m.coll.peers.get {} r
      let put := fun (q : Peer) => modSliceEntry s vf sl e fun m => { m with
        coll := { m.coll with peers := m.coll.peers.put {} r q } }
      if n < m.coll.opNumber then .next s
      else if m.coll.opNumber < n then .next (put { p with absent := true })
      else if key ≠ m.coll.key then .next (mismatchStop s vf sl k m r)
      else .next (showCopies (put { p with registered := true, absent := false }) k e)

/-! ## What a member reads and delivers (R277, R281, R282) -/

/-- Can a member work for the collective now? -/
def memberWorks (s : State) (j k e : Nat) : Bool :=
  executes s j k e && (coreOf s j).status == .idle && (coreOf s j).replay.isEmpty

/-- The member's progress registers show the chunk and the stage (R282). -/
def showChunk (s : State) (j chunk stage : Nat) (fl : Flags) : State :=
  modCore s j fun c => { setIndices c [chunk, stage] with astat := astatMerge c.astat fl }

/-- The bytes that one rank sends to another, read by its member. -/
inductive PeerData where
  | wait
  /-- the member met a finding: core, address, finding -/
  | bad (core va : Nat) (f : Finding)
  /-- the peer's match key differs (R445) -/
  | mismatch
  /-- the bytes, and which of their 8-byte words are poisoned; the member, its control core, and where they stand -/
  | data (core ctl src : Nat) (bytes : List Byte) (bad : List Nat)

/-- The chunk of a send buffer that its own rank has taken into its fold already: what an all-reduce in place sends stays what
it was (R277). -/
def foldedPiece (m : MacroEntry) (j : Nat) : Option (List Byte) :=
  let d := collOf m.desc
  if d.op = 1 then m.coll.pieces.find? (65536 * d.me + j) else none

/-- The poisoned 8-byte words of n bytes at a virtual address, numbered from it. -/
def badWords (s : State) (vf va n : Nat) : List Nat :=
  if s.mem.poison.isEmpty then []
  else (List.range ((n + 7) / 8)).filter fun i => vaPoisoned s vf (va + 8 * i) (Nat.min 8 (n - 8 * i))

/-- n bytes of an entry's send buffer read by the member that serves a chunk, for window bytes from a of rank r: the entry
runs on a bound context, its control core is not frozen, and the member can work. -/
def readSent (s : State) (vf k e : Nat) (m : MacroEntry) (r j a n : Nat) : PeerData :=
  let core := (chunkMember s k m j).getD 0
  let src := (collOf m.desc).source r a
  if m.state ≠ .running ∨ ¬ m.dispatched ∨ vfOfSlice s k ≠ some vf ∨ (ctlOf s k).status = .frozen
    ∨ ¬ memberWorks s core k e ∨ vaHeld s vf src n = true then .wait
  else match foldedPiece m j, vaRead s vf src n with
    | some bytes, _ => .data core k src bytes []
    | none, .error (va, f) => .bad core va f
    | none, .ok bytes => .data core k src bytes (badWords s vf src n)

/-- What rank r sends to an entry for window bytes [lo, hi) of chunk j: the own part; a rank of this module that has the
receiver's registration; or the bytes that came over the fabric with their poison. -/
def sentBy (s : State) (vf k e : Nat) (m : MacroEntry) (r j lo n : Nat) (data : List Byte) (bad : List Nat) : PeerData :=
  let d := collOf m.desc
  if r = d.me then readSent s vf k e m r j lo n
  else if !rankHere s m.t3 r then (if data.length = n then .data 0 0 0 data bad else .wait)
  else match peerEntry s m r with
    | none => .wait
    | some (pvf, psl, pe, pm) =>
      let p := peerNow s pm d.me
      if pm.coll.key ≠ m.coll.key then .mismatch else
      match (logicalSlices s pvf)[psl]? with
      | none => .wait
      | some pk => if p.registered && !p.absent then readSent s pvf pk pe pm d.me j lo n else .wait

/-- The link that a delivery to a node takes. -/
def linkTo (s : State) (node : Nat) : Nat :=
  ((List.range 36).find? fun k => s.io.links.getLsbD k && Config.linkReaches k node).getD 0

/-- The member's read of n bytes of its send buffer touches their lines, and the delivery is charged: the read, and its way
over the mesh or a link (R121, R346). -/
def chargeDelivery (s : State) (k core src n : Nat) (vf node : Nat) : State :=
  let s := vaTouch s vf src n
  let s := match translateVf s vf src 0 with
    | .ok pa => chargeCoreAccess s core pa
    | .error _ => chargeCore s core
  charge s (if node = s.io.mdnode.toNat then .mesh (k / 8) else .link (linkTo s node)) vf (cidOfSlice s k)

/-- CHUNK_ACK: a peer acknowledges the next of its chunks (R281): on this module once it has landed there; on another, the
member has read the chunk and delivered it. -/
def execChunkAck (k e r : Nat) (s : State) : Host.Outcome State Fault Refusal :=
  let s := bump s
  let m := entryOf s k e
  let d := collOf m.desc
  let p := m.coll.peers.get {} r
  let counted := fun (s : State) => showCopies (modEntry s k e fun m => { m with
    coll := { m.coll with peers := m.coll.peers.put {} r { p with acked := p.acked + 1 } } }) k e
  if ¬ m.isColl ∨ m.state ≠ .running ∨ (ctlOf s k).status = .frozen ∨ ¬ d.others.contains r ∨ ¬ p.registered then .next s
  else match (d.chunksTo r)[p.acked]? with
  | none => .next s
  | some j =>
    if rankHere s m.t3 r then .next (if p.landed.contains j then counted s else s)
    else if p.absent then .next s
    else if unreached s m.t3 r then .next (stopUnreached s k e)
    else match (d.atRank r).piece d.me j with
      | none => .next s
      | some (lo, hi) =>
        match readSent s (vfOfCtl s k) k e m r j lo (hi - lo) with
        | .wait => .next s
        | .bad core va f => .next (stopCore s core f.cause 0 va (info399 f 0 4 0xFF 0))
        | .mismatch => .next s
        | .data core _ src bytes _ =>
          .next (counted (showChunk (chargeDelivery s k core src bytes.length (vfOfCtl s k) (participant m.t3 r).1) core j 0 0))

/-! ## Chunks (R279, R280, R339, R447) -/

/-- The bit of a landed chunk set in the bitmap, after the chunk's data (R280). -/
def setChunkBit (s : State) (vf : Nat) (d : CollDesc) (j : Nat) : State :=
  let a := d.bmap + j / 64 * 8
  match vaRead s vf a 8 with
  | .error _ => s
  | .ok bs => vaWrite s vf a (leBytes 8 (leNat bs ||| 2 ^ (j % 64)))

/-- Does the change of a chunk's bit wait for parked writes of its word, or for room to park it (R120)? -/
def bitWaits (s : State) (vf : Nat) (d : CollDesc) (j : Nat) : Bool :=
  let a := d.bmap + j / 64 * 8
  vaHeld s vf a 8 || (match translateVf s vf a 1 with
    | .ok pa => updateWaits s pa 8
    | .error _ => false)

/-- Do the pages of a range translate for a write? -/
def pagesWritable (s : State) (vf lo hi : Nat) : Bool :=
  (List.range (hi / 65536 + 1 - lo / 65536)).all fun i =>
    match translateVf s vf (Nat.max lo ((lo / 65536 + i) * 65536)) 1 with
    | .ok _ => true
    | .error _ => false

/-- Does a write of n bytes wait, because a line of it finds no room for parking (R409), or its translation meets parked
writes? -/
def writeWaits (s : State) (vf va n : Nat) : Bool :=
  anyParked s && (linesOf va n).any fun l => walkHeld s none vf (128 * l) || (match translateVf s vf (128 * l) 1 with
    | .ok pa => parkFull s pa
    | .error _ => false)

/-- The poison of send-buffer words moved with them into the window at a virtual address (R378, R447). -/
def movePoisonVa (s : State) (vf dst : Nat) (bad : List Nat) : State :=
  bad.foldl (fun st i => match translateVf st vf (dst + 8 * i) 1 with
    | .ok pa => physPoison st [pa / 8]
    | .error _ => st) s

/-- Has every supplier's piece of chunk j come? -/
def chunkReady (d : CollDesc) (c : Coll) (j : Nat) : Bool :=
  (d.suppliers j).all fun r => (c.pieces.find? (65536 * r + j)).isSome

/-- The suppliers of a chunk that are on this module learn that it has landed (R281). -/
def tellLanded (s : State) (m : MacroEntry) (j : Nat) : State :=
  let d := collOf m.desc
  ((d.suppliers j).filter (· != d.me)).foldl (fun st r => match peerEntry st m r with
    | some (vf, sl, e, _) => modSliceEntry st vf sl e fun x => { x with coll := { x.coll with
        peers := x.coll.peers.modify {} d.me fun p => { p with landed := p.landed ++ [j] } } }
    | none => st) s

/-- A chunk lands: its bit is set and it counts (R280). -/
def landChunk (s : State) (vf sl e : Nat) (d : CollDesc) (j : Nat) : State :=
  let s := modSliceEntry (setChunkBit s vf d j) vf sl e fun m => { m with coll := { m.coll with landed := m.coll.landed ++ [j] } }
  tellLanded s (sliceEntry s vf sl e) j

/-- Bytes of chunk j of a window. -/
def CollDesc.chunkBytes (d : CollDesc) (j : Nat) : Nat := Nat.min ((j + 1) * 2 ^ d.chk) (d.bytes d.windowParts) - j * 2 ^ d.chk

/-- The chunks that stand whole in the window land, those apart whose bytes, or whose bitmap word, are only parked
(R120, R280). -/
def landWhole (s : State) (vf sl e : Nat) : State :=
  let m := sliceEntry s vf sl e
  let d := collOf m.desc
  m.coll.whole.foldl (fun st j =>
    if (sliceEntry st vf sl e).coll.landed.contains j || vaHeld st vf (d.rbuf + j * 2 ^ d.chk) (d.chunkBytes j) || bitWaits st vf d j
    then st else landChunk st vf sl e d j) s

/-- A piece of chunk j taken into the record of what has been received; another rank's with its tag. -/
def takePiece (s : State) (vf sl e r j : Nat) (d : CollDesc) (tag : Word) (bytes : List Byte) : State :=
  modSliceEntry s vf sl e fun m => { m with coll := { m.coll with
    pieces := m.coll.pieces.insert (65536 * r + j) (if d.reduces then bytes else [])
    tags := if r = d.me then m.coll.tags else storeTag m.coll.tags r tag } }

/-- The tag of the next delivery of a rank of this module that control core k runs: containment ID, rank, and the count of the
rank's deliveries (R339, R359). -/
def deliveryTag (s : State) (k r : Nat) : Word :=
  BitVec.ofNat 64 (cidOfSlice s k * 2 ^ 52 + r % 4096 * 2 ^ 40 + (ctlOf s k).sendSeq.get 0 r % 2 ^ 40)

/-- Chunk j stands whole in the window. -/
def noteWhole (s : State) (vf sl e j : Nat) : State :=
  modSliceEntry s vf sl e fun m => { m with coll := { m.coll with whole := m.coll.whole ++ [j] } }

/-- A combining member folds the pieces of chunk j into the window (R277, R280). -/
def combine (s : State) (vf sl e j core : Nat) (d : CollDesc) : State :=
  let c := (sliceEntry s vf sl e).coll
  let (bytes, fl) := foldPieces d ((List.range d.np).map fun r => (c.pieces.find? (65536 * r + j)).getD [])
  let s := vaWrite s vf (d.rbuf + j * 2 ^ d.chk) bytes
  noteWhole (showChunk (chargeCore s core) core j 1 fl) vf sl e j

/-- The charge of a window's line that takes a piece, to the receiver's context (R346). -/
def chargeWindow (s : State) (vf k va : Nat) : State :=
  match translateVf s vf va 1 with
  | .ok pa => chargeAccess s (k / 8) pa vf (contextCid s vf (k / 8)).toNat
  | .error _ => s

/-- The windows of a virtual function that a removal of translations leaves without a page are withdrawn (R279). -/
def withdrawUnmapped (s : State) (vf : Nat) (inside : Nat → Bool) : State :=
  let gone := fun (w : Window) =>
    let d := collOf (sliceEntry s vf w.slice w.entry).desc
    let n := d.bytes d.windowParts
    decide (0 < n) && (List.range ((d.rbuf + n - 1) / 65536 + 1 - d.rbuf / 65536)).any fun i =>
      let a := Nat.max d.rbuf ((d.rbuf / 65536 + i) * 65536)
      inside a && !pagesWritable s vf a a
  modVf s vf fun v => { v with windows := v.windows.filter fun w => !gone w }

/-- Rank r's bytes for chunk j, with their poisoned words, arrive at the registered window, of a bound context or not. The own
part, and that of another rank of this module, comes from its send buffer, by a member of its gang, under a tag that it makes;
a delivery of another module whose tag the receiver stores is not applied again; a window whose pages are unmapped is withdrawn
(R277, R279 to R281, R359, R433, R447). -/
def deliverChunk (s : State) (k e r j : Nat) (tag : Word) (data : List Byte) (poison : List Nat) : State :=
  match collOwner s k e with
  | none => s
  | some (vf, sl) =>
    let m := sliceEntry s vf sl e
    let d := collOf m.desc
    let here := rankHere s m.t3 r || r == d.me
    if !windowOpen s vf sl e then s
    else match d.piece r j with
      | none => landWhole s vf sl e
      | some (lo, hi) =>
        let n := hi - lo
        let core := (chunkMember s k m j).getD 0
        if (!here && m.coll.tags.any (fun t => t.1 == r && t.2 == tag)) || (m.coll.pieces.find? (65536 * r + j)).isSome
          || (d.reduces && !(vfOfSlice s k == some vf && memberWorks s core k e))
          || writeWaits s vf (d.rbuf + lo) n then landWhole s vf sl e
        else if !pagesWritable s vf (d.rbuf + lo) (d.rbuf + hi - 1) then
          modVf s vf fun v => { v with windows := v.windows.filter fun w => !(w.slice == sl && w.entry == e) }
        else match sentBy s vf k e m r j lo n data poison with
          | .wait => s
          | .mismatch => mismatchStop s vf sl k m r
          | .bad at_ va f => stopCore s at_ f.cause 0 va (info399 f 0 4 0xFF 0)
          | .data at_ pk src bytes bad =>
            if !bad.isEmpty && d.reduces then
              stopReplayable s core 3 0 (if r = d.me then src else d.rbuf + lo) (info399 { cause := 3 } 0 1 0xFF 0) 0
            else
              let tag := if here then deliveryTag s pk r else tag
              let s := if here then showChunk (chargeDelivery s k at_ src n (vfOfCtl s pk) s.io.mdnode.toNat) at_ j 0 0 else s
              let s := if here && r != d.me then modCtl s pk fun c => { c with sendSeq := c.sendSeq.put 0 r (c.sendSeq.get 0 r + 1) } else s
              let s := chargeWindow s vf k (d.rbuf + lo)
              let s := takePiece s vf sl e r j d tag bytes
              let whole := chunkReady d (sliceEntry s vf sl e).coll j
              if d.reduces then (if whole then landWhole (combine s vf sl e j core d) vf sl e else s)
              else
                let s := movePoisonVa (vaWrite s vf (d.rbuf + lo) bytes) vf (d.rbuf + lo) bad
                if whole then landWhole (noteWhole s vf sl e j) vf sl e else s

/-- CHUNK_DELIVERY: rank r's bytes for chunk j arrive, for the operation and under the key of the entry, all of them sound. -/
def execChunkDelivery (k e r j : Nat) (tag : Word) (data : List Byte) (s : State) : Host.Outcome State Fault Refusal :=
  .next (deliverChunk (bump s) k e r j tag data [])

/-- A delivery of another module with its header flit (R445 to R447): one for an operation before or after that of the window
waits, or is its sender's to hold; one with another match key stops the collective. -/
def headedDelivery (s : State) (k e r j : Nat) (tag : Word) (n : Nat) (key : Word) (data : List Byte) (poison : List Nat) : State :=
  match collOwner s k e with
  | none => s
  | some (vf, sl) =>
    let m := sliceEntry s vf sl e
    if rankHere s m.t3 r ∨ ¬ (collOf m.desc).others.contains r ∨ n ≠ m.coll.opNumber then s
    else if key ≠ m.coll.key then mismatchStop s vf sl k m r
    else deliverChunk s k e r j tag data poison

/-! ## Completion (R282) -/

/-- Has a peer registered where it must, and acknowledged every chunk delivered to it? -/
def peerDone (d : CollDesc) (m : MacroEntry) (r : Nat) : Bool :=
  let p := m.coll.peers.get {} r
  p.acked == d.deliveries r && (p.registered || !(d.op == 8 || d.count == 0))

/-- COLLECTIVE_COMPLETE: the window has landed, its bitmap has performed, every peer has acknowledged, and every member has
finished (R118, R282). -/
def execCollectiveComplete (k e : Nat) (s : State) : Host.Outcome State Fault Refusal :=
  let s := bump s
  let s := if (entryOf s k e).isColl then landWhole s (vfOfCtl s k) (logicalSlice s k) e else s
  let m := entryOf s k e
  let d := collOf m.desc
  let cores := memberCores s (k / 8) (vfOfCtl s k) m.members
  if ¬ m.isColl ∨ m.state ≠ .running ∨ ¬ m.dispatched ∨ (ctlOf s k).status = .frozen
    ∨ m.coll.landed.length ≠ d.chunks ∨ vaHeld s (vfOfCtl s k) d.bmap (8 * d.bitmapWords) = true ∨ ¬ d.others.all (peerDone d m)
    ∨ ¬ cores.all (fun j => executes s j k e && (coreOf s j).status == .idle) then .next s
  else
    let prgs := memberPrgs s k m
    let s := withdraw s k e
    let s := modEntry s k e fun m => { m with state := .completed, reads := [], writes := [], prgs := prgs }
    .next (cores.foldl releaseSequencer s)

/-- The collective status that `m.stat` reads (R283). -/
def collStatus (s : State) (m : MacroEntry) : Nat :=
  let d := collOf m.desc
  let l := d.others.map fun r => (r, peerNow s m r)
  let open_ := l.filter fun e => m.state != .completed && (!e.2.registered || e.2.absent)
  let low := match open_ with
    | e :: _ => e.1
    | [] => 0
  let wt := if open_.any (fun e => !e.2.absent) then 1 else 0
  let ab := if open_.any (fun e => e.2.absent) then 1 else 0
  low * 2 ^ 52 + ab * 2 ^ 33 + wt * 2 ^ 32 + m.coll.landed.length

end Sys2Proof.Machine
end

