-- ==== Sys2Proof/Machine/CtlCsr.lean ====
section
/-! DEFINITION. The CSRs of a control core: those of the privileged architecture and those of the module (R4, R65,
R102, R269 to R272, R286, R351, R356, R370 to R375). -/

namespace Sys2Proof.Machine

open Sys2Proof

/-- How a CSR write ends: done, waiting, refused as an illegal instruction, or with an exception of its own. -/
inductive CsrEnd where
  | ok (s : State)
  | wait
  | illegal
  | trap (cause va : Nat) (s : State)

/-- The virtual function of the running control core. -/
def curVf (s : State) : Nat := vfOfCtl s s.ctl

/-- The Vale of the running control core. -/
def curVale (s : State) : Nat := s.ctl / 8

/-! ## `lndone` (R65, R374) -/

/-- The running control core finishes its part with an exit code. After a fatal end the code is ignored (R374). -/
def writeLndone (s : State) (w : Word) : CsrEnd :=
  let c := curCtl s
  if c.macros.any fun e => outstanding e.2 then .wait
  else
    let vf := curVf s
    let k := logicalSlice s s.ctl
    let s := modCtl s s.ctl fun c => { c with status := .idle }
    match (vfOf s vf).launch with
    | none => .ok s
    | some l =>
      if l.ending ∨ l.pending ∨ ¬ (l.parts.any fun p => p.1 == k) then .ok s
      else
        let code := Nat.max l.code (w.toNat % 256)
        let l := { l with code := code, done := insertRising k l.done }
        if l.parts.all fun p => l.done.contains p.1 then .ok (endLaunch s vf code)
        else .ok (modVf s vf fun v => { v with launch := some l })

/-! ## `dtlbi` (R102, R289, R305) -/

/-- The stash lines of core k whose virtual address lies in given pages leave the stash: clean ones dropped, owned
ones released, dirty bytes to pending entries (R102). -/
def dropLines (s : State) (k : Nat) (inside : Nat → Bool) : State :=
  let c := coreOf s k
  let gone := c.stash.filter fun e => inside e.2.va
  let s := gone.foldl (fun st e =>
    if e.2.owned then match homeVale e.2.pa with
      | some v => modVale st v fun w => { w with owners := w.owners.erase (e.2.pa / 128) }
      | none => st
    else st) s
  let s := setCore s k (gone.foldl (fun c e => toPending c e.1 e.2) c)
  if gone.isEmpty then s else overflowAt s k

/-- A monitor entry after the translation of its line has been removed (R172, R289). -/
def fireVa (inside : Nat → Bool) (m : Monitor) : Monitor :=
  match m with
  | .armed none l va _ => if inside va then .fired 1 none l va else m
  | x => x

/-- The entries of a context's saved stashes moved to pending entries as on a bound core. -/
def dropSaved (inside : Nat → Bool) (c : Core) : Core :=
  (c.stash.filter fun e => inside e.2.va).foldl (fun c e => toPending c e.1 e.2) c

/-- A pass that an invalidation of its pages reaches is to walk again when it next runs after a stop or a freeze (R305). -/
def Pass.reach (p : Pass) (vf : Nat) (inside : Nat → Bool) : Pass :=
  if p.vf = vf ∧ p.unserved inside = true then { p with rewalk := true } else p

/-- A virtual function's translations that `hit` holds of, the pointers that `ptr` holds of, and the addresses that
`inside` holds of, removed from every TLB, pointer cache, stash and monitor of the module. -/
def dropTranslations (s : State) (vf : Nat) (hit : TlbEntry → Bool) (ptr : PtrEntry → Bool) (inside : Nat → Bool) : State :=
  let gone := fun (t : TlbEntry) => t.vf == vf && hit t
  let mine := (s.cores.filter fun e => vfOfSlice s (sliceOfCore e.1) == some vf).map (·.1)
  let ctls := (s.ctls.filter fun e => vfOfSlice s e.1 == some vf).map (·.1)
  let s := { s with
    cores := s.cores.map fun e => (e.1, { e.2 with tlb := e.2.tlb.filter fun t => !gone t })
    vales := s.vales.map fun e => (e.1, { e.2 with
      tlb := e.2.tlb.filter fun t => !gone t
      ptrs := e.2.ptrs.filter fun p => !(p.vf == vf && ptr p)
      pass := e.2.pass.map fun p => p.reach vf inside
      aside := e.2.aside.map fun p => p.reach vf inside })
    contexts := s.contexts.map fun e =>
      if e.1 / 8 = vf then (e.1, { e.2 with image := e.2.image.map fun i => { i with
        cores := i.cores.map fun c => (c.1, dropSaved inside c.2)
        passes := i.passes.map fun p => p.reach vf inside } }) else e }
  let s := mine.foldl (fun st k =>
    modCore (dropLines st k inside) k fun c => { c with monitors := c.monitors.map fun m => (m.1, fireVa inside m.2) }) s
  ctls.foldl (fun st k => modCtl st k fun c => { c with monitors := c.monitors.map fun m => (m.1, fireVa inside m.2) }) s

/-- Does a pass of a virtual function still need a page that `inside` holds of (R305)? -/
def passNeeds (s : State) (vf : Nat) (inside : Nat → Bool) : Bool :=
  s.vales.any fun e => match e.2.pass with
    | some p => p.vf == vf && p.walked && !p.halted && p.names inside
    | none => false

/-- Do accesses already translated still have to perform in pages that `inside` holds of: writes parked in a
write-protect window, or bytes that a commit in progress has still to commit (R102, R408)? A pending entry keeps no
virtual address, so every one of a committing core counts. -/
def accessesOwed (s : State) (vf : Nat) (inside : Nat → Bool) : Bool :=
  (match (vfOf s vf).tier with
    | some t => t.window && t.pages.zipIdx.any fun p =>
        inside (t.va + 65536 * p.2) && t.parked.any fun x => parkedPa x / 65536 == p.1.2.1
    | none => false)
  || s.vales.any fun e => e.2.gangs.any fun g => g.2.vf == vf && ((g.2.committing.getD []).filterMap (physCore s e.1 vf)).any fun k =>
      !(coreOf s k).pend.isEmpty || (coreOf s k).stash.any fun x => inside x.2.va && x.2.dirty != 0

/-- Does an invalidation of pages wait (R102)? -/
def dropWaits (s : State) (vf : Nat) (inside : Nat → Bool) : Bool := passNeeds s vf inside || accessesOwed s vf inside

/-- The translations that map one address dropped. -/
def dropVa (s : State) (w : Word) : CsrEnd :=
  if w.toNat / 2 ^ 56 ≠ 0 ∨ w.toNat / 4 % 2 ^ 14 ≠ 0 then .illegal
  else
    let vf := curVf s
    let va := bitsOf w.toNat 55 16 * 65536
    let hit := fun (t : TlbEntry) => t.covers vf va
    let held := (s.cores.flatMap fun e => e.2.tlb.filter hit) ++ (s.vales.flatMap fun e => e.2.tlb.filter hit)
    let inside := fun (a : Nat) => a / 65536 == va / 65536 || held.any fun t => t.covers vf a
    if dropWaits s vf inside then .wait
    else .ok (withdrawUnmapped (dropTranslations s vf hit (fun p => p.covers vf va) inside) vf inside)

/-- Every translation of the virtual function dropped. -/
def dropAll (s : State) (w : Word) : CsrEnd :=
  if w.toNat / 2 ^ 56 ≠ 0 ∨ w.toNat / 4 % 2 ^ 14 ≠ 0 then .illegal
  else if dropWaits s (curVf s) fun _ => true then .wait
  else .ok (withdrawUnmapped (dropTranslations s (curVf s) (fun _ => true) (fun _ => true) fun _ => true) (curVf s) fun _ => true)

/-- A write of `dtlbi`; op 0b10 and 0b11 are refused. -/
def writeDtlbi (s : State) (w : Word) : CsrEnd :=
  match w.toNat % 4 with
  | 0 => dropVa s w
  | 1 => dropAll s w
  | _ => .illegal

/-! ## The trap queue's registers (R370, R375) -/

/-- The virtual function's trap queue changed by f. -/
def modTq (s : State) (vf : Nat) (f : TrapQueue → TrapQueue) : State := modVf s vf fun v => { v with tq := f v.tq }

/-- A write of `tqbase`: refused during a launch, or where the 32 KiB do not translate for writes. -/
def writeTqbase (s : State) (w : Word) : State :=
  let vf := curVf s
  let refused := modTq s vf fun q => { q with err := true }
  let base := bitsOf w.toNat 55 15 * 2 ^ 15
  if (vfOf s vf).launch.isSome then refused
  else if !w.getLsbD 0 then modTq s vf fun q => { q with base := BitVec.ofNat 64 base, en := false }
  else match translateVf s vf base 1 with
    | .error _ => refused
    | .ok pa =>
      let s := modTq s vf fun q => { q with
        base := BitVec.ofNat 64 base, en := true, pages := [(0, pa / 65536)]
        entries := [], order := [], fatalEntry := none, seq := 0 }
      landHeld s vf ((vfOf s vf).tq.held.length + 1)

/-- `tqst`. -/
def readTqst (q : TrapQueue) : Word :=
  let pend := (q.entries.filter fun e => e.2 == TqEntry.written).length
  BitVec.ofNat 64 ((if q.err then 2 ^ 63 else 0) + (if q.fatalEntry.isSome then 2 ^ 62 else 0)
    + q.held.length % 2 ^ 11 * 2 ^ 32 + tqUsed q * 2 ^ 16 + pend)

/-- `lnprev`. -/
def readLnprev (v : Vf) : Word :=
  BitVec.ofNat 64 (v.lnprevSeq.toNat * 2 ^ 32 + (if v.lnprevF then 256 else 0) + v.lnprevCode.toNat)

/-! ## Mailbox, estimates, trace, energy (R269, R286, R351, R356) -/

/-- `mbrcv` read: the oldest inbound address, which leaves the queue. -/
def readMbrcv (s : State) : Word × State :=
  let vf := curVf s
  match (vfOf s vf).inq with
  | [] => (0, s)
  | a :: rest => (a, modVf s vf fun v => { v with inq := rest })

/-- The 8 words of a message of 64 bytes. -/
def messageWords (b : List Byte) : List Word := (List.range 8).map fun i => BitVec.ofNat 64 (word64At b (8 * i))

/-- A write of `mbsnd`: the message at an address is appended to the outbound queue; it waits while that is full. -/
def writeMbsnd (s : State) (w : Word) : CsrEnd :=
  let vf := curVf s
  if w.toNat % 64 ≠ 0 then .trap (misaligned .load) w.toNat s
  else if 16 ≤ (vfOf s vf).outq.length then .wait
  else match ctlBlock s w.toNat 8 with
    | .wait => .wait
    | .trap c a s' => .trap c a s'
    | .ok b s' => .ok (modVf s' vf fun v => { v with outq := v.outq ++ [messageWords b] })

/-- The macro-table entry that `mrtsel` selects. -/
def selected_ (s : State) : MacroEntry := entryOf s s.ctl (curCtl s).mrtsel.toNat

/-- `mrte` read: 0 for a free entry. -/
def readMrte (s : State) : Word := if (selected_ s).state = .free then 0 else (selected_ s).rte

/-- `mrte` written: the estimate of the selected entry for the scheduler. -/
def writeMrte (s : State) (w : Word) : State :=
  if (selected_ s).state = .free then s else modEntry s s.ctl (curCtl s).mrtsel.toNat fun m => { m with rte := w }

/-- The running control core's trace buffer changed by f. -/
def modTrace (s : State) (f : TraceBuf → TraceBuf) : State :=
  modVf s (curVf s) fun v => { v with trace := v.trace.modify {} (curVale s) f }

/-- A write of `trctl`. -/
def writeTrctl (s : State) (w : Word) : State :=
  modTrace s fun t => { t with
    sz := w.extractLsb' 16 20, en := w.extractLsb' 0 7, drop := if w.getLsbD 47 then 0 else t.drop }

/-- `trctl`. -/
def readTrctl (t : TraceBuf) : Word := BitVec.ofNat 64 (t.drop * 2 ^ 48 + t.sz.toNat * 2 ^ 16 + t.en.toNat)

/-- `njquota`: what is left of the period's quota (R286, R347). -/
def readQuota (v : Vf) : Word := BitVec.ofNat 64 (v.jq.toNat - v.jused)

/-! ## The privileged architecture (R270 to R272) -/

/-- Writable bits of mstatus and of sstatus. -/
def mstatusMask : Word := 0x7E19AA
/-- Bits of mstatus that sstatus shows. -/
def sstatusMask : Word := 0x3000C0122
/-- Interrupts that exist. -/
def mieMask : Word := 0xAAA

/-- The low bits of a word from another. -/
def blend (mask new old : Word) : Word := (new &&& mask) ||| (old &&& ~~~mask)

/-- A write of mstatus; the reserved previous mode 2 is not taken. -/
def putMstatus (c : Ctl) (mask w : Word) : Ctl :=
  let old := csrGet c 0x300
  let mask := if w.extractLsb' 11 2 = 2#2 then mask &&& ~~~0x1800#64 else mask
  csrSet c 0x300 (blend (mask &&& mstatusMask) w old)

/-- mip as it reads: the timer's instant passes on its own. -/
def readMip (s : State) : Word :=
  let m := csrGet (curCtl s) 0x344
  if timerDue s (curCtl s) then m ||| 0x20 else m

/-- Which CSR of the privileged architecture a number names, for the running control core: its value, or none. -/
def privCsr (s : State) (n : Nat) : Option Word :=
  let c := curCtl s
  match n with
  | 0x100 => some (csrGet c 0x300 &&& sstatusMask)
  | 0x104 => some (csrGet c 0x304 &&& csrGet c 0x303)
  | 0x144 => some (readMip s &&& csrGet c 0x303)
  | 0x105 | 0x106 | 0x10A | 0x140 | 0x141 | 0x142 | 0x143 | 0x180 => some (csrGet c n)
  | 0x300 | 0x302 | 0x303 | 0x304 | 0x305 | 0x306 | 0x30A | 0x340 | 0x341 | 0x342 | 0x343 => some (csrGet c n)
  | 0x301 => some 0x8000000000141105
  | 0x344 => some (readMip s)
  | 0xF14 => some (BitVec.ofNat 64 s.ctl)
  | 0xF11 | 0xF12 | 0xF13 | 0xF15 | 0x320 => some 0
  | 0xC00 | 0xB00 => some (BitVec.ofNat 64 c.cycle)
  | 0xC01 => some s.nstime
  | 0xC02 | 0xB02 => some (BitVec.ofNat 64 c.instret)
  | _ => if (0xB03 ≤ n ∧ n ≤ 0xB1F) ∨ (0x323 ≤ n ∧ n ≤ 0x33F) then some 0 else none

/-- A vector address: mode 0 or 1. -/
def legalTvec (w : Word) : Word := w &&& ~~~2#64

/-- A write of a CSR of the privileged architecture: fields that take only legal values keep them. -/
def putPrivCsr (c : Ctl) (n : Nat) (w : Word) : Ctl :=
  match n with
  | 0x100 => putMstatus c sstatusMask w
  | 0x300 => putMstatus c mstatusMask w
  | 0x302 => csrSet c n (w &&& 0xB3FF)
  | 0x303 => csrSet c n (w &&& 0x222)
  | 0x304 => csrSet c n (w &&& mieMask)
  | 0x104 => csrSet c 0x304 (blend (csrGet c 0x303) w (csrGet c 0x304))
  | 0x344 => csrSet c 0x344 (blend 0x222 w (csrGet c 0x344))
  | 0x144 => csrSet c 0x344 (blend (csrGet c 0x303 &&& 2) w (csrGet c 0x344))
  | 0x105 | 0x305 => csrSet c n (legalTvec w)
  | 0x106 | 0x306 => csrSet c n (w &&& 7)
  | 0x10A | 0x30A => csrSet c n (w &&& 1)
  | 0x140 | 0x340 | 0x142 | 0x342 | 0x143 | 0x343 => csrSet c n w
  | 0x141 | 0x341 => csrSet c n (w &&& ~~~1#64)
  | 0x180 => if w.toNat / 2 ^ 60 = 0 ∨ w.toNat / 2 ^ 60 = 10 then csrSet c n w else c
  | 0xB00 => { c with cycle := w.toNat }
  | 0xB02 => { c with instret := w.toNat }
  | _ => c

/-! ## Access by number -/

/-- The value of a CSR and the state after it is read; none where the number names no CSR. -/
def csrRead (s : State) (n : Nat) : Option (Word × State) :=
  let v := vfOf s (curVf s)
  let t := traceBuf s (curVf s) (curVale s)
  match n with
  | 0x5C0 | 0x5C1 | 0x5CC => some (0, s)
  | 0x5C2 => some (v.tq.base ||| (if v.tq.en then 1 else 0), s)
  | 0x5C3 => some (readTqst v.tq, s)
  | 0x5C4 => some (readLnprev v, s)
  | 0x5C8 => some (t.base, s)
  | 0x5C9 => some (readTrctl t, s)
  | 0x5CA => some (t.wp.setWidth 64, s)
  | 0x5CB => some (t.rp.setWidth 64, s)
  | 0x5CD => some (readMbrcv s)
  | 0x8C0 => some ((curCtl s).mrtsel.setWidth 64, s)
  | 0x8C1 => some (readMrte s, s)
  | 0xCC0 => some (s.nstime, s)
  | 0xCC1 => some (BitVec.ofNat 64 (s.energy.accounts.get 0 (cidOfSlice s s.ctl)), s)
  | 0xCC2 => some (readQuota v, s)
  | _ => (privCsr s n).map fun w => (w, s)

/-- A CSR written. -/
def csrWrite (s : State) (n : Nat) (w : Word) : CsrEnd :=
  match n with
  | 0x5C0 => writeLndone s w
  | 0x5C1 => writeDtlbi s w
  | 0x5C2 => .ok (writeTqbase s w)
  | 0x5C3 => .ok (if w.getLsbD 63 then modTq s (curVf s) fun q => { q with err := false } else s)
  | 0x5C8 => .ok (modTrace s fun t => { t with base := BitVec.ofNat 64 (bitsOf w.toNat 55 12 * 4096) })
  | 0x5C9 => .ok (writeTrctl s w)
  | 0x5CB => .ok (modTrace s fun t => { t with rp := w.setWidth 32 })
  | 0x5CC => writeMbsnd s w
  | 0x8C0 => .ok (modCtl s s.ctl fun c => { c with mrtsel := w.setWidth 6 })
  | 0x8C1 => .ok (writeMrte s w)
  | _ => .ok (modCtl s s.ctl fun c => putPrivCsr c n w)

/-- May a mode name a CSR: bits 9:8 of the number give the lowest mode, and the counters are opened by the mode
above (R270, R272)? -/
def csrAllowed (c : Ctl) (n : Nat) : Bool :=
  let level := match c.priv with
    | .u => 0
    | .s => 1
    | .m => 3
  decide (n / 256 % 4 ≤ level)
    && !(n == 0x180 && c.priv == .s && (csrGet c 0x300).getLsbD 20)
    && !(decide (0xC00 ≤ n ∧ n ≤ 0xC02) && c.priv != .m && !(csrGet c 0x306).getLsbD (n - 0xC00))
    && !(decide (0xC00 ≤ n ∧ n ≤ 0xC02) && c.priv == .u && !(csrGet c 0x106).getLsbD (n - 0xC00))

/-! ## The writes as steps -/

/-- A CSR write that is a 4-byte instruction of the running control core and names no register. -/
def csrStep (s : State) (r : CsrEnd) : State :=
  match r with
  | .ok s => let idle := (curCtl s).status == .idle
             modCtl (retire s 4) s.ctl fun c => if idle then { c with status := .idle } else c
  | .wait => ctlWait s
  | .illegal => raise s 2 0
  | .trap c a s' => raise s' c (BitVec.ofNat 64 a)

/-- Does the running control core run in U mode, which may not name the S-mode CSRs (R271)? -/
def inUser (s : State) : Bool := (curCtl s).priv == .u

/-- LNDONE: a write of `lndone` (R65). -/
def execLndone (w : Word) (s : State) : Host.Outcome State Fault Refusal :=
  let s := bump s
  .next (csrStep s (if inUser s then .illegal else writeLndone s w))
/-- MBRCV: a read of `mbrcv` (R356). -/
def execMbrcv (rd : BitVec 5) (s : State) : Host.Outcome State Fault Refusal :=
  let s := bump s
  if inUser s then .next (raise s 2 0)
  else
    let (w, s) := readMbrcv s
    .next (ctlResult s rd w)
/-- MBSND: a write of `mbsnd` (R356). -/
def execMbsnd (w : Word) (s : State) : Host.Outcome State Fault Refusal :=
  let s := bump s
  .next (csrStep s (if inUser s then .illegal else writeMbsnd s w))
/-- TRCTL_CLR: the count of dropped trace records cleared (R351). -/
def execTrctlClr (s : State) : Host.Outcome State Fault Refusal :=
  let s := bump s
  .next (csrStep s (if inUser s then .illegal else .ok (modTrace s fun t => { t with drop := 0 })))
/-- DTLBI_DROP_VA: a write of `dtlbi` with op 0b00 (R102). -/
def execDtlbiDropVa (w : Word) (s : State) : Host.Outcome State Fault Refusal :=
  let s := bump s
  .next (csrStep s (if inUser s then .illegal else dropVa s w))
/-- DTLBI_DROP_ALL: a write of `dtlbi` with op 0b01 (R102). -/
def execDtlbiDropAll (w : Word) (s : State) : Host.Outcome State Fault Refusal :=
  let s := bump s
  .next (csrStep s (if inUser s then .illegal else dropAll s w))
/-- TQBASE: a write of `tqbase` (R370). -/
def execTqbase (w : Word) (s : State) : Host.Outcome State Fault Refusal :=
  let s := bump s
  .next (csrStep s (if inUser s then .illegal else .ok (writeTqbase s w)))
/-- MRTE: a write of `mrte` (R269). -/
def execMrte (w : Word) (s : State) : Host.Outcome State Fault Refusal :=
  let s := bump s
  .next (csrStep s (.ok (writeMrte s w)))

end Sys2Proof.Machine
end

