-- ==== Sys2Proof/Machine/CtlOps.lean ====
section
/-! DEFINITION. Gangs, sleeping, monitors and the trap queue on a control core (R73 to R75, R284 to R292, R394, R395,
R426, R427). -/

namespace Sys2Proof.Machine

open Sys2Proof

/-- The word of a control-core instruction, the value of its illegal-instruction exception. -/
def ctlWord (i : Instr) : Nat :=
  match encode i with
  | some (.ctl w) => w.toNat
  | _ => 0

/-- f at a state whose running control core is k. -/
def atCtl (k : Nat) (f : State → State) (s : State) : State := { f { s with ctl := k } with ctl := s.ctl }

/-! ## Gangs (R284, R285) -/

/-- The gangs of a Vale that a logical core of a context is in, those it waits to join counted (R74). -/
def gangsOf (s : State) (vale vf n : Nat) : Nat :=
  ((valeOf s vale).gangs.filter fun e =>
    e.2.owner.isSome && e.2.vf == vf && (e.2.members.contains n || e.2.joiners.contains n)).length

/-- The logical cores of a member set. -/
def setMembers (b : List Byte) : List Nat := (List.range 192).filter fun i => leNat b / 2 ^ i % 2 == 1

/-- The lowest free gang of a Vale, unless the context holds as many as its bind entry lets it (R325). -/
def freeGang (s : State) (vale : Nat) : Option Nat :=
  let held := ((valeOf s vale).gangs.filter fun e => e.2.owner.isSome && e.2.vf == vfOfCtl s s.ctl).length
  if ((boundEntry s s.ctl).map (·.gmax.toNat)).getD 0 ≤ held then none
  else (List.range 64).find? fun g => (gangOf s vale g).owner.isNone

/-- What is wrong with a member set: cause and info of the stop (R395, R426). -/
def memberSetFault (s : State) (vale vf : Nat) (b : List Byte) : Option (Nat × Nat) :=
  let l := setMembers b
  if l.isEmpty then some (0x15, 6 * 2 ^ 16)
  else if leNat b / 2 ^ 192 ≠ 0 then some (0x15, 6 * 2 ^ 16 + lowByte 24 (leNat (b.drop 24)) 8)
  else match l.find? fun n => (physCore s vale vf n).isNone with
    | some n => some (0x10, n * 2 ^ 32 + 8 * 2 ^ 16)
    | none => (l.find? fun n => decide (4 ≤ gangsOf s vale vf n)).map fun n => (0x11, n * 2 ^ 32 + 8 * 2 ^ 16)

/-- Gang g formed with its members (R284). -/
def formGang (s : State) (vale vf g : Nat) (l : List Nat) : State :=
  let x := gangOf s vale g
  let s := setGang s vale g
    { owner := some (cidOfSlice s s.ctl), vf := vf, members := l, episode := x.episode, tags := x.tags }
  (memberCores s vale vf l).foldl (fun st k => modCore st k fun c => { c with lastArrival := c.lastArrival.erase g }) s

/-- G_FORM: a gang of the members that 32 bytes name. -/
def execGForm (rd rs1 : BitVec 5) (s : State) : Host.Outcome State Fault Refusal :=
  let s := bump s
  let va := (xGet (curCtl s) rs1.toNat).toNat
  match readBlock s va 4 32 with
  | .error s' => .next s'
  | .ok (b, s) =>
    let vale := s.ctl / 8
    let vf := vfOfCtl s s.ctl
    match memberSetFault s vale vf b with
    | some (cause, info) => .next (issueStop s cause (if cause = 0x15 then va else 0) info)
    | none =>
      match freeGang s vale with
      | none => .next (ctlResult s rd (BitVec.allOnes 64))
      | some g => .next (ctlResult (formGang s vale vf g (setMembers b)) rd (BitVec.ofNat 64 g))

/-- Does a gang still have work or an open episode (R285)? -/
def gangBusy (s : State) (vale vf g : Nat) : Bool :=
  let x := gangOf s vale g
  !(gangEntries s vale vf g).isEmpty || !x.queue.isEmpty || !x.arrived.isEmpty || x.committing.isSome
    || (memberCores s vale vf x.members).any fun k => (coreOf s k).barriers.any fun e => e.2.gang == g

/-- G_FREE: the gang becomes free once it is idle; a free gang, or another context's, is left alone (R285, R396,
R427). -/
def execGFree (rs1 : BitVec 5) (s : State) : Host.Outcome State Fault Refusal :=
  let s := bump s
  let w := (xGet (curCtl s) rs1.toNat).toNat
  let vale := s.ctl / 8
  let vf := vfOfCtl s s.ctl
  if w / 64 ≠ 0 then .next (issueIllegal s)
  else
    let x := gangOf s vale w
    if x.owner.isNone ∨ x.vf ≠ vf then .next (retire s 4)
    else if gangBusy s vale vf w then .next (ctlWait s)
    else .next (retire (setGang s vale w { episode := x.episode, tags := x.tags }) 4)

/-! ## Sleeping (R287) -/

/-- What an `x.sleep` or `x.mwait` waited for is over. -/
def wakeCtl (s : State) (k : Nat) : State := modCtl s k fun c => { c with sleepUntil := none, mwaitUntil := none }

/-- X_SLEEP: held until NSTIME has reached an instant. -/
def execXSleep (rs1 : BitVec 5) (s : State) : Host.Outcome State Fault Refusal :=
  let s := bump s
  let t := xGet (curCtl s) rs1.toNat
  if t.toNat ≤ s.nstime.toNat then .next (retire (wakeCtl s s.ctl) 4)
  else .next (ctlWait (modCtl s s.ctl fun c => { c with sleepUntil := some t }))

/-- X_SLEEP_WAKE: NSTIME has reached the instant that a control core sleeps until. -/
def execXSleepWake (k : Nat) (s : State) : Host.Outcome State Fault Refusal :=
  let s := bump s
  let c := ctlOf s k
  match c.sleepUntil with
  | none => .next s
  | some t =>
    if c.status = .waiting ∧ t.toNat ≤ s.nstime.toNat then .next (atCtl k (fun s => retire (wakeCtl s k) 4) s) else .next s

/-! ## Monitors (R288 to R290) -/

/-- The armed entry that was armed longest ago. -/
def oldestArmed (m : FMap Monitor) : Option Nat :=
  (m.foldl (fun (a : Option (Nat × Nat)) e => match e.2, a with
    | .armed _ _ _ t, none => some (e.1, t)
    | .armed _ _ _ t, some (i, u) => if t < u then some (e.1, t) else some (i, u)
    | _, a => a) none).map (·.1)

/-- A displaced entry: fired with cause 3. -/
def displaced (m : Monitor) : Monitor := fireAll 3 m

/-- X_MON: a line is armed; or found armed; or an entry displaced. -/
def execXMon (rd rs1 : BitVec 5) (s : State) : Host.Outcome State Fault Refusal :=
  let s := bump s
  let w := (xGet (curCtl s) rs1.toNat).toNat
  let va := w / 128 * 128
  if w / 2 % 64 ≠ 0 then .next (raiseIllegal s (ctlWord (.xMon rd rs1)))
  else if ctlHeld s s.ctl va .load then .next (ctlWait s)
  else match ctlTranslate s s.ctl va .load with
    | .error e => .next (raise s e (BitVec.ofNat 64 va))
    | .ok pa =>
      let c := curCtl s
      if c.monitors.any fun e => watches e.2 none (pa / 128) then .next (ctlResult s rd 1)
      else match monitorFree c.monitors 16 with
        | some e => .next (ctlResult (setCtl s s.ctl { c with
            monitors := c.monitors.put .free e (.armed none (pa / 128) va c.monClock), monClock := c.monClock + 1
            monLeaf := (match ctlLeaf s s.ctl va with
              | some l => c.monLeaf.insert e l
              | none => c.monLeaf.erase e) }) rd 0)
        | none =>
          let s := match w % 2, oldestArmed c.monitors with
            | 1, some e => setCtl s s.ctl { c with monitors := c.monitors.modify .free e displaced }
            | _, _ => s
          .next (ctlResult s rd 0xFF)

/-- X_MWAIT: waits for a fired entry, up to a limit. -/
def execXMwait (rd rs1 : BitVec 5) (s : State) : Host.Outcome State Fault Refusal :=
  let s := bump s
  let c := curCtl s
  let t := xGet c rs1.toNat
  match firedEntry c.monitors 16 with
  | some (e, cause) =>
    let s := modCtl (wakeCtl s s.ctl) s.ctl fun c => { c with monitors := c.monitors.erase e }
    .next (ctlResult s rd (BitVec.ofNat 64 (e * 256 + cause)))
  | none =>
    if !anyArmed c.monitors then .next (ctlResult (wakeCtl s s.ctl) rd 0xFE)
    else if t.toNat ≤ s.nstime.toNat then .next (ctlResult (wakeCtl s s.ctl) rd 0xFD)
    else .next (ctlWait (setCtl s s.ctl { c with mwaitUntil := some (rd.toNat, t) }))

/-- X_MWAIT_TIMEOUT: NSTIME has reached the limit of an `x.mwait` that waits. -/
def execXMwaitTimeout (k : Nat) (s : State) : Host.Outcome State Fault Refusal :=
  let s := bump s
  let c := ctlOf s k
  match c.mwaitUntil with
  | none => .next s
  | some (rd, t) =>
    if c.status = .waiting ∧ t.toNat ≤ s.nstime.toNat ∧ (firedEntry c.monitors 16).isNone then
      .next (atCtl k (fun s => ctlResult (wakeCtl s k) (BitVec.ofNat 5 rd) 0xFD) s)
    else .next s

/-! ## The trap queue (R291, R292, R372) -/

/-- TQ_POP: the address of the oldest record not yet popped. -/
def execTqPop (rd : BitVec 5) (s : State) : Host.Outcome State Fault Refusal :=
  let s := bump s
  if (curCtl s).priv ≠ .s then .next (raiseIllegal s (ctlWord (.tqPop rd)))
  else
    let vf := vfOfCtl s s.ctl
    let q := (vfOf s vf).tq
    match q.order with
    | [] => .next (ctlResult s rd 0)
    | i :: rest =>
      let s := modVf s vf fun v => { v with tq := { v.tq with order := rest, entries := v.tq.entries.put .free i .popped } }
      .next (ctlResult s rd (BitVec.ofNat 64 (tqEntryVa q i)))

/-- The popped entry of a queue at an address. -/
def poppedEntry (q : TrapQueue) (va : Nat) : Option Nat :=
  (List.find? (fun e : Nat × TqEntry => e.2 == TqEntry.popped && tqEntryVa q e.1 == va) q.entries).map (·.1)

/-- TQ_ACK: a popped entry becomes free, and held records land; any other address sets err. -/
def execTqAck (rs1 : BitVec 5) (s : State) : Host.Outcome State Fault Refusal :=
  let s := bump s
  let va := (xGet (curCtl s) rs1.toNat).toNat
  let vf := vfOfCtl s s.ctl
  if (curCtl s).priv ≠ .s then .next (raiseIllegal s (ctlWord (.tqAck rs1)))
  else if va % 64 ≠ 0 then .next (raise s (misaligned .load) (BitVec.ofNat 64 va))
  else match poppedEntry (vfOf s vf).tq va with
    | none => .next (retire (modVf s vf fun v => { v with tq := { v.tq with err := true } }) 4)
    | some i =>
      let s := modVf s vf fun v => { v with tq := { v.tq with
        entries := v.tq.entries.erase i
        fatalEntry := if v.tq.fatalEntry = some i then none else v.tq.fatalEntry } }
      .next (retire (landHeld s vf ((vfOf s vf).tq.held.length + 1)) 4)

/-- SUPERVISOR_TIMER_INTERRUPT: NSTIME has reached the instant asked for by the timer call (R272). -/
def execSupervisorTimerInterrupt (k : Nat) (s : State) : Host.Outcome State Fault Refusal :=
  let s := bump s
  if timerDue s (ctlOf s k) then .next (modCtl s k fun c => csrSet c 0x344 (withBit (csrGet c 0x344) 5 true)) else .next s

end Sys2Proof.Machine
end

