-- ==== Sys2Proof/Machine/PassImage.lean ====
section
/-! DEFINITION. The numbers that a save area holds, where it stands, and the state of an attention pass in it: written at a
save, and at a stop of the pass (R90, R317, R333, R431, R443). -/

namespace Sys2Proof.Machine

open Sys2Proof

/-! ## Logical and physical numbers (R90, R431) -/

/-- A core's number with its logical number in place of the physical one. -/
def logicalKey (s : State) (vf k : Nat) : Nat :=
  k / 192 * 192 + (findPlace (placeMap s (k / 192) vf).active (k % 192) 0 192).getD (k % 192)

/-- The core that a logical number names. -/
def physicalKey (s : State) (vf n : Nat) : Nat := (physCore s (n / 192) vf (n % 192)).getD n

/-- The logical slice of a control core of a virtual function. -/
def sliceKey (s : State) (vf k : Nat) : Nat := (indexIn k 0 (logicalSlices s vf)).getD 64

/-- The control core that a logical slice names. -/
def ctlKey (s : State) (vf n : Nat) : Nat := (logicalSlices s vf).getD n 64

/-- A dispatch with its control core's number changed. -/
def Dispatch.renumber (d : Dispatch) (g : Nat → Nat) : Dispatch := { d with ctl := g d.ctl }

/-- Numbers of spill memories, 4096 above their cores', changed as the cores' are (R95, R431). -/
def spillToo (f : Nat → Nat) (n : Nat) : Nat := if 4096 ≤ n then 4096 + f (n - 4096) else f n

/-- A pass with the numbers of cores and control cores in it changed. -/
def Pass.renumber (p : Pass) (f g : Nat → Nat) : Pass :=
  let one := fun (x : Partial) => { x with core := f x.core }
  { p with disp := p.disp.renumber g, parked := p.parked.map one, sends := p.sends.map one, due := p.due.map one }

/-! ## The save area (R333) -/

/-- The bind entry of a virtual function in a Vale: one that is valid, if any (R90). -/
def bindOf (s : State) (vf vale : Nat) : BindEntry :=
  ((List.range 8).findSome? fun i =>
    (List.find? (fun e : Nat × BindEntry => e.2.v && e.2.vf.toNat == vf) (slotOf s (8 * vale + i)).entries).map (·.2)).getD {}

/-- The physical address of a context's save area. -/
def saveBase (s : State) (vf vale : Nat) : Nat := (bindOf s vf vale).sva.toNat * 4096

/-- n numbers of 8 bytes. -/
def words (l : List Nat) : List Byte := l.flatMap (leBytes 8)

/-! ## Col engine and Basin (R317, R333) -/

/-- A contribution's words. -/
def partialWords (x : Partial) : List Nat :=
  [x.slot, x.n, x.core, x.bit + (if x.reserved then 256 else 0) + (if x.lost then 512 else 0), x.dn.toNat, x.nv.length] ++ x.nv.map (·.toNat)

/-- The state of a pass: what is counted, the admission snapshot, the lists with their served marks, the slots, the parked
entries and the contributions on their way. -/
def passWords (p : Pass) : List Nat :=
  let flags := [p.admitted, p.walked, p.sweeping, p.halted, p.recorded, p.stopped, p.rewalk]
  [p.disp.tag.toNat, p.disp.ctl * 64 + p.disp.entry, (flags.zipIdx).foldl (fun a e => if e.1 then a + 2 ^ e.2 else a) 0,
    p.seqs.length, p.entries.length, p.slots.length, p.parked.length, p.sends.length, p.due.length, p.sweepRows.length]
    ++ (p.seqs ++ p.sweepRows).flatMap (fun q =>
      [q.slot, q.kva, q.vva, q.len, (if q.sweep then 1 else 0) + (if q.affected then 2 else 0), q.charge, q.queries.length]
        ++ q.queries.flatMap fun e => [e.1, e.2.toNat])
    ++ p.entries.flatMap (fun e => [e.seq, e.h, e.n, e.kpbn, e.vpbn, if e.served then 1 else 0])
    ++ p.slots.flatMap (fun e => [e.1, e.2.next, e.2.count, if e.2.written then 1 else 0, e.2.dn.toNat, e.2.n.length]
      ++ e.2.n.map (·.toNat))
    ++ (p.parked ++ p.sends ++ p.due).flatMap partialWords

/-- The engine state of passes written into a save area at an address. -/
def writePasses (m : Mem) (base : Nat) (l : List Pass) : Mem :=
  (m.moveIn (base + 0x200000) {} 0 0x1E00000).writeN (base + 0x200000) (words (l.length :: l.flatMap passWords))

/-- The passes of a context that are not in its engine: those put aside, and those that wait for it, as a save area has
them. -/
def areaPasses (s : State) (vf vale : Nat) : List Pass :=
  let v := valeOf s vale
  let waiting := (v.passQueue.filter fun d => vfOfCtl s d.ctl == vf).filter fun d =>
    !(v.aside.any fun p => sameDispatch p.disp d.ctl d.entry && p.disp.tag == d.tag)
  ((v.aside.filter fun p => p.vf == vf) ++ (waiting.map fun d => ({ disp := d, vf := vf } : Pass))).map fun p =>
    p.renumber (logicalKey s vf) (sliceKey s vf)

/-- The pages of a save area that a range of its bytes lies in, marked dirty (R348). -/
def dirtyRange (s : State) (base : Nat) (r : Nat × Nat) : State :=
  let lo := (base + r.1) / 65536
  (List.range ((base + r.2 + 65535) / 65536 - lo)).foldl (fun st n => markDirty st (lo + n)) s

/-- The state of the stopped passes of a bound context written to its save area, once an attention macro-instruction of it is
stopped (R443). -/
def keepStopped (s : State) (vf vale : Nat) : State :=
  let e := bindOf s vf vale
  if !e.v then s
  else
    let s := dirtyRange { s with mem := writePasses s.mem (saveBase s vf vale) (areaPasses s vf vale) } (saveBase s vf vale)
      (0x200000, 0x2000000)
    chargeAccess s vale (saveBase s vf vale + 0x200000) vf e.cid.toNat

end Sys2Proof.Machine
end

