-- ==== Sys2Proof/Machine/Capabilities.lean ====
section
/-! DEFINITION. The identity certificates (R357, R364), and the capability list (R363, R456): where its records stand and what
their words read as. -/

namespace Sys2Proof.Machine

open Sys2Proof

/-- The special-function table as R456 orders it for its hash: function by function and segment by segment, three
little-endian words each. -/
def sfTableBytes : List Nat → List Byte
  | fns => fns.flatMap fun fn => (List.range (2 ^ 15)).flatMap fun seg =>
      (List.range 3).flatMap fun c => leBytes 8 (sfWord fn seg c).toNat

/-- Data words that follow a record: the capacity of the CXL tier, a hash of 64 bytes (R363). -/
def capabilityLen (id : Nat) : Nat :=
  match id with
  | 1 => 1
  | 5 | 6 => 8
  | _ => 0

/-- The identity certificate chain as message 0x8010 delivers it: leaf first, each certificate behind its length in 4 bytes
(R357). -/
def certificateChain : List Byte := Config.certificates.flatMap fun c => leBytes 4 c.length ++ c

/-- SHA-512 of the identity certificate, the chain's leaf (R363, R452). -/
def identityHash : List Byte := sha512 (Config.certificates.headD [])

/-- The records of a list of ids from an offset on: offset, id, and offset of the next record, 0 at the end. -/
def capabilityRecords : List (BitVec 16) → Nat → List (Nat × Nat × Nat)
  | [], _ => []
  | i :: rest, o =>
    let next := o + 8 + 8 * capabilityLen i.toNat + 8 * (Config.capabilityGap i.toNat).toNat
    (o, i.toNat, if rest.isEmpty then 0 else next) :: capabilityRecords rest next

/-- Data word i of a capability: GiB at port 0 in the low half and at port 1 in the high one; SHA-512 of the identity
certificate; SHA-512 of the special-function table. -/
def capabilityData (cxlGiB : Nat × Nat) (id i : Nat) : Nat :=
  match id with
  | 1 => cxlGiB.1 + cxlGiB.2 * 2 ^ 32
  | 5 => word64At (identityHash) (8 * i)
  | _ => word64At (sha512 (sfTableBytes (List.range 6))) (8 * i)

/-- The word at an offset from 0x100 on: a record, its data, or zero. -/
def capabilityWord (cxlGiB : Nat × Nat) (o : Nat) : Word :=
  match (capabilityRecords Config.capabilityIds 0x100).find? fun r =>
      decide (r.1 ≤ o) && decide (o < r.1 + 8 + 8 * capabilityLen r.2.1) with
  | none => 0
  | some (at_, id, next) =>
    if o = at_ then
      BitVec.ofNat 64 (next * 2 ^ 32 + capabilityLen id * 2 ^ 24 + (Config.capabilityVersion id).toNat * 2 ^ 16 + id)
    else BitVec.ofNat 64 (capabilityData cxlGiB id ((o - at_) / 8 - 1))

end Sys2Proof.Machine
end

