-- ==== Sys2Proof/Machine/LaunchEnd.lean ====
section
/-! DEFINITION. How the work of a context ends at once: KILL and the fatal end of a launch (R329, R374, R375, R408,
R420, R436), and LNCHV. -/

namespace Sys2Proof.Machine

open Sys2Proof

/-! ## Agents stopped (R329, R374 step 2) -/

/-- A core whose work has ended: results of issued operations land, everything outstanding and every buffered byte is
gone, and its sequencer and monitors are free. Registers and scratchpad stay as they stand. -/
def haltedCore (c : Core) : Core :=
  let c := landAll c
  { c with
    status := if c.status = .frozen then .frozen else .idle
    was := .idle, held := {}, stores := [], recent := [], branch := none, trap := none
    mqueue := [], matrixFault := false
    sq := c.sq.filter fun i => match i with
      | .scale _ | .bad _ => true
      | .hole _ _ _ _ => false
    copies := [], loads := [], atomics := [], barriers := [], ord := []
    stash := [], sbuf := [], pend := [], pendPoison := [], treq := [], fetched := none, monitors := []
    seq := {}, replay := [], replayed := [] }

/-- The lines that core k owns exclusively released: their values stand at home (R108). -/
def releaseOwned (s : State) (k : Nat) : State :=
  { s with vales := s.vales.map fun e => (e.1, { e.2 with owners := e.2.owners.filter fun o => o.2 != k }) }

/-- The work of core k ended. -/
def haltCore (s : State) (k : Nat) : State := modCore (releaseOwned (cancelCopies s k) k) k haltedCore

/-- The Col engine of a Vale without the passes of a virtual function. -/
def dropPasses (s : State) (vf vale : Nat) : State :=
  modVale s vale fun v => { v with
    pass := v.pass.filter fun p => p.vf != vf
    passQueue := v.passQueue.filter fun d => vfOfCtl s d.ctl != vf
    aside := v.aside.filter fun p => p.vf != vf }

/-- The gangs of a virtual function in a Vale freed (R374 step 3). -/
def freeGangs (s : State) (vf vale : Nat) : State :=
  modVale s vale fun v => { v with gangs := v.gangs.map fun e =>
    (e.1, if e.2.owner.isSome ∧ e.2.vf = vf then { episode := e.2.episode, tags := e.2.tags } else e.2) }

/-- A control core without monitors, and without the instruction that waits. -/
def haltedCtl (c : Ctl) : Ctl := { c with held := none, sleepUntil := none, mwaitUntil := none, monitors := [], reservation := none }

/-- Every agent of a bound context stopped: cores, passes, gangs, monitors. -/
def haltContext (s : State) (vf vale : Nat) : State :=
  let s := dropPasses s vf vale
  let s := (contextCores s vf vale).foldl haltCore s
  let s := (contextCtls s vf vale).foldl (fun st k => modCtl st k haltedCtl) s
  freeGangs s vf vale

/-! ## Entries killed (R374 step 3) -/

/-- Every outstanding entry of control core k killed, with its progress registers as they stand. -/
def killEntries (s : State) (k : Nat) : State :=
  (ctlOf s k).macros.foldl (fun st e =>
    if outstanding e.2 then
      let s := forgetWrites st k e.2
      setEntry s k e.1 { e.2 with state := .killed, prgs := memberPrgs s k e.2, reads := [], writes := [] }
    else st) s

/-- The progress registers of a saved core that executes an entry. -/
def savedPrgs (i : Image) (k e n : Nat) : List Nat :=
  match i.cores.find? fun x => x.1 == n with
  | some (_, c) => match c.seq.exec with
    | some d => if sameDispatch d k e then
        (List.range 7).map (fun j => c.prgI.get 0 j) ++ [c.prgStep, c.prgAcc.toNat, c.prgCmask.toNat] else []
    | none => []
  | none => []

/-- The outstanding entries of a saved control core killed. -/
def killSaved (i : Image) (k : Nat) (c : Ctl) : Ctl :=
  { haltedCtl c with macros := c.macros.map fun e =>
      (e.1, if outstanding e.2 then
        { e.2 with state := .killed, prgs := e.2.members.map (savedPrgs i k e.1), reads := [], writes := [] }
      else e.2) }

/-- The work of an image ended (R436). -/
def haltedImage (i : Image) : Image :=
  { i with
    cores := i.cores.map fun e => (e.1, haltedCore e.2)
    ctls := i.ctls.map fun e => (e.1, killSaved i e.1 e.2)
    gangs := [], passes := [] }

/-- The write ranges of an image's outstanding entries hold undefined bytes. -/
def forgetSaved (s : State) (vf : Nat) (i : Image) : State :=
  i.ctls.foldl (fun st c => c.2.macros.foldl (fun st e =>
    if outstanding e.2 then e.2.writes.foldl (fun st r => vaForget st vf r) st else st) st) s

/-- Is a virtual function bound on a slice of a Vale? -/
def boundIn (s : State) (vf vale : Nat) : Bool := (List.range 8).any fun i => vfOfSlice s (8 * vale + i) == some vf

/-- The work of a virtual function's context in a Vale ended, bound or not. -/
def endWork (s : State) (vf vale : Nat) : State :=
  match (ctxOf s vf vale).image with
  | some i => freeGangs (modCtx (forgetSaved s vf i) vf vale fun x => { x with image := some (haltedImage i) }) vf vale
  | none => if boundIn s vf vale then haltContext ((contextCtls s vf vale).foldl killEntries s) vf vale else s

/-! ## KILL (R329) -/

/-- A control core that holds nothing of a context: the count of macro-instructions that it has issued since the module
reset goes on (R67). -/
def emptyCtl (c : Ctl) : Ctl := { issued := c.issued }

/-- A bound context discarded: all agents stop, nothing is saved, and the units of its slices hold nothing of it. -/
def discardContext (s : State) (vf vale : Nat) : State :=
  let cores := contextCores s vf vale
  let ctls := contextCtls s vf vale
  let gone := ctls.map (logicalSlice s)
  let s := haltContext s vf vale
  let s := cores.foldl (fun st k => setCore st k {}) s
  let s := ctls.foldl (fun st k => modCtl st k emptyCtl) s
  let s := modVf s vf fun v => { v with windows := v.windows.filter fun w => !gone.contains w.slice }
  modCtx s vf vale fun x => { x with status := .unbound, image := none }

/-! ## FATAL_LAUNCH_END (R374, R436, R455) -/

/-- The work of a virtual function in a Vale ended by a fatal end: a context that a bind has just restored, when the context
of another Vale is lost, is discarded (R455). -/
def endInVale (s : State) (vf vale : Nat) : State :=
  let x := ctxOf s vf vale
  let lost := (valesOf s vf).any fun v => v != vale && (ctxOf s vf v).status == .lost
  if x.status = .binding ∧ x.restored = true ∧ lost = true then
    discardContext ((contextCtls s vf vale).foldl killEntries s) vf vale
  else endWork s vf vale

/-- The held records of a launch discarded and counted. -/
def discardLaunchRecords (s : State) (vf : Nat) (lid : Word) : State :=
  modVf s vf fun v =>
    let (gone, kept) := v.tq.held.partition fun r => r.lid == lid
    { v with tq := { v.tq with held := kept, sup := v.tq.sup + gone.length } }

/-- A control core that took part enters its runtime by a supervisor external interrupt: at once from U mode, else as
soon as it may be taken (R374 step 4). -/
def toRuntime (c : Ctl) : Ctl :=
  if c.priv = .u then
    let t := takeTrap c true 9 0
    if c.status = .frozen then { t with status := .frozen, was := .running } else t
  else
    let c := csrSet c 0x344 (withBit (csrGet c 0x344) 9 true)
    if c.status = .stopped then { c with status := .running } else c

/-- The fatal record lands in its entry (R372, R374 step 1): its sequence number. -/
def landFatal (s : State) (vf : Nat) : Nat × State :=
  let q := (vfOf s vf).tq
  match q.fatalPending with
  | none => (0, s)
  | some (i, r) => (q.seq, modVf (landIn s vf i r) vf fun v => { v with tq := { v.tq with fatalPending := none } })

/-- A STEP in progress ends at once (R435). -/
def endStep (s : State) (vf vale : Nat) : State :=
  if (ctxOf s vf vale).status = .stepping then
    modCtx (freezeContext s vf vale) vf vale fun x => { x with status := .freezing }
  else s

/-- FATAL_LAUNCH_END: every agent stops, entries are killed, the record lands, the control cores enter their runtime,
and message 0x8004 tells the host. -/
def execFatalLaunchEnd (vf : Nat) (s : State) : Host.Outcome State Fault Refusal :=
  let s := bump s
  match (vfOf s vf).launch with
  | none => .next s
  | some l =>
    if !l.ending then .next s
    else
      let s := landFreshOf s vf
      let s := (valesOf s vf).foldl (fun st v => endInVale st vf v) s
      let s := modVf s vf fun v => { v with windows := [] }
      let s := discardLaunchRecords s vf l.lid
      let (seq, s) := landFatal s vf
      let s := noteUnready (l.parts.foldl (fun st p => modSliceCtl st vf p.1 toRuntime) s) vf
      let s := (valesOf s vf).foldl (fun st v => endStep st vf v) s
      let s := modVf s vf fun v => { v with
        launch := none, lnprevSeq := BitVec.ofNat 32 seq, lnprevF := true, lnprevCode := BitVec.ofNat 8 l.code }
      .next (moduleMessage s vf [0x8004, l.lid, BitVec.ofNat 64 l.code, BitVec.ofNat 64 seq])

/-! ## LNCHV (R62) -/

/-- LNCHV: a host write of the launch register (R62). -/
def execLnchv (vf : Nat) (w : Word) (s : State) : Host.Outcome State Fault Refusal :=
  let s := bump s
  .next (if hostReaches s then writeLnchv s vf w else s)

end Sys2Proof.Machine
end

