-- ==== Sys2Proof/Machine/HostPort.lean ====
section
/-! DEFINITION. The host port: mailboxes, memory transactions, images, attestation and PTP (R148, R350, R355 to R358,
R361, R362, R364, R449, R450). -/

namespace Sys2Proof.Machine

open Sys2Proof

/-! ## Mailbox of a virtual function (R356) -/

/-- Is the message at a device virtual address an attestation request? -/
def isAttestation (s : State) (vf va : Nat) : Bool :=
  match vaRead s vf va 2 with
  | .ok b => leNat b == 0x0011
  | .error _ => false

/-- A message address of the host: queued for the runtime, or an attestation request that the firmware takes; the
address is dropped where the queue is full, or a request is outstanding already. -/
def writeMbin (s : State) (vf : Nat) (w : Word) : State :=
  let v := vfOf s vf
  let drop := modVf s vf fun v => { v with inDropped := true }
  if isAttestation s vf w.toNat then
    if v.attest.isSome then drop else modVf s vf fun v => { v with attest := some w }
  else if 16 ≤ v.inq.length then drop
  else raiseQueueInterrupt (modVf s vf fun v => { v with inq := v.inq ++ [w] }) vf

/-- MBIN: a write of `mbin`. -/
def execMbin (vf : Nat) (w : Word) (s : State) : Host.Outcome State Fault Refusal :=
  let s := bump s
  .next (if hostReaches s then writeMbin s vf w else s)

/-- The oldest outbound message removed: the module's own come first. -/
def popMbost (s : State) (vf : Nat) : State :=
  modVf s vf fun v => match v.modq with
    | _ :: rest => { v with modq := rest }
    | [] => { v with outq := v.outq.tail }

/-- MBOST_POP: 1 written to `mbost` bit 0. -/
def execMbostPop (vf : Nat) (s : State) : Host.Outcome State Fault Refusal :=
  let s := bump s
  .next (if hostReaches s then popMbost s vf else s)

/-! ## Mailbox of the physical function (R357) -/

/-- Has the outbound queue room? -/
def mboRoom (s : State) : Bool := decide (s.io.mbo.length < 8)

/-- A message of the firmware to the physical function, posted where the queue of 8 has room; else it waits for room. -/
def postMbo (s : State) (m : List Word) : State :=
  if mboRoom s then { s with io := { s.io with mbo := s.io.mbo ++ [padTo 8 0 m] } }
  else { s with io := { s.io with mbWait := s.io.mbWait ++ [padTo 8 0 m] } }

/-- `pfmbst.send`: the firmware begins to take the message, or it is lost while it takes another. -/
def sendPfmb (s : State) : State :=
  let m := (List.range 8).map fun i => s.io.mbi.get 0 i
  if s.io.mbiTaken.isSome then { s with io := { s.io with mbLost := true } }
  else { s with io := { s.io with mbiTaken := some m } }

/-- Does the firmware know a message's type? One of another type it copies and ignores. -/
def knownMessage (m : List Word) : Bool := [0x10, 0x11, 0x20].contains ((m.getD 0 0).toNat % 65536)

/-- The firmware has copied the message that it takes, and clears busy; when it does is not given (log entry 151). -/
def copyMessage (s : State) : State :=
  { s with io := { s.io with mbiTaken := none, mbiHeld := s.io.mbiHeld ++ s.io.mbiTaken.toList.filter knownMessage } }

/-- `pfmbst.pop`: the oldest outbound message removed; one that waits for room is posted. -/
def popPfmb (s : State) : State :=
  { s with io := { s.io with mbo := s.io.mbo.tail ++ s.io.mbWait.take 1, mbWait := s.io.mbWait.drop 1 } }

/-- PFMBST_SEND: 1 written to send. -/
def execPfmbstSend (s : State) : Host.Outcome State Fault Refusal :=
  let s := bump s
  .next (if portsUp s then sendPfmb s else s)

/-- PFMBST_POP: 1 written to pop. -/
def execPfmbstPop (s : State) : Host.Outcome State Fault Refusal :=
  let s := bump s
  .next (if portsUp s then popPfmb s else s)

/-- The oldest message of a given type that the firmware has copied. -/
def takenMessage (s : State) (ty : Nat) : Option (List Word) :=
  (copyMessage s).io.mbiHeld.find? fun m => (m.getD 0 0).toNat % 65536 == ty

/-- The firmware has copied a message and answers it. -/
def serveMessage (s : State) (m answer : List Word) : State :=
  let s := if s.io.mbiHeld.contains m then s else copyMessage s
  postMbo { s with io := { s.io with mbiHeld := s.io.mbiHeld.erase m } } answer

/-- Is a buffer 4 KiB aligned and inside the HBM range of some virtual function? -/
def hbmBuffer (s : State) (pa n : Nat) : Bool :=
  let last := (pa + n - 1) / 65536
  decide (pa % 4096 = 0) && decide (last < 2 ^ 24) && (List.range 32).any fun i =>
    let v := vfOf s i
    v.hset && decide (v.hbase.toNat ≤ pa / 65536) && decide (Nat.max (pa / 65536) last ≤ v.hlim.toNat)

/-- Bytes that the firmware writes to a buffer of n bytes at a physical address: the result code and the bytes
written. -/
def fillBuffer (s : State) (pa n : Nat) (bs : List Byte) : Nat × Nat × State :=
  if !hbmBuffer s pa n then (2, 0, s)
  else if n < bs.length then (1, 0, s)
  else (0, bs.length, physWrite s pa bs)

/-- IDENTITY_CERTIFICATE_CHAIN: message 0x0010 served, with 0x8010 for an answer. -/
def execIdentityCertificateChain (s : State) : Host.Outcome State Fault Refusal :=
  let s := bump s
  match takenMessage s 0x10 with
  | none => .next s
  | some m =>
    if !mboRoom s then .next s
    else
      let (r, n, s) := fillBuffer s (m.getD 1 0).toNat (m.getD 2 0).toNat certificateChain
      .next (serveMessage s m [0x8010, BitVec.ofNat 64 r, BitVec.ofNat 64 n])

/-! ## Attestation (R357, R364) -/

/-- The image measurement of a virtual function; of one covered by its number that has no accepted image the manual
gives none, so its bytes are free (log entry 152). -/
def reportedMeasurement (s : State) (n : Nat) : List Byte :=
  if (vfOf s n).image.isSome then padTo 64 0 (vfOf s n).measurement
  else (List.range 64).map fun i => Config.undefinedByte s.free (64 * n + i)

/-- An attestation report over virtual functions. -/
def attestReport (s : State) (nonce : List Word) (vfs : List Nat) : List Byte :=
  let stages := Config.firmwareStages
  let body := nonce.flatMap (fun w => leBytes 8 w.toNat) ++ leBytes 8 s.nstime.toNat
    ++ leBytes 8 Config.rollbackCounter.toNat ++ leBytes 8 (Config.fuseState.toNat % 4)
    ++ leBytes 4 stages.length ++ leBytes 4 vfs.length
    ++ stages.flatMap (fun h => leBytes 64 h.toNat)
    ++ vfs.flatMap fun n => leBytes 8 n ++ reportedMeasurement s n
  body ++ padTo 512 0 (Config.identitySignature body)

/-- The virtual functions covered: the one named, or all with an accepted image by 0xFF. -/
def coveredVfs (s : State) (n : Nat) : List Nat :=
  (List.range 32).filter fun i => if n = 0xFF then (vfOf s i).image.isSome else n == i

/-- The report written for a virtual function at a device virtual address. -/
def attestVf (s : State) (vf : Nat) (m : List Word) : Nat × Nat × State :=
  let va := (m.getD 5 0).toNat
  let n := (m.getD 6 0).toNat
  let r := attestReport s ((m.drop 1).take 4) (coveredVfs s vf)
  if va % 4096 ≠ 0 ∨ ¬ (List.range ((va + n - 1) / 65536 + 1 - va / 65536)).all fun i =>
      match translateVf s vf (Nat.max va ((va / 65536 + i) * 65536)) 1 with
      | .ok _ => true
      | .error _ => false then (2, 0, s)
  else if n < r.length then (1, 0, s)
  else (0, r.length, vaWrite s vf va r)

/-- Does the request of a virtual function at an address wait for parked writes: its message, or the tables that map its
buffer; or for room to park the report (R120, R409)? -/
def attestHeld (s : State) (vf va : Nat) : Bool :=
  vaHeld s vf va 64 || (match vaRead s vf va 64 with
    | .ok b =>
      let o := word64At b 40
      let n := Nat.min (word64At b 48) (2 ^ 20)
      (List.range ((o + n - 1) / 65536 + 1 - o / 65536)).any fun i =>
        let lo := Nat.max o ((o / 65536 + i) * 65536)
        walkHeld s none vf lo || (match translateVf s vf lo 1 with
          | .ok pa => (linesOf pa (Nat.min (o + n - lo) (65536 - lo % 65536))).any fun l => parkFull s (128 * l)
          | .error _ => false)
    | .error _ => false)

/-- ATTESTATION_REQUEST: a request of the physical function, or of a virtual function, answered with 0x8011. -/
def execAttestationRequest (src : Option Nat) (s : State) : Host.Outcome State Fault Refusal :=
  let s := bump s
  match src with
  | none =>
    match takenMessage s 0x11 with
    | none => .next s
    | some m =>
      if !mboRoom s then .next s
      else
        let r := attestReport s ((m.drop 1).take 4) (coveredVfs s (m.getD 7 0).toNat)
        let (c, n, s) := fillBuffer s (m.getD 5 0).toNat (m.getD 6 0).toNat r
        .next (serveMessage s m [0x8011, BitVec.ofNat 64 c, BitVec.ofNat 64 n])
  | some vf =>
    match (vfOf s vf).attest with
    | none => .next s
    | some a =>
      if attestHeld s vf a.toNat then .next s
      else
      let s := vaTouch (modVf s vf fun v => { v with attest := none }) vf a.toNat 64
      let (c, n, s) := match vaRead s vf a.toNat 64 with
        | .ok b => attestVf s vf ((List.range 8).map fun i => BitVec.ofNat 64 (word64At b (8 * i)))
        | .error _ => (2, 0, s)
      .next (moduleMessage s vf [0x8011, BitVec.ofNat 64 c, BitVec.ofNat 64 n])

/-! ## Memory transactions (R355, R450) -/

/-- The answer to a host transaction. -/
def reply (s : State) (r : HostReply) : State := { s with reply := some r }

/-- Does every page of a physical range lie in some virtual function's ranges (R98, R355)? -/
def inSomeRange (s : State) (pa n : Nat) : Bool :=
  (List.range ((pa + n - 1) / 65536 + 1 - pa / 65536)).all fun i =>
    (List.range 32).any fun v => ownsPbn s v (pa / 65536 + i)

/-- The words of the 64-byte lines that poison flags mark, from the line of a physical address on (R450). -/
def flaggedWords (pa : Nat) (poison : List Bool) : List Nat :=
  poison.zipIdx.flatMap fun e => if e.1 then (List.range 8).map fun i => (pa / 64 + e.2) * 8 + i else []

/-- PF_MEMORY_WRITE: bytes at physical addresses, with a poison flag for each 64 bytes. It waits while a line finds no
room for parking. -/
def execPfMemoryWrite (pa : Nat) (data : List Byte) (poison : List Bool) (s : State) : Host.Outcome State Fault Refusal :=
  let s := { bump s with reply := none }
  if !hostReaches s then .next s
  else if !inSomeRange s pa data.length then .next (reply s { error := true })
  else if (linesOf pa data.length).any fun l => parkFull s (128 * l) then .next s
  else .next (reply (physPoison (physWrite s pa data) (flaggedWords pa poison)) {})

/-- PF_MEMORY_READ: bytes at physical addresses, with a poison flag for each 64 bytes. -/
def execPfMemoryRead (pa len : Nat) (s : State) : Host.Outcome State Fault Refusal :=
  let s := { bump s with reply := none }
  if !hostReaches s then .next s
  else if !inSomeRange s pa len then .next (reply s { error := true })
  else if parkedIn s pa len then .next s
  else
    let s := touch s pa len
    let flags := (List.range ((pa + len + 63) / 64 - pa / 64)).map fun i => physPoisoned s ((pa / 64 + i) * 64) 64
    .next (reply s { data := physRead s pa len, poison := flags })

/-- The pieces of a virtual range page by page, with their physical addresses; none where a page makes a finding. -/
def vaPieces (s : State) (vf va n access : Nat) : Option (List (Nat × Nat)) :=
  ((List.range ((va + n - 1) / 65536 + 1 - va / 65536)).mapM fun i =>
    let a := Nat.max va ((va / 65536 + i) * 65536)
    let b := Nat.min (va + n) ((va / 65536 + i + 1) * 65536)
    match translateVf s vf a access with
    | .ok pa => some (pa, b - a)
    | .error _ => none)

/-- Does a walk for a page of a virtual range wait for parked writes to the tables (R120)? -/
def rangeWalkHeld (s : State) (vf va n : Nat) : Bool :=
  anyParked s && ((List.range ((va + n - 1) / 65536 + 1 - va / 65536)).any fun i =>
    walkHeld s none vf (Nat.max va ((va / 65536 + i) * 65536)))

/-- VF_MEMORY_WRITE: bytes at device virtual addresses under a virtual function's tables. -/
def execVfMemoryWrite (vf va : Nat) (data : List Byte) (s : State) : Host.Outcome State Fault Refusal :=
  let s := { bump s with reply := none }
  if !hostReaches s || rangeWalkHeld s vf va data.length then .next s
  else match vaPieces s vf va data.length 1 with
    | none => .next (reply s { error := true })
    | some l =>
      if l.any fun p => (linesOf p.1 p.2).any fun x => parkFull s (128 * x) then .next s
      else .next (reply (vaWrite s vf va data) {})

/-- VF_MEMORY_READ: bytes at device virtual addresses under a virtual function's tables. -/
def execVfMemoryRead (vf va len : Nat) (s : State) : Host.Outcome State Fault Refusal :=
  let s := { bump s with reply := none }
  if !hostReaches s || rangeWalkHeld s vf va len then .next s
  else match vaPieces s vf va len 0 with
    | none => .next (reply s { error := true })
    | some l =>
      if l.any fun p => parkedIn s p.1 p.2 then .next s
      else
        let s := l.foldl (fun st p => touch st p.1 p.2) s
        .next (reply s { data := l.flatMap fun p => physRead s p.1 p.2 })

/-! ## Images (R148, R361, R362) -/

/-- A level-0 leaf from a level down: its address and the entry, valid or not. -/
def leafFrom (s : State) (va table : Nat) : Nat → Option (Nat × Nat)
  | 0 =>
    let a := table + 8 * tableIndex 0 va
    some (a, leNat (physRead s a 8))
  | level + 1 =>
    let a := table + 8 * tableIndex (level + 1) va
    let e := leNat (physRead s a 8)
    if physPoisoned s a 8 ∨ e % 2 = 0 ∨ e / 4 % 2 = 1 ∨ entryMalformed (level + 1) e = true then none
    else leafFrom s va (e / 256 % 2 ^ 40 * 256) level

/-- The level-0 leaf that maps a device virtual address, where it is mapped by one (R119). -/
def leafOf (s : State) (vf va : Nat) : Option (Nat × Nat) :=
  match walkDevice s vf va with
  | .ok t => if t.bits = 16 then leafFrom s va (vfOf s vf).root.toNat 4 else none
  | .bad _ => none

/-- The leaves of a run of pages. -/
def leavesOf (s : State) (vf va count : Nat) : Option (List (Nat × Nat)) :=
  (List.range count).mapM fun i => leafOf s vf (va + 65536 * i)

/-- The PBN of an entry. -/
def entryPbn (e : Nat) : Nat := e / 65536 % 2 ^ 32

/-- A leaf stored by the migration engine (R100, R119). -/
def writeLeaf (s : State) (a e : Nat) : State := physWrite s a (leBytes 8 e)

/-- A section of a linked image. -/
structure Section where
  kind : Nat
  resident : Bool
  va : Nat
  size : Nat
  offset : Nat

/-- A section entry; none where it is malformed. -/
def sectionOf (b : List Byte) : Option Section :=
  let kind := numAt b 0 1
  let fl := numAt b 1 1
  let va := word64At b 8
  if 6 < kind ∨ 1 < fl ∨ (fl = 1 ∧ kind ≠ 2) ∨ numAt b 2 6 ≠ 0 ∨ va % 65536 ≠ 0 then none
  else some { kind := kind, resident := fl == 1, va := va, size := word64At b 0x10, offset := word64At b 0x18 }

/-- The header and section table of an image; none where they are malformed. -/
def imageSections (header table : List Byte) : Option (List Section) :=
  let n := numAt header 6 2
  if header.take 4 ≠ [0x4B, 0x4C, 0x49, 0x01] ∨ n = 0 ∨ 64 < n ∨ 56 < numAt header 0x10 2
    ∨ numAt header 0x12 14 ≠ 0 ∨ numAt header 0x90 112 ≠ 0 then none
  else (List.range n).mapM fun i => sectionOf ((table.drop (32 * i)).take 32)

/-- The pull of a host-resident section: its pages are mapped with pf set, the host copy standing for the old page. -/
def residentPull (s : State) (vf : Nat) (x : Section) : Option TierMove :=
  (leavesOf s vf x.va ((x.size + 65535) / 65536)).map fun l =>
    { va := x.va, count := l.length, window := false, host := true
      pages := l.zipIdx.map fun e => (e.1.1, x.offset + 65536 * e.2, entryPbn e.1.2)
      leaves := l.map fun e => e.2 ||| 0x40 }

/-- The bytes of a section that the measurement covers: in memory, or in the host. -/
def sectionBytes (s : State) (vf : Nat) (x : Section) : Option (List Byte) :=
  if x.resident then some ((List.range x.size).map fun i => Config.hostMemory s.free (x.offset + i))
  else vaSound s vf x.va x.size

/-- What the check of an image finds: refused with a result, or accepted with its measurement and pulls. -/
def checkImage (s : State) (vf va : Nat) : Except Nat (List Byte × List TierMove) :=
  match vaSound s vf va 256 with
  | none => .error 3
  | some h =>
    match vaSound s vf (va + 256) (32 * numAt h 6 2) with
    | none => .error 3
    | some table =>
      match imageSections h table with
      | none => .error 3
      | some l =>
        if numAt h 4 1 ≠ 1 ∨ numAt h 5 1 ≠ 0 then .error 1
        else if !((List.range (numAt h 0x10 2)).all fun i =>
          Config.capabilityIds.contains (BitVec.ofNat 16 (numAt h (0x20 + 2 * i) 2))) then .error 2
        else match l.mapM (sectionBytes s vf), (l.filter fun x => x.resident).mapM (residentPull s vf) with
          | some bytes, some pulls => .ok (sha512 (h ++ table ++ bytes.flatten), pulls)
          | _, _ => .error 3

/-- The pf bit set in the leaves of a pull. -/
def setPf (s : State) (t : TierMove) : State := (t.pages.zip t.leaves).foldl (fun st p => writeLeaf st p.1.1 p.2) s

/-- The ranges of an image in memory that its check reads: header, section table, and sections. -/
def imageRanges (s : State) (vf va : Nat) : List (Nat × Nat) :=
  match vaSound s vf va 256 with
  | none => [(va, 256)]
  | some h =>
    (va, 256 + 32 * numAt h 6 2) :: (match (vaSound s vf (va + 256) (32 * numAt h 6 2)).bind (imageSections h) with
      | some l => (l.filter fun x => !x.resident).map fun x => (x.va, x.size)
      | none => [])

/-- A write of `vfimg` (R362): a check begins, unless one is in progress. -/
def writeVfimg (s : State) (vf : Nat) (w : Word) : State :=
  if (vfOf s vf).checking.isSome then s else modVf s vf fun v => { v with checking := some w }

/-- What the check of an image does (R362): the image is mapped and measured, and messages tell the host. -/
def judgeImage (s : State) (vf : Nat) (w : Word) : State :=
  match checkImage s vf (w.toNat % 2 ^ 56) with
  | .error r => moduleMessage (modVf s vf fun v => { v with image := none }) vf [0x8002, w, BitVec.ofNat 64 r]
  | .ok (m, pulls) =>
    let words := (List.range 8).map fun i => BitVec.ofNat 64 (word64At m (8 * i))
    let s := pulls.foldl setPf s
    let s := modVf s vf fun v => { v with image := some w, measurement := m, hostSections := pulls }
    moduleMessage (moduleMessage s vf ([0x8002, w, 0] ++ words.take 5)) vf (0x8003 :: words.drop 5)

/-- The management core ends the check in progress of a virtual function's image, which waits for parked writes to it and
touches its lines (R120, R121, R362; log entry 9). -/
def endCheck (s : State) (vf : Nat) : State :=
  match (vfOf s vf).checking with
  | none => s
  | some w =>
    let l := imageRanges s vf (w.toNat % 2 ^ 56)
    if l.any fun r => vaHeld s vf r.1 r.2 then s
    else
      let s := l.foldl (fun st r => vaTouch st vf r.1 r.2) s
      judgeImage (modVf s vf fun v => { v with checking := none }) vf w

/-- VFIMG: a write of `vfimg`. -/
def execVfimg (vf : Nat) (w : Word) (s : State) : Host.Outcome State Fault Refusal :=
  let s := bump s
  .next (if hostReaches s then writeVfimg s vf w else s)

/-! ## Ports and PTP (R350, R358, R449) -/

/-- NDETU_PORT_DOWN: a port is lost. -/
def execNdetuPortDown (port : Nat) (s : State) : Host.Outcome State Fault Refusal :=
  let s := bump s
  .next { s with io := { s.io with portDown := insertRising port s.io.portDown } }

/-- NDETU_PORT_UP: a port comes back. -/
def execNdetuPortUp (port : Nat) (s : State) : Host.Outcome State Fault Refusal :=
  let s := bump s
  .next { s with io := { s.io with portDown := s.io.portDown.filter (· != port) } }

/-- The port that carries PTP: port 0, and port 1 while port 0 is down. -/
def ptpPort (s : State) : Option Nat :=
  if !s.io.portDown.contains 0 then some 0 else if !s.io.portDown.contains 1 then some 1 else none

/-- NSTIME corrected for an offset before steady state (R350): stepped forward, or held until the grandmaster's time
reaches it. A hold in progress goes on as long as the newest offset says, and ends where NSTIME is not ahead. -/
def correctTime (s : State) (off : Int) : State :=
  if s.io.steady then s
  else if off < 0 then
    { s with nstime := if off < -100 then s.nstime + BitVec.ofNat 64 off.natAbs else s.nstime, io := { s.io with nsHold := 0 } }
  else if 100 < off ∨ s.io.nsHold ≠ 0 then { s with io := { s.io with nsHold := off.toNat } }
  else s

/-- PTP_MESSAGE: the offset NSTIME − grandmaster and the rate correction that the firmware makes of it. In steady state NSTIME
is within 2 ns of the grandmaster (R14, R350): a sample with another offset does not come about (log entry 178). -/
def execPtpMessage (port : Nat) (x : PtpSample) (s : State) : Host.Outcome State Fault Refusal :=
  let s := bump s
  if ptpPort s ≠ some port ∨ (s.io.steady = true ∧ 2 < x.offset.natAbs) then .next s
  else
    let rate := max (-500000) (min 500000 x.ratePpb)
    let n := if x.offset.natAbs ≤ 2 then s.io.inBound + 1 else 0
    let s := correctTime s x.offset
    .next { s with io := { s.io with
      nsOff := BitVec.ofInt 32 x.offset, nsHold := if 16 ≤ n then 0 else s.io.nsHold, ratePpb := rate, inBound := n, steady := s.io.steady || decide (16 ≤ n) } }

/-! ## CORE_RETIREMENT (R12, R354) -/

/-- Cores of a Vale that the firmware has retired. -/
def retiredIn (s : State) (vale : Nat) : Nat := s.io.mdret.get (Config.retiredAtReset vale % 256) vale

/-- CORE_RETIREMENT: the firmware retires a core. -/
def execCoreRetirement (k : Nat) (s : State) : Host.Outcome State Fault Refusal :=
  let s := bump s
  if s.io.retired.contains k then .next s
  else .next { s with io := { s.io with
    retired := insertRising k s.io.retired
    mdret := s.io.mdret.insert (k / 192) ((retiredIn s (k / 192) + 1) % 256) } }

end Sys2Proof.Machine
end

