-- ==== Sys2Proof/Machine/TierMove.lean ====
section
/-! DEFINITION. Tier migration (R119 to R121, R409) and dirty tracking (R348, R349). -/

namespace Sys2Proof.Machine

open Sys2Proof

/-! ## The start of a migration (R119) -/

/-- An entry with another page: its PBN replaced. -/
def withPbn (e pbn : Nat) : Nat := e - entryPbn e * 65536 + pbn * 65536

/-- An entry with bit i set or cleared. -/
def withEntryBit (e i : Nat) (b : Bool) : Nat :=
  let rest := e - (e / 2 ^ i % 2) * 2 ^ i
  if b then rest + 2 ^ i else rest

/-- The migration that the registers of a virtual function ask for, with its leaves; none where the range is not
mapped by level-0 leaves or a new page lies outside the ranges. -/
def migrationOf (s : State) (vf count : Nat) : Option (TierMove × List (Nat × Nat)) :=
  let v := vfOf s vf
  let va := bitsOf v.tmva.toNat 55 16 * 65536
  let dst := v.tmdst.toNat
  if count = 0 ∨ ¬ (List.range count).all (fun i => ownsPbn s vf (dst + i)) then none
  else (leavesOf s vf va count).map fun l =>
    let window := decide (count ≤ 16)
    ({ va := va, count := count, window := window
       pages := l.zipIdx.map fun e => (e.1.1, entryPbn e.1.2, dst + e.2)
       leaves := l.zipIdx.map fun e =>
        if window then withEntryBit e.1.2 5 true else withEntryBit (withPbn e.1.2 (dst + e.2)) 6 true }, l)

/-- The translations of a migrated range dropped as `dtlbi` drops them (R102, R119). -/
def dropRange (s : State) (vf va count : Nat) : State :=
  let inside := fun (a : Nat) => decide (va ≤ a) && decide (a < va + 65536 * count)
  dropTranslations s vf (fun t => t.bits == 16 && inside t.va)
    (fun p => decide (p.va < va + 65536 * count) && decide (va < p.va + 2 ^ tableBits p.level)) inside

/-- Does a pass that is being served still need a page of the range (R102, R305)? -/
def rangeNeeded (s : State) (vf va count : Nat) : Bool :=
  passNeeds s vf fun a => decide (va ≤ a) && decide (a < va + 65536 * count)

/-- A migration begins: wp set in every leaf, or the leaves pointed at the new pages with pf set (R120, R121). The
invalidation of a pull is not complete, and busy stays, while a pass that began before it needs a page (R305). -/
def startMigration (s : State) (vf : Nat) (t : TierMove) (l : List (Nat × Nat)) : State :=
  if t.window then
    let s := l.foldl (fun st e => writeLeaf st e.1 (withEntryBit e.2 5 true)) s
    modVf s vf fun v => { v with tier := some t }
  else
    let s := (l.zip t.pages).foldl (fun st e => writeLeaf st e.1.1 (withEntryBit (withPbn e.1.2 e.2.2.2) 6 true)) s
    dropRange (modVf s vf fun v => { v with tier := some { t with dropWait := rangeNeeded s vf t.va t.count } }) vf t.va t.count

/-- A write of `tmctl`: count set, err cleared by a 1, and with go = 1 a migration started or err set. -/
def writeTmctl (s : State) (vf : Nat) (w : Word) : State :=
  let s := modVf s vf fun v => { v with tmcount := w.setWidth 32, tmerr := v.tmerr && !w.getLsbD 61 }
  if !w.getLsbD 62 then s
  else
    let refused := modVf s vf fun v => { v with tmerr := true }
    if (vfOf s vf).tier.isSome then refused
    else match migrationOf s vf (w.toNat % 2 ^ 32) with
      | none => refused
      | some (t, l) => startMigration s vf t l

/-- TMCTL_GO: a write of `tmctl` with go = 1. -/
def execTmctlGo (vf : Nat) (w : Word) (s : State) : Host.Outcome State Fault Refusal :=
  let s := bump s
  .next (if hostReaches s then writeTmctl s vf (w ||| (1#64 <<< 62)) else s)

/-! ## The write-protect window (R120, R409) -/

/-- A page copied with its poison. -/
def copyPage (s : State) (old new : Nat) : State :=
  let bad := (List.range 8192).filterMap fun i =>
    if s.mem.poisoned (old * 65536 + 8 * i) 8 then some (new * 8192 + i) else none
  physPoison (physWrite s (new * 65536) (physRead s (old * 65536) 65536)) bad

/-- An address in an old page, in its new page. -/
def newAddress (t : TierMove) (a : Nat) : Nat :=
  match t.pages.find? fun p => p.2.1 == a / 65536 with
  | some p => p.2.2 * 65536 + a % 65536
  | none => a

/-- The core and remote-atomic entry of the context's that an element with this tag belongs to. -/
def parkedOwner (s : State) (src seq : Nat) : Option (Nat × Nat × AtomicEntry × Nat) :=
  s.cores.findSome? fun c =>
    if coreSource s c.1 ≠ src then none
    else c.2.atomics.findSome? fun e =>
      ((List.range (elemLanes e.2).length).find? fun j => (e.2.seq0 + j) % 2 ^ 40 == seq).map fun j => (c.1, e.1, e.2, j)

/-- A parked element that meets poison: its entry faults as at any other target (R378, R409), unless its core is frozen and
will send it again (R330). -/
def parkedFault (s : State) (src seq : Nat) : State :=
  match parkedOwner s src seq with
  | some (k, e, x, j) =>
    if isFrozen s k ∨ x.faulted then s
    else
      let va := match elemAddr x j with
        | .globalAddr va => va
        | _ => 0
      atomicFault s k e x j va { cause := 3 }
  | none => s

/-- Something parked performed against the new pages; an atomic by the I/O die's atomic unit, which stores its
tag. -/
def replayParked (t : TierMove) (s : State) (p : Parked) : State :=
  match p with
  | .write a bs => physWrite s (newAddress t a) bs
  | .poison w => physPoisonWord s (newAddress t (8 * w) / 8)
  | .atomic a src seq x j =>
    let pa := newAddress t a
    if physPoisoned s pa (elemBytes x) then parkedFault s src seq
    else
    let old := leNat (physRead s pa (elemBytes x))
    let s := physWrite s pa (leBytes (elemBytes x) (elemNew x j old))
    { s with io := { s.io with tags := storeTag s.io.tags src (seq, BitVec.ofNat 64 old) } }

/-- WRITE_PROTECT_WINDOW_COPIED: the pages stand copied, the leaves point at the new pages, and what was parked is
replayed in its order. -/
def execWriteProtectWindowCopied (vf : Nat) (s : State) : Host.Outcome State Fault Refusal :=
  let s := bump s
  match (vfOf s vf).tier with
  | none => .next s
  | some t =>
    if ¬ t.window ∨ rangeNeeded s vf t.va t.count = true then .next s
    else
      let s := t.pages.foldl (fun st p => copyPage st p.2.1 p.2.2) s
      let s := modVf s vf fun v => { v with tier := none }
      let s := t.pages.zipIdx.foldl (fun st p => settleLeaf st t p.2 fun e => withEntryBit (withPbn e p.1.2.2) 5 false) s
      .next (beginPending (t.parked.foldl (replayParked t) (dropRange s vf t.va t.count)) vf)

/-! ## Pull on first touch (R121, R362) -/

/-- The first line of a pull that is not present. -/
def nextLine (t : TierMove) : Option Nat :=
  t.pages.findSome? fun p => ((List.range 512).map (512 * p.2.2 + ·)).find? fun l => !t.present.get false l

/-- The invalidation of a pull whose range no pass needs any longer has completed (R119, R305). -/
def endDrop (s : State) (vf : Nat) : State :=
  match (vfOf s vf).tier with
  | some t =>
    if rangeNeeded s vf t.va t.count then s
    else modVf s vf fun v => endPulls { v with tier := v.tier.map fun t => { t with dropWait := false } }
  | none => s

/-- BACKGROUND_PULL: the next line in ascending address that is not present is filled. -/
def execBackgroundPull (vf : Nat) (s : State) : Host.Outcome State Fault Refusal :=
  let s := bump s
  match (pullsOf (vfOf s vf)).findSome? nextLine with
  | some l => .next (pullLine s l)
  | none => .next (endDrop s vf)

/-! ## Dirty tracking (R348, R451) -/

/-- A write of `vfdctl` to switch the bitmap that receives new bits; a switch in progress stands. -/
def snapDirty (s : State) (vf : Nat) : State :=
  modVf s vf fun v => if v.dbBusy then v else { v with dbCur := !v.dbCur, dbBusy := true }

/-- VFDCTL_SNAP: 1 written to snap. -/
def execVfdctlSnap (vf : Nat) (s : State) : Host.Outcome State Fault Refusal :=
  let s := bump s
  .next (if hostReaches s then snapDirty s vf else s)

/-- DIRTY_SWITCH_COMPLETE: every write performed before the switch has set its bit: busy clears. -/
def execDirtySwitchComplete (vf : Nat) (s : State) : Host.Outcome State Fault Refusal :=
  let s := bump s
  .next (modVf s vf fun v => if v.settling then v else { v with dbBusy := false })

/-- Is every context of a virtual function frozen (R349)? -/
def allFrozen (s : State) (vf : Nat) : Bool :=
  (List.range 8).all fun v => match (ctxOf s vf v).status with
    | .unbound | .lost => true
    | _ => false

/-- A write of `vfdctl` with settle = 1: the settle begins, or is refused while a context is not frozen. -/
def settleVf (s : State) (vf : Nat) : State :=
  if allFrozen s vf then modVf s vf fun v => { v with dbBusy := true, settling := true }
  else modVf s vf fun v => { v with snf := true }

/-- VFDCTL_SETTLE: 1 written to settle. -/
def execVfdctlSettle (vf : Nat) (s : State) : Host.Outcome State Fault Refusal :=
  let s := bump s
  .next (if hostReaches s then settleVf s vf else s)

end Sys2Proof.Machine
end

