-- ==== Sys2Proof/Machine/SaveLayout.lean ====
section
/-! DEFINITION. What stands where in a save area (R333 to R337, R366). The offsets and sizes of the parts are the manual's,
as are the entries of the in-flight record; the order inside a part is the manual's list of its contents, packed as log
entries 120 and 121 say. A part that a debugger may edit (R365) is a list of fields, which says both what is written and
what an edit changes. -/

namespace Sys2Proof.Machine

open Sys2Proof

/-- A field of a record: its offset, its bytes, its value, and the record's owner with another value in it. -/
structure Field (α : Type) where
  off : Nat
  len : Nat
  val : Nat
  set : Nat → α → α

/-- Fields written from an address on. -/
def writeFields {α : Type} (m : Mem) (a : Nat) (l : List (Field α)) : Mem :=
  l.foldl (fun m f => m.writeN (a + f.off) (leBytes f.len f.val)) m

/-- The owner of fields with what the bytes at an address say of them; a field whose bytes stand as they were written
changes nothing. -/
def takeFields {α : Type} (m : Mem) (a : Nat) (l : List (Field α)) (x : α) : α :=
  l.foldl (fun x f =>
    let n := leNat (m.readN (a + f.off) f.len)
    if n = f.val then x else f.set n x) x

/-- n fields of equal size in a row. -/
def fieldRow {α : Type} (off len n : Nat) (val : Nat → Nat) (set : Nat → Nat → α → α) : List (Field α) :=
  (List.range n).map fun i => { off := off + len * i, len := len, val := val i, set := set i }

/-- A number with the bits that a predicate holds of, of n. -/
def bitSet (n : Nat) (f : Nat → Bool) : Nat := ((List.range n).map fun i => if f i then 2 ^ i else 0).foldl (· + ·) 0

/-- The bits of the entries that stand in a table. -/
def validBits {α : Type} (m : FMap α) : Nat := (m.map fun e => 2 ^ e.1).foldl (· + ·) 0

/-- The 64 lanes of a register as a number, and back. -/
def lanesNat (v : List Lane) : Nat := ((List.range 64).map fun i => (lane v i).toNat * 2 ^ (32 * i)).foldl (· + ·) 0
def natLanes (n : Nat) : List Lane := (List.range 64).map fun i => BitVec.ofNat 32 (n / 2 ^ (32 * i))

/-! ## Registers of a core (R335) -/

/-- `s0`–`s63`, PC, predicates, branch registers, loops with start and last, masks, `mp0`–`mp7` (log entry 120). -/
def registerFields (c : Core) : List (Field Core) :=
  fieldRow 0 8 64 (fun i => (c.s.get 0 i).toNat) (fun i n c => { c with s := c.s.put 0 i (BitVec.ofNat 64 n) })
    ++ [{ off := 0x200, len := 8, val := c.pc.toNat, set := fun n c => { c with pc := BitVec.ofNat 64 n } },
      { off := 0x208, len := 8, val := bitSet 16 (c.p.get false)
        set := fun n c => { c with p := (List.range 16).foldl (fun m i => m.put false i (n.testBit i)) [] } }]
    ++ fieldRow 0x210 8 8 (fun i => (c.b.get 0 i).toNat) (fun i n c => { c with b := c.b.put 0 i (BitVec.ofNat 64 n) })
    ++ fieldRow 0x250 24 4 (fun i => let r := c.l.get {} i; r.cnt.toNat + 2 ^ 64 * r.start.toNat + 2 ^ 128 * r.last.toNat)
      (fun i n c => { c with l := c.l.put {} i { c.l.get {} i with
        cnt := BitVec.ofNat 64 n, start := BitVec.ofNat 64 (n / 2 ^ 64), last := BitVec.ofNat 64 (n / 2 ^ 128) } })
    ++ fieldRow 0x2B0 8 7 (fun i => (c.vm.get 0 (i + 1)).toNat)
      (fun i n c => { c with vm := c.vm.put 0 (i + 1) (BitVec.ofNat 64 n) })
    ++ fieldRow 0x300 8 8 (fun i => (c.mp.get 0 i).toNat) (fun i n c => { c with mp := c.mp.put 0 i (BitVec.ofNat 64 n) })

/-- The scales of the queue, oldest first, at their places; a place that an `sqfill` reserved shows what it has read. -/
def queueBytes (l : List SqItem) : List Byte :=
  l.flatMap fun i => match i with
    | .scale b | .bad b => [b]
    | .hole _ _ n d => padTo n 0 (d.getD [])

/-- The scale queue with other scales in its places. -/
def putQueue (bs : List Byte) : List SqItem → List SqItem
  | [] => []
  | .scale _ :: rest => .scale (bs.headD 0) :: putQueue (bs.drop 1) rest
  | .bad b :: rest => (if bs.headD 0 = b then .bad b else .scale (bs.headD 0)) :: putQueue (bs.drop 1) rest
  | .hole ch id n d :: rest => .hole ch id n (d.map fun _ => bs.take n) :: putQueue (bs.drop n) rest

/-- The scale queue with the counts of `sqst` (R218): its first scales, and no reserved places where none are counted. -/
def putCounts (n : Nat) (l : List SqItem) : List SqItem :=
  let scales := l.filterMap fun i => match i with
    | .hole _ _ _ _ => none
    | x => some x
  padTo (n % 256) (.scale 0) (scales.take (n % 256)) ++ (if n / 256 = 0 then [] else l.filter fun i => match i with
    | .hole _ _ _ _ => true
    | _ => false)

/-- A monitor entry in 16 bytes: state, cause, scratchpad and line in the first word, the line of the virtual address in the
second, with the low bits of the order of arming above it. -/
def monitorNat (m : Monitor) : Nat :=
  let where_ := fun (sc : Option Nat) (l va : Nat) =>
    2 ^ 8 * ((sc.map (· + 1)).getD 0 % 2 ^ 14) + 2 ^ 22 * (l % 2 ^ 42) + 2 ^ 64 * (va / 128 % 2 ^ 49)
  match m with
  | .free => 0
  | .armed sc l va t => 1 + where_ sc l va + 2 ^ 113 * (t % 2 ^ 15)
  | .fired cause sc l va => 2 + 4 * cause + where_ sc l va

/-- A monitor entry from its 16 bytes; of the order of arming what they leave out stays. -/
def natMonitor (n : Nat) (m : Monitor) : Monitor :=
  let sc := if n / 2 ^ 8 % 2 ^ 14 = 0 then none else some (n / 2 ^ 8 % 2 ^ 14 - 1)
  let l := n / 2 ^ 22 % 2 ^ 42
  let va := n / 2 ^ 64 % 2 ^ 49 * 128
  match n % 4, m with
  | 1, .armed _ _ _ t => .armed sc l va t
  | 1, _ => .armed sc l va (n / 2 ^ 113)
  | 2, _ => .fired (n / 4 % 2 ^ 6) sc l va
  | _, _ => .free

/-- Scale queue, status words, monitors and copy descriptors. -/
def statusFields (c : Core) : List (Field Core) :=
  [{ off := 0x340, len := 64, val := leNat (queueBytes c.sq), set := fun n c => { c with sq := putQueue (leBytes 64 n) c.sq } },
    { off := 0x380, len := 8, val := c.astat.toNat, set := fun n c => { c with astat := BitVec.ofNat 64 n } },
    { off := 0x388, len := 8, val := c.stcfg.toNat, set := fun n c => { c with stcfg := BitVec.ofNat 64 n } },
    { off := 0x390, len := 8, val := ((coreCsr c 0x052).map (·.toNat)).getD 0, set := fun n c => { c with sq := putCounts n c.sq } },
    { off := 0x398, len := 8, val := c.xdone0, set := fun n c => { c with xdone0 := n } },
    { off := 0x3A0, len := 8, val := c.xdone1, set := fun n c => { c with xdone1 := n } },
    { off := 0x3A8, len := 8, val := c.nextId0, set := fun n c => { c with nextId0 := n } },
    { off := 0x3B0, len := 8, val := c.nextId1, set := fun n c => { c with nextId1 := n } },
    { off := 0x3B8, len := 8, val := c.tagSeq, set := fun n c => { c with tagSeq := n } }]
    ++ fieldRow 0x3C0 16 4 (fun i => monitorNat (c.monitors.get .free i))
      (fun i n c => { c with monitors := c.monitors.put .free i (natMonitor n (c.monitors.get .free i)) })
    ++ fieldRow 0x400 64 16 (fun i => leNat ((c.cd.find? i).getD [])) (fun i n c => { c with cd := c.cd.insert i (leBytes 64 n) })

/-! ## Rings, streams, progress (R335) -/

/-- The slots that recorded copies hold at one side of a ring. -/
def heldSlots (l : List (Nat × Bool)) : Nat := bitSet 64 fun i => l.any fun x => x.1 == i

/-- Slots held at one side of a ring, from the bits that name them. -/
def putSlots (n : Nat) (l : List (Nat × Bool)) : List (Nat × Bool) :=
  (l.filter fun x => n.testBit x.1) ++ ((List.range 64).filter fun i => n.testBit i && !(l.any fun x => x.1 == i)).map fun i => (i, false)

/-- A ring in 32 bytes: its status as `csrr` reads it (R238), its place and size, and the slots assigned at either side. -/
def ringFields (c : Core) : List (Field Core) :=
  (List.range 16).flatMap fun i =>
    let r := ringOf c i
    let put := fun (f : Ring → Ring) (c : Core) => setRing c i (f (ringOf c i))
    [{ off := 0x800 + 32 * i, len := 8, val := ((coreCsr c (0x060 + i)).map (·.toNat)).getD 0
       set := fun n => put fun r => { r with
        cfg := n.testBit 63, wp := n / 2 ^ 40 % 256, rp := n / 2 ^ 32 % 256, free := n / 2 ^ 16 % 2 ^ 16, filled := n % 2 ^ 16 } },
      { off := 0x808 + 32 * i, len := 8, val := r.base + 2 ^ 32 * r.sz + 2 ^ 48 * r.ns
        set := fun n => put fun r => { r with base := n % 2 ^ 32, sz := n / 2 ^ 32 % 2 ^ 16, ns := n / 2 ^ 48 } },
      { off := 0x810 + 32 * i, len := 8, val := heldSlots r.prod, set := fun n => put fun r => { r with prod := putSlots n r.prod } },
      { off := 0x818 + 32 * i, len := 8, val := heldSlots r.cons, set := fun n => put fun r => { r with cons := putSlots n r.cons } }]

/-- A stream in 64 bytes: ring and position, and its pattern, levels 0 to 3. -/
def streamFields (c : Core) : List (Field Core) :=
  (List.range 8).flatMap fun i =>
    let t := c.stream.get {} i
    let put := fun (f : Stream → Stream) (c : Core) => { c with stream := c.stream.put {} i (f (c.stream.get {} i)) }
    [{ off := 0xA00 + 64 * i, len := 8
       val := (if t.bound then 1 else 0) + (if t.dst then 2 else 0) + (if t.freeing then 4 else 0) + 2 ^ 8 * t.ring
        + 2 ^ 16 * (t.slot.map (· + 1)).getD 0 + 2 ^ 32 * t.landed
       set := fun n => put fun t => { t with
        bound := n.testBit 0, dst := n.testBit 1, freeing := n.testBit 2, ring := n / 2 ^ 8 % 256, landed := n / 2 ^ 32
        slot := if n / 2 ^ 16 % 2 ^ 16 = 0 then none else some (n / 2 ^ 16 % 2 ^ 16 - 1) } },
      { off := 0xA08 + 64 * i, len := 8, val := t.pos, set := fun n => put fun t => { t with pos := n } },
      { off := 0xA10 + 64 * i, len := 8, val := t.o, set := fun n => put fun t => { t with o := n } },
      { off := 0xA18 + 64 * i, len := 8, val := ((t.counts.zipIdx).map fun x => x.1 * 2 ^ (16 * x.2)).foldl (· + ·) 0
        set := fun n => put fun t => { t with counts := (List.range 4).map fun j => n / 2 ^ (16 * j) % 2 ^ 16 } },
      { off := 0xA20 + 64 * i, len := 16
        val := ((t.strides.zipIdx).map fun x => (BitVec.ofInt 32 x.1).toNat * 2 ^ (32 * x.2)).foldl (· + ·) 0
        set := fun n => put fun t => { t with
          strides := (List.range 4).map fun j => (BitVec.ofNat 32 (n / 2 ^ (32 * j))).toInt } }]

/-- Fields of a part at an offset of its owner. -/
def partFields {α β : Type} (off : Nat) (l : List (Field α)) (put : (α → α) → β → β) : List (Field β) :=
  l.map fun f => { off := off + f.off, len := f.len, val := f.val, set := fun n => put (f.set n) }

/-- A dispatch in 40 bytes: tag, control core and table entry, operation and gang, descriptor's address, pc. -/
def dispatchFields (d : Dispatch) : List (Field Dispatch) :=
  [{ off := 0, len := 8, val := d.tag.toNat, set := fun n d => { d with tag := BitVec.ofNat 64 n } },
    { off := 8, len := 8, val := 1 + 2 ^ 8 * d.entry + 2 ^ 16 * d.ctl
      set := fun n d => { d with entry := n / 2 ^ 8 % 2 ^ 8, ctl := n / 2 ^ 16 } },
    { off := 16, len := 8, val := d.op + 2 ^ 8 * d.gang + (if d.coll then 2 ^ 16 else 0) + if d.resume then 2 ^ 17 else 0
      set := fun n d => { d with op := n % 2 ^ 8, gang := n / 2 ^ 8 % 2 ^ 8, coll := n.testBit 16, resume := n.testBit 17 } },
    { off := 24, len := 8, val := d.descAddr.toNat, set := fun n d => { d with descAddr := BitVec.ofNat 64 n } },
    { off := 32, len := 8, val := d.pc.toNat, set := fun n d => { d with pc := BitVec.ofNat 64 n } }]

/-- The dispatch that a sequencer holds, if any. -/
def heldDispatch (off : Nat) (d : Option Dispatch) (put : (Dispatch → Dispatch) → Core → Core) : List (Field Core) :=
  match d with
  | none => []
  | some d => partFields off (dispatchFields d) put

/-- Progress registers, `ktile` and `karg`, executing and pending dispatch. -/
def progressFields (c : Core) : List (Field Core) :=
  fieldRow 0xC00 8 7 (fun i => c.prgI.get 0 i) (fun i n c => { c with prgI := c.prgI.put 0 i n })
    ++ [{ off := 0xC38, len := 8, val := c.prgStep, set := fun n c => { c with prgStep := n } },
      { off := 0xC40, len := 8, val := c.prgAcc.toNat, set := fun n c => { c with prgAcc := BitVec.ofNat 64 n } },
      { off := 0xC48, len := 8, val := c.prgCmask.toNat, set := fun n c => { c with prgCmask := BitVec.ofNat 32 n } }]
    ++ fieldRow 0xC50 8 4 (fun i => (c.ktile.get 0 i).toNat) (fun i n c => { c with ktile := c.ktile.put 0 i (BitVec.ofNat 64 n) })
    ++ [{ off := 0xC70, len := 8, val := c.karg.toNat, set := fun n c => { c with karg := BitVec.ofNat 64 n } }]
    ++ heldDispatch 0xC80 c.seq.exec (fun f c => { c with seq := { c.seq with exec := c.seq.exec.map f } })
    ++ heldDispatch 0xCC0 c.seq.pend (fun f c => { c with seq := { c.seq with pend := c.seq.pend.map f } })

/-! ## The in-flight record (R336, R337) -/

/-- A table with the entries whose bits are set: those that stand, and new ones with nothing in them yet. -/
def putValid {α : Type} (d : α) (n bits : Nat) (m : FMap α) : FMap α :=
  (List.range n).filterMap fun i => if bits.testBit i then some (i, (m.find? i).getD d) else none

/-- The IFR header up to the commit cursor. -/
def ifrFields (c : Core) : List (Field Core) :=
  [{ off := 0xD00, len := 4, val := validBits c.copies, set := fun n c => { c with copies := putValid {} 32 n c.copies } },
    { off := 0xD04, len := 8, val := validBits c.loads, set := fun n c => { c with loads := putValid {} 64 n c.loads } },
    { off := 0xD0C, len := 2, val := validBits c.atomics, set := fun n c => { c with atomics := putValid {} 16 n c.atomics } },
    { off := 0xD0E, len := 1, val := validBits c.barriers, set := fun n c => { c with barriers := putValid {} 8 n c.barriers } },
    { off := 0xD10, len := 120, val := leNat (padTo 120 0xFF (c.ord.map fun o => BitVec.ofNat 8 o))
      set := fun n c => { c with ord := ((leBytes 120 n).map (·.toNat)).takeWhile (· != 0xFF) } }]

/-- The commit cursor cg, cm, cgr in the IFR header. -/
def cursorBytes (cursor : Nat × Nat × Nat) : List Byte :=
  leBytes 1 cursor.1 ++ leBytes 1 0 ++ leBytes 2 cursor.2.1 ++ leBytes 4 cursor.2.2

/-- The fields of a table's entries from an offset on. -/
def tableFields {α β : Type} (off size : Nat) (m : FMap α) (fields : α → List (Field α)) (put : Nat → (α → α) → β → β) :
    List (Field β) :=
  m.flatMap fun e => partFields (off + size * e.1) (fields e.2) (put e.1)

/-- A copy entry. -/
def copyFields (x : CopyEntry) : List (Field CopyEntry) :=
  [{ off := 0, len := 64, val := leNat x.desc, set := fun n x => { x with desc := leBytes 64 n } },
    { off := 0x40, len := 8, val := x.id, set := fun n x => { x with id := n } },
    { off := 0x48, len := 8, val := x.done, set := fun n x => { x with done := n } },
    { off := 0x50, len := 8, val := x.tag0, set := fun n x => { x with tag0 := n } },
    { off := 0x58, len := 1, val := x.op, set := fun n x => { x with op := n } },
    { off := 0x59, len := 1, val := x.channel % 2 + (if x.bySeq then 2 else 0) + x.cls % 4 * 4
      set := fun n x => { x with channel := n % 2, bySeq := n.testBit 1, cls := n / 4 % 4 } },
    { off := 0x5A, len := 2, val := x.slot.getD 0, set := fun n x => { x with slot := some n } },
    { off := 0x5C, len := 4, val := x.list, set := fun n x => { x with list := n } }]

/-- A load entry. -/
def loadFields (x : LoadEntry) : List (Field LoadEntry) :=
  [{ off := 0, len := 8, val := x.addr.toNat, set := fun n x => { x with addr := BitVec.ofNat 64 n } },
    { off := 8, len := 1, val := x.kind, set := fun n x => { x with kind := n } },
    { off := 9, len := 1, val := (if x.applied then 1 else 0) + (if x.interlocked then 2 else 0) + x.sz % 4 * 4
      set := fun n x => { x with applied := n.testBit 0, interlocked := n.testBit 1, sz := n / 4 % 4 } },
    { off := 0xA, len := 2, val := x.aop % 256 + x.sd % 128 * 256 + (if x.cas then 2 ^ 15 else 0)
      set := fun n x => { x with aop := n % 256, sd := n / 256 % 128, cas := n.testBit 15 } },
    { off := 0x10, len := 8, val := x.operand.toNat, set := fun n x => { x with operand := BitVec.ofNat 64 n } },
    { off := 0x18, len := 8, val := x.expected.toNat, set := fun n x => { x with expected := BitVec.ofNat 64 n } }]

/-- A remote-atomic entry. -/
def atomicFields (x : AtomicEntry) : List (Field AtomicEntry) :=
  [{ off := 0, len := 8, val := x.addr.toNat, set := fun n x => { x with addr := BitVec.ofNat 64 n } },
    { off := 8, len := 1, val := x.kind, set := fun n x => { x with kind := n } },
    { off := 9, len := 1, val := (if x.interlocked then 1 else 0) + x.sz % 4 * 2
      set := fun n x => { x with interlocked := n.testBit 0, sz := n / 2 % 4 } },
    { off := 0xA, len := 1, val := x.aop, set := fun n x => { x with aop := n } },
    { off := 0xB, len := 1, val := x.sd, set := fun n x => { x with sd := n } },
    { off := 0xC, len := 1, val := x.ty, set := fun n x => { x with ty := n } },
    { off := 0xD, len := 1, val := x.rm, set := fun n x => { x with rm := n } },
    { off := 0xE, len := 2, val := x.first, set := fun n x => { x with first := n } },
    { off := 0x10, len := 8, val := x.seq0, set := fun n x => { x with seq0 := n } },
    { off := 0x18, len := 8, val := if x.kind = 2 then 0 else x.operand.toNat
      set := fun n x => { x with operand := BitVec.ofNat 64 n } },
    { off := 0x20, len := 8, val := x.result.toNat, set := fun n x => { x with result := BitVec.ofNat 64 n } },
    { off := 0x28, len := 8, val := x.mask.toNat, set := fun n x => { x with mask := BitVec.ofNat 64 n } },
    { off := 0x30, len := 8, val := if x.kind = 1 then x.newv.toNat else 0, set := fun n x => { x with newv := BitVec.ofNat 64 n } }]

/-- The operands of a `vamo`. -/
def operandFields (x : AtomicEntry) : List (Field AtomicEntry) :=
  if x.kind = 2 then
    [{ off := 0, len := 256, val := lanesNat x.vb, set := fun n x => { x with vb := natLanes n } },
      { off := 0x100, len := 256, val := lanesNat x.vc, set := fun n x => { x with vc := natLanes n } }]
  else []

/-- A barrier-arrival entry. -/
def barrierFields (x : BarrierEntry) : List (Field BarrierEntry) :=
  [{ off := 0, len := 1, val := x.gang, set := fun n x => { x with gang := n } },
    { off := 1, len := 1, val := x.op, set := fun n x => { x with op := n } },
    { off := 2, len := 1, val := if x.acked then 1 else 0, set := fun n x => { x with acked := n.testBit 0 } },
    { off := 8, len := 8, val := x.seq, set := fun n x => { x with seq := n } },
    { off := 0x10, len := 8, val := x.episode, set := fun n x => { x with episode := n } }]

/-- The entries of the in-flight record. -/
def entryFields (c : Core) : List (Field Core) :=
  tableFields 0xE00 32 c.barriers barrierFields (fun i f c => { c with barriers := c.barriers.modify {} i f })
    ++ tableFields 0x1000 96 c.copies copyFields (fun i f c => { c with copies := c.copies.modify {} i f })
    ++ tableFields 0x1C00 32 c.loads loadFields (fun i f c => { c with loads := c.loads.modify {} i f })
    ++ tableFields 0x2400 64 c.atomics atomicFields (fun i f c => { c with atomics := c.atomics.modify {} i f })
    ++ tableFields 0x6000 512 c.atomics operandFields (fun i f c => { c with atomics := c.atomics.modify {} i f })

/-- The vector registers. -/
def vectorFields (c : Core) : List (Field Core) :=
  fieldRow 0x2800 256 56 (fun i => lanesNat ((c.v.find? i).getD [])) (fun i n c => { c with v := c.v.insert i (natLanes n) })

/-- The save record but for the entries of the in-flight record, which its header lists. -/
def recordFields (c : Core) : List (Field Core) :=
  registerFields c ++ statusFields c ++ ringFields c ++ streamFields c ++ progressFields c ++ ifrFields c ++ vectorFields c

/-! ## Pending register writes (R366) -/

/-- The class, number and place of a pending register write; none where a result goes to no register. -/
def pendingPlace (d : Dest) : Option (Nat × Nat) :=
  match d with
  | .s n => some (0, n)
  | .p n => some (1, n)
  | .b n => some (2, n)
  | .vm n => some (3, n)
  | .v n => some (4, n)
  | .csr n => some (5, n)
  | .push _ => none
  | .none => none

/-- The pending register writes of a core: results that have not landed and go to a register. -/
def pendingWrites (c : Core) : List Pending := c.pending.filter fun p => !p.landed && (pendingPlace p.dest).isSome

/-- A pending register write: class, number, remaining count, lane mask, value. -/
def pendingBytes (c : Core) (p : Pending) : List Byte :=
  let (cls, n) := (pendingPlace p.dest).getD (0, 0)
  [Config.pendingClass cls] ++ leBytes 1 n ++ leBytes 1 (p.bound - c.clk) ++ leBytes 5 0 ++ leBytes 8 p.mask.toNat
    ++ leBytes 256 (if p.lanes.isEmpty then p.scalar.toNat else lanesNat p.lanes)

/-! ## Images of a core's units (R334) -/

/-- Bytes at an offset. -/
abbrev Piece := Nat × List Byte

/-- The code of a bank's kind. -/
def kindCode (k : BankKind) : Nat :=
  match k with
  | .none => 0
  | .fp32 => 1
  | .int32 => 2
  | .idx => 3

/-- The kind of a code. -/
def codeKind (n : Nat) : BankKind :=
  match n with
  | 1 => .fp32
  | 2 => .int32
  | 3 => .idx
  | _ => .none

/-- The 24 bits of a matrix command's form, and a form from them. -/
def formNat (f : MF) : Nat := (f.f2 ++ f.imm ++ f.ty ++ f.mp ++ f.sa ++ f.bank : BitVec 24).toNat
def natForm (n : Nat) : MF :=
  { f2 := BitVec.ofNat 2 (n / 2 ^ 22), imm := BitVec.ofNat 8 (n / 2 ^ 14), ty := BitVec.ofNat 4 (n / 2 ^ 10)
    mp := BitVec.ofNat 3 (n / 2 ^ 7), sa := BitVec.ofNat 6 (n / 2), bank := BitVec.ofNat 1 n }

/-- A queued matrix command in 1 KiB: operation, form, scalar, progress, its `mp` registers, then its vector operands. -/
def commandPiece (i : Nat) (x : MatrixCmd) : Piece :=
  let r : MatrixRun := x.run.getD {}
  (0x38000 + 0x400 * i,
    words [x.op, formNat x.form, x.sval.toNat, if x.run.isSome then 1 else 0, r.pc, r.kdone, r.rows, r.flags.toNat]
    ++ padTo 192 0 (words (r.loops.length :: r.loops.flatMap fun l => [l.1, l.2.1, l.2.2]))
    ++ leBytes 256 (lanesNat x.veca) ++ leBytes 256 (lanesNat x.vecb) ++ words ((List.range 8).map fun j => (x.mps.get 0 j).toNat))

/-- The matrix image: `acc0`, `acc1`, their k-counts and kinds, mode and pos, row and column sums, microwords, directory,
latch, command queue. -/
def matrixPieces (c : Core) : List Piece :=
  let cells := fun (o : Nat) (b : Bank) => b.cells.map fun e => (o + 4 * e.1, leBytes 4 e.2.toNat)
  cells 0 c.acc0 ++ cells 0x10000 c.acc1
    ++ [(0x20000, words [c.acc0.count, kindCode c.acc0.kind, c.acc1.count, kindCode c.acc1.kind,
      (c.mmode.blk8 :: c.mmode.satInt :: c.mmode.aSigned :: c.mmode.bSigned :: [c.mmode.capture]).zipIdx.foldl
        (fun a e => if e.1 then a + 2 ^ e.2 else a) 0, c.latchPos, c.mqueue.length])]
    ++ c.rowSum.map (fun e => (0x20200 + 4 * e.1, leBytes 4 e.2.toNat))
    ++ c.colSum.map (fun e => (0x20400 + 4 * e.1, leBytes 4 e.2.toNat))
    ++ c.microwords.map (fun e => (0x28000 + 8 * e.1, leBytes 8 e.2.toNat))
    ++ c.directory.map (fun e => (0x2C000 + 2 * e.1, leBytes 2 e.2.toNat))
    ++ c.latch.map (fun e => (0x30000 + e.1, [e.2]))
    ++ c.mqueue.zipIdx.map fun e => commandPiece e.2 e.1

/-- The stash image: line VA with its state in the low bits, and the mask of dirty bytes. -/
def stashPieces (c : Core) : List Piece :=
  c.stash.map fun e => (24 * e.1, leBytes 8 (e.2.va + 1 + (if e.2.owned then 2 else 0) + if e.2.w then 4 else 0)
    ++ leBytes 16 e.2.dirty.toNat)

/-- The tags that the scratchpad's atomic port stores: source and 1, sequence number, result. -/
def tagPieces (c : Core) : List Piece := c.portTags.zipIdx.map fun e => (24 * e.2, words [e.1.1 + 1, e.1.2.1, e.1.2.2.toNat])

/-- The parts of n bytes that hold some byte, by number, rising. -/
def partsHeld (m : FMap Byte) (n : Nat) : List Nat := (m.map fun e => e.1 / n).foldl (fun l i => insertRising i l) []

/-- Buffered bytes by parts of n: address, mask of k bytes, bytes. -/
def maskedPieces (n k : Nat) (m : FMap Byte) : List Piece :=
  (partsHeld m n).zipIdx.map fun e =>
    ((8 + k + n) * e.2, leBytes 8 (n * e.1) ++ leBytes k (bitSet n fun i => (m.find? (n * e.1 + i)).isSome)
      ++ (List.range n).map fun i => (m.find? (n * e.1 + i)).getD 0)

/-- Pieces moved up. -/
def piecesAt (o : Nat) (l : List Piece) : List Piece := l.map fun p => (o + p.1, p.2)

/-- The images of a core's units and its list of pending register writes. Buffered stores: the granules of the store buffer
from 0x8'8000, each in 48 bytes, room for 3,072; the lines of the pending entries from 0xB'0000, each in 152 bytes, room for
2,048. -/
def unitPieces (c : Core) : List Piece :=
  piecesAt 0x8000 (matrixPieces c) ++ piecesAt 0x48000 (stashPieces c) ++ piecesAt 0x78000 (tagPieces c)
    ++ piecesAt 0x88000 (maskedPieces 32 8 c.sbuf) ++ piecesAt 0xB0000 (maskedPieces 128 16 c.pend)
    ++ (0x118000, leBytes 8 (pendingWrites c).length) :: (pendingWrites c).zipIdx.map fun e =>
      (0x118020 + 272 * e.2, pendingBytes c e.1)

/-- Where the bytes of an aligned word of a pending entry stand in a core's area, as a word of it. -/
def pendWord (c : Core) (w : Nat) : Nat :=
  (0xB0000 + 152 * (indexIn (8 * w / 128) 0 (partsHeld c.pend 128)).getD 0 + 24 + 8 * w % 128) / 8

/-- Pieces written from an address on. -/
def writePieces (m : Mem) (a : Nat) (l : List Piece) : Mem := l.foldl (fun m p => m.writeN (a + p.1) p.2) m

/-- A core's save area of 6 MiB at an address: save record, images of its units, pending writes, and the images of the banks
that bk allows. Poisoned pending bytes are poisoned words of their image (R453). -/
def writeCoreArea (m : Mem) (a bk : Nat) (c : Core) (cursor : Nat × Nat × Nat) : Mem :=
  let m := m.moveIn a {} 0 0x130000
  let m := writeFields (writeFields m a (recordFields c)) a (entryFields c)
  let m := writePieces (m.writeN (a + 0xD88) (cursorBytes cursor)) a (unitPieces c)
  let m := c.pendPoison.foldl (fun m w => m.poisonWord (a / 8 + pendWord c w)) m
  let m := if bk % 2 = 1 then m.moveIn (a + 0x200000) c.spm 0 0x200000 else m
  if bk / 2 % 2 = 1 then m.moveIn (a + 0x400000) c.spm 0x200000 0x200000 else m

/-! ## Reading a core's save area (R341, R365, R452) -/

/-- The numbers of the entries of `size` bytes, of those that fill n bytes at an address, in which some byte is listed. -/
def tableKeys (m : Mem) (a n size : Nat) : List Nat :=
  ((m.cells.filter fun e => decide (a ≤ e.1) && decide (e.1 < a + n)).foldl
    (fun (l : List Nat) e => let i := (e.1 - a) / size; if l.head? = some i then l else i :: l) []).reverse

/-- A table of numbers of `size` bytes. -/
def readTable {α : Type} (m : Mem) (a n size : Nat) (f : Nat → α) : FMap α :=
  (tableKeys m a n size).map fun i => (i, f (leNat (m.readN (a + size * i) size)))

/-- A queued matrix command from its 1 KiB; what has no place in it stays. -/
def readCommand (m : Mem) (a : Nat) (x : MatrixCmd) : MatrixCmd :=
  let w := fun (i : Nat) => leNat (m.readN (a + 8 * i) 8)
  let run : MatrixRun := { pc := w 4, kdone := w 5, rows := w 6, flags := BitVec.ofNat 7 (w 7)
                           loops := (List.range (w 8)).map fun i => (w (9 + 3 * i), w (10 + 3 * i), w (11 + 3 * i)) }
  { x with
    op := w 0, form := natForm (w 1), sval := BitVec.ofNat 64 (w 2), run := if w 3 = 1 then some run else none
    veca := natLanes (leNat (m.readN (a + 256) 256)), vecb := natLanes (leNat (m.readN (a + 512) 256))
    mps := (List.range 8).foldl (fun l i => l.put 0 i (BitVec.ofNat 64 (w (96 + i)))) [] }

/-- A core with the matrix image at an address. -/
def readMatrix (m : Mem) (a : Nat) (c : Core) : Core :=
  let w := fun (o : Nat) => leNat (m.readN (a + o) 8)
  let bank := fun (o p : Nat) (b : Bank) => { b with
    cells := readTable m (a + o) 0x10000 4 (BitVec.ofNat 32), count := w p, kind := codeKind (w (p + 8)) }
  let mode := w 0x20020
  let fresh : MatrixCmd := { op := 0, form := natForm 0 }
  { c with
    acc0 := bank 0 0x20000 c.acc0, acc1 := bank 0x10000 0x20010 c.acc1
    mmode := { c.mmode with
      blk8 := mode.testBit 0, satInt := mode.testBit 1, aSigned := mode.testBit 2, bSigned := mode.testBit 3
      capture := mode.testBit 4 }
    latchPos := w 0x20028
    rowSum := readTable m (a + 0x20200) 0x200 4 (BitVec.ofNat 32), colSum := readTable m (a + 0x20400) 0x200 4 (BitVec.ofNat 32)
    microwords := readTable m (a + 0x28000) 0x4000 8 (BitVec.ofNat 64)
    directory := readTable m (a + 0x2C000) 0x4000 2 (BitVec.ofNat 13)
    latch := readTable m (a + 0x30000) 0x8000 1 (BitVec.ofNat 8)
    mqueue := (List.range (Nat.min (w 0x20030) 16)).map fun i => readCommand m (a + 0x38000 + 0x400 * i) (c.mqueue.getD i fresh) }

/-- A core with the stash image at an address; of a line that the core did not hold, the physical address stays open. -/
def readStash (m : Mem) (a : Nat) (c : Core) : Core :=
  { c with stash := (tableKeys m a 0x30000 24).filterMap fun i =>
      let w := leNat (m.readN (a + 24 * i) 8)
      let old := (c.stash.find? i).getD { va := 0, pa := Config.stashHome i }
      if w.testBit 0 then some (i, { old with
        va := w / 128 * 128, owned := w.testBit 1, w := w.testBit 2, dirty := BitVec.ofNat 128 (leNat (m.readN (a + 24 * i + 8) 16)) })
      else none }

/-- A core with the tags of its scratchpad's port at an address. -/
def readPortTags (m : Mem) (a : Nat) (c : Core) : Core :=
  { c with portTags := (tableKeys m a 0x10000 24).map fun i =>
      let w := fun (j : Nat) => leNat (m.readN (a + 24 * i + 8 * j) 8)
      (w 0 - 1, w 1, BitVec.ofNat 64 (w 2)) }

/-- Buffered bytes by parts of n with masks of k bytes, of those in `len` bytes at an address. -/
def readMasked (n k : Nat) (m : Mem) (a len : Nat) : FMap Byte :=
  (tableKeys m a len (8 + k + n)).foldl (fun l i =>
    let p := a + (8 + k + n) * i
    let va := leNat (m.readN p 8)
    let mask := leNat (m.readN (p + 8) k)
    (List.range n).foldl (fun l j => if mask.testBit j then FMap.insert l (va + j) (m.read (p + 8 + k + j)) else l) l) []

/-- A core with the buffered stores at an address. -/
def readBuffered (m : Mem) (a : Nat) (c : Core) : Core :=
  { c with sbuf := readMasked 32 8 m a 0x24000, pend := readMasked 128 16 m (a + 0x28000) 0x4C000 }

/-- The poisoned words of the pending entries in a core's area at an address. -/
def areaPendPoison (m : Mem) (a : Nat) (c : Core) : List Nat :=
  (c.pend.map fun e => e.1 / 8).foldl (fun l w => if m.poison.contains (a / 8 + pendWord c w) then insertRising w l else l) []

/-- The core with n bytes of its area at an address read by `read`, unless they stand as they were written. -/
def takeUnit (m : Mem) (a n : Nat) (pieces : List Piece) (read : Mem → Nat → Core → Core) (c : Core) : Core :=
  if { ({} : Mem).moveIn 0 m a n with poison := [] } = writePieces {} 0 pieces then c else read m a c

/-- A core with the images of its units at an address. -/
def readUnits (m : Mem) (a : Nat) (c : Core) : Core :=
  let c := takeUnit m (a + 0x8000) 0x40000 (matrixPieces c) readMatrix c
  let c := takeUnit m (a + 0x48000) 0x30000 (stashPieces c) readStash c
  let c := takeUnit m (a + 0x78000) 0x10000 (tagPieces c) readPortTags c
  takeUnit m (a + 0x88000) 0x90000 (maskedPieces 32 8 c.sbuf ++ piecesAt 0x28000 (maskedPieces 128 16 c.pend)) readBuffered c

/-- What the bundle at the saved pc has done, as the entries of the in-flight record tell: its interlocked atomic with the
result if it is applied, its arrival, its fill (R337). -/
def heldOf (c : Core) : Held :=
  let h := match List.find? (fun e : Nat × AtomicEntry => e.2.interlocked && e.2.kind != 2) c.atomics,
      List.find? (fun e : Nat × LoadEntry => e.2.interlocked && e.2.kind == 2) c.loads with
    | some e, _ => { c.held with atomicSent := true, atomicResult := if e.2.first = 0 then none else some e.2.result }
    | none, some e => { c.held with atomicSent := true, atomicResult := if e.2.applied then some e.2.expected else none }
    | none, none => c.held
  let arrival := (List.find? (fun e : Nat × BarrierEntry => e.2.op == 0 || e.2.op == 2) c.barriers).map fun e => (e.2.gang, e.2.episode)
  let fill := (List.find? (fun e : Nat × LoadEntry => e.2.kind == 0) c.loads).map (·.1)
  { h with arrival := if arrival.isSome then arrival else h.arrival, fill := if fill.isSome then fill else h.fill }

/-- A core with what its save area at an address says: first the registers and the header, then the entries that the
header lists, then the images of its units (R365, R452). -/
def readRecord (m : Mem) (a : Nat) (c : Core) : Core :=
  let c := takeFields m a (recordFields c) c
  let c := takeFields m a (entryFields c) c
  readUnits m a { c with held := heldOf c }

/-! ## Control-core records (R333) -/

/-- The CSRs that a control-core record holds. -/
def savedCsrs : List Nat :=
  [0x105, 0x106, 0x10A, 0x140, 0x141, 0x142, 0x143, 0x180, 0x300, 0x302, 0x303, 0x304, 0x305, 0x306, 0x30A, 0x340, 0x341,
    0x342, 0x343, 0x344]

/-- The code of a macro-table entry's state, and the state of a code. -/
def entryCode (x : EntryState) : Nat :=
  match x with
  | .free => 0
  | .running => 1
  | .stopping => 2
  | .stopped => 3
  | .completed => 4
  | .killing => 5
  | .killed => 6
def codeEntry (n : Nat) : EntryState :=
  match n with
  | 1 => .running
  | 2 => .stopping
  | 3 => .stopped
  | 4 => .completed
  | 5 => .killing
  | 6 => .killed
  | _ => .free

/-- A number with the bits of a list of places. -/
def placeBits (n : Nat) (l : List Nat) : Nat := bitSet n l.contains
/-- A list of places with the bits of a number: those that stood first, in their order. -/
def bitPlaces (k n : Nat) (l : List Nat) : List Nat :=
  (l.filter n.testBit) ++ (List.range k).filter fun i => n.testBit i && !l.contains i

/-- A list with as many ranges as counted. -/
def sized (n : Nat) (l : List VRange) : List VRange := padTo n { lo := 0, hi := 0 } (l.take n)

/-- The scoreboard's ranges of an entry: up to n of 16 bytes each (R69, R70). -/
def rangeFields {α : Type} (off n : Nat) (l : List VRange) (put : (List VRange → List VRange) → α → α) : List (Field α) :=
  (List.range (Nat.min n l.length)).map fun i =>
    let r := l.getD i { lo := 0, hi := 0 }
    { off := off + 16 * i, len := 16, val := (BitVec.ofInt 64 r.lo).toNat + 2 ^ 64 * (BitVec.ofInt 64 r.hi).toNat
      set := fun x => put fun l => l.set i { lo := (BitVec.ofNat 64 x).toInt, hi := (BitVec.ofNat 64 (x / 2 ^ 64)).toInt } }

/-- A macro-table entry, which is the scoreboard's too, in 224 bytes: state, operation and gang, tag, addresses, counts,
time, members, and its read and write ranges (R66, R69, R70, R263). -/
def macroFields (e : MacroEntry) : List (Field MacroEntry) :=
  [{ off := 0, len := 8, val := entryCode e.state + 2 ^ 8 * e.op + 2 ^ 16 * e.gang + (if e.isColl then 2 ^ 24 else 0) + if e.dispatched then 2 ^ 25 else 0
     set := fun n e => { e with
      state := codeEntry (n % 2 ^ 8), op := n / 2 ^ 8 % 2 ^ 8, gang := n / 2 ^ 16 % 2 ^ 8, isColl := n.testBit 24, dispatched := n.testBit 25 } },
    { off := 8, len := 8, val := e.tag.toNat, set := fun n e => { e with tag := BitVec.ofNat 64 n } },
    { off := 16, len := 8, val := e.descAddr.toNat, set := fun n e => { e with descAddr := BitVec.ofNat 64 n } },
    { off := 24, len := 8, val := e.pc.toNat, set := fun n e => { e with pc := BitVec.ofNat 64 n } },
    { off := 32, len := 8, val := e.totalSteps, set := fun n e => { e with totalSteps := n } },
    { off := 40, len := 8, val := e.cause, set := fun n e => { e with cause := n } },
    { off := 48, len := 8, val := e.causeSeq, set := fun n e => { e with causeSeq := n } },
    { off := 56, len := 8, val := e.recordsHeld, set := fun n e => { e with recordsHeld := n } },
    { off := 64, len := 8, val := e.rte.toNat, set := fun n e => { e with rte := BitVec.ofNat 64 n } },
    { off := 72, len := 8, val := e.reads.length + 2 ^ 8 * e.writes.length
      set := fun n e => { e with reads := sized (n % 2 ^ 8) e.reads, writes := sized (n / 2 ^ 8 % 2 ^ 8) e.writes } },
    { off := 80, len := 24, val := placeBits 192 e.members, set := fun n e => { e with members := bitPlaces 192 n e.members } },
    { off := 104, len := 24, val := placeBits 192 e.finished, set := fun n e => { e with finished := bitPlaces 192 n e.finished } }]
    ++ rangeFields 128 4 e.reads (fun f e => { e with reads := f e.reads })
    ++ rangeFields 192 2 e.writes (fun f e => { e with writes := f e.writes })

/-- The macro-instruction that waits at the scoreboard: operation, register and gang, descriptor's address, ranges,
descriptor and T3 (R66). -/
def waitFields (h : HeldMacro) : List (Field HeldMacro) :=
  [{ off := 0, len := 8, val := 1 + 2 ^ 8 * h.op + 2 ^ 16 * h.rd + 2 ^ 24 * h.gang + if h.isColl then 2 ^ 32 else 0
     set := fun n h => { h with
      op := n / 2 ^ 8 % 2 ^ 8, rd := n / 2 ^ 16 % 2 ^ 8, gang := n / 2 ^ 24 % 2 ^ 8, isColl := n.testBit 32 } },
    { off := 8, len := 8, val := h.descAddr.toNat, set := fun n h => { h with descAddr := BitVec.ofNat 64 n } },
    { off := 16, len := 256, val := leNat (h.desc.take 256), set := fun n h => { h with desc := leBytes h.desc.length n } },
    { off := 272, len := 512, val := leNat (h.t3.take 512)
      set := fun n h => { h with t3 := leBytes (Nat.min 512 h.t3.length) n ++ h.t3.drop 512 } }]
    ++ rangeFields 784 4 h.reads (fun f h => { h with reads := f h.reads })
    ++ rangeFields 848 2 h.writes (fun f h => { h with writes := f h.writes })

/-- The fields of a control-core record: integer registers, pc, mode, counters, CSRs, monitors, the macro-instruction that
waits, the macro table with the scoreboard. -/
def ctlFields (c : Ctl) : List (Field Ctl) :=
  fieldRow 0 8 32 (fun i => (xGet c i).toNat) (fun i n c => xSet c i (BitVec.ofNat 64 n))
    ++ [{ off := 0x100, len := 8, val := c.pc.toNat, set := fun n c => { c with pc := BitVec.ofNat 64 n } },
      { off := 0x108, len := 8, val := privCode c.priv, set := fun n c => { c with priv := privOf n } },
      { off := 0x110, len := 8, val := c.instret, set := fun n c => { c with instret := n } },
      { off := 0x118, len := 8, val := c.cycle, set := fun n c => { c with cycle := n } },
      { off := 0x120, len := 8, val := c.mrtsel.toNat, set := fun n c => { c with mrtsel := BitVec.ofNat 6 n } },
      { off := 0x128, len := 8, val := c.tagSeq, set := fun n c => { c with tagSeq := n } },
      { off := 0x130, len := 8, val := c.issued, set := fun n c => { c with issued := n } },
      { off := 0x138, len := 8, val := (c.timer.map (·.toNat)).getD (2 ^ 64 - 1)
        set := fun n c => { c with timer := if n = 2 ^ 64 - 1 then none else some (BitVec.ofNat 64 n) } },
      { off := 0x140, len := 8, val := (c.sleepUntil.map (·.toNat)).getD 0
        set := fun n c => { c with sleepUntil := if n = 0 then none else some (BitVec.ofNat 64 n) } },
      { off := 0x148, len := 8, val := (c.mwaitUntil.map (·.2.toNat)).getD 0
        set := fun n c => { c with mwaitUntil := c.mwaitUntil.map fun x => (x.1, BitVec.ofNat 64 n) } }]
    ++ savedCsrs.zipIdx.map (fun e =>
      { off := 0x200 + 8 * e.2, len := 8, val := (csrGet c e.1).toNat, set := fun n c => csrSet c e.1 (BitVec.ofNat 64 n) })
    ++ fieldRow 0x2C0 16 16 (fun i => monitorNat (c.monitors.get .free i))
      (fun i n c => { c with monitors := c.monitors.put .free i (natMonitor n (c.monitors.get .free i)) })
    ++ (match c.held with
      | none => []
      | some h => partFields 0x3C0 (waitFields h) fun f c => { c with held := c.held.map f })
    ++ tableFields 0x800 224 c.macros macroFields (fun i f c => { c with macros := c.macros.modify {} i f })

/-- A control-core record of 16 KiB at an address. -/
def writeCtlRecord (m : Mem) (a : Nat) (c : Ctl) : Mem := writeFields (m.moveIn a {} 0 0x4000) a (ctlFields c)

/-- A control core with what its record at an address says: first which entries its macro table has, then the rest; ranges
once they are counted. -/
def readCtl (m : Mem) (a : Nat) (c : Ctl) : Ctl :=
  let has := (List.range 64).filter fun i => m.read (a + 0x800 + 224 * i) != 0
  let c := { c with macros := has.map fun i => (i, (c.macros.find? i).getD { state := codeEntry (m.read (a + 0x800 + 224 * i)).toNat }) }
  let c := takeFields m a (ctlFields c) c
  takeFields m a (ctlFields c) c

/-! ## The header (R333, R453) -/

/-- A gang's state in 256 bytes: owner, virtual function, episodes, commit cursor, length of its queue, its sets of members,
and the commits that wait. -/
def gangFields (x : Gang) : List (Field Gang) :=
  [{ off := 0, len := 8, val := (x.owner.map (· + 1)).getD 0, set := fun n x => { x with owner := if n = 0 then none else some (n - 1) } },
    { off := 8, len := 8, val := x.vf, set := fun n x => { x with vf := n } },
    { off := 16, len := 8, val := x.episode, set := fun n x => { x with episode := n } },
    { off := 24, len := 8, val := x.granules + (if x.committing.isSome then 2 ^ 32 else 0)
      set := fun n x => { x with granules := n % 2 ^ 32, committing := if n.testBit 32 then some (x.committing.getD []) else none } },
    { off := 32, len := 8, val := x.commitEp, set := fun n x => { x with commitEp := n } },
    { off := 40, len := 8, val := x.queue.length + 2 ^ 32 * x.commits.length
      set := fun n x => { x with commits := padTo (n / 2 ^ 32) (0, []) (x.commits.take (n / 2 ^ 32)) } },
    { off := 48, len := 24, val := placeBits 192 x.members, set := fun n x => { x with members := bitPlaces 192 n x.members } },
    { off := 72, len := 24, val := placeBits 192 (x.arrived.map (·.1))
      set := fun n x => { x with arrived := (bitPlaces 192 n (x.arrived.map (·.1))).map fun k => (k, ((x.arrived.find? (·.1 == k)).map (·.2)).getD 0) } },
    { off := 96, len := 24, val := placeBits 192 x.leavers, set := fun n x => { x with leavers := bitPlaces 192 n x.leavers } },
    { off := 120, len := 24, val := placeBits 192 x.joiners, set := fun n x => { x with joiners := bitPlaces 192 n x.joiners } },
    { off := 144, len := 24, val := placeBits 192 x.committers, set := fun n x => { x with committers := bitPlaces 192 n x.committers } },
    { off := 168, len := 24, val := placeBits 192 (x.committing.getD [])
      set := fun n x => { x with committing := x.committing.map (bitPlaces 192 n) } }]
    ++ (List.range (Nat.min 2 x.commits.length)).flatMap fun i =>
      let y := x.commits.getD i (0, [])
      [{ off := 192 + 32 * i, len := 8, val := y.1, set := fun n x => { x with commits := x.commits.modify i fun y => (n, y.2) } },
        { off := 200 + 32 * i, len := 24, val := placeBits 192 y.2
          set := fun n x => { x with commits := x.commits.modify i fun y => (y.1, bitPlaces 192 n y.2) } }]

/-- The dispatches that wait in the queues of gangs, in ascending gang. -/
def queued (gangs : FMap Gang) : List Dispatch := gangs.flatMap fun e => e.2.queue

/-- The header of a save area from an address: cid, NSTIME of the save, save generation, block map by parts, the gangs'
states, and the dispatches of their queues, 40 bytes each. -/
def writeAreaHeader (m : Mem) (base cid time gen : Nat) (parts : List Nat) (gangs : FMap Gang) : Mem :=
  let m := (m.moveIn base {} 0 0x10000).writeN base (words [cid, time, gen] ++ List.replicate 40 0 ++ leBytes 128 (placeBits 1024 parts))
  let m := gangs.foldl (fun m e => writeFields m (base + 0x1000 + 256 * e.1) (gangFields e.2)) m
  (queued gangs).zipIdx.foldl (fun m e => writeFields m (base + 0xA000 + 40 * e.2) (dispatchFields e.1)) m

/-- The gangs that a header at an address describes; `old` has what stands in no field of it. -/
def readGangs (m : Mem) (base : Nat) (old : FMap Gang) : FMap Gang :=
  let at_ := fun (g : Nat) => base + 0x1000 + 256 * g
  let has := (List.range 64).filter fun g => leNat (m.readN (at_ g) 8) != 0
  let blank : Nat → Dispatch := fun g => { ctl := 0, tag := 0, entry := 0, op := 0, gang := g, desc := [] }
  (has.foldl (fun (a : FMap Gang × Nat) g =>
    let x := (old.find? g).getD {}
    let x := takeFields m (at_ g) (gangFields x) x
    let x := takeFields m (at_ g) (gangFields x) x
    let n := leNat (m.readN (at_ g + 40) 4)
    let queue := (List.range n).map fun i =>
      let d := x.queue.getD i (blank g)
      takeFields m (base + 0xA000 + 40 * (a.2 + i)) (dispatchFields d) d
    (a.1 ++ [(g, { x with queue := queue })], a.2 + n)) ([], 0)).1

end Sys2Proof.Machine
end

