-- ==== Sys2Proof/Machine/SaveArea.lean ====
section
/-! DEFINITION. Save areas: what a save keeps of a context and where, its tags, imports, and the checks of a restore
(R333 to R337, R366, R431, R432, R449, R452 to R454). -/

namespace Sys2Proof.Machine

open Sys2Proof

/-- A core's state with the numbers of cores and control cores in it changed by f and g. -/
def Core.renumber (c : Core) (f g : Nat → Nat) : Core :=
  { c with
    sbuf := c.sbuf.foldl (fun m e => FMap.insert m (f (e.1 / 2 ^ 22) * 2 ^ 22 + e.1 % 2 ^ 22) e.2) []
    copies := c.copies.map fun e => (e.1, { e.2 with
      targets := e.2.targets.map fun t => (f t.1, t.2), delivered := e.2.delivered.map f })
    ring := c.ring.map fun e => (e.1, { e.2 with want := e.2.want.map fun w => (f w.1, w.2) })
    monitors := c.monitors.map fun e => (e.1, match e.2 with
      | .armed sc l va t => .armed (sc.map (spillToo f)) l va t
      | .fired cause sc l va => .fired cause (sc.map (spillToo f)) l va
      | .free => .free)
    seq := { c.seq with exec := c.seq.exec.map (·.renumber g), pend := c.seq.pend.map (·.renumber g) } }

/-- A gang with the control cores of its queue changed. -/
def Gang.renumber (x : Gang) (g : Nat → Nat) : Gang := { x with queue := x.queue.map (·.renumber g) }

/-- A gang commit that a core of a virtual function takes part in: its cursor cg, cm, cgr (R336). -/
def commitCursor (s : State) (vf vale n : Nat) : Nat × Nat × Nat :=
  ((valeOf s vale).gangs.findSome? fun e => match e.2.committing with
    | some (m :: _) => if e.2.owner.isSome && e.2.vf == vf && e.2.committers.contains n then some (e.1, m, e.2.granules) else none
    | _ => none).getD (0xFF, 0, 0)

/-- Where core n's save area begins in its context's. -/
def coreArea (n : Nat) : Nat := 0x4000000 + 0x600000 * n

/-- The ranges of a save area that a save writes, in ascending order: the block map (R333). -/
def blockRanges (i : Image) (bk : Nat) : List (Nat × Nat) :=
  [(0, 0x10000)] ++ i.ctls.zipIdx.map (fun e => (0x10000 + 0x4000 * e.2, 0x14000 + 0x4000 * e.2))
    ++ (if i.passes.isEmpty then [] else [(0x200000, 0x2000000)])
    ++ i.cores.flatMap fun e =>
        let a := coreArea e.1
        [(a, a + 0x130000)] ++ (if bk % 2 = 1 then [(a + 0x200000, a + 0x400000)] else [])
          ++ (if bk / 2 % 2 = 1 then [(a + 0x400000, a + 0x600000)] else [])

/-- The tag bytes of a range of blocks (R333). -/
def tagRange (r : Nat × Nat) : Nat × Nat := (0x4C000000 + r.1 / 4096 * 16, 0x4C000000 + r.2 / 4096 * 16)

/-- The blocks of an image's block map. -/
def blocksOf (i : Image) (bk : Nat) : List Nat :=
  (blockRanges i bk).flatMap fun r => (List.range ((r.2 - r.1) / 4096)).map (r.1 / 4096 + ·)

/-- A save area of 0x4C4C0000 bytes. -/
def areaBytes : Nat := 0x4C4C0000

/-- The bytes of a save area, by offset. -/
def areaSlice (s : State) (base : Nat) : Mem := ({} : Mem).moveIn 0 s.mem base areaBytes

/-- The parts of an image that a save writes, by number: header, control-core records, engine state, and each core's record
and banks. -/
def partsOf (i : Image) (bk : Nat) : List Nat :=
  0 :: i.ctls.zipIdx.map (fun e => 1 + e.2) ++ (if i.passes.isEmpty then [] else [9])
    ++ i.cores.flatMap fun e => (10 + 3 * e.1) :: (if bk % 2 = 1 then [11 + 3 * e.1] else [])
      ++ if bk / 2 % 2 = 1 then [12 + 3 * e.1] else []

/-- n bytes of a block: its listed ones in their places, read at once. -/
def Mem.block (m : Mem) (a n : Nat) : List Byte := (({} : Mem).moveIn 0 m a n).readN 0 n

/-- The tag of a block under a hash: of the block, its offset, vf, Vale and the save generation (R452, R453). -/
def blockTag (hash : List Byte → List Byte) (block : List Byte) (vf vale gen n : Nat) : List Byte :=
  (hash (block ++ leBytes 8 (4096 * n) ++ leBytes 1 vf ++ leBytes 1 vale ++ leBytes 8 gen)).take 16

/-- The keyed tag of a block, as the module's own key makes it (R453). -/
def keyedTag (boot : Nat) (block : List Byte) (vf vale gen n : Nat) : List Byte :=
  blockTag (hmacSha512 (Config.bootKey boot)) block vf vale gen n

/-- The tags of ranges of blocks written after the blocks (R452, R453). -/
def writeTags (m : Mem) (base : Nat) (ranges : List (Nat × Nat)) (tag : List Byte → Nat → List Byte) : Mem :=
  ranges.foldl (fun m r =>
    let t := tagRange r
    let bytes := (List.range ((r.2 - r.1) / 4096)).flatMap fun i =>
      tag (m.block (base + r.1 + 4096 * i) 4096) (r.1 / 4096 + i)
    m.moveIn (base + t.1) (({} : Mem).writeN 0 bytes) 0 (t.2 - t.1)) m

/-- The pages of a save area that a save writes marked dirty, its tags' among them (R348). -/
def dirtyArea (s : State) (base : Nat) (ranges : List (Nat × Nat)) : State :=
  (ranges ++ ranges.map tagRange).foldl (fun st r => dirtyRange st base r) s

/-- The parts of a save area written, of generation `gen`, then its tags (R333 to R337, R453). -/
def writeArea (s : State) (vf vale base bk gen : Nat) (i : Image) : State :=
  let m := writeAreaHeader s.mem base i.cid i.time.toNat gen (partsOf i bk) i.gangs
  let m := i.ctls.zipIdx.foldl (fun m e => writeCtlRecord m (base + 0x10000 + 0x4000 * e.2) e.1.2) m
  let m := if i.passes.isEmpty then m else writePasses m base i.passes
  let m := i.cores.foldl (fun m e => writeCoreArea m (base + coreArea e.1) bk e.2 (commitCursor s vf vale e.1)) m
  let m := writeTags m base (blockRanges i bk) fun block n => keyedTag s.io.bootCount block vf vale gen n
  dirtyArea { s with mem := m } base (blockRanges i bk)

/-! ## The image (R334, R431) -/

/-- What a save keeps of a core: owned lines are written back and released, clean lines dropped. -/
def savedCore (s : State) (vf k : Nat) : Core :=
  let c := coreOf s k
  { c.renumber (logicalKey s vf) (sliceKey s vf) with
    stash := (c.stash.filter fun e => e.2.dirty != 0).map fun e => (e.1, { e.2 with owned := false })
    tlb := [], treq := [], fetched := none, recent := [] }

/-- The image of a frozen context. -/
def imageOf (s : State) (vf vale : Nat) : Image :=
  let f := logicalKey s vf
  let g := sliceKey s vf
  let v := valeOf s vale
  { cid := (bindOf s vf vale).cid.toNat, time := s.nstime
    cores := (contextCores s vf vale).map fun k => (f k % 192, savedCore s vf k)
    ctls := (contextCtls s vf vale).map fun k => (g k, ctlOf s k)
    gangs := (v.gangs.filter fun e => e.2.owner.isSome && e.2.vf == vf).map fun e => (e.1, e.2.renumber g)
    passes := areaPasses s vf vale }

/-- The context's state taken from its cores, control cores, gangs and engine once it is saved. -/
def vacate (s : State) (vf vale : Nat) : State :=
  let cores := contextCores s vf vale
  let ctls := contextCtls s vf vale
  let s := cores.foldl (fun st k => setCore (releaseOwned st k) k {}) s
  let mine := fun (d : Dispatch) => ctls.contains d.ctl
  let s := ctls.foldl (fun st k => modCtl st k emptyCtl) s
  modVale s vale fun v => { v with
    passQueue := v.passQueue.filter fun d => !mine d, aside := v.aside.filter fun p => p.vf != vf
    gangs := v.gangs.map fun e => (e.1, if e.2.owner.isSome ∧ e.2.vf = vf then
      { e.2 with queue := [], committing := none, committers := [] } else e.2) }

/-- A save: the image, its bytes and a new generation (R334, R453). -/
def saveContext (s : State) (vf vale : Nat) : State :=
  let e := bindOf s vf vale
  let base := saveBase s vf vale
  let i := imageOf s vf vale
  let s := writeArea s vf vale base e.bk.toNat ((ctxOf s vf vale).generation + 1) i
  let slice := areaSlice s base
  let s := modCtx (vacate s vf vale) vf vale fun x => { x with
    status := .unbound, restored := false, image := some { i with saved := slice }, generation := x.generation + 1 }
  chargeAccess s vale base vf e.cid.toNat

/-! ## What a restore checks (R453, R454) -/

/-- Does a block of an area, or its tag, differ between two slices? -/
def blockDiffers (a b : Mem) (n : Nat) : Bool :=
  let part := fun (m : Mem) (lo len : Nat) => { ({} : Mem).moveIn 0 m lo len with poison := [] }
  part a (4096 * n) 4096 != part b (4096 * n) 4096 || part a (0x4C000000 + 16 * n) 16 != part b (0x4C000000 + 16 * n) 16

/-- The kinds of a failed restore: block and kind. -/
structure RestoreFail where
  block : Nat
  kind : Nat
deriving DecidableEq, Repr

/-- Is a block one whose poison is no failure: a bank image, the stash image, or buffered stores? -/
def dataBlock (n : Nat) : Bool :=
  let o := (4096 * n - 0x4000000) % 0x600000
  decide (0x4000000 ≤ 4096 * n) && decide (4096 * n < 0x4C000000)
    && (decide (0x200000 ≤ o) || (decide (0x48000 ≤ o) && decide (o < 0x78000)) || (decide (0x88000 ≤ o) && decide (o < 0x118000)))

/-- What is wrong with a block of a save area: poison, a tag that does not match, in the header an older generation (R454). A
block and a tag that stand as the save wrote them match. -/
def blockFault (boot : Nat) (now saved : Mem) (vf vale gen n : Nat) : Option RestoreFail :=
  let tag := 0x4C000000 + 16 * n
  let header := leNat (now.readN 0x10 8)
  if !dataBlock n && now.poisoned (4096 * n) 4096 then some { block := n, kind := 1 }
  else if now.poisoned tag 16 then some { block := tag / 4096, kind := 1 }
  else if blockDiffers now saved n && now.readN tag 16 != keyedTag boot (now.block (4096 * n) 4096) vf vale header n then
    some { block := n, kind := 2 }
  else if n = 0 ∧ header ≠ gen then some { block := 0, kind := 3 }
  else none

/-- The first failure of a restore, in ascending block order. -/
def restoreFault (s : State) (vf vale : Nat) (i : Image) : Option RestoreFail :=
  if !i.accepted then some { block := 0, kind := 4 }
  else
    let now := areaSlice s (saveBase s vf vale)
    if now = i.saved ∧ now.poison = [] then none
    else (blocksOf i (bindOf s vf vale).bk.toNat).findSome? (blockFault s.io.bootCount now i.saved vf vale (ctxOf s vf vale).generation)

/-- Is a bank image of a save area uncorrectable (R434)? -/
def bankImageBad (s : State) (vf vale : Nat) (i : Image) : Bool :=
  let bk := (bindOf s vf vale).bk.toNat
  i.cores.any fun e =>
    let a := saveBase s vf vale + coreArea e.1
    (bk % 2 == 1 && s.mem.poisoned (a + 0x200000) 0x200000) || (bk / 2 % 2 == 1 && s.mem.poisoned (a + 0x400000) 0x200000)

/-! ## What a restore writes (R341, R431) -/

/-- Poisoned words of a bank image as they stand in memory now. -/
def bankPoison (s : State) (base bk n : Nat) : List Nat :=
  let a := (base + coreArea n) / 8
  s.mem.poison.filterMap fun w =>
    if bk % 2 = 1 ∧ a + 0x40000 ≤ w ∧ w < a + 0x80000 then some (w - (a + 0x40000))
    else if bk / 2 % 2 = 1 ∧ a + 0x80000 ≤ w ∧ w < a + 0xC0000 then some (w - (a + 0x40000))
    else none

/-- The image written into the units that the active map gives its logical numbers; agents stay frozen until their
replay (R341, R342). -/
def restoreImage (s : State) (vf vale : Nat) (i : Image) : State :=
  let base := saveBase s vf vale
  let bk := (bindOf s vf vale).bk.toNat
  let f := physicalKey s vf
  let g := ctlKey s vf
  let s := i.cores.foldl (fun st e =>
    match physCore st vale vf e.1 with
    | some k => setCore st k { e.2.renumber f g with
        spm := { e.2.spm with poison := bankPoison st base bk e.1 }, pendPoison := areaPendPoison st.mem (base + coreArea e.1) e.2 }
    | none => st) s
  let s := i.ctls.foldl (fun st e => modCtl st (g e.1) fun c => { e.2 with issued := Nat.max c.issued e.2.issued }) s
  modVale s vale fun v => { v with
    gangs := i.gangs.foldl (fun m e => m.put {} e.1 (e.2.renumber g)) v.gangs
    aside := v.aside ++ (i.passes.filter fun p => p.admitted || p.stopped).map (·.renumber f g)
    passQueue := v.passQueue ++ (i.passes.filter fun p => !p.stopped).map fun p => p.disp.renumber g }

/-! ## The check of logical numbers (R432) -/

/-- The logical core that a tagged local address names, the core's own form apart. -/
def namedCore (w : Word) : List Nat :=
  match taggedOf w with
  | .localAddr a => if a / 2 ^ 22 % 256 = 255 then [] else [a / 2 ^ 22 % 256]
  | _ => []

/-- The logical cores that a core's in-flight record names, in ord order, the bitmaps of its `cpm` apart. -/
def recordCores (c : Core) : List Nat :=
  c.ord.flatMap fun o =>
    if o < 0x20 then match c.copies.find? o with
      | some x =>
        let d := copyDesc x.desc
        namedCore (BitVec.ofNat 64 d.src) ++ (if x.op = 2 then [] else namedCore (BitVec.ofNat 64 d.dst))
      | none => []
    else if 0x60 ≤ o ∧ o < 0x70 then match c.atomics.find? (o - 0x60) with
      | some x => (List.range (elemLanes x).length).flatMap fun j => match elemAddr x j with
        | .localAddr a => if a / 2 ^ 22 % 256 = 255 then [] else [a / 2 ^ 22 % 256]
        | _ => []
      | none => []
    else []

/-- The logical cores that the bitmaps of a core's `cpm` in flight name, in ord order. -/
def bitmapCores (c : Core) : List Nat :=
  c.ord.flatMap fun o => match c.copies.find? o with
    | some x => if o < 0x20 ∧ x.op = 2 ∧ x.tile.isNone = true then (copyDesc x.desc).targets else []
    | none => []

/-- The first logical core that a restored context names and its map leaves out: of its gangs, then of its records, then of
the bitmaps of its `cpm`. -/
def leftOut (s : State) (vf vale : Nat) (i : Image) : Option Nat :=
  ((i.gangs.flatMap fun e => e.2.members) ++ (i.cores.flatMap fun e => recordCores e.2) ++ i.cores.flatMap fun e => bitmapCores e.2).find? fun n =>
    (physCore s vale vf n).isNone

/-! ## Settle and import (R349, R451, R452) -/

/-- The result that a target stores for a tag of a saved context's core: a shared agent, or the port of one of the
context's own scratchpads, whose tags its image holds (R339). -/
def savedTag (s : State) (i : Image) (src seq : Nat) : Option Word :=
  match tagAnywhere s src seq with
  | some r => some r
  | none => i.cores.findSome? fun e => tagResult e.2.portTags src seq

/-- A remote-atomic entry marked: applied with its stored result where its target stores the tag. -/
def settleAtomic (tag : Nat → Option Word) (x : AtomicEntry) : AtomicEntry :=
  if x.kind = 2 then
    let n := ((List.range x.sent).drop x.first).takeWhile fun j => (tag ((x.seq0 + j) % 2 ^ 40)).isSome
    { x with first := x.first + n.length, sent := x.first + n.length }
  else match tag (x.seq0 % 2 ^ 40) with
    | some r => { x with first := 1, sent := 1, result := extend (elemBytes x == 4) (elemBytes x) r.toNat }
    | none => { x with sent := x.first }

/-- A copy entry of class IC1 marked: the lines behind `done` whose tags their target stores are done. -/
def settleCopy (tag : Nat → Option Word) (all : List (Nat × Move)) (x : CopyEntry) : CopyEntry :=
  if x.cls ≠ 1 then x
  else
    let left := (lineRuns all).zipIdx.dropWhile fun l => decide ((l.1.map (·.1)).headD 0 < 2 * x.done)
    let found := left.takeWhile fun l => (tag ((x.tag0 + l.2) % 2 ^ 40)).isSome
    { x with done := ((found.flatMap (·.1)).map fun u => u.1 + u.2.halves).foldl Nat.max (2 * x.done) / 2 }

/-- A saved core with its tagged entries marked; a `vamo` with nothing left leaves the record. The units of its copies are
those of the core as it would stand in the Vale. -/
def settleCore (s : State) (i : Image) (vale cid valeIdx : Nat) (n : Nat) (c : Core) : Core :=
  let src := 4096 * cid + 256 * valeIdx + n
  let tag := savedTag s i src
  let k := 192 * vale + n
  let arrived := fun (b : BarrierEntry) => match List.find? (fun g : Nat × Gang => g.1 == b.gang) i.gangs with
    | some (_, g) => if g.tags.any (fun t => t.1 == src && t.2 == b.seq) then { b with acked := true } else b
    | none => b
  let units := fun (x : CopyEntry) => placed 0 (slotMoves (setCore s k c) k x)
  let c : Core := { c with
    copies := c.copies.map fun e => (e.1, settleCopy tag (units e.2) e.2)
    atomics := c.atomics.map fun e => (e.1, settleAtomic tag e.2)
    barriers := c.barriers.map fun e => (e.1, arrived e.2) }
  (c.atomics.filter fun e => e.2.kind == 2 && decide ((elemLanes e.2).length ≤ e.2.first)).foldl (fun c e => dropAtomic c e.1) c

/-- The migration report of a save area (R452). -/
def migrationReport (s : State) (base vf vale gen : Nat) : List Byte :=
  let head := [0x4B, 0x4D, 0x52, 0x01] ++ leBytes 1 vf ++ leBytes 1 vale ++ leBytes 2 0 ++ leBytes 8 gen
    ++ identityHash ++ sha512 (s.mem.readN (base + 0x4C000000) 0x4C0000)
  head ++ padTo 512 0 (Config.identitySignature head)

/-- The marks written into a core's record in its save area, so that they travel with the area. -/
def markRecord (s : State) (a : Nat) (c : Core) : State :=
  (ifrFields c ++ entryFields c).foldl (fun st f => physWrite st (a + f.off) (leBytes f.len f.val)) s

/-- The bytes that a migration report takes in a header, zero in the block whose tag it cannot cover. -/
def withoutReport (block : List Byte) (n : Nat) : List Byte := if n = 8 then List.replicate 0x290 0 ++ block.drop 0x290 else block

/-- The unkeyed tag of a block (R452). The report stands in block 8 and holds a hash of the tags, so the tag of that block
cannot cover it: DESIGN CHOICE, it is the tag of the block with the report's bytes zero (log entry 175). -/
def unkeyedTag (vf vale gen : Nat) (block : List Byte) (n : Nat) : List Byte := blockTag sha512 (withoutReport block n) vf vale gen n

/-- A save area after a settle: every block re-tagged with an unkeyed tag, then the report in its header. -/
def settleArea (s : State) (vf vale : Nat) (i : Image) : State :=
  let base := saveBase s vf vale
  let gen := (ctxOf s vf vale).generation
  let ranges := blockRanges i (bindOf s vf vale).bk.toNat
  let s := dirtyArea { s with mem := writeTags s.mem base ranges (unkeyedTag vf vale gen) } base ranges
  physWrite s (base + 0x8000) (migrationReport s base vf vale gen)

/-- The settle of one Vale's context: entries marked, the area re-tagged. Unless it is imported, its tags no longer
hold for this module. -/
def settleContext (s : State) (vf vale : Nat) : State :=
  match (ctxOf s vf vale).image with
  | none => s
  | some i =>
    let cid := (contextCid s vf vale).toNat
    let i := { i with cores := i.cores.map fun e => (e.1, settleCore s i vale cid (valeIndex s vf vale) e.1 e.2) }
    let s := i.cores.foldl (fun st e => markRecord st (saveBase s vf vale + coreArea e.1) e.2) s
    settleArea (modCtx s vf vale fun x => { x with image := some i }) vf vale i

/-- SETTLE_COMPLETE: nothing is in flight and no tier migration runs: every save area of the virtual function is
settled, and busy clears. -/
def execSettleComplete (vf : Nat) (s : State) : Host.Outcome State Fault Refusal :=
  let s := bump s
  let v := vfOf s vf
  if ¬ v.settling ∨ v.tier.isSome then .next s
  else
    let s := (List.range 8).foldl (fun st vale => settleContext st vf vale) s
    .next (modVf s vf fun v => { v with dbBusy := false, settling := false, windows := [] })

end Sys2Proof.Machine
end

