-- ==== Sys2Proof/Machine/Import.lean ====
section
/-! DEFINITION. The import of a migrated save area (R452). -/

/-- What a migrated save area holds beside the fields that stand in known places (R333, R334, R452): the image that the
n-th drawing step reads from it, whose fields of known places count for nothing. -/
opaque Sys2Proof.Config.importedImage : Nat → Sys2Proof.Machine.Image

namespace Sys2Proof.Machine

open Sys2Proof

/-! ## SAVE_AREA_IMPORT (R452) -/

/-- The Vale of the slice whose bind record of a virtual function names a save area. -/
def importVale (s : State) (vf base : Nat) : Option Nat :=
  (List.range 64).findSome? fun j =>
    if (slotOf s j).entries.any (fun e => e.2.v && e.2.vf.toNat == vf && e.2.sva.toNat * 4096 == base) then some (j / 8) else none

/-- Is a part of a save area in its block map? -/
def partListed (m : Mem) (base n : Nat) : Bool := (leNat (m.readN (base + 0x40) 128)).testBit n

/-- The scratchpad of a core's area, of the banks that the block map names. -/
def readBanks (m : Mem) (base n : Nat) : Mem :=
  let a := base + coreArea n
  let spm := if partListed m base (11 + 3 * n) then ({} : Mem).moveIn 0 m (a + 0x200000) 0x200000 else {}
  if partListed m base (12 + 3 * n) then spm.moveIn 0x200000 m (a + 0x400000) 0x200000 else spm

/-- The image of an imported save area: the cores and control cores that its block map names, the latter with the logical
slices of the virtual function in the Vale, with their records, images and banks as the area has them, and the gangs of its
header; what has no known place comes from `rest` (R333 to R337, R452). -/
def readImage (s : State) (vf vale base : Nat) (rest : Image) : Image :=
  let m := s.mem
  let slices := (contextCtls s vf vale).map (sliceKey s vf)
  { rest with
    cid := leNat (m.readN base 8), time := BitVec.ofNat 64 (leNat (m.readN (base + 8) 8))
    cores := ((List.range 192).filter fun n => partListed m base (10 + 3 * n)).map fun n =>
      let old := ((rest.cores.find? fun e => e.1 == n).map (·.2)).getD {}
      let c := readRecord m (base + coreArea n) old
      (n, { c with spm := readBanks m base n, pendPoison := areaPendPoison m (base + coreArea n) c })
    ctls := ((List.range 8).filter fun j => partListed m base (1 + j)).map fun j =>
      (slices.getD j 64, readCtl m (base + 0x10000 + 0x4000 * j) ((rest.ctls.map (·.2)).getD j {}))
    gangs := readGangs m base rest.gangs
    passes := if partListed m base 9 then rest.passes else [] }

/-- Do the unkeyed tags of an area's blocks hold, under the identity that its report gives? -/
def unkeyedOk (s : State) (base bk : Nat) (i : Image) : Bool :=
  let vf := leNat (s.mem.readN (base + 0x8004) 1)
  let vale := leNat (s.mem.readN (base + 0x8005) 1)
  let gen := leNat (s.mem.readN (base + 0x8008) 8)
  (blocksOf i bk).all fun n =>
    s.mem.readN (base + 0x4C000000 + 16 * n) 16 == unkeyedTag vf vale gen (s.mem.block (base + 4096 * n) 4096) n

/-- SAVE_AREA_IMPORT: message 0x0020 served: chain, signature and tags verified, the blocks re-tagged under the
module's key, the generation recorded, and 0x8020 for an answer. -/
def execSaveAreaImport (chainOk signatureOk : Bool) (s : State) : Host.Outcome State Fault Refusal :=
  let s := bump s
  match takenMessage s 0x20 with
  | none => .next s
  | some msg =>
    if !mboRoom s then .next s
    else
      let vf := (msg.getD 1 0).toNat % 32
      let base := (msg.getD 2 0).toNat
      match importVale s vf base with
      | none => .next (serveMessage s msg [0x8020, 3])
      | some vale =>
        let e := bindOf s vf vale
        let bk := e.bk.toNat
        let gen := leNat (s.mem.readN (base + 0x8008) 8)
        let i := readImage s vf vale base (Config.importedImage s.free)
        let result := if !chainOk then 1 else if !signatureOk then 2 else if unkeyedOk s base bk i then 0 else 3
        let s := if result = 0 then
            let tag := fun (block : List Byte) (n : Nat) => keyedTag s.io.bootCount block vf vale gen n
            dirtyArea { s with mem := writeTags s.mem base (blockRanges i bk) tag } base (blockRanges i bk)
          else s
        let s := modCtx s vf vale fun x => { x with
          image := some { i with accepted := result == 0, saved := areaSlice s base }, generation := gen }
        .next (serveMessage s msg [0x8020, BitVec.ofNat 64 result])

end Sys2Proof.Machine
end

