-- ==== Sys2Proof/Machine/Sched.lean ====
section
/-! DEFINITION. Scheduling: bind records, the deficit round robin, pre-emption, binds, restores and preloads (R323 to
R332, R341 to R343, R426 to R436, R454, R455). -/

namespace Sys2Proof.Machine

open Sys2Proof

/-! ## Slots and entries (R325, R326) -/

/-- The slot-table slots of a group changed by f. -/
def modGroup (s : State) (g : Nat) (f : Slot → Slot) : State :=
  (groupSlices s g).foldl (fun st j => setSlot st j (f (slotOf st j))) s

/-- Entry i of a group, which its slices carry alike. -/
def groupEntry (s : State) (g i : Nat) : BindEntry := (slotOf s g).entries.get {} i

/-- The entry bound on a group. -/
def boundOn (s : State) (g : Nat) : Option Nat := if (slotOf s g).bound then some (slotOf s g).cur.toNat else none

/-- The virtual function bound on a group. -/
def vfOn (s : State) (g : Nat) : Nat := (groupEntry s g (slotOf s g).cur.toNat).vf.toNat

/-- The Vales of a group's slices. -/
def groupVales (s : State) (g : Nat) : List Nat := ((groupSlices s g).map (· / 8)).eraseDups

/-- Deficits of a group's entries put into its slots. -/
def putDeficits (s : State) (g : Nat) (d : List Int) : State :=
  modGroup s g fun x => { x with entries := x.entries.map fun e => (e.1, { e.2 with deficit := d.getD e.1 0 }) }

/-- The deficits of a group's entries. -/
def deficits (s : State) (g : Nat) : List Int := (List.range 8).map fun i => (groupEntry s g i).deficit

/-- Is a virtual function halted for the debugger (R365)? -/
def debugHalted (s : State) (vf : Nat) : Bool :=
  s.io.dbgHalted && (valesOf s vf).any fun v => (contextCid s vf v) == s.io.dbgCid

/-- Is entry i of a group runnable: valid, with a launch, within its quota, and held back neither by its hypervisor nor
by a bad place-table map (R326, R328, R430)? -/
def runnable (s : State) (g i : Nat) : Bool :=
  let e := groupEntry s g i
  let vf := e.vf.toNat
  let v := vfOf s vf
  e.v && v.launch.isSome && decide (v.jused < v.jq.toNat) && !v.suspended
    && !((groupVales s g).any fun n => (placeMap s n vf).bad)

/-- May entry i be bound: runnable, and not halted for the debugger (R365)? -/
def choosable (s : State) (g i : Nat) : Bool := runnable s g i && !debugHalted s (groupEntry s g i).vf.toNat

/-- The largest weight among runnable entries. -/
def maxWeight (s : State) (g : Nat) : Nat :=
  (List.range 8).foldl (fun m i => if runnable s g i then Nat.max m (groupEntry s g i).w.toNat else m) 1

/-- The grant of entry i, in clk, rounded down (R326). -/
def grantOf (s : State) (g i : Nat) : Nat :=
  (slotOf s g).q.toNat * 1100 * (groupEntry s g i).w.toNat / maxWeight s g

/-- Residency since the bind began, in clk of 1.1 GHz (R326). -/
def residency (s : State) (g : Nat) : Nat := (s.nstime.toNat - (slotOf s g).since) * 11 / 10

/-- The round from entry i on: entries that are not runnable lose their deficit, the others gain their grant, until one
has a positive deficit; `fuel` bounds the visits. -/
def drr (run : Nat → Bool) (grant : Nat → Nat) (d : List Int) (i : Nat) : Nat → Option Nat × List Int
  | 0 => (none, d)
  | fuel + 1 =>
    let j := i % 8
    if !run j then drr run grant (d.set j 0) (j + 1) fuel
    else
      let x := d.getD j 0 + grant j
      if 0 < x then (some j, d.set j x) else drr run grant (d.set j x) (j + 1) fuel

/-- Visits that a round needs at most: a deficit grows by its grant at each. -/
def drrFuel (d : List Int) : Nat := 8 * (d.foldl (fun n x => n + x.natAbs) 0 + 2)

/-- How the round of a group goes on: the entry chosen, deficits, the place of the round afterwards, and where it comes
back to (R326, R327). -/
structure Choice where
  entry : Option Nat
  deficits : List Int
  turn : Nat
  returnTo : List Nat

/-- The newcomer that runs first of those that have pre-empted: the one of the highest priority, the earlier of two alike. The
rule speaks of one newcomer: DESIGN CHOICE (log entry 174). -/
def firstNewcomer (s : State) (g : Nat) : List Nat → Option Nat
  | [] => none
  | e :: rest => match firstNewcomer s g rest with
    | none => some e
    | some f => if (groupEntry s g e).prio < (groupEntry s g f).prio then some f else some e

/-- The entry that is bound next: a newcomer for one grant; then the entry pre-empted last by one, on what is left of its
deficit; otherwise the next in the round. -/
def chooseEntry (s : State) (g : Nat) : Choice :=
  let x := slotOf s g
  let d := deficits s g
  let round := fun (i : Nat) =>
    if (List.range 8).any (choosable s g) then
      let (e, d) := drr (choosable s g) (grantOf s g) d i (drrFuel d)
      { entry := e, deficits := d, turn := (e.map (· + 1)).getD i % 8, returnTo := [] : Choice }
    else { entry := none, deficits := d.map fun _ => 0, turn := i, returnTo := [] }
  let back := match x.returnTo.dropWhile fun r => !choosable s g r with
    | r :: rest =>
      if 0 < d.getD r 0 then { entry := some r, deficits := d, turn := x.turn, returnTo := rest }
      else { round r with returnTo := rest }
    | [] => round x.turn
  match firstNewcomer s g (x.newcomers.filter (choosable s g)) with
  | some n =>
    let y := d.getD n 0 + grantOf s g n
    if 0 < y then { entry := some n, deficits := d.set n y, turn := x.turn, returnTo := x.returnTo } else back
  | none => back

/-! ## Preloads (R343, R434) -/

/-- A group's preload discarded, with a cause: 0 write, 1 rerun, 2 migration, 3 order, 4 place table, 5 error. -/
def discardPreload (s : State) (g cause : Nat) : State :=
  match (slotOf s g).preloaded with
  | none => s
  | some e => modGroup (schedTraceAll s (groupEntry s g e).vf.toNat 0x0106 cause) g fun x => { x with preloaded := none }

/-- The preload discarded where it is of a virtual function. -/
def discardPreloadOf (s : State) (g vf cause : Nat) : State :=
  match (slotOf s g).preloaded with
  | some e => if (groupEntry s g e).vf.toNat = vf then discardPreload s g cause else s
  | none => s

/-- PRELOAD: the bank images of the entry that is bound next, where its banks are disjoint from those of the entry that
runs; a block of its save area that fails its check ends it. -/
def execPreload (g : Nat) (s : State) : Host.Outcome State Fault Refusal :=
  let s := bump s
  match boundOn s g, (chooseEntry s g).entry with
  | some e, some n =>
    let s := match (slotOf s g).preloaded with
      | some p => if p = n then s else discardPreload s g 3
      | none => s
    if n = e ∨ (groupEntry s g e).bk &&& (groupEntry s g n).bk ≠ 0 then .next s
    else
      let vf := (groupEntry s g n).vf.toNat
      let bad := (groupVales s g).any fun v => match (ctxOf s vf v).image with
        | some i => (restoreFault s vf v i).isSome || bankImageBad s vf v i
        | none => false
      let s := modGroup s g fun x => { x with preloaded := some n }
      .next (if bad then discardPreload s g 5 else s)
  | _, _ => .next s

/-! ## Pre-emption (R328 to R332) -/

/-- The causes of a pre-emption, in the row order of R328. -/
inductive Preempt where
  | destroy | quota | rerun | hypervisor | other
deriving DecidableEq, Repr

/-- The row of a cause. -/
def Preempt.row (c : Preempt) : Nat :=
  match c with
  | .destroy => 0
  | .quota => 1
  | .rerun => 2
  | .hypervisor => 3
  | .other => 4

/-- A freeze policy; a STEP with its limit in µs. -/
inductive Policy where
  | kill | freeze | step (limit : Nat)
deriving DecidableEq, Repr

/-- Does an entry read as running: running, stopping or killing (R263, R411)? -/
def readsRunning (m : MacroEntry) : Bool :=
  match m.state with
  | .running | .stopping | .killing => true
  | _ => false

/-- The running entries of a virtual function's control cores in a group. -/
def runningEntries (s : State) (vf : Nat) : List (Nat × MacroEntry) :=
  (logicalSlices s vf).flatMap fun k => ((ctlOf s k).macros.filter fun e => readsRunning e.2).map fun e => (k, e.2)

/-- The tile steps that a running entry still has to run: selector 2 minus selector 1 (R265, R328). -/
def stepsLeft (s : State) (k : Nat) (m : MacroEntry) : Nat :=
  m.totalSteps - ((memberPrgs s k m).map fun l => l.getD 7 0).foldl (· + ·) 0

/-- Is the estimate of a running entry above ts µs: rte in ns over the tile steps still to run, or rte undivided where there
are none (R328)? -/
def entryAbove (s : State) (k : Nat) (m : MacroEntry) (ts : Nat) : Bool :=
  decide (1000 * ts * Nat.max 1 (stepsLeft s k m) < m.rte.toNat)

/-- The policy of a pre-emption (R328): rte is in ns, ts in µs. -/
def policyOf (s : State) (g : Nat) (c : Preempt) : Policy :=
  let l := runningEntries s (vfOn s g)
  let ts := (slotOf s g).ts.toNat
  match c with
  | .destroy | .rerun => .kill
  | .quota => .step 48
  | .hypervisor => .freeze
  | .other =>
    let fh2 := l.any fun e => numAt e.2.desc 2 1 % 4 == 2
    if fh2 ∨ l.any (fun e => entryAbove s e.1 e.2 ts) then .freeze else .step ts

/-- The idle power of a group's slices charged up to now, to whoever has been bound on them. -/
def idleGroup (s : State) (g : Nat) : State := (groupSlices s g).foldl idleSlice s

/-- A group unbound: the residency of the turn is charged to its entry (R326), and the idle power of its slices up to now
to the context (R346). -/
def unbindGroup (s : State) (g : Nat) : State :=
  let s := idleGroup s g
  let e := (slotOf s g).cur.toNat
  let r : Int := residency s g
  modGroup s g fun x => { x with
    bound := false
    entries := x.entries.map fun y => if y.1 = e then (y.1, { y.2 with deficit := y.2.deficit - r }) else y }

/-- KILL: the contexts of the bound virtual function discarded, its launch pending again, or gone (R329). -/
def killGroup (s : State) (g : Nat) (rerun : Bool) : State :=
  let vf := vfOn s g
  let s := (groupVales s g).foldl (fun st v => discardContext st vf v) s
  let s := modVf s vf fun v => { v with launch := match v.launch with
    | some l => if rerun then some { word := l.word, pending := true } else none
    | none => none }
  let s := if rerun then discardPreload s g 1 else s
  unbindGroup s g

/-- Is a context bound and not frozen yet, or halted for the debugger? -/
def active (s : State) (vf vale : Nat) : Bool :=
  match (ctxOf s vf vale).status with
  | .running | .stepping | .binding | .halted => true
  | _ => false

/-- A context frozen (R330). One whose bind has restored nothing yet keeps its image. -/
def freezeNow (s : State) (vf vale : Nat) : State :=
  let x := ctxOf s vf vale
  if x.status = .binding ∧ ¬ x.restored then setCtx s vf vale { x with status := .unbound }
  else modCtx (freezeContext s vf vale) vf vale fun x => { x with status := .freezing }

/-- A group whose contexts are all unbound, or lost, is free for the next bind. -/
def settleGroup (s : State) (g : Nat) : State :=
  if (boundOn s g).isSome && (groupVales s g).all fun v => match (ctxOf s (vfOn s g) v).status with
    | .unbound | .lost => true
    | _ => false then unbindGroup s g
  else s

/-- A context that has no running macro-instruction. -/
def idleContext (s : State) (vf vale : Nat) : Bool := !(runningEntries s vf).any fun e => e.1 / 8 == vale

/-- Does core k freeze at once under STEP: it is fault-stopped, or idle, with no tile step to run (R331, R421)? A core whose
sequencer has a step of its dispatch still to end is not idle. -/
def atRest (s : State) (k : Nat) : Bool :=
  let c := coreOf s k
  c.status == .stopped || (c.status == .idle && (match c.seq.exec with
    | some d => passedLast c d
    | none => true))

/-- Under STEP the control cores freeze at once, and each core that is at rest (R331). -/
def stepContext (s : State) (vf vale : Nat) : State :=
  let s := (contextCtls s vf vale).foldl (fun st k => modCtl st k frozenCtl) s
  (contextCores s vf vale).foldl (fun st k => if atRest st k then freezeCore st k else st) s

/-- A context begins to step, up to an instant; one that steps already keeps the earlier end (R331, R332). -/
def stepNow (s : State) (vf vale limit : Nat) : State :=
  let x := ctxOf s vf vale
  let till := s.nstime.toNat + 1000 * limit
  if x.status = .stepping then setCtx s vf vale { x with deadline := Nat.min x.deadline till }
  else if x.status ≠ .running ∨ idleContext s vf vale = true then freezeNow s vf vale
  else modCtx (stepContext s vf vale) vf vale fun x => { x with status := .stepping, deadline := till }

/-- A pre-emption of the entry bound on a group, for a cause (R328). -/
def preempt (s : State) (g : Nat) (c : Preempt) : State :=
  if (boundOn s g).isNone then s
  else
    let vf := vfOn s g
    let p := policyOf s g c
    let code := match p with
      | .kill => 0
      | .freeze => 1
      | .step _ => 2
    let live := (groupVales s g).filter (active s vf)
    let s := schedTraceAll s vf 0x0102 (code + c.row * 256)
    match p with
    | .kill => killGroup s g (c == .rerun)
    | .freeze => settleGroup (live.foldl (fun st v => freezeNow st vf v) s) g
    | .step n => settleGroup (live.foldl (fun st v => stepNow st vf v n) s) g

/-- A pre-emption of a virtual function, where it is bound. -/
def preemptVf (s : State) (vf : Nat) (c : Preempt) : State :=
  let g := groupFirst s (groupOfVf s vf)
  if (boundOn s g).isSome ∧ vfOn s g = vf ∧ (recordsOf s g).contains vf = true then preempt s g c else s

/-! ## The scheduler's events -/

/-- Is a number that of a group's first slice, which stands for the group? -/
def isGroup (s : State) (g : Nat) : Bool := groupFirst s g == g

/-- Is a context on its way off its slices already? -/
def leaving (s : State) (vf vale : Nat) : Bool :=
  match (ctxOf s vf vale).status with
  | .stepping | .freezing => true
  | _ => false

/-- Is every control core of a binding in `x.sleep`, with no core of it issuing, so that the quantum may end early (R287)? -/
def asleep (s : State) (g : Nat) : Bool :=
  (groupSlices s g).all fun j => (ctlOf s j).sleepUntil.isSome && (ctlOf s j).status == .waiting
    && (List.range 24).all fun i => (coreOf s (192 * (j / 8) + 24 * (j % 8) + i)).status != .running

/-- QUANTUM_END: the bound entry's residency has reached its deficit, or it is no longer runnable, or its binding sleeps (R287).
Where it alone is runnable its deficit is replenished, those of the others are cleared as the round passes them, and it goes on
(R326). An exhausted quota has its own row among the causes (R328). -/
def execQuantumEnd (g : Nat) (s : State) : Host.Outcome State Fault Refusal :=
  let s := bump s
  match boundOn s g with
  | none => .next s
  | some e =>
    let d := (groupEntry s g e).deficit
    let r := residency s g
    let v := vfOf s (vfOn s g)
    if !isGroup s g || (runnable s g e && decide ((r : Int) < d) && !asleep s g) then .next s
    else if runnable s g e && !(List.range 8).any (fun i => i != e && choosable s g i) then
      let (_, l) := drr (fun i => i == e) (grantOf s g) ((deficits s g).set e (d - r)) (e + 1) (drrFuel [d - r] + 8)
      .next (modGroup (putDeficits s g l) g fun x => { x with since := s.nstime.toNat })
    else if (groupVales s g).any (leaving s (vfOn s g)) then .next s
    else .next (preempt s g (if v.jq.toNat ≤ v.jused then .quota else .other))

/-- NEWCOMER: an entry of higher priority that has become runnable since the bind takes a token and pre-empts the bound
entry at once (R327). -/
def execNewcomer (g e : Nat) (s : State) : Host.Outcome State Fault Refusal :=
  let s := bump s
  match boundOn s g with
  | none => .next s
  | some b =>
    let x := groupEntry s g e
    let y := groupEntry s g b
    if !isGroup s g || !choosable s g e || decide (e = b) || (slotOf s g).newcomers.contains e || !(slotOf s g).unready.contains e || decide (x.prio.toNat ≤ y.prio.toNat) || x.tok == 0 then .next s
    else
      let s := modGroup s g fun t => { t with
        newcomers := t.newcomers ++ [e], returnTo := if t.newcomers.isEmpty then b :: t.returnTo else t.returnTo
        entries := t.entries.modify {} e fun z => { z with tok := z.tok - 1 } }
      .next (preempt s g (if x.prio = 7 ∧ y.rr then .rerun else .other))

/-- STEP_LIMIT_EXPIRY: every core that has not reached a boundary is frozen (R331). -/
def execStepLimitExpiry (g : Nat) (s : State) : Host.Outcome State Fault Refusal :=
  let s := bump s
  let vf := vfOn s g
  .next ((groupVales s g).foldl (fun st v =>
    let x := ctxOf st vf v
    if x.status = .stepping ∧ x.deadline ≤ st.nstime.toNat then freezeNow st vf v else st) s)

/-- Have all agents of a context stopped? -/
def allStopped (s : State) (vf vale : Nat) : Bool :=
  match (ctxOf s vf vale).status with
  | .freezing => true
  | .stepping => (contextCores s vf vale).all fun k => (coreOf s k).status == .frozen
  | _ => false

/-- CONTEXT_SAVE: all agents have stopped; the images are written and the context is unbound, and with the last of the
virtual function's contexts its group (R324, R329, R334). -/
def execContextSave (vf vale : Nat) (s : State) : Host.Outcome State Fault Refusal :=
  let s := bump s
  if ¬ allStopped s vf vale ∨ (ctxOf s vf vale).image.isSome then .next s
  else
    let g := groupFirst s (groupOfVf s vf)
    let s := saveContext (freezeContext s vf vale) vf vale
    let s := schedTrace s vf vale 0x0103 (residency s g)
    .next (settleGroup s g)

/-! ## CONTEXT_BIND (R326, R329, R430) -/

/-- Entries written while bound take effect (R332). -/
def applyWritten (s : State) (g : Nat) : State :=
  modGroup s g fun x => { x with
    entries := x.written.foldl (fun m e => m.put {} e.1 { e.2 with deficit := (m.get {} e.1).deficit }) x.entries
    written := [] }

/-- The slices of a Vale bound to a virtual function, by its bind records. -/
def vfSlices (s : State) (vf vale : Nat) : List Nat :=
  (List.range 8).filter fun i => (recordsOf s (8 * vale + i)).contains vf

/-- The first failure of a map against R89: reason and index; cores first, then slices (R430). DESIGN CHOICE (log entry 153):
the rules list no reason for two slice entries that name one slice; such a map fails with reason 5. -/
def mapFault (s : State) (vf vale : Nat) (m : FMap (BitVec 16)) : Option (Nat × Nat) :=
  let slices := vfSlices s vf vale
  let core := fun (i : Nat) => match placeEntry m i with
    | none => none
    | some p =>
      if !slices.contains (p / 24) then some (1, i)
      else if (List.range i).any fun j => placeEntry m j == some p then some (2, i)
      else if (List.range i).any fun j => (placeEntry m j).isNone then some (3, i)
      else if s.io.retired.contains (192 * vale + p) then some (4, i)
      else none
  let slice := fun (i : Nat) => match placeEntry m (192 + i) with
    | none => if i < slices.length then some (5, i) else none
    | some p => if !slices.contains p || (List.range i).any fun j => placeEntry m (192 + j) == some p then some (5, i) else none
  match (List.range 192).findSome? core with
  | some x => some x
  | none => (List.range 8).findSome? slice

/-- A place-table map of a virtual function in a Vale changed by f. -/
def modMap (s : State) (vale vf : Nat) (f : PlaceMap → PlaceMap) : State :=
  modVale s vale fun v => { v with maps := v.maps.modify {} vf f }

/-- The first bad map of a virtual function in a group's Vales. -/
def badMap (s : State) (g vf : Nat) : Option (Nat × Nat × Nat) :=
  (groupVales s g).findSome? fun v => (mapFault s vf v (placeMap s v vf).written).map fun x => (v, x)

/-- The entry chosen is bound: the written maps become active and its contexts begin to bind. -/
def bindEntry (s : State) (g : Nat) (c : Choice) (e : Nat) : State :=
  let vf := (groupEntry s g e).vf.toNat
  let s := match (slotOf s g).preloaded with
    | some p => if p = e then s else discardPreload s g 3
    | none => s
  let s := putDeficits s g c.deficits
  let s := idleGroup s g
  let idle := (List.range 8).filter fun i => !runnable s g i
  let s := modGroup s g fun x => { x with
    cur := BitVec.ofNat 3 e, bound := true, since := s.nstime.toNat, turn := c.turn
    newcomers := x.newcomers.filter (· != e), returnTo := c.returnTo, unready := idle, preloaded := none }
  let s := (groupVales s g).foldl (fun st v =>
    modCtx (modMap st v vf fun m => { m with active := m.written }) vf v fun x => { x with status := .binding, restored := false }) s
  schedTraceAll s vf 0x0101 (g + (c.deficits.getD e 0).toNat % 2 ^ 40 * 256)

/-- CONTEXT_BIND: the round chooses an entry; its written maps are checked first, and a bad one keeps the entry from
running until it is written again. -/
def execContextBind (g : Nat) (s : State) : Host.Outcome State Fault Refusal :=
  let s := bump s
  if !isGroup s g || (groupSlices s g).any (fun j => (slotOf s j).bound) || s.io.ps == 2 || s.io.boot != .running then .next s
  else
    let s := applyWritten s g
    let c := chooseEntry s g
    match c.entry with
    | none => .next (modGroup (putDeficits s g c.deficits) g fun x => { x with newcomers := [], returnTo := [], turn := c.turn })
    | some e =>
      let vf := (groupEntry s g e).vf.toNat
      match badMap s g vf with
      | some (v, rsn, idx) =>
        let s := modMap (noteUnready s vf) v vf fun m => { m with bad := true }
        .next (modVf s vf fun x => { x with ptErr := true, ptInfo := BitVec.ofNat 19 (v * 65536 + rsn * 256 + idx) })
      | none => .next (bindEntry s g c e)

/-! ## CONTEXT_RESTORE (R341, R342, R432, R454) -/

/-- The tag stores of the module without the tags of a containment ID (R454). -/
def dropTags (s : State) (cid : Nat) : State :=
  let keep := fun (src : Nat) => src / 4096 != cid
  { s with
    io := { s.io with tags := s.io.tags.filter fun t => keep t.1 }
    vales := s.vales.map fun e => (e.1, { e.2 with
      cacheTags := e.2.cacheTags.filter fun t => keep t.1
      gangs := e.2.gangs.map fun g => (g.1, { g.2 with tags := g.2.tags.filter fun t => keep t.1 }) }) }

/-- A restore fails: nothing is restored, the context is lost, and its launch ends with cause 0x20. -/
def loseContext (s : State) (vf vale : Nat) (x : RestoreFail) : State :=
  let g := groupOfVf s vf
  let slices := vfSlices s vf vale
  let ls := (logicalSlices s vf).zipIdx.filterMap fun e => if e.1 / 8 = vale ∧ slices.contains (e.1 % 8) then some e.2 else none
  let s := dropTags s (contextCid s vf vale).toNat
  let s := freeGangs s vf vale
  let s := modVf s vf fun v => { v with windows := v.windows.filter fun w => !ls.contains w.slice }
  let s := modCtx s vf vale fun c => { c with status := .lost, image := none, restored := false }
  postFatal s vf (mkRecord s vf vale 6 g 0x20 9 0 0 0 (x.block % 2 ^ 32 * 2 ^ 32 + x.kind * 2 ^ 24))

/-- The dispatch of a macro-instruction that core k executes and whose entry is not stopped: a member that a fault has stopped
goes on with it at the bind, while one of a stopped entry waits for the resume (R406, R421). -/
def goesOn (s : State) (k : Nat) : Option Dispatch :=
  (coreOf s k).seq.exec.filter fun d => (entryOf s d.ctl d.entry).state == .stopping && !(coreOf s k).brk

/-- The replay of a restored context begins: its cores pass over their records, and run when that is done, a fault-stopped
one too whose entry is still stopping; what was an idle or running core becomes it again (R342, R406, R421). -/
def beginReplays (s : State) (vf vale : Nat) : State :=
  let cores := contextCores s vf vale
  let s := cores.foldl (fun st k => modCore st k fun c =>
    let c := { c with status := c.was }
    if c.status ≠ .stopped then beginReplay c
    else match goesOn st k with
      | some d => wakeMember c d
      | none => c) s
  let n := (cores.map fun k => (coreOf s k).replay.length).foldl (· + ·) 0
  replayDone (modCtx s vf vale fun x => { x with replayed := n }) vf vale

/-- The windows of a restored context's outstanding collectives registered again, where a settle had withdrawn them (R281,
R447). -/
def reopenWindows (s : State) (vf vale : Nat) : State :=
  (contextCtls s vf vale).foldl (fun st k => (ctlOf st k).macros.foldl (fun st e =>
    if e.2.isColl && outstanding e.2 && e.2.state != .killing then openWindow st k e.1 else st) st) s

/-- The commits that a save interrupted finished, in ascending index, before any replay (R341, R408). -/
def finishCommits (s : State) (vf vale : Nat) : State :=
  (valeOf s vale).gangs.foldl (fun st e => match e.2.committing with
    | some l => if e.2.vf = vf then endCommit (commitRest st vale e.1 l) vale e.1 else st
    | none => st) s

/-- A context without an image bound: every unit at its reset value, and an interrupt for what waits in the mailbox. -/
def freshContext (s : State) (vf vale : Nat) : State :=
  let s := (contextCores s vf vale).foldl (fun st k => setCore st k {}) s
  let s := (contextCtls s vf vale).foldl (fun st k => modCtl st k emptyCtl) s
  let v := vfOf s vf
  let s := if v.inq.isEmpty && v.tq.order.isEmpty then s else raiseQueueInterrupt s vf
  replayDone (modCtx s vf vale fun x => { x with replayed := 0 }) vf vale

/-- A virtual function's requests in flight, sent and not yet performed: what the write-protect window parks (R120, R330).
Every other request performs in the step that sends it. -/
def requestsInFlight (s : State) (vf : Nat) : Nat :=
  match (vfOf s vf).tier with
  | some t => if t.window then t.parked.length else 0
  | none => 0

/-- CONTEXT_RESTORE, once no request of the virtual function is in flight: the images are checked and restored, an interrupted
commit is finished, logical numbers are checked, and the replay begins (R341). -/
def execContextRestore (vf vale : Nat) (s : State) : Host.Outcome State Fault Refusal :=
  let s := bump s
  let x := ctxOf s vf vale
  if x.status ≠ .binding ∨ x.restored = true ∨ requestsInFlight s vf ≠ 0 then .next s
  else match x.image with
    | none => .next (freshContext (modCtx s vf vale fun x => { x with restored := true }) vf vale)
    | some i =>
      match restoreFault s vf vale i with
      | some f => .next (loseContext s vf vale f)
      | none =>
        let s := chargeAccess (restoreImage s vf vale i) vale (saveBase s vf vale) vf (contextCid s vf vale).toNat
        let s := modCtx s vf vale fun x => { x with image := none, restored := true }
        let s := reopenWindows (finishCommits s vf vale) vf vale
        match (if (vfOf s vf).launch.any (!·.pending) then leftOut s vf vale i else none) with
        | some n => .next (postFatal s vf (mkRecord s vf vale 6 (groupOfVf s vf) 0x10 1 0 0 0 (8 * 65536 + n % 65536)))
        | none => .next (beginReplays s vf vale)

/-! ## Hypervisor and firmware writes (R325, R328, R332, R429) -/

/-- The two words of a bind-record entry. -/
def entryOfWords (w0 w1 : Word) : BindEntry :=
  { v := w0.getLsbD 63, bk := w0.extractLsb' 61 2, vf := w0.extractLsb' 56 5, cid := w0.extractLsb' 44 12
    w := w0.extractLsb' 36 8, prio := w0.extractLsb' 33 3, tok := w0.extractLsb' 25 8, gmax := w0.extractLsb' 19 6
    rr := w0.getLsbD 18, sva := w1.extractLsb' 12 36 }

/-- BIND_ENTRY_WRITE: an entry of a slice written: at once, or at the next bind where it is the bound one, except that
v = 0 freezes it. -/
def execBindEntryWrite (slice entry : Nat) (w0 w1 : Word) (s : State) : Host.Outcome State Fault Refusal :=
  let s := bump s
  let e := entryOfWords w0 w1
  let g := groupFirst s slice
  let s := match (slotOf s g).preloaded with
    | some p => if p = entry ∨ boundOn s g = some entry then discardPreload s g 0 else s
    | none => s
  let x := slotOf s slice
  if x.bound ∧ x.cur.toNat = entry then
    let s := setSlot s slice { x with written := x.written.insert entry e }
    .next (if e.v then s else preempt s g .hypervisor)
  else
    let old := x.entries.get {} entry
    let e' := if e = {} then e else { e with deficit := old.deficit }
    let s := setSlot s slice { x with
      entries := x.entries.put {} entry e', written := x.written.erase entry
      unready := if e.v then x.unready else insertRising entry x.unready }
    .next (if e.v then modVf s e.vf.toNat fun v => { v with suspended := false } else s)

/-- An entry of a written map changed; a bound context of the virtual function in that Vale is frozen (R429, R434). -/
def writePlace (s : State) (vale vf idx : Nat) (w : BitVec 16) : State :=
  let s := modMap s vale vf fun m => { m with written := m.written.put 0 idx (w &&& 0x80FF), bad := false }
  let g := groupFirst s (groupOfVf s vf)
  let s := if (vfSlices s vf vale).isEmpty then s else discardPreloadOf s g vf 4
  if active s vf vale then preemptVf s vf .hypervisor else s

/-- PLACE_TABLE_WRITE: a 16-bit entry of a map written by the hypervisor. -/
def execPlaceTableWrite (vale vf idx : Nat) (w : BitVec 16) (s : State) : Host.Outcome State Fault Refusal :=
  let s := bump s
  .next (if hostReaches s then writePlace s vale vf idx w else s)

/-- HYPERVISOR_SUSPEND: every context of a virtual function pre-empted under FREEZE, and held until a bind record of
it is written again. While dirty tracking is enabled it is the freeze of a migration, which withdraws the collective windows
(R349, R447; log entry 173). -/
def execHypervisorSuspend (vf : Nat) (s : State) : Host.Outcome State Fault Refusal :=
  let s := bump s
  let s := discardPreloadOf s (groupFirst s (groupOfVf s vf)) vf 2
  .next (preemptVf (modVf (noteUnready s vf) vf fun v => { v with
    suspended := true, windows := if v.dbEn then [] else v.windows }) vf .hypervisor)

/-- The contexts of a virtual function that is not bound destroyed. -/
def destroyUnbound (s : State) (vf : Nat) : State :=
  (List.range 8).foldl (fun st v =>
    modCtx (freeGangs st vf v) vf v fun x => { x with status := .unbound, image := none }) s

/-- CONTEXT_DESTROY: the contexts of a virtual function discarded under KILL, without a rerun. -/
def execContextDestroy (vf : Nat) (s : State) : Host.Outcome State Fault Refusal :=
  let s := bump s
  let g := groupFirst s (groupOfVf s vf)
  let s := discardPreloadOf s g vf 2
  let s := preemptVf s vf .destroy
  .next (modVf (noteUnready (destroyUnbound s vf) vf) vf fun v => { v with launch := none, windows := [] })

end Sys2Proof.Machine
end

