-- ==== Sys2Proof/Machine/Energy.lean ====
section
/-! DEFINITION. Clock swallowing, energy meters and accounts, and joule quotas (R13, R19, R23, R344 to R347, R367,
R435). -/

namespace Sys2Proof.Machine

open Sys2Proof

/-! ## Clock swallowing (R344, R367) -/

/-- May the pulses removed of a Vale change now: never twice within 10 µs? -/
def swallowDue (s : State) (vale : Nat) : Bool :=
  match (valeOf s vale).swallowAt with
  | none => true
  | some t => decide (t.toNat + 10000 ≤ s.nstime.toNat)

/-- n pulses of 64 removed from a Vale's arithmetic clock from now on. -/
def setSwallow (s : State) (vale : Nat) (n : BitVec 6) : State :=
  if n ≤ 48 ∧ swallowDue s vale = true then modVale s vale fun v => { v with swallow := n, swallowAt := some s.nstime } else s

/-- The smallest n that holds the power limit of R19 for a Vale now. -/
def powerNeed (s : State) (vale : Nat) : BitVec 6 := Config.powerSwallow vale s.nstime.toNat s.energy.window

/-- The temperature of a Vale's part of the die, in °C. -/
def valeTemperature (s : State) (vale : Nat) : Nat := (Config.valeTemperature vale s.nstime.toNat).toNat

/-- The highest die temperature (R367). -/
def dieTemperature (s : State) : Nat := ((List.range 8).map (valeTemperature s)).foldl Nat.max 0

/-- Is a Vale the hottest, above 95 °C (R367)? -/
def thermalLimited (s : State) (vale : Nat) : Bool :=
  decide (95 < dieTemperature s) && valeTemperature s vale == dieTemperature s

/-- CLOCK_SWALLOW_UPDATE: the power controller changes n, which is the smallest that holds the power limit, or a larger
one on the hottest Vale above 95 °C. -/
def execClockSwallowUpdate (vale : Nat) (n : BitVec 6) (s : State) : Host.Outcome State Fault Refusal :=
  let s := bump s
  .next (if n = powerNeed s vale ∨ (thermalLimited s vale = true ∧ powerNeed s vale < n) then setSwallow s vale n else s)

/-- THERMAL_LIMIT: above 95 °C the power controller raises n on the hottest Vale, beyond what the power limit needs. -/
def execThermalLimit (vale : Nat) (n : BitVec 6) (s : State) : Host.Outcome State Fault Refusal :=
  let s := bump s
  .next (if thermalLimited s vale = true ∧ (valeOf s vale).swallow < n ∧ powerNeed s vale ≤ n then setSwallow s vale n else s)

/-! ## Meters and accounts (R23, R345, R346) -/

/-- METER_CALIBRATION: current sensing on a rail corrects the calibration factor of its meters. -/
def execMeterCalibration (rail factor : Nat) (s : State) : Host.Outcome State Fault Refusal :=
  let s := bump s
  .next { s with energy := { s.energy with factors := s.energy.factors.insert rail factor } }

/-- The virtual function that an account belongs to, if any does: that of a valid bind record with its containment ID, or a
resident account's. -/
def accountVf (s : State) (a : Nat) : Option Nat :=
  if 0x1000 ≤ a then some (a - 0x1000)
  else (List.range 64).findSome? fun j =>
    (List.find? (fun e : Nat × BindEntry => e.2.v && e.2.cid.toNat == a) (slotOf s j).entries).map fun e => e.2.vf.toNat

/-- HBM pages that a virtual function owns (R98). -/
def ownedPages (v : Vf) : Nat := if !v.hset then 0 else Nat.min (v.hlim.toNat + 1) (2 ^ 24) - v.hbase.toNat

/-- The meters of the management core and of the shared units but the Col engines: cache slices, HBM stack controllers,
meshes and links. -/
def sharedMeters : List Meter :=
  .management :: ((List.range 256).map .cache ++ (List.range 16).map .hbm ++ (List.range 8).map .mesh ++ (List.range 38).map .link)

/-- The idle power of the module up to now: of every slice, and to the system that of the management core and of what the
shared units take while they serve no request, a Col engine without a pass among them (R318, R346). -/
def chargeIdle (s : State) : State :=
  let s := (List.range 64).foldl idleSlice s
  let s := (List.range 8).foldl (fun st v => if (valeOf st v).pass.isNone then charge st (.col v) 0 0 else st) s
  sharedMeters.foldl (fun st m => charge st m 0 0) s

/-- The HBM refresh energy e of a window: shares by owned pages to the resident accounts, the rest to the system. -/
def chargeRefresh (s : State) (e : Nat) : State :=
  let part := fun (n : Nat) => e * ownedPages (vfOf s n) / 2 ^ 24
  let given := ((List.range 32).map part).foldl (· + ·) 0
  chargeAmount ((List.range 32).foldl (fun st n => chargeAmount st n (0x1000 + n) (part n)) s) 0 0 (e - given)

/-- The shares of a conversion loss l by account: in proportion to its charge in the window, rounded down, and 1 pJ more
to the first accounts until the shares sum to l. -/
def lossShares (l : Int) (window : List (Nat × Nat)) : List (Nat × Int) :=
  let total : Nat := (window.map (·.2)).foldl (· + ·) 0
  let floors := window.map fun e => (e.1, (l * (e.2 : Int)).fdiv (total : Int))
  let left : Int := l - (floors.map (·.2)).foldl (· + ·) 0
  floors.zipIdx.map fun e => (e.1.1, e.1.2 + if (e.2 : Int) < left then 1 else 0)

/-- A share of the conversion loss added to its account. -/
def addShare (s : State) (a : Nat) (x : Int) : State :=
  let add := fun (n : Nat) => (n + x).toNat
  let s := { s with energy := { s.energy with accounts := s.energy.accounts.put 0 a (add (s.energy.accounts.get 0 a)) } }
  match (if a = 0 then none else accountVf s a) with
  | none => s
  | some vf => modVf s vf fun v => { v with jused := add v.jused }

/-- May a window's input be what the meter read: no less than the rails' sum, since conversion only loses, and no more than
9.0 kW for 1 ms (R19, R346)? Other readings do not come about (log entry 141). -/
def inputHolds (total input : Nat) : Bool := decide (total ≤ input) && decide (input ≤ 9000000000000)

/-- The accounts of the window in progress brought to the sum of the module's input meter. -/
def settleAccounts (s : State) (refresh input n : Nat) : State :=
  let old := s
  let s := chargeRefresh (chargeIdle s) refresh
  let w := s.energy.window
  let total : Nat := (w.map (·.2)).foldl (· + ·) 0
  if !inputHolds total input then old
  else
  let s := if total = 0 then chargeAmount s 0 0 input
    else (lossShares ((input : Int) - total) w).foldl (fun st e => addShare st e.1 e.2) s
  { s with energy := { s.energy with window := [], settled := n } }

/-- ENERGY_SETTLEMENT: a window of 1 ms has ended; refresh energy and module input energy are as the meters read. -/
def execEnergySettlement (refresh input : Nat) (s : State) : Host.Outcome State Fault Refusal :=
  let s := bump s
  let n := s.nstime.toNat / 1000000
  .next (if n ≤ s.energy.settled then s else settleAccounts s refresh input n)

/-! ## Quotas (R347, R435) -/

/-- The quota period that an instant lies in, counted from NSTIME 0. -/
def periodAt (s : State) (v : Vf) : Nat := s.nstime.toNat / (1000 * v.jp.toNat)

/-- A write of `vfjq`: it ends an exhaustion where it makes q > u. `exhausted` records that an exhaustion has been acted on;
what is exhausted is what has u ≥ q. -/
def writeVfjq (s : State) (vf : Nat) (w : Word) : State :=
  modVf s vf fun v => { v with jq := w, exhausted := v.exhausted && decide (w.toNat ≤ v.jused) }

/-- VFJQ_WRITE: the hypervisor writes a quota. -/
def execVfjqWrite (vf : Nat) (w : Word) (s : State) : Host.Outcome State Fault Refusal :=
  let s := bump s
  .next (if hostReaches s then writeVfjq s vf w else s)

/-- QUOTA_PERIOD_START: at each period's start the quota is taken off the charge, and an overdraft is carried over. -/
def execQuotaPeriodStart (vf : Nat) (s : State) : Host.Outcome State Fault Refusal :=
  let s := bump s
  let v := vfOf s vf
  if periodAt s v ≤ v.period then .next s
  else
    let u := v.jused - v.jq.toNat * (periodAt s v - v.period)
    .next (setVf s vf { v with jused := u, exhausted := v.exhausted && decide (v.jq.toNat ≤ u), period := periodAt s v })

/-- QUOTA_EXHAUSTION: charges have reached the quota; the virtual function is pre-empted. -/
def execQuotaExhaustion (vf : Nat) (s : State) : Host.Outcome State Fault Refusal :=
  let s := bump s
  let v := vfOf s vf
  if v.jused < v.jq.toNat ∨ v.exhausted then .next s
  else .next (preemptVf (schedTraceAll (modVf (noteUnready s vf) vf fun v => { v with exhausted := true }) vf 0x0105 v.jused) vf .quota)

end Sys2Proof.Machine
end

