-- ==== Sys2Proof/Machine/Errors.lean ====
section
/-! DEFINITION. Errors of the module: module failure, soft errors and scrubbing, links (R376, R377, R379, R433, R441 to
R444, R448, R449, R451). -/

namespace Sys2Proof.Machine

open Sys2Proof

/-! ## Module failure (R376) -/

/-- The contexts of every virtual function discarded, bound or not, and their launches with them. -/
def discardAll (s : State) : State :=
  let s := (List.range 32).foldl (fun st vf =>
    let st := (valesOf st vf).foldl (fun st v => if boundIn st vf v then discardContext st vf v else st) st
    modVf (destroyUnbound st vf) vf fun v => { v with launch := none, windows := [] }) s
  { s with slots := s.slots.map fun e => (e.1, { e.2 with bound := false, preloaded := none, newcomers := [], returnTo := [], unready := [] }) }

/-- The record of a module failure for one virtual function. -/
def failureRecord (s : State) (vf : Nat) (unit : BitVec 16) (detail : Word) : Record :=
  { mkRecord s vf 0 0 0 0x30 2 0 0 0 detail.toNat with unit := unit, vale := 0 }

/-- The Vale in whose HBM stacks a physical address lies (R98); none for CXL memory. -/
def stackVale (pa : Nat) : Option Nat := if pa / 65536 < 2 ^ 24 then some (pa / 65536 / 2 ^ 21 % 8) else none

/-- The record of a module failure in any free entry of a virtual function's queue, where the path to the queue still works:
it does not lie in the Vale that is cut off. -/
def landFailure (cut : Option Nat) (s : State) (x : Nat × Record) : State :=
  let q := (vfOf s x.1).tq
  if !q.en || (cut.isSome && stackVale (tqEntryPa q 0) == cut) then s
  else match tqFree q 0 512 with
    | none => modVf s x.1 fun v => { v with tq := { v.tq with sup := v.tq.sup + 1 } }
    | some i => landIn s x.1 i x.2

/-- A fault fatal to the module, which may cut a Vale off: contexts discarded, records of what ran written, recovery
entered. -/
def failModule (s : State) (unit : BitVec 16) (detail : Word) (cut : Option Nat) : State :=
  let records := (List.range 32).map fun vf => (vf, failureRecord s vf unit detail)
  let s := records.foldl (landFailure cut) (discardAll s)
  postMbo { s with io := { s.io with boot := .recovery } } [0x8031, unit.setWidth 64, detail]

/-- A fault fatal to the module that is found while it runs. -/
def failRunning (s : State) (unit : BitVec 16) (detail : Word) (cut : Option Nat) : State :=
  if s.io.boot = .running then failModule s unit detail cut else s

/-- MODULE_FAILURE: a unit fails. -/
def execModuleFailure (unit : BitVec 16) (detail : Word) (s : State) : Host.Outcome State Fault Refusal :=
  let s := bump s
  .next (failRunning s unit detail none)

/-! ## Counting (R368, R379) -/

/-- The virtual function whose ranges hold a physical address. -/
def ownerOf (s : State) (pa : Nat) : Option Nat := (List.range 32).find? fun n => ownsPbn s n (pa / 65536)

/-- An error counted against its virtual function, or in `mdecc`. -/
def countError (s : State) (owner : Option Nat) (corrected : Bool) : State :=
  match owner, corrected with
  | some n, true => modVf s n fun v => { v with cec := v.cec + 1 }
  | some n, false => modVf s n fun v => { v with uec := v.uec + 1 }
  | none, true => { s with io := { s.io with eccCorr := s.io.eccCorr + 1 } }
  | none, false => { s with io := { s.io with eccUncorr := s.io.eccUncorr + 1 } }

/-! ## Errors that nothing corrects (R377, R442, R444, R451) -/

/-- The 64-byte line of HBM or CXL memory that holds an address poisoned. -/
def poisonLine (s : State) (pa : Nat) : State :=
  { s with mem := ((List.range 8).map (pa / 64 * 8 + ·)).foldl Mem.poisonWord s.mem }

/-- The context of a unit of a Vale lost: its launch ends with cause 0x20; the record names the macro-instruction that the
unit executes (R371). -/
def loseState (s : State) (vf vale cls idx : Nat) (pc : Nat) (tag : Nat) : State :=
  let s := modCtx s vf vale fun x => { x with status := .lost, image := none, restored := false }
  postFatal s vf (mkRecord s vf vale cls idx 0x20 9 pc 0 tag 0)

/-- The state of a core or of a control core lost. -/
def loseAgent (s : State) (core : Bool) (k : Nat) : State :=
  let j := if core then sliceOfCore k else k
  match vfOfSlice s j with
  | none => s
  | some vf =>
    if core then
      let c := coreOf s k
      loseState s vf (k / 192) 0 (logicalCore s k) c.pc.toNat ((c.seq.exec.map (·.tag.toNat)).getD 0)
    else loseState s vf (k / 8) 1 (logicalSlice s k) (ctlOf s k).pc.toNat 0

/-- The sequence of a Basin slot that holds bad values is affected, and begins again at a resume (R444). -/
def loseBasinSlot (s : State) (vale slot : Nat) : State :=
  match (valeOf s vale).pass with
  | some p => if p.walked && decide (slot < p.seqs.length * Nat.max 1 p.m.queryHeads) then
      affectSeqs s vale p [p.seqOfSlot slot] (freeWord s 901).toNat 0 true else s
  | none => s

/-- The state of a Col engine lost: the launch of the pass ends. -/
def losePass (s : State) (vale : Nat) : State :=
  match (valeOf s vale).pass with
  | some p => loseState (modVale s vale fun v => { v with pass := none }) p.vf vale 2 vale 0 p.disp.tag.toNat
  | none => s

/-- The virtual function of the physical block that a word of memory lies in, where its dirty bitmaps lie there (R348). -/
def bitmapOwner (s : State) (pa : Nat) : Option Nat :=
  (List.range 32).find? fun n =>
    let v := vfOf s n
    v.dbEn && decide (v.dbm.toNat ≤ pa) && decide (pa < v.dbm.toNat + 2 * bitmapBytes v)

/-- The owner of a site: the virtual function that an error there is counted against. -/
def siteOwner (s : State) (x : ErrorSite) : Option Nat :=
  match x with
  | .memory pa | .cache pa => ownerOf s pa
  | .scratchpad k _ | .spill k _ | .coreState k | .tlb k _ | .bundleCache k => vfOfSlice s (sliceOfCore k)
  | .controlState k | .controlCache k => vfOfSlice s k
  | .basinSlot v _ | .colEngine v => (valeOf s v).pass.map (·.vf)
  | .saveBlock vf v n => ownerOf s (saveBase s vf v + 4096 * n)
  | .dirtyBitmap vf | .valeTlb _ vf _ => some vf
  | .slotTable _ | .sharedTags _ => none

/-- Does an error at a memory line fail the module: the line lies in HBM that no virtual function owns? Which HBM the firmware
reserves the manual does not say: DESIGN CHOICE, that (R369, log entry 176). -/
def firmwareLine (s : State) (pa : Nat) : Bool := decide (pa / 65536 < 2 ^ 24) && (ownerOf s pa).isNone

/-- An uncorrectable error of a memory line: poisoned; of a dirty bitmap it is noted, and of the firmware's memory it fails
the module (R369, R377, R451). -/
def loseLine (s : State) (pa : Nat) : State :=
  let s := poisonLine s pa
  let s := match bitmapOwner s pa with
    | some vf => modVf s vf fun v => { v with dbmErr := true }
    | none => s
  if firmwareLine s pa then failRunning s (unitNo 4 (2 * ((stackVale pa).getD 0))) (BitVec.ofNat 64 pa) none else s

/-- The tiles that core k holds once offset o of its scratchpad has an error: in the region of a built-in macro-instruction one
word of them is poisoned. Where in the region each tile lies the manual does not say (R242): which word, is a free value (log
entry 177). -/
def tilePoison (s : State) (c : Core) (o : Nat) : Mem :=
  match c.seq.exec with
  | none => c.seq.buf
  | some d =>
    let m := macroOf d.desc d.t3
    let held := c.seq.buf.cells.map fun e => e.1 / 8
    if d.coll || m.op == 8 || held.isEmpty || decide (o < m.rgo) || decide (m.rgo + m.rgn * 65536 ≤ o) then c.seq.buf
    else c.seq.buf.poisonWord (held.getD ((freeWord s 905).toNat % held.length) 0)

/-- A word of the scratchpad of core k poisoned, with the tile that a built-in macro-instruction holds there (R377, R414). -/
def poisonPad (s : State) (k o : Nat) : State :=
  modCore s k fun c => { c with
    spm := c.spm.poisonWord (o / 8)
    seq := { c.seq with buf := tilePoison s c o } }

/-- What an error that nothing corrects does at its site. A parity error drops an entry, which is filled again. -/
def uncorrectable (s : State) (x : ErrorSite) : State :=
  match x with
  | .memory pa => loseLine s pa
  | .cache pa => { s with mem := s.mem.poisonWord (pa / 8) }
  | .scratchpad k o => poisonPad s k o
  | .spill k o => modCore s k fun c => { c with spill := c.spill.poisonWord (o / 8) }
  | .coreState k => loseAgent s true k
  | .controlState k => loseAgent s false k
  | .tlb k va => modCore s k fun c => { c with tlb := c.tlb.filter fun t => !t.covers t.vf va }
  | .valeTlb v vf va => modVale s v fun x => { x with tlb := x.tlb.filter fun t => !t.covers vf va }
  | .bundleCache k => modCore s k fun c => { c with fetched := none }
  | .controlCache _ => s
  | .basinSlot v n => loseBasinSlot s v n
  | .colEngine v => losePass s v
  | .saveBlock vf v n => poisonLine s (saveBase s vf v + 4096 * n)
  | .dirtyBitmap vf => poisonLine (modVf s vf fun v => { v with dbmErr := true }) (vfOf s vf).dbm.toNat
  | .slotTable j => failRunning s (unitNo 6 j) 0 none
  | .sharedTags unit => failRunning s unit 0 none

/-- Is an entry of a site protected by parity alone, so that every error of it is corrected by a refill? -/
def parityOnly (x : ErrorSite) : Bool :=
  match x with
  | .tlb _ _ | .valeTlb _ _ _ | .bundleCache _ | .controlCache _ => true
  | _ => false

/-- An error found at a site: counted, and unless it is corrected in place with its effect. -/
def errorAt (s : State) (x : ErrorSite) (correctable : Bool) : State :=
  let s' := countError s (siteOwner s x) (correctable || parityOnly x)
  if correctable && !parityOnly x then s' else uncorrectable s' x

/-- PATROL_SCRUB: the scrubber reads a word that holds an error. -/
def execPatrolScrub (site : ErrorSite) (correctable : Bool) (s : State) : Host.Outcome State Fault Refusal :=
  let s := bump s
  .next (errorAt s site correctable)

/-- SOFT_ERROR: an access finds an error. -/
def execSoftError (site : ErrorSite) (correctable : Bool) (s : State) : Host.Outcome State Fault Refusal :=
  let s := bump s
  .next (errorAt s site correctable)

/-! ## Links (R448, R449) -/

/-- LINK_RETRY_EXHAUSTED: a Solvanko link is taken out of use, an uncorrected error of no virtual function (R379);
collectives with deliveries to make to a node that no link in use reaches are stopped. -/
def execLinkRetryExhausted (link : Nat) (s : State) : Host.Outcome State Fault Refusal :=
  let s := bump s
  let s := countError { s with io := { s.io with links := s.io.links &&& ~~~(1#36 <<< link) } } none false
  .next (s.ctls.foldl (fun st c => c.2.macros.foldl (fun st e => stopUnreached st c.1 e.1) st) s)

/-- LINK_RETRAIN: firmware returns a link to use. -/
def execLinkRetrain (link : Nat) (s : State) : Host.Outcome State Fault Refusal :=
  let s := bump s
  .next { s with io := { s.io with links := s.io.links ||| (1#36 <<< link) } }

/-- VALE_MESH_LINK_FAIL: a mesh link is taken out of use; where that leaves a Vale that cannot be reached, the module
fails. -/
def execValeMeshLinkFail (link : Nat) (unreachable : Option Nat) (s : State) : Host.Outcome State Fault Refusal :=
  let s := bump s
  let s := countError { s with io := { s.io with meshDown := insertRising link s.io.meshDown } } none false
  match unreachable with
  | none => .next s
  | some v => .next (failRunning s (unitNo 5 link) (freeWord s (902 + v)) (some v))

end Sys2Proof.Machine
end

