-- ==== Sys2Proof/Machine/Debug.lean ====
section
/-! DEFINITION. The debugger: a context halted on its slices, its registers in its save area, single steps of its cores
and of a control core (R365, R366). -/

namespace Sys2Proof.Machine

open Sys2Proof

/-! ## The halt -/

/-- The virtual function of the context that the debugger is attached to. -/
def debugVf (s : State) : Option Nat :=
  if s.io.dbgAtt then
    (List.range 32).find? fun vf => (valesOf s vf).any fun v => (contextCid s vf v) == s.io.dbgCid
  else none

/-- A core halted: nothing lands before its bound, armed monitors fire with cause 2, and translations asked for are
asked for again. -/
def haltedForDebug (c : Core) : Core :=
  let c : Core := { c with treq := c.treq.map fun e => (e.1, { e.2 with walking := false }) }
  if c.status = .frozen then { c with exact := true }
  else { c with
    was := c.status, status := .frozen, exact := true, monitors := c.monitors.map fun m => (m.1, fireAll 2 m.2) }

/-- The save record of a halted context written to its save area, where the debugger reads and writes it. -/
def writeRecords (s : State) (vf vale : Nat) : State :=
  writeArea s vf vale (saveBase s vf vale) (bindOf s vf vale).bk.toNat (ctxOf s vf vale).generation (imageOf s vf vale)

/-- What the debugger left in the save area of a halted context, read back: the registers of its cores and control cores,
their in-flight records, and the cursors of interrupted commits (R365). -/
def readRecords (s : State) (vf vale : Nat) : State :=
  let base := saveBase s vf vale
  let cores := contextCores s vf vale
  let s := cores.foldl (fun st k =>
    let n := logicalKey st vf k % 192
    let a := base + coreArea n
    let was := commitCursor st vf vale n
    let now := st.mem.readN (a + 0xD88) 8
    let st := modCore st k fun c => (readRecord st.mem a (c.renumber (logicalKey st vf) (sliceKey st vf))).renumber
      (physicalKey st vf) (ctlKey st vf)
    if now = cursorBytes was ∨ was.1 = 0xFF then st
    else modVale st vale fun v => { v with gangs := v.gangs.modify {} was.1 fun x => { x with
      granules := numAt now 4 4, committing := x.committing.map fun l => l.dropWhile (· != numAt now 2 2) } }) s
  (contextCtls s vf vale).zipIdx.foldl (fun st e =>
    modCtl st e.1 fun c => readCtl st.mem (base + 0x10000 + 0x4000 * e.2) c) s

/-- A bound context halted on its slices; of one halted already the debugger's edits count first. -/
def haltForDebug (s : State) (vf vale : Nat) : State :=
  match (ctxOf s vf vale).status with
  | .running | .stepping | .halted =>
    let s := if (ctxOf s vf vale).status = .halted then readRecords s vf vale else s
    let s := (contextCores s vf vale).foldl (fun st k => modCore st k haltedForDebug) s
    let s := (contextCtls s vf vale).foldl (fun st k => modCtl st k frozenCtl) s
    let s := freezePass s vf vale
    writeRecords (modCtx s vf vale fun x => { x with status := .halted }) vf vale
  | .binding => freezeNow s vf vale
  | _ => s

/-- The attached context's virtual function stopped: its contexts halt under the FREEZE policy (R328). -/
def debugStop (s : State) : State :=
  match debugVf s with
  | none => s
  | some vf =>
    let g := groupFirst s (groupOfVf s vf)
    let live := (groupVales s g).filter (active s vf)
    let s := if live.isEmpty || s.io.dbgHalted then s else schedTraceAll s vf 0x0102 (1 + 3 * 256)
    let s := live.foldl (fun st v => haltForDebug st vf v) s
    settleGroup { s with io := { s.io with dbgHalted := true, dbgSc := if s.io.dbgHalted then s.io.dbgSc else 0 } } g

/-- DEBUG_STOP: 1 written to `dbgctl.stop` by the host, through a port that is up (R449). -/
def execDebugStop (s : State) : Host.Outcome State Fault Refusal :=
  let s := bump s
  .next (if portsUp s then debugStop s else s)

/-! ## The resume -/

/-- A core that goes on after a halt: one that `brk` stopped runs again. -/
def resumedCore (c : Core) : Core :=
  { c with
    exact := false, brk := false
    was := if c.brk ∧ c.was = .stopped then .running else c.was
    status := if c.brk ∧ c.status = .stopped then .running else c.status }

/-- A context that goes on after a halt: on its slices it replays its in-flight records, unbound it waits for its next
bind. -/
def resumeContext (s : State) (vf vale : Nat) : State :=
  let x := ctxOf s vf vale
  match x.status, x.image with
  | .halted, _ =>
    let s := readRecords s vf vale
    let s := (contextCores s vf vale).foldl (fun st k => modCore st k resumedCore) s
    let s := modVale s vale fun v =>
      let back := (v.aside.filter fun p => p.vf == vf && !p.stopped).map (·.disp)
      { v with passQueue := v.passQueue ++ back.filter fun d => !(v.passQueue.any fun q => sameDispatch q d.ctl d.entry) }
    beginReplays (modCtx s vf vale fun x => { x with status := .binding, restored := true }) vf vale
  | _, some i => setCtx s vf vale { x with image := some { i with cores := i.cores.map fun e => (e.1, resumedCore e.2) } }
  | _, none => (contextCores s vf vale).foldl (fun st k => modCore st k resumedCore) s

/-- The attached context's virtual function resumed. -/
def debugGo (s : State) : State :=
  match debugVf s with
  | none => s
  | some vf =>
    if !s.io.dbgHalted then s
    else
      let s := (valesOf s vf).foldl (fun st v => resumeContext st vf v) s
      { s with io := { s.io with dbgHalted := false } }

/-- DEBUG_GO: 1 written to `dbgctl.go` by the host, through a port that is up (R449). -/
def execDebugGo (s : State) : Host.Outcome State Fault Refusal :=
  let s := bump s
  .next (if portsUp s then debugGo s else s)

/-! ## DEBUG_STEP (R366) -/

/-- The state that an outcome goes on in. -/
def nextOr (o : Host.Outcome State Fault Refusal) (s : State) : State :=
  match o with
  | .next t => t
  | _ => s

/-- What the engines beside the slots of core k may get done in one clk: the manual gives no pace, so each acts or does
not by a free value. -/
def engineActs (s : State) (k : Nat) : List (State → Host.Outcome State Fault Refusal) :=
  let c := coreOf s k
  let draw := fun (n : Nat) => freeWord s (2000 + 512 * k + n)
  let may := fun (n : Nat) (f : State → Host.Outcome State Fault Refusal) => if (draw n).getLsbD 0 then [f] else []
  let part := fun (e : Nat) (x : CopyEntry) =>
    let n := x.done + (draw (160 + e)).toNat / 4 % 65536
    if (draw (160 + e)).getLsbD 0 then CopyPart.toEnd
    else if (draw (160 + e)).getLsbD 1 then .granule n else .upTo n
  may 300 (execMatrixCommandStart k) ++ may 301 (execMatrixCommandFinish k 0) ++ may 302 (execSequencerPrefetch k)
    ++ may 303 (execSequencerReady k) ++ may 304 (execSequencerBoundary k)
    ++ c.treq.flatMap (fun e => may e.1 (execValeTlbLookup k e.1))
    ++ c.copies.flatMap (fun e => may (128 + e.1) (execCopyComplete k e.1 (part e.1 e.2)))
    ++ c.loads.flatMap (fun e => may (192 + e.1) (if e.2.kind = 2 then execOwnershipGrant k e.1 else execStashFill k e.1))
    ++ c.atomics.flatMap (fun e => may (256 + e.1) (execAtomicApply k e.1) ++ may (272 + e.1) (execAtomicResponse k e.1))
    ++ c.barriers.flatMap (fun e => may (288 + e.1) (execBarrierArrival k e.1))

/-- The slots of core k in one clk: its bundle issues once its earliest clk has come and no stall condition holds. -/
def slotsClk (s : State) (k : Nat) : State :=
  let c := coreOf s k
  if c.status = .running ∧ c.earliest ≤ c.clk then
    let s := if (fetchedBundle c).isNone then nextOr (execBundleFetch k s) s else s
    if (coreOf s k).status = .running then nextOr (execBundleIssue k s) s else idleClk s k
  else landOn s k { advance (coreOf s k) (coreOf s k).clk with clk := (coreOf s k).clk + 1 }

/-- A core of a halted context let go for one clk. -/
def thawed (c : Core) : Core := { c with status := if c.brk then .running else c.was, brk := false }

/-- Core k advanced by one clk: its engines and its slots. -/
def stepCore (s : State) (k : Nat) : State := slotsClk ((engineActs s k).foldl (fun st f => nextOr (f st) st) s) k

/-- The walks and the phase boundaries of a virtual function in a Vale that may end in this clk. -/
def stepVale (s : State) (vf vale : Nat) : State :=
  let may := fun (n : Nat) => (freeWord s (1000 + n)).getLsbD 0
  let s := (valeOf s vale).walkers.foldl (fun st e =>
    if e.2.vf = vf ∧ may (256 + e.1) = true then nextOr (execPageWalkComplete vale e.1 false st) st else st) s
  (valeOf s vale).gangs.foldl (fun st e =>
    if e.2.vf = vf ∧ e.2.committing.isSome = true ∧ may e.1 = true then
      nextOr (execPhaseBoundaryComplete vale e.1 none st) st
    else st) s

/-- Every core of a halted context advanced by one clk, and halted again. A context in which `brk` alone stopped a core
halts first. -/
def stepHalted (s : State) (vf vale : Nat) : State :=
  let s := if (ctxOf s vf vale).status = .running then haltForDebug s vf vale else s
  if (ctxOf s vf vale).status = .halted then
    let cores := contextCores s vf vale
    let s := modCtx (readRecords s vf vale) vf vale fun x => { x with status := .running }
    let s := cores.foldl (fun st k => modCore st k thawed) s
    let s := cores.foldl stepCore (stepVale s vf vale)
    haltForDebug s vf vale
  else s

/-- The Vales of the attached context. -/
def debugVales (s : State) (vf : Nat) : List Nat := (valesOf s vf).filter fun v => (contextCid s vf v) == s.io.dbgCid

/-- One clk of the attached context. -/
def debugStep (s : State) : State :=
  match debugVf s with
  | none => s
  | some vf =>
    if !s.io.dbgHalted then s
    else
      let s := (debugVales s vf).foldl (fun st v => stepHalted st vf v) s
      { s with io := { s.io with dbgSc := s.io.dbgSc + 1 } }

/-- DEBUG_STEP: 1 written to `dbgctl.step` by the host, through a port that is up (R449). -/
def execDebugStep (s : State) : Host.Outcome State Fault Refusal :=
  let s := bump s
  .next (if portsUp s then debugStep s else s)

/-! ## DEBUG_CSTEP (R365) -/

/-- One instruction of the control core of logical slice sl: the debugger's edits are read, it takes the next turn, and then
halts again. -/
def debugCstep (s : State) : State :=
  match debugVf s with
  | none => s
  | some vf =>
    match (logicalSlices s vf)[s.io.dbgSl.toNat]? with
    | none => s
    | some k =>
      if s.io.dbgHalted && (ctxOf s vf (k / 8)).status == .halted then
        let s := modCtx (readRecords s vf (k / 8)) vf (k / 8) fun x => { x with status := .running }
        { modCtl s k (fun c => { c with status := c.was }) with
          agenda := (0, .ctl k) :: (0, .event .debugStop) :: s.agenda }
      else s

/-- DEBUG_CSTEP: 1 written to `dbgctl.cstep` by the host, through a port that is up (R449). -/
def execDebugCstep (s : State) : Host.Outcome State Fault Refusal :=
  let s := bump s
  .next (if portsUp s then debugCstep s else s)

end Sys2Proof.Machine
end

