-- ==== Sys2Proof/Machine/MacroEnd.lean ====
section
/-! DEFINITION. The stop and the completion of a macro-instruction, and `m.stat` (R68, R110, R248, R252, R265, R396, R411,
R412, R415, R442, R443). -/

namespace Sys2Proof.Machine

open Sys2Proof

/-! ## MACRO_STOPPED (R76, R252, R411, R412, R443) -/

/-- MACRO_STOPPED: a stopping entry becomes stopped, once no member has still to take it up behind another (R76, R411); open accumulators are spilled (R252, R412). A pass of
attention has left its engine by then, and its state goes to the save area (R441, R443). -/
def execMacroStopped (k e : Nat) (s : State) : Host.Outcome State Fault Refusal :=
  let s := bump s
  let m := entryOf s k e
  if m.state ≠ .stopping ∨ m.recordsHeld ≠ 0 ∨ (ctlOf s k).status = .frozen then .next s
  else
    let vale := k / 8
    let engine := match (valeOf s vale).pass with
      | some p => sameDispatch p.disp k e
      | none => false
    let members := memberCores s vale (vfOfCtl s k) m.members
    let cores := members.filter fun j => executes s j k e
    let behind := members.any fun j => (coreOf s j).status != .stopped && (match (coreOf s j).seq.pend with
      | some d => sameDispatch d k e
      | none => false)
    if engine = true ∨ behind = true ∨ cores.any (fun j => match (coreOf s j).seq.exec with
        | some d => !ceased s j d || !copiesSettled s j
        | none => false) then .next s
    else
      let s := cores.foldl (fun st j => match (coreOf st j).seq.exec with
        | some d => spillAccumulator st j d
        | none => st) s
      let s := modEntry s k e fun m => { m with state := .stopped }
      .next (if m.op = 3 ∧ ¬ m.isColl then keepStopped s (vfOfCtl s k) vale else s)

/-! ## MACRO_COMPLETE (R68, R110) -/

/-- Has a member done its part: its last boundary is passed and its writes have performed? -/
def memberDone (k e : Nat) (s : State) (j : Nat) : Bool :=
  let c := coreOf s j
  match c.seq.exec with
  | none => false
  | some d =>
    sameDispatch d k e && passedLast c d && c.status == .idle && c.copies.isEmpty && c.atomics.isEmpty
      && !(c.loads.any fun x => x.2.kind == 2) && c.seq.arrival.isNone && c.replay.isEmpty

/-- The elements of slice 1 of T2, and of T3 where values are carried, which are undefined once an `m.sort` has completed
(R255). -/
def forgetSlice1 (s : State) (vf : Nat) (m : Macro) : State :=
  let n := (m.tn 0).n.foldl (· * ·) 1
  let one := fun (st : State) (j i : Nat) =>
    let at0 := coordsOf i ((m.tn 0).n)
    let a := (elemVa (m.tn j) ((List.range 7).map fun d => if d = (m.tn 0).nd + 1 then 1 else at0.getD d 0)).1
    vaForget st vf { lo := a, hi := (a : Int) + (m.tn j).unit }
  (if m.has 3 then [2, 3] else [2]).foldl (fun st j => (List.range n).foldl (fun st i => one st j i) st) s

/-- MACRO_COMPLETE: every member has passed its last boundary and every write has performed, those that the completion
itself commits among them; it acts as a boundary of the members, releases the scoreboard ranges, and frees the
sequencers. -/
def execMacroComplete (k e : Nat) (s : State) : Host.Outcome State Fault Refusal :=
  let s := bump s
  let m := entryOf s k e
  let vf := vfOfCtl s k
  let vale := k / 8
  let cores := memberCores s vale vf m.members
  if m.isColl ∨ m.state ≠ .running ∨ ¬ m.dispatched ∨ (ctlOf s k).status = .frozen
    ∨ ¬ cores.all (memberDone k e s) ∨ (m.op = 3 ∧ ¬ passComplete s vale k e)
    ∨ (gangOf s vale m.gang).committing.isSome ∨ cores.any (commitBlocked s) ∨ parkedWrites s vf then .next s
  else
    let prgs := memberPrgs s k m
    let s := commitAll s cores
    if parkedWrites s vf then .next s
    else
    let s := discardAllClean s cores
    let s := if m.op = 4 then forgetSlice1 s vf (macroOf m.desc m.t3) else s
    let s := if m.op = 3 then endPass s vale else s
    let s := modEntry s k e fun m => { m with state := .completed, reads := [], writes := [], prgs := prgs }
    .next (cores.foldl releaseSequencer s)

/-! ## `m.stat` (R265, R396, R442) -/

/-- The state code of an entry; stopping and killing entries read as running. -/
def stateCode (m : MacroEntry) : Nat :=
  match m.state with
  | .free => 0
  | .running | .stopping | .killing => 1
  | .stopped => 2
  | .completed => 3
  | .killed => 4

/-- The progress registers that `m.stat` reads: as they stood at the end, or live. -/
def shownPrgs (s : State) (k : Nat) (m : MacroEntry) : List (List Nat) :=
  match m.state with
  | .completed | .killed => m.prgs
  | _ => memberPrgs s k m

/-- The value of a selector of an entry. -/
def statValue (s : State) (k : Nat) (m : MacroEntry) (sel : Nat) : Nat :=
  let prgs := shownPrgs s k m
  let affected := if m.state = .stopped ∧ m.op = 3 ∧ ¬ m.isColl then m.affected else []
  if sel = 0 then stateCode m + (if m.state = .stopped then m.cause * 256 else 0)
  else if sel = 1 then (prgs.map fun l => l.getD 7 0).foldl (· + ·) 0
  else if sel = 2 then m.totalSteps
  else if sel = 3 then m.gang
  else if sel = 4 then m.descAddr.toNat
  else if sel = 5 then (if m.isColl then collStatus s m else 0)
  else if sel = 6 then affected.length
  else if 0x1000 ≤ sel ∧ sel < 0x1C00 then ((prgs.getD ((sel - 0x1000) / 16) []).getD (sel % 16) 0)
  else if 0x2000 ≤ sel ∧ sel < 0x12000 then affected.getD (sel - 0x2000) (2 ^ 64 - 1)
  else 0

/-- M_STAT: a value of the entry that a tag names, without waiting. -/
def execMStat (f : XF) (s : State) : Host.Outcome State Fault Refusal :=
  let s := bump s
  let c := curCtl s
  let sel := (xGet c f.rs2.toNat).toNat
  .next (ctlResult s f.rd (BitVec.ofNat 64 (match named c (xGet c f.rs1.toNat) with
    | .future => if sel = 0 then 6 else 0
    | .retired => if sel = 0 then 5 else 0
    | .entry _ m => statValue s s.ctl m sel)))

end Sys2Proof.Machine
end

