-- ==== Sys2Proof/Machine/Power.lean ====
section
/-! DEFINITION. Module reset, power-on reset, power states and the thermal shutdown (R5, R360, R364, R367, R376, R393). -/

namespace Sys2Proof.Machine

open Sys2Proof

/-- Is a context bound on any slice? -/
def anyBound (s : State) : Bool := s.slots.any fun e => e.2.bound

/-- The module right after a module reset: every field at its reset value. Memory keeps its contents and NSTIME runs on
at its last rate, not steady; what no field names stays: which ports are down, the cores that the firmware has retired,
the CXL memory that it found, the boot that it runs under, the calibration of the meters, the settlement window. -/
def afterReset (s : State) : State :=
  { State.reset with
    nstime := s.nstime, mem := s.mem, agenda := s.agenda, ctl := s.ctl, free := s.free, undefGen := s.undefGen
    io := { State.reset.io with
      boot := if s.io.bootFailed then .recovery else .running, bootFailed := s.io.bootFailed, bootCount := s.io.bootCount
      portDown := s.io.portDown, retired := s.io.retired, mdret := s.io.mdret, cxlGiB := s.io.cxlGiB
      ratePpb := s.io.ratePpb, nsFrac := s.io.nsFrac, nsHold := s.io.nsHold }
    energy := { State.reset.energy with
      factors := s.energy.factors, ops := s.energy.ops, settled := s.energy.settled
      idle := s.energy.idle } }

/-- A module reset (R367): contexts are discarded, then every field is reset. -/
def moduleReset (s : State) : State := afterReset (discardAll s)

/-- MODULE_RESET: 1 written to `mdctl.rst`. -/
def execModuleReset (s : State) : Host.Outcome State Fault Refusal :=
  let s := bump s
  .next (if portsUp s then moduleReset s else s)

/-- POWER_ON_RESET: a module reset, and the boot: it fails at a stage for a reason, or the firmware runs and finds the
CXL memory, at most 8 TiB at each port. -/
def execPowerOnReset (failure : Option (Nat × Nat)) (cxlGiB : Nat × Nat) (s : State) : Host.Outcome State Fault Refusal :=
  let s := bump s
  let s := moduleReset s
  let s := { s with io := { s.io with bootCount := s.io.bootCount + 1 } }
  match failure with
  | none => .next { s with io := { s.io with
      boot := .running, bootFailed := false, cxlGiB := (Nat.min 8192 cxlGiB.1, Nat.min 8192 cxlGiB.2) } }
  | some (stage, reason) =>
    .next (postMbo { s with io := { s.io with boot := .recovery, bootFailed := true } }
      [0x8030, BitVec.ofNat 64 stage, BitVec.ofNat 64 reason])

/-- A write of `mdctl.ps`: P2 only with no context bound; a value that names no power state is stored as any other (R4, R367). -/
def requestPower (s : State) (ps : BitVec 4) : State :=
  if ps = 2 ∧ anyBound s = true then s else { s with io := { s.io with ps := ps } }

/-- POWER_STATE_REQUEST: `mdctl.ps` written. -/
def execPowerStateRequest (ps : BitVec 4) (s : State) : Host.Outcome State Fault Refusal :=
  let s := bump s
  .next (if portsUp s then requestPower s ps else s)

/-- The module without power. -/
def powerOff (s : State) : State := { s with io := { s.io with boot := .off } }

/-- THERMAL_SHUTDOWN: at 105 °C the module removes its own power. -/
def execThermalShutdown (s : State) : Host.Outcome State Fault Refusal :=
  let s := bump s
  .next (if 105 ≤ dieTemperature s then powerOff s else s)

/-- SUPPLY_REMOVED: a supply is removed; out of its order, that leaves the contents of HBM undefined. -/
def execSupplyRemoved (inOrder : Bool) (s : State) : Host.Outcome State Fault Refusal :=
  let s := bump s
  .next (powerOff (if inOrder then s else physForget s 0 (2 ^ 40)))

end Sys2Proof.Machine
end

