-- ==== Sys2Proof/Machine/Registers.lean ====
section
/-! DEFINITION. The register spaces of the host (R4, R62, R88, R98, R119, R344, R347, R348, R350, R353 to R357, R359,
R362, R365, R367, R379, R430, R448, R451, R456). -/

namespace Sys2Proof.Machine

open Sys2Proof

/-- Where an offset of the physical function's space lies. -/
inductive PfRegister where
  | identity (o : Nat) | mdctl | nsstat | mdnode | mdecc | mdlnk | vswal (vale : Nat)
  | pfmbi (i : Nat) | pfmbo (i : Nat) | pfmbst | sfnsel | sfnc (c : Nat)
  | perVf (vf o : Nat) | place (vale vf idx : Nat) | dbgctl | dbgsc | unassigned
deriving DecidableEq, Repr

/-- The register at an offset (R353); a place-table map holds cores at 0x000 to 0x17F and slices at 0x180 to 0x18F. -/
def pfRegister (o : Nat) : PfRegister :=
  if o < 0x1000 then .identity o
  else if o = 0x1000 then .mdctl
  else if o = 0x1008 then .nsstat
  else if o = 0x1010 then .mdnode
  else if o = 0x1018 then .mdecc
  else if o = 0x1020 then .mdlnk
  else if 0x1040 ≤ o ∧ o < 0x1080 then .vswal ((o - 0x1040) / 8)
  else if 0x1100 ≤ o ∧ o < 0x1140 then .pfmbi ((o - 0x1100) / 8)
  else if 0x1140 ≤ o ∧ o < 0x1180 then .pfmbo ((o - 0x1140) / 8)
  else if o = 0x1180 then .pfmbst
  else if o = 0x1200 then .sfnsel
  else if 0x1208 ≤ o ∧ o < 0x1220 then .sfnc ((o - 0x1208) / 8)
  else if 0x10000 ≤ o ∧ o < 0x12000 then .perVf ((o - 0x10000) / 256) (o % 256)
  else if 0x20000 ≤ o ∧ o < 0x60000 then
    let p := o % 0x400
    if p < 0x190 then .place ((o - 0x20000) / 0x8000) (o % 0x8000 / 0x400) (p / 2) else .unassigned
  else if o = 0x60000 then .dbgctl
  else if o = 0x60008 then .dbgsc
  else .unassigned

/-- Does a register answer in the module's present state? In recovery only `mdid`, `mdctl` and the mailbox of the
physical function do (R364). -/
def answers (s : State) (r : PfRegister) : Bool :=
  match r with
  | .identity o => s.io.boot == .running || o == 0
  | .mdctl | .pfmbi _ | .pfmbo _ | .pfmbst => true
  | _ => s.io.boot == .running

/-! ## Writes -/

/-- A register of a virtual function's block written. -/
def writePerVf (s : State) (vf o : Nat) (w : Word) : State :=
  let put := fun (f : Vf → Vf) => modVf s vf f
  let low := w.setWidth 32
  match o with
  | 0x00 => put fun v => { v with root := w &&& 0xFFFFFFFFF000#64 }
  | 0x08 => put fun v => { v with hbase := low, hset := true }
  | 0x10 => put fun v => { v with hlim := low, hset := true }
  | 0x18 => put fun v => { v with cbase := low }
  | 0x20 => put fun v => { v with clim := low }
  | 0x28 => put fun v => { v with tmva := w &&& 0xFFFFFFFFFF0000#64 }
  | 0x30 => put fun v => { v with tmdst := low }
  | 0x38 => writeTmctl s vf w
  | 0x40 => writeVfjq s vf w
  | 0x48 => put fun v => { v with jp := low, period := s.nstime.toNat / (1000 * low.toNat) }
  | 0x58 => put fun v => { v with dbm := w &&& 0xFFFFFFFFF000#64 }
  | 0x60 =>
    let s := put fun v => { v with dbEn := w.getLsbD 63 }
    let s := if w.getLsbD 62 then snapDirty s vf else s
    if w.getLsbD 59 then settleVf s vf else s
  | 0x78 => put fun v => { v with ptErr := v.ptErr && !w.getLsbD 63 }
  | 0x80 => put fun v => { v with dbmErr := v.dbmErr && !w.getLsbD 63, snf := v.snf && !w.getLsbD 62 }
  | _ => s

/-- The four entries of a place-table map that an aligned word holds, written. -/
def writePlaces (s : State) (vale vf idx : Nat) (w : Word) : State :=
  (List.range 4).foldl (fun st i => writePlace st vale vf (idx + i) (w.extractLsb' (16 * i) 16)) s

/-- `dbgctl` written: attachment and fields first, then what the bits of access w ask for. -/
def writeDbgctl (s : State) (w : Word) : State :=
  let s := { s with io := { s.io with
    dbgAtt := w.getLsbD 63, dbgSl := w.extractLsb' 12 8, dbgCid := w.extractLsb' 0 12 } }
  let s := if w.getLsbD 62 then debugStop s else s
  let s := if w.getLsbD 61 then debugGo s else s
  let s := if w.getLsbD 60 then debugStep s else s
  if w.getLsbD 59 then debugCstep s else s

/-- `pfmbst` written. -/
def writePfmbst (s : State) (w : Word) : State :=
  let s := { s with io := { s.io with mbLost := s.io.mbLost && !w.getLsbD 2 } }
  let s := if w.getLsbD 0 then sendPfmb s else s
  if w.getLsbD 1 then popPfmb s else s

/-- A register of the physical function's space written; fields of access r and unassigned offsets ignore it. -/
def writePf (s : State) (r : PfRegister) (w : Word) : State :=
  match r with
  | .mdctl => if w.getLsbD 63 then moduleReset s else requestPower s (w.extractLsb' 56 4)
  | .mdnode => { s with io := { s.io with mdnode := w.setWidth 24 } }
  | .pfmbi i => { s with io := { s.io with mbi := s.io.mbi.put 0 i w } }
  | .pfmbst => writePfmbst s w
  | .sfnsel => { s with io := { s.io with sfn := w.extractLsb' 16 3, sfseg := w.extractLsb' 0 15 } }
  | .perVf vf o => writePerVf s vf o w
  | .place vale vf idx => writePlaces s vale vf idx w
  | .dbgctl => writeDbgctl s w
  | _ => s

/-- A register of a virtual function's space written. -/
def writeVfSpace (s : State) (vf o : Nat) (w : Word) : State :=
  match o with
  | 0x0000 => writeLnchv s vf w
  | 0x0008 => writeVfimg s vf w
  | 0x0010 => writeMbin s vf w
  | 0x0018 => if w.getLsbD 0 then popMbost s vf else s
  | _ => s

/-- A register write of the host. -/
def writeRegister (s : State) (vf : Option Nat) (o : Nat) (w : Word) : State :=
  if !portsUp s then s
  else match vf with
    | none => if answers s (pfRegister o) then writePf s (pfRegister o) w else s
    | some n => if s.io.boot = .running then writeVfSpace s n o w else s

/-- REGISTER_WRITE: a register of the physical function's space, or of a virtual function's. -/
def execRegisterWrite (vf : Option Nat) (o : Nat) (w : Word) (s : State) : Host.Outcome State Fault Refusal :=
  let s := bump s
  .next (writeRegister s vf o w)

/-! ## Reads -/

/-- Bit i of a word, from a Bool. -/
def flagAt (i : Nat) (b : Bool) : Nat := if b then 2 ^ i else 0

/-- The identity block and the capability list (R354, R363). -/
def readIdentity (s : State) (o : Nat) : Word :=
  match o with
  | 0x000 => BitVec.ofNat 64 (Config.stepping.toNat * 2 ^ 48 + 1 * 2 ^ 40 + 0x8A00 * 2 ^ 16 + 0x1F7A)
  | 0x008 => BitVec.ofNat 64 (0xFF * 2 ^ 32 + 0x100)
  | 0x010 => BitVec.ofNat 64 (leNat ((List.range 8).map fun v => BitVec.ofNat 8 (retiredIn s v)))
  | _ => if o < 0x100 then 0 else capabilityWord s.io.cxlGiB o

/-- A register of a virtual function's block read. -/
def readPerVf (s : State) (vf o : Nat) : Word :=
  let v := vfOf s vf
  match o with
  | 0x00 => v.root
  | 0x08 => v.hbase.setWidth 64
  | 0x10 => v.hlim.setWidth 64
  | 0x18 => v.cbase.setWidth 64
  | 0x20 => v.clim.setWidth 64
  | 0x28 => v.tmva
  | 0x30 => v.tmdst.setWidth 64
  | 0x38 => BitVec.ofNat 64 (flagAt 63 v.tier.isSome + flagAt 61 v.tmerr + v.tmcount.toNat)
  | 0x40 => v.jq
  | 0x48 => v.jp.setWidth 64
  | 0x50 => BitVec.ofNat 64 v.jused
  | 0x58 => v.dbm
  | 0x60 => BitVec.ofNat 64 (flagAt 63 v.dbEn + flagAt 61 v.dbCur + flagAt 60 v.dbBusy)
  | 0x68 => v.cec
  | 0x70 => v.uec
  | 0x78 => BitVec.ofNat 64 (flagAt 63 v.ptErr + v.ptInfo.toNat)
  | 0x80 => BitVec.ofNat 64 (flagAt 63 v.dbmErr + flagAt 62 v.snf)
  | _ => 0

/-- A register of the physical function's space read; fields of access w read zero (R4). -/
def readPf (s : State) (r : PfRegister) : Word :=
  match r with
  | .identity o => readIdentity s o
  | .mdctl => BitVec.ofNat 64 (s.io.ps.toNat * 2 ^ 56 + dieTemperature s * 2 ^ 48)
  | .nsstat => BitVec.ofNat 64 (flagAt 63 s.io.steady + s.io.nsOff.toNat)
  | .mdnode => s.io.mdnode.setWidth 64
  | .mdecc => BitVec.ofNat 64 (s.io.eccUncorr.toNat * 2 ^ 32 + s.io.eccCorr.toNat)
  | .mdlnk => s.io.links.setWidth 64
  | .vswal v => (valeOf s v).swallow.setWidth 64
  | .pfmbo i => (s.io.mbo.headD []).getD i 0
  | .pfmbst => BitVec.ofNat 64 (Nat.min 8 s.io.mbo.length * 2 ^ 9 + flagAt 8 s.io.mbiTaken.isSome + flagAt 2 s.io.mbLost)
  | .sfnsel => BitVec.ofNat 64 (s.io.sfn.toNat * 2 ^ 16 + s.io.sfseg.toNat)
  | .sfnc c => sfWord s.io.sfn.toNat s.io.sfseg.toNat c
  | .perVf vf o => readPerVf s vf o
  | .place vale vf idx =>
    BitVec.ofNat 64 (((List.range 4).map fun i => ((placeMap s vale vf).written.get 0 (idx + i)).toNat * 2 ^ (16 * i)).foldl (· + ·) 0)
  | .dbgctl => BitVec.ofNat 64 (flagAt 63 s.io.dbgAtt + flagAt 58 s.io.dbgHalted + s.io.dbgSl.toNat * 2 ^ 12 + s.io.dbgCid.toNat)
  | .dbgsc => s.io.dbgSc
  | _ => 0

/-- A register of a virtual function's space read (R353, R356). -/
def readVfSpace (s : State) (vf o : Nat) : Word :=
  let v := vfOf s vf
  let out := v.modq ++ v.outq
  if o = 0x18 then BitVec.ofNat 64 (flagAt 63 v.inDropped + flagAt 62 v.modDropped + out.length * 2 ^ 16 + v.inq.length)
  else if 0x40 ≤ o ∧ o < 0x80 then (out.headD []).getD ((o - 0x40) / 8) 0
  else if 0x800 ≤ o ∧ o < 0x1000 then readIdentity s (o - 0x800)
  else 0

/-- A register as the host reads it. -/
def readRegister (s : State) (vf : Option Nat) (o : Nat) : Word :=
  match vf with
  | none => if answers s (pfRegister o) then readPf s (pfRegister o) else 0
  | some n => if s.io.boot = .running then readVfSpace s n o else 0

end Sys2Proof.Machine
end

