-- ==== Sys2Proof/Machine/RiscV.lean ====
section
/-! DEFINITION. The base instruction set of a control core: RV64I with M, A, C, Zicsr, Zifencei, Zba and Zbb, and the
privileged architecture (R117, R270 to R273). -/

namespace Sys2Proof.Machine

open Sys2Proof

/-! ## Compressed instructions -/

/-- An I-type word. -/
def rvI (op f3 rd rs1 imm : Nat) : Nat := imm % 4096 * 2 ^ 20 + rs1 * 2 ^ 15 + f3 * 2 ^ 12 + rd * 2 ^ 7 + op
/-- An R-type word. -/
def rvR (op f3 f7 rd rs1 rs2 : Nat) : Nat := f7 * 2 ^ 25 + rs2 * 2 ^ 20 + rs1 * 2 ^ 15 + f3 * 2 ^ 12 + rd * 2 ^ 7 + op
/-- An S-type word. -/
def rvS (op f3 rs1 rs2 imm : Nat) : Nat :=
  imm / 32 % 128 * 2 ^ 25 + rs2 * 2 ^ 20 + rs1 * 2 ^ 15 + f3 * 2 ^ 12 + imm % 32 * 2 ^ 7 + op
/-- A B-type word. -/
def rvB (f3 rs1 rs2 imm : Nat) : Nat :=
  imm / 4096 % 2 * 2 ^ 31 + imm / 32 % 64 * 2 ^ 25 + rs2 * 2 ^ 20 + rs1 * 2 ^ 15 + f3 * 2 ^ 12
    + imm / 2 % 16 * 2 ^ 8 + imm / 2048 % 2 * 2 ^ 7 + 0x63
/-- A JAL word. -/
def rvJ (rd imm : Nat) : Nat :=
  imm / 2 ^ 20 % 2 * 2 ^ 31 + imm / 2 % 1024 * 2 ^ 21 + imm / 2048 % 2 * 2 ^ 20 + imm / 4096 % 256 * 2 ^ 12 + rd * 2 ^ 7 + 0x6F

/-- The 12 low bits of a 6-bit signed immediate. -/
def sext6 (v : Nat) : Nat := if 32 ≤ v then 4096 - 64 + v else v

/-- Bits hi to lo of a compressed word, moved to place `place`. -/
def cbits (w hi lo place : Nat) : Nat := bitsOf w hi lo * 2 ^ place

/-- Quadrant 0 of the compressed instructions. -/
def expand0 (w : Nat) : Option Nat :=
  let rd := 8 + bitsOf w 4 2
  let rs := 8 + bitsOf w 9 7
  let iw := cbits w 12 10 3 + cbits w 6 6 2 + cbits w 5 5 6
  let id := cbits w 12 10 3 + cbits w 6 5 6
  match w / 2 ^ 13 with
  | 0 =>
    let imm := cbits w 12 11 4 + cbits w 10 7 6 + cbits w 6 6 2 + cbits w 5 5 3
    if imm = 0 then none else some (rvI 0x13 0 rd 2 imm)
  | 2 => some (rvI 0x03 2 rd rs iw)
  | 3 => some (rvI 0x03 3 rd rs id)
  | 6 => some (rvS 0x23 2 rs rd iw)
  | 7 => some (rvS 0x23 3 rs rd id)
  | _ => none

/-- The arithmetic group of quadrant 1. -/
def expandAlu (w : Nat) : Option Nat :=
  let rd := 8 + bitsOf w 9 7
  let rs := 8 + bitsOf w 4 2
  let imm := cbits w 12 12 5 + bitsOf w 6 2
  match bitsOf w 11 10, bitsOf w 12 12, bitsOf w 6 5 with
  | 0, _, _ => some (rvI 0x13 5 rd rd imm)
  | 1, _, _ => some (rvI 0x13 5 rd rd (0x400 + imm))
  | 2, _, _ => some (rvI 0x13 7 rd rd (sext6 imm))
  | 3, 0, 0 => some (rvR 0x33 0 0x20 rd rd rs)
  | 3, 0, 1 => some (rvR 0x33 4 0 rd rd rs)
  | 3, 0, 2 => some (rvR 0x33 6 0 rd rd rs)
  | 3, 0, 3 => some (rvR 0x33 7 0 rd rd rs)
  | 3, 1, 0 => some (rvR 0x3B 0 0x20 rd rd rs)
  | 3, 1, 1 => some (rvR 0x3B 0 0 rd rd rs)
  | _, _, _ => none

/-- Quadrant 1 of the compressed instructions. -/
def expand1 (w : Nat) : Option Nat :=
  let rd := bitsOf w 11 7
  let imm := cbits w 12 12 5 + bitsOf w 6 2
  let sign := fun (n : Nat) (v : Nat) => if bitsOf w 12 12 = 1 then 2 ^ 21 - 2 ^ n + v else v
  let br := sign 9 (cbits w 12 12 8 + cbits w 11 10 3 + cbits w 6 5 6 + cbits w 4 3 1 + cbits w 2 2 5)
  match w / 2 ^ 13 with
  | 0 => some (rvI 0x13 0 rd rd (sext6 imm))
  | 1 => if rd = 0 then none else some (rvI 0x1B 0 rd rd (sext6 imm))
  | 2 => some (rvI 0x13 0 rd 0 (sext6 imm))
  | 3 =>
    if rd = 2 then
      let v := sign 10 (cbits w 12 12 9 + cbits w 6 6 4 + cbits w 5 5 6 + cbits w 4 3 7 + cbits w 2 2 5)
      if v = 0 then none else some (rvI 0x13 0 2 2 v)
    else if imm = 0 then none else some ((if 32 ≤ imm then 2 ^ 20 - 64 + imm else imm) * 2 ^ 12 + rd * 2 ^ 7 + 0x37)
  | 4 => expandAlu w
  | 5 => some (rvJ 0 (sign 12 (cbits w 12 12 11 + cbits w 11 11 4 + cbits w 10 9 8 + cbits w 8 8 10 + cbits w 7 7 6
      + cbits w 6 6 7 + cbits w 5 3 1 + cbits w 2 2 5)))
  | 6 => some (rvB 0 (8 + bitsOf w 9 7) 0 br)
  | _ => some (rvB 1 (8 + bitsOf w 9 7) 0 br)

/-- Quadrant 2 of the compressed instructions. -/
def expand2 (w : Nat) : Option Nat :=
  let rd := bitsOf w 11 7
  let rs := bitsOf w 6 2
  match w / 2 ^ 13 with
  | 0 => some (rvI 0x13 1 rd rd (cbits w 12 12 5 + rs))
  | 2 => if rd = 0 then none else some (rvI 0x03 2 rd 2 (cbits w 12 12 5 + cbits w 6 4 2 + cbits w 3 2 6))
  | 3 => if rd = 0 then none else some (rvI 0x03 3 rd 2 (cbits w 12 12 5 + cbits w 6 5 3 + cbits w 4 2 6))
  | 4 =>
    if bitsOf w 12 12 = 0 then
      if rs ≠ 0 then some (rvR 0x33 0 0 rd 0 rs)
      else if rd = 0 then none else some (rvI 0x67 0 0 rd 0)
    else if rs ≠ 0 then some (rvR 0x33 0 0 rd rd rs)
    else if rd = 0 then some 0x100073 else some (rvI 0x67 0 1 rd 0)
  | 6 => some (rvS 0x23 2 2 rs (cbits w 12 9 2 + cbits w 8 7 6))
  | 7 => some (rvS 0x23 3 2 rs (cbits w 12 10 3 + cbits w 9 7 6))
  | _ => none

/-- The 32-bit word that a compressed word stands for; none where it is reserved or of an extension that is not
implemented. -/
def expandC (w : Nat) : Option Nat :=
  match w % 4 with
  | 0 => expand0 w
  | 1 => expand1 w
  | 2 => expand2 w
  | _ => none

/-! ## Arithmetic (RV64I, M, Zba, Zbb) -/

/-- Leading zeros of an n-bit value. -/
def countLead (n v : Nat) : Nat := if v = 0 then n else n - 1 - Nat.log2 v
/-- Trailing zeros of an n-bit value. -/
def countTrail (n v : Nat) : Nat := ((List.range n).find? fun i => v / 2 ^ i % 2 == 1).getD n
/-- Ones of an n-bit value. -/
def countOnes (n v : Nat) : Nat := ((List.range n).filter fun i => v / 2 ^ i % 2 == 1).length

/-- A value of the low n bits, sign-extended. -/
def sextN (n v : Nat) : Word := BitVec.ofInt 64 (signedOf n (v % 2 ^ n))

/-- Division and remainder of the M extension on n-bit operands (f3 of the instruction, 4 to 7). -/
def divRem (n f3 a b : Nat) : Nat :=
  let sa := signedOf n a
  let sb := signedOf n b
  match f3 with
  | 4 => if b = 0 then 2 ^ n - 1 else wrapTo n (sa.tdiv sb)
  | 5 => if b = 0 then 2 ^ n - 1 else a / b
  | 6 => if b = 0 then a else wrapTo n (sa.tmod sb)
  | _ => if b = 0 then a else a % b

/-- OP: register-register operations on 64 bits; none where funct7 and funct3 name none. -/
def rvOp (f7 f3 : Nat) (a b : Word) : Option Word :=
  let sh := b.toNat % 64
  match f7, f3 with
  | 0, 0 => some (a + b)
  | 0, 1 => some (a <<< sh)
  | 0, 2 => some (if a.slt b then 1 else 0)
  | 0, 3 => some (if a.ult b then 1 else 0)
  | 0, 4 => some (a ^^^ b)
  | 0, 5 => some (a >>> sh)
  | 0, 6 => some (a ||| b)
  | 0, 7 => some (a &&& b)
  | 0x20, 0 => some (a - b)
  | 0x20, 4 => some (~~~(a ^^^ b))
  | 0x20, 5 => some (a.sshiftRight sh)
  | 0x20, 6 => some (a ||| ~~~b)
  | 0x20, 7 => some (a &&& ~~~b)
  | 1, 0 => some (a * b)
  | 1, 1 => some (BitVec.ofInt 64 (a.toInt * b.toInt / 2 ^ 64))
  | 1, 2 => some (BitVec.ofInt 64 (a.toInt * b.toNat / 2 ^ 64))
  | 1, 3 => some (BitVec.ofNat 64 (a.toNat * b.toNat / 2 ^ 64))
  | 1, f3 => some (BitVec.ofNat 64 (divRem 64 f3 a.toNat b.toNat))
  | 0x10, 2 => some ((a <<< 1) + b)
  | 0x10, 4 => some ((a <<< 2) + b)
  | 0x10, 6 => some ((a <<< 3) + b)
  | 5, 4 => some (if a.slt b then a else b)
  | 5, 5 => some (if a.ult b then a else b)
  | 5, 6 => some (if a.slt b then b else a)
  | 5, 7 => some (if a.ult b then b else a)
  | 0x30, 1 => some (a.rotateLeft sh)
  | 0x30, 5 => some (a.rotateRight sh)
  | _, _ => none

/-- OP-32: operations on the low 32 bits; `.uw` forms zero-extend the first operand. -/
def rvOp32 (f7 f3 rs2 : Nat) (a b : Word) : Option Word :=
  let x := a.extractLsb' 0 32
  let y := b.extractLsb' 0 32
  let u := x.setWidth 64
  let sh := b.toNat % 32
  match f7, f3 with
  | 0, 0 => some ((x + y).signExtend 64)
  | 0x20, 0 => some ((x - y).signExtend 64)
  | 0, 1 => some ((x <<< sh).signExtend 64)
  | 0, 5 => some ((x >>> sh).signExtend 64)
  | 0x20, 5 => some ((x.sshiftRight sh).signExtend 64)
  | 1, 0 => some ((x * y).signExtend 64)
  | 1, 4 => some (sextN 32 (divRem 32 4 x.toNat y.toNat))
  | 1, 5 => some (sextN 32 (divRem 32 5 x.toNat y.toNat))
  | 1, 6 => some (sextN 32 (divRem 32 6 x.toNat y.toNat))
  | 1, 7 => some (sextN 32 (divRem 32 7 x.toNat y.toNat))
  | 4, 0 => some (u + b)
  | 4, 4 => if rs2 = 0 then some (BitVec.ofNat 64 (a.toNat % 65536)) else none
  | 0x10, 2 => some ((u <<< 1) + b)
  | 0x10, 4 => some ((u <<< 2) + b)
  | 0x10, 6 => some ((u <<< 3) + b)
  | 0x30, 1 => some ((x.rotateLeft sh).signExtend 64)
  | 0x30, 5 => some ((x.rotateRight sh).signExtend 64)
  | _, _ => none

/-- The unary operations of Zbb that share funct3 1 with the left shift, by immediate. -/
def rvUnary (imm : Nat) (a : Word) : Option Word :=
  match imm with
  | 0x600 => some (BitVec.ofNat 64 (countLead 64 a.toNat))
  | 0x601 => some (BitVec.ofNat 64 (countTrail 64 a.toNat))
  | 0x602 => some (BitVec.ofNat 64 (countOnes 64 a.toNat))
  | 0x604 => some (sextN 8 a.toNat)
  | 0x605 => some (sextN 16 a.toNat)
  | _ => if imm / 64 = 0 then some (a <<< imm) else none

/-- The right shifts of OP-IMM, with `rori`, `orc.b` and `rev8`, by immediate. -/
def rvRight (imm : Nat) (a : Word) : Option Word :=
  let sh := imm % 64
  if imm / 64 = 0 then some (a >>> sh)
  else if imm / 64 = 0x10 then some (a.sshiftRight sh)
  else if imm / 64 = 0x18 then some (a.rotateRight sh)
  else if imm = 0x287 then some (BitVec.ofNat 64 (leNat ((leBytes 8 a.toNat).map fun x => if x = 0 then 0 else 0xFF)))
  else if imm = 0x6B8 then some (BitVec.ofNat 64 (leNat (leBytes 8 a.toNat).reverse))
  else none

/-- OP-IMM. -/
def rvOpImm (f3 imm : Nat) (a : Word) : Option Word :=
  match f3 with
  | 1 => rvUnary imm a
  | 5 => rvRight imm a
  | f3 => rvOp 0 f3 a (sextN 12 imm)

/-- OP-IMM-32. -/
def rvOpImm32 (f3 imm : Nat) (a : Word) : Option Word :=
  let x := a.extractLsb' 0 32
  let sh := imm % 32
  match f3 with
  | 0 => rvOp32 0 0 0 a (sextN 12 imm)
  | 1 =>
    if imm / 32 = 0 then some ((x <<< sh).signExtend 64)
    else if imm / 64 = 2 then some (x.setWidth 64 <<< (imm % 64))
    else match imm with
      | 0x600 => some (BitVec.ofNat 64 (countLead 32 x.toNat))
      | 0x601 => some (BitVec.ofNat 64 (countTrail 32 x.toNat))
      | 0x602 => some (BitVec.ofNat 64 (countOnes 32 x.toNat))
      | _ => none
  | 5 =>
    match imm / 32 with
    | 0 => some ((x >>> sh).signExtend 64)
    | 0x20 => some ((x.sshiftRight sh).signExtend 64)
    | 0x30 => some ((x.rotateRight sh).signExtend 64)
    | _ => none
  | _ => none

/-! ## Fields -/

/-- Destination register. -/
def fRd (w : Nat) : Nat := bitsOf w 11 7
/-- funct3. -/
def fF3 (w : Nat) : Nat := bitsOf w 14 12
/-- First source register. -/
def fRs1 (w : Nat) : Nat := bitsOf w 19 15
/-- Second source register. -/
def fRs2 (w : Nat) : Nat := bitsOf w 24 20
/-- funct7. -/
def fF7 (w : Nat) : Nat := bitsOf w 31 25
/-- I-type immediate. -/
def immI (w : Nat) : Word := sextN 12 (w / 2 ^ 20)
/-- S-type immediate. -/
def immS (w : Nat) : Word := sextN 12 (bitsOf w 31 25 * 32 + bitsOf w 11 7)
/-- B-type immediate. -/
def immB (w : Nat) : Word := sextN 13 (bitsOf w 31 31 * 4096 + bitsOf w 7 7 * 2048 + bitsOf w 30 25 * 32 + bitsOf w 11 8 * 2)
/-- U-type immediate. -/
def immU (w : Nat) : Word := sextN 32 (w / 4096 * 4096)
/-- J-type immediate. -/
def immJ (w : Nat) : Word :=
  sextN 21 (bitsOf w 31 31 * 2 ^ 20 + bitsOf w 19 12 * 4096 + bitsOf w 20 20 * 2048 + bitsOf w 30 21 * 2)

/-! ## Effects -/

/-- A register written and the instruction retired. -/
def rvResult (s : State) (len rd : Nat) (v : Word) : State := retire (modCtl s s.ctl fun c => xSet c rd v) len

/-- A result, or the illegal-instruction exception. -/
def rvMaybe (s : State) (len bad rd : Nat) (v : Option Word) : State :=
  match v with
  | some v => rvResult s len rd v
  | none => raiseIllegal s bad

/-- The pc of the running control core sent to an address, the instruction retired. -/
def rvJump (s : State) (target : Word) : State := modCtl (retire s 0) s.ctl fun c => { c with pc := target }

/-- Is a branch taken; none where funct3 names none. -/
def branchTest (f3 : Nat) (a b : Word) : Option Bool :=
  match f3 with
  | 0 => some (a == b)
  | 1 => some (a != b)
  | 4 => some (a.slt b)
  | 5 => some (!a.slt b)
  | 6 => some (a.ult b)
  | 7 => some (!a.ult b)
  | _ => none

/-- A loaded value, by funct3. -/
def loadValue (f3 : Nat) (b : List Byte) : Word :=
  if f3 < 3 then sextN (8 * 2 ^ f3) (leNat b) else BitVec.ofNat 64 (leNat b)

/-- LOAD. -/
def rvLoad (s : State) (w len bad : Nat) : State :=
  let f3 := fF3 w
  if f3 = 7 then raiseIllegal s bad
  else match ctlLoad s (xGet (curCtl s) (fRs1 w) + immI w).toNat (2 ^ (f3 % 4)) with
    | .wait => ctlWait s
    | .trap c a s' => raise s' c (BitVec.ofNat 64 a)
    | .ok (b, _) s' => rvResult s' len (fRd w) (loadValue f3 b)

/-- STORE. -/
def rvStore (s : State) (w len bad : Nat) : State :=
  let f3 := fF3 w
  let c := curCtl s
  if 3 < f3 then raiseIllegal s bad
  else match ctlStoreAddr s (xGet c (fRs1 w) + immS w).toNat (2 ^ f3) with
    | .wait => ctlWait s
    | .trap e a s' => raise s' e (BitVec.ofNat 64 a)
    | .ok pa s' => retire (physWrite s' pa (leBytes (2 ^ f3) (xGet c (fRs2 w)).toNat)) len

/-- The new value of an AMO on n-bit operands, by funct5; none where it names none. -/
def amoValue (n f5 old x : Nat) : Option Nat :=
  let so := signedOf n old
  let sx := signedOf n x
  match f5 with
  | 0 => some ((old + x) % 2 ^ n)
  | 1 => some x
  | 4 => some (old ^^^ x)
  | 8 => some (old ||| x)
  | 0xC => some (old &&& x)
  | 0x10 => some (if so < sx then old else x)
  | 0x14 => some (if so < sx then x else old)
  | 0x18 => some (Nat.min old x)
  | 0x1C => some (Nat.max old x)
  | _ => none

/-- LR: the line is reserved (R273). -/
def rvLr (s : State) (w len n : Nat) : State :=
  match ctlLoad s (xGet (curCtl s) (fRs1 w)).toNat n with
  | .wait => ctlWait s
  | .trap c a s' => raise s' c (BitVec.ofNat 64 a)
  | .ok (b, pa) s' =>
    rvResult (modCtl s' s'.ctl fun c => { c with reservation := some (pa / 128) }) len (fRd w) (sextN (8 * n) (leNat b))

/-- The tag of an atomic of the running control core stored at its target, with its result (R339): the home's atomic
unit, or the I/O die's for CXL memory and in a write-protect window (R409). -/
def tagCtl (s : State) (pa : Nat) (result : Word) : State :=
  let c := curCtl s
  let src := ctlSource s s.ctl
  let s := setCtl s s.ctl { c with tagSeq := (c.tagSeq + 1) % 2 ^ 40 }
  match (if (windowOf s (pa / 65536)).isSome then none else homeVale pa) with
  | some v => modVale s v fun w => { w with cacheTags := storeTag w.cacheTags src (c.tagSeq, result) }
  | none => { s with io := { s.io with tags := storeTag s.io.tags src (c.tagSeq, result) } }

/-- SC: stores where the reservation stands, and ends it (R273). -/
def rvSc (s : State) (w len n : Nat) : State :=
  let c := curCtl s
  match ctlStoreAddr s (xGet c (fRs1 w)).toNat n with
  | .wait => ctlWait s
  | .trap e a s' => raise s' e (BitVec.ofNat 64 a)
  | .ok pa s' =>
    if updateWaits s' pa n then ctlWait s
    else
      let held := (curCtl s').reservation == some (pa / 128)
      let s' := if held then physWrite s' pa (leBytes n (xGet c (fRs2 w)).toNat) else s'
      rvResult (modCtl (tagCtl s' pa (if held then 0 else 1)) s'.ctl fun c => { c with reservation := none }) len (fRd w)
        (if held then 0 else 1)

/-- AMO: a read-modify-write at the home of the line (R273). -/
def rvAmo (s : State) (w len bad n : Nat) : State :=
  let c := curCtl s
  let x := (xGet c (fRs2 w)).toNat % 2 ^ (8 * n)
  if (amoValue (8 * n) (w / 2 ^ 27) 0 0).isNone then raiseIllegal s bad
  else
    let va := (xGet c (fRs1 w)).toNat
    match ctlStoreAddr s va n with
    | .wait => ctlWait s
    | .trap e a s' => raise s' e (BitVec.ofNat 64 a)
    | .ok pa s' =>
      if updateWaits s' pa n then ctlWait s
      else
        let s' := touch s' pa n
        if physPoisoned s' pa n then raise (ctlPoison s' va) (accessFault .store) (BitVec.ofNat 64 va)
        else
          let old := leNat (physRead s' pa n)
          let new := (amoValue (8 * n) (w / 2 ^ 27) old x).getD old
          rvResult (tagCtl (physWrite s' pa (leBytes n new)) pa (BitVec.ofNat 64 old)) len (fRd w) (sextN (8 * n) old)

/-- The A extension. -/
def rvAtomic (s : State) (w len bad : Nat) : State :=
  let f3 := fF3 w
  let n := 2 ^ f3
  if f3 ≠ 2 ∧ f3 ≠ 3 then raiseIllegal s bad
  else match w / 2 ^ 27 with
    | 2 => if fRs2 w = 0 then rvLr s w len n else raiseIllegal s bad
    | 3 => rvSc s w len n
    | _ => rvAmo s w len bad n

/-- A CSR instruction (Zicsr). -/
def rvCsr (s : State) (w len bad : Nat) : State :=
  let c := curCtl s
  let f3 := fF3 w
  let n := w / 2 ^ 20
  let src := if f3 < 4 then xGet c (fRs1 w) else BitVec.ofNat 64 (fRs1 w)
  let writes := f3 % 4 = 1 ∨ fRs1 w ≠ 0
  let reads := ¬ (f3 % 4 = 1 ∧ fRd w = 0)
  if !csrAllowed c n ∨ (writes ∧ n / 2 ^ 10 = 3) then raiseIllegal s bad
  else match csrRead s n with
    | none => raiseIllegal s bad
    | some (old, s') =>
      let s' := if reads then s' else s
      let new := match f3 % 4 with
        | 1 => src
        | 2 => old ||| src
        | _ => old &&& ~~~src
      let done := fun (s : State) =>
        let idle := (curCtl s).status == .idle
        modCtl (rvResult s len (fRd w) old) s.ctl fun c => if idle then { c with status := .idle } else c
      if ¬ writes then done s'
      else match csrWrite s' n new with
        | .ok s => done s
        | .wait => ctlWait s
        | .illegal => raiseIllegal s bad
        | .trap e a s => raise s e (BitVec.ofNat 64 a)

/-- `ecall` from S mode reaches the firmware, which serves the timer call of the supervisor binary interface and
refuses the others (R272; log entry 30). -/
def firmwareCall (s : State) (len : Nat) : State :=
  let c := curCtl s
  let answer := fun (c : Ctl) (e : Word) => xSet (xSet c 10 e) 11 0
  if xGet c 17 = 0x54494D45#64 ∧ xGet c 16 = 0 then
    retire (setCtl s s.ctl (answer { csrSet c 0x344 (withBit (csrGet c 0x344) 5 false) with timer := some (xGet c 10) } 0)) len
  else retire (setCtl s s.ctl (answer c (BitVec.ofInt 64 (-2)))) len

/-- `ecall`. -/
def rvEcall (s : State) (len : Nat) : State :=
  match (curCtl s).priv with
  | .u => raise s 8 0
  | .s => if (csrGet (curCtl s) 0x302).getLsbD 9 then raise s 9 0 else firmwareCall s len
  | .m => raise s 11 0

/-- `sfence.vma`: the running control core's monitors on the translations it removes fire (R103, R289). -/
def rvSfence (s : State) (w len : Nat) : State :=
  let va := (xGet (curCtl s) (fRs1 w)).toNat
  let asid := (xGet (curCtl s) (fRs2 w)).toNat % 2 ^ 16
  let removes := fun (l : CtlLeaf) (a : Nat) =>
    (fRs1 w == 0 || a / 2 ^ l.bits == va / 2 ^ l.bits) && (fRs2 w == 0 || (!l.global && l.asid == asid))
  retire (modCtl s s.ctl fun c => { c with monitors := c.monitors.map fun m => match c.monLeaf.find? m.1 with
    | some l => (m.1, fireVa (removes l) m.2)
    | none => m }) len

/-- SYSTEM instructions without a CSR. -/
def rvSystem (s : State) (w len bad : Nat) : State :=
  let c := curCtl s
  let st := csrGet c 0x300
  let below := c.priv == .s
  if w = 0x73 then rvEcall s len
  else if w = 0x100073 then raise s 3 c.pc
  else if w = 0x10200073 then
    if c.priv = .u ∨ (below ∧ st.getLsbD 22) then raiseIllegal s bad else modCtl (retire s 0) s.ctl returnS
  else if w = 0x30200073 then
    if c.priv ≠ .m then raiseIllegal s bad else modCtl (retire s 0) s.ctl returnM
  else if w = 0x10500073 then
    if c.priv ≠ .m ∧ st.getLsbD 21 then raiseIllegal s bad else retire s len
  else if fF7 w = 9 ∧ fF3 w = 0 ∧ fRd w = 0 then
    if c.priv = .u ∨ (below ∧ st.getLsbD 20) then raiseIllegal s bad else rvSfence s w len
  else raiseIllegal s bad

/-- A 32-bit instruction of `len` bytes in memory; `bad` is the value of its illegal-instruction exception. -/
def rvExec (s : State) (w len bad : Nat) : State :=
  let c := curCtl s
  let a := xGet c (fRs1 w)
  let b := xGet c (fRs2 w)
  let rd := fRd w
  match w % 128 with
  | 0x37 => rvResult s len rd (immU w)
  | 0x17 => rvResult s len rd (c.pc + immU w)
  | 0x6F => rvJump (modCtl s s.ctl fun x => xSet x rd (c.pc + BitVec.ofNat 64 len)) (c.pc + immJ w)
  | 0x67 =>
    if fF3 w ≠ 0 then raiseIllegal s bad
    else rvJump (modCtl s s.ctl fun x => xSet x rd (c.pc + BitVec.ofNat 64 len)) ((a + immI w) &&& ~~~1#64)
  | 0x63 => match branchTest (fF3 w) a b with
    | some true => rvJump s (c.pc + immB w)
    | some false => retire s len
    | none => raiseIllegal s bad
  | 0x03 => rvLoad s w len bad
  | 0x23 => rvStore s w len bad
  | 0x13 => rvMaybe s len bad rd (rvOpImm (fF3 w) (w / 2 ^ 20) a)
  | 0x1B => rvMaybe s len bad rd (rvOpImm32 (fF3 w) (w / 2 ^ 20) a)
  | 0x33 => rvMaybe s len bad rd (rvOp (fF7 w) (fF3 w) a b)
  | 0x3B => rvMaybe s len bad rd (rvOp32 (fF7 w) (fF3 w) (fRs2 w) a b)
  | 0x2F => rvAtomic s w len bad
  | 0x0F =>
    if 1 < fF3 w then raiseIllegal s bad
    else if parkedWrites s (vfOfCtl s s.ctl) then ctlWait s
    else retire s len
  | 0x73 => if fF3 w % 4 = 0 then (if fF3 w = 0 then rvSystem s w len bad else raiseIllegal s bad) else rvCsr s w len bad
  | _ => raiseIllegal s bad

/-- RISCV_INSTRUCTION: one instruction of the base set, compressed or not. -/
def execRiscvInstruction (w : BitVec 32) (s : State) : Host.Outcome State Fault Refusal :=
  let s := bump s
  let n := w.toNat
  if n % 4 = 3 then .next (rvExec s n 4 n)
  else match expandC (n % 65536) with
    | some x => .next (rvExec s x 2 (n % 65536))
    | none => .next (raiseIllegal s (n % 65536))

end Sys2Proof.Machine
end

