-- ==== Sys2Proof/Machine/Dispatch.lean ====
section
/-! DEFINITION. The dispatch of every instruction and event to its meaning, one arm per constructor. -/

namespace Sys2Proof.Machine

open Sys2Proof

def exec (i : Instr) (s : State) : Host.Outcome State Fault Refusal :=
  match i with
  | .lnchv vf w => Sys2Proof.Machine.execLnchv vf w s
  | .lndone w => Sys2Proof.Machine.execLndone w s
  | .vfimg vf w => Sys2Proof.Machine.execVfimg vf w s
  | .mbin vf w => Sys2Proof.Machine.execMbin vf w s
  | .mbrcv rd => Sys2Proof.Machine.execMbrcv rd s
  | .mbsnd w => Sys2Proof.Machine.execMbsnd w s
  | .mbostPop vf => Sys2Proof.Machine.execMbostPop vf s
  | .pfmbstSend => Sys2Proof.Machine.execPfmbstSend s
  | .pfmbstPop => Sys2Proof.Machine.execPfmbstPop s
  | .identityCertificateChain => Sys2Proof.Machine.execIdentityCertificateChain s
  | .attestationRequest src => Sys2Proof.Machine.execAttestationRequest src s
  | .saveAreaImport chainOk signatureOk => Sys2Proof.Machine.execSaveAreaImport chainOk signatureOk s
  | .pfMemoryWrite pa data poison => Sys2Proof.Machine.execPfMemoryWrite pa data poison s
  | .pfMemoryRead pa len => Sys2Proof.Machine.execPfMemoryRead pa len s
  | .vfMemoryWrite vf va data => Sys2Proof.Machine.execVfMemoryWrite vf va data s
  | .vfMemoryRead vf va len => Sys2Proof.Machine.execVfMemoryRead vf va len s
  | .registerWrite vf offset w => Sys2Proof.Machine.execRegisterWrite vf offset w s
  | .ptpMessage port sample => Sys2Proof.Machine.execPtpMessage port sample s
  | .ndetuPortDown port => Sys2Proof.Machine.execNdetuPortDown port s
  | .moduleReset => Sys2Proof.Machine.execModuleReset s
  | .powerOnReset failure cxlGiB => Sys2Proof.Machine.execPowerOnReset failure cxlGiB s
  | .powerStateRequest ps => Sys2Proof.Machine.execPowerStateRequest ps s
  | .thermalLimit vale n => Sys2Proof.Machine.execThermalLimit vale n s
  | .thermalShutdown => Sys2Proof.Machine.execThermalShutdown s
  | .supplyRemoved inOrder => Sys2Proof.Machine.execSupplyRemoved inOrder s
  | .debugStop => Sys2Proof.Machine.execDebugStop s
  | .debugGo => Sys2Proof.Machine.execDebugGo s
  | .debugStep => Sys2Proof.Machine.execDebugStep s
  | .debugCstep => Sys2Proof.Machine.execDebugCstep s
  | .placeTableWrite vale vf idx w => Sys2Proof.Machine.execPlaceTableWrite vale vf idx w s
  | .bindEntryWrite slice entry w0 w1 => Sys2Proof.Machine.execBindEntryWrite slice entry w0 w1 s
  | .vfjqWrite vf w => Sys2Proof.Machine.execVfjqWrite vf w s
  | .tmctlGo vf w => Sys2Proof.Machine.execTmctlGo vf w s
  | .vfdctlSnap vf => Sys2Proof.Machine.execVfdctlSnap vf s
  | .vfdctlSettle vf => Sys2Proof.Machine.execVfdctlSettle vf s
  | .trctlClr => Sys2Proof.Machine.execTrctlClr s
  | .quantumEnd group => Sys2Proof.Machine.execQuantumEnd group s
  | .newcomer group entry => Sys2Proof.Machine.execNewcomer group entry s
  | .stepLimitExpiry group => Sys2Proof.Machine.execStepLimitExpiry group s
  | .contextSave vf vale => Sys2Proof.Machine.execContextSave vf vale s
  | .contextBind group => Sys2Proof.Machine.execContextBind group s
  | .contextRestore vf vale => Sys2Proof.Machine.execContextRestore vf vale s
  | .preload group => Sys2Proof.Machine.execPreload group s
  | .clockSwallowUpdate vale n => Sys2Proof.Machine.execClockSwallowUpdate vale n s
  | .meterCalibration rail factor => Sys2Proof.Machine.execMeterCalibration rail factor s
  | .energySettlement refresh input => Sys2Proof.Machine.execEnergySettlement refresh input s
  | .quotaPeriodStart vf => Sys2Proof.Machine.execQuotaPeriodStart vf s
  | .quotaExhaustion vf => Sys2Proof.Machine.execQuotaExhaustion vf s
  | .dirtySwitchComplete vf => Sys2Proof.Machine.execDirtySwitchComplete vf s
  | .settleComplete vf => Sys2Proof.Machine.execSettleComplete vf s
  | .writeProtectWindowCopied vf => Sys2Proof.Machine.execWriteProtectWindowCopied vf s
  | .backgroundPull vf => Sys2Proof.Machine.execBackgroundPull vf s
  | .bundleIssue core => Sys2Proof.Machine.execBundleIssue core s
  | .bundleFetch core => Sys2Proof.Machine.execBundleFetch core s
  | .resultLanding core idx => Sys2Proof.Machine.execResultLanding core idx s
  | .stashFill core entry => Sys2Proof.Machine.execStashFill core entry s
  | .valeTlbLookup core idx => Sys2Proof.Machine.execValeTlbLookup core idx s
  | .pageWalkComplete vale walker retryExhausted => Sys2Proof.Machine.execPageWalkComplete vale walker retryExhausted s
  | .atomicApply core entry => Sys2Proof.Machine.execAtomicApply core entry s
  | .ownershipGrant core entry => Sys2Proof.Machine.execOwnershipGrant core entry s
  | .atomicResponse core entry => Sys2Proof.Machine.execAtomicResponse core entry s
  | .barrierArrival core entry => Sys2Proof.Machine.execBarrierArrival core entry s
  | .phaseBoundaryComplete vale gang granules => Sys2Proof.Machine.execPhaseBoundaryComplete vale gang granules s
  | .copyComplete core entry part => Sys2Proof.Machine.execCopyComplete core entry part s
  | .ringWaitResume core entry => Sys2Proof.Machine.execRingWaitResume core entry s
  | .matrixCommandStart core => Sys2Proof.Machine.execMatrixCommandStart core s
  | .matrixCommandFinish core idx => Sys2Proof.Machine.execMatrixCommandFinish core idx s
  | .coreSleepWake core => Sys2Proof.Machine.execCoreSleepWake core s
  | .xSleepWake ctl => Sys2Proof.Machine.execXSleepWake ctl s
  | .xMwaitTimeout ctl => Sys2Proof.Machine.execXMwaitTimeout ctl s
  | .fatalLaunchEnd vf => Sys2Proof.Machine.execFatalLaunchEnd vf s
  | .moduleFailure unit detail => Sys2Proof.Machine.execModuleFailure unit detail s
  | .patrolScrub site correctable => Sys2Proof.Machine.execPatrolScrub site correctable s
  | .linkRetryExhausted link => Sys2Proof.Machine.execLinkRetryExhausted link s
  | .linkRetrain link => Sys2Proof.Machine.execLinkRetrain link s
  | .valeMeshLinkFail link unreachable => Sys2Proof.Machine.execValeMeshLinkFail link unreachable s
  | .scoreboardClear ctl => Sys2Proof.Machine.execScoreboardClear ctl s
  | .gangDispatch vale gang => Sys2Proof.Machine.execGangDispatch vale gang s
  | .sequencerPrefetch core => Sys2Proof.Machine.execSequencerPrefetch core s
  | .sequencerReady core => Sys2Proof.Machine.execSequencerReady core s
  | .sequencerBoundary core => Sys2Proof.Machine.execSequencerBoundary core s
  | .macroComplete ctl entry => Sys2Proof.Machine.execMacroComplete ctl entry s
  | .macroStopped ctl entry => Sys2Proof.Machine.execMacroStopped ctl entry s
  | .macroKilled ctl entry => Sys2Proof.Machine.execMacroKilled ctl entry s
  | .colAdmission vale => Sys2Proof.Machine.execColAdmission vale s
  | .colDelivery vale => Sys2Proof.Machine.execColDelivery vale s
  | .basinMerge vale idx => Sys2Proof.Machine.execBasinMerge vale idx s
  | .catchUpSweep vale => Sys2Proof.Machine.execCatchUpSweep vale s
  | .sweepEntry vale => Sys2Proof.Machine.execSweepEntry vale s
  | .collectiveRegistration ctl entry rank key opNumber => Sys2Proof.Machine.execCollectiveRegistration ctl entry rank key opNumber s
  | .chunkDelivery ctl entry rank chunk tag data => Sys2Proof.Machine.execChunkDelivery ctl entry rank chunk tag data s
  | .chunkAck ctl entry rank => Sys2Proof.Machine.execChunkAck ctl entry rank s
  | .collectiveComplete ctl entry => Sys2Proof.Machine.execCollectiveComplete ctl entry s
  | .dtlbiDropVa w => Sys2Proof.Machine.execDtlbiDropVa w s
  | .dtlbiDropAll w => Sys2Proof.Machine.execDtlbiDropAll w s
  | .tqbase w => Sys2Proof.Machine.execTqbase w s
  | .mrte w => Sys2Proof.Machine.execMrte w s
  | .add f => Sys2Proof.Machine.execAdd f s
  | .sub f => Sys2Proof.Machine.execSub f s
  | .sAnd f => Sys2Proof.Machine.execSAnd f s
  | .sOr f => Sys2Proof.Machine.execSOr f s
  | .xor f => Sys2Proof.Machine.execXor f s
  | .shl f => Sys2Proof.Machine.execShl f s
  | .shr f => Sys2Proof.Machine.execShr f s
  | .sra f => Sys2Proof.Machine.execSra f s
  | .mul f => Sys2Proof.Machine.execMul f s
  | .mulh f => Sys2Proof.Machine.execMulh f s
  | .mulhu f => Sys2Proof.Machine.execMulhu f s
  | .min f => Sys2Proof.Machine.execMin f s
  | .max f => Sys2Proof.Machine.execMax f s
  | .minu f => Sys2Proof.Machine.execMinu f s
  | .maxu f => Sys2Proof.Machine.execMaxu f s
  | .clz f => Sys2Proof.Machine.execClz f s
  | .popc f => Sys2Proof.Machine.execPopc f s
  | .sel f => Sys2Proof.Machine.execSel f s
  | .addi f => Sys2Proof.Machine.execAddi f s
  | .andi f => Sys2Proof.Machine.execAndi f s
  | .ori f => Sys2Proof.Machine.execOri f s
  | .xori f => Sys2Proof.Machine.execXori f s
  | .shli f => Sys2Proof.Machine.execShli f s
  | .shri f => Sys2Proof.Machine.execShri f s
  | .srai f => Sys2Proof.Machine.execSrai f s
  | .li f => Sys2Proof.Machine.execLi f s
  | .lih f => Sys2Proof.Machine.execLih f s
  | .cmp f => Sys2Proof.Machine.execCmp f s
  | .cmpi f => Sys2Proof.Machine.execCmpi f s
  | .plog f => Sys2Proof.Machine.execPlog f s
  | .ld f => Sys2Proof.Machine.execLd f s
  | .st f => Sys2Proof.Machine.execSt f s
  | .lds f => Sys2Proof.Machine.execLds f s
  | .sts f => Sys2Proof.Machine.execSts f s
  | .ldg f => Sys2Proof.Machine.execLdg f s
  | .stg f => Sys2Proof.Machine.execStg f s
  | .probe f => Sys2Proof.Machine.execProbe f s
  | .sqld f => Sys2Proof.Machine.execSqld f s
  | .amo f => Sys2Proof.Machine.execAmo f s
  | .cas f => Sys2Proof.Machine.execCas f s
  | .pbr off ext b => Sys2Proof.Machine.execPbr off ext b s
  | .pbrr sa b => Sys2Proof.Machine.execPbrr sa b s
  | .br pg pn b => Sys2Proof.Machine.execBr pg pn b s
  | .brl sd pg pn b => Sys2Proof.Machine.execBrl sd pg pn b s
  | .loop off sa l => Sys2Proof.Machine.execLoop off sa l s
  | .halt => Sys2Proof.Machine.execHalt s
  | .gjoin g => Sys2Proof.Machine.execGjoin g s
  | .gleave g => Sys2Proof.Machine.execGleave g s
  | .gbar g => Sys2Proof.Machine.execGbar g s
  | .garr g => Sys2Proof.Machine.execGarr g s
  | .gwait g => Sys2Proof.Machine.execGwait g s
  | .phase g => Sys2Proof.Machine.execPhase g s
  | .sync mask => Sys2Proof.Machine.execSync mask s
  | .waita sd sa => Sys2Proof.Machine.execWaita sd sa s
  | .sleep sa => Sys2Proof.Machine.execSleep sa s
  | .rdns sd => Sys2Proof.Machine.execRdns sd s
  | .rdnj sd => Sys2Proof.Machine.execRdnj sd s
  | .csrr sd csr => Sys2Proof.Machine.execCsrr sd csr s
  | .csrw csr sa => Sys2Proof.Machine.execCsrw csr sa s
  | .trap code => Sys2Proof.Machine.execTrap code s
  | .brk code => Sys2Proof.Machine.execBrk code s
  | .vadd f => Sys2Proof.Machine.execVadd f s
  | .vsub f => Sys2Proof.Machine.execVsub f s
  | .vmul f => Sys2Proof.Machine.execVmul f s
  | .vfma f => Sys2Proof.Machine.execVfma f s
  | .vfms f => Sys2Proof.Machine.execVfms f s
  | .vmin f => Sys2Proof.Machine.execVmin f s
  | .vmax f => Sys2Proof.Machine.execVmax f s
  | .vabs f => Sys2Proof.Machine.execVabs f s
  | .vneg f => Sys2Proof.Machine.execVneg f s
  | .vand f => Sys2Proof.Machine.execVand f s
  | .vor f => Sys2Proof.Machine.execVor f s
  | .vxor f => Sys2Proof.Machine.execVxor f s
  | .vshl f => Sys2Proof.Machine.execVshl f s
  | .vshr f => Sys2Proof.Machine.execVshr f s
  | .vsra f => Sys2Proof.Machine.execVsra f s
  | .vcmp f => Sys2Proof.Machine.execVcmp f s
  | .vcvt f => Sys2Proof.Machine.execVcvt f s
  | .vrq f => Sys2Proof.Machine.execVrq f s
  | .vexp2 f => Sys2Proof.Machine.execVexp2 f s
  | .vtanh f => Sys2Proof.Machine.execVtanh f s
  | .vlgst f => Sys2Proof.Machine.execVlgst f s
  | .vrcp f => Sys2Proof.Machine.execVrcp f s
  | .vrsqrt f => Sys2Proof.Machine.execVrsqrt f s
  | .vredsum f => Sys2Proof.Machine.execVredsum f s
  | .vredmax f => Sys2Proof.Machine.execVredmax f s
  | .vredmin f => Sys2Proof.Machine.execVredmin f s
  | .vstat f => Sys2Proof.Machine.execVstat f s
  | .vperm f => Sys2Proof.Machine.execVperm f s
  | .vbcast f => Sys2Proof.Machine.execVbcast f s
  | .vmov f => Sys2Proof.Machine.execVmov f s
  | .vsel f => Sys2Proof.Machine.execVsel f s
  | .vslide f => Sys2Proof.Machine.execVslide f s
  | .vld f => Sys2Proof.Machine.execVld f s
  | .vst f => Sys2Proof.Machine.execVst f s
  | .vgth f => Sys2Proof.Machine.execVgth f s
  | .vsct f => Sys2Proof.Machine.execVsct f s
  | .vamo f => Sys2Proof.Machine.execVamo f s
  | .vunp3 f => Sys2Proof.Machine.execVunp3 f s
  | .vtacc f => Sys2Proof.Machine.execVtacc f s
  | .vdp8 f => Sys2Proof.Machine.execVdp8 f s
  | .vpack f => Sys2Proof.Machine.execVpack f s
  | .vwide f => Sys2Proof.Machine.execVwide f s
  | .vxadd f => Sys2Proof.Machine.execVxadd f s
  | .vxcvt f => Sys2Proof.Machine.execVxcvt f s
  | .mcall f => Sys2Proof.Machine.execMcall f s
  | .mpset f => Sys2Proof.Machine.execMpset f s
  | .mzero f => Sys2Proof.Machine.execMzero f s
  | .mdrain f => Sys2Proof.Machine.execMdrain f s
  | .mmode f => Sys2Proof.Machine.execMmode f s
  | .mgsel f => Sys2Proof.Machine.execMgsel f s
  | .mwr f => Sys2Proof.Machine.execMwr f s
  | .mwait f => Sys2Proof.Machine.execMwait f s
  | .mrsum f => Sys2Proof.Machine.execMrsum f s
  | .cp f => Sys2Proof.Machine.execCp f s
  | .cpm f => Sys2Proof.Machine.execCpm f s
  | .cpg f => Sys2Proof.Machine.execCpg f s
  | .cps f => Sys2Proof.Machine.execCps f s
  | .cpa f => Sys2Proof.Machine.execCpa f s
  | .cdld f => Sys2Proof.Machine.execCdld f s
  | .cpw f => Sys2Proof.Machine.execCpw f s
  | .rgcfg f => Sys2Proof.Machine.execRgcfg f s
  | .rgpost f => Sys2Proof.Machine.execRgpost f s
  | .rgfree f => Sys2Proof.Machine.execRgfree f s
  | .sbind f => Sys2Proof.Machine.execSbind f s
  | .sfree f => Sys2Proof.Machine.execSfree f s
  | .sqfill f => Sys2Proof.Machine.execSqfill f s
  | .mGemm f => Sys2Proof.Machine.execMGemm f s
  | .mGemmR f => Sys2Proof.Machine.execMGemmR f s
  | .mConv f => Sys2Proof.Machine.execMConv f s
  | .mConvR f => Sys2Proof.Machine.execMConvR f s
  | .mAttn f => Sys2Proof.Machine.execMAttn f s
  | .mAttnR f => Sys2Proof.Machine.execMAttnR f s
  | .mSort f => Sys2Proof.Machine.execMSort f s
  | .mSortR f => Sys2Proof.Machine.execMSortR f s
  | .mGath f => Sys2Proof.Machine.execMGath f s
  | .mGathR f => Sys2Proof.Machine.execMGathR f s
  | .mScat f => Sys2Proof.Machine.execMScat f s
  | .mScatR f => Sys2Proof.Machine.execMScatR f s
  | .mNorm f => Sys2Proof.Machine.execMNorm f s
  | .mNormR f => Sys2Proof.Machine.execMNormR f s
  | .mKern f => Sys2Proof.Machine.execMKern f s
  | .mKernR f => Sys2Proof.Machine.execMKernR f s
  | .mRcpy f => Sys2Proof.Machine.execMRcpy f s
  | .mRcpyR f => Sys2Proof.Machine.execMRcpyR f s
  | .mRinit f => Sys2Proof.Machine.execMRinit f s
  | .mRinitR f => Sys2Proof.Machine.execMRinitR f s
  | .mWait rd rs1 => Sys2Proof.Machine.execMWait rd rs1 s
  | .mStat f => Sys2Proof.Machine.execMStat f s
  | .mResume rd rs1 => Sys2Proof.Machine.execMResume rd rs1 s
  | .mKill rs1 => Sys2Proof.Machine.execMKill rs1 s
  | .mFence => Sys2Proof.Machine.execMFence s
  | .cAred f => Sys2Proof.Machine.execCAred f s
  | .cAredR f => Sys2Proof.Machine.execCAredR f s
  | .cAgat f => Sys2Proof.Machine.execCAgat f s
  | .cAgatR f => Sys2Proof.Machine.execCAgatR f s
  | .cRsct f => Sys2Proof.Machine.execCRsct f s
  | .cRsctR f => Sys2Proof.Machine.execCRsctR f s
  | .cA2a f => Sys2Proof.Machine.execCA2a f s
  | .cA2aR f => Sys2Proof.Machine.execCA2aR f s
  | .cBcst f => Sys2Proof.Machine.execCBcst f s
  | .cBcstR f => Sys2Proof.Machine.execCBcstR f s
  | .cSend f => Sys2Proof.Machine.execCSend f s
  | .cSendR f => Sys2Proof.Machine.execCSendR f s
  | .cRecv f => Sys2Proof.Machine.execCRecv f s
  | .cRecvR f => Sys2Proof.Machine.execCRecvR f s
  | .cBar f => Sys2Proof.Machine.execCBar f s
  | .cBarR f => Sys2Proof.Machine.execCBarR f s
  | .gForm rd rs1 => Sys2Proof.Machine.execGForm rd rs1 s
  | .gFree rs1 => Sys2Proof.Machine.execGFree rs1 s
  | .xSleep rs1 => Sys2Proof.Machine.execXSleep rs1 s
  | .xMon rd rs1 => Sys2Proof.Machine.execXMon rd rs1 s
  | .xMwait rd rs1 => Sys2Proof.Machine.execXMwait rd rs1 s
  | .tqPop rd => Sys2Proof.Machine.execTqPop rd s
  | .tqAck rs1 => Sys2Proof.Machine.execTqAck rs1 s
  | .riscvInstruction w => Sys2Proof.Machine.execRiscvInstruction w s
  | .supervisorTimerInterrupt ctl => Sys2Proof.Machine.execSupervisorTimerInterrupt ctl s
  | .ndetuPortUp port => Sys2Proof.Machine.execNdetuPortUp port s
  | .hypervisorSuspend vf => Sys2Proof.Machine.execHypervisorSuspend vf s
  | .contextDestroy vf => Sys2Proof.Machine.execContextDestroy vf s
  | .coreRetirement core => Sys2Proof.Machine.execCoreRetirement core s
  | .softError site correctable => Sys2Proof.Machine.execSoftError site correctable s

end Sys2Proof.Machine
end

