-- ==== Sys2Proof/Machine/Outside.lean ====
section
/-! DEFINITION. What comes from outside the module's own agents and has no row in the opcode table: the home directory's
choice to drop a record (R172, R289), a peer's withdrawal on another module (R281, R283), the firmware's write of a slot
header (R325) and its copying of a message (R357), the end of an image's check (R362), and a request whose retry budget is
exhausted (R373, R377). -/

namespace Sys2Proof.Machine

open Sys2Proof

/-- The home directory drops its record of a line: monitors armed on it fire with cause 1 (R172, R289). -/
def dropRecord (s : State) (line : Nat) : State := mapMonitors s (firePhys line 1)

/-- A peer on another module withdraws its window: it is absent until it registers again (R281, R283, R446). -/
def withdrawPeer (s : State) (k e r : Nat) : State :=
  match collOwner s k e with
  | none => s
  | some (vf, sl) =>
    let m := sliceEntry s vf sl e
    if !(collOf m.desc).others.contains r || rankHere s m.t3 r then s
    else modSliceEntry s vf sl e fun m => { m with
      coll := { m.coll with peers := m.coll.peers.modify {} r fun p => { p with absent := true } } }

/-- The header of a slice's slot written by the firmware: quantum and STEP limit (R325). -/
def writeHeader (s : State) (g : Nat) (w : Word) : State :=
  if g < 64 then setSlot s g { slotOf s g with q := w.extractLsb' 32 16, ts := w.extractLsb' 16 16 } else s

/-! ## Requests lost to a link (R373, R377, R401, R403, R409, R415, R444) -/

/-- What a lost request is found to be. -/
def lostFinding : Finding := { cause := 2 }

/-- The fill or the ownership request of a load entry lost: a pull of its line stays as it is (R409). -/
def loseLoad (s : State) (k e : Nat) : State :=
  match (coreOf s k).loads.find? e with
  | none => s
  | some x =>
    if x.faulted ∨ x.applied ∨ isFrozen s k then s
    else match reissue s k (ordLoad e) with
      | none => s
      | some s => loadFault s k e x lostFinding

/-- The next element of a remote-atomic entry lost before its target has it (R403). -/
def loseAtomic (s : State) (k e : Nat) : State :=
  match (coreOf s k).atomics.find? e with
  | none => s
  | some x =>
    if x.faulted ∨ isFrozen s k ∨ (elemLanes x).length ≤ x.sent ∨ ¬ replayTurn (coreOf s k) (ordAtomic e) then s
    else match elemAddr x x.sent with
      | .globalAddr va => atomicFault s k e x x.sent va lostFinding
      | .localAddr _ => atomicFault s k e x x.sent 0 lostFinding
      | .malformed => s

/-- The global side of a unit, and whether it is written. -/
def globalSide (m : Move) : Option (Nat × Nat) :=
  match m.src, m.dst with
  | .glob a, _ => some (a, 0)
  | _, .glob b => some (b, 1)
  | _, _ => none

/-- The units of a copy that are left, of one whose places stand. -/
def unitsToMove (s : State) (k : Nat) (x : CopyEntry) : List Move :=
  let d := copyDesc x.desc
  match x.tile, (coreOf s k).seq.exec with
  | some t, some disp =>
    match tilePlan s k disp t with
    | .moves l => (unitsLeft (placed 0 l) x).map (·.2)
    | _ => []
  | _, _ =>
    if (d.rmode = 1 ∨ d.rmode = 2) ∧ x.slot.isNone ∧ x.op ≠ 2 then []
    else if x.op = 2 then (if x.data.isSome then [] else targetMoves s k x k none)
    else if x.op = 13 then
      (unitOffsets s k x).map fun u => { src := sidePlace s k d.src u.1, dst := .pad 0, n := 1 }
    else (unitsLeft (placed 0 (slotMoves s k x)) x).map (·.2)

/-- The next access of a copy to global memory lost: what it has moved stays moved (R403). -/
def loseCopy (s : State) (k e : Nat) : State :=
  match (coreOf s k).copies.find? e with
  | none => s
  | some x =>
    if x.faulted ∨ isFrozen s k ∨ replayWaits s k (ordCopy e) ∨ behindCopy s k e x then s
    else match (unitsToMove s k x).findSome? globalSide with
      | none => s
      | some (va, access) => match reissue s k (ordCopy e) with
        | none => s
        | some s => copyFault s k e va access lostFinding

/-- The fetch of a core's next bundle lost. -/
def loseFetch (s : State) (k : Nat) : State :=
  let c := coreOf s k
  if c.status = .running ∧ (fetchedBundle c).isNone then fetchFault s k c.pc.toNat lostFinding else s

/-- A member's contribution lost on its way to the Basin: the member stops, and sends it again once it goes on (R444).
What addr and the access of info hold the manual does not say: free values (log entry 158). -/
def loseSend (s : State) (vale idx : Nat) : State :=
  match (valeOf s vale).pass with
  | none => s
  | some p =>
    match p.sends[idx]? with
    | none => s
    | some x =>
      if (coreOf s x.core).status = .stopped ∨ (coreOf s x.core).status = .frozen
        ∨ ¬ executes s x.core p.disp.ctl p.disp.entry = true then s
      else
        let s := modVale s vale fun v => { v with pass := some { p with sends := p.sends.set idx { x with lost := true } } }
        stopCore s x.core 2 0 (freeWord s 903).toNat (info399 lostFinding ((freeWord s 904).toNat % 256) 4 0xFF 0)

/-- The virtual function that a request belongs to. -/
def requestOwner (s : State) (x : LostRequest) : Option Nat :=
  match x with
  | .load k _ | .atomic k _ | .copy k _ | .fetch k => vfOfSlice s (sliceOfCore k)
  | .engine vale _ | .send vale _ => (valeOf s vale).pass.map (·.vf)

/-- A request whose retry budget is exhausted: cause 0x02 for its agent (R377). -/
def loseRequest (x : LostRequest) (s : State) : State :=
  match x with
  | .load k e => loseLoad s k e
  | .atomic k e => loseAtomic s k e
  | .copy k e => loseCopy s k e
  | .fetch k => loseFetch s k
  | .engine vale level => modVale s vale fun v => { v with lostRead := some level }
  | .send vale idx => loseSend s vale idx

/-- Something from outside comes about. -/
def outsideStep (x : Outside) (s : State) : State :=
  let s := bump s
  match x with
  | .recordDropped line => dropRecord s line
  | .peerWithdrawn k e r => withdrawPeer s k e r
  | .delivery k e r j tag n key data bad => headedDelivery s k e r j tag n key data bad
  | .slotHeader g w => writeHeader s g w
  | .messageCopied => copyMessage s
  | .imageChecked vf => endCheck s vf
  | .requestLost x => countError (loseRequest x s) (requestOwner s x) false
  | .flitRetried vf => countError s vf true

end Sys2Proof.Machine
end

