-- ==== Sys2Proof/Machine/Step.lean ====
section
/-! DEFINITION. One step of the module: the head of the agenda says what happens next and how many ns later;
with an empty agenda the selected control core runs its next instruction. -/

namespace Sys2Proof.Machine

open Sys2Proof

/-- The running control core takes an interrupt, or fetches, decodes and runs its next instruction. A control
core that is idle, frozen or stopped runs nothing (R61). DESIGN CHOICE (log entry 157): of the reorderings that RVWMO
allows (R117) a control core shows none; its loads and stores perform in program order. -/
def ctlStep (s : State) : Host.Outcome State Fault Refusal :=
  let c := curCtl s
  if c.status = .running ∨ c.status = .waiting then
    let c := if timerDue s c then csrSet c 0x344 (withBit (csrGet c 0x344) 5 true) else c
    match interruptNow c with
    | some i => .next (setCtl s s.ctl (takeInterrupt c i))
    | none =>
      match ctlFetch s with
      | .wait => .next s
      | .trap cause va s' => .next (raise s' cause (BitVec.ofNat 64 va))
      | .ok w s' => exec (decodeAtPc w).1 (ctlTick s')
  else .next s

/-- What the next turn is. -/
def nextTurn (s : State) : Nat × Turn :=
  match s.agenda with
  | [] => (0, .ctl s.ctl)
  | t :: _ => t

/-- The state in which the next turn happens: its time has passed, with the records of the clk before it landed, and it has
left the agenda. -/
def atTurn (s : State) : State :=
  let s' := if (nextTurn s).1 = 0 then s else landFresh s
  passTime { s' with agenda := s.agenda.tail } (nextTurn s).1

/-- One step of the module. Once the module has removed its own power (R367), only a power-on reset does
anything. -/
def step (s : State) : Host.Outcome State Fault Refusal :=
  match (nextTurn s).2 with
  | .ctl k => if s.io.boot = .off then .fault .poweredOff else ctlStep { atTurn s with ctl := k }
  | .event i =>
    match s.io.boot, i with
    | .off, .powerOnReset f g => exec (.powerOnReset f g) (atTurn s)
    | .off, _ => .fault .poweredOff
    | _, i => exec i (atTurn s)
  | .outside x => if s.io.boot = .off then .fault .poweredOff else .next (outsideStep x (atTurn s))

/-- A state whose next step runs the instruction of bits w: what the host's load and launch bring about for
control core 0 of virtual function 0 (log entry 33). -/
def State.withFetchWord (s : State) (nbits w : Nat) : State :=
  let pc := (ctlOf s 0).pc.toNat
  let pbn := BitVec.ofNat 32 (pc / 65536)
  let code := (leBytes 4 (w % 2 ^ nbits)).zipIdx
  let s := { s with
    mem := code.foldl (fun m e => m.write (pc + e.2) e.1) { s.mem with poison := [] }
    agenda := []
    ctl := 0
    io := { s.io with boot := .running } }
  let s := modVf s 0 fun v => { v with hbase := pbn, hlim := pbn, hset := true }
  let s := setSlot s 0 { slotOf s 0 with
    cur := 0, bound := true
    entries := (slotOf s 0).entries.put {} 0 { v := true, bk := 3, vf := 0, cid := 1, w := 1, gmax := 63 } }
  modCtl s 0 fun c =>
    { csrSet (csrSet c 0x344 0) 0x180 0 with status := .running, priv := .s, timer := none }

end Sys2Proof.Machine
end

