-- ==== Sys2Proof/Safety.lean ====
section
/-! DEFINITION. What counts as a safe run, and the terms in which the claims say what a step changes: the core,
the control core or the tables it may change, with everything else as it was. -/

namespace Sys2Proof.Machine

open Sys2Proof

/-- A step neither faults nor is refused. -/
def safeStep (s : State) : Prop := ∃ t, step s = .next t

/-- Every byte memory of the module is in canonical form: global memory, and the scratchpad and spill memory
of every core. -/
def State.memOk (s : State) : Bool :=
  s.mem.wf && s.cores.all fun e => e.2.spm.wf && e.2.spill.wf

/-! ## Slot operations -/

/-- The in-flight record holds the result of an interlocked atomic whose bundle has not issued (R140, R337). -/
def answered (c : Core) : Bool :=
  c.loads.any (fun e => e.2.kind == 2 && e.2.interlocked && e.2.applied)
    || c.atomics.any (fun e => e.2.kind != 2 && e.2.interlocked && e.2.first != 0)

/-- No store of an earlier operation of the bundle waits, no interlocked atomic of it has its result, and the core has not
overflowed its buffered stores (R106, R140, R182). -/
def quiet (s : State) : Bool := (curCore s).stores.isEmpty && !answered (curCore s) && !overflowed (curCore s)

/-- A slot operation passes the checks of R387 and R388 in the current core and no condition of R86 holds it
back: it executes normally. -/
def canIssue (i : Instr) (s : State) : Bool :=
  slotReason i == 0 && (descriptorStop (bump s) i).isNone && !stalls (bump s) [i]
    && (operandStop (bump s) i [] []).isNone && quiet s

/-- Only the current core has changed, and is now c; every other core, control core, memory, table and register
is as before. The counter of free values drawn has moved on. -/
def SlotDone (s t : State) (c : Core) : Prop :=
  coreOf t s.core = c ∧ (∀ k, k ≠ s.core → coreOf t k = coreOf s k) ∧ t = { bump s with cores := t.cores }

/-- Only monitor tables have changed. -/
def MonitorsDone (s t : State) : Prop :=
  (∀ k, coreOf t k = { coreOf s k with monitors := (coreOf t k).monitors })
    ∧ (∀ k, ctlOf t k = { ctlOf s k with monitors := (ctlOf t k).monitors })
    ∧ t = { s with cores := t.cores, ctls := t.ctls }

/-- The current core is now c, and what has changed besides is monitor tables, in which a direct store fires the
entries armed on its lines (R172). -/
def StoreDone (s t : State) (c : Core) : Prop :=
  coreOf t s.core = { c with monitors := (coreOf t s.core).monitors }
    ∧ (∀ k, k ≠ s.core → coreOf t k = { coreOf s k with monitors := (coreOf t k).monitors })
    ∧ (∀ k, ctlOf t k = { ctlOf s k with monitors := (ctlOf t k).monitors })
    ∧ t = { bump s with cores := t.cores, ctls := t.ctls }

/-- Core k after a plain store of bytes: direct into its own scratchpad, where the store stays within its write
bound for a while (R139) and copies in flight do not see it (R115), and into its spill memory; buffered towards another core's scratchpad (R109). -/
def storedAt (c : Core) (k : Nat) (l : Loc) (bs : List Byte) : Core :=
  match l with
  | .spill o => { c with spill := c.spill.store o bs }
  | .spm j o =>
    if j = k then { noteStore c (o, c.spm.readN o bs.length) with
      spm := c.spm.store o bs, recent := c.recent ++ [(o, c.spm.readN o bs.length, c.clk)] }
    else { c with sbuf := (bs.zipIdx).foldl (fun m e => FMap.insert m (j * 2 ^ 22 + o + e.2) e.1) c.sbuf }

/-- A core with one more result on its way, its bundle no longer held. -/
def withResult (c : Core) (p : Pending) : Core := { c with held := {}, pending := c.pending ++ [p] }

/-- A core whose operation has issued without a register result. -/
def issuedOnly (c : Core) : Core := { c with held := {} }

/-- A core after an operation whose result w for scalar register n lands with bound b; s0 takes none (R127). -/
def sResult (c : Core) (n : Nat) (w : Word) (b : Nat) : Core :=
  if n = 0 then issuedOnly c
  else withResult c { dest := .s n, scalar := w, issued := c.clk, bound := c.clk + b }

/-- A core after an operation whose result x for predicate n lands with bound 1; p0 takes none (R127). -/
def pResult (c : Core) (n : Nat) (x : Bool) : Core :=
  if n = 0 then issuedOnly c
  else withResult c { dest := .p n, scalar := if x then 1 else 0, issued := c.clk, bound := c.clk + 1 }

/-- A core after an operation whose result w for branch-target register n lands with bound 1. -/
def bResult (c : Core) (n : Nat) (w : Word) : Core :=
  withResult c { dest := .b n, scalar := w, issued := c.clk, bound := c.clk + 1 }

/-- A core after a vector operation with result lanes l for the lanes of a mask, flags and bound: to register n,
or as a group for the destination stream n − 56 (R127, R181). -/
def vResult (c : Core) (n : Nat) (l : List Lane) (mask : Word) (fl : Flags) (b : Nat) : Core :=
  if n < 56 then
    withResult c { dest := .v n, lanes := lanes64 l, mask := mask, flags := fl, issued := c.clk, bound := c.clk + b }
  else
    withResult (boundPushes (streamReserve c (n - 56)).2 (n - 56) (c.clk + b))
      { dest := .push (n - 56), lanes := lanes64 l, mask := mask, flags := fl,
        offs := (streamReserve c (n - 56)).1.1, rslot := (streamReserve c (n - 56)).1.2,
        issued := c.clk, bound := c.clk + b }

/-- The lane values of source fields as a vector operation reads them, and the core after its streams have
popped. -/
def readFields (s : State) (l : List Nat) : List (List Lane) × Core :=
  ((sources (bump s) l).1, curCore (sources (bump s) l).2)

/-! ## Control cores -/

/-- Only control core k has changed, and is now c. -/
def CtlDone (s t : State) (k : Nat) (c : Ctl) : Prop :=
  ctlOf t k = c ∧ (∀ j, j ≠ k → ctlOf t j = ctlOf s j) ∧ t = { s with ctls := t.ctls }

/-! ## Tables -/

/-- Only core k has changed, and is now c. -/
def CoreDone (s t : State) (k : Nat) (c : Core) : Prop :=
  coreOf t k = c ∧ (∀ j, j ≠ k → coreOf t j = coreOf s j) ∧ t = { s with cores := t.cores }

/-- Only virtual function n has changed, and is now v. -/
def VfDone (s t : State) (n : Nat) (v : Vf) : Prop :=
  vfOf t n = v ∧ (∀ j, j ≠ n → vfOf t j = vfOf s j) ∧ t = { s with vfs := t.vfs }

/-- Only Vale n has changed, and is now v. -/
def ValeDone (s t : State) (n : Nat) (v : Vale) : Prop :=
  valeOf t n = v ∧ (∀ j, j ≠ n → valeOf t j = valeOf s j) ∧ t = { s with vales := t.vales }

/-- Only slot-table slot j has changed, and is now x. -/
def SlotTableDone (s t : State) (j : Nat) (x : Slot) : Prop :=
  slotOf t j = x ∧ (∀ i, i ≠ j → slotOf t i = slotOf s i) ∧ t = { s with slots := t.slots }

end Sys2Proof.Machine
end

