-- ==== Sys2Proof/Certificates/Slice0/Obligations.lean ====
section
/-! DEFINITION. The statements for the provers: what the rules of the manual say of this machine. -/

open Sys2Proof Sys2Proof.Machine

namespace Sys2Proof.Claims

/-- The guarded register operations of R152: constructor, latency bound, function of s[sa] and s[sb]. -/
def registerOps : List ((SR → Instr) × Nat × (Word → Word → Word)) :=
  [(.add, 1, fun x y => x + y), (.sub, 1, fun x y => x - y), (.sAnd, 1, fun x y => x &&& y),
   (.sOr, 1, fun x y => x ||| y), (.xor, 1, fun x y => x ^^^ y), (.shl, 1, fun x y => x <<< (y.toNat % 64)),
   (.shr, 1, fun x y => x >>> (y.toNat % 64)), (.sra, 1, fun x y => x.sshiftRight (y.toNat % 64)),
   (.mul, 3, fun x y => x * y), (.mulh, 3, fun x y => BitVec.ofInt 64 (x.toInt * y.toInt / 2 ^ 64)),
   (.mulhu, 3, fun x y => BitVec.ofNat 64 (x.toNat * y.toNat / 2 ^ 64)),
   (.min, 1, fun x y => if x.toInt ≤ y.toInt then x else y), (.max, 1, fun x y => if x.toInt ≤ y.toInt then y else x),
   (.minu, 1, fun x y => if x.toNat ≤ y.toNat then x else y), (.maxu, 1, fun x y => if x.toNat ≤ y.toNat then y else x),
   (.clz, 1, fun x _ => BitVec.ofNat 64 (leadingZeros x)), (.popc, 1, fun x _ => BitVec.ofNat 64 (popCount x))]

/-- The immediate operations of R154 but `lih`: constructor, function of s[sa] and the immediate's value. -/
def immediateOps : List ((SI → Instr) × (SI → Word → Word → Word)) :=
  [(.addi, fun _ x k => x + k), (.andi, fun _ x k => x &&& k), (.ori, fun _ x k => x ||| k),
   (.xori, fun _ x k => x ^^^ k), (.shli, fun f x _ => x <<< f.imm.toNat), (.shri, fun f x _ => x >>> f.imm.toNat),
   (.srai, fun f x _ => x.sshiftRight f.imm.toNat), (.li, fun _ _ k => k)]

/-- The conditions of R155 by their codes. -/
def holdsCond (cc : BitVec 3) (x y : Word) : Bool :=
  if cc = 0 then decide (x = y) else if cc = 1 then decide (x ≠ y)
  else if cc = 2 then decide (x.toInt < y.toInt) else if cc = 3 then decide (x.toNat < y.toNat)
  else if cc = 4 then decide (x.toInt ≤ y.toInt) else decide (x.toNat ≤ y.toNat)

end Sys2Proof.Claims

/-- R152 with its guard (R129): the result of each of the seventeen operations, and their frame. -/
def Obligations.ScalarRegisterOperationsWriteTheirResult : Prop :=
  ∀ p ∈ Sys2Proof.Claims.registerOps, ∀ (f : SR) (s : State), canIssue (p.1 f) s = true →
    ∃ t, exec (p.1 f) s = .next t ∧
      SlotDone s t (if branchTaken (bump s) f.pg f.pn
        then sResult (curCore s) f.sd.toNat (p.2.2 (sRead (bump s) f.sa.toNat) (sRead (bump s) f.sb.toNat)) p.2.1
        else issuedOnly (curCore s))

/-- R153 and R154: the result of `sel`, of the immediate operations and of `lih`, and their frame; R155 and R156: the
truth value that `cmp`, `cmpi` and `plog` deliver, and their frame. -/
def Obligations.SelImmediatesComparesAndPredicateLogic : Prop :=
  ((∀ (f : SR) (s : State), canIssue (.sel f) s = true → ∃ t, exec (.sel f) s = .next t ∧
    SlotDone s t (sResult (curCore s) f.sd.toNat
      (if pRead (bump s) f.pg.toNat ^^ (f.pn == 1) then sRead (bump s) f.sa.toNat else sRead (bump s) f.sb.toNat) 1))
  ∧ (∀ p ∈ Sys2Proof.Claims.immediateOps, ∀ (f : SI) (s : State), canIssue (p.1 f) s = true →
    ∃ t, exec (p.1 f) s = .next t ∧
      SlotDone s t (sResult (curCore s) f.sd.toNat (p.2 f (sRead (bump s) f.sa.toNat) (immOf f.imm f.ext)) 1))
  ∧ (∀ (f : SI) (s : State), canIssue (.lih f) s = true → ∃ t, exec (.lih f) s = .next t ∧
    SlotDone s t (sResult (curCore s) f.sd.toNat
      ((immOf f.imm f.ext).extractLsb' 0 32 ++ (sRead (bump s) f.sd.toNat).extractLsb' 0 32) 1)))
  ∧ ((∀ (f : SCR) (s : State), canIssue (.cmp f) s = true → ∃ t, exec (.cmp f) s = .next t ∧
    SlotDone s t (pResult (curCore s) f.pd.toNat
      (Sys2Proof.Claims.holdsCond f.cc (sRead (bump s) f.sa.toNat) (sRead (bump s) f.sb.toNat))))
  ∧ (∀ (f : SCI) (s : State), canIssue (.cmpi f) s = true → ∃ t, exec (.cmpi f) s = .next t ∧
    SlotDone s t (pResult (curCore s) f.pd.toNat
      (Sys2Proof.Claims.holdsCond f.cc (sRead (bump s) f.sa.toNat) (immOf f.imm f.ext))))
  ∧ (∀ (f : SP) (s : State), canIssue (.plog f) s = true → ∃ t, exec (.plog f) s = .next t ∧
    SlotDone s t (pResult (curCore s) f.pd.toNat
      (f.tt.getLsbD ((if pRead (bump s) f.pa.toNat then 2 else 0) + if pRead (bump s) f.pb.toNat then 1 else 0)))))

/-- R157: the value `ld` and `lds` deliver, and their frame; R157 and R109: where `st` and `sts` store, what they
store, and their frame. Where the manual leaves room, the reading is the model's own: log entry 28. -/
def Obligations.LoadsAndPlainStores : Prop :=
  ((∀ (f : SM) (s : State) (l : Loc), canIssue (.ld f) s = true →
    resolveLocal (bump s) s.core (smAddr (bump s) f).toNat = .ok l →
    ∃ t, exec (.ld f) s = .next t ∧
      SlotDone s t (sResult (curCore s) f.sd.toNat
        (extend (f.sx == 1) (sizeOf2 f.sz) (leNat (locRead (bump s) s.core l (sizeOf2 f.sz)))) (readBound s.core l)))
  ∧ (∀ (f : SS) (s : State), canIssue (.lds f) s = true → ∃ t, exec (.lds f) s = .next t ∧
    SlotDone s t (sResult (curCore s) f.sd.toNat
      (extend (f.sx == 1) (sizeOf2 f.sz) (leNat ((curCore s).spill.readN f.off.toNat (sizeOf2 f.sz)))) 1))
  ∧ (∀ (s : State) (k j o n : Nat), (∀ e ∈ s.cores, e.2.recent = [] ∧ ∀ x ∈ e.2.copies, x.2.raced = []) →
    locRead s k (.spill o) n = (coreOf s k).spill.readN o n
    ∧ locRead s k (.spm k o) n = (coreOf s k).spm.readN o n
    ∧ (j ≠ k → (coreOf s k).sbuf = [] → locRead s k (.spm j o) n = (coreOf s j).spm.readN o n)))
  ∧ ((∀ (f : SM) (s : State) (l : Loc), canIssue (.st f) s = true →
    resolveLocal (bump s) s.core (smAddr (bump s) f).toNat = .ok l →
    overflowed (storedAt (curCore s) s.core l (leBytes (sizeOf2 f.sz) (sRead (bump s) f.sd.toNat).toNat)) = false →
    ∃ t, exec (.st f) s = .next t ∧
      StoreDone s t (storedAt (issuedOnly (curCore s)) s.core l (leBytes (sizeOf2 f.sz) (sRead (bump s) f.sd.toNat).toNat)))
  ∧ (∀ (f : SS) (s : State), canIssue (.sts f) s = true → ∃ t, exec (.sts f) s = .next t ∧
      StoreDone s t (storedAt (issuedOnly (curCore s)) s.core (.spill f.off.toNat)
        (leBytes (sizeOf2 f.sz) (sRead (bump s) f.sd.toNat).toNat)))
  ∧ (∀ (c : Core) (k o : Nat) (bs : List Byte) (a : Nat), a < o ∨ o + bs.length ≤ a →
      (storedAt c k (.spm k o) bs).spm.read a = c.spm.read a ∧ (storedAt c k (.spill o) bs).spill.read a = c.spill.read a)
  ∧ (∀ (c : Core) (k o : Nat) (bs : List Byte) (i : Nat) (h : i < bs.length),
      (storedAt c k (.spm k o) bs).spm.read (o + i) = bs[i] ∧ (storedAt c k (.spill o) bs).spill.read (o + i) = bs[i]))

/-- R158 on a line that the stash holds: what `ldg` delivers and what `stg` stores; R158 and R159: what a miss does,
and what `probe` reports. -/
def Obligations.StashHitsAndMisses : Prop :=
  ((∀ (f : SM) (s : State) (i : Nat) (sl : StashSlot), canIssue (.ldg f) s = true →
    (smAddr (bump s) f).toNat < 2 ^ 56 → stashFind (curCore s) (smAddr (bump s) f).toNat = some (i, sl) →
    slotPoisoned (curCore s) i (smAddr (bump s) f).toNat (sizeOf2 f.sz) = false →
    ∃ t, exec (.ldg f) s = .next t ∧
      SlotDone s t (sResult { curCore s with stash := (curCore s).stash.insert i { sl with used := (curCore s).clk } }
        f.sd.toNat (extend (f.sx == 1) (sizeOf2 f.sz)
          (leNat (slotBytes (curCore s) i (smAddr (bump s) f).toNat (sizeOf2 f.sz)))) 6))
  ∧ (∀ (f : SM) (s : State) (i : Nat) (sl : StashSlot), canIssue (.stg f) s = true →
    (smAddr (bump s) f).toNat < 2 ^ 56 → stashFind (curCore s) (smAddr (bump s) f).toNat = some (i, sl) → sl.w = true →
    ∃ t, exec (.stg f) s = .next t ∧
      StoreDone s t { issuedOnly (curCore s) with
        spm := (curCore s).spm.store (stashOffset (curCore s) i + (smAddr (bump s) f).toNat % 128)
          (leBytes (sizeOf2 f.sz) (sRead (bump s) f.sd.toNat).toNat)
        stash := (curCore s).stash.insert i { sl with
          dirty := sl.dirty ||| byteMask (smAddr (bump s) f).toNat (sizeOf2 f.sz), used := (curCore s).clk } }))
  ∧ ((∀ (f : SM) (s : State) (e : Nat), (smAddr (bump s) f).toNat < 2 ^ 56 →
    stashFind (curCore s) (smAddr (bump s) f).toNat = none → lineFill (curCore s) (smAddr (bump s) f).toNat = none →
    freeIndex (curCore s).loads 64 = some e →
    (canIssue (.ldg f) s = true → ∃ t, exec (.ldg f) s = .next t ∧
      SlotDone s t { curCore s with
        loads := (curCore s).loads.insert e { addr := BitVec.ofNat 64 (smAddr (bump s) f).toNat, kind := 0 }
        ord := (curCore s).ord ++ [0x20 + e], held := { (curCore s).held with fill := some e } })
    ∧ (canIssue (.stg f) s = true → ∃ t, exec (.stg f) s = .next t ∧
      SlotDone s t { curCore s with
        loads := (curCore s).loads.insert e { addr := BitVec.ofNat 64 (smAddr (bump s) f).toNat, kind := 0, write := true }
        ord := (curCore s).ord ++ [0x20 + e], held := { (curCore s).held with fill := some e } })
    ∧ (canIssue (.probe f) s = true → ∃ t, exec (.probe f) s = .next t ∧
      SlotDone s t (sResult { curCore s with
        loads := (curCore s).loads.insert e { addr := BitVec.ofNat 64 (smAddr (bump s) f).toNat, kind := 1 }
        ord := (curCore s).ord ++ [0x20 + e] } f.sd.toNat (2#64 <<< 62) 6)))
  ∧ (∀ (f : SM) (s : State), canIssue (.probe f) s = true →
    stashFind (curCore s) (smAddr (bump s) f).toNat = none →
    ((lineFill (curCore s) (smAddr (bump s) f).toNat).isSome = true → ∃ t, exec (.probe f) s = .next t ∧
      SlotDone s t (sResult (curCore s) f.sd.toNat (2#64 <<< 62) 6))
    ∧ (lineFill (curCore s) (smAddr (bump s) f).toNat = none → freeIndex (curCore s).loads 64 = none →
      ∃ t, exec (.probe f) s = .next t ∧ SlotDone s t (sResult (curCore s) f.sd.toNat (3#64 <<< 62) 6)))
  ∧ (∀ (f : SM) (s : State) (i : Nat) (sl : StashSlot), canIssue (.probe f) s = true →
    stashFind (curCore s) (smAddr (bump s) f).toNat = some (i, sl) →
    ∃ t, exec (.probe f) s = .next t ∧
      SlotDone s t (sResult { curCore s with stash := (curCore s).stash.insert i { sl with used := (curCore s).clk } }
        f.sd.toNat (BitVec.ofNat 64 (0xFF * 2 ^ 22 + stashOffset (curCore s) i + (smAddr (bump s) f).toNat % 128)) 6)))

/-- R160: what `sqld` pushes into the scale queue. Where the manual leaves room, the reading is the model's own: log
entry 21. -/
def Obligations.SqldPushesScales : Prop :=
  ∀ (f : SM) (s : State) (l : Loc), canIssue (.sqld f) s = true →
    resolveLocal (bump s) s.core (smAddr (bump s) f).toNat = .ok l →
    ∃ t, exec (.sqld f) s = .next t ∧
      SlotDone s t { issuedOnly (curCore s) with
        sq := (curCore s).sq ++ (locRead (bump s) s.core l (sizeOf2 f.sz)).map SqItem.scale }

namespace Sys2Proof.Claims

/-- The new value of the word that `amo` leaves (R128, R161): on n-byte words, by the operation's number. -/
def amoNew (aop n old v : Nat) : Nat :=
  let m := 2 ^ (8 * n)
  match aop with
  | 0 => (old + v) % m
  | 1 => (BitVec.ofNat 64 old &&& BitVec.ofNat 64 v).toNat % m
  | 2 => (BitVec.ofNat 64 old ||| BitVec.ofNat 64 v).toNat % m
  | 3 => (BitVec.ofNat 64 old ^^^ BitVec.ofNat 64 v).toNat % m
  | 4 => if signedOf (8 * n) (old % m) ≤ signedOf (8 * n) (v % m) then old % m else v % m
  | 5 => if signedOf (8 * n) (v % m) ≤ signedOf (8 * n) (old % m) then old % m else v % m
  | 6 => Nat.min (old % m) (v % m) % m
  | 7 => Nat.max (old % m) (v % m) % m
  | _ => v % m

end Sys2Proof.Claims

/-- R161 on the own scratchpad: the word written and the old value delivered; R140: `amo` and `cas` on a target that
an atomic unit elsewhere serves. Where the manual leaves room, the reading is the model's own: log entry 25. -/
def Obligations.AtomicsAtIssue : Prop :=
  (∀ (f : SA) (s : State) (a o : Nat), taggedOf (sRead (bump s) f.sa.toNat) = .localAddr a →
    resolveLocal (bump s) s.core a = .ok (.spm s.core o) → (curCore s).spm.poisoned o (sizeOf2 f.sz) = false →
    (curCore s).held.atomicResult = none → (curCore s).held.atomicSent = false →
    atomicOnLine (bump s) s.core (curCore s).ord (some (some s.core, o / 128)) = false →
    (canIssue (.amo f) s = true → ∃ t, exec (.amo f) s = .next t ∧
      StoreDone s t (sResult { curCore s with
        spm := (curCore s).spm.store o (leBytes (sizeOf2 f.sz) (Sys2Proof.Claims.amoNew f.aop.toNat (sizeOf2 f.sz)
          (leNat ((curCore s).spm.readN o (sizeOf2 f.sz))) (sRead (bump s) f.sb.toNat).toNat)) }
        f.sd.toNat (extend (sizeOf2 f.sz == 4) (sizeOf2 f.sz) (leNat ((curCore s).spm.readN o (sizeOf2 f.sz)))) 6))
    ∧ (canIssue (.cas f) s = true → ∃ t, exec (.cas f) s = .next t ∧
      StoreDone s t (sResult { curCore s with
        spm := (curCore s).spm.store o (leBytes (sizeOf2 f.sz)
          (if leNat ((curCore s).spm.readN o (sizeOf2 f.sz)) % 2 ^ (8 * sizeOf2 f.sz)
              = (sRead (bump s) f.sd.toNat).toNat % 2 ^ (8 * sizeOf2 f.sz)
            then (sRead (bump s) f.sb.toNat).toNat % 2 ^ (8 * sizeOf2 f.sz)
            else leNat ((curCore s).spm.readN o (sizeOf2 f.sz)) % 2 ^ (8 * sizeOf2 f.sz))) }
        f.sd.toNat (extend (sizeOf2 f.sz == 4) (sizeOf2 f.sz) (leNat ((curCore s).spm.readN o (sizeOf2 f.sz)))) 6)))
  ∧ ((∀ (f : SA) (cas : Bool) (s u : State) (h : Home) (e : Nat),
    canIssue (if cas then .cas f else .amo f) s = true →
    (curCore s).held = {} → homeOf (bump s) s.core (taggedOf (sRead (bump s) f.sa.toNat)) = (h, u) →
    taggedHeld (bump s) (taggedOf (sRead (bump s) f.sa.toNat)) = false →
    slotRefuses (bump s) s.core (taggedOf (sRead (bump s) f.sa.toNat)) = false →
    h = .remote ∨ h = .other → freeIndex (curCore s).atomics 16 = some e → (curCore s).atomics.length < 16 →
    ∃ t, exec (if cas then .cas f else .amo f) s = .next t ∧
      CoreDone u t s.core { coreOf u s.core with
        atomics := (curCore s).atomics.insert e
          { addr := sRead (bump s) f.sa.toNat, kind := if cas then 1 else 0, interlocked := !(f.sd == 0)
            sz := f.sz.toNat, aop := f.aop.toNat, sd := f.sd.toNat
            operand := if cas then sRead (bump s) f.sd.toNat else sRead (bump s) f.sb.toNat
            newv := if cas then sRead (bump s) f.sb.toNat else 0, seq0 := (curCore s).tagSeq }
        ord := (curCore s).ord ++ [0x60 + e], tagSeq := ((curCore s).tagSeq + 1) % 2 ^ 40
        held := { atomicSent := !(f.sd == 0) } })
  ∧ (∀ (f : SA) (cas : Bool) (s u : State) (e : Nat),
    canIssue (if cas then .cas f else .amo f) s = true →
    (curCore s).held = {} → homeOf (bump s) s.core (taggedOf (sRead (bump s) f.sa.toNat)) = (.vale, u) →
    taggedHeld (bump s) (taggedOf (sRead (bump s) f.sa.toNat)) = false →
    (∀ i sl, stashFind (curCore s) (sRead (bump s) f.sa.toNat).toNat = some (i, sl) → sl.w = true) →
    freeIndex (curCore s).loads 64 = some e →
    ∃ t, exec (if cas then .cas f else .amo f) s = .next t ∧
      CoreDone u t s.core { coreOf u s.core with
        loads := (curCore s).loads.insert e
          { addr := sRead (bump s) f.sa.toNat, kind := 2, interlocked := !(f.sd == 0), sz := f.sz.toNat
            aop := f.aop.toNat, cas := cas, sd := f.sd.toNat, operand := sRead (bump s) f.sb.toNat
            expected := if cas then sRead (bump s) f.sd.toNat else 0 }
        ord := (curCore s).ord ++ [0x20 + e], held := { atomicSent := !(f.sd == 0) } }))

/-- R162 and R165: what the prepares deliver, and what a branch does, taken and not taken; R164 to R166: what `loop`
and `halt` do. Where the manual leaves room, the reading is the model's own: log entries 26, 27 and 154. -/
def Obligations.BranchesLoopsAndHalt : Prop :=
  ((∀ (off : BitVec 20) (ext : Option (BitVec 24)) (b : BitVec 3) (s : State), canIssue (.pbr off ext b) s = true →
    ∃ t, exec (.pbr off ext b) s = .next t ∧
      SlotDone s t (bResult (curCore s) b.toNat ((curCore s).pc + 32 * immOf off ext)))
  ∧ (∀ (sa : BitVec 6) (b : BitVec 3) (s : State), canIssue (.pbrr sa b) s = true →
    ∃ t, exec (.pbrr sa b) s = .next t ∧ SlotDone s t (bResult (curCore s) b.toNat (sRead (bump s) sa.toNat)))
  ∧ (∀ (pg : BitVec 4) (pn : BitVec 1) (b : BitVec 3) (s : State), canIssue (.br pg pn b) s = true →
    ∃ t, exec (.br pg pn b) s = .next t ∧
      SlotDone s t (if branchTaken (bump s) pg pn
        then { leaveLoops (issuedOnly (curCore s)) (bRead (bump s) b.toNat) with branch := some (bRead (bump s) b.toNat) }
        else issuedOnly (curCore s)))
  ∧ (∀ (sd : BitVec 6) (pg : BitVec 4) (pn : BitVec 1) (b : BitVec 3) (s : State), canIssue (.brl sd pg pn b) s = true →
    ∃ t, exec (.brl sd pg pn b) s = .next t ∧
      SlotDone s t (if branchTaken (bump s) pg pn
        then sResult { leaveLoops (curCore s) (bRead (bump s) b.toNat) with branch := some (bRead (bump s) b.toNat) }
          sd.toNat ((curCore s).pc + 32) 1
        else issuedOnly (curCore s))))
  ∧ ((∀ (off : BitVec 16) (sa : BitVec 6) (n : BitVec 2) (s : State), canIssue (.loop off sa n) s = true →
    ∃ t, exec (.loop off sa n) s = .next t ∧
      SlotDone s t { issuedOnly (curCore s) with
        l := (curCore s).l.put {} n.toNat
          { cnt := sRead (bump s) sa.toNat, active := decide (sRead (bump s) sa.toNat ≠ 0)
            start := if sRead (bump s) sa.toNat = 0 then 0 else (curCore s).pc + 32
            last := if sRead (bump s) sa.toNat = 0 then 0 else (curCore s).pc + 32 * off.setWidth 64
            age := (curCore s).l.foldl (fun m e => Nat.max m e.2.age) 0 + 1 }
        branch := if sRead (bump s) sa.toNat = 0 then some ((curCore s).pc + 32 * off.setWidth 64 + 32)
          else (curCore s).branch })
  ∧ (∀ (s : State), canIssue .halt s = true → ∃ t, exec .halt s = .next t ∧
      SlotDone s t { issuedOnly (curCore s) with
        l := (curCore s).l.map (fun e => (e.1, { e.2 with active := false })), status := .idle
        seq := { (curCore s).seq with bodyDone := true } }))

namespace Sys2Proof.Claims

/-- A core that has recorded its arrival on gang g by an operation, in barrier entry e, in the gang's episode. -/
def arrived (c : Core) (g op e episode : Nat) : Core :=
  { c with
    barriers := c.barriers.insert e { gang := g, op := op, seq := c.tagSeq, episode := episode }
    ord := c.ord ++ [0x70 + e], tagSeq := (c.tagSeq + 1) % 2 ^ 40 }

end Sys2Proof.Claims

/-- R167 and R169: arrivals and what waits for them; R75 and R167: what `gjoin` does at once. Where the manual leaves
room, the reading is the model's own: log entries 59 and 140. -/
def Obligations.GangOperations : Prop :=
  ((∀ (g : BitVec 12) (s : State) (e : Nat), (curCore s).held.arrival = none → freeIndex (curCore s).barriers 8 = some e →
    (curCore s).barriers.length < 8 →
    (canIssue (.gleave g) s = true → ∃ t, exec (.gleave g) s = .next t
      ∧ coreOf t s.core
        = issuedOnly (Sys2Proof.Claims.arrived (curCore s) g.toNat 3 e (gangOf s (s.core / 192) g.toNat).episode)
      ∧ (∀ k, k ≠ s.core → coreOf t k = coreOf s k)
      ∧ gangOf t (s.core / 192) g.toNat = { gangOf s (s.core / 192) g.toNat with
          leavers := (gangOf s (s.core / 192) g.toNat).leavers ++ [logicalCore s s.core] }
      ∧ (∀ v h, (v, h) ≠ (s.core / 192, g.toNat) → gangOf t v h = gangOf s v h)
      ∧ t = { bump s with cores := t.cores, vales := t.vales })
    ∧ (canIssue (.garr g) s = true → ∃ t, exec (.garr g) s = .next t ∧
      SlotDone s t (issuedOnly (Sys2Proof.Claims.arrived (curCore s) g.toNat 1 e (gangOf s (s.core / 192) g.toNat).episode)))
    ∧ (canIssue (.gbar g) s = true → ∃ t, exec (.gbar g) s = .next t ∧
      SlotDone s t { Sys2Proof.Claims.arrived (curCore s) g.toNat 0 e (gangOf s (s.core / 192) g.toNat).episode with
        held := { (curCore s).held with arrival := some (g.toNat, (gangOf s (s.core / 192) g.toNat).episode) } })
    ∧ (canIssue (.phase g) s = true → ∃ t, exec (.phase g) s = .next t ∧
      SlotDone s t { Sys2Proof.Claims.arrived (curCore s) g.toNat 2 e (gangOf s (s.core / 192) g.toNat).episode with
        held := { (curCore s).held with arrival := some (g.toNat, (gangOf s (s.core / 192) g.toNat).episode) } }))
  ∧ (∀ (g : BitVec 12) (s : State), arrivalPending (bump s) s.core g.toNat = false →
    (canIssue (.gwait g) s = true → ∃ t, exec (.gwait g) s = .next t ∧ SlotDone s t (issuedOnly (curCore s)))
    ∧ ((curCore s).held.arrival.isSome = true →
      (canIssue (.gbar g) s = true → ∃ t, exec (.gbar g) s = .next t ∧ SlotDone s t (issuedOnly (curCore s)))
      ∧ (canIssue (.phase g) s = true → ∃ t, exec (.phase g) s = .next t ∧ SlotDone s t (issuedOnly (curCore s))))))
  ∧ (∀ (g : BitVec 12) (s : State), canIssue (.gjoin g) s = true →
    (gangMember (bump s) s.core g.toNat = true → ∃ t, exec (.gjoin g) s = .next t ∧ SlotDone s t (issuedOnly (curCore s)))
    ∧ (gangMember (bump s) s.core g.toNat = false → (gangOf s (s.core / 192) g.toNat).arrived = [] →
      ∃ t, exec (.gjoin g) s = .next t ∧
        coreOf t s.core = { issuedOnly (curCore s) with lastArrival := (curCore s).lastArrival.erase g.toNat }
        ∧ (∀ k, k ≠ s.core → coreOf t k = coreOf s k)
        ∧ gangOf t (s.core / 192) g.toNat = { gangOf s (s.core / 192) g.toNat with
            members := insertRising (logicalCore s s.core) (gangOf s (s.core / 192) g.toNat).members
            joiners := (gangOf s (s.core / 192) g.toNat).joiners.filter (· != logicalCore s s.core) }
        ∧ (∀ v h, (v, h) ≠ (s.core / 192, g.toNat) → gangOf t v h = gangOf s v h)
        ∧ t = { bump s with cores := t.cores, vales := t.vales }))

/-- R170, R171 and R173: waits that end, and what `waita` answers. Where the manual leaves room, the reading is the
model's own: log entries 139 and 155. -/
def Obligations.SyncSleepAndWaita : Prop :=
  (∀ (m : BitVec 12) (s : State), canIssue (.sync m) s = true →
    ∃ t, exec (.sync m) s = .next t ∧ SlotDone s t (issuedOnly (curCore s)))
  ∧ (∀ (sa : BitVec 6) (s : State), canIssue (.sleep sa) s = true →
    ∃ t, exec (.sleep sa) s = .next t ∧ SlotDone s t (issuedOnly (curCore s)))
  ∧ (∀ (sd : BitVec 6) (s : State), canIssue (.waita sd 0) s = true → (curCore s).held.atomicResult = none →
    (sd = 0 → ∃ t, exec (.waita sd 0) s = .next t ∧ SlotDone s t (issuedOnly (curCore s)))
    ∧ (sd ≠ 0 → ∀ e cause, firedEntry (curCore s).monitors 4 = some (e, cause) →
      ∃ t, exec (.waita sd 0) s = .next t ∧
        SlotDone s t (sResult { curCore s with monitors := (curCore s).monitors.erase e } sd.toNat
          (BitVec.ofNat 64 (e * 256 + cause)) 1))
    ∧ (sd ≠ 0 → firedEntry (curCore s).monitors 4 = none →
      (anyArmed (curCore s).monitors = false → ∃ t, exec (.waita sd 0) s = .next t ∧
        SlotDone s t (sResult (curCore s) sd.toNat 0xFE 1))
      ∧ (anyArmed (curCore s).monitors = true → ∃ t, exec (.waita sd 0) s = .next t ∧ SlotDone s t (curCore s))))
  ∧ (∀ (sa : BitVec 6) (s : State) (a o e : Nat), sa ≠ 0 → canIssue (.waita 0 sa) s = true →
    (curCore s).held = {} → taggedOf (sRead (bump s) sa.toNat) = .localAddr a →
    resolveLocal (bump s) s.core a = .ok (.spm s.core o) →
    (curCore s).monitors.any (fun x => watches x.2 (some s.core) (o / 128)) = false →
    monitorFree (curCore s).monitors 4 = some e →
    ∃ t, exec (.waita 0 sa) s = .next t ∧
      SlotDone s t { issuedOnly (curCore s) with
        monitors := (curCore s).monitors.put .free e (.armed (some s.core) (o / 128) 0 (curCore s).monClock)
        monClock := (curCore s).monClock + 1 })

/-- R174 to R176: the values that `rdns`, `rdnj` and `csrr` deliver; R176 and R180: what `csrw` writes, and what
ignores it. Where the manual leaves room, the reading is the model's own: log entries 23 and 138. -/
def Obligations.TimeEnergyAndCsrAccess : Prop :=
  ((∀ (sd : BitVec 6) (s : State), canIssue (.rdns sd) s = true →
    ∃ t, exec (.rdns sd) s = .next t ∧ SlotDone s t (sResult (curCore s) sd.toNat s.nstime 1))
  ∧ (∀ (sd : BitVec 6) (s : State), canIssue (.rdnj sd) s = true →
    ∃ t, exec (.rdnj sd) s = .next t ∧ SlotDone s t (sResult (curCore s) sd.toNat
      (BitVec.ofNat 64 (s.energy.accounts.get 0 (cidOfSlice s (sliceOfCore s.core)))) 2))
  ∧ (∀ (sd : BitVec 6) (n : BitVec 12) (s : State), canIssue (.csrr sd n) s = true →
    ∃ t, exec (.csrr sd n) s = .next t ∧ SlotDone s t (sResult (curCore s) sd.toNat (csrValue (bump s) n.toNat) 2))
  ∧ (∀ (s : State) (n : Nat) (w : Word), n < 0x031 ∨ 0x037 < n → inFlight (curCore s) (.csr n) = false →
    coreCsr (curCore s) n = some w → csrValue (bump s) n = w))
  ∧ (∀ (n : BitVec 12) (sa : BitVec 6) (s : State), canIssue (.csrw n sa) s = true →
    ∃ t, exec (.csrw n sa) s = .next t ∧
      SlotDone s t (
        if 0x031 ≤ n.toNat ∧ n.toNat ≤ 0x037 then
          withResult (curCore s) { dest := .vm (n.toNat - 0x030), scalar := sRead (bump s) sa.toNat, mask := BitVec.allOnes 64
                                   issued := (curCore s).clk, bound := (curCore s).clk + 2 }
        else if n.toNat = 0x010 ∨ n.toNat = 0x020 then
          withResult (curCore s) { dest := .csr n.toNat, scalar := sRead (bump s) sa.toNat
                                   issued := (curCore s).clk, bound := (curCore s).clk + 2 }
        else issuedOnly (curCore s)))

/-- R177 and R372: how `trap` and `brk` stop their core, and where their record goes. Where the manual leaves room,
the reading is the model's own: log entries 113 and 115. -/
def Obligations.TrapAndBrkStopTheCore : Prop :=
  ∀ (code : BitVec 12) (s : State) (isBrk : Bool), canIssue (if isBrk then .brk code else .trap code) s = true →
    (curCore s).status ≠ .stopped → (curCore s).seq.exec = none → (curCore s).trap = none →
    (isBrk = true → debugged s = true → ∃ t, exec (.brk code) s = .next t ∧
      coreOf t s.core = { issuedOnly (curCore s) with pc := (curCore s).pc + 32, status := .stopped, brk := true }
      ∧ (∀ k, k ≠ s.core → coreOf t k = coreOf s k)
      ∧ t = { bump s with cores := t.cores, io := { s.io with dbgHalted := true, dbgSc := if s.io.dbgHalted then s.io.dbgSc else 0 } })
    ∧ (isBrk = false ∨ debugged s = false →
      ∃ (t : State) (r : Record), exec (if isBrk then .brk code else .trap code) s = .next t ∧
        coreOf t s.core = { issuedOnly (curCore s) with pc := (curCore s).pc + 32, status := .stopped }
        ∧ (∀ k, k ≠ s.core → coreOf t k = coreOf s k)
        ∧ r.cause = (if isBrk then 5#8 else 4#8) ∧ r.info = code.setWidth 64 ∧ r.pc = (curCore s).pc + 32
        ∧ vfOf t (vfOfCore s s.core) = (let v := vfOf s (vfOfCore s s.core)
            { v with tq := { v.tq with fresh := insertRecord r v.tq.fresh } })
        ∧ (∀ n, n ≠ vfOfCore s s.core → vfOf t n = vfOf s n)
        ∧ t = { bump s with cores := t.cores, vfs := t.vfs }
        ∧ ((vfOf s (vfOfCore s s.core)).tq.fresh = [] →
          (vfOf s (vfOfCore s s.core)).tq.en = false ∨ (vfOf s (vfOfCore s s.core)).tq.held ≠ [] →
          VfDone t (landFreshOf t (vfOfCore s s.core)) (vfOfCore s s.core) (let v := vfOf s (vfOfCore s s.core)
            if v.tq.en then { v with tq := { v.tq with held := v.tq.held ++ [{ r with flags := r.flags ||| 4 }] } }
            else { v with tq := { v.tq with sup := v.tq.sup + 1 } })))

namespace Sys2Proof.Claims

/-- The lane values of an operation: g for the lanes that the mask selects. -/
def laneValues (mask : Word) (g : Nat → Nat × Flags) : List Lane :=
  (List.range 64).map fun i => if mask.getLsbD i then BitVec.ofNat 32 (g i).1 else 0

/-- The flags of the selected lanes together. -/
def laneFlags (mask : Word) (g : Nat → Nat × Flags) : Flags :=
  (List.range 64).foldl (fun a i => if mask.getLsbD i then a ||| (g i).2 else a) 0

/-- A vector operation whose selected lanes each take a value of the sources' lanes: its constructor, the forms it
describes, its source fields, its latency bound and its lane function. -/
structure LaneOp where
  ctor : VF → Instr
  applies : VF → Bool := fun _ => true
  src : VF → List Nat
  bound : Nat
  g : State → VF → List (List Lane) → Nat → Nat × Flags

/-- Source fields va; va and vb; va, vb and vc. -/
def srcA (f : VF) : List Nat := [f.va.toNat]
/-- Source fields va and vb. -/
def srcAB (f : VF) : List Nat := [f.va.toNat, f.vb.toNat]
/-- Source fields va, vb and vc. -/
def srcABC (f : VF) : List Nat := [f.va.toNat, f.vb.toNat, f.vc.toNat]
/-- Source fields of a shift: its amount is a lane of vb, or the field itself. -/
def srcShift (f : VF) : List Nat := if f.fn.getLsbD 0 then srcA f else srcAB f

/-- A shift of w-bit elements (R187): `inside` for amounts below w, `beyond` for the others. -/
def shiftLane (f : VF) (v : List (List Lane)) (i : Nat) (inside : Nat → Nat → Nat → Nat) (beyond : Nat → Nat → Nat) :
    Nat × Flags :=
  let w := tyWidth (tyOfField f.ty)
  let n := if f.fn.getLsbD 0 then f.vb.toNat else elem v 1 i
  ((if n < w then inside w (elem v 0 i % 2 ^ w) n else beyond w (elem v 0 i % 2 ^ w)) % 2 ^ w, 0)

/-- The arithmetic of R184 to R187, R189 to R191 and R202 to R204. -/
def arithmeticOps : List LaneOp :=
  [{ ctor := .vadd, src := srcAB, bound := 2, g := fun _ f v i =>
      arith f (fun rm x y _ => addExact rm x y) (fun x y _ => x + y) (elem v 0 i) (elem v 1 i) 0 },
   { ctor := .vsub, src := srcAB, bound := 2, g := fun _ f v i =>
      arith f (fun rm x y _ => subExact rm x y) (fun x y _ => x - y) (elem v 0 i) (elem v 1 i) 0 },
   { ctor := .vmul, src := srcAB, bound := 4, g := fun _ f v i =>
      arith f (fun _ x y _ => mulExact x y) (fun x y _ => x * y) (elem v 0 i) (elem v 1 i) 0 },
   { ctor := .vfma, src := srcABC, bound := 4, g := fun _ f v i =>
      arith f (fun rm x y z => fmaExact rm x y z) (fun x y z => x * y + z) (elem v 0 i) (elem v 1 i) (elem v 2 i) },
   { ctor := .vfms, src := srcABC, bound := 4, g := fun _ f v i =>
      arith f (fun rm x y z => fmaExact rm x y z.negate) (fun x y z => x * y - z) (elem v 0 i) (elem v 1 i) (elem v 2 i) },
   { ctor := .vmin, src := srcAB, bound := 2, g := fun _ f v i => minMax (tyOfField f.ty) false (elem v 0 i) (elem v 1 i) },
   { ctor := .vmax, src := srcAB, bound := 2, g := fun _ f v i => minMax (tyOfField f.ty) true (elem v 0 i) (elem v 1 i) },
   { ctor := .vabs, src := srcA, bound := 2, g := fun _ f v i => signOp (tyOfField f.ty) (f.sat == 1) false (elem v 0 i) },
   { ctor := .vneg, src := srcA, bound := 2, g := fun _ f v i => signOp (tyOfField f.ty) (f.sat == 1) true (elem v 0 i) },
   { ctor := .vcvt, src := srcA, bound := 4, g := fun _ f v i =>
      convert (tyOfField f.ty) ((tyOf f.vc.toNat).getD .fp32) (rmOf f.rm) (f.sat == 1) (elem v 0 i) },
   { ctor := .vrq, src := srcABC, bound := 4, g := fun _ f v i =>
      requant (tyOfField f.ty) (signedOf 32 (elem v 0 i)) (signedOf 32 (elem v 1 i)) f.fn.toNat (signedOf 32 (elem v 2 i)) },
   { ctor := .vexp2, applies := fun f => f.ty != 13, src := srcA, bound := 8, g := fun _ _ v i => special32 0 (elem v 0 i) },
   { ctor := .vtanh, src := srcA, bound := 8, g := fun _ _ v i => special32 1 (elem v 0 i) },
   { ctor := .vlgst, src := srcA, bound := 8, g := fun _ _ v i => special32 2 (elem v 0 i) },
   { ctor := .vrcp, src := srcA, bound := 8, g := fun _ _ v i => special32 3 (elem v 0 i) },
   { ctor := .vrsqrt, src := srcA, bound := 8, g := fun _ _ v i => special32 4 (elem v 0 i) },
   { ctor := .vtacc, src := srcABC, bound := 4, g := fun _ f v i =>
      intResult .int32 (f.sat == 1) (signedOf 32 (elem v 2 i) + Int.sign (signedOf 8 (elem v 0 i))
        * intOf (tySigned (tyOfField f.ty)) (tyWidth (tyOfField f.ty)) (elem v 1 i)) },
   { ctor := .vdp8, src := srcABC, bound := 4, g := fun _ f v i =>
      let p := mulExact (decodeDp8 (elem v 0 i % 256)) (decodeE8m0 (elem v 0 i / 256 % 256))
      let q := mulExact p.1 (decode (tyOfField f.ty) (elem v 1 i))
      let e := addExact (rmOf f.rm) (decode .fp32 (elem v 2 i)) q.1
      let r := roundArith fmt32 (rmOf f.rm) false e.1
      (r.1, r.2 ||| flagIf (p.2 || q.2 || e.2) fNv) },
   { ctor := .vunp3, src := srcA, bound := 4, g := fun s f v k =>
      let j := (64 * f.fn.toNat + k) / 5
      let b := elem v 0 (j / 4) / 2 ^ (8 * (j % 4)) % 256
      (wrapTo (tyWidth (tyOfField f.ty))
        (if tritBad b ∧ astatStrict (curCore s).astat then 0 else tritOf b ((64 * f.fn.toNat + k) % 5)),
       flagIf (tritBad b) fBt) }]

/-- The bitwise operations, shifts and data movement of R187, R195, R196 and R205. -/
def movementOps : List LaneOp :=
  [{ ctor := .vand, src := srcAB, bound := 2, g := fun _ _ v i => ((lane (v.getD 0 []) i &&& lane (v.getD 1 []) i).toNat, 0) },
   { ctor := .vor, src := srcAB, bound := 2, g := fun _ _ v i => ((lane (v.getD 0 []) i ||| lane (v.getD 1 []) i).toNat, 0) },
   { ctor := .vxor, src := srcAB, bound := 2, g := fun _ _ v i => ((lane (v.getD 0 []) i ^^^ lane (v.getD 1 []) i).toNat, 0) },
   { ctor := .vshl, src := srcShift, bound := 2, g := fun _ f v i => shiftLane f v i (fun _ x n => x * 2 ^ n) (fun _ _ => 0) },
   { ctor := .vshr, src := srcShift, bound := 2, g := fun _ f v i => shiftLane f v i (fun _ x n => x / 2 ^ n) (fun _ _ => 0) },
   { ctor := .vsra, src := srcShift, bound := 2, g := fun _ f v i =>
      shiftLane f v i (fun w x n => wrapTo w (signedOf w x / 2 ^ n)) (fun w x => if 2 ^ (w - 1) ≤ x then 2 ^ w - 1 else 0) },
   { ctor := .vbcast, applies := fun f => f.fn.getLsbD 0, src := srcA, bound := 2, g := fun _ f v _ => (elem v 0 f.vb.toNat, 0) },
   { ctor := .vbcast, applies := fun f => !f.fn.getLsbD 0, src := fun _ => [], bound := 2, g := fun s f _ _ =>
      ((sRead s f.va.toNat).toNat % 2 ^ 32, 0) },
   { ctor := .vmov, applies := fun f => f.ty != 13, src := srcA, bound := 2, g := fun _ _ v i => (elem v 0 i, 0) },
   { ctor := .vsel, applies := fun f => f.ty != 13, src := srcAB, bound := 2, g := fun s f v i =>
      (if (vmRead s (f.fn.toNat % 8)).getLsbD i then elem v 0 i else elem v 1 i, 0) },
   { ctor := .vwide, src := srcA, bound := 2, g := fun _ f v i =>
      (elem v 0 (f.fn.toNat * (64 / (32 / packWidth f.ty)) + i / (32 / packWidth f.ty))
        / 2 ^ (packWidth f.ty * (i % (32 / packWidth f.ty))) % 2 ^ packWidth f.ty, 0) }]

/-- What an operation of the two lists does to its core. -/
def laneResult (o : LaneOp) (f : VF) (s : State) : Core :=
  vResult (readFields s (o.src f)).2 f.vd.toNat
    (laneValues (vmRead (bump s) f.vm.toNat) (o.g (bump s) f (readFields s (o.src f)).1)) (vmRead (bump s) f.vm.toNat)
    (laneFlags (vmRead (bump s) f.vm.toNat) (o.g (bump s) f (readFields s (o.src f)).1)) o.bound

end Sys2Proof.Claims

/-- R184 to R186, R189 to R191 and R202 to R204: the lanes and flags delivered, and the frame; R187, R195, R196 and
R205: the lanes delivered, and the frame. Where the manual leaves room, the reading is the model's own: log entries
11, 13, 134 and 135. -/
def Obligations.VectorOperationsWriteTheirLanes : Prop :=
  (∀ o ∈ Sys2Proof.Claims.arithmeticOps, ∀ (f : VF) (s : State), o.applies f = true → canIssue (o.ctor f) s = true →
    ∃ t, exec (o.ctor f) s = .next t ∧ SlotDone s t (issuedOnly (Sys2Proof.Claims.laneResult o f s)))
  ∧ (∀ o ∈ Sys2Proof.Claims.movementOps, ∀ (f : VF) (s : State), o.applies f = true → canIssue (o.ctor f) s = true →
    ∃ t, exec (o.ctor f) s = .next t ∧ SlotDone s t (issuedOnly (Sys2Proof.Claims.laneResult o f s)))

namespace Sys2Proof.Claims

/-- The core after a pair of results for 64-bit containers: low words in register n, high words in n + 1 (R36). -/
def pairResult (c : Core) (n : Nat) (x : Nat → Nat) (mask : Word) (fl : Flags) (b : Nat) : Core :=
  vResult (vResult c n ((List.range 64).map fun i => BitVec.ofNat 32 (x i)) mask fl b) (n + 1)
    ((List.range 64).map fun i => BitVec.ofNat 32 (x i / 2 ^ 32)) mask 0 b

/-- The containers of selected lanes, and 0 in the others. -/
def pick (mask : Word) (g : Nat → Nat × Flags) (i : Nat) : Nat := if mask.getLsbD i then (g i).1 else 0

/-- The result of `vxadd` on lane i: sum, difference, product, fused product-sum or quotient of XF40 values (R206). -/
def xaddLane (s : State) (f : VF) (v : List (List Lane)) (i : Nat) : Nat × Flags :=
  xfOp (f.fn.toNat % 8) (rmOf f.rm) (f.sat == 1) (decode .xf40 (pairElem s f.va.toNat i))
    (if f.fn.getLsbD 3 then decode .fp32 (elem v 0 i) else decode .xf40 (pairElem s f.vb.toNat i))
    (if f.fn.toNat % 8 = 3 then decode .xf40 (pairElem s f.vc.toNat i) else .zero false)

end Sys2Proof.Claims

/-- R206, R207 and the pair forms of R191 and R196. Where the manual leaves room, the reading is the model's own: log
entry 12. -/
def Obligations.Xf40OperationsWritePairs : Prop :=
  (∀ (f : VF) (s : State), canIssue (.vxadd f) s = true → ∃ t, exec (.vxadd f) s = .next t ∧
    SlotDone s t (issuedOnly (Sys2Proof.Claims.pairResult (readFields s (if f.fn.getLsbD 3 then [f.vb.toNat] else [])).2 f.vd.toNat
      (Sys2Proof.Claims.pick (vmRead (bump s) f.vm.toNat)
        (Sys2Proof.Claims.xaddLane (bump s) f (readFields s (if f.fn.getLsbD 3 then [f.vb.toNat] else [])).1))
      (vmRead (bump s) f.vm.toNat)
      (Sys2Proof.Claims.laneFlags (vmRead (bump s) f.vm.toNat)
        (Sys2Proof.Claims.xaddLane (bump s) f (readFields s (if f.fn.getLsbD 3 then [f.vb.toNat] else [])).1)) 4)))
  ∧ (∀ (f : VF) (s : State), canIssue (.vxcvt f) s = true → f.ty = 13 → ∃ t, exec (.vxcvt f) s = .next t ∧
    SlotDone s t (issuedOnly (Sys2Proof.Claims.pairResult (readFields s [f.va.toNat]).2 f.vd.toNat
      (Sys2Proof.Claims.pick (vmRead (bump s) f.vm.toNat) fun i =>
        convert .xf40 ((tyOf f.vc.toNat).getD .fp32) (rmOf f.rm) (f.sat == 1) (elem (readFields s [f.va.toNat]).1 0 i))
      (vmRead (bump s) f.vm.toNat)
      (Sys2Proof.Claims.laneFlags (vmRead (bump s) f.vm.toNat) fun i =>
        convert .xf40 ((tyOf f.vc.toNat).getD .fp32) (rmOf f.rm) (f.sat == 1) (elem (readFields s [f.va.toNat]).1 0 i)) 4)))
  ∧ (∀ (f : VF) (s : State), canIssue (.vxcvt f) s = true → f.ty ≠ 13 → ∃ t, exec (.vxcvt f) s = .next t ∧
    SlotDone s t (issuedOnly (vResult (curCore s) f.vd.toNat
      (Sys2Proof.Claims.laneValues (vmRead (bump s) f.vm.toNat) fun i =>
        convert (tyOfField f.ty) .xf40 (rmOf f.rm) (f.sat == 1) (pairElem (bump s) f.va.toNat i))
      (vmRead (bump s) f.vm.toNat)
      (Sys2Proof.Claims.laneFlags (vmRead (bump s) f.vm.toNat) fun i =>
        convert (tyOfField f.ty) .xf40 (rmOf f.rm) (f.sat == 1) (pairElem (bump s) f.va.toNat i)) 4)))
  ∧ (∀ (f : VF) (s : State), canIssue (.vexp2 f) s = true → f.ty = 13 → ∃ t, exec (.vexp2 f) s = .next t ∧
    SlotDone s t (issuedOnly (Sys2Proof.Claims.pairResult (readFields s [f.va.toNat]).2 f.vd.toNat
      (Sys2Proof.Claims.pick (vmRead (bump s) f.vm.toNat) fun i => exp2Xf (elem (readFields s [f.va.toNat]).1 0 i))
      (vmRead (bump s) f.vm.toNat)
      (Sys2Proof.Claims.laneFlags (vmRead (bump s) f.vm.toNat) fun i => exp2Xf (elem (readFields s [f.va.toNat]).1 0 i)) 8)))
  ∧ (∀ (f : VF) (s : State), canIssue (.vmov f) s = true → f.ty = 13 → ∃ t, exec (.vmov f) s = .next t ∧
    SlotDone s t (issuedOnly (Sys2Proof.Claims.pairResult (curCore s) f.vd.toNat (pairElem (bump s) f.va.toNat)
      (vmRead (bump s) f.vm.toNat) 0 2)))
  ∧ (∀ (f : VF) (s : State), canIssue (.vsel f) s = true → f.ty = 13 → ∃ t, exec (.vsel f) s = .next t ∧
    SlotDone s t (issuedOnly (Sys2Proof.Claims.pairResult (curCore s) f.vd.toNat (fun i =>
      pairElem (bump s) (if (vmRead (bump s) (f.fn.toNat % 8)).getLsbD i then f.va.toNat else f.vb.toNat) i)
      (vmRead (bump s) f.vm.toNat) 0 2)))

namespace Sys2Proof.Claims

/-- A reduction of the 64 lanes of the first source, in ascending order, from lane 0 of the second (R192). -/
def reduce (g : Nat → Nat → Nat × Flags) (v : List (List Lane)) : Nat × Flags :=
  (List.range 64).foldl (fun a i => ((g a.1 (elem v 0 i)).1, a.2 ||| (g a.1 (elem v 0 i)).2)) (elem v 1 0, 0)

/-- The reductions of R192. -/
def reductions : List ((VF → Instr) × (VF → Nat → Nat → Nat × Flags)) :=
  [(.vredsum, fun f acc x =>
      if tyIsInt (tyOfField f.ty) then
        intResult (tyOfField f.ty) (f.sat == 1) (intOf (tySigned (tyOfField f.ty)) 32 acc + intOf (tySigned (tyOfField f.ty)) 32 x)
      else add32 (rmOf f.rm) (decode .fp32 acc) (decode .fp32 x)),
   (.vredmax, fun f acc x => minMax (tyOfField f.ty) true acc x),
   (.vredmin, fun f acc x => minMax (tyOfField f.ty) false acc x)]

/-- The Welford step of lane i: count, mean and sum of squares in three registers, and the flags (R193). -/
def statLane (s : State) (f : VF) (v : List (List Lane)) (i : Nat) : (Nat × Nat × Nat) × Flags :=
  welford (lane (vRead s f.vd.toNat) i).toNat (lane (vRead s (f.vd.toNat + 1)) i).toNat
    (lane (vRead s (f.vd.toNat + 2)) i).toNat (elem v 0 i)

end Sys2Proof.Claims

/-- R188, R192, R193 and `vpack` of R205. -/
def Obligations.ReductionsComparesAndStatistics : Prop :=
  (∀ p ∈ Sys2Proof.Claims.reductions, ∀ (f : VF) (s : State), canIssue (p.1 f) s = true →
    ∃ t, exec (p.1 f) s = .next t ∧
      SlotDone s t (issuedOnly (vResult (readFields s [f.va.toNat, f.vc.toNat]).2 f.vd.toNat
        ((List.range 64).map fun _ =>
          BitVec.ofNat 32 (Sys2Proof.Claims.reduce (p.2 f) (readFields s [f.va.toNat, f.vc.toNat]).1).1)
        (vmRead (bump s) f.vm.toNat)
        (Sys2Proof.Claims.reduce (p.2 f) (readFields s [f.va.toNat, f.vc.toNat]).1).2 6)))
  ∧ (∀ (f : VF) (s : State), canIssue (.vcmp f) s = true → ∃ t m fl, exec (.vcmp f) s = .next t ∧
      SlotDone s t (withResult (readFields s [f.va.toNat, f.vb.toNat]).2
        { dest := if f.vd.toNat = 0 then .none else .vm f.vd.toNat, scalar := m, mask := vmRead (bump s) f.vm.toNat
          flags := fl, issued := (readFields s [f.va.toNat, f.vb.toNat]).2.clk
          bound := (readFields s [f.va.toNat, f.vb.toNat]).2.clk + 2 })
      ∧ fl = Sys2Proof.Claims.laneFlags (vmRead (bump s) f.vm.toNat) (fun i =>
          (0, (compareOp (tyOfField f.ty) f.fn.toNat (elem (readFields s [f.va.toNat, f.vb.toNat]).1 0 i)
            (elem (readFields s [f.va.toNat, f.vb.toNat]).1 1 i)).2))
      ∧ ∀ i, i < 64 → m.getLsbD i = ((vmRead (bump s) f.vm.toNat).getLsbD i
          && (compareOp (tyOfField f.ty) f.fn.toNat (elem (readFields s [f.va.toNat, f.vb.toNat]).1 0 i)
            (elem (readFields s [f.va.toNat, f.vb.toNat]).1 1 i)).1))
  ∧ (∀ (f : VF) (s : State), canIssue (.vstat f) s = true → ∃ t, exec (.vstat f) s = .next t ∧
      SlotDone s t (issuedOnly (
        let x := Sys2Proof.Claims.statLane (bump s) f (readFields s [f.va.toNat]).1
        let m := vmRead (bump s) f.vm.toNat
        let part := fun (p : Nat × Nat × Nat → Nat) =>
          (List.range 64).map fun i => if m.getLsbD i then BitVec.ofNat 32 (p (x i).1) else 0
        vResult (vResult (vResult (readFields s [f.va.toNat]).2 f.vd.toNat (part fun y => y.1) m
          (Sys2Proof.Claims.laneFlags m fun i => (0, (x i).2)) 6) (f.vd.toNat + 1) (part fun y => y.2.1) m 0 6)
          (f.vd.toNat + 2) (part fun y => y.2.2) m 0 6)))
  ∧ (∀ (f : VF) (s : State), canIssue (.vpack f) s = true → ∃ t m, exec (.vpack f) s = .next t ∧
      (∀ i, i < 64 → m.getLsbD i = ((vmRead (bump s) f.vm.toNat).getLsbD i
        && decide (f.fn.toNat * (64 / (32 / packWidth f.ty)) ≤ i)
        && decide (i < f.fn.toNat * (64 / (32 / packWidth f.ty)) + 64 / (32 / packWidth f.ty))))
      ∧ SlotDone s t (issuedOnly (vResult (readFields s [f.va.toNat]).2 f.vd.toNat
        (Sys2Proof.Claims.laneValues m fun i => ((List.range (32 / packWidth f.ty)).foldl (fun a k =>
          a + elem (readFields s [f.va.toNat]).1 0 (32 / packWidth f.ty * (i - f.fn.toNat * (64 / (32 / packWidth f.ty))) + k)
            % 2 ^ packWidth f.ty * 2 ^ (packWidth f.ty * k)) 0, 0)) m 0 2)))

/-- R198 to R200: what the scratchpad accesses of a vector slot deliver and store; R201: what `vamo` does at issue.
Where the manual leaves room, the reading is the model's own: log entries 16, 17 and 156. -/
def Obligations.VectorMemoryOperations : Prop :=
  ((∀ (f : VF) (s : State) (l : Loc), canIssue (.vld f) s = true →
    resolveLocal (bump s) s.core (vldAddr (bump s) f).toNat = .ok l → ∃ t, exec (.vld f) s = .next t ∧
      SlotDone s t (issuedOnly (vResult (curCore s) f.vd.toNat
        (Sys2Proof.Claims.laneValues (vmRead (bump s) f.vm.toNat) fun i =>
          (leNat (locRead (bump s) s.core (l.offset (ewBytes f.fn * i)) (ewBytes f.fn)), 0))
        (vmRead (bump s) f.vm.toNat) 0 (readBound s.core l))))
  ∧ (∀ (f : VF) (s : State) (l : Loc), canIssue (.vst f) s = true →
    resolveLocal (bump s) s.core (vldAddr (bump s) f).toNat = .ok l →
    (∀ c, c = (runsOf (selected (vmRead (bump s) f.vm.toNat))).foldl (fun c r =>
        storedAt c s.core (l.offset (ewBytes f.fn * r.1)) ((List.range r.2).flatMap fun j =>
          leBytes (ewBytes f.fn) (elem (readFields s [f.vd.toNat]).1 0 (r.1 + j)))) (issuedOnly (readFields s [f.vd.toNat]).2) →
      overflowed c = false → ∃ t, exec (.vst f) s = .next t ∧ StoreDone s t c))
  ∧ (∀ m : Word, (runsOf (selected m)).flatMap (fun r => (List.range r.2).map (r.1 + ·)) = selected m)
  ∧ (∀ (f : VF) (s : State), canIssue (.vgth f) s = true → ∃ t, exec (.vgth f) s = .next t ∧
      SlotDone s t (issuedOnly (
        let place := gthLoc (bump s) (sRead (bump s) f.va.toNat) ((readFields s [f.vb.toNat]).1.getD 0 [])
        vResult (readFields s [f.vb.toNat]).2 f.vd.toNat
          (Sys2Proof.Claims.laneValues (vmRead (bump s) f.vm.toNat) fun i =>
            (leNat (locRead (bump s) s.core (place i) (ewBytes f.fn)), 0))
          (vmRead (bump s) f.vm.toNat) 0
          ((selected (vmRead (bump s) f.vm.toNat)).foldl (fun b i => Nat.max b (readBound s.core (place i))) 4))))
  ∧ (∀ (f : VF) (s : State), canIssue (.vsct f) s = true →
    (∀ c, c = (selected (vmRead (bump s) f.vm.toNat)).foldl (fun c i => storedAt c s.core
        (gthLoc (bump s) (sRead (bump s) f.va.toNat) ((readFields s [f.vb.toNat, f.vd.toNat]).1.getD 0 []) i)
        (leBytes (ewBytes f.fn) (elem (readFields s [f.vb.toNat, f.vd.toNat]).1 1 i)))
        (issuedOnly (readFields s [f.vb.toNat, f.vd.toNat]).2) →
      overflowed c = false → ∃ t, exec (.vsct f) s = .next t ∧ StoreDone s t c)))
  ∧ (∀ (f : VF) (s : State), canIssue (.vamo f) s = true →
    (selected (vmRead (bump s) f.vm.toNat) = [] → ∃ t, exec (.vamo f) s = .next t ∧
      SlotDone s t (issuedOnly (readFields s [f.vb.toNat, f.vc.toNat]).2))
    ∧ (selected (vmRead (bump s) f.vm.toNat) ≠ [] → ∀ e, freeIndex (curCore s).atomics 16 = some e →
      ∃ t, exec (.vamo f) s = .next t ∧
        SlotDone s t (issuedOnly (let c := (readFields s [f.vb.toNat, f.vc.toNat]).2
          { c with
            atomics := c.atomics.insert e
              { addr := sRead (bump s) f.va.toNat, kind := 2, sz := 2, aop := f.fn.toNat, ty := f.ty.toNat, rm := f.rm.toNat
                mask := vmRead (bump s) f.vm.toNat, vb := (readFields s [f.vb.toNat, f.vc.toNat]).1.getD 0 []
                vc := (readFields s [f.vb.toNat, f.vc.toNat]).1.getD 1 [], seq0 := c.tagSeq }
            ord := c.ord ++ [0x60 + e]
            tagSeq := (c.tagSeq + (selected (vmRead (bump s) f.vm.toNat)).length) % 2 ^ 40 }))))

namespace Sys2Proof.Claims

/-- Lane k of the 128 lanes of two vectors put together: lanes 0 to 63 of the first, then those of the second. -/
def twoLanes (v : List (List Lane)) (k : Nat) : Nat := if k < 64 then elem v 0 k else elem v 1 (k - 64)

end Sys2Proof.Claims

/-- R194 and R197, whole: permutes and slides. -/
def Obligations.PermutesAndSlidesPickTheirLanes : Prop :=
  (∀ (f : VF) (s : State), canIssue (.vperm f) s = true → ∃ t, exec (.vperm f) s = .next t ∧
    SlotDone s t (issuedOnly (vResult (readFields s [f.va.toNat, f.vb.toNat, f.vc.toNat]).2 f.vd.toNat
      (Sys2Proof.Claims.laneValues (vmRead (bump s) f.vm.toNat) fun i =>
        (Sys2Proof.Claims.twoLanes (readFields s [f.va.toNat, f.vb.toNat, f.vc.toNat]).1
          (elem (readFields s [f.va.toNat, f.vb.toNat, f.vc.toNat]).1 2 i % 2 ^ 7), 0))
      (vmRead (bump s) f.vm.toNat) 0 4)))
  ∧ (∀ (f : VF) (s : State), canIssue (.vslide f) s = true → ∃ t, exec (.vslide f) s = .next t ∧
    SlotDone s t (issuedOnly (vResult (readFields s [f.va.toNat, f.vb.toNat]).2 f.vd.toNat
      (Sys2Proof.Claims.laneValues (vmRead (bump s) f.vm.toNat) fun i =>
        (Sys2Proof.Claims.twoLanes (readFields s [f.va.toNat, f.vb.toNat]).1 (i + f.fn.toNat), 0))
      (vmRead (bump s) f.vm.toNat) 0 2)))
  ∧ (∀ (f : VF) (s : State), canIssue (.vslide f) s = true → f.fn = 0 → ∃ t, exec (.vslide f) s = .next t ∧
    SlotDone s t (issuedOnly (vResult (readFields s [f.va.toNat, f.vb.toNat]).2 f.vd.toNat
      (Sys2Proof.Claims.laneValues (vmRead (bump s) f.vm.toNat) fun i => (elem (readFields s [f.va.toNat, f.vb.toNat]).1 0 i, 0))
      (vmRead (bump s) f.vm.toNat) 0 2)))
  ∧ (∀ (f : VF) (s : State) (k : Nat), canIssue (.vslide f) s = true → 0 < k → k < 64 → f.fn.toNat = 64 - k →
    ∃ t, exec (.vslide f) s = .next t ∧
      SlotDone s t (issuedOnly (vResult (readFields s [f.va.toNat, f.vb.toNat]).2 f.vd.toNat
        (Sys2Proof.Claims.laneValues (vmRead (bump s) f.vm.toNat) fun i =>
          (if k ≤ i then elem (readFields s [f.va.toNat, f.vb.toNat]).1 1 (i - k)
           else elem (readFields s [f.va.toNat, f.vb.toNat]).1 0 (64 - k + i), 0))
        (vmRead (bump s) f.vm.toNat) 0 2)))

namespace Sys2Proof.Claims

/-- The M-slot operations that become commands: constructor, operation number (R134), and whether the command
takes s[sa] or the lanes of v[sa] and v[sa+1] with it. -/
def matrixCommands : List ((MF → Instr) × Nat × Bool × Bool) :=
  [(.mcall, 1, false, false), (.mzero, 3, false, false), (.mdrain, 4, true, false), (.mmode, 5, false, false),
   (.mgsel, 6, false, true), (.mwr, 7, true, false)]

end Sys2Proof.Claims

/-- R208, R221 and R225: what the M-slot operations do when they issue. Where the manual leaves room, the reading is
the model's own: log entries 21 and 47. -/
def Obligations.MatrixOperationsJoinTheQueue : Prop :=
  (∀ p ∈ Sys2Proof.Claims.matrixCommands, ∀ (f : MF) (s : State), canIssue (p.1 f) s = true →
    ∃ t, exec (p.1 f) s = .next t ∧
      SlotDone s t { issuedOnly (curCore s) with mqueue := (curCore s).mqueue ++
        [{ op := p.2.1, form := f, sval := if p.2.2.1 then sRead (bump s) f.sa.toNat else 0
           veca := if p.2.2.2 then vRead (bump s) f.sa.toNat else []
           vecb := if p.2.2.2 then vRead (bump s) (f.sa.toNat + 1) else []
           mps := (curCore s).mp, issued := (curCore s).clk, hazard := hazards (curCore s) }] })
  ∧ (∀ (f : MF) (s : State), canIssue (.mpset f) s = true → ∃ t, exec (.mpset f) s = .next t ∧
      SlotDone s t { issuedOnly (curCore s) with
        mp := (curCore s).mp.put 0 f.mp.toNat (sRead (bump s) f.sa.toNat) })
  ∧ (∀ (f : MF) (s : State), canIssue (.mwait f) s = true →
    ∃ t, exec (.mwait f) s = .next t ∧ SlotDone s t (issuedOnly (curCore s)))
  ∧ (∀ (f : MF) (s : State), canIssue (.mrsum f) s = true → ∃ t, exec (.mrsum f) s = .next t ∧
      SlotDone s t (vResult (curCore s) f.sa.toNat
        ((List.range 64).map fun k => (if f.imm.getLsbD 0 then (curCore s).colSum else (curCore s).rowSum).get 0
          (k + if f.imm.getLsbD 1 then 64 else 0)) (BitVec.allOnes 64) 0 4))

namespace Sys2Proof.Claims

/-- Command m at position n of core k's matrix queue has come to r, the unit goes on, and no stream's release waits. -/
def Started (s : State) (k n : Nat) (m : MatrixCmd) (r : MatrixRun) : Prop :=
  (coreOf s k).status ≠ .frozen ∧ (coreOf s k).matrixFault = false ∧ (coreOf s k).mqueue[n]? = some m ∧ m.run = some r
    ∧ ∀ i, (streamOf (coreOf s k) i).freeing = false

/-- MATRIX_COMMAND_FINISH of command n of core k answers a state in which the command has left the queue and the core is else
as c says; its meter has been charged, and nothing else has changed. -/
def Finishes (s : State) (k n : Nat) (c : Core → Core) : Prop :=
  ∃ t, exec (.matrixCommandFinish k n) s = .next t ∧
    CoreDone (chargeCore (bump s) k) t k (c { coreOf s k with mqueue := (coreOf s k).mqueue.eraseIdx n })

/-- Cell (i, j) of a bank. -/
def cellOf (b : Bank) (i j : Nat) : Nat := (b.cells.get 0 (128 * i + j)).toNat

/-- A bank without an incomplete block (R52). -/
def Closed (b : Bank) : Prop := b.open_ = [] ∧ b.openInt = []

/-- The bank u is b with every incomplete block added to its cell (R52, R54). -/
def BlocksAdded (b u : Bank) : Prop :=
  u.open_ = [] ∧ u.openInt = [] ∧ u.kind = b.kind ∧ u.count = b.count ∧ ∀ i j, i < 128 → j < 128 →
    u.cells.get 0 (128 * i + j) = match b.open_.find? (128 * i + j), b.openInt.find? (128 * i + j) with
      | some p, _ => BitVec.ofNat 32 (add32 .rne (decode .fp32 (cellOf b i j)) p).1
      | none, some x => BitVec.ofNat 32 (intToInt .int32 b.openSat (signedOf 32 (cellOf b i j) + x)).1
      | none, none => b.cells.get 0 (128 * i + j)

/-- What a drain makes of cell (i, j): the cell converted with saturation under the rounding mode of bits 6:5, by the kind of
its bank, or requantised with the scale and the zero point of column j (R223, R385). -/
def drained (c : Core) (m : MatrixCmd) (i j : Nat) : Nat :=
  let x := cellOf (bankOf c m.form.bank.toNat) i j
  let ty := (tyOf m.form.ty.toNat).getD .fp32
  let mp := (m.mps.get 0 m.form.mp.toNat).toNat
  let table := fun (o : Nat) => signedOf 32 (leNat (hazardReadN c.spm m.hazard (ownOffset (mp % 2 ^ 32) + o + 4 * j) 4))
  if m.form.imm.getLsbD 4 then (requant ty (signedOf 32 x) (table 0) (mp / 2 ^ 32 % 64) (table 512)).1
  else (cvt ty (match (bankOf c m.form.bank.toNat).kind with
    | .int32 => .int32
    | .idx => .uint32
    | _ => .fp32) (rmOf (BitVec.ofNat 2 (m.form.imm.toNat / 32))) true x).1

end Sys2Proof.Claims

/-- R209 to R217 and R222 to R224: a command starts, and what finished commands leave. Where the manual leaves room,
the reading is the model's own: log entries 40 and 169. -/
def Obligations.MatrixCommandsStartAndFinish : Prop :=
  (∀ (k n : Nat) (m : MatrixCmd) (s : State), (coreOf s k).status ≠ .frozen → (coreOf s k).matrixFault = false →
    firstWaiting (coreOf s k) = some (n, m) → mayStart (coreOf s k) n m = true → cmdFault (bump s) k m = none →
    ∃ t, exec (.matrixCommandStart k) s = .next t ∧
      CoreDone (bump s) t k { coreOf s k with
        mqueue := (coreOf s k).mqueue.set n { m with run := some { pc := routine (coreOf s k) m.form.imm.toNat } } })
  ∧ (∀ (k n : Nat) (m : MatrixCmd) (r : MatrixRun) (s : State), Sys2Proof.Claims.Started s k n m r →
    (m.op = 3 → Sys2Proof.Claims.Finishes s k n fun c => { c with
      acc0 := if m.form.bank = 0 then {} else c.acc0, acc1 := if m.form.bank = 0 then c.acc1 else {} })
    ∧ (m.op = 5 → ∃ a0 a1,
      (if m.form.imm.getLsbD 0 = (coreOf s k).mmode.blk8 then a0 = (coreOf s k).acc0 ∧ a1 = (coreOf s k).acc1
       else (Sys2Proof.Claims.Closed (coreOf s k).acc0 ∧ a0 = (coreOf s k).acc0 ∨ Sys2Proof.Claims.BlocksAdded (coreOf s k).acc0 a0)
        ∧ (Sys2Proof.Claims.Closed (coreOf s k).acc1 ∧ a1 = (coreOf s k).acc1 ∨ Sys2Proof.Claims.BlocksAdded (coreOf s k).acc1 a1))
      ∧ ∃ fl, Sys2Proof.Claims.Finishes s k n fun c => { c with
        acc0 := a0, acc1 := a1, astat := astatMerge c.astat fl
        mmode := { blk8 := m.form.imm.getLsbD 0, satInt := m.form.imm.getLsbD 1, aSigned := m.form.imm.getLsbD 2
                   bSigned := m.form.imm.getLsbD 3, capture := m.form.imm.getLsbD 4 }
        rowSum := if m.form.imm.getLsbD 4 then [] else c.rowSum
        colSum := if m.form.imm.getLsbD 4 then [] else c.colSum })
    ∧ (m.op = 6 → ((lanes64 m.veca ++ lanes64 m.vecb).any fun l => (coreOf s k).spm.poisoned (ownOffset l.toNat) 256) = false →
      ∃ latch : FMap Byte, (∀ row i, row < 128 → i < 256 → latch.get 0 (256 * row + i)
          = hazardRead (coreOf s k).spm m.hazard (ownOffset ((lanes64 m.veca ++ lanes64 m.vecb).getD row 0).toNat + i))
        ∧ Sys2Proof.Claims.Finishes s k n fun c => { c with latch := latch, latchPos := 0 })
    ∧ (m.op = 7 → ∀ first count src : Nat, first = m.sval.toNat / 2 ^ 32 % 8192 → count = m.sval.toNat / 2 ^ 45 % 512 + 1 →
      src = ownOffset (m.sval.toNat % 2 ^ 32) → (coreOf s k).spm.poisoned src (8 * count) = false →
      ∃ (mw : FMap Word) (dir : FMap (BitVec 13)),
        Sys2Proof.Claims.Finishes s k n (fun c => { c with microwords := mw, directory := dir })
        ∧ (if m.sval.toNat / 2 ^ 62 = 0
           then dir = (coreOf s k).directory
            ∧ (∀ i, i < count → mw.get microEnd (first + i)
              = BitVec.ofNat 64 (leNat (hazardReadN (coreOf s k).spm m.hazard (src + 8 * i) 8)))
            ∧ ∀ i, i < first ∨ first + count ≤ i → mw.get microEnd i = (coreOf s k).microwords.get microEnd i
           else mw = (coreOf s k).microwords
            ∧ (∀ i, i < count → dir.get 4095 (first + i)
              = BitVec.ofNat 13 (leNat (hazardReadN (coreOf s k).spm m.hazard (src + 8 * i) 8)))
            ∧ ∀ i, i < first ∨ first + count ≤ i → dir.get 4095 i = (coreOf s k).directory.get 4095 i)))
  ∧ (∀ (k n : Nat) (m : MatrixCmd) (r : MatrixRun) (s : State), Sys2Proof.Claims.Started s k n m r → m.op = 4 →
    (m.form.imm.getLsbD 4 = true →
      (coreOf s k).spm.poisoned (ownOffset ((m.mps.get 0 m.form.mp.toNat).toNat % 2 ^ 32)) 1024 = false) →
    Sys2Proof.Claims.Closed (bankOf (coreOf s k) m.form.bank.toNat) →
    (∀ w pitch base : Nat, m.form.imm.getLsbD 0 = false → w = tyWidth ((tyOf m.form.ty.toNat).getD .fp32) →
      pitch = drainPitch m → 16 * w ≤ pitch → base = ownOffset (m.sval.toNat % 2 ^ 32) →
      ∃ t, exec (.matrixCommandFinish k n) s = .next t ∧ (coreOf t k).mqueue = (coreOf s k).mqueue.eraseIdx n
        ∧ (∀ i j, i < 128 → j < 128 → leNat ((coreOf t k).spm.readN (base + i * pitch) (16 * w)) / 2 ^ (w * j) % 2 ^ w
          = Sys2Proof.Claims.drained (coreOf s k) m i j % 2 ^ w)
        ∧ (∀ a, (∀ i, i < 128 → a < base + i * pitch ∨ base + i * pitch + 16 * w ≤ a) →
          (coreOf t k).spm.read a = (coreOf s k).spm.read a)
        ∧ (∀ j, j ≠ k → (coreOf t j).spm = (coreOf s j).spm) ∧ t.mem = s.mem
        ∧ (coreOf t k).acc0 = (coreOf s k).acc0 ∧ (coreOf t k).acc1 = (coreOf s k).acc1)
    ∧ (∀ (u : State) (g : Nat), m.form.imm.getLsbD 0 = true →
      drainPush (setCore (chargeCore (bump s) k) k (coreOf s k)) k m ((List.range 128).flatMap fun i => (drainRow (coreOf s k) m i).1)
        (m.form.imm.toNat / 2 % 8) r.rows 512 = (u, g) → (∀ i, (streamOf (coreOf u k) i).freeing = false) →
      ∃ t, exec (.matrixCommandFinish k n) s = .next t ∧ (coreOf t k).spm = (coreOf u k).spm
        ∧ (coreOf t k).mqueue = (if 2048 * tyWidth ((tyOf m.form.ty.toNat).getD .fp32) ≤ 256 * g then (coreOf u k).mqueue.eraseIdx n
          else (coreOf u k).mqueue.set n { m with run := some { r with rows := g } })))
  ∧ (∀ (k n : Nat) (m : MatrixCmd) (r r' : MatrixRun) (s : State) (c' : Core), Sys2Proof.Claims.Started s k n m r → m.op = 1 →
    (∀ i, (streamOf c' i).freeing = false) →
    (runRoutine (chargeCore (bump s) k) m (coreOf s k) r 4096 = .done c' r' → ∃ t, exec (.matrixCommandFinish k n) s = .next t ∧
      CoreDone (chargeCore (bump s) k) t k { c' with mqueue := c'.mqueue.eraseIdx n, astat := astatMerge c'.astat r'.flags })
    ∧ (runRoutine (chargeCore (bump s) k) m (coreOf s k) r 4096 = .wait c' r' → ∃ t, exec (.matrixCommandFinish k n) s = .next t ∧
      CoreDone (chargeCore (bump s) k) t k { c' with mqueue := c'.mqueue.set n { m with run := some r' } }))
  ∧ (∀ (k n : Nat) (m : MatrixCmd) (r : MatrixRun) (s : State) (c : Core) (w : Nat) (x : StepWord) (ga gb : List Byte),
    Sys2Proof.Claims.Started s k n m r → m.op = 1 → c = coreOf s k → r.kdone = 0 → r.loops = [] → r.pc < 8191 →
    w = microword c r.pc → w / 2 ^ 60 = 0 → x = stepWord w → microword c (r.pc + 1) = microEnd.toNat →
    stepBad c m.form.bank.toNat w = false → typePair x.aty x.bty = some (1, .fp32) → x.cop = 0 → x.kcnt = 1 →
    x.aScaled = false → x.bScaled = false → x.asrc < 8 → x.bsrc < 8 → c.mmode.blk8 = false →
    sourceReady c x.asrc = some true → sourceReady c x.bsrc = some true →
    headPoisoned c x.asrc = false → headPoisoned c x.bsrc = false →
    ga = (streamPop c x.asrc).1 → gb = (streamPop (streamPop c x.asrc).2 x.bsrc).1 →
    ∃ t, exec (.matrixCommandFinish k n) s = .next t ∧ (coreOf t k).mqueue = c.mqueue.eraseIdx n
      ∧ bankOf (coreOf t k) (1 - m.form.bank.toNat) = bankOf c (1 - m.form.bank.toNat)
      ∧ (bankOf (coreOf t k) m.form.bank.toNat).kind = .fp32
      ∧ (bankOf (coreOf t k) m.form.bank.toNat).count = (bankOf c m.form.bank.toNat).count + 1
      ∧ ∀ i j, i < 128 → j < 128 → Sys2Proof.Claims.cellOf (bankOf (coreOf t k) m.form.bank.toNat) i j
        = (BitVec.ofNat 32 (add32 .rne (decode .fp32 (Sys2Proof.Claims.cellOf (bankOf c m.form.bank.toNat) i j))
            (mulExact (mulExact (decode ((tyOf x.aty).getD .fp32) (numAt ga (2 * i) 2)) (ofInt 1)).1
              (mulExact (decode ((tyOf x.bty).getD .fp32) (numAt gb (2 * j) 2)) (ofInt 1)).1).1).1).toNat)
  ∧ (∀ (s : State) (c : Core) (m : MatrixCmd) (r : MatrixRun) (w last count : Nat), r.pc ≤ 8191 → w = microword c r.pc →
    last = w % 8192 → count = (if w / 2 ^ 56 % 2 = 1 then (m.mps.get 0 (w / 2 ^ 57 % 8)).toNat % 65536 else w / 2 ^ 32 % 65536 + 1) →
    (w / 2 ^ 60 = 1 → w / 2 ^ 48 % 256 = 0 → w / 2 ^ 13 % 2 ^ 19 = 0 → r.pc ≤ last → r.loops = [] →
      microStep s c m r = .next c (if count = 0 ∨ last = r.pc then { r with pc := last + 1, loops := [] }
        else { r with pc := r.pc + 1, loops := [(r.pc + 1, last, count)] }))
    ∧ (w / 2 ^ 60 = 2 → w / 2 ^ 48 % 128 = 0 → w % 2 ^ 32 = 0 → r.loops = [] → advSource c m r (w / 2 ^ 55 % 2 == 1) = 8 →
      ∀ p : Nat, p ≤ 128 → (p : Int) = (c.latchPos : Int)
        + signedOf 16 (if w / 2 ^ 56 % 2 = 1 then (m.mps.get 0 (w / 2 ^ 57 % 8)).toNat % 65536 else w / 2 ^ 32 % 65536) →
      microStep s c m r = .next { c with latchPos := p } { r with pc := r.pc + 1, loops := [], kdone := 0 }))
  ∧ (∀ (first last n : Nat) (rest : List (Nat × Nat × Nat)), afterWord last ((first, last, n) :: rest)
    = if 1 < n then (first, (first, last, n - 1) :: rest) else afterWord last rest)

namespace Sys2Proof.Claims

/-- The copies of the C slots: constructor and operation number (R138). -/
def copyOps : List ((CF → Instr) × Nat) :=
  [(.cp, 1), (.cpm, 2), (.cpg, 3), (.cps, 4), (.cpa, 5), (.sqfill, 13)]

/-- A core whose copy of operation op has entered entry e of the in-flight record: the channel's next transfer id used, the
scales of an `sqfill` reserved. -/
def copyEntered (s : State) (op : Nat) (f : CF) (e : Nat) : Core :=
  let c := curCore s
  let ch := if s.slot = 5 then 1 else 0
  let id := if ch = 0 then c.nextId0 else c.nextId1
  let b := cdOf (bump s) f.cd.toNat
  { c with
    copies := c.copies.insert e { desc := b, id := id, op := op, f := f.f == 1, channel := ch, tag0 := c.tagSeq
                                  list := (sRead (bump s) f.sy.toNat).toNat % 2 ^ 32, issued := c.clk, hazard := hazards c }
    ord := c.ord ++ [e], copyPos := (e + 1) % 32
    nextId0 := if ch = 0 then id + 1 else c.nextId0
    nextId1 := if ch = 0 then c.nextId1 else id + 1
    sq := if op = 13 then c.sq ++ [SqItem.hole ch id (copyDesc b).count none] else c.sq }

/-- The state in which a copy of the current core has entered entry e. -/
def copyState (s : State) (op : Nat) (f : CF) (e : Nat) : State := setCore (bump s) s.core (copyEntered s op f e)

/-- The copy that has entered entry e. -/
def copyAt (s : State) (op : Nat) (f : CF) (e : Nat) : CopyEntry := (copyEntered s op f e).copies.get {} e

end Sys2Proof.Claims

/-- R227 and R235 to R241: the operations on descriptors, rings and streams. Where the manual leaves room, the reading
is the model's own: log entries 46, 166 and 167. -/
def Obligations.RingsStreamsAndDescriptors : Prop :=
  (∀ (f : CF) (s : State), canIssue (.cdld f) s = true → ∃ t, exec (.cdld f) s = .next t ∧
    SlotDone s t { issuedOnly (curCore s) with
      cd := (curCore s).cd.put [] f.cd.toNat (cdOf (bump s) f.cd.toNat)
      cdNew := (curCore s).cdNew.put [] f.cd.toNat
        ((curCore s).spm.readN (ownOffset ((sRead (bump s) f.sy.toNat).toNat % 2 ^ 32)) 64)
      cdReady := (curCore s).cdReady.put 0 f.cd.toNat ((curCore s).clk + 4) })
  ∧ (∀ (f : CF) (s : State), canIssue (.cpw f) s = true →
    ∃ t, exec (.cpw f) s = .next t ∧ SlotDone s t (issuedOnly (curCore s)))
  ∧ (∀ (f : CF) (s : State), canIssue (.rgcfg f) s = true → ∃ t, exec (.rgcfg f) s = .next t ∧
    SlotDone s t { issuedOnly (curCore s) with
      ring := (curCore s).ring.put {} f.rg.toNat (ringConfig (sRead (bump s) f.sy.toNat).toNat) })
  ∧ (∀ (f : CF) (s : State), canIssue (.rgpost f) s = true → ∃ t, exec (.rgpost f) s = .next t ∧
    SlotDone s t { issuedOnly (curCore s) with
      ring := (curCore s).ring.put {} f.rg.toNat (let r := (curCore s).ring.get {} f.rg.toNat
        let n := (sRead (bump s) f.sy.toNat).toNat
        { r with free := r.free - n, filled := r.filled + n, wp := (r.wp + n) % (r.ns + 1) }) })
  ∧ (∀ (f : CF) (s : State), canIssue (.rgfree f) s = true → ∃ t, exec (.rgfree f) s = .next t ∧
    SlotDone s t { issuedOnly (curCore s) with
      ring := (curCore s).ring.put {} f.rg.toNat (let r := (curCore s).ring.get {} f.rg.toNat
        let n := (sRead (bump s) f.sy.toNat).toNat
        { r with free := r.free + n, filled := r.filled - n, rp := (r.rp + n) % (r.ns + 1) }) })
  ∧ (∀ (f : CF) (s : State), canIssue (.sbind f) s = true → ∃ t, exec (.sbind f) s = .next t ∧
    SlotDone s t { issuedOnly (curCore s) with
      stream := (curCore s).stream.put {} f.st.toNat
        { patternOf ((curCore s).spm.readN (ownOffset ((sRead (bump s) f.sy.toNat).toNat % 2 ^ 32)) 32) f.rg.toNat with
          usableAt := (curCore s).clk + 4 } })
  ∧ (∀ (f : CF) (s : State), canIssue (.sfree f) s = true →
    ((streamOf (curCore s) f.st.toNat).bound = false →
      ∃ t, exec (.sfree f) s = .next t ∧ SlotDone s t (issuedOnly (curCore s)))
    ∧ ((streamOf (curCore s) f.st.toNat).bound = true → (streamOf (curCore s) f.st.toNat).slot = none →
      queueUses (curCore s) f.st.toNat (curCore s).mqueue = false →
      (curCore s).pending.any (fun p => p.dest == Dest.push f.st.toNat && !p.landed) = false →
      ∃ t, exec (.sfree f) s = .next t ∧
        SlotDone s t { issuedOnly (curCore s) with stream := ((curCore s).stream.put {} f.st.toNat {}) }))

namespace Sys2Proof.Claims

/-- Copy entry e of core k may go on (R114, R229, R236): issued by a C slot, not faulted, its ring slot there where it has
one, behind no earlier copy of its channel that writes the same bytes, on a core that is not frozen and replays nothing. -/
def Moves (s : State) (k e : Nat) (x : CopyEntry) : Prop :=
  (coreOf s k).copies.find? e = some x ∧ (coreOf s k).status ≠ .frozen ∧ (coreOf s k).replay = [] ∧ (coreOf s k).replayed = []
    ∧ x.faulted = false ∧ x.bySeq = false ∧ x.tile = none ∧ ((copyDesc x.desc).rmode ≠ 0 → x.slot.isSome = true)
    ∧ behindCopy (bump s) k e x = false

/-- Core k after its copy in entry e has completed: the entry left, its id done, its ring slot posted or freed (R234, R238). -/
def copyLeft (c : Core) (e : Nat) (x : CopyEntry) : Core := idDone (settleSlot (dropCopy c e) x) x.channel x.id

/-- A unit between scratchpads whose ports answer core k: where it reads and where it writes. -/
def Between (s : State) (k : Nat) (m : Move) (i a j b : Nat) : Prop :=
  m.src = .spm i a ∧ m.dst = .spm j b ∧ m.nib = none ∧ portDead s k i = false ∧ portDead s k j = false

/-- Does a unit write byte b of core j's scratchpad? -/
def writesByte (m : Move) (j b : Nat) : Bool :=
  match m.dst with
  | .spm i o => i == j && decide (o ≤ b) && decide (b < o + m.n)
  | _ => false

/-- A byte of a scratchpad as a copy of core k in entry x finds it: of its own without the stores whose bound had not passed
at its issue (R115). -/
def sourceByte (s : State) (k : Nat) (x : CopyEntry) (i a : Nat) : Byte :=
  if i = k then hazardRead (coreOf s i).spm x.hazard a else (coreOf s i).spm.read a

end Sys2Proof.Claims

/-- R228 to R234: copies issued; R218, R228 to R234, R236 and R238: copies complete; a wait that finds nothing to
take, and one that ends. Where the manual leaves room, the reading is the model's own: log entries 9 and 45. -/
def Obligations.CopiesEnterWaitAndComplete : Prop :=
  (∀ p ∈ Sys2Proof.Claims.copyOps, ∀ (f : CF) (s u : State) (e : Nat) (x : CopyEntry), canIssue (p.1 f) s = true →
    freeCopyEntry (curCore s) (curCore s).copyPos 32 = some e →
    u = Sys2Proof.Claims.copyState s p.2 f e → x = Sys2Proof.Claims.copyAt s p.2 f e →
    ((copyDesc (cdOf (bump s) f.cd.toNat)).rmode = 0 → replaysByLine u s.core x = false → ∃ t, exec (p.1 f) s = .next t ∧
      SlotDone s t (sResult (Sys2Proof.Claims.copyEntered s p.2 f e) f.sx.toNat
        (BitVec.ofNat 64 (nextId (curCore s) (if s.slot = 5 then 1 else 0))) 1))
    ∧ ((copyDesc (cdOf (bump s) f.cd.toNat)).rmode = 0 → replaysByLine u s.core x = true → ∃ t, exec (p.1 f) s = .next t ∧
      SlotDone s t (sResult (let c := Sys2Proof.Claims.copyEntered s p.2 f e
          { c with
            copies := c.copies.insert e { x with cls := 1 }
            tagSeq := ((curCore s).tagSeq + (lineRuns (placed 0 (slotMoves u s.core x))).length) % 2 ^ 40 }) f.sx.toNat
        (BitVec.ofNat 64 (nextId (curCore s) (if s.slot = 5 then 1 else 0))) 1))
    ∧ ((copyDesc (cdOf (bump s) f.cd.toNat)).rmode ≠ 0 → ∃ t, exec (p.1 f) s = .next t ∧
      CoreDone (takeSlots u s.core e) t s.core
        (sResult (coreOf (takeSlots u s.core e) s.core)
          f.sx.toNat (BitVec.ofNat 64 (nextId (curCore s) (if s.slot = 5 then 1 else 0))) 1)))
  ∧ ((∀ (k e : Nat) (x : CopyEntry) (s u : State), Sys2Proof.Claims.Moves s k e x → x.op = 1 ∨ x.op = 3 ∨ x.op = 4 → x.cls ≠ 1 →
    runMoves k x.hazard (fun _ _ _ => none) (bump s) {} (unitsLeft (placed 0 (slotMoves (bump s) k x)) x) = (u, .all) →
    parkedWrites u (vfOfCore u k) = false →
    ∃ t, exec (.copyComplete k e .toEnd) s = .next t ∧ CoreDone u t k (Sys2Proof.Claims.copyLeft (coreOf u k) e x))
  ∧ (∀ (k e : Nat) (x : CopyEntry) (s : State) (l : List Move), Sys2Proof.Claims.Moves s k e x →
    x.op = 1 ∨ x.op = 3 ∨ x.op = 4 → x.cls ≠ 1 → x.done = 0 → x.early = [] → l = slotMoves (bump s) k x →
    replaysByLine (bump s) k x = false → (∀ m ∈ l, ∃ i a j b, Sys2Proof.Claims.Between s k m i a j b) →
    ∃ t, exec (.copyComplete k e .toEnd) s = .next t ∧ (coreOf t k).copies.find? e = none ∧ t.mem = s.mem
      ∧ (∀ (j b : Nat), (∀ m ∈ l, Sys2Proof.Claims.writesByte m j b = false) → (coreOf t j).spm.read b = (coreOf s j).spm.read b)
      ∧ (∀ (p : Nat) (m : Move) (i a j b o : Nat), l[p]? = some m → Sys2Proof.Claims.Between s k m i a j b → o < m.n →
        (∀ (q : Nat) (m' : Move), q ≠ p → l[q]? = some m' → Sys2Proof.Claims.writesByte m' j (b + o) = false) →
        (coreOf t j).spm.read (b + o) = Sys2Proof.Claims.sourceByte s k x i (a + o)))
  ∧ (∀ (s : State) (k : Nat) (x : CopyEntry) (d : CopyDesc) (i j : Nat), d = copyDesc x.desc → x.op = 1 → d.rmode = 0 → d.nd = 1 →
    i < d.units.getD 0 0 → j < d.n.getD 1 0 →
    (let dense : Int := ((j * d.units.getD 0 0 + i) * unitBytes d.ty : Nat)
     let strided : Int := (i * unitBytes d.ty : Nat) + (j : Int) * d.d.getD 0 0
     (slotMoves s k x)[j * d.units.getD 0 0 + i]? = some
      { src := sidePlace s k d.src (if d.sdst then dense else strided)
        dst := sidePlace s k d.dst (if d.sdst then strided else dense), n := unitBytes d.ty }))
  ∧ (∀ (s : State) (k o va n : Nat) (hz : List (Nat × List Byte)) (en : TlbEntry),
    (∀ f ∈ s.vfs, f.2.dbEn = false ∧ f.2.tier = none ∧ f.2.hostSections = []) → (coreOf s k).tlb.find? (·.covers (vfOfCore s k) va) = some en →
    n = 1 ∨ n = 2 ∨ n = 4 ∨ n = 8 → va % n = 0 → va < 2 ^ 56 →
    (∃ u p, moveUnit s k hz { src := .glob va, dst := .spm k o, n := n } = .ok u p
      ∧ (coreOf u k).spm.readN o n = s.mem.readN (en.phys va) n ∧ u.mem = s.mem
      ∧ (∀ b, b < o ∨ o + n ≤ b → (coreOf u k).spm.read b = (coreOf s k).spm.read b)
      ∧ ∀ j, j ≠ k → (coreOf u j).spm = (coreOf s j).spm)
    ∧ (en.w = true →
      ∃ u p, moveUnit s k hz { src := .spm k o, dst := .glob va, n := n } = .ok u p
      ∧ u.mem.readN (en.phys va) n = hazardReadN (coreOf s k).spm hz o n
      ∧ (∀ b, b < en.phys va ∨ en.phys va + n ≤ b → u.mem.read b = s.mem.read b)
      ∧ ∀ j, (coreOf u j).spm = (coreOf s j).spm))
  ∧ (∀ (k e : Nat) (x : CopyEntry) (s : State), Sys2Proof.Claims.Moves s k e x → x.op = 2 → (copyDesc x.desc).rmode = 0 →
    x.data = none → x.delivered = [] → x.targets = [] →
    (∀ n ∈ (copyDesc x.desc).targets, ∃ j, physCore s (k / 192) (vfOfCore s k) n = some j ∧ portDead s k j = false) →
    (∀ m ∈ targetMoves (bump s) k x k none, ∃ i a b, Sys2Proof.Claims.Between s k m i a k b) →
    ∃ t, exec (.copyComplete k e .toEnd) s = .next t ∧ (coreOf t k).copies.find? e = none ∧ t.mem = s.mem
      ∧ (∀ (j b : Nat), (∀ n ∈ (copyDesc x.desc).targets, physCore s (k / 192) (vfOfCore s k) n ≠ some j) →
        (coreOf t j).spm.read b = (coreOf s j).spm.read b)
      ∧ (∀ (n j : Nat), n ∈ (copyDesc x.desc).targets → physCore s (k / 192) (vfOfCore s k) n = some j →
        (∀ b, (∀ m ∈ targetMoves (bump s) k x j none, Sys2Proof.Claims.writesByte m j b = false) →
          (coreOf t j).spm.read b = (coreOf s j).spm.read b)
        ∧ ∀ (p : Nat) (m : Move) (i a b o : Nat), (targetMoves (bump s) k x j none)[p]? = some m →
          Sys2Proof.Claims.Between s k m i a j b → o < m.n →
          (∀ (q : Nat) (m' : Move), q ≠ p → (targetMoves (bump s) k x j none)[q]? = some m' →
            Sys2Proof.Claims.writesByte m' j (b + o) = false) →
          (coreOf t j).spm.read (b + o) = Sys2Proof.Claims.sourceByte s k x i (a + o)))
  ∧ (∀ (k e : Nat) (x : CopyEntry) (s u : State) (fl : Flags), Sys2Proof.Claims.Moves s k e x → x.op = 5 → x.done = 0 →
    runLines k (fun s l => runAdds k x.hazard x.f s [] 0 l) x.tag0 (bump s) x.flags 0
      (lineRuns (placed 0 (slotMoves (bump s) k x))) = (u, fl, .all) →
    parkedWrites u (vfOfCore u k) = false →
    ∃ t, exec (.copyComplete k e .toEnd) s = .next t ∧
      CoreDone u t k { Sys2Proof.Claims.copyLeft (coreOf u k) e x with astat := astatMerge (coreOf u k).astat fl })
  ∧ (∀ (s : State) (k i a j b : Nat) (hz : List (Nat × List Byte)) (f : Bool) (mine : FMap Byte) (m : Move),
    Sys2Proof.Claims.Between s k m i a j b → m.n = 4 →
    ∃ u p fl, addUnit s k hz f mine m = (.ok u p, mine, fl)
      ∧ leNat ((coreOf u j).spm.readN b 4)
        = (let old := leNat ((coreOf s j).spm.readN b 4)
           let add := leNat (if i = k then hazardReadN (coreOf s i).spm hz a 4 else (coreOf s i).spm.readN a 4)
           if f then (old + add) % 2 ^ 32 else (add32 .rne (decodeFloat fmt32 old) (decodeFloat fmt32 add)).1 % 2 ^ 32)
      ∧ (∀ q, q < b ∨ b + 4 ≤ q → (coreOf u j).spm.read q = (coreOf s j).spm.read q)
      ∧ (∀ q, q ≠ j → (coreOf u q).spm = (coreOf s q).spm) ∧ u.mem = s.mem)
  ∧ (∀ (k e : Nat) (x : CopyEntry) (s : State), Sys2Proof.Claims.Moves s k e x → x.op = 13 →
    (∀ u ∈ unitOffsets (bump s) k x, ∃ i a, sidePlace (bump s) k (copyDesc x.desc).src u.1 = .spm i a ∧ portDead s k i = false) →
    ∃ t, exec (.copyComplete k e .toEnd) s = .next t ∧ (coreOf t k).copies.find? e = none ∧ t.mem = s.mem
      ∧ (∀ j, (coreOf t j).spm = (coreOf s j).spm)
      ∧ (coreOf t k).sq = (coreOf s k).sq.flatMap fun q => match q with
        | .hole ch id n data => if ch = x.channel ∧ id = x.id then (unitOffsets (bump s) k x).map fun u =>
            (match sidePlace (bump s) k (copyDesc x.desc).src u.1 with
              | .spm i a => if (coreOf s i).spm.poisoned a 1 then SqItem.bad (Sys2Proof.Claims.sourceByte s k x i a)
                else .scale (Sys2Proof.Claims.sourceByte s k x i a)
              | _ => .scale 0)
          else [.hole ch id n data]
        | y => [y])
  ∧ (∀ (k e : Nat) (x : CopyEntry) (s : State), (coreOf s k).copies.find? e = some x → (coreOf s k).status ≠ .frozen →
    (copyDesc x.desc).rmode = 0 → x.op ≠ 2 →
    ∃ t, exec (.ringWaitResume k e) s = .next t ∧ CoreDone (bump s) t k (coreOf s k))
  ∧ (∀ (k e i : Nat) (x : CopyEntry) (r : Ring) (s : State), (coreOf s k).copies.find? e = some x →
    (coreOf s k).status ≠ .frozen → (copyDesc x.desc).rmode = 1 → x.op ≠ 2 → x.bySeq = false → x.slot = none →
    (askSlot (ringOf (coreOf s k) (copyDesc x.desc).ring) k e).want.head? = some (k, e) →
    ringTakeFree (askSlot (ringOf (coreOf s k) (copyDesc x.desc).ring) k e) = some (i, r) →
    exec (.ringWaitResume k e) s = .next (classCopy (setCore (bump s) k { coreOf s k with
        copies := (coreOf s k).copies.insert e { x with slot := some i }
        ring := (coreOf s k).ring.put {} (copyDesc x.desc).ring { r with want := r.want.tail } }) k e)))

namespace Sys2Proof.Claims

/-- A control core whose instruction of 4 bytes has retired with w in register rd. -/
def ctlDone (c : Ctl) (rd : BitVec 5) (w : Word) : Ctl :=
  { xSet c rd.toNat w with pc := c.pc + 4, instret := c.instret + 1, status := .running }

/-- A control core whose instruction of 4 bytes has retired without a register result. -/
def ctlRetired (c : Ctl) : Ctl := { c with pc := c.pc + 4, instret := c.instret + 1, status := .running }

/-- A control core that has issued what entry e now holds, its tag delivered to rd. -/
def issuedCtl (c : Ctl) (rd : BitVec 5) (e : Nat) (m : MacroEntry) : Ctl :=
  ctlDone { c with macros := c.macros.put {} e m, issued := c.issued + 1 } rd m.tag

/-- The tag of the next issue of a control core into entry e (R263). -/
def nextTag (c : Ctl) (e : Nat) : Word := BitVec.ofNat 64 (64 * c.issued + e)

/-- Control core k of v is now c and has put d into the queue of gang g of its Vale: last, but among the dispatches of its
clk in ascending control core (R76); everything else is as in v. -/
def Sent (v t : State) (k g : Nat) (c : Ctl) (d : Dispatch) : Prop :=
  ctlOf t k = c ∧ (∀ j, j ≠ k → ctlOf t j = ctlOf v j)
    ∧ gangOf t (k / 8) g = { gangOf v (k / 8) g with queue := queueDispatch d (gangOf v (k / 8) g).queue }
    ∧ (∀ w h, (w, h) ≠ (k / 8, g) → gangOf t w h = gangOf v w h)
    ∧ (∀ w, valeOf t w = { valeOf v w with gangs := (valeOf t w).gangs })
    ∧ t = { v with ctls := t.ctls, vales := t.vales }

/-- The macro-instructions with their operation numbers, and their resume forms (R141). -/
def macroOps : List ((XF → Instr) × (XF → Instr) × Nat) :=
  [(.mGemm, .mGemmR, 1), (.mConv, .mConvR, 2), (.mAttn, .mAttnR, 3), (.mSort, .mSortR, 4), (.mGath, .mGathR, 5),
   (.mScat, .mScatR, 6), (.mNorm, .mNormR, 7), (.mKern, .mKernR, 8), (.mRcpy, .mRcpyR, 9), (.mRinit, .mRinitR, 10)]

/-- The collectives with their operation numbers, and their resume forms (R141). -/
def collOps : List ((XF → Instr) × (XF → Instr) × Nat) :=
  [(.cAred, .cAredR, 1), (.cAgat, .cAgatR, 2), (.cRsct, .cRsctR, 3), (.cA2a, .cA2aR, 4), (.cBcst, .cBcstR, 5),
   (.cSend, .cSendR, 6), (.cRecv, .cRecvR, 7), (.cBar, .cBarR, 8)]

/-- The entry of an issue by control core c of operation op into entry e, with its descriptor read. -/
def newEntry (c : Ctl) (e op gang va : Nat) (coll : Bool) (b t3 : List Byte) (reads writes : List VRange) : MacroEntry :=
  { state := .running, tag := nextTag c e, tags := [nextTag c e], op := op, isColl := coll, desc := b, t3 := t3
    descAddr := BitVec.ofNat 64 va, pc := c.pc, gang := gang, reads := reads, writes := writes
    totalSteps := if coll then 0 else (macroOf b t3).total, rte := BitVec.ofNat 64 (word64At b 0x10) }

/-- Virtual function n with a collective's window registered, once (R279). -/
def windowOpened (v : State) (n : Nat) (x : Window) : State :=
  modVf v n fun y => if y.windows.contains x then y else { y with windows := y.windows ++ [x] }

/-- What is sent to the gang for an entry of control core k at a clk. -/
def toGang (clk k e : Nat) (m : MacroEntry) (resume : Bool) : Dispatch :=
  { ctl := k, tag := m.tag, entry := e, op := m.op, coll := m.isColl, gang := m.gang, desc := m.desc, t3 := m.t3
    descAddr := m.descAddr, pc := m.pc, resume := resume, members := if resume then m.members else [], reached := clk }

end Sys2Proof.Claims

/-- R66 and R263: the issue of a macro-instruction. -/
def Obligations.MacroIssuesTakeAnEntry : Prop :=
  ∀ p ∈ Sys2Proof.Claims.macroOps, ∀ (f : XF) (s u v : State) (b t3 : List Byte) (e : Nat),
    (curCtl s).held = none →
    readBlock (bump s) (xGet (curCtl s) f.rs1.toNat).toNat 32 64 = .ok (b, u) → readT3 u b = .ok (t3, v) →
    firstFail (macroFails (macroOf b t3) p.2.2) = none → gangRefused v (xGet (curCtl s) f.rs2.toNat) = false →
    takeEntry (curCtl v) = some e → conflicts (curCtl v) (macroOf b t3).reads (macroOf b t3).writes = false →
    parkedWrites v (vfOfCtl v v.ctl) = false →
    ∃ t, exec (p.1 f) s = .next t ∧
      (let m := Sys2Proof.Claims.newEntry (curCtl v) e p.2.2 ((xGet (curCtl s) f.rs2.toNat).toNat % 64)
          (xGet (curCtl s) f.rs1.toNat).toNat false b t3 (macroOf b t3).reads (macroOf b t3).writes
       Sys2Proof.Claims.Sent v t v.ctl ((xGet (curCtl s) f.rs2.toNat).toNat % 64)
        (Sys2Proof.Claims.issuedCtl { curCtl v with held := none } f.rd e m) (Sys2Proof.Claims.toGang v.io.realNs v.ctl e m false))

/-- R274 to R279: the issue of a collective. Where the manual leaves room, the reading is the model's own: log entries
70, 74 and 75. -/
def Obligations.CollectivesTakeAnEntryAndOpenTheirWindow : Prop :=
  ∀ p ∈ Sys2Proof.Claims.collOps, ∀ (f : XF) (s u v w : State) (b pt : List Byte) (e : Nat) (h : HeldMacro),
    (curCtl s).held = none →
    readBlock (bump s) (xGet (curCtl s) f.rs1.toNat).toNat 32 64 = .ok (b, u) →
    firstFail (collFails b p.2.2) = none →
    readBlock u (collOf b).ptab (2 * (collOf b).np) 8 = .ok (pt, v) →
    gangRefused v (xGet (curCtl s) f.rs2.toNat) = false →
    takeEntry (curCtl v) = some e → conflicts (curCtl v) (collRanges (collOf b)).1 (collRanges (collOf b)).2 = false →
    h = { op := p.2.2, isColl := true, rd := f.rd.toNat, gang := (xGet (curCtl s) f.rs2.toNat).toNat % 64, desc := b
          t3 := pt, descAddr := BitVec.ofNat 64 (xGet (curCtl s) f.rs1.toNat).toNat
          reads := (collRanges (collOf b)).1, writes := (collRanges (collOf b)).2 } →
    clearWords (modCtl v v.ctl fun c => { c with held := some h }) (collOf b).bmap (collOf b).bitmapWords = .ok w →
    curCtl w = { curCtl v with held := some h } → (∀ x, gangOf w x = gangOf v x) → vfOfCtl w = vfOfCtl v → w.ctl = v.ctl →
    parkedWrites w (vfOfCtl v v.ctl) = false → (∀ r, unreached w pt r = false) →
    ∃ t, exec (p.1 f) s = .next t ∧
      (let m := { Sys2Proof.Claims.newEntry (curCtl v) e p.2.2 h.gang (xGet (curCtl s) f.rs1.toNat).toNat true b pt
            h.reads h.writes with
          coll := { opNumber := (nextOp (curCtl v).opCount (collOf b).cid (pairKey (collOf b))).1, key := matchKey (collOf b) pt } }
       Sys2Proof.Claims.Sent
        (Sys2Proof.Claims.windowOpened w (vfOfCtl v v.ctl) { cid := (collOf b).cid, slice := logicalSlice w v.ctl, entry := e })
        t v.ctl h.gang
        (Sys2Proof.Claims.issuedCtl { curCtl v with
          held := none, opCount := (nextOp (curCtl v).opCount (collOf b).cid (pairKey (collOf b))).2
          sent := (curCtl v).sent ++ [((collOf b).cid, pairKey (collOf b), m.coll.opNumber, m.coll.key)] } f.rd e m)
        (Sys2Proof.Claims.toGang w.io.realNs v.ctl e m false))

namespace Sys2Proof.Claims

/-- The entry of a stopped macro-instruction or collective that continues under descriptor b: running under a new tag
with the `rte` of b, its cause cleared (R419). -/
def continued (c : Ctl) (e : Nat) (b : List Byte) : MacroEntry :=
  { entryAt c e with
    state := .running, tag := nextTag c e, tags := (entryAt c e).tags ++ [nextTag c e], desc := b
    rte := BitVec.ofNat 64 (word64At b 0x10), cause := 0, causeSeq := 0, recordsHeld := 0 }

/-- v, with the window of stopped entry e registered again where it is a collective's with descriptor b (R281). -/
def reopened (v : State) (e : Nat) (b : List Byte) : State :=
  if (entryAt (curCtl v) e).isColl
  then windowOpened v (vfOfCtl v v.ctl) { cid := (collOf b).cid, slice := logicalSlice v v.ctl, entry := e } else v

/-- The control core's stopped entry e continues under its descriptor, read again as b and unchanged but for `rte`
(R245, R418): v is the state after the reads. A link reaches every rank of a collective (R448). -/
def Resumes (s v : State) (e : Nat) (b : List Byte) : Prop :=
  ∃ u, readBlock (bump s) (entryAt (curCtl s) e).descAddr.toNat 32 64 = .ok (b, u)
    ∧ firstDiff 0 (entryAt (curCtl s) e).desc b = none
    ∧ (if (entryAt (curCtl s) e).isColl then v = u
       else ∃ t3, readT3 u b = .ok (t3, v) ∧ firstDiff 0x100 (entryAt (curCtl s) e).t3 t3 = none)
    ∧ curCtl v = curCtl s ∧ ((entryAt (curCtl s) e).isColl = true → ∀ r, unreached v (entryAt (curCtl s) e).t3 r = false)

end Sys2Proof.Claims

/-- R266 and R418 to R419: resumes. -/
def Obligations.ResumesContinueAStoppedEntry : Prop :=
  (∀ q ∈ Sys2Proof.Claims.macroOps.map (fun p => (p.2.1, p.2.2, false)) ++ Sys2Proof.Claims.collOps.map (fun p => (p.2.1, p.2.2, true)),
    ∀ (f : XF) (s v : State) (b : List Byte) (e : Nat),
    (xGet (curCtl s) f.rs1.toNat).toNat % 64 = 0 → (xGet (curCtl s) f.rs2.toNat).toNat < 64 →
    matching (curCtl s) q.2.1 q.2.2 (xGet (curCtl s) f.rs1.toNat).toNat (xGet (curCtl s) f.rs2.toNat).toNat = some e →
    (entryAt (curCtl s) e).state = .stopped → Sys2Proof.Claims.Resumes s v e b →
    ∃ t, exec (q.1 f) s = .next t ∧
      Sys2Proof.Claims.Sent (Sys2Proof.Claims.reopened v e b) t v.ctl (entryAt (curCtl s) e).gang
        (Sys2Proof.Claims.issuedCtl (curCtl s) f.rd e (Sys2Proof.Claims.continued (curCtl s) e b))
        (Sys2Proof.Claims.toGang v.io.realNs v.ctl e (Sys2Proof.Claims.continued (curCtl s) e b) true))
  ∧ (∀ (rd rs1 : BitVec 5) (s v : State) (b : List Byte) (e : Nat),
    named (curCtl s) (xGet (curCtl s) rs1.toNat) = .entry e (entryAt (curCtl s) e) →
    (entryAt (curCtl s) e).state = .stopped → Sys2Proof.Claims.Resumes s v e b →
    ∃ t, exec (.mResume rd rs1) s = .next t ∧
      Sys2Proof.Claims.Sent (Sys2Proof.Claims.reopened v e b) t v.ctl (entryAt (curCtl s) e).gang
        (Sys2Proof.Claims.issuedCtl (curCtl s) rd e (Sys2Proof.Claims.continued (curCtl s) e b))
        (Sys2Proof.Claims.toGang v.io.realNs v.ctl e (Sys2Proof.Claims.continued (curCtl s) e b) true))
  ∧ (∀ (rd rs1 : BitVec 5) (s : State),
    (∀ e m, named (curCtl s) (xGet (curCtl s) rs1.toNat) = .entry e m → m.state ≠ .stopped ∧ m.state ≠ .stopping) →
    ∃ t, exec (.mResume rd rs1) s = .next t ∧
      CtlDone (bump s) t s.ctl (Sys2Proof.Claims.ctlDone (curCtl s) rd (BitVec.allOnes 64)))

namespace Sys2Proof.Claims

/-- The tag in a register names entry e, which holds m. -/
def Names (s : State) (r : BitVec 5) (e : Nat) (m : MacroEntry) : Prop := named (curCtl s) (xGet (curCtl s) r.toNat) = .entry e m

/-- The progress registers of the member of rank q of an entry of control core k (R265): those that it ended with, else the
live ones of the core that executes it; none where no core does. -/
def progress (s : State) (k : Nat) (m : MacroEntry) (q : Nat) : List Nat :=
  if m.state = .completed ∨ m.state = .killed then m.prgs.getD q []
  else match m.members[q]?.bind (physCore s (k / 8) (vfOfCtl s k)) with
    | none => []
    | some j => if executes s j k (m.tag.toNat % 64)
        then (List.range 7).map (fun i => (coreOf s j).prgI.get 0 i)
          ++ [(coreOf s j).prgStep, (coreOf s j).prgAcc.toNat, (coreOf s j).prgCmask.toNat]
        else []

/-- The peers that a collective waits for: not registered yet, or absent (R283). -/
def waitedFor (s : State) (m : MacroEntry) : List Nat :=
  if m.state = .completed then []
  else (collOf m.desc).others.filter fun r => !(peerNow s m r).registered || (peerNow s m r).absent

/-- The status word of a collective (R283). -/
def collWord (s : State) (m : MacroEntry) : Nat :=
  (waitedFor s m).headD 0 * 2 ^ 52
    + (if (waitedFor s m).any (fun r => (peerNow s m r).absent) then 2 ^ 33 else 0)
    + (if (waitedFor s m).any (fun r => !(peerNow s m r).absent) then 2 ^ 32 else 0) + m.coll.landed.length

/-- The control core's instruction retires with w in rd, and nothing else changes. -/
def Retires (s : State) (i : Instr) (rd : BitVec 5) (w : Word) : Prop :=
  ∃ t, exec i s = .next t ∧ CtlDone (bump s) t s.ctl (ctlDone (curCtl s) rd w)

/-- The affected sequences that `m.stat` shows: those of a stopped `m.attn` (R442). -/
def affectedBy (m : MacroEntry) : List Nat := if m.state = .stopped ∧ m.op = 3 ∧ m.isColl = false then m.affected else []

end Sys2Proof.Claims

/-- R264 to R268, R283 and R442: waits, status, fences and kills; how each of `m.wait`, `m.stat`, `m.fence` and
`m.kill` completes, and when it waits. Where the manual leaves room, the reading is the model's own: log entry 56. -/
def Obligations.WaitStatFenceAndKill : Prop :=
  (∀ (rd rs1 : BitVec 5) (s : State) (e : Nat) (m : MacroEntry), Sys2Proof.Claims.Names s rs1 e m →
    (m.state = .completed → Sys2Proof.Claims.Retires s (.mWait rd rs1) rd 0)
    ∧ (m.state = .stopped → Sys2Proof.Claims.Retires s (.mWait rd rs1) rd 1)
    ∧ (m.state = .killed → Sys2Proof.Claims.Retires s (.mWait rd rs1) rd 2)
    ∧ (m.state = .free → Sys2Proof.Claims.Retires s (.mWait rd rs1) rd 3)
    ∧ (m.state = .running ∨ m.state = .stopping ∨ m.state = .killing → ∃ t, exec (.mWait rd rs1) s = .next t ∧
      CtlDone (bump s) t s.ctl { curCtl s with status := .waiting }))
  ∧ (∀ (rd rs1 : BitVec 5) (s : State),
    (named (curCtl s) (xGet (curCtl s) rs1.toNat) = .future → Sys2Proof.Claims.Retires s (.mWait rd rs1) rd 0xFF)
    ∧ (named (curCtl s) (xGet (curCtl s) rs1.toNat) = .retired → Sys2Proof.Claims.Retires s (.mWait rd rs1) rd 3))
  ∧ (∀ (f : XF) (s : State) (sel : Nat), (xGet (curCtl s) f.rs2.toNat).toNat = sel →
    (named (curCtl s) (xGet (curCtl s) f.rs1.toNat) = .future →
      Sys2Proof.Claims.Retires s (.mStat f) f.rd (if sel = 0 then 6 else 0))
    ∧ (named (curCtl s) (xGet (curCtl s) f.rs1.toNat) = .retired →
      Sys2Proof.Claims.Retires s (.mStat f) f.rd (if sel = 0 then 5 else 0))
    ∧ ∀ (e : Nat) (m : MacroEntry), Sys2Proof.Claims.Names s f.rs1 e m →
      (sel = 0 → Sys2Proof.Claims.Retires s (.mStat f) f.rd (match m.state with
        | .free => 0
        | .running => 1
        | .stopping => 1
        | .killing => 1
        | .stopped => BitVec.ofNat 64 (2 + 256 * m.cause)
        | .completed => 3
        | .killed => 4))
      ∧ (sel = 1 → m.prgs.length ≤ m.members.length → Sys2Proof.Claims.Retires s (.mStat f) f.rd (BitVec.ofNat 64
          ((List.range m.members.length).foldl (fun a q => a + (Sys2Proof.Claims.progress s s.ctl m q).getD 7 0) 0)))
      ∧ (sel = 2 → Sys2Proof.Claims.Retires s (.mStat f) f.rd (BitVec.ofNat 64 m.totalSteps))
      ∧ (sel = 3 → Sys2Proof.Claims.Retires s (.mStat f) f.rd (BitVec.ofNat 64 m.gang))
      ∧ (sel = 4 → Sys2Proof.Claims.Retires s (.mStat f) f.rd m.descAddr)
      ∧ (sel = 5 → Sys2Proof.Claims.Retires s (.mStat f) f.rd
          (if m.isColl then BitVec.ofNat 64 (Sys2Proof.Claims.collWord s m) else 0))
      ∧ (sel = 6 → Sys2Proof.Claims.Retires s (.mStat f) f.rd (BitVec.ofNat 64 (Sys2Proof.Claims.affectedBy m).length))
      ∧ (∀ q i, q < 192 → i < 10 → sel = 0x1000 + 16 * q + i →
        Sys2Proof.Claims.Retires s (.mStat f) f.rd (BitVec.ofNat 64 ((Sys2Proof.Claims.progress s s.ctl m q).getD i 0)))
      ∧ (∀ j, j < 65536 → sel = 0x2000 + j → Sys2Proof.Claims.Retires s (.mStat f) f.rd
        (match (Sys2Proof.Claims.affectedBy m)[j]? with
          | some n => BitVec.ofNat 64 n
          | none => BitVec.allOnes 64)))
  ∧ (∀ (s : State),
    (((curCtl s).macros.any fun e => outstanding e.2) = false → parkedWrites s (vfOfCtl s s.ctl) = false →
      ∃ t, exec .mFence s = .next t ∧ CtlDone (bump s) t s.ctl (Sys2Proof.Claims.ctlRetired (curCtl s)))
    ∧ (((curCtl s).macros.any fun e => outstanding e.2) = true ∨ parkedWrites s (vfOfCtl s s.ctl) = true →
      ∃ t, exec .mFence s = .next t ∧ CtlDone (bump s) t s.ctl { curCtl s with status := .waiting }))
  ∧ (∀ (rs1 : BitVec 5) (s : State),
    (named (curCtl s) (xGet (curCtl s) rs1.toNat) = .future ∨ named (curCtl s) (xGet (curCtl s) rs1.toNat) = .retired →
      ∃ t, exec (.mKill rs1) s = .next t ∧ CtlDone (bump s) t s.ctl (Sys2Proof.Claims.ctlRetired (curCtl s)))
    ∧ ∀ (e : Nat) (m : MacroEntry), Sys2Proof.Claims.Names s rs1 e m →
      (m.state = .completed ∨ m.state = .killed ∨ m.state = .free →
        ∃ t, exec (.mKill rs1) s = .next t ∧ CtlDone (bump s) t s.ctl (Sys2Proof.Claims.ctlRetired (curCtl s)))
      ∧ (m.state = .running ∨ m.state = .stopping ∨ m.state = .stopped ∨ m.state = .killing →
        ∃ t, exec (.mKill rs1) s = .next t ∧ (curCtl t).pc = (curCtl s).pc + 4 ∧ (curCtl t).instret = (curCtl s).instret + 1
          ∧ (curCtl t).status = .running ∧ (∀ n, xGet (curCtl t) n = xGet (curCtl s) n)
          ∧ (entryAt (curCtl t) e).state = (if isQueued (bump s) s.ctl e m then .killed else .killing)
          ∧ (gangOf t (s.ctl / 8) m.gang).queue = (gangOf s (s.ctl / 8) m.gang).queue.filter (fun d => !sameDispatch d s.ctl e)))

/-- R284 and R285: forming and freeing a gang. Where the manual leaves room, the reading is the model's own: log entry
59. -/
def Obligations.GangsFormAndFree : Prop :=
  (∀ (rd rs1 : BitVec 5) (s u : State) (b : List Byte),
    readBlock (bump s) (xGet (curCtl s) rs1.toNat).toNat 4 32 = .ok (b, u) →
    memberSetFault u (u.ctl / 8) (vfOfCtl u u.ctl) b = none →
    (∀ g, freeGang u (u.ctl / 8) = some g → ∃ t, exec (.gForm rd rs1) s = .next t ∧
      gangOf t (u.ctl / 8) g = { owner := some (cidOfSlice u u.ctl), vf := vfOfCtl u u.ctl
                                 members := (List.range 192).filter fun i => leNat b / 2 ^ i % 2 == 1
                                 episode := (gangOf u (u.ctl / 8) g).episode, tags := (gangOf u (u.ctl / 8) g).tags }
      ∧ (∀ w h, (w, h) ≠ (u.ctl / 8, g) → gangOf t w h = gangOf u w h)
      ∧ (∀ w, valeOf t w = { valeOf u w with gangs := (valeOf t w).gangs })
      ∧ (∀ k, coreOf t k = { coreOf u k with lastArrival := (coreOf t k).lastArrival })
      ∧ ctlOf t u.ctl = Sys2Proof.Claims.ctlDone (curCtl u) rd (BitVec.ofNat 64 g)
      ∧ (∀ j, j ≠ u.ctl → ctlOf t j = ctlOf u j)
      ∧ t = { u with ctls := t.ctls, vales := t.vales, cores := t.cores })
    ∧ (freeGang u (u.ctl / 8) = none → ∃ t, exec (.gForm rd rs1) s = .next t ∧
      CtlDone u t u.ctl (Sys2Proof.Claims.ctlDone (curCtl u) rd (BitVec.allOnes 64))))
  ∧ (∀ (rs1 : BitVec 5) (s : State) (g : Nat), g < 64 → (xGet (curCtl s) rs1.toNat).toNat = g →
    ((gangOf s (s.ctl / 8) g).owner = none ∨ (gangOf s (s.ctl / 8) g).vf ≠ vfOfCtl s s.ctl →
      ∃ t, exec (.gFree rs1) s = .next t ∧ CtlDone (bump s) t s.ctl (Sys2Proof.Claims.ctlRetired (curCtl s)))
    ∧ ((gangOf s (s.ctl / 8) g).owner.isSome = true → (gangOf s (s.ctl / 8) g).vf = vfOfCtl s s.ctl →
      (gangBusy s (s.ctl / 8) (vfOfCtl s s.ctl) g = true → ∃ t, exec (.gFree rs1) s = .next t ∧
        CtlDone (bump s) t s.ctl { curCtl s with status := .waiting })
      ∧ (gangBusy s (s.ctl / 8) (vfOfCtl s s.ctl) g = false → ∃ t, exec (.gFree rs1) s = .next t ∧
        gangOf t (s.ctl / 8) g = { episode := (gangOf s (s.ctl / 8) g).episode, tags := (gangOf s (s.ctl / 8) g).tags }
        ∧ (∀ w h, (w, h) ≠ (s.ctl / 8, g) → gangOf t w h = gangOf s w h)
        ∧ ctlOf t s.ctl = Sys2Proof.Claims.ctlRetired (curCtl s)
        ∧ (∀ j, j ≠ s.ctl → ctlOf t j = ctlOf s j) ∧ t = { bump s with ctls := t.ctls, vales := t.vales })))

/-- R287 to R290: `x.sleep`, `x.mon` and `x.mwait`. Where the manual leaves room, the reading is the model's own: log
entry 35. -/
def Obligations.SleepsAndMonitorWaits : Prop :=
  (∀ (rs1 : BitVec 5) (s : State), ∃ t, exec (.xSleep rs1) s = .next t ∧
    CtlDone (bump s) t s.ctl (if (xGet (curCtl s) rs1.toNat).toNat ≤ s.nstime.toNat
      then { Sys2Proof.Claims.ctlRetired (curCtl s) with sleepUntil := none, mwaitUntil := none }
      else { curCtl s with status := .waiting, sleepUntil := some (xGet (curCtl s) rs1.toNat) }))
  ∧ (∀ (k : Nat) (s : State) (w : Word), (ctlOf s k).sleepUntil = some w → (ctlOf s k).status = .waiting →
    w.toNat ≤ s.nstime.toNat → ∃ t, exec (.xSleepWake k) s = .next t ∧
      CtlDone (bump s) t k { Sys2Proof.Claims.ctlRetired (ctlOf s k) with sleepUntil := none, mwaitUntil := none })
  ∧ (∀ (rd rs1 : BitVec 5) (s : State) (va pa : Nat), (xGet (curCtl s) rs1.toNat).toNat / 2 % 64 = 0 →
    va = (xGet (curCtl s) rs1.toNat).toNat / 128 * 128 → ctlHeld (bump s) s.ctl va .load = false →
    ctlTranslate (bump s) s.ctl va .load = .ok pa →
    ((curCtl s).monitors.any (fun e => watches e.2 none (pa / 128)) = true → ∃ t, exec (.xMon rd rs1) s = .next t ∧
      CtlDone (bump s) t s.ctl (Sys2Proof.Claims.ctlDone (curCtl s) rd 1))
    ∧ ((curCtl s).monitors.any (fun e => watches e.2 none (pa / 128)) = false →
      (∀ e, monitorFree (curCtl s).monitors 16 = some e → ∃ t, exec (.xMon rd rs1) s = .next t ∧
        CtlDone (bump s) t s.ctl (Sys2Proof.Claims.ctlDone { curCtl s with
          monitors := (curCtl s).monitors.put .free e (.armed none (pa / 128) va (curCtl s).monClock)
          monClock := (curCtl s).monClock + 1
          monLeaf := (match ctlLeaf (bump s) s.ctl va with
            | some l => (curCtl s).monLeaf.insert e l
            | none => (curCtl s).monLeaf.erase e) } rd 0))
      ∧ (monitorFree (curCtl s).monitors 16 = none → (xGet (curCtl s) rs1.toNat).toNat % 2 = 0 →
        ∃ t, exec (.xMon rd rs1) s = .next t ∧ CtlDone (bump s) t s.ctl (Sys2Proof.Claims.ctlDone (curCtl s) rd 0xFF))))
  ∧ (∀ (rd rs1 : BitVec 5) (s : State),
    (∀ e n, firedEntry (curCtl s).monitors 16 = some (e, n) → ∃ t, exec (.xMwait rd rs1) s = .next t ∧
      CtlDone (bump s) t s.ctl (Sys2Proof.Claims.ctlDone { curCtl s with
        sleepUntil := none, mwaitUntil := none, monitors := (curCtl s).monitors.erase e } rd (BitVec.ofNat 64 (e * 256 + n))))
    ∧ (firedEntry (curCtl s).monitors 16 = none → ∃ t, exec (.xMwait rd rs1) s = .next t ∧
      CtlDone (bump s) t s.ctl (
        if anyArmed (curCtl s).monitors = false then
          Sys2Proof.Claims.ctlDone { curCtl s with sleepUntil := none, mwaitUntil := none } rd 0xFE
        else if (xGet (curCtl s) rs1.toNat).toNat ≤ s.nstime.toNat then
          Sys2Proof.Claims.ctlDone { curCtl s with sleepUntil := none, mwaitUntil := none } rd 0xFD
        else { curCtl s with status := .waiting, mwaitUntil := some (rd.toNat, xGet (curCtl s) rs1.toNat) })))
  ∧ (∀ (k rd : Nat) (s : State) (w : Word), (ctlOf s k).mwaitUntil = some (rd, w) → (ctlOf s k).status = .waiting →
    w.toNat ≤ s.nstime.toNat → firedEntry (ctlOf s k).monitors 16 = none →
    ∃ t, exec (.xMwaitTimeout k) s = .next t ∧
      CtlDone (bump s) t k (Sys2Proof.Claims.ctlDone { ctlOf s k with sleepUntil := none, mwaitUntil := none }
        (BitVec.ofNat 5 rd) 0xFD))

/-- R291, R292 and R272: the trap queue's instructions, and the timer interrupt. Where the manual leaves room, the
reading is the model's own: log entries 32 and 36. -/
def Obligations.TrapQueuePopAckAndTimer : Prop :=
  (∀ (rd : BitVec 5) (s : State), (curCtl s).priv = .s →
    ((vfOf s (vfOfCtl s s.ctl)).tq.order = [] → ∃ t, exec (.tqPop rd) s = .next t ∧
      CtlDone (bump s) t s.ctl (Sys2Proof.Claims.ctlDone (curCtl s) rd 0))
    ∧ (∀ i rest, (vfOf s (vfOfCtl s s.ctl)).tq.order = i :: rest → ∃ t, exec (.tqPop rd) s = .next t ∧
      ctlOf t s.ctl = Sys2Proof.Claims.ctlDone (curCtl s) rd
        (BitVec.ofNat 64 (bitsOf (vfOf s (vfOfCtl s s.ctl)).tq.base.toNat 55 15 * 2 ^ 15 + 64 * i))
      ∧ (∀ j, j ≠ s.ctl → ctlOf t j = ctlOf s j)
      ∧ vfOf t (vfOfCtl s s.ctl) = (let v := vfOf s (vfOfCtl s s.ctl)
          { v with tq := { v.tq with order := rest, entries := v.tq.entries.put .free i .popped } })
      ∧ (∀ n, n ≠ vfOfCtl s s.ctl → vfOf t n = vfOf s n) ∧ t = { bump s with ctls := t.ctls, vfs := t.vfs }))
  ∧ (∀ (rs1 : BitVec 5) (s : State), (curCtl s).priv = .s → (xGet (curCtl s) rs1.toNat).toNat % 64 = 0 →
    (poppedEntry (vfOf s (vfOfCtl s s.ctl)).tq (xGet (curCtl s) rs1.toNat).toNat = none →
      ∃ t, exec (.tqAck rs1) s = .next t ∧ ctlOf t s.ctl = Sys2Proof.Claims.ctlRetired (curCtl s)
        ∧ vfOf t (vfOfCtl s s.ctl) = (let v := vfOf s (vfOfCtl s s.ctl)
            { v with tq := { v.tq with err := true } })
        ∧ t = { bump s with ctls := t.ctls, vfs := t.vfs })
    ∧ (∀ i, poppedEntry (vfOf s (vfOfCtl s s.ctl)).tq (xGet (curCtl s) rs1.toNat).toNat = some i →
      (vfOf s (vfOfCtl s s.ctl)).tq.held = [] → ∃ t, exec (.tqAck rs1) s = .next t
        ∧ ctlOf t s.ctl = Sys2Proof.Claims.ctlRetired (curCtl s)
        ∧ vfOf t (vfOfCtl s s.ctl) = (let v := vfOf s (vfOfCtl s s.ctl)
            { v with tq := { v.tq with
              entries := v.tq.entries.erase i, fatalEntry := if v.tq.fatalEntry = some i then none else v.tq.fatalEntry } })
        ∧ t = { bump s with ctls := t.ctls, vfs := t.vfs }))
  ∧ (∀ (r : BitVec 5) (s : State), (curCtl s).priv ≠ .s →
    ∃ t u, exec (.tqPop r) s = .next t ∧ exec (.tqAck r) s = .next u ∧ t.vfs = s.vfs ∧ u.vfs = s.vfs
      ∧ (∃ w, CtlDone (bump s) t s.ctl (takeTrap (curCtl s) false 2 w))
      ∧ (∃ w, CtlDone (bump s) u s.ctl (takeTrap (curCtl s) false 2 w)))
  ∧ (∀ (k : Nat) (s : State) (w : Word), (ctlOf s k).timer = some w → w.toNat ≤ s.nstime.toNat →
    ∃ t, exec (.supervisorTimerInterrupt k) s = .next t ∧
      CtlDone (bump s) t k (csrSet (ctlOf s k) 0x344 (csrGet (ctlOf s k) 0x344 ||| 0x20)))

namespace Sys2Proof.Claims

/-- The register-register operations of RV64I: funct7, funct3, function of the two source registers. -/
def rv64Ops : List (BitVec 7 × BitVec 3 × (Word → Word → Word)) :=
  [(0, 0, fun a b => a + b), (0x20, 0, fun a b => a - b), (0, 1, fun a b => a <<< (b.toNat % 64)),
   (0, 2, fun a b => if a.toInt < b.toInt then 1 else 0), (0, 3, fun a b => if a.toNat < b.toNat then 1 else 0),
   (0, 4, fun a b => a ^^^ b), (0, 5, fun a b => a >>> (b.toNat % 64)), (0x20, 5, fun a b => a.sshiftRight (b.toNat % 64)),
   (0, 6, fun a b => a ||| b), (0, 7, fun a b => a &&& b), (1, 0, fun a b => a * b)]

/-- The conditions of the RV64I branches by funct3. -/
def rv64Branches : List (BitVec 3 × (Word → Word → Bool)) :=
  [(0, fun a b => decide (a = b)), (1, fun a b => decide (a ≠ b)), (4, fun a b => decide (a.toInt < b.toInt)),
   (5, fun a b => decide (b.toInt ≤ a.toInt)), (6, fun a b => decide (a.toNat < b.toNat)), (7, fun a b => decide (b.toNat ≤ a.toNat))]

end Sys2Proof.Claims

/-- R270: the base instruction set, by its encodings. Where the manual leaves room, the reading is the model's own:
log entries 30 and 34. -/
def Obligations.ControlCoresRunTheBaseInstructions : Prop :=
  (∀ p ∈ Sys2Proof.Claims.rv64Ops, ∀ (rd rs1 rs2 : BitVec 5) (s : State),
    ∃ t, exec (.riscvInstruction (p.1 ++ rs2 ++ rs1 ++ p.2.1 ++ rd ++ 0x33#7)) s = .next t ∧
      CtlDone (bump s) t s.ctl (Sys2Proof.Claims.ctlDone (curCtl s) rd
        (p.2.2 (xGet (curCtl s) rs1.toNat) (xGet (curCtl s) rs2.toNat))))
  ∧ (∀ (imm : BitVec 12) (rd rs1 : BitVec 5) (s : State),
    ∃ t, exec (.riscvInstruction (imm ++ rs1 ++ 0#3 ++ rd ++ 0x13#7)) s = .next t ∧
      CtlDone (bump s) t s.ctl (Sys2Proof.Claims.ctlDone (curCtl s) rd (xGet (curCtl s) rs1.toNat + imm.signExtend 64)))
  ∧ (∀ p ∈ Sys2Proof.Claims.rv64Branches, ∀ (o : BitVec 12) (rs1 rs2 : BitVec 5) (s : State),
    ∃ t, exec (.riscvInstruction (o.extractLsb' 11 1 ++ o.extractLsb' 4 6 ++ rs2 ++ rs1 ++ p.1 ++ o.extractLsb' 0 4
        ++ o.extractLsb' 10 1 ++ 0x63#7)) s = .next t ∧
      CtlDone (bump s) t s.ctl { curCtl s with
        pc := (curCtl s).pc + if p.2 (xGet (curCtl s) rs1.toNat) (xGet (curCtl s) rs2.toNat) then 2 * o.signExtend 64 else 4
        instret := (curCtl s).instret + 1, status := .running })
  ∧ (∀ (imm : BitVec 12) (rd rs1 : BitVec 5) (s u : State) (b : List Byte) (pa : Nat),
    ctlLoad (bump s) (xGet (curCtl s) rs1.toNat + imm.signExtend 64).toNat 8 = .ok (b, pa) u →
    ∃ t, exec (.riscvInstruction (imm ++ rs1 ++ 3#3 ++ rd ++ 0x03#7)) s = .next t ∧
      CtlDone u t u.ctl (Sys2Proof.Claims.ctlDone (curCtl u) rd (BitVec.ofNat 64 (leNat b))))
  ∧ (∀ (imm : BitVec 12) (rs1 rs2 : BitVec 5) (s u : State) (pa : Nat),
    ctlStoreAddr (bump s) (xGet (curCtl s) rs1.toNat + imm.signExtend 64).toNat 8 = .ok pa u →
    ∃ t, exec (.riscvInstruction (imm.extractLsb' 5 7 ++ rs2 ++ rs1 ++ 3#3 ++ imm.extractLsb' 0 5 ++ 0x23#7)) s = .next t ∧
      (let v := physWrite u pa (leBytes 8 (xGet (curCtl s) rs2.toNat).toNat)
       CtlDone v t v.ctl (Sys2Proof.Claims.ctlRetired (curCtl v))))

/-- R270 to R272: an environment call taken, and returns from it. Where the manual leaves room, the reading is the
model's own: log entry 30. -/
def Obligations.ExceptionsEnterAndReturn : Prop :=
  (∀ (s : State), (curCtl s).priv = .u → (csrGet (curCtl s) 0x302).getLsbD 8 = true →
    ∃ t c, exec (.riscvInstruction 0x00000073) s = .next t ∧ CtlDone (bump s) t s.ctl c
      ∧ csrGet c 0x141 = (curCtl s).pc ∧ csrGet c 0x142 = 8 ∧ csrGet c 0x143 = 0
      ∧ (csrGet c 0x300).getLsbD 5 = (csrGet (curCtl s) 0x300).getLsbD 1
      ∧ (csrGet c 0x300).getLsbD 1 = false ∧ (csrGet c 0x300).getLsbD 8 = false
      ∧ c.priv = .s ∧ c.pc = csrGet (curCtl s) 0x105 &&& ~~~3#64 ∧ c.x = (curCtl s).x
      ∧ (∀ n, n ≠ 0x141 → n ≠ 0x142 → n ≠ 0x143 → n ≠ 0x300 → csrGet c n = csrGet (curCtl s) n))
  ∧ (∀ (s : State), (curCtl s).priv = .s → (csrGet (curCtl s) 0x300).getLsbD 22 = false →
    ∃ t c, exec (.riscvInstruction 0x10200073) s = .next t ∧ CtlDone (bump s) t s.ctl c
      ∧ c.pc = csrGet (curCtl s) 0x141
      ∧ c.priv = (if (csrGet (curCtl s) 0x300).getLsbD 8 then .s else .u)
      ∧ (csrGet c 0x300).getLsbD 1 = (csrGet (curCtl s) 0x300).getLsbD 5
      ∧ (csrGet c 0x300).getLsbD 5 = true ∧ (csrGet c 0x300).getLsbD 8 = false ∧ c.x = (curCtl s).x)
  ∧ (∀ (s : State), (curCtl s).priv = .m →
    ∃ t c, exec (.riscvInstruction 0x30200073) s = .next t ∧ CtlDone (bump s) t s.ctl c
      ∧ c.pc = csrGet (curCtl s) 0x341 ∧ c.x = (curCtl s).x)
  ∧ (∀ (s : State), (curCtl s).priv ≠ .m →
    ∃ t, exec (.riscvInstruction 0x30200073) s = .next t ∧
      CtlDone (bump s) t s.ctl (takeTrap (curCtl s) false 2 0x30200073))

namespace Sys2Proof.Claims

/-- The running control core of u, in u, has retired a CSR write: t differs from v in that control core alone. -/
def Wrote (v t : State) (k : Nat) : Prop := CtlDone v t k (ctlRetired (ctlOf v k))

end Sys2Proof.Claims

/-- R65, R269, R351 and R356: writes and reads of a control core's registers. Where the manual leaves room, the
reading is the model's own: log entries 36 and 114. -/
def Obligations.LaunchMailboxAndTraceRegisters : Prop :=
  (∀ (w : Word) (s : State), (curCtl s).priv ≠ .u → (curCtl s).macros.any (fun e => outstanding e.2) = false →
    ((vfOf s (vfOfCtl s s.ctl)).launch = none → ∃ t, exec (.lndone w) s = .next t ∧
      CtlDone (bump s) t s.ctl { Sys2Proof.Claims.ctlRetired (curCtl s) with status := .idle })
    ∧ (∀ l, (vfOf s (vfOfCtl s s.ctl)).launch = some l → l.ending = false → l.pending = false →
      (∃ p ∈ l.parts, p.1 = logicalSlice s s.ctl) → (∃ p ∈ l.parts, p.1 ≠ logicalSlice s s.ctl ∧ p.1 ∉ l.done) →
      ∃ t, exec (.lndone w) s = .next t ∧
        ctlOf t s.ctl = { Sys2Proof.Claims.ctlRetired (curCtl s) with status := .idle }
        ∧ (∀ j, j ≠ s.ctl → ctlOf t j = ctlOf s j)
        ∧ vfOf t (vfOfCtl s s.ctl) = { vfOf s (vfOfCtl s s.ctl) with
            launch := some { l with code := Nat.max l.code (w.toNat % 256), done := insertRising (logicalSlice s s.ctl) l.done } }
        ∧ t = { bump s with ctls := t.ctls, vfs := t.vfs }))
  ∧ (∀ (rd : BitVec 5) (s : State), (curCtl s).priv ≠ .u →
    ((vfOf s (vfOfCtl s s.ctl)).inq = [] → ∃ t, exec (.mbrcv rd) s = .next t ∧
      CtlDone (bump s) t s.ctl (Sys2Proof.Claims.ctlDone (curCtl s) rd 0))
    ∧ (∀ a rest, (vfOf s (vfOfCtl s s.ctl)).inq = a :: rest → ∃ t, exec (.mbrcv rd) s = .next t ∧
      CtlDone (modVf (bump s) (vfOfCtl s s.ctl) fun v => { v with inq := rest }) t s.ctl
        (Sys2Proof.Claims.ctlDone (curCtl s) rd a)))
  ∧ (∀ (w : Word) (s u : State) (b : List Byte), (curCtl s).priv ≠ .u → w.toNat % 64 = 0 →
    (vfOf s (vfOfCtl s s.ctl)).outq.length < 16 → ctlBlock (bump s) w.toNat 8 = .ok b u → (curCtl u).status ≠ .idle →
    ∃ t, exec (.mbsnd w) s = .next t ∧ Sys2Proof.Claims.Wrote
      (modVf u (vfOfCtl s s.ctl) fun v => { v with outq := v.outq ++ [(List.range 8).map fun i => BitVec.ofNat 64 (word64At b (8 * i))] })
      t u.ctl)
  ∧ (∀ (s : State), (curCtl s).priv ≠ .u → (curCtl s).status ≠ .idle → ∃ t, exec .trctlClr s = .next t ∧
    Sys2Proof.Claims.Wrote (modVf (bump s) (vfOfCtl s s.ctl) fun v => { v with
      trace := v.trace.modify {} (s.ctl / 8) fun x => { x with drop := 0 } }) t s.ctl)
  ∧ (∀ (w : Word) (s : State), (curCtl s).status ≠ .idle →
    ((entryOf s s.ctl (curCtl s).mrtsel.toNat).state = .free → ∃ t, exec (.mrte w) s = .next t ∧
      CtlDone (bump s) t s.ctl (Sys2Proof.Claims.ctlRetired (curCtl s)))
    ∧ ((entryOf s s.ctl (curCtl s).mrtsel.toNat).state ≠ .free → ∃ t, exec (.mrte w) s = .next t ∧
      CtlDone (bump s) t s.ctl { Sys2Proof.Claims.ctlRetired (curCtl s) with
        macros := (curCtl s).macros.put {} (curCtl s).mrtsel.toNat
          { entryOf s s.ctl (curCtl s).mrtsel.toNat with rte := w } }))
  ∧ (∀ (w : Word) (rd : BitVec 5) (s : State), (curCtl s).priv = .u →
    ∃ t u v, exec (.lndone w) s = .next t ∧ exec (.mbrcv rd) s = .next u ∧ exec (.mbsnd w) s = .next v
      ∧ CtlDone (bump s) t s.ctl (takeTrap (curCtl s) false 2 0) ∧ CtlDone (bump s) u s.ctl (takeTrap (curCtl s) false 2 0)
      ∧ CtlDone (bump s) v s.ctl (takeTrap (curCtl s) false 2 0))

/-- R102 and R370: `dtlbi` and `tqbase`. Where the manual leaves room, the reading is the model's own: log entries 29
and 37. -/
def Obligations.TranslationDropsAndTrapQueueBase : Prop :=
  (∀ (w : Word) (s : State) (va : Nat), (curCtl s).priv ≠ .u → w.toNat / 2 ^ 56 = 0 → w.toNat / 4 % 2 ^ 14 = 0 →
    va = bitsOf w.toNat 55 16 * 65536 → (∀ inside, dropWaits (bump s) (vfOfCtl s s.ctl) inside = false) →
    ∃ t, exec (.dtlbiDropVa w) s = .next t ∧ (curCtl t).pc = (curCtl s).pc + 4
      ∧ (∀ k x, x ∈ (coreOf t k).tlb ↔ x ∈ (coreOf s k).tlb ∧ ¬ (x.vf = vfOfCtl s s.ctl ∧ x.covers (vfOfCtl s s.ctl) va = true))
      ∧ (∀ v x, x ∈ (valeOf t v).tlb ↔ x ∈ (valeOf s v).tlb ∧ ¬ (x.vf = vfOfCtl s s.ctl ∧ x.covers (vfOfCtl s s.ctl) va = true)))
  ∧ (∀ (w : Word) (s : State), (curCtl s).priv ≠ .u → w.toNat / 2 ^ 56 = 0 → w.toNat / 4 % 2 ^ 14 = 0 →
    (∀ inside, dropWaits (bump s) (vfOfCtl s s.ctl) inside = false) →
    ∃ t, exec (.dtlbiDropAll w) s = .next t ∧ (curCtl t).pc = (curCtl s).pc + 4
      ∧ (∀ k x, x ∈ (coreOf t k).tlb ↔ x ∈ (coreOf s k).tlb ∧ x.vf ≠ vfOfCtl s s.ctl)
      ∧ (∀ v x, x ∈ (valeOf t v).tlb ↔ x ∈ (valeOf s v).tlb ∧ x.vf ≠ vfOfCtl s s.ctl))
  ∧ (∀ (w : Word) (s : State), (curCtl s).priv ≠ .u → (curCtl s).status ≠ .idle →
    ((vfOf s (vfOfCtl s s.ctl)).launch.isSome = true → ∃ t, exec (.tqbase w) s = .next t ∧
      Sys2Proof.Claims.Wrote (modTq (bump s) (vfOfCtl s s.ctl) fun q => { q with err := true }) t s.ctl)
    ∧ ((vfOf s (vfOfCtl s s.ctl)).launch = none → w.getLsbD 0 = false → ∃ t, exec (.tqbase w) s = .next t ∧
      Sys2Proof.Claims.Wrote (modTq (bump s) (vfOfCtl s s.ctl) fun q => { q with
        base := BitVec.ofNat 64 (bitsOf w.toNat 55 15 * 2 ^ 15), en := false }) t s.ctl)
    ∧ (∀ pa, (vfOf s (vfOfCtl s s.ctl)).launch = none → w.getLsbD 0 = true →
      translateVf s (vfOfCtl s s.ctl) (bitsOf w.toNat 55 15 * 2 ^ 15) 1 = .ok pa → (vfOf s (vfOfCtl s s.ctl)).tq.held = [] →
      ∃ t, exec (.tqbase w) s = .next t ∧
        Sys2Proof.Claims.Wrote (modTq (bump s) (vfOfCtl s s.ctl) fun q => { q with
          base := BitVec.ofNat 64 (bitsOf w.toNat 55 15 * 2 ^ 15), en := true, pages := [(0, pa / 65536)]
          entries := [], order := [], fatalEntry := none, seq := 0 }) t s.ctl))

namespace Sys2Proof.Claims

/-- A virtual function that the module has sent a message: only message 0x8001 is dropped, when 4 of the module's own
wait already (R356). -/
def told (v : Vf) (m : List Word) : Vf :=
  if m.getD 0 0 = 0x8001 ∧ 4 ≤ v.modq.length then { v with modDropped := true }
  else { v with modq := v.modq ++ [m ++ List.replicate (8 - m.length) 0] }

/-- A virtual function is ready for a launch: none in progress, an image accepted, its trap queue enabled with one of
the entries 508 to 511 free (R62, R362, R375). -/
def ReadyToLaunch (s : State) (vf : Nat) : Prop :=
  (vfOf s vf).launch = none ∧ (vfOf s vf).image.isSome = true ∧ (vfOf s vf).tq.en = true
    ∧ ∃ i, 508 ≤ i ∧ i ≤ 511 ∧ (vfOf s vf).tq.entries.get .free i = .free

/-- The physical function's mailbox once the firmware has copied the message it takes: busy is cleared, and a message
of a type it knows is held until answered (R357). -/
def copied (i : Io) : Io :=
  { i with mbiTaken := none
           mbiHeld := i.mbiHeld ++ i.mbiTaken.toList.filter (fun m => [0x10, 0x11, 0x20].contains ((m.getD 0 0).toNat % 65536)) }

/-- What the physical function's mailbox holds after the firmware has answered message m (R357). -/
def answered (s : State) (m a : List Word) : Io :=
  let i := if m ∈ s.io.mbiHeld then s.io else copied s.io
  { i with mbiHeld := i.mbiHeld.erase m, mbo := i.mbo ++ [a ++ List.replicate (8 - a.length) 0] }

/-- The messages of a type that the firmware holds or takes, oldest first. -/
def requests (s : State) (ty : Nat) : List (List Word) :=
  (copied s.io).mbiHeld.filter fun m => (m.getD 0 0).toNat % 65536 == ty

/-- A control core with a supervisor external interrupt pending. -/
def interrupted (c : Ctl) : Ctl := { c with csr := c.csr.put 0 0x344 (c.csr.get 0 0x344 ||| 0x200) }

end Sys2Proof.Claims

/-- R62 to R65, R326, R356, R361, R362 and R375: `lnchv` and `vfimg`. Where the manual leaves room, the reading is the
model's own: log entries 90, 92, 98, 142 and 143. -/
def Obligations.LaunchesAndImages : Prop :=
  (∀ (vf : Nat) (w : Word) (s : State), hostReaches s = true →
    ((vfOf s vf).launch.isSome = true → ∃ t, exec (.lnchv vf w) s = .next t ∧
      VfDone (bump s) t vf (Sys2Proof.Claims.told (vfOf s vf) [0x8001, w, 1]))
    ∧ ((vfOf s vf).launch = none → (vfOf s vf).image = none → ∃ t, exec (.lnchv vf w) s = .next t ∧
      VfDone (bump s) t vf (Sys2Proof.Claims.told (vfOf s vf) [0x8001, w, 3]))
    ∧ ((vfOf s vf).launch = none → (vfOf s vf).image.isSome = true → ¬ Sys2Proof.Claims.ReadyToLaunch s vf →
      ∃ t, exec (.lnchv vf w) s = .next t ∧
        VfDone (bump s) t vf (Sys2Proof.Claims.told (vfOf s vf) [0x8001, w, 4]))
    ∧ (Sys2Proof.Claims.ReadyToLaunch s vf → allRunning s vf = false ∨ tableHeld s vf w = true → ∃ t, exec (.lnchv vf w) s = .next t ∧
      VfDone (bump s) t vf { vfOf s vf with launch := some { word := w, pending := true } })
    ∧ (∀ u, Sys2Proof.Claims.ReadyToLaunch s vf → allRunning s vf = true → tableHeld s vf w = false →
      u = touchTable (bump s) vf w → startTable u vf w = none → ∃ t, exec (.lnchv vf w) s = .next t ∧
        VfDone u t vf (Sys2Proof.Claims.told { vfOf u vf with launch := none } [0x8001, w, 2]))
    ∧ (pulling s = false → touchTable (bump s) vf w = bump s)
    ∧ (∀ tb u, Sys2Proof.Claims.ReadyToLaunch s vf → allRunning s vf = true → tableHeld s vf w = false →
      u = touchTable (bump s) vf w → startTable u vf w = some tb →
      (tb.parts = [] → ∃ t, exec (.lnchv vf w) s = .next t ∧
        VfDone (noteUnready u vf) t vf { vfOf u vf with launch := none, lnprevSeq := 0, lnprevF := false, lnprevCode := 0 })
      ∧ (tb.parts ≠ [] → (logicalSlices u vf).Nodup → ∃ t, exec (.lnchv vf w) s = .next t ∧
        vfOf t vf = { vfOf u vf with launch := some { word := w, lid := tb.lid, arg := tb.arg, parts := tb.parts } }
        ∧ (∀ n, n ≠ vf → vfOf t n = vfOf u n)
        ∧ (∀ p ∈ tb.parts, ∀ k, (logicalSlices u vf)[p.1]? = some k →
          ctlOf t k = { ctlOf u k with status := .running, priv := .u, pc := p.2.1, held := none, sleepUntil := none, mwaitUntil := none, x := (ctlOf t k).x }
          ∧ xGet (ctlOf t k) 2 = p.2.2 ∧ xGet (ctlOf t k) 10 = tb.lid ∧ xGet (ctlOf t k) 11 = tb.arg
          ∧ xGet (ctlOf t k) 12 = BitVec.ofNat 64 p.1
          ∧ ∀ r, r ≠ 2 → r ≠ 10 → r ≠ 11 → r ≠ 12 → xGet (ctlOf t k) r = 0)
        ∧ (∀ k, (∀ p ∈ tb.parts, (logicalSlices u vf)[p.1]? ≠ some k) → ctlOf t k = ctlOf u k)
        ∧ t = { u with ctls := t.ctls, vfs := t.vfs })))
  ∧ (∀ (vf : Nat) (w : Word) (s : State), hostReaches s = true →
    ((vfOf s vf).checking = none → ∃ t, exec (.vfimg vf w) s = .next t ∧
      VfDone (bump s) t vf { vfOf s vf with checking := some w })
    ∧ ((vfOf s vf).checking.isSome = true → exec (.vfimg vf w) s = .next (bump s)))
  ∧ (∀ (vf : Nat) (w : Word) (s : State), (vfOf s vf).checking = some w →
    (imageRanges s vf (w.toNat % 2 ^ 56)).any (fun r => vaHeld s vf r.1 r.2) = true → outsideStep (.imageChecked vf) s = bump s)
  ∧ (∀ (vf : Nat) (w : Word) (s u : State) (l : List (Nat × Nat)), (vfOf s vf).checking = some w →
    l = imageRanges s vf (w.toNat % 2 ^ 56) → l.any (fun r => vaHeld s vf r.1 r.2) = false →
    u = modVf (l.foldl (fun v r => vaTouch v vf r.1 r.2) (bump s)) vf (fun v => { v with checking := none }) →
    (∀ r, checkImage u vf (w.toNat % 2 ^ 56) = .error r →
      VfDone u (outsideStep (.imageChecked vf) s) vf
        (Sys2Proof.Claims.told { vfOf u vf with image := none } [0x8002, w, BitVec.ofNat 64 r]))
    ∧ (∀ m pulls words, checkImage u vf (w.toNat % 2 ^ 56) = .ok (m, pulls) →
      words = (List.range 8).map (fun i => BitVec.ofNat 64 (word64At m (8 * i))) →
      VfDone (pulls.foldl setPf u) (outsideStep (.imageChecked vf) s) vf
        (Sys2Proof.Claims.told (Sys2Proof.Claims.told
          { vfOf (pulls.foldl setPf u) vf with image := some w, measurement := m, hostSections := pulls }
          ([0x8002, w, 0] ++ words.take 5)) (0x8003 :: words.drop 5))))
  ∧ (∀ (s : State) (vf va : Nat), vaSound s vf va 256 = none → checkImage s vf va = .error 3)
  ∧ (∀ (s : State) (vf va : Nat) (h table : List Byte), vaSound s vf va 256 = some h →
    vaSound s vf (va + 256) (32 * numAt h 6 2) = some table →
    (imageSections h table = none → checkImage s vf va = .error 3)
    ∧ (∀ l, imageSections h table = some l →
      ((numAt h 4 1 ≠ 1 ∨ numAt h 5 1 ≠ 0) → checkImage s vf va = .error 1)
      ∧ (numAt h 4 1 = 1 → numAt h 5 1 = 0 →
        ((∃ i, i < numAt h 0x10 2 ∧ BitVec.ofNat 16 (numAt h (0x20 + 2 * i) 2) ∉ Config.capabilityIds) →
          checkImage s vf va = .error 2)
        ∧ ((∀ i, i < numAt h 0x10 2 → BitVec.ofNat 16 (numAt h (0x20 + 2 * i) 2) ∈ Config.capabilityIds) →
          ∀ bytes pulls, l.mapM (sectionBytes s vf) = some bytes →
            (l.filter fun x => x.resident).mapM (residentPull s vf) = some pulls →
            checkImage s vf va = .ok (sha512 (h ++ table ++ bytes.flatten), pulls)))))

/-- R356, R357, R364 and R452: mailboxes, and the messages that the firmware serves. Where the manual leaves room, the
reading is the model's own: log entries 97, 98, 124, 151 and 152. -/
def Obligations.HostMailboxesAndServices : Prop :=
  (∀ (vf : Nat) (w : Word) (s : State), hostReaches s = true →
    (isAttestation (bump s) vf w.toNat = false → (vfOf s vf).inq.length < 16 → ∃ t, exec (.mbin vf w) s = .next t ∧
      (logicalSlices s vf = [] → VfDone (bump s) t vf { vfOf s vf with inq := (vfOf s vf).inq ++ [w] })
      ∧ (∀ k, (logicalSlices s vf)[0]? = some k → (ctxOf s vf (k / 8)).image = none → vfOfSlice s k = some vf →
        CtlDone (modVf (bump s) vf fun v => { v with inq := v.inq ++ [w] }) t k (Sys2Proof.Claims.interrupted (ctlOf s k))))
    ∧ ((isAttestation (bump s) vf w.toNat = false ∧ 16 ≤ (vfOf s vf).inq.length
        ∨ isAttestation (bump s) vf w.toNat = true ∧ (vfOf s vf).attest.isSome = true) →
      ∃ t, exec (.mbin vf w) s = .next t ∧ VfDone (bump s) t vf { vfOf s vf with inDropped := true })
    ∧ (isAttestation (bump s) vf w.toNat = true → (vfOf s vf).attest = none →
      ∃ t, exec (.mbin vf w) s = .next t ∧ VfDone (bump s) t vf { vfOf s vf with attest := some w }))
  ∧ (∀ (vf : Nat) (s : State), hostReaches s = true →
    (∀ m rest, (vfOf s vf).modq = m :: rest → ∃ t, exec (.mbostPop vf) s = .next t ∧
      VfDone (bump s) t vf { vfOf s vf with modq := rest })
    ∧ ((vfOf s vf).modq = [] → ∃ t, exec (.mbostPop vf) s = .next t ∧
      VfDone (bump s) t vf { vfOf s vf with outq := (vfOf s vf).outq.tail }))
  ∧ (∀ (s : State), portsUp s = true →
    (s.io.mbiTaken.isSome = true → exec .pfmbstSend s = .next { bump s with io := { s.io with mbLost := true } })
    ∧ (s.io.mbiTaken = none → exec .pfmbstSend s = .next
      { bump s with io := { s.io with mbiTaken := some ((List.range 8).map fun i => s.io.mbi.get 0 i) } })
    ∧ outsideStep .messageCopied s = { bump s with io := Sys2Proof.Claims.copied s.io }
    ∧ exec .pfmbstPop s = .next { bump s with io := { s.io with
        mbo := s.io.mbo.tail ++ s.io.mbWait.take 1, mbWait := s.io.mbWait.drop 1 } })
  ∧ (∀ (s : State) (m : List Word) (pa n : Nat), (Sys2Proof.Claims.requests s 0x10).head? = some m →
    s.io.mbo.length < 8 → pa = (m.getD 1 0).toNat → n = (m.getD 2 0).toNat →
    (hbmBuffer s pa n = false → exec .identityCertificateChain s = .next
      { bump s with io := Sys2Proof.Claims.answered s m [0x8010, 2, 0] })
    ∧ (hbmBuffer s pa n = true → n < certificateChain.length → exec .identityCertificateChain s = .next
      { bump s with io := Sys2Proof.Claims.answered s m [0x8010, 1, 0] })
    ∧ (hbmBuffer s pa n = true → certificateChain.length ≤ n → ∃ u, u = physWrite (bump s) pa certificateChain ∧
      exec .identityCertificateChain s = .next
        { u with io := Sys2Proof.Claims.answered u m [0x8010, 0, BitVec.ofNat 64 certificateChain.length] }))
  ∧ (∀ (s : State) (m : List Word) (pa n : Nat) (r : List Byte),
    (Sys2Proof.Claims.requests s 0x11).head? = some m → s.io.mbo.length < 8 → pa = (m.getD 5 0).toNat → n = (m.getD 6 0).toNat →
    r = attestReport (bump s) ((m.drop 1).take 4) (coveredVfs s (m.getD 7 0).toNat) →
    (hbmBuffer s pa n = false → exec (.attestationRequest none) s = .next
      { bump s with io := Sys2Proof.Claims.answered s m [0x8011, 2, 0] })
    ∧ (hbmBuffer s pa n = true → n < r.length → exec (.attestationRequest none) s = .next
      { bump s with io := Sys2Proof.Claims.answered s m [0x8011, 1, 0] })
    ∧ (hbmBuffer s pa n = true → r.length ≤ n → ∃ u, u = physWrite (bump s) pa r ∧
      exec (.attestationRequest none) s = .next
        { u with io := Sys2Proof.Claims.answered u m [0x8011, 0, BitVec.ofNat 64 r.length] }))
  ∧ (∀ (s u : State) (vf : Nat) (a : Word) (b r : List Byte) (va pa : Nat), (vfOf s vf).attest = some a →
    attestHeld (bump s) vf a.toNat = false →
    u = vaTouch (modVf (bump s) vf fun v => { v with attest := none }) vf a.toNat 64 → vaRead u vf a.toNat 64 = .ok b → va = word64At b 40 →
    va % 4096 = 0 → va < 2 ^ 64 →
    r = attestReport u ((List.range 4).map fun i => BitVec.ofNat 64 (word64At b (8 + 8 * i))) (coveredVfs u vf) →
    va / 65536 = (va + word64At b 48 - 1) / 65536 → translateVf u vf va 1 = .ok pa → r.length ≤ word64At b 48 →
    word64At b 48 < 2 ^ 64 →
    ∃ t, exec (.attestationRequest (some vf)) s = .next t ∧ VfDone (vaWrite u vf va r) t vf
      (Sys2Proof.Claims.told (vfOf (vaWrite u vf va r) vf) [0x8011, 0, BitVec.ofNat 64 r.length]))
  ∧ (∀ (s : State) (chain signature : Bool) (m : List Word) (vf base : Nat),
    (Sys2Proof.Claims.requests s 0x20).head? = some m → s.io.mbo.length < 8 → vf = (m.getD 1 0).toNat % 32 → base = (m.getD 2 0).toNat →
    (importVale s vf base = none → exec (.saveAreaImport chain signature) s = .next
      { bump s with io := Sys2Proof.Claims.answered s m [0x8020, 3] })
    ∧ (∀ v, importVale s vf base = some v → ∃ t x r, exec (.saveAreaImport chain signature) s = .next t ∧
      t.io = Sys2Proof.Claims.answered s m [0x8020, BitVec.ofNat 64 r]
      ∧ (chain = false → r = 1) ∧ (chain = true → signature = false → r = 2)
      ∧ (chain = true → signature = true → r = 0 ∨ r = 3) ∧ (r ≠ 0 → t.mem = s.mem)
      ∧ (ctxOf t vf v).image = some x ∧ (x.accepted = true ↔ r = 0)
      ∧ (r ≠ 0 → (ctxOf t vf v).generation = leNat (s.mem.readN (base + 0x8008) 8))
      ∧ t = { bump s with mem := t.mem, io := t.io, contexts := t.contexts }))

/-- R12, R350, R353, R355, R358, R449 and R450: what the host does to memories, registers, ports and time. Where the
manual leaves room, the reading is the model's own: log entries 94, 95, 99 and 178. -/
def Obligations.HostTransactionsPortsAndTime : Prop :=
  (∀ (pa : Nat) (data : List Byte) (poison : List Bool) (s : State), hostReaches s = true →
    (inSomeRange s pa data.length = false → exec (.pfMemoryWrite pa data poison) s = .next
      { bump s with reply := some { error := true } })
    ∧ (inSomeRange s pa data.length = true → (linesOf pa data.length).any (fun l => parkFull s (128 * l)) = false →
      ∃ u, u = physPoison (physWrite { bump s with reply := none } pa data) (flaggedWords pa poison) ∧
        exec (.pfMemoryWrite pa data poison) s = .next { u with reply := some {} }))
  ∧ (∀ (pa len : Nat) (s : State), hostReaches s = true →
    (inSomeRange s pa len = false → exec (.pfMemoryRead pa len) s = .next { bump s with reply := some { error := true } })
    ∧ (inSomeRange s pa len = true → parkedIn s pa len = false → ∃ u, u = touch { bump s with reply := none } pa len ∧
      exec (.pfMemoryRead pa len) s = .next { u with reply := some { data := physRead u pa len, poison := (List.range ((pa + len + 63) / 64 - pa / 64)).map fun i => physPoisoned u ((pa / 64 + i) * 64) 64 } }))
  ∧ (∀ (vf va : Nat) (data : List Byte) (s : State), hostReaches s = true → rangeWalkHeld s vf va data.length = false →
    (vaPieces s vf va data.length 1 = none → exec (.vfMemoryWrite vf va data) s = .next
      { bump s with reply := some { error := true } })
    ∧ (∀ l, vaPieces s vf va data.length 1 = some l →
      l.any (fun p => (linesOf p.1 p.2).any fun x => parkFull s (128 * x)) = false →
      ∃ u, u = vaWrite { bump s with reply := none } vf va data ∧
        exec (.vfMemoryWrite vf va data) s = .next { u with reply := some {} }))
  ∧ (∀ (vf va len : Nat) (s : State), hostReaches s = true → rangeWalkHeld s vf va len = false →
    (vaPieces s vf va len 0 = none → exec (.vfMemoryRead vf va len) s = .next
      { bump s with reply := some { error := true } })
    ∧ (∀ l, vaPieces s vf va len 0 = some l → l.any (fun p => parkedIn s p.1 p.2) = false → pulling s = false →
      exec (.vfMemoryRead vf va len) s = .next
        { bump s with reply := some { data := l.flatMap fun p => s.mem.readN p.1 p.2 } }))
  ∧ (∀ (vf : Nat) (w : Word) (s : State), hostReaches s = true → vf < 32 →
    (∃ t, exec (.registerWrite none (0x10000 + 256 * vf) w) s = .next t ∧
      VfDone (bump s) t vf { vfOf s vf with root := w &&& 0xFFFFFFFFF000 })
    ∧ (∃ t, exec (.registerWrite none (0x10008 + 256 * vf) w) s = .next t ∧
      VfDone (bump s) t vf { vfOf s vf with hbase := w.setWidth 32, hset := true })
    ∧ (∃ t, exec (.registerWrite none (0x10010 + 256 * vf) w) s = .next t ∧
      VfDone (bump s) t vf { vfOf s vf with hlim := w.setWidth 32, hset := true })
    ∧ (∃ t, exec (.registerWrite none (0x10018 + 256 * vf) w) s = .next t ∧
      VfDone (bump s) t vf { vfOf s vf with cbase := w.setWidth 32 })
    ∧ (∃ t, exec (.registerWrite none (0x10020 + 256 * vf) w) s = .next t ∧
      VfDone (bump s) t vf { vfOf s vf with clim := w.setWidth 32 })
    ∧ exec (.registerWrite none 0x1010 w) s = .next { bump s with io := { s.io with mdnode := w.setWidth 24 } }
    ∧ (∀ i, i < 8 → exec (.registerWrite none (0x1100 + 8 * i) w) s = .next
      { bump s with io := { s.io with mbi := s.io.mbi.put 0 i w } })
    ∧ (∀ o ∈ [0x0, 0x8, 0x1008, 0x1018, 0x1020, 0x1140, 0x10050, 0x60008], exec (.registerWrite none o w) s = .next (bump s))
    ∧ (∀ o ∈ [0x40, 0x48, 0x800, 0x1000], exec (.registerWrite (some vf) o w) s = .next (bump s))
    ∧ exec (.registerWrite (some vf) 0 w) s = exec (.lnchv vf w) s
    ∧ exec (.registerWrite (some vf) 8 w) s = exec (.vfimg vf w) s
    ∧ exec (.registerWrite (some vf) 0x10 w) s = exec (.mbin vf w) s)
  ∧ (∀ (p : Nat) (s : State), ∃ t u, exec (.ndetuPortDown p) s = .next t ∧ exec (.ndetuPortUp p) s = .next u ∧
    t = { bump s with io := { s.io with portDown := t.io.portDown } } ∧ u = { bump s with io := { s.io with portDown := u.io.portDown } }
    ∧ (∀ q, q ∈ t.io.portDown ↔ q = p ∨ q ∈ s.io.portDown) ∧ (∀ q, q ∈ u.io.portDown ↔ q ≠ p ∧ q ∈ s.io.portDown))
  ∧ (∀ (p : Nat) (x : PtpSample) (s : State),
    ((p = 0 ∧ 0 ∉ s.io.portDown) ∨ (p = 1 ∧ 0 ∈ s.io.portDown ∧ 1 ∉ s.io.portDown)) → (s.io.steady = true → x.offset.natAbs ≤ 2) →
    ∃ t n, exec (.ptpMessage p x) s = .next t ∧ n = (if x.offset.natAbs ≤ 2 then s.io.inBound + 1 else 0)
      ∧ t.io.nsOff = BitVec.ofInt 32 x.offset ∧ t.io.ratePpb = max (-500000) (min 500000 x.ratePpb) ∧ t.io.inBound = n
      ∧ (t.io.steady = true ↔ s.io.steady = true ∨ 16 ≤ n)
      ∧ (s.io.steady = true ∨ -100 ≤ x.offset → t.nstime = s.nstime)
      ∧ (s.io.steady = false → x.offset < -100 → t.nstime = s.nstime + BitVec.ofNat 64 x.offset.natAbs)
      ∧ (16 ≤ n → t.io.nsHold = 0)
      ∧ (n < 16 → s.io.steady = true → t.io.nsHold = s.io.nsHold)
      ∧ (n < 16 → s.io.steady = false → x.offset < 0 → t.io.nsHold = 0)
      ∧ (n < 16 → s.io.steady = false → 0 ≤ x.offset → s.io.nsHold = 0 → x.offset ≤ 100 → t.io.nsHold = 0)
      ∧ (n < 16 → s.io.steady = false → 0 ≤ x.offset → s.io.nsHold ≠ 0 ∨ 100 < x.offset → t.io.nsHold = x.offset.toNat)
      ∧ t = { bump s with nstime := t.nstime, io := { s.io with nsOff := t.io.nsOff, ratePpb := t.io.ratePpb, inBound := t.io.inBound, steady := t.io.steady, nsHold := t.io.nsHold } })
  ∧ (∀ (p : Nat) (x : PtpSample) (s : State), s.io.steady = true → 2 < x.offset.natAbs →
    exec (.ptpMessage p x) s = .next (bump s))
  ∧ (∀ (k : Nat) (s : State),
    (k ∈ s.io.retired → exec (.coreRetirement k) s = .next (bump s))
    ∧ (k ∉ s.io.retired → ∃ t, exec (.coreRetirement k) s = .next t
      ∧ (∀ q, q ∈ t.io.retired ↔ q = k ∨ q ∈ s.io.retired) ∧ retiredIn t (k / 192) = (retiredIn s (k / 192) + 1) % 256
      ∧ (∀ v, v ≠ k / 192 → retiredIn t v = retiredIn s v)
      ∧ t = { bump s with io := { s.io with retired := t.io.retired, mdret := t.io.mdret } }))

namespace Sys2Proof.Claims

/-- Every field is at its reset value except NSTIME and its rate, memory, the turns to come, the model's counters, and
what the module keeps over a reset. -/
def AtReset (t : State) : Prop :=
  t = { State.reset with
    nstime := t.nstime, mem := t.mem, agenda := t.agenda, ctl := t.ctl, free := t.free, undefGen := t.undefGen
    io := { State.reset.io with
      boot := t.io.boot, bootFailed := t.io.bootFailed, bootCount := t.io.bootCount, mbo := t.io.mbo
      portDown := t.io.portDown, retired := t.io.retired, mdret := t.io.mdret, cxlGiB := t.io.cxlGiB
      ratePpb := t.io.ratePpb, nsFrac := t.io.nsFrac, nsHold := t.io.nsHold }
    energy := { State.reset.energy with
      factors := t.energy.factors, ops := t.energy.ops, settled := t.energy.settled, idle := t.energy.idle } }

/-- A Vale is the hottest of the eight, above 95 °C (R367). -/
def Hottest (s : State) (v : Nat) : Prop :=
  v < 8 ∧ 95 < valeTemperature s v ∧ ∀ u, u < 8 → valeTemperature s u ≤ valeTemperature s v

/-- The scheduler's trace class is off for a virtual function in every Vale (R351). -/
def Untraced (s : State) (vf : Nat) : Prop := ∀ v, (traceBuf s vf v).en.getLsbD 6 = false

end Sys2Proof.Claims

/-- R393: the preloaded END and what an `mcall` of an entry never written does. -/
def Obligations.ResetPreloadsEndMicrowords : Prop :=
  (∀ (s : State), portsUp s = true → ∃ t, exec .moduleReset s = .next t ∧ ∀ k,
    (∀ n, 4095 ≤ n → n ≤ 8191 → microword (coreOf t k) n = 0x3000000000000000)
    ∧ (∀ n, 64 ≤ n → n ≤ 255 → routine (coreOf t k) n = 4095))
  ∧ (∀ (k n : Nat) (m : MatrixCmd) (s : State), (coreOf s k).status ≠ .frozen → (coreOf s k).matrixFault = false →
    (coreOf s k).mqueue[n]? = some m → m.op = 1 → 64 ≤ m.form.imm.toNat → (coreOf s k).directory.get 4095 m.form.imm.toNat = 4095 →
    m.run = some { pc := routine (coreOf s k) m.form.imm.toNat } → (∀ i, (streamOf (coreOf s k) i).freeing = false) →
    ∃ t, exec (.matrixCommandFinish k n) s = .next t ∧
      CoreDone (chargeCore (bump s) k) t k { coreOf s k with mqueue := (coreOf s k).mqueue.eraseIdx n })

/-- R98, R270, R325, R347, R351, R353, R356, R357 and R367: the reset values. Registers without one: the model's
choice. Where the manual leaves room, the reading is the model's own: log entries 1, 2, 3 and 4. -/
def Obligations.ResetLeavesTheMachine : Prop :=
  State.reset.io.boot = .running ∧ State.reset.io.ps = 0 ∧ State.reset.io.links = BitVec.allOnes 36
  ∧ State.reset.io.mbo = [] ∧ State.reset.io.mbiTaken = none ∧ State.reset.io.mbiHeld = [] ∧ State.reset.io.mbWait = [] ∧ State.reset.io.steady = false ∧ State.reset.nstime = 0
  ∧ State.reset.memOk = true ∧ State.reset.mem.wf = true
  ∧ (∀ k n, (coreOf State.reset k).status = .idle ∧ (coreOf State.reset k).s.get 0 n = 0 ∧ (coreOf State.reset k).pc = 0
    ∧ (coreOf State.reset k).p.get false n = false)
  ∧ (∀ k e, (ctlOf State.reset k).status = .idle ∧ xGet (ctlOf State.reset k) e = 0 ∧ (entryOf State.reset k e).state = .free)
  ∧ (∀ n, (vfOf State.reset n).launch = none ∧ (vfOf State.reset n).image = none ∧ (vfOf State.reset n).tq.en = false
    ∧ (vfOf State.reset n).checking = none ∧ (vfOf State.reset n).hset = false
    ∧ (vfOf State.reset n).jq = BitVec.allOnes 64 ∧ (vfOf State.reset n).jp = 1000000 ∧ (vfOf State.reset n).jused = 0
    ∧ (vfOf State.reset n).inq = [] ∧ (vfOf State.reset n).outq = [])
  ∧ (∀ j, (slotOf State.reset j).q = 1000 ∧ (slotOf State.reset j).ts = 20 ∧ (slotOf State.reset j).bound = false)

/-- R344, R364 and R367: resets, power states, temperature and supply. Where the manual leaves room, the reading is
the model's own: log entries 103 and 136. -/
def Obligations.PowerAndReset : Prop :=
  (∀ (s : State), portsUp s = true → ∃ t, exec .moduleReset s = .next t ∧ Sys2Proof.Claims.AtReset t
    ∧ t.nstime = s.nstime ∧ t.io.mbo = [] ∧ t.io.boot = (if s.io.bootFailed then .recovery else .running))
  ∧ (∀ (g : Nat × Nat) (s : State), ∃ t, exec (.powerOnReset none g) s = .next t ∧ Sys2Proof.Claims.AtReset t
    ∧ t.nstime = s.nstime ∧ t.io.mbo = [] ∧ t.io.boot = .running ∧ t.io.bootFailed = false
    ∧ t.io.bootCount = s.io.bootCount + 1 ∧ t.io.cxlGiB = (Nat.min 8192 g.1, Nat.min 8192 g.2))
  ∧ (∀ (stage reason : Nat) (g : Nat × Nat) (s : State), ∃ t, exec (.powerOnReset (some (stage, reason)) g) s = .next t ∧
    Sys2Proof.Claims.AtReset t ∧ t.nstime = s.nstime ∧ t.io.boot = .recovery ∧ t.io.bootFailed = true
    ∧ t.io.mbo = [[0x8030, BitVec.ofNat 64 stage, BitVec.ofNat 64 reason, 0, 0, 0, 0, 0]])
  ∧ (∀ (ps : BitVec 4) (s : State), portsUp s = true →
    ((ps ≠ 2 ∨ ∀ e ∈ s.slots, e.2.bound = false) →
      exec (.powerStateRequest ps) s = .next { bump s with io := { s.io with ps := ps } })
    ∧ (ps = 2 → (∃ e ∈ s.slots, e.2.bound = true) → exec (.powerStateRequest ps) s = .next (bump s)))
  ∧ (∀ (v : Nat) (n : BitVec 6) (s : State),
    (Sys2Proof.Claims.Hottest s v → (valeOf s v).swallow < n → powerNeed s v ≤ n → n ≤ 48 → swallowDue s v = true →
      ∃ t, exec (.thermalLimit v n) s = .next t ∧
      ValeDone (bump s) t v { valeOf s v with swallow := n, swallowAt := some s.nstime })
    ∧ (v < 8 → (¬ Sys2Proof.Claims.Hottest s v ∨ n ≤ (valeOf s v).swallow ∨ n < powerNeed s v ∨ 48 < n ∨ swallowDue s v = false) →
      exec (.thermalLimit v n) s = .next (bump s)))
  ∧ (∀ (s : State),
    ((∃ v, v < 8 ∧ 105 ≤ valeTemperature s v) → exec .thermalShutdown s = .next { bump s with io := { s.io with boot := .off } })
    ∧ ((∀ v, v < 8 → valeTemperature s v < 105) → exec .thermalShutdown s = .next (bump s))
    ∧ exec (.supplyRemoved true) s = .next { bump s with io := { s.io with boot := .off } }
    ∧ exec (.supplyRemoved false) s = .next { physForget (bump s) 0 (2 ^ 40) with io := { s.io with boot := .off } })
  ∧ (∀ (s : State), s.io.boot = .off → (∀ f g, (nextTurn s).2 ≠ .event (.powerOnReset f g)) → step s = .fault .poweredOff)
  ∧ (∀ (s : State) (f : Option (Nat × Nat)) (g : Nat × Nat), (nextTurn s).2 = .event (.powerOnReset f g) →
    step s = exec (.powerOnReset f g) (atTurn s))

/-- R344 to R347 and R435: clocks, meters, accounts and quotas. Where the manual leaves room, the reading is the
model's own: log entries 101, 102 and 141. -/
def Obligations.ClocksEnergyAndQuotas : Prop :=
  (∀ (v : Nat) (n : BitVec 6) (s : State),
    ((n = powerNeed s v ∨ Sys2Proof.Claims.Hottest s v ∧ powerNeed s v < n) → n ≤ 48 → swallowDue s v = true →
      ∃ t, exec (.clockSwallowUpdate v n) s = .next t ∧
      ValeDone (bump s) t v { valeOf s v with swallow := n, swallowAt := some s.nstime })
    ∧ (v < 8 → (n < powerNeed s v ∨ (powerNeed s v < n ∧ ¬ Sys2Proof.Claims.Hottest s v) ∨ 48 < n ∨ swallowDue s v = false) → exec (.clockSwallowUpdate v n) s = .next (bump s))
    ∧ (swallowDue s v = true ↔ ∀ a, (valeOf s v).swallowAt = some a → a.toNat + 10000 ≤ s.nstime.toNat))
  ∧ (∀ (rail factor : Nat) (s : State), ∃ t, exec (.meterCalibration rail factor) s = .next t
    ∧ t = { bump s with energy := { s.energy with factors := t.energy.factors } }
    ∧ t.energy.factors.find? rail = some factor
    ∧ ∀ r, r ≠ rail → t.energy.factors.find? r = s.energy.factors.find? r)
  ∧ (∀ (l : Int) (w : List (Nat × Nat)) (total : Nat), total = (w.map (·.2)).sum → total ≠ 0 →
    ((lossShares l w).map (·.2)).sum = l ∧ (lossShares l w).map (·.1) = w.map (·.1)
    ∧ ∀ (i : Nat) (a e : Nat) (b : Nat) (x : Int), w[i]? = some (a, e) → (lossShares l w)[i]? = some (b, x) →
      x = (l * e).fdiv total ∨ x = (l * e).fdiv total + 1)
  ∧ (∀ (refresh input total : Nat) (s u : State), s.energy.settled < s.nstime.toNat / 1000000 →
    u = chargeRefresh (chargeIdle (bump s)) refresh → total = (u.energy.window.map (·.2)).sum →
    (u.energy.window.map (·.1)).Nodup →
    ((input < total ∨ 9000000000000 < input) → exec (.energySettlement refresh input) s = .next (bump s))
    ∧ (total ≤ input → input ≤ 9000000000000 → ∃ t, exec (.energySettlement refresh input) s = .next t ∧ t.energy.settled = s.nstime.toNat / 1000000
      ∧ t.energy.window = []
      ∧ (total = 0 → ∀ a, t.energy.accounts.get 0 a = u.energy.accounts.get 0 a + if a = 0 then input else 0)
      ∧ (total ≠ 0 → (∀ a x, (a, x) ∈ lossShares ((input : Int) - total) u.energy.window →
          t.energy.accounts.get 0 a = (((u.energy.accounts.get 0 a : Nat) : Int) + x).toNat)
        ∧ ∀ a, (∀ x, (a, x) ∉ u.energy.window) → t.energy.accounts.get 0 a = u.energy.accounts.get 0 a)))
  ∧ (∀ (refresh input : Nat) (s : State), s.nstime.toNat / 1000000 ≤ s.energy.settled →
    exec (.energySettlement refresh input) s = .next (bump s))
  ∧ (∀ (vf : Nat) (w : Word) (s : State), hostReaches s = true → ∃ t, exec (.vfjqWrite vf w) s = .next t ∧
    VfDone (bump s) t vf { vfOf s vf with
      jq := w, exhausted := (vfOf s vf).exhausted && !decide ((vfOf s vf).jused < w.toNat) })
  ∧ (∀ (vf : Nat) (s : State) (n : Nat), n = s.nstime.toNat / (1000 * (vfOf s vf).jp.toNat) →
    ((vfOf s vf).period < n → ∃ t, exec (.quotaPeriodStart vf) s = .next t ∧
      VfDone (bump s) t vf (let u := (vfOf s vf).jused - (vfOf s vf).jq.toNat * (n - (vfOf s vf).period)
        { vfOf s vf with jused := u, exhausted := (vfOf s vf).exhausted && decide ((vfOf s vf).jq.toNat ≤ u), period := n }))
    ∧ (n ≤ (vfOf s vf).period → exec (.quotaPeriodStart vf) s = .next (bump s)))
  ∧ (∀ (vf : Nat) (s : State) (g : Nat), g = groupFirst s (groupOfVf s vf) → Sys2Proof.Claims.Untraced s vf →
    (((vfOf s vf).jused < (vfOf s vf).jq.toNat ∨ (vfOf s vf).exhausted = true) → exec (.quotaExhaustion vf) s = .next (bump s))
    ∧ ((vfOf s vf).jq.toNat ≤ (vfOf s vf).jused → (vfOf s vf).exhausted = false →
      ((slotOf s g).bound = false → ∃ t, exec (.quotaExhaustion vf) s = .next t ∧
        VfDone (noteUnready (bump s) vf) t vf { vfOf s vf with exhausted := true })
      ∧ ((slotOf s g).bound = true → vfOn s g = vf → (recordsOf s g).contains vf = true →
        ∃ t, exec (.quotaExhaustion vf) s = .next t ∧ vfOf t vf = { vfOf s vf with exhausted := true } ∧
          ∀ v, v ∈ groupVales s g → (ctxOf s vf v).status = .running → idleContext s vf v = false →
            (ctxOf t vf v).status = .stepping ∧ (ctxOf t vf v).deadline = s.nstime.toNat + 48000)))

namespace Sys2Proof.Claims

/-- Entry e is the one bound on the group that slice g stands for, it runs virtual function vf, and no preload of the
group is held. -/
def Bound (s : State) (g e vf : Nat) : Prop :=
  g < 64 ∧ isGroup s g = true ∧ boundOn s g = some e ∧ vfOn s g = vf ∧ (slotOf s g).preloaded = none

/-- Every context of a virtual function that ran on the group's Vales is being frozen (R330). -/
def Freezing (s t : State) (g vf : Nat) : Prop :=
  ∀ v ∈ groupVales s g, (ctxOf s vf v).status = .running → (ctxOf t vf v).status = .freezing

/-- A bind-record entry from its two words (R325). -/
def entryWords (w0 w1 : Word) (d : Int) : BindEntry :=
  { v := w0.getLsbD 63, bk := w0.extractLsb' 61 2, vf := w0.extractLsb' 56 5, cid := w0.extractLsb' 44 12
    w := w0.extractLsb' 36 8, prio := w0.extractLsb' 33 3, tok := w0.extractLsb' 25 8, gmax := w0.extractLsb' 19 6
    rr := w0.getLsbD 18, sva := w1.extractLsb' 12 36, deficit := d }

end Sys2Proof.Claims

/-- R325, R328, R329, R332, R429 and R434: what the hypervisor writes, and suspend and destroy. Where the manual
leaves room, the reading is the model's own: log entries 81, 83, 153 and 173. -/
def Obligations.PlacesBindRecordsAndTheHypervisor : Prop :=
  (∀ (v vf i g : Nat) (w : BitVec 16) (s : State), hostReaches s = true → g = groupFirst s (groupOfVf s vf) →
    (slotOf s g).preloaded = none → Sys2Proof.Claims.Untraced s vf →
    (active s vf v = false → ∃ t, exec (.placeTableWrite v vf i w) s = .next t ∧
      ValeDone (bump s) t v { valeOf s v with maps := (valeOf s v).maps.modify {} vf fun m => { m with written := m.written.put 0 i (w &&& 0x80FF), bad := false } })
    ∧ (∀ e, Sys2Proof.Claims.Bound s g e vf → (recordsOf s g).contains vf = true →
      ∃ t, exec (.placeTableWrite v vf i w) s = .next t ∧ (placeMap t v vf).written.get 0 i = w &&& 0x80FF
        ∧ (placeMap t v vf).active = (placeMap s v vf).active
        ∧ (active s vf v = true → Sys2Proof.Claims.Freezing s t g vf)))
  ∧ (∀ (j e g : Nat) (w0 w1 : Word) (s : State), g = groupFirst s j → (slotOf s g).preloaded = none →
    (((slotOf s j).bound = false ∨ (slotOf s j).cur.toNat ≠ e) → ∃ t x, exec (.bindEntryWrite j e w0 w1) s = .next t ∧
      x = Sys2Proof.Claims.entryWords w0 w1 0 ∧
      slotOf t j = { slotOf s j with
          entries := (slotOf s j).entries.put {} e (if x = {} then x else Sys2Proof.Claims.entryWords w0 w1 ((slotOf s j).entries.get {} e).deficit)
          written := (slotOf s j).written.erase e
          unready := if x.v then (slotOf s j).unready else insertRising e (slotOf s j).unready }
      ∧ (∀ i, i ≠ j → slotOf t i = slotOf s i)
      ∧ (∀ n, vfOf t n = if x.v = true ∧ n = x.vf.toNat then { vfOf s n with suspended := false } else vfOf s n)
      ∧ t = { bump s with slots := t.slots, vfs := t.vfs })
    ∧ ((slotOf s j).bound = true → (slotOf s j).cur.toNat = e → w0.getLsbD 63 = true →
      ∃ t, exec (.bindEntryWrite j e w0 w1) s = .next t ∧ SlotTableDone (bump s) t j { slotOf s j with
        written := (slotOf s j).written.insert e (Sys2Proof.Claims.entryWords w0 w1 0) })
    ∧ (∀ vf b, (slotOf s j).bound = true → (slotOf s j).cur.toNat = e → w0.getLsbD 63 = false →
      Sys2Proof.Claims.Bound s g b vf → Sys2Proof.Claims.Untraced s vf →
      ∃ t, exec (.bindEntryWrite j e w0 w1) s = .next t ∧ Sys2Proof.Claims.Freezing s t g vf
        ∧ (slotOf t j).written.find? e = some (Sys2Proof.Claims.entryWords w0 w1 0)))
  ∧ (∀ (vf g : Nat) (s : State), g = groupFirst s (groupOfVf s vf) → (slotOf s g).preloaded = none →
    Sys2Proof.Claims.Untraced s vf →
    ((slotOf s g).bound = false → ∃ t, exec (.hypervisorSuspend vf) s = .next t ∧
      VfDone (noteUnready (bump s) vf) t vf { vfOf s vf with
        suspended := true, windows := if (vfOf s vf).dbEn = true then [] else (vfOf s vf).windows })
    ∧ (∀ e, Sys2Proof.Claims.Bound s g e vf → (recordsOf s g).contains vf = true →
      ∃ t, exec (.hypervisorSuspend vf) s = .next t ∧ (vfOf t vf).suspended = true ∧ Sys2Proof.Claims.Freezing s t g vf))
  ∧ (∀ (vf g : Nat) (s : State), g = groupFirst s (groupOfVf s vf) → (slotOf s g).preloaded = none →
    Sys2Proof.Claims.Untraced s vf →
    ((slotOf s g).bound = false → ∃ t, exec (.contextDestroy vf) s = .next t ∧
      vfOf t vf = { vfOf s vf with launch := none, windows := [] } ∧ (∀ n, n ≠ vf → vfOf t n = vfOf s n)
      ∧ (∀ v, v < 8 → ctxOf t vf v = { ctxOf s vf v with status := .unbound, image := none })
      ∧ (∀ v n, v < 8 → gangOf t v n = if (gangOf s v n).owner.isSome ∧ (gangOf s v n).vf = vf then
          { episode := (gangOf s v n).episode, tags := (gangOf s v n).tags } else gangOf s v n)
      ∧ t = { noteUnready (bump s) vf with vfs := t.vfs, contexts := t.contexts, vales := t.vales })
    ∧ (∀ e, Sys2Proof.Claims.Bound s g e vf → (recordsOf s g).contains vf = true →
      ∃ t, exec (.contextDestroy vf) s = .next t ∧ (vfOf t vf).launch = none ∧ (slotOf t g).bound = false
        ∧ ∀ v, v < 8 → (ctxOf t vf v).status = .unbound ∧ (ctxOf t vf v).image = none))

/-- R326, R327, R328, R331, R343 and R434: the round, quanta, newcomers, step limits and preloads. Where the manual
leaves room, the reading is the model's own: log entries 80, 81, 82 and 174. -/
def Obligations.TheRoundChoosesAndPreempts : Prop :=
  (∀ (run : Nat → Bool) (grant : Nat → Nat) (d d' : List Int) (i j n : Nat), d.length = 8 →
    drr run grant d i n = (some j, d') → j < 8 ∧ run j = true ∧ 0 < d'.getD j 0 ∧ d'.length = 8)
  ∧ (∀ (s : State) (g e : Nat), (∀ n ∈ (slotOf s g).newcomers, n < 8) → (chooseEntry s g).entry = some e →
    choosable s g e = true ∧ 0 < (chooseEntry s g).deficits.getD e 0)
  ∧ (∀ (s : State) (g : Nat), policyOf s g .destroy = .kill ∧ policyOf s g .rerun = .kill
    ∧ policyOf s g .quota = .step 48 ∧ policyOf s g .hypervisor = .freeze
    ∧ policyOf s g .other = (if ∃ e ∈ runningEntries s (vfOn s g),
        numAt e.2.desc 2 1 % 4 = 2
          ∨ 1000 * (slotOf s g).ts.toNat * Nat.max 1 (stepsLeft s e.1 e.2) < e.2.rte.toNat then .freeze
      else .step (slotOf s g).ts.toNat))
  ∧ (∀ (s : State) (g e vf : Nat), Sys2Proof.Claims.Bound s g e vf →
    (runnable s g e = true → (residency s g : Int) < (groupEntry s g e).deficit → asleep s g = false →
      exec (.quantumEnd g) s = .next (bump s))
    ∧ (runnable s g e = true → (groupEntry s g e).deficit ≤ residency s g ∨ asleep s g = true →
      (∀ i, i < 8 → i ≠ e → choosable s g i = false) → 0 < grantOf s g e → ∃ t n, exec (.quantumEnd g) s = .next t
        ∧ (groupEntry t g e).deficit = (groupEntry s g e).deficit - residency s g + n * grantOf s g e
        ∧ 0 < (groupEntry t g e).deficit
        ∧ ((groupEntry s g e).deficit ≤ residency s g → (groupEntry t g e).deficit ≤ grantOf s g e)
        ∧ (∀ i, i < 8 → i ≠ e → (groupEntry t g i).deficit = 0)
        ∧ (slotOf t g).since = s.nstime.toNat ∧ (slotOf t g).bound = true ∧ (slotOf t g).cur = (slotOf s g).cur
        ∧ t = { bump s with slots := t.slots })
    ∧ (∀ c, Sys2Proof.Claims.Untraced s vf → (∀ v ∈ groupVales s g, leaving s vf v = false) →
      runnable s g e = false ∨ (((groupEntry s g e).deficit ≤ residency s g ∨ asleep s g = true)
        ∧ ∃ i, i < 8 ∧ i ≠ e ∧ choosable s g i = true) →
      c = (if (vfOf s vf).jq.toNat ≤ (vfOf s vf).jused then Preempt.quota else .other) →
      ∃ t, exec (.quantumEnd g) s = .next t
        ∧ (policyOf s g c = .freeze → Sys2Proof.Claims.Freezing s t g vf)
        ∧ (∀ n, policyOf s g c = .step n → ∀ v ∈ groupVales s g, (ctxOf s vf v).status = .running →
          (idleContext s vf v = true → (ctxOf t vf v).status = .freezing)
          ∧ (idleContext s vf v = false → (ctxOf t vf v).status = .stepping ∧ (ctxOf t vf v).deadline = s.nstime.toNat + 1000 * n)))
    ∧ (∀ n, Sys2Proof.Claims.Untraced s vf → n ≠ e → choosable s g n = true →
      (groupEntry s g e).prio.toNat < (groupEntry s g n).prio.toNat → (groupEntry s g n).tok ≠ 0 →
      n ∈ (slotOf s g).unready → n ∉ (slotOf s g).newcomers → ¬ ((groupEntry s g n).prio = 7 ∧ (groupEntry s g e).rr = true) → ∃ t, exec (.newcomer g n) s = .next t
        ∧ (slotOf t g).newcomers = (slotOf s g).newcomers ++ [n]
        ∧ (slotOf t g).returnTo = (if (slotOf s g).newcomers = [] then e :: (slotOf s g).returnTo else (slotOf s g).returnTo)
        ∧ (groupEntry t g n).tok = (groupEntry s g n).tok - 1
        ∧ (policyOf s g .other = .freeze → Sys2Proof.Claims.Freezing s t g vf))
    ∧ (∀ n ∈ (slotOf s g).newcomers, exec (.newcomer g n) s = .next (bump s))
    ∧ (Sys2Proof.Claims.Untraced s vf →
      ∃ t, exec (.stepLimitExpiry g) s = .next t ∧
        ∀ v ∈ groupVales s g, (ctxOf s vf v).status = .stepping →
          ctxOf t vf v = if (ctxOf s vf v).deadline ≤ s.nstime.toNat then { ctxOf s vf v with status := .freezing } else ctxOf s vf v)
    ∧ (∀ n, (chooseEntry s g).entry = some n →
      ((n = e ∨ (groupEntry s g e).bk &&& (groupEntry s g n).bk ≠ 0) → exec (.preload g) s = .next (bump s))
      ∧ (n ≠ e → (groupEntry s g e).bk &&& (groupEntry s g n).bk = 0 →
        (∀ v ∈ groupVales s g, ∀ i, (ctxOf s (groupEntry s g n).vf.toNat v).image = some i →
          restoreFault s (groupEntry s g n).vf.toNat v i = none ∧ bankImageBad s (groupEntry s g n).vf.toNat v i = false) →
        ∃ t, exec (.preload g) s = .next t ∧ (∀ j ∈ groupSlices s g, slotOf t j = { slotOf s j with preloaded := some n })
          ∧ (∀ j, j ∉ groupSlices s g → slotOf t j = slotOf s j) ∧ t = { bump s with slots := t.slots })
      ∧ (∀ v i, n ≠ e → v ∈ groupVales s g → (ctxOf s (groupEntry s g n).vf.toNat v).image = some i →
        restoreFault s (groupEntry s g n).vf.toNat v i ≠ none ∨ bankImageBad s (groupEntry s g n).vf.toNat v i = true →
        ∃ t, exec (.preload g) s = .next t ∧ (slotOf t g).preloaded = none)))

namespace Sys2Proof.Claims

/-- What an image holds of a core x that has come to rest: its registers, the state of its units and its record; of its stash the
dirty lines, released (R334, R335). -/
def KeptInImage (x c : Core) : Prop :=
  c.pc = x.pc ∧ c.s = x.s ∧ c.p = x.p ∧ c.b = x.b ∧ c.l = x.l ∧ c.v = x.v ∧ c.vm = x.vm ∧ c.mp = x.mp ∧ c.astat = x.astat
  ∧ c.stcfg = x.stcfg ∧ c.cd = x.cd ∧ c.stream = x.stream ∧ c.sq = x.sq ∧ c.acc0 = x.acc0 ∧ c.acc1 = x.acc1
  ∧ c.mmode = x.mmode ∧ c.rowSum = x.rowSum ∧ c.colSum = x.colSum ∧ c.latch = x.latch ∧ c.latchPos = x.latchPos
  ∧ c.microwords = x.microwords ∧ c.directory = x.directory ∧ c.mqueue = x.mqueue ∧ c.spm = x.spm ∧ c.spill = x.spill
  ∧ c.pend = x.pend ∧ c.pendPoison = x.pendPoison ∧ c.loads = x.loads ∧ c.atomics = x.atomics ∧ c.barriers = x.barriers
  ∧ c.ord = x.ord ∧ c.tagSeq = x.tagSeq ∧ c.portTags = x.portTags
  ∧ ∀ l e, (l, e) ∈ c.stash ↔ ∃ y, (l, y) ∈ x.stash ∧ y.dirty ≠ 0 ∧ e = { y with owned := false }

end Sys2Proof.Claims

/-- R326, R329, R334, R341, R342, R430, R432, R453 and R454: saves, binds and restores. Where the manual leaves room,
the reading is the model's own: log entries 84, 85, 121 and 122. -/
def Obligations.ContextsAreSavedBoundAndRestored : Prop :=
  (∀ (vf v : Nat) (s : State), Sys2Proof.Claims.Untraced s vf → allStopped s vf v = true → (ctxOf s vf v).image = none →
    ∃ t i, exec (.contextSave vf v) s = .next t ∧ (ctxOf t vf v).status = .unbound ∧ (ctxOf t vf v).image = some i
      ∧ (ctxOf t vf v).generation = (ctxOf s vf v).generation + 1
      ∧ i.cores.map (·.1) = (contextCores s vf v).map (fun k => logicalKey s vf k % 192)
      ∧ (∀ k ∈ contextCores s vf v, ∃ c, (logicalKey s vf k % 192, c) ∈ i.cores ∧ Sys2Proof.Claims.KeptInImage (frozen (coreOf s k)) c)
      ∧ (∀ k ∈ contextCtls s vf v, ∃ c, (sliceKey s vf k, c) ∈ i.ctls ∧ c.x = (ctlOf s k).x ∧ c.pc = (ctlOf s k).pc
        ∧ c.priv = (ctlOf s k).priv ∧ c.csr = (ctlOf s k).csr ∧ c.macros = (ctlOf s k).macros)
      ∧ (∀ k ∈ contextCores s vf v, coreOf t k = {}) ∧ (∀ k ∈ contextCtls s vf v, ctlOf t k = { issued := (ctlOf s k).issued }))
  ∧ (∀ (m u : Mem) (a bk : Nat) (c : Core) (cursor : Nat × Nat × Nat), m.wf = true → c.spm.wf = true → c.spm.undef = [] → a % 8 = 0 →
    (∀ e ∈ c.barriers, e.1 < 8) → (∀ e ∈ c.copies, e.1 < 32) → (∀ e ∈ c.loads, e.1 < 64) → (∀ e ∈ c.atomics, e.1 < 16) →
    u = writeCoreArea m a bk c cursor →
    (∀ i, i < 64 → u.readN (a + 8 * i) 8 = leBytes 8 (c.s.get 0 i).toNat) ∧ u.readN (a + 0x200) 8 = leBytes 8 c.pc.toNat
    ∧ (∀ i, i < 8 → u.readN (a + 0x210 + 8 * i) 8 = leBytes 8 (c.b.get 0 i).toNat)
    ∧ (∀ i, i < 16 → (leNat (u.readN (a + 0x208) 8)).testBit i = c.p.get false i)
    ∧ (∀ i j, i < 56 → j < 64 → u.readN (a + 0x2800 + 256 * i + 4 * j) 4 = leBytes 4 (lane ((c.v.find? i).getD []) j).toNat)
    ∧ (∀ o, o < 0x200000 → bk % 2 = 1 → u.read (a + 0x200000 + o) = c.spm.read o)
    ∧ (∀ o, o < 0x200000 → bk / 2 % 2 = 1 → u.read (a + 0x400000 + o) = c.spm.read (0x200000 + o)))
  ∧ (∀ (g : Nat) (s : State), g < 64 → isGroup s g = true → (∀ j ∈ groupSlices s g, (slotOf s j).bound = false ∧ (slotOf s j).written = []) →
    s.io.ps ≠ 2 → s.io.boot = .running →
    ((chooseEntry s g).entry = none → ∃ t, exec (.contextBind g) s = .next t ∧ (slotOf t g).bound = false
      ∧ (slotOf t g).newcomers = [] ∧ t = { bump s with slots := t.slots })
    ∧ (∀ e vf, (chooseEntry s g).entry = some e → e < 8 → vf = (groupEntry s g e).vf.toNat → Sys2Proof.Claims.Untraced s vf →
      (∀ v r i, badMap s g vf = some (v, r, i) → ∃ t, exec (.contextBind g) s = .next t ∧ (slotOf t g).bound = false
        ∧ (placeMap t v vf).bad = true ∧ (vfOf t vf).ptErr = true
        ∧ (vfOf t vf).ptInfo = BitVec.ofNat 19 (v * 65536 + r * 256 + i))
      ∧ (badMap s g vf = none → (∀ p, (slotOf s g).preloaded = some p → Sys2Proof.Claims.Untraced s (groupEntry s g p).vf.toNat) →
        ∃ t, exec (.contextBind g) s = .next t
        ∧ (∀ j ∈ groupSlices s g, (slotOf t j).bound = true ∧ (slotOf t j).cur.toNat = e ∧ (slotOf t j).since = s.nstime.toNat
          ∧ (slotOf t j).newcomers = (slotOf s j).newcomers.filter (· != e) ∧ (slotOf t j).preloaded = none)
        ∧ ∀ v ∈ groupVales s g, ctxOf t vf v = { ctxOf s vf v with status := .binding, restored := false }
          ∧ (placeMap t v vf).active = (placeMap s v vf).written)))
  ∧ (∀ (vf v : Nat) (s : State), (ctxOf s vf v).status = .binding → (ctxOf s vf v).restored = false →
    requestsInFlight s vf = 0 → Sys2Proof.Claims.Untraced s vf →
    ((ctxOf s vf v).image = none → (vfOf s vf).inq = [] → (vfOf s vf).tq.order = [] →
      (∀ l, (vfOf s vf).launch = some l → l.pending = false) → (∀ e ∈ s.cores, e.2.replay = []) →
      (contextCtls s vf v).Nodup → v < 8 →
      ∃ t, exec (.contextRestore vf v) s = .next t ∧ (ctxOf t vf v).status = .running
        ∧ (∀ k ∈ contextCores s vf v, coreOf t k = {}) ∧ (∀ k ∈ contextCtls s vf v, ctlOf t k = { issued := (ctlOf s k).issued }))
    ∧ (∀ i, (ctxOf s vf v).image = some i →
      (∀ f, restoreFault s vf v i = some f → ∃ t, exec (.contextRestore vf v) s = .next t
        ∧ (ctxOf t vf v).status = .lost ∧ (ctxOf t vf v).image = none
        ∧ ∀ k, (coreOf t k).s = (coreOf s k).s ∧ (coreOf t k).v = (coreOf s k).v ∧ (coreOf t k).pc = (coreOf s k).pc)
      ∧ (restoreFault s vf v i = none → (∀ l, (vfOf s vf).launch = some l → l.pending = true) →
        (∀ e ∈ (valeOf s v).gangs, e.2.committing = none) → (∀ e ∈ i.gangs, e.2.committing = none) →
        (i.cores.map fun e => physCore s v vf e.1).Nodup → ∃ t, exec (.contextRestore vf v) s = .next t
        ∧ (ctxOf t vf v).image = none ∧ (ctxOf t vf v).restored = true
        ∧ ((ctxOf t vf v).status = .binding ∨ (ctxOf t vf v).status = .running)
        ∧ ∀ n c k, (n, c) ∈ i.cores → physCore s v vf n = some k →
          (coreOf t k).s = c.s ∧ (coreOf t k).p = c.p ∧ (coreOf t k).v = c.v ∧ (∀ a, (coreOf t k).spm.read a = c.spm.read a)
            ∧ (c.was ≠ .stopped → (coreOf t k).pc = c.pc))))

/-- R365 and R366: `dbgctl` stop, step, cstep and go. Where the manual leaves room, the reading is the model's own:
log entry 112. -/
def Obligations.TheDebuggerHaltsStepsAndResumes : Prop :=
  (∀ (s : State), debugVf s = none ∨ portsUp s = false → exec .debugStop s = .next (bump s) ∧ exec .debugGo s = .next (bump s)
    ∧ exec .debugStep s = .next (bump s) ∧ exec .debugCstep s = .next (bump s))
  ∧ (∀ (s : State) (vf g : Nat), portsUp s = true → debugVf s = some vf → g = groupFirst s (groupOfVf s vf) →
    Sys2Proof.Claims.Untraced s vf → s.io.dbgHalted = false →
    (∀ v ∈ groupVales s g, (ctxOf s vf v).status ≠ .binding) →
    ∃ t, exec .debugStop s = .next t ∧ t.io = { s.io with dbgHalted := true, dbgSc := 0 } ∧
      ∀ v ∈ groupVales s g, (ctxOf s vf v).status = .running → (ctxOf t vf v).status = .halted
        ∧ (∀ k ∈ contextCores s vf v, (coreOf t k).status = .frozen ∧ (coreOf t k).s = (coreOf s k).s
          ∧ (coreOf t k).v = (coreOf s k).v ∧ (coreOf t k).p = (coreOf s k).p ∧ (coreOf t k).pc = (coreOf s k).pc)
        ∧ (∀ k ∈ contextCtls s vf v, (ctlOf t k).status = .frozen ∧ (ctlOf t k).x = (ctlOf s k).x
          ∧ (ctlOf t k).pc = (ctlOf s k).pc))
  ∧ (∀ (s : State) (vf : Nat), debugVf s = some vf → s.io.dbgHalted = false →
    exec .debugGo s = .next (bump s) ∧ exec .debugStep s = .next (bump s))
  ∧ (∀ (s : State) (vf v : Nat), portsUp s = true → debugVf s = some vf → s.io.dbgHalted = true → debugVales s vf = [v] →
    (ctxOf s vf v).status = .halted → (∀ e ∈ (valeOf s v).walkers, e.2.vf ≠ vf) →
    (∀ e ∈ (valeOf s v).gangs, e.2.vf = vf → e.2.committing = none) → (contextCores s vf v).Nodup →
    (∀ k ∈ contextCores s vf v, s.mem.readN (saveBase s vf v + coreArea (logicalKey s vf k % 192) + 0xD00) 15 = List.replicate 15 0) →
    (∀ k ∈ contextCores s vf v, (coreOf s k).was = .idle ∧ (coreOf s k).status = .frozen ∧ (coreOf s k).brk = false
      ∧ (coreOf s k).mqueue = [] ∧ (coreOf s k).treq = [] ∧ (coreOf s k).copies = [] ∧ (coreOf s k).loads = []
      ∧ (coreOf s k).atomics = [] ∧ (coreOf s k).barriers = [] ∧ (coreOf s k).seq = {}) →
    ∃ t, exec .debugStep s = .next t ∧ t.io = { s.io with dbgSc := s.io.dbgSc + 1 } ∧ (ctxOf t vf v).status = .halted
      ∧ ∀ k ∈ contextCores s vf v, (coreOf t k).clk = (coreOf s k).clk + 1 ∧ (coreOf t k).status = .frozen)
  ∧ (∀ (s : State) (vf k : Nat), debugVf s = some vf → (logicalSlices s vf)[s.io.dbgSl.toNat]? = some k →
    (portsUp s = true → s.io.dbgHalted = true → (ctxOf s vf (k / 8)).status = .halted → ∃ t u, exec .debugCstep s = .next t ∧
      u = readRecords (bump s) vf (k / 8) ∧
      CtlDone (modCtx { u with agenda := (0, .ctl k) :: (0, .event .debugStop) :: s.agenda } vf (k / 8)
        fun x => { x with status := .running }) t k { ctlOf u k with status := (ctlOf u k).was }
      ∧ (∀ i n, (contextCtls s vf (k / 8))[i]? = some k → (contextCtls s vf (k / 8)).Nodup → 0 < n → n < 32 →
        xGet (ctlOf t k) n = BitVec.ofNat 64 (leNat (s.mem.readN (saveBase s vf (k / 8) + 0x10000 + 0x4000 * i + 8 * n) 8))))
    ∧ ((s.io.dbgHalted = false ∨ (ctxOf s vf (k / 8)).status ≠ .halted) → exec .debugCstep s = .next (bump s)))
  ∧ (∀ (s : State) (vf v : Nat), portsUp s = true → debugVf s = some vf → s.io.dbgHalted = true → valesOf s vf = [v] →
    (ctxOf s vf v).status = .halted → Sys2Proof.Claims.Untraced s vf →
    (∀ l, (vfOf s vf).launch = some l → l.pending = false) →
    ∃ t, exec .debugGo s = .next t ∧ t.io = { s.io with dbgHalted := false }
      ∧ ((ctxOf t vf v).status = .binding ∨ (ctxOf t vf v).status = .running)
      ∧ ∀ k ∈ contextCores s vf v, ∀ n, n < 64 → (coreOf t k).s.get 0 n =
        BitVec.ofNat 64 (leNat (s.mem.readN (saveBase s vf v + coreArea (logicalKey s vf k % 192) + 8 * n) 8)))

namespace Sys2Proof.Claims

/-- Nothing but plain memory lies behind physical addresses: no pull on first touch, no write-protect window except that of
virtual function vf, and no dirty tracking. -/
def PlainMemory (s : State) (vf : Nat) : Prop :=
  pulling s = false ∧ (∀ e ∈ s.vfs, e.2.dbEn = false) ∧ (∀ e ∈ s.vfs, e.1 ≠ vf → e.2.tier = none)
    ∧ ∀ e ∈ s.vfs, e.1 = vf → e.2.tier = (vfOf s vf).tier

end Sys2Proof.Claims

/-- R119 to R121, R348, R349 and R409: tier migration and dirty tracking. Where the manual leaves room, the reading is
the model's own: log entry 105. -/
def Obligations.TierMigrationAndDirtyTracking : Prop :=
  (∀ (vf : Nat) (w : Word) (s u : State), hostReaches s = true →
    u = modVf (bump s) vf (fun v => { v with tmcount := w.setWidth 32, tmerr := v.tmerr && !w.getLsbD 61 }) →
    (((vfOf s vf).tier.isSome = true ∨ migrationOf u vf (w.toNat % 2 ^ 32) = none) →
      ∃ t, exec (.tmctlGo vf w) s = .next t ∧
        VfDone (bump s) t vf { vfOf s vf with tmcount := w.setWidth 32, tmerr := true })
    ∧ (∀ x l, (vfOf s vf).tier = none → migrationOf u vf (w.toNat % 2 ^ 32) = some (x, l) →
      (x.window = true → ∃ t m, exec (.tmctlGo vf w) s = .next t ∧ m = l.foldl (fun st e => writeLeaf st e.1 (e.2 ||| 32)) u ∧
        VfDone m t vf { vfOf m vf with tier := some x })
      ∧ (x.window = false → (∀ e ∈ s.cores, e.2.stash = []) → ∃ t m, exec (.tmctlGo vf w) s = .next t
        ∧ m = (l.zip x.pages).foldl (fun st e => writeLeaf st e.1.1 ((e.1.2 - entryPbn e.1.2 * 65536 + e.2.2.2 * 65536) ||| 64)) u
        ∧ vfOf t vf = { vfOf m vf with tier := some { x with dropWait := rangeNeeded m vf x.va x.count } } ∧ t.mem = m.mem
        ∧ ∀ k y, y ∈ (coreOf t k).tlb ↔ y ∈ (coreOf m k).tlb ∧
          ¬ (y.vf = vf ∧ y.bits = 16 ∧ x.va ≤ y.va ∧ y.va < x.va + 65536 * x.count)))
    ∧ (∀ x l, migrationOf u vf (w.toNat % 2 ^ 32) = some (x, l) → x.count = w.toNat % 2 ^ 32 ∧ 0 < x.count
      ∧ x.va = bitsOf (vfOf s vf).tmva.toNat 55 16 * 65536 ∧ (x.window = true ↔ x.count ≤ 16)
      ∧ ∀ i, i < x.count → ownsPbn s vf ((vfOf s vf).tmdst.toNat + i) = true))
  ∧ (∀ (vf : Nat) (s : State) (x : TierMove), (vfOf s vf).tier = some x → x.window = true → rangeNeeded (bump s) vf x.va x.count = true →
    exec (.writeProtectWindowCopied vf) s = .next (bump s))
  ∧ (∀ (vf leaf old new e w : Nat) (s : State) (x : TierMove), (vfOf s vf).tier = some x → x.window = true → x.parked = [] →
    x.pages = [(leaf, old, new)] → x.leaves = [w] → w < 2 ^ 64 → rangeNeeded (bump s) vf x.va x.count = false → Sys2Proof.Claims.PlainMemory s vf →
    old ≠ new → leaf / 65536 ≠ old → leaf / 65536 ≠ new → leaf % 8 = 0 → (∀ c ∈ s.cores, c.2.stash = []) → e = leNat (s.mem.readN leaf 8) → new < 2 ^ 32 →
    ∃ t, exec (.writeProtectWindowCopied vf) s = .next t ∧ (vfOf t vf).tier = none
      ∧ (∀ i, i < 65536 → t.mem.read (new * 65536 + i) = s.mem.read (old * 65536 + i))
      ∧ (leNat (t.mem.readN leaf 8) = (w - entryPbn w * 65536 + new * 65536) - (w / 32 % 2) * 32
        ∨ e ≠ w ∧ leNat (t.mem.readN leaf 8) = e)
      ∧ (∀ a, a / 65536 ≠ new → (a < leaf ∨ leaf + 8 ≤ a) → t.mem.read a = s.mem.read a)
      ∧ ∀ k y, y ∈ (coreOf t k).tlb ↔ y ∈ (coreOf s k).tlb ∧
        ¬ (y.vf = vf ∧ y.bits = 16 ∧ x.va ≤ y.va ∧ y.va < x.va + 65536 * x.count))
  ∧ (∀ (vf l : Nat) (s : State) (x : TierMove), (∀ e ∈ s.vfs, e.2.dbEn = false) → pullsOf (vfOf s vf) = [x] → x.host = false → x.window = false →
    s.vfs = [(vf, vfOf s vf)] → nextLine x = some l → pagePresent { x with present := x.present.put false l true } (l / 512) = false →
    (∀ p ∈ x.pages, ∀ q ∈ x.pages, p.2.1 ≠ q.2.2) →
    ∃ t, exec (.backgroundPull vf) s = .next t ∧ physRead t (128 * l) 128 = physRead s (128 * l) 128
      ∧ oldByte t (128 * l) = none ∧ t = { bump s with mem := t.mem, vfs := t.vfs })
  ∧ (∀ (vf : Nat) (s : State), (pullsOf (vfOf s vf)).findSome? nextLine = none →
    ((vfOf s vf).tier = none → exec (.backgroundPull vf) s = .next (bump s))
    ∧ (∀ x, (vfOf s vf).tier = some x →
      (rangeNeeded (bump s) vf x.va x.count = true → exec (.backgroundPull vf) s = .next (bump s))
      ∧ (rangeNeeded (bump s) vf x.va x.count = false → ∃ t, exec (.backgroundPull vf) s = .next t ∧
        VfDone (bump s) t vf (endPulls { vfOf s vf with tier := some { x with dropWait := false } }))))
  ∧ (∀ (vf : Nat) (s : State), hostReaches s = true →
    (∃ t, exec (.vfdctlSnap vf) s = .next t ∧ VfDone (bump s) t vf
      (if (vfOf s vf).dbBusy then vfOf s vf else { vfOf s vf with dbCur := !(vfOf s vf).dbCur, dbBusy := true }))
    ∧ ((∀ v, v < 8 → (ctxOf s vf v).status = .unbound ∨ (ctxOf s vf v).status = .lost) → ∃ t, exec (.vfdctlSettle vf) s = .next t ∧
      VfDone (bump s) t vf { vfOf s vf with dbBusy := true, settling := true })
    ∧ ((∃ v, v < 8 ∧ (ctxOf s vf v).status ≠ .unbound ∧ (ctxOf s vf v).status ≠ .lost) → ∃ t, exec (.vfdctlSettle vf) s = .next t ∧
      VfDone (bump s) t vf { vfOf s vf with snf := true }))
  ∧ (∀ (vf : Nat) (s : State), ∃ t, exec (.dirtySwitchComplete vf) s = .next t ∧
    VfDone (bump s) t vf (if (vfOf s vf).settling then vfOf s vf else { vfOf s vf with dbBusy := false }))
  ∧ (∀ (vf : Nat) (s : State), (vfOf s vf).settling = true → (vfOf s vf).tier = none →
    ∃ t, exec (.settleComplete vf) s = .next t ∧ (vfOf t vf).dbBusy = false ∧ (vfOf t vf).settling = false
      ∧ (vfOf t vf).windows = []
      ∧ ((∀ v, v < 8 → (ctxOf s vf v).image = none) →
        VfDone (bump s) t vf { vfOf s vf with dbBusy := false, settling := false, windows := [] }))

namespace Sys2Proof.Claims

/-- The state in which core k's engine acts. -/
def atCore (s : State) (k : Nat) : State := bump { s with core := k, slot := 0 }

/-- Memory that an access finds plainly: no pull on first touch, no write-protect window, no dirty tracking. -/
def Untouched (s : State) : Prop := ∀ e ∈ s.vfs, e.2.dbEn = false ∧ e.2.tier = none ∧ e.2.hostSections = []

/-- From s to t energy has been charged, and nothing else has changed (R346). -/
def Charged (s t : State) : Prop :=
  t = { s with energy := t.energy, vfs := t.vfs } ∧ ∀ n, vfOf t n = { vfOf s n with jused := (vfOf t n).jused }

/-- Core k is now c and energy has been charged; nothing else has changed. -/
def CoreCharged (s t : State) (k : Nat) (c : Core) : Prop :=
  coreOf t k = c ∧ (∀ j, j ≠ k → coreOf t j = coreOf s j) ∧ Charged { s with cores := t.cores } t

/-- Core k after a bundle with IDLE n that only moves on: the next bundle no earlier than n clk later. -/
def movedOn (c : Core) (n : Nat) : Core :=
  { c with held := {}, fetched := none, pc := c.pc + 32, clk := c.clk + 1, earliest := c.clk + 1 + n }

/-- No slot but the S slot of a bundle has an operation. -/
def ScalarOnly (b : Bundle) : Prop := b.v0 = none ∧ b.v1 = none ∧ b.m = none ∧ b.c0 = none ∧ b.c1 = none

/-- An S operation passes its checks in u, and no stall condition holds it back (R82, R86). -/
def Passes (u : State) (i : Instr) : Prop :=
  descriptorStop u i = none ∧ stalls u [i] = false ∧ operandStop u i [] [] = none

/-- Core k has nothing to replay and is not frozen. -/
def Live (s : State) (k : Nat) : Prop :=
  (coreOf s k).status ≠ .frozen ∧ (coreOf s k).replay = [] ∧ (coreOf s k).replayed = []

end Sys2Proof.Claims

/-- R82 to R85, R87, R124, R173 and R398: fetch, issue and landing. Where the manual leaves room, the reading is the
model's own: log entry 22. -/
def Obligations.BundlesFetchIssueAndLand : Prop :=
  (∀ (k : Nat) (s : State) (c : Core), c = coreOf s k → c.status = .running → c.pc.toNat < 2 ^ 56 →
    (∀ e, c.tlb.find? (·.covers (vfOfCore s k) c.pc.toNat) = some e → e.x = true → Sys2Proof.Claims.Untouched s →
      s.mem.poisoned (e.phys c.pc.toNat) 32 = false → ∃ t, exec (.bundleFetch k) s = .next t ∧
        Sys2Proof.Claims.CoreCharged (Sys2Proof.Claims.atCore s k) t k
          { c with tlb := tlbFill 512 c.tlb e, fetched := some (c.pc, s.mem.readN (e.phys c.pc.toNat) 32) })
    ∧ (c.tlb.find? (·.covers (vfOfCore s k) c.pc.toNat) = none → c.treq.find? 0x80 = none →
      ∃ t, exec (.bundleFetch k) s = .next t ∧ CoreDone (Sys2Proof.Claims.atCore s k) t k
        { c with treq := c.treq.insert 0x80 { va := c.pc.toNat, access := 3, agent := 0 } }))
  ∧ (∀ (k : Nat) (s u : State) (c : Core) (b : Bundle), (coreOf s k).status = .running → (coreOf s k).replay = [] →
    (ctxOf s (vfOfCore s k) (k / 192)).status ≠ .binding → u = landOn (Sys2Proof.Claims.atCore s k) k (atIssueClk (coreOf s k)) → c = coreOf u k → fetchedBundle c = some (.ok b) →
    Sys2Proof.Claims.ScalarOnly b → c.l = [] → c.stores = [] → c.branch = none → c.trap = none → answered c = false → overflowed c = false →
    (b.s = none → ∃ t, exec (.bundleIssue k) s = .next t
      ∧ Sys2Proof.Claims.CoreCharged u t k (Sys2Proof.Claims.movedOn c b.idle))
    ∧ (∀ f, b.s = some (.addi f) → Sys2Proof.Claims.Passes u (.addi f) → ∃ t, exec (.bundleIssue k) s = .next t
      ∧ Sys2Proof.Claims.CoreCharged u t k (Sys2Proof.Claims.movedOn
        (sResult c f.sd.toNat (sRead u f.sa.toNat + immOf f.imm f.ext) 1) b.idle))
    ∧ (∀ sa, b.s = some (.sleep sa) → fetchedBundle (coreOf s k) = some (.ok b) → Sys2Proof.Claims.Passes u (.sleep sa) →
      (sRead { s with core := k } sa.toNat).toNat ≤ s.nstime.toNat → ∃ t, exec (.coreSleepWake k) s = .next t
        ∧ Sys2Proof.Claims.CoreCharged u t k (Sys2Proof.Claims.movedOn c b.idle)))
  ∧ (∀ (k : Nat) (s u : State) (c : Core), (coreOf s k).status = .running → (coreOf s k).replay = [] →
    (ctxOf s (vfOfCore s k) (k / 192)).status ≠ .binding → u = landOn (Sys2Proof.Claims.atCore s k) k (atIssueClk (coreOf s k)) → c = coreOf u k →
    (∀ b, fetchedBundle c = some (.ok b) → b.s = none → stalls u ((popOrder b).map (·.2)) = true →
      firstStop ((reportOrder b).map fun e => descriptorStop { u with slot := e.1 } e.2) = none →
      ∃ t, exec (.bundleIssue k) s = .next t ∧ CoreDone u t k { c with clk := c.clk + 1 })
    ∧ (fetchedBundle c = none → ∃ t, exec (.bundleIssue k) s = .next t ∧ CoreDone u t k { c with clk := c.clk + 1 })
    ∧ (∀ f, fetchedBundle c = some (.error f) → ∃ t, exec (.bundleIssue k) s = .next t ∧ (coreOf t k).status = .stopped
      ∧ (coreOf t k).pc = c.pc))
  ∧ (∀ (k i : Nat) (s : State) (c : Core) (p : Pending), c = coreOf s k → c.pending[i]? = some p →
    ((c.status = .frozen ∨ p.landed = true ∨ c.clk ≤ p.issued) → exec (.resultLanding k i) s = .next (bump s))
    ∧ (c.status ≠ .frozen → p.landed = false → p.issued < c.clk → superseded { p with landed := true } (c.pending.drop (i + 1)) = false →
      (∀ j, (streamOf c j).freeing = false) →
      (∀ n, p.dest = .s n → ∃ t, exec (.resultLanding k i) s = .next t ∧ CoreDone (bump s) t k { c with
        pending := c.pending.set i { p with landed := true }, astat := astatMerge c.astat p.flags, s := c.s.put 0 n p.scalar })
      ∧ (∀ n, p.dest = .p n → ∃ t, exec (.resultLanding k i) s = .next t ∧ CoreDone (bump s) t k { c with
        pending := c.pending.set i { p with landed := true }, astat := astatMerge c.astat p.flags
        p := c.p.put false n (p.scalar != 0) })
      ∧ (∀ n, p.dest = .v n → ∃ t, exec (.resultLanding k i) s = .next t ∧ CoreDone (bump s) t k { c with
        pending := c.pending.set i { p with landed := true }, astat := astatMerge c.astat p.flags
        v := c.v.put [] n ((List.range 64).map fun j => if p.mask.getLsbD j then p.lanes.getD j 0 else (c.v.get [] n).getD j 0) })))
  ∧ (∀ (k : Nat) (s : State) (b : Bundle) (sa : BitVec 6), fetchedBundle (coreOf s k) = some (.ok b) → b.s = some (.sleep sa) →
    ((sRead { s with core := k } sa.toNat).toNat ≤ s.nstime.toNat → exec (.coreSleepWake k) s = exec (.bundleIssue k) s)
    ∧ (s.nstime.toNat < (sRead { s with core := k } sa.toNat).toNat → exec (.coreSleepWake k) s = .next (bump s)))

/-- R99, R101, R105, R398 and R399: the Vale TLB, walks and stash fills. Where the manual leaves room, the reading is
the model's own: log entries 29, 137, 161 and 172. -/
def Obligations.TranslationsAndFillsReachTheirCore : Prop :=
  (∀ (k i : Nat) (s : State) (c : Core) (v : Vale) (r : TransReq), c = coreOf s k → v = valeOf s (k / 192) →
    c.status ≠ .frozen → c.treq.find? i = some r → r.walking = false →
    (∀ e, v.tlb.find? (·.covers (vfOfCore s k) r.va) = some e → leafCheck r.access e = none →
      ∃ t, exec (.valeTlbLookup k i) s = .next t
        ∧ CoreDone (bump s) t k { c with treq := c.treq.erase i, tlb := tlbFill 512 c.tlb e })
    ∧ (∀ w, v.tlb.find? (·.covers (vfOfCore s k) r.va) = none →
      (∀ e ∈ v.walkers, ¬ (e.2.vf = vfOfCore s k ∧ e.2.va / 65536 = r.va / 65536)) →
      (∀ e ∈ v.missQueue, ¬ (e.vf = vfOfCore s k ∧ e.va / 65536 = r.va / 65536)) → freeIndex v.walkers 64 = some w →
      ∃ t, exec (.valeTlbLookup k i) s = .next t
        ∧ coreOf t k = { c with treq := c.treq.insert i { r with walking := true } } ∧ (∀ j, j ≠ k → coreOf t j = coreOf s j)
        ∧ valeOf t (k / 192) = { v with walkers := v.walkers.insert w { vf := vfOfCore s k, va := r.va, waiters := [(k, i)] } }
        ∧ (∀ n, n ≠ k / 192 → valeOf t n = valeOf s n) ∧ t = { bump s with cores := t.cores, vales := t.vales }))
  ∧ (∀ (n w k i : Nat) (s u : State) (c : Core) (v : Vale) (r : TransReq) (q : Walk) (table level : Nat), c = coreOf s k → v = valeOf s n →
    c.status ≠ .frozen → c.treq.find? i = some r → v.walkers.find? w = some q → q.waiters = [(k, i)] → v.missQueue = [] →
    Sys2Proof.Claims.Untouched s → v.lostRead = none → u = modVale (bump s) n (fun v => { v with walkers := v.walkers.erase w }) →
    walkStart u n q.vf q.va = some (table, level) →
    (∀ e, walkFrom u q.vf q.va table level = .ok e → leafCheck r.access e = none →
      ∃ t, exec (.pageWalkComplete n w false) s = .next t
        ∧ coreOf t k = { c with treq := c.treq.erase i, tlb := tlbFill 512 c.tlb e } ∧ (∀ j, j ≠ k → coreOf t j = coreOf s j)
        ∧ valeOf t n = { v with walkers := v.walkers.erase w, tlb := (valeOf t n).tlb, ptrs := (valeOf t n).ptrs } ∧ e ∈ (valeOf t n).tlb
        ∧ (∀ m, m ≠ n → valeOf t m = valeOf s m)
        ∧ Sys2Proof.Claims.Charged { bump s with cores := t.cores, vales := t.vales } t)
    ∧ (∀ f, walkFrom u q.vf q.va table level = .bad f → i = 0x80 → f.cause < 0x10 → (vfOf s (vfOfCore s k)).tq.en = false →
      ∃ t, exec (.pageWalkComplete n w false) s = .next t ∧ (coreOf t k).status = .stopped
        ∧ (coreOf t k).tlb = c.tlb ∧ (valeOf t n).tlb = v.tlb ∧ (valeOf t n).ptrs = v.ptrs ∧ (valeOf t n).walkers = v.walkers.erase w)
    ∧ (i = 0x80 → (vfOf s (vfOfCore s k)).tq.en = false → ∃ t, exec (.pageWalkComplete n w true) s = .next t
      ∧ (coreOf t k).status = .stopped ∧ (coreOf t k).tlb = c.tlb ∧ (valeOf t n).tlb = v.tlb ∧ (valeOf t n).ptrs = v.ptrs))
  ∧ (∀ (n w : Nat) (s : State) (q : Walk), (valeOf s n).walkers.find? w = some q → walkHeld (bump s) (some n) q.vf q.va = true →
    exec (.pageWalkComplete n w false) s = .next (bump s))
  ∧ (∀ (k e i : Nat) (s : State) (c d : Core) (x : LoadEntry) (y : TlbEntry) (a p : Nat), c = coreOf s k → Sys2Proof.Claims.Live s k →
    c.loads.find? e = some x → x.kind ≠ 2 → x.faulted = false → a = x.addr.toNat → a < 2 ^ 56 →
    c.tlb.find? (·.covers (vfOfCore s k) a) = some y → (x.write = true → y.w = true) → Sys2Proof.Claims.Untouched s →
    p = y.phys a / 128 * 128 → s.mem.poisoned p 128 = false →
    (∀ g, g < 4 → copyRaces s none (p / 32 + g) = []) → stashVictim c = some (i, none) → c.pend = [] → c.pendPoison = [] →
    overflowed c = false →
    d = { c with
      tlb := tlbFill 512 c.tlb y, spm := c.spm.store (stashOffset c i) (s.mem.readN p 128), loads := c.loads.erase e
      ord := c.ord.filter (· != 0x20 + e)
      stash := c.stash.insert i { va := a / 128 * 128, pa := p, w := y.w, used := c.clk } } →
    ∃ t, exec (.stashFill k e) s = .next t ∧ Sys2Proof.Claims.CoreCharged (bump s) t k d)

/-- R107, R108, R140, R339 and R340: atomics applied, acknowledged and granted. Where the manual leaves room, the
reading is the model's own: log entry 9. -/
def Obligations.AtomicsApplyAndAnswer : Prop :=
  (∀ (k e i o a old : Nat) (s : State) (c : Core) (x : AtomicEntry), c = coreOf s k → Sys2Proof.Claims.Live s k →
    c.atomics.find? e = some x → x.kind < 2 → x.faulted = false → x.sent = 0 → x.first = 0 → x.resend = 0 →
    unacknowledged c < 16 → c.ord.head? = some (0x60 + e) → tagAnywhere s (coreSource s k) (x.seq0 % 2 ^ 40) = none →
    isParked s (coreSource s k) (x.seq0 % 2 ^ 40) = false → taggedOf x.addr = .localAddr a →
    resolveLocal (bump s) k a = .ok (.spm i o) → i ≠ k → portDead (bump s) k i = false → (coreOf s i).spm.poisoned o (2 ^ x.sz) = false →
    old = leNat ((coreOf s i).spm.readN o (2 ^ x.sz)) →
    ∃ t, exec (.atomicApply k e) s = .next t
      ∧ (coreOf t i).spm = (coreOf s i).spm.store o (leBytes (2 ^ x.sz)
        (if x.kind = 0 then Sys2Proof.Claims.amoNew x.aop (2 ^ x.sz) old x.operand.toNat
         else if old % 2 ^ (8 * 2 ^ x.sz) = x.operand.toNat % 2 ^ (8 * 2 ^ x.sz) then x.newv.toNat % 2 ^ (8 * 2 ^ x.sz)
         else old % 2 ^ (8 * 2 ^ x.sz)))
      ∧ (coreOf t i).portTags = storeTag (coreOf s i).portTags (coreSource s k) (x.seq0 % 2 ^ 40, BitVec.ofNat 64 old)
      ∧ coreOf t k = { c with atomics := c.atomics.insert e { x with sent := 1 }, monitors := (coreOf t k).monitors }
      ∧ (∀ j, j ≠ i → (coreOf t j).spm = (coreOf s j).spm)
      ∧ Sys2Proof.Claims.Charged { bump s with cores := t.cores, ctls := t.ctls } t)
  ∧ (∀ (k e : Nat) (s : State) (c : Core) (x : AtomicEntry) (r v : Word), c = coreOf s k → c.status ≠ .frozen →
    c.atomics.find? e = some x → x.kind < 2 → x.faulted = false → x.first = 0 → x.sent = 1 →
    tagAnywhere s (coreSource s k) (x.seq0 % 2 ^ 40) = some r →
    v = extend (2 ^ x.sz == 4) (2 ^ x.sz) r.toNat →
    ∃ t, exec (.atomicResponse k e) s = .next t ∧ CoreDone (bump s) t k
      (if x.interlocked = true ∧ c.held.atomicSent = true then { c with
        held := { c.held with atomicResult := some v }, atomics := c.atomics.insert e { x with first := 1, result := v } }
      else { c with
        atomics := c.atomics.erase e, ord := c.ord.filter (· != 0x60 + e)
        replay := c.replay.filter (· != 0x60 + e), replayed := c.replayed.filter (· != 0x60 + e) }))
  ∧ (∀ (k e pa n old : Nat) (s u : State) (x : LoadEntry), Sys2Proof.Claims.Live s k → (coreOf s k).loads.find? e = some x →
    x.kind = 2 → x.faulted = false → x.applied = false → (coreOf s k).ord.head? = some (0x20 + e) → translate (bump s) k (vfOfCore s k) x.addr.toNat 2 = (.ok pa, u) →
    Sys2Proof.Claims.Untouched s → n = 2 ^ x.sz → n ≤ 8 → pa % 128 + n ≤ 128 → x.addr.toNat % 128 = pa % 128 → s.mem.poisoned pa n = false →
    (coreOf s k).stash = [] → (coreOf s k).pend = [] → (coreOf s k).sbuf = [] → old = leNat (s.mem.readN pa n) →
    ∃ t, exec (.ownershipGrant k e) s = .next t
      ∧ (coreOf t k).loads.find? e = (if x.interlocked = true ∧ (coreOf s k).held.atomicSent = true then
          some { x with applied := true, expected := extend (n == 4) n old } else none)
      ∧ (valeOf t (k / 192)).owners.find? (pa / 128) = some k
      ∧ leNat (t.mem.readN pa n) = (if x.cas then
          (if old % 2 ^ (8 * n) = x.expected.toNat % 2 ^ (8 * n) then x.operand.toNat % 2 ^ (8 * n) else old % 2 ^ (8 * n))
        else Sys2Proof.Claims.amoNew x.aop n old x.operand.toNat)
      ∧ (∀ b, (b < pa ∨ pa + n ≤ b) → t.mem.read b = s.mem.read b)
      ∧ (coreOf t k).held = if x.interlocked = true ∧ (coreOf s k).held.atomicSent = true then
          { (coreOf s k).held with atomicResult := some (extend (n == 4) n old) } else (coreOf s k).held)

namespace Sys2Proof.Claims

/-- A core whose arrival under entry e has reached the gang barrier unit in an episode. -/
def arrivedCore (c : Core) (e : Nat) (b : BarrierEntry) (episode : Nat) : Core :=
  { c with barriers := c.barriers.insert e { b with acked := true, episode := episode }
           lastArrival := c.lastArrival.put 0 b.gang (episode + 1) }

/-- The memories and buffers of core k are in their canonical form: bytes by rising address, lines aligned and each in one slot, and
nothing of the store buffer for its own scratchpad. -/
def BuffersOk (s : State) (k : Nat) : Prop :=
  s.mem.wf = true ∧ (∀ j, (coreOf s j).spm.wf = true) ∧ FMap.sorted (coreOf s k).pend = true ∧ FMap.sorted (coreOf s k).sbuf = true
  ∧ FMap.sorted (coreOf s k).stash = true ∧ (∀ z ∈ (coreOf s k).stash, z.2.pa % 128 = 0)
  ∧ (∀ y ∈ (coreOf s k).stash, ∀ z ∈ (coreOf s k).stash, y.2.pa = z.2.pa → y = z)
  ∧ ∀ z ∈ (coreOf s k).sbuf, z.1 / 2 ^ 22 ≠ k

end Sys2Proof.Claims

/-- R75, R110, R168, R169 and R339: barrier episodes and phase boundaries. Where the manual leaves room, the reading
is the model's own: log entries 9, 58, 163 and 164. -/
def Obligations.BarriersCompleteAndBoundariesCommit : Prop :=
  (∀ (k e n : Nat) (s : State) (c : Core) (b : BarrierEntry) (x : Gang), c = coreOf s k → Sys2Proof.Claims.Live s k →
    c.barriers.find? e = some b → b.acked = false → unacknowledged c < 16 → n = logicalCore s k → x = gangOf s (k / 192) b.gang →
    ((∃ g ∈ x.tags, g.1 = coreSource s k ∧ g.2 = b.seq) → ∃ t, exec (.barrierArrival k e) s = .next t
      ∧ coreOf t k = Sys2Proof.Claims.arrivedCore c e b x.episode ∧ (∀ j, j ≠ k → coreOf t j = coreOf s j)
      ∧ Sys2Proof.Claims.Charged { bump s with cores := t.cores } t)
    ∧ ((∀ g ∈ x.tags, ¬ (g.1 = coreSource s k ∧ g.2 = b.seq)) →
      (x.members = [] ∨ ∃ m ∈ x.members, m ≠ n ∧ ∀ a ∈ x.arrived, a.1 ≠ m) → ∃ t, exec (.barrierArrival k e) s = .next t
      ∧ coreOf t k = Sys2Proof.Claims.arrivedCore c e b x.episode ∧ (∀ j, j ≠ k → coreOf t j = coreOf s j)
      ∧ gangOf t (k / 192) b.gang = { x with
          arrived := x.arrived ++ [(n, b.op)], tags := storeTag x.tags (coreSource s k) b.seq }
      ∧ Sys2Proof.Claims.Charged { bump s with cores := t.cores, vales := t.vales } t)
    ∧ ((∀ g ∈ x.tags, ¬ (g.1 = coreSource s k ∧ g.2 = b.seq)) → x.members ≠ [] →
      (∀ m ∈ x.members, m = n ∨ ∃ a ∈ x.arrived, a.1 = m) → (x.committing = none → x.commits = []) →
      ∃ t y, exec (.barrierArrival k e) s = .next t ∧ y = gangOf t (k / 192) b.gang
        ∧ y = { x with
            episode := x.episode + 1, arrived := [], leavers := [], joiners := [], members := y.members
            tags := storeTag x.tags (coreSource s k) b.seq, committing := y.committing, committers := y.committers
            granules := y.granules, commitEp := y.commitEp, commits := y.commits }
        ∧ (∀ m, m ∈ y.members ↔ m ∈ x.joiners ∨ (m ∈ x.members ∧ m ∉ x.leavers))
        ∧ ((b.op = 2 ∨ b.op = 3 ∨ ∃ a ∈ x.arrived, a.2 = 2 ∨ a.2 = 3) →
          (x.committing = none → y.committing = some x.members ∧ y.committers = x.members ∧ y.granules = 0
            ∧ y.commitEp = x.episode + 1 ∧ y.commits = [])
          ∧ (x.committing ≠ none → y.committing = x.committing ∧ y.committers = x.committers ∧ y.granules = x.granules
            ∧ y.commits = x.commits ++ [(x.episode + 1, x.members)]))
        ∧ (¬ (b.op = 2 ∨ b.op = 3 ∨ ∃ a ∈ x.arrived, a.2 = 2 ∨ a.2 = 3) → y.committing = x.committing ∧ y.commits = x.commits)
        ∧ (∀ m ∈ x.members, ∀ j, physCore s (k / 192) x.vf m = some j →
          ∀ z ∈ (coreOf t j).barriers, ¬ (z.2.gang = b.gang ∧ z.2.acked = true ∧ z.2.episode ≤ x.episode))
        ∧ (∀ m ∈ x.joiners, ∀ j, physCore s (k / 192) x.vf m = some j → (coreOf t j).lastArrival.get 0 b.gang = 0)
        ∧ (∀ j, (coreOf t j).s = (coreOf s j).s ∧ (coreOf t j).pc = (coreOf s j).pc)
        ∧ (∀ j, j ≠ k → (∀ m ∈ x.members ++ x.joiners, physCore s (k / 192) x.vf m ≠ some j) → coreOf t j = coreOf s j)
        ∧ Sys2Proof.Claims.Charged { bump s with cores := t.cores, vales := t.vales } t))
  ∧ (∀ (v g m k : Nat) (rest : List Nat) (s : State) (c : Core) (x : Gang), x = gangOf s v g → c = coreOf s k →
    x.committing = some (m :: rest) → physCore s v x.vf m = some k → ctxFrozen s x.vf v = false →
    Sys2Proof.Claims.Untouched s → Sys2Proof.Claims.BuffersOk s k →
    (∀ gr, (gr = none ∧ rest = []) ∨ (∃ n, gr = some n ∧ (commitGranules c).length ≤ n) →
      ∃ t, exec (.phaseBoundaryComplete v g gr) s = .next t ∧ (coreOf t k).s = c.s
        ∧ (coreOf t k).pend = [] ∧ (coreOf t k).sbuf = [] ∧ (∀ z ∈ (coreOf t k).stash, z.2.dirty = 0)
        ∧ (∀ a, t.mem.read a = ((bufferedGlobal c).find? a).getD (s.mem.read a))
        ∧ (∀ j o, o < 2 ^ 22 → (coreOf t j).spm.read o = (c.sbuf.find? (j * 2 ^ 22 + o)).getD ((coreOf s j).spm.read o))
        ∧ (rest ≠ [] → gangOf t v g = { x with committing := some rest, granules := 0 })
        ∧ (rest = [] → gangOf t v g = (match x.commits with
            | [] => { x with committing := none, committers := [], granules := 0 }
            | (ep, l) :: later => { x with committing := some l, committers := l, granules := 0, commitEp := ep, commits := later })
          ∧ ∀ n ∈ x.committers, ∀ j, physCore s v x.vf n = some j → ∀ z ∈ (coreOf t j).stash, z.2.owned = true ∨ z.2.dirty ≠ 0))
    ∧ (∀ n, n < (commitGranules c).length → ∃ t, exec (.phaseBoundaryComplete v g (some n)) s = .next t
      ∧ (coreOf t k).s = c.s ∧ commitGranules (coreOf t k) = (commitGranules c).drop n
      ∧ (∀ p ∈ (commitGranules c).take n, ∀ z ∈ p.2,
        if p.1 then (coreOf t (z.1 / 2 ^ 22)).spm.read (z.1 % 2 ^ 22) = z.2 else t.mem.read z.1 = z.2)
      ∧ gangOf t v g = { x with granules := x.granules + n }))
  ∧ (∀ (s : State) (k : Nat) (c : Core), c = coreOf s k → Sys2Proof.Claims.BuffersOk s k →
    (∀ z ∈ c.stash, ∀ i, i < 128 → z.2.dirty.getLsbD i = true →
      (bufferedGlobal c).find? (z.2.pa + i) = some (c.spm.read (stashOffset c z.1 + i)))
    ∧ (∀ a, (∀ z ∈ c.stash, ∀ i, i < 128 → z.2.dirty.getLsbD i = true → a ≠ z.2.pa + i) →
      (bufferedGlobal c).find? a = c.pend.find? a))
  ∧ (∀ (v g : Nat) (n : Option Nat) (s : State), (gangOf s v g).committing = none ∨ ctxFrozen s (gangOf s v g).vf v = true →
    exec (.phaseBoundaryComplete v g n) s = .next (bump s))

namespace Sys2Proof.Claims

/-- Element number i of a tile, n bytes each, in the sequencer's buffer. -/
def tileElem (c : Core) (parity j n i : Nat) : Nat := leNat (c.seq.buf.readN (bufAt parity j false + n * i) n)

/-- Lanes of the tiles of A and B in a step, and k-steps. -/
def extents (m : Macro) (step na nb nk : Nat) : Prop :=
  na = (m.span step 2).2 - (m.span step 2).1 ∧ nb = (m.span step 1).2 - (m.span step 1).1 ∧ nk = (m.span step 0).2 - (m.span step 0).1
    ∧ na ≤ 128 ∧ nb ≤ 128 ∧ (m.tn 0).sbase = 0 ∧ (m.tn 1).sbase = 0 ∧ m.p0 % 2 = 0

/-- The cell that a chain begins step with: zero in its first (R251). -/
def chainCell (c : Core) (m : Macro) (step i j : Nat) : BitVec 32 :=
  if (indicesOf step m.counts).getD 0 0 = 0 then 0 else c.acc0.cells.get 0 (128 * i + j)

/-- What the epilogue makes of a cell x of column j (R251). -/
def outputOf (c : Core) (m : Macro) (parity nb j : Nat) (kind : BankKind) (x : Nat) : Nat :=
  let ty := (tyOf (m.tn 2).ty).getD .fp32
  let rm := rmOf (BitVec.ofNat 2 (m.p0 / 16))
  let integer := kind == .int32
  let row := fun r => tileElem c parity 3 4 (r * nb + j)
  if m.p0 / 64 % 4 = 1 then (requant ty (signedOf 32 x) (signedOf 32 (row 0)) (m.p0 / 256 % 64) (signedOf 32 (row 1))).1
  else if m.p0 / 64 % 4 = 2 then
    (cvt ty .fp32 rm true (add32 .rne (if integer then ofInt (signedOf 32 x) else decode .fp32 x) (decode .fp32 (row 0))).1).1
  else (cvt ty (if integer then .int32 else .fp32) rm true x).1

/-- Elements of keys by chunk with a digit: how many of a chunk. -/
def digitCount (m : Macro) (p : Nat) (keys : Nat → List Nat) (chunk d : Nat) : Nat :=
  ((keys chunk).filter fun x => sortDigit m p x == d).length

/-- An FP32 pattern's value. -/
def val32 (x : Nat) : FVal := decode .fp32 x

/-- The reciprocal root of a row's mean square, of FP32 patterns (R258). -/
def rootOf (m : Macro) (sum n : Nat) : Nat :=
  (special32 4 (add32 .rne (val32 (rnd ((divExact (val32 sum) (ofInt n)).1, (divExact (val32 sum) (ofInt n)).2.1)).1)
    (val32 (m.p0 % 2 ^ 32))).1).1

end Sys2Proof.Claims

/-- R374: the fatal end of a launch. Where the manual leaves room, the reading is the model's own: log entries 91 and
114. -/
def Obligations.FatalLaunchEndStopsTheLaunch : Prop :=
  (∀ (vf : Nat) (s : State), (∀ l, (vfOf s vf).launch = some l → l.ending = false) →
    exec (.fatalLaunchEnd vf) s = .next (bump s))
  ∧ (∀ (vf v : Nat) (s u : State) (l : Launch) (q : Nat), u = landFreshOf (bump s) vf → (vfOf s vf).launch = some l → l.ending = true → valesOf s vf = [v] →
    boundIn s vf v = true → (ctxOf s vf v).image = none → (ctxOf s vf v).status = .running →
    q = (if (vfOf s vf).tq.fatalPending.isSome then (vfOf u vf).tq.seq else 0) →
    ∃ t, exec (.fatalLaunchEnd vf) s = .next t
      ∧ (vfOf t vf).launch = none ∧ (vfOf t vf).windows = [] ∧ (vfOf t vf).lnprevF = true
      ∧ (vfOf t vf).lnprevCode = BitVec.ofNat 8 l.code ∧ (vfOf t vf).lnprevSeq = BitVec.ofNat 32 q
      ∧ (vfOf t vf).modq = (vfOf s vf).modq ++ [[0x8004, l.lid, BitVec.ofNat 64 l.code, BitVec.ofNat 64 q, 0, 0, 0, 0]]
      ∧ (∀ i r, (vfOf s vf).tq.fatalPending = some (i, r) → (vfOf t vf).tq.fatalPending = none
        ∧ (vfOf t vf).tq.entries.get .free i = .written ∧ (vfOf t vf).tq.seq = ((vfOf u vf).tq.seq + 1) % 2 ^ 32)
      ∧ (∀ k ∈ contextCores s vf v, (coreOf t k).status = (if (coreOf s k).status = .frozen then .frozen else .idle)
        ∧ (coreOf t k).copies = [] ∧ (coreOf t k).loads = [] ∧ (coreOf t k).atomics = [] ∧ (coreOf t k).barriers = []
        ∧ (coreOf t k).stash = [] ∧ (coreOf t k).pend = [] ∧ (coreOf t k).sbuf = [] ∧ (coreOf t k).seq = {})
      ∧ (∀ k ∈ contextCtls s vf v, ∀ e, outstanding (entryOf s k e) = true → (entryOf t k e).state = .killed
        ∧ (entryOf t k e).reads = [] ∧ (entryOf t k e).writes = [])
      ∧ (∀ g, (gangOf s v g).owner.isSome = true → (gangOf s v g).vf = vf → (gangOf t v g).owner = none ∧ (gangOf t v g).members = [])
      ∧ (∀ p ∈ l.parts, ∀ k, (logicalSlices s vf)[p.1]? = some k → vfOfSlice s k = some vf → (ctxOf s vf (k / 8)).image = none →
        (ctlOf s k).priv = .u → (csrGet (ctlOf s k) 0x303).getLsbD 9 = true →
        (ctlOf t k).priv = .s ∧ csrGet (ctlOf t k) 0x141 = (ctlOf s k).pc ∧ csrGet (ctlOf t k) 0x142 = 0x8000000000000009)
      ∧ (∀ k, k ∉ contextCores s vf v → (coreOf t k).status = (coreOf s k).status ∧ (coreOf t k).s = (coreOf s k).s)
      ∧ (∀ n, n ≠ vf → (vfOf t n).launch = (vfOf s n).launch ∧ (vfOf t n).tq = (vfOf s n).tq))

namespace Sys2Proof.Claims

/-- The two events in which an error is found: the scrubber's, and that of an access. -/
def ErrorEvent (f : ErrorSite → Bool → Instr) : Prop := f = .patrolScrub ∨ f = .softError

end Sys2Proof.Claims

/-- R376, R377, R379, R448 and R449: errors of the module. Where the manual leaves room, the reading is the model's
own: log entries 76, 110, 111, 176 and 177. -/
def Obligations.ErrorsAreCountedPoisonedOrFatal : Prop :=
  (∀ ev, Sys2Proof.Claims.ErrorEvent ev → ∀ (s : State) (x : ErrorSite), parityOnly x = false →
    (∀ n, siteOwner s x = some n → ∃ t, exec (ev x true) s = .next t
      ∧ VfDone (bump s) t n { vfOf s n with cec := (vfOf s n).cec + 1 })
    ∧ (siteOwner s x = none →
      exec (ev x true) s = .next { bump s with io := { s.io with eccCorr := s.io.eccCorr + 1 } }))
  ∧ (∀ ev, Sys2Proof.Claims.ErrorEvent ev → ∀ (s : State) (pa : Nat),
    (firmwareLine s pa = false ∨ s.io.boot ≠ .running → ∃ t, exec (ev (.memory pa) false) s = .next t
      ∧ (∀ w, w ∈ t.mem.poison ↔ w ∈ s.mem.poison ∨ w / 8 = pa / 64)
      ∧ (∀ j, vfOf t j = { vfOf s j with
          uec := if ownerOf s pa = some j then (vfOf s j).uec + 1 else (vfOf s j).uec
          dbmErr := if bitmapOwner s pa = some j then true else (vfOf s j).dbmErr })
      ∧ t = { bump s with
          mem := { s.mem with poison := t.mem.poison }, vfs := t.vfs
          io := if (ownerOf s pa).isSome then s.io else { s.io with eccUncorr := s.io.eccUncorr + 1 } })
    ∧ (s.io.boot = .running → firmwareLine s pa = true ∨ ownerOf s pa = none ∧ pa < 2 ^ 40 →
      ∃ t, exec (ev (.memory pa) false) s = .next t ∧ t.io.boot = .recovery ∧ ∀ j, (slotOf t j).bound = false))
  ∧ (∀ ev, Sys2Proof.Claims.ErrorEvent ev → ∀ (s : State), s.io.boot = .running →
    (∀ j, ∃ t, exec (ev (.slotTable j) false) s = .next t ∧ t.io.boot = .recovery)
    ∧ ∀ unit, ∃ t, exec (ev (.sharedTags unit) false) s = .next t ∧ t.io.boot = .recovery)
  ∧ (∀ ev, Sys2Proof.Claims.ErrorEvent ev → ∀ (s : State) (v n va : Nat) (b : Bool), ∃ t, exec (ev (.valeTlb v n va) b) s = .next t
    ∧ valeOf t v = { valeOf s v with tlb := (valeOf s v).tlb.filter fun y => !y.covers n va } ∧ (∀ j, j ≠ v → valeOf t j = valeOf s j)
    ∧ vfOf t n = { vfOf s n with cec := (vfOf s n).cec + 1 } ∧ (∀ j, j ≠ n → vfOf t j = vfOf s j)
    ∧ t = { bump s with vales := t.vales, vfs := t.vfs })
  ∧ (∀ ev, Sys2Proof.Claims.ErrorEvent ev → ∀ (s : State) (k n : Nat), vfOfSlice s (sliceOfCore k) = some n →
    (∀ o, ∃ t x, exec (ev (.scratchpad k o) false) s = .next t
      ∧ coreOf t k = { coreOf s k with spm := (coreOf s k).spm.poisonWord (o / 8), seq := { (coreOf s k).seq with buf := x } }
      ∧ (x = (coreOf s k).seq.buf ∨ ∃ e ∈ (coreOf s k).seq.buf.cells, x = (coreOf s k).seq.buf.poisonWord (e.1 / 8))
      ∧ ((coreOf s k).seq.exec = none → x = (coreOf s k).seq.buf)
      ∧ (∀ d m, (coreOf s k).seq.exec = some d → d.coll = false → m = macroOf d.desc d.t3 → m.op ≠ 8 → m.rgo ≤ o →
        o < m.rgo + m.rgn * 65536 → (coreOf s k).seq.buf.cells ≠ [] →
        ∃ e ∈ (coreOf s k).seq.buf.cells, x = (coreOf s k).seq.buf.poisonWord (e.1 / 8))
      ∧ (∀ j, j ≠ k → coreOf t j = coreOf s j)
      ∧ vfOf t n = { vfOf s n with uec := (vfOf s n).uec + 1 } ∧ (∀ j, j ≠ n → vfOf t j = vfOf s j)
      ∧ t = { bump s with cores := t.cores, vfs := t.vfs })
    ∧ (∀ b x c, (x = .bundleCache k ∧ c = { coreOf s k with fetched := none })
        ∨ (∃ va, x = .tlb k va ∧ c = { coreOf s k with tlb := (coreOf s k).tlb.filter fun y => !y.covers y.vf va }) →
      ∃ t, exec (ev x b) s = .next t
        ∧ coreOf t k = c ∧ (∀ j, j ≠ k → coreOf t j = coreOf s j)
        ∧ vfOf t n = { vfOf s n with cec := (vfOf s n).cec + 1 } ∧ (∀ j, j ≠ n → vfOf t j = vfOf s j)
        ∧ t = { bump s with cores := t.cores, vfs := t.vfs })
    ∧ (∀ l, (vfOf s n).launch = some l → l.ending = false → ∃ t, exec (ev (.coreState k) false) s = .next t
      ∧ (ctxOf t n (k / 192)).status = .lost ∧ (ctxOf t n (k / 192)).image = none
      ∧ (vfOf t n).launch = some { l with ending := true, code := 0x120 }))
  ∧ (∀ (link : Nat) (s : State),
    exec (.linkRetrain link) s = .next { bump s with io := { s.io with links := s.io.links ||| (1#36 <<< link) } }
    ∧ ((∀ c ∈ s.ctls, ∀ e ∈ c.2.macros, (entryOf s c.1 e.1).isColl = false) → exec (.linkRetryExhausted link) s =
      .next { bump s with io := { s.io with links := s.io.links &&& ~~~(1#36 <<< link), eccUncorr := s.io.eccUncorr + 1 } })
    ∧ (∀ (u : State) (k e r : Nat) (c : Ctl) (m : MacroEntry), s.ctls = [(k, c)] → c.macros = [(e, m)] → m.isColl = true →
      m.state = .running → c.status ≠ .frozen →
      u = { bump s with io := { s.io with links := s.io.links &&& ~~~(1#36 <<< link), eccUncorr := s.io.eccUncorr + 1 } } →
      r ∈ (collOf m.desc).others → unreached u m.t3 r = true → (m.coll.peers.get {} r).acked < (collOf m.desc).deliveries r →
      ∃ t, exec (.linkRetryExhausted link) s = .next t
        ∧ entryOf t k e = { m with state := .stopping, recordsHeld := m.recordsHeld + 1 } ∧ t.io = u.io))
  ∧ (∀ (link : Nat) (s : State),
    exec (.valeMeshLinkFail link none) s =
      .next { bump s with io := { s.io with meshDown := insertRising link s.io.meshDown, eccUncorr := s.io.eccUncorr + 1 } }
    ∧ (∀ v, s.io.boot = .running → ∃ t, exec (.valeMeshLinkFail link (some v)) s = .next t ∧ t.io.boot = .recovery
      ∧ t.io.meshDown = insertRising link s.io.meshDown))
  ∧ (∀ (unit : BitVec 16) (detail : Word) (s : State),
    (s.io.boot ≠ .running → exec (.moduleFailure unit detail) s = .next (bump s))
    ∧ (s.io.boot = .running → ∃ t, exec (.moduleFailure unit detail) s = .next t ∧ t.io.boot = .recovery
      ∧ (s.io.mbo.length < 8 → t.io.mbo = s.io.mbo ++ [[0x8031, unit.setWidth 64, detail, 0, 0, 0, 0, 0]])
      ∧ (8 ≤ s.io.mbo.length → t.io.mbo = s.io.mbo
        ∧ t.io.mbWait = s.io.mbWait ++ [[0x8031, unit.setWidth 64, detail, 0, 0, 0, 0, 0]])
      ∧ (∀ j, (slotOf t j).bound = false)
      ∧ (∀ n, n < 32 → (vfOf t n).launch = none ∧ (vfOf t n).windows = []
        ∧ (∀ i, (vfOf s n).tq.en = true → tqFree (vfOf s n).tq 0 512 = some i →
          (vfOf t n).tq.entries.get .free i = .written ∧ (vfOf t n).tq.seq = ((vfOf s n).tq.seq + 1) % 2 ^ 32))))

/-- R66, R76 and R247: the scoreboard's grants and the dispatch of gangs. Where the manual leaves room, the reading is
the model's own: log entries 50, 51 and 146. -/
def Obligations.DispatchesReachTheirMembers : Prop :=
  (∀ (k : Nat) (s u : State) (c : Ctl), c = ctlOf s k → u = bump { s with ctl := k } →
    ((c.status ≠ .waiting ∨ c.held = none) → exec (.scoreboardClear k) s = .next u)
    ∧ (∀ h, c.status = .waiting → c.held = some h → h.isColl = false →
      (∀ e, takeEntry c = some e → conflicts c h.reads h.writes = false → parkedWrites u (vfOfCtl u k) = false → heldRefused u h = false →
        ∃ t, exec (.scoreboardClear k) s = .next t ∧
          (let m := Sys2Proof.Claims.newEntry c e h.op h.gang h.descAddr.toNat false h.desc h.t3 h.reads h.writes
           Sys2Proof.Claims.Sent u t k h.gang
            (Sys2Proof.Claims.issuedCtl { c with held := none } (BitVec.ofNat 5 h.rd) e m) (Sys2Proof.Claims.toGang u.io.realNs k e m false)))
      ∧ ((takeEntry c = none ∨ conflicts c h.reads h.writes = true ∨ parkedWrites u (vfOfCtl u k) = true) →
        ∃ t, exec (.scoreboardClear k) s = .next t ∧ CtlDone u t k c)))
  ∧ (∀ (v g : Nat) (s : State), (gangOf s v g).queue = [] → exec (.gangDispatch v g) s = .next (bump s))
  ∧ (∀ (v g : Nat) (s : State) (d : Dispatch) (rest : List Dispatch) (x : Dispatch), (gangOf s v g).queue = d :: rest → d.resume = false →
    x = { d with members := stayers (gangOf s v g) } →
    (((ctlOf s d.ctl).status = .frozen ∨ parkedWrites s (vfOfCtl s d.ctl) = true ∨ ∃ k ∈ dispCores s x, canTake s k = false) →
      exec (.gangDispatch v g) s = .next (bump s))
    ∧ ((ctlOf s d.ctl).status ≠ .frozen → parkedWrites s (vfOfCtl s d.ctl) = false → d.coll = false → numAt d.desc 0 1 ≠ 3 → (∀ k ∈ dispCores s x, canTake s k = true ∧ regionFault s x k = none) →
      (dispCores s x).Nodup → ∃ t, exec (.gangDispatch v g) s = .next t
        ∧ gangOf t v g = { gangOf s v g with queue := rest } ∧ (∀ w h, (w, h) ≠ (v, g) → gangOf t w h = gangOf s w h)
        ∧ entryOf t d.ctl d.entry = { entryOf s d.ctl d.entry with
            members := stayers (gangOf s v g), dispatched := true, totalSteps := (macroOf d.desc d.t3).total }
        ∧ (∀ k ∈ dispCores s x,
          ((coreOf s k).seq.exec = none → (coreOf t k).seq.exec = some x ∧ (coreOf t k).prgStep = 0
            ∧ (coreOf t k).s = (coreOf s k).s ∧ (coreOf t k).v = (coreOf s k).v)
          ∧ ((coreOf s k).seq.exec ≠ none →
            coreOf t k = { coreOf s k with seq := { (coreOf s k).seq with pend := some x } }))
        ∧ (∀ k, k ∉ dispCores s x → coreOf t k = coreOf s k)
        ∧ t.mem = s.mem ∧ t.vfs = s.vfs))

/-- R251 to R258 and R261: the bodies of tile steps; R77 to R81, R259 to R262 and R414: the stages of tile steps.
Where the manual leaves room, the reading is the model's own: log entries 53, 145, 147, 165, 170 and 171. -/
def Obligations.SequencersPassStagesAndBodiesCompute : Prop :=
  ((∀ (c x : Core) (m : Macro) (step par na nb nk q : Nat) (fl : Flags), Sys2Proof.Claims.extents m step na nb nk →
    ((indicesOf step m.counts).getD 0 0 = 0 ∨ Sys2Proof.Claims.Closed c.acc0) → productBody c m step par = (x, fl) →
    (typePair (m.tn 0).ty (m.tn 1).ty = some (q, .int32) → m.p0 / 2 % 2 = 0 → ∀ i j, i < na → j < nb →
      x.acc0.cells.get 0 (128 * i + j) = BitVec.ofInt 32 ((Sys2Proof.Claims.chainCell c m step i j).toInt
        + ((List.range nk).map fun k => intOf (m.p0 / 4 % 2 == 1) 8 (Sys2Proof.Claims.tileElem c par 0 1 (k * na + i))
            * intOf (m.p0 / 8 % 2 == 1) 8 (Sys2Proof.Claims.tileElem c par 1 1 (k * nb + j))).sum))
    ∧ (typePair (m.tn 0).ty (m.tn 1).ty = some (1, .fp32) → ∀ i j, i < na → j < nb →
      x.acc0.cells.get 0 (128 * i + j) = (List.range nk).foldl (fun a k => BitVec.ofNat 32 (add32 .rne (decode .fp32 a.toNat)
        (mulExact (mulExact (decode ((tyOf (m.tn 0).ty).getD .fp32) (Sys2Proof.Claims.tileElem c par 0 2 (k * na + i))) (ofInt 1)).1
          (mulExact (decode ((tyOf (m.tn 1).ty).getD .fp32) (Sys2Proof.Claims.tileElem c par 1 2 (k * nb + j))) (ofInt 1)).1).1).1)
        (Sys2Proof.Claims.chainCell c m step i j))
    ∧ (lastOfChain m step = false → x.seq = c.seq)
    ∧ (∀ w kind, lastOfChain m step = true → c.seq.buf.wf = true → (m.tn 2).width = 8 * w → 0 < w →
      typePair (m.tn 0).ty (m.tn 1).ty = some (q, kind) → x.acc0.kind = kind → ∀ i j, i < na → j < nb →
      Sys2Proof.Claims.tileElem x par 2 w (i * nb + j)
        = Sys2Proof.Claims.outputOf c m par nb j kind (x.acc0.cells.get 0 (128 * i + j)).toNat % 2 ^ (8 * w)))
  ∧ (∀ (s : State) (k : Nat) (m : Macro) (step par p chunk : Nat), sortStep m step = (p, 0, chunk) → ∃ h,
    sortBody s k m step par = { coreOf s k with seq := { (coreOf s k).seq with counts := (coreOf s k).seq.counts.insert chunk h } }
    ∧ ∀ d, d < 256 → h.getD d 0 = ((chunkKeys s k m step par).filter fun x => sortDigit m p x == d).length)
  ∧ (∀ (m : Macro) (p x w : Nat), (m.tn 0).width = w → x < 2 ^ w → 0 < w →
    sortDigit m p x = (fun d => if m.p0 % 2 = 1 then 255 - d else d)
      ((if (m.tn 0).ty = 9 ∨ (m.tn 0).ty = 12 then x
        else if (m.tn 0).ty = 8 ∨ (m.tn 0).ty = 10 ∨ (m.tn 0).ty = 11 ∨ x < 2 ^ (w - 1) then (x + 2 ^ (w - 1)) % 2 ^ w
        else 2 ^ w - 1 - x) / 256 ^ p % 256))
  ∧ (∀ (m : Macro) (keys : Nat → List Nat) (p a b i j : Nat), a < m.counts.getD 0 0 → b < m.counts.getD 0 0 →
    i < (keys a).length → j < (keys b).length → ∀ d e, d = sortDigit m p ((keys a).getD i 0) → e = sortDigit m p ((keys b).getD j 0) →
    (sortPosition m (Sys2Proof.Claims.digitCount m p keys) a p (keys a) i < sortPosition m (Sys2Proof.Claims.digitCount m p keys) b p (keys b) j
      ↔ d < e ∨ (d = e ∧ (a < b ∨ (a = b ∧ i < j)))))
  ∧ (∀ (s : State) (k : Nat) (d : Dispatch) (m : Macro) (x : TileCopy) (q0 n par : Nat), m = macroOf d.desc d.t3 → m.op = 5 →
    x.tensor = 0 → x.input = true → x.buf = true → par = x.offs / 2 ^ 43 % 2 → m.span x.step 1 = (q0, q0 + n) →
    tilePending s k 1 x.step = false →
    (∀ i, i < n → (0 ≤ indexAt s k m par i ∧ indexAt s k m par i < (m.tn 0).size 1)) → (m.tn 0).ty ≠ 5 →
    ∃ l, tilePlan s k d x = .moves l ∧ l.length = n * (m.tn 0).size 0 ∧ ∀ r i, r < n → i < (m.tn 0).size 0 →
      l[r * (m.tn 0).size 0 + i]? = some
        { src := .glob (vaOf (m.tn 0).base ((m.tn 0).stride 0 * i + (m.tn 0).stride 1 * indexAt s k m par r))
          dst := .buf (x.offs + (r * (m.tn 0).size 0 + i) * (m.tn 0).unit), n := (m.tn 0).unit })
  ∧ (∀ (s : State) (k : Nat) (d : Dispatch) (m : Macro) (x : TileCopy) (q0 n i par : Nat), m = macroOf d.desc d.t3 → m.op = 5 →
    x.tensor = 0 → par = x.offs / 2 ^ 43 % 2 → m.span x.step 1 = (q0, q0 + n) → tilePending s k 1 x.step = false → i < n →
    (indexAt s k m par i < 0 ∨ (m.tn 0).size 1 ≤ indexAt s k m par i) →
    (∀ j, j < i → (0 ≤ indexAt s k m par j ∧ indexAt s k m par j < (m.tn 0).size 1)) → tilePlan s k d x = .badIndex (q0 + i))
  ∧ (∀ (s : State) (k : Nat) (m : Macro) (step par lo n len : Nat) (c x : Core) (fl : Flags), c = coreOf s k → c.seq.buf.wf = true →
    par < 2 → m.span step 1 = (lo, lo + n) → len = (m.tn 2).size 0 → n * len * 4 ≤ 2 ^ 40 →
    (scatRows s k m step par).length * len * 4 ≤ 2 ^ 40 → scatBody s k m step par = (x, fl) → ∀ r l, r < n → l < len →
    BitVec.ofNat 32 (Sys2Proof.Claims.tileElem x par 2 4 (r * len + l))
      = (scatRows s k m step par).zipIdx.foldl (fun a e => if (indexAt s k m par e.1).toNat = lo + r then
          (if (m.tn 2).ty = 0 then BitVec.ofNat 32 (add32 .rne (decode .fp32 a.toNat)
              (decode .fp32 (Sys2Proof.Claims.tileElem c par 0 4 (e.2 * len + l)))).1
           else if m.p0 / 2 % 2 = 0 then a + BitVec.ofNat 32 (Sys2Proof.Claims.tileElem c par 0 4 (e.2 * len + l))
           else BitVec.ofInt 32 (satTy .int32 (a.toInt + signedOf 32 (Sys2Proof.Claims.tileElem c par 0 4 (e.2 * len + l)))))
          else a) (BitVec.ofNat 32 (Sys2Proof.Claims.tileElem c par 2 4 (r * len + l))))
  ∧ (∀ (m : Macro) (xs gs bs : List Nat) (i : Nat) (y : Nat → Nat), i < xs.length →
    y = (fun t => (cvt ((tyOf (m.tn 2).ty).getD .fp32) .fp32 (rmOf (BitVec.ofNat 2 (m.p0 / 2 ^ 33))) (m.p0 / 2 ^ 35 % 2 == 1)
      (fma32 t (gs.getD i 0) (bs.getD i 0)).1).1) →
    (m.p0 / 2 ^ 32 % 2 = 1 → (normRow m xs gs bs).1.getD i 0 = y (rnd (mulExact (Sys2Proof.Claims.val32 (xs.getD i 0))
      (Sys2Proof.Claims.val32 (Sys2Proof.Claims.rootOf m (xs.foldl (fun a x => (fma32 x x a).1) 0) xs.length)))).1)
    ∧ (∀ w, m.p0 / 2 ^ 32 % 2 = 0 → w = xs.foldl (fun a x => (welford a.1 a.2.1 a.2.2 x).1) (0, 0, 0) →
      (normRow m xs gs bs).1.getD i 0 = y (rnd (mulExact (Sys2Proof.Claims.val32
        (rnd (subExact .rne (Sys2Proof.Claims.val32 (xs.getD i 0)) (Sys2Proof.Claims.val32 w.2.1))).1)
        (Sys2Proof.Claims.val32 (Sys2Proof.Claims.rootOf m w.2.2 w.1)))).1))
  ∧ (∀ (c x : Core) (m : Macro) (step par n rows w ew : Nat) (src : Ty) (fl : Flags), normBody c m step par = (x, fl) → c.seq.buf.wf = true →
    n = (m.tn 0).size 0 → rows = (m.span step 1).2 - (m.span step 1).1 → src = (tyOf (m.tn 0).ty).getD .fp32 →
    ew = (m.tn 0).unit → (m.tn 2).width = 8 * w → 0 < w → ∀ r i, r < rows → i < n →
    Sys2Proof.Claims.tileElem x par 2 w (r * n + i) = (normRow m
      ((List.range n).map fun j => (convert .fp32 src .rne false (Sys2Proof.Claims.tileElem c par 0 ew (r * n + j))).1)
      ((List.range n).map fun j => if m.has 3 then Sys2Proof.Claims.tileElem c par 3 4 j else 0x3F800000)
      ((List.range n).map fun j => if m.has 3 then Sys2Proof.Claims.tileElem c par 3 4 (n + j) else 0)).1.getD i 0 % 2 ^ (8 * w))
  ∧ (∀ (s : State) (k : Nat) (d : Dispatch) (m : Macro) (x : TileCopy) (r0 n : Nat), m = macroOf d.desc d.t3 → x.tensor = 2 →
    m.span x.step 1 = (r0, r0 + n) → (m.op = 9 ∨ m.op = 10) →
    ∃ l, tilePlan s k d x = .moves l ∧ l.length = n * 128 ∧ ∀ r i, r < n → i < 128 → ∃ z, l[r * 128 + i]? = some z
      ∧ z.n = 8 ∧ z.nib = none ∧ ((m.tn 2).ty = 9 → z.dst = .glob (vaOf (m.tn 2).base ((m.tn 2).stride 0 * (8 * i) + (m.tn 2).stride 1 * (r0 + r))))
      ∧ (m.op = 9 → (m.tn 0).ty = 9 → z.src = .glob (vaOf (m.tn 0).base ((m.tn 0).stride 0 * (8 * i) + (m.tn 0).stride 1 * (r0 + r))))
      ∧ (m.op = 10 → z.src = .buf (bufAt (x.offs / 2 ^ 43 % 2) 0 false + 8 * i))))
  ∧ ((∀ (k : Nat) (s : State), seqActive s k = none → exec (.sequencerPrefetch k) s = .next (bump s)
    ∧ exec (.sequencerReady k) s = .next (bump s)
    ∧ ((∀ d, (coreOf s k).seq.exec = some d → d.coll = true ∨ numAt d.desc 0 1 ≠ 3) → exec (.sequencerBoundary k) s = .next (bump s)))
  ∧ (∀ (k : Nat) (s : State) (d : Dispatch) (m : Macro) (c : Core) (i : Nat), seqActive s k = some d → m = macroOf d.desc d.t3 →
    c = coreOf s k → i = c.seq.prefetched → m.op ≠ 4 → c.seq.refetch = false →
    (i < m.assigned c.seq.rank d.members.length → (i = c.prgStep ∨ (i = c.prgStep + 1 ∧ c.seq.ready = true)) → c.seq.inputs = [] →
      (∀ o ∈ c.seq.outputs, i < o.2 + 2) →
      roomFor c (inputCopies m (m.stepOf c.seq.rank d.members.length i) (i % 2)).length = true →
      ∃ t x, exec (.sequencerPrefetch k) s = .next t ∧ CoreDone (bump s) t k x
        ∧ x.seq.prefetched = i + 1 ∧ x.s = c.s ∧ x.v = c.v ∧ x.spm = c.spm ∧ x.prgStep = c.prgStep ∧ x.pc = c.pc
        ∧ (inputCopies m (m.stepOf c.seq.rank d.members.length i) (i % 2) = [] → x.copies = c.copies ∧ x.seq.inputs = [])
        ∧ (∀ y e, inputCopies m (m.stepOf c.seq.rank d.members.length i) (i % 2) = [y] → freeCopyEntry c c.copyPos 32 = some e →
          x.copies.find? e = some { op := 1, bySeq := true, channel := 0, tile := some y, tag0 := c.tagSeq
                                    issued := c.clk, hazard := hazards c }
          ∧ x.seq.inputs = [(e, i)]))
    ∧ ((m.assigned c.seq.rank d.members.length ≤ i ∨ c.seq.inputs ≠ [] ∨ c.prgStep + 1 < i) →
      exec (.sequencerPrefetch k) s = .next (bump s)))
  ∧ (∀ (k : Nat) (s : State) (d : Dispatch) (m : Macro) (c : Core), seqActive s k = some d → m = macroOf d.desc d.t3 → c = coreOf s k →
    ((c.seq.ready = true ∨ (∃ e, (e, c.prgStep) ∈ c.seq.inputs)) → exec (.sequencerReady k) s = .next (bump s))
    ∧ (c.seq.ready = false → c.seq.refetch = false → c.prgStep < c.seq.prefetched →
      c.prgStep < m.assigned c.seq.rank d.members.length → (∀ e ∈ c.seq.inputs, e.2 ≠ c.prgStep) →
      (m.op ≠ 8 → c.prgAcc.toNat / 2 ^ 62 ≠ 3 → ∃ t, exec (.sequencerReady k) s = .next t
        ∧ CoreDone (bump s) t k { c with seq := { c.seq with ready := true, bodyDone := false } })
      ∧ (m.op = 8 → ∃ t x, exec (.sequencerReady k) s = .next t ∧ CoreDone (bump s) t k x ∧ x.status = .running ∧ x.pc = c.pc
        ∧ x.seq.ready = true ∧ x.seq.bodyDone = false ∧ x.seq.fromStart = false ∧ x.karg = BitVec.ofNat 64 m.p1
        ∧ (∀ j, j < 4 → x.ktile.get 0 j = if m.roleOf j = 0 ∨ ¬ m.has j then 0
            else BitVec.ofNat 64 (0x3FC00000 + kernOffset m j + c.prgStep % 2 * m.kernSlot j)))))
  ∧ (∀ (k : Nat) (s : State) (d : Dispatch) (m : Macro) (c : Core) (n : Nat), seqActive s k = some d → m = macroOf d.desc d.t3 →
    c = coreOf s k → n = m.stepOf c.seq.rank d.members.length c.prgStep →
    ((c.seq.ready = false ∨ (m.op = 8 ∧ (c.seq.bodyDone = false ∨ ownElems s k = true))) → exec (.sequencerBoundary k) s = .next (bump s))
    ∧ (c.seq.ready = true → roomFor c (outputCopies m n (c.prgStep % 2)).length = true → stepping s k = false →
      (∀ u, m.op = 8 → c.seq.bodyDone = true → ownElems s k = false → u = landOn (bump s) k (releaseStreams (landAll c)) →
        ∃ t x, exec (.sequencerBoundary k) s = .next t ∧ CoreDone u t k x ∧ x.prgStep = c.prgStep + 1
          ∧ x.seq.ready = false ∧ x.seq.bodyDone = false ∧ x.pc = BitVec.ofNat 64 (if c.seq.fromStart then m.p0 else m.p0 + 32 * m.kre))
      ∧ (m.op ≠ 8 → accIsSpilled c = true → exec (.sequencerBoundary k) s = .next (reloadAccumulator (bump s) k d)
        ∧ (c.spm.poisoned (spillOffset d) 65536 = false → CoreDone (bump s) (reloadAccumulator (bump s) k d) k
          { c with acc0 := (coreOf (reloadAccumulator (bump s) k d) k).acc0, prgAcc := 1#64 <<< 62 }))
      ∧ (m.op ≠ 8 → accIsSpilled c = false → poisonedInput s k d n (c.prgStep % 2) = none →
        ∃ t x, exec (.sequencerBoundary k) s = .next t ∧ Sys2Proof.Claims.CoreCharged (bump s) t k x
          ∧ x.prgStep = c.prgStep + 1 ∧ x.seq.ready = false ∧ x.seq.bodyDone = false ∧ x.pc = c.pc)
      ∧ (∀ va, m.op ≠ 8 → accIsSpilled c = false → poisonedInput s k d n (c.prgStep % 2) = some va →
        ∃ t, exec (.sequencerBoundary k) s = .next t
        ∧ (coreOf t k).status = .stopped ∧ (coreOf t k).seq.refetch = true ∧ (coreOf t k).seq.ready = false
        ∧ (coreOf t k).prgStep = c.prgStep))))

/-- R68, R78, R248, R267, R411, R412 and R420: how entries end. Where the manual leaves room, the reading is the
model's own: log entries 43, 50 and 163. -/
def Obligations.MacroInstructionsEnd : Prop :=
  (∀ (k e : Nat) (s : State), (ctlOf s k).status = .frozen ∨ (entryOf s k e).state ≠ .running →
    exec (.macroComplete k e) s = .next (bump s))
  ∧ (∀ (k e : Nat) (s : State), (ctlOf s k).status = .frozen ∨ (entryOf s k e).state ≠ .stopping ∨ (entryOf s k e).recordsHeld ≠ 0 →
    exec (.macroStopped k e) s = .next (bump s))
  ∧ (∀ (k e : Nat) (s : State), (ctlOf s k).status = .frozen ∨ (entryOf s k e).state ≠ .killing →
    exec (.macroKilled k e) s = .next (bump s))
  ∧ (∀ (k e : Nat) (s : State) (m : MacroEntry) (cores : List Nat), m = entryOf s k e →
    cores = memberCores s (k / 8) (vfOfCtl s k) m.members → (ctlOf s k).status ≠ .frozen → cores.Nodup →
    (m.state = .running → m.isColl = false → m.dispatched = true → m.op ≠ 3 → (∀ j ∈ cores, memberDone k e s j = true) →
      (gangOf s (k / 8) m.gang).committing = none → (∀ j ∈ cores, commitBlocked s j = false) → parkedWrites s (vfOfCtl s k) = false →
      parkedWrites (commitAll (bump s) cores) (vfOfCtl s k) = false → ∃ t, exec (.macroComplete k e) s = .next t
        ∧ entryOf t k e = { m with state := .completed, reads := [], writes := [], prgs := memberPrgs s k m }
        ∧ (∀ j ∈ cores, (coreOf t j).seq.exec = (coreOf s j).seq.pend ∧ (coreOf t j).seq.pend = none)
        ∧ (m.op ≠ 4 → Sys2Proof.Claims.Untouched s → (∀ j ∈ cores, Sys2Proof.Claims.BuffersOk s j ∧ (coreOf s j).sbuf = []) →
          (∀ a, t.mem.read a = cores.foldl (fun b j => ((bufferedGlobal (coreOf s j)).find? a).getD b) (s.mem.read a))
          ∧ ∀ j ∈ cores, (coreOf t j).pend = [] ∧ (coreOf t j).sbuf = [] ∧ ∀ z ∈ (coreOf t j).stash, z.2.dirty = 0))
    ∧ (∀ l, l = cores.filter (fun j => executes s j k e) → m.state = .stopping → m.recordsHeld = 0 → (valeOf s (k / 8)).pass = none →
      (∀ j ∈ l, ∀ d, (coreOf s j).seq.exec = some d → ceased s j d = true ∧ copiesSettled s j = true) →
      (∀ j ∈ cores, ∀ d, (coreOf s j).seq.pend = some d → sameDispatch d k e = true → (coreOf s j).status = .stopped) →
      ∃ t, exec (.macroStopped k e) s = .next t ∧ entryOf t k e = { m with state := .stopped }
        ∧ (∀ i f, (i, f) ≠ (k, e) → entryOf t i f = entryOf s i f) ∧ (∀ j, j ∉ l → coreOf t j = { coreOf s j with monitors := (coreOf t j).monitors })
        ∧ (∀ j ∈ l, (coreOf t j).s = (coreOf s j).s ∧ (coreOf t j).acc0 = (coreOf s j).acc0 ∧ (coreOf t j).seq = (coreOf s j).seq)
        ∧ (m.op ≠ 3 ∨ m.isColl = true → t.mem = s.mem ∧ t.vfs = s.vfs))
    ∧ (m.state = .stopping → (∃ j ∈ cores, (coreOf s j).status ≠ .stopped ∧ ∃ d, (coreOf s j).seq.pend = some d ∧ sameDispatch d k e = true) →
      exec (.macroStopped k e) s = .next (bump s))
    ∧ (m.state = .killing → ∃ t, exec (.macroKilled k e) s = .next t
      ∧ (entryOf t k e).state = .killed ∧ (entryOf t k e).reads = [] ∧ (entryOf t k e).writes = []
      ∧ (∀ j ∈ cores, executes t j k e = false ∧ (∀ d, (coreOf t j).seq.pend = some d → sameDispatch d k e = false))
      ∧ (∀ w ∈ (vfOf t (vfOfCtl s k)).windows, ¬ (w.slice = logicalSlice s k ∧ w.entry = e))))

namespace Sys2Proof.Claims

/-- The queries of sequences read one after the other (R303). -/
def queriesOf (s : State) (vale vf : Nat) (m : Macro) (l : List ColSeq) : Except ColFault (List ColSeq) × State :=
  colFold (fun s acc q => match readQueries s vale vf m q with
    | (.error e, s) => (.error e, s)
    | (.ok q, s) => (.ok (acc ++ [q]), s)) s ([] : List ColSeq) l

/-- The walks of a pass, one after the other: its subscriber entries, and the pass with each sequence charged for its
own walk, which is the model's choice (R305, R319; log entry 148). -/
def walksOf (s : State) (vale : Nat) (p : Pass) : Except ColFault (Pass × List ColEntry) × State :=
  colFold (fun s (acc : Pass × List ColEntry) x => match walkSeq (chargePass s vale acc.1 [x.2]).2 vale p.vf p.m x.2 x.1 with
    | (.error e, s) => (.error e, s)
    | (.ok l, s') => (.ok ((chargePass s vale acc.1 [x.2]).1, acc.2 ++ l), s')) s (p, []) p.seqs.zipIdx

/-- No sequence of a pass is affected by an error, and no output is due. -/
def Settled (p : Pass) : Prop :=
  (∀ q ∈ p.seqs, q.affected = false) ∧ (∀ x ∈ p.slots, x.2.written = true ∨ x.2.next < x.2.count)

/-- The sum of two XF40 values, rounded to nearest even (R311). -/
def addXf (u v : Word) : Word :=
  BitVec.ofNat 64 (xfOp 0 .rne false (decode .xf40 u.toNat) (decode .xf40 v.toNat) (.zero false)).1

end Sys2Proof.Claims

/-- R301 to R306 and R315: admission and the catch-up sweep. Where the manual leaves room, the reading is the model's
own: log entries 60, 62, 64 and 148. -/
def Obligations.AttentionPassesAreAdmittedAndSwept : Prop :=
  (∀ (n : Nat) (s : State), ((valeOf s n).pass ≠ none ∨ ∀ d ∈ (valeOf s n).passQueue, (ctlOf s d.ctl).status = .frozen) → exec (.colAdmission n) s = .next (bump s))
  ∧ (∀ (n : Nat) (s u : State) (v : Vale) (d : Dispatch) (m : Macro), v = valeOf s n → v.pass = none →
    v.passQueue.find? (fun d => (ctlOf s d.ctl).status != .frozen) = some d → parkedWrites s (vfOfCtl s d.ctl) = false → (∀ p ∈ v.aside, sameDispatch p.disp d.ctl d.entry = false) →
    m = macroOf d.desc d.t3 → u = setVale (bump s) n { v with passQueue := v.passQueue.erase d } →
    (∀ f, firstFail (attnFails m) = some f → ∃ t, exec (.colAdmission n) s = .next t
      ∧ (valeOf t n).pass = none ∧ (valeOf t n).passQueue = v.passQueue.erase d ∧ (ctlOf t d.ctl).status = .stopped)
    ∧ (∀ (u1 u2 u3 : State) (rows : List (ColSeq × Bool)) (ready qs : List ColSeq) (l : List ColEntry) (p q : Pass),
      firstFail (attnFails m) = none →
      readRows u n (vfOfCtl s d.ctl) m (List.range ((m.tn 1).size 1)) = (.ok rows, u1) →
      ready = ((rows.filter (·.2)).map (·.1)).take (16384 / Nat.max 1 m.queryHeads) → badRow m ready = none →
      attnNeed m (ready.length * m.kvHeads) d.members.length ≤ m.rgn * 65536 →
      Sys2Proof.Claims.queriesOf u1 n (vfOfCtl s d.ctl) m ready = (.ok qs, u2) → (∀ q ∈ qs, 0 < m.ordinals q.len ∧ q.affected = false) →
      Sys2Proof.Claims.walksOf u2 n { disp := d, vf := vfOfCtl s d.ctl, admitted := true, seqs := qs } = (.ok (p, l), u3) →
      q = { p with walked := true, entries := l
                   slots := (List.range qs.length).flatMap fun i => (List.range m.queryHeads).map fun h => (i * m.queryHeads + h,
              { n := List.replicate m.headDim 0, count := m.ordinals (qs.getD i { slot := 0, kva := 0, vva := 0, len := 0 }).len }) } →
      ∃ t, exec (.colAdmission n) s = .next t
        ∧ valeOf t n = { valeOf u3 n with pass := some q } ∧ (∀ w, w ≠ n → valeOf t w = valeOf u3 w)
        ∧ entryOf t d.ctl d.entry = { entryOf u3 d.ctl d.entry with totalSteps := q.planned l }
        ∧ t = { u3 with vales := t.vales, ctls := t.ctls }))
  ∧ (∀ (n : Nat) (s : State) (p : Pass), (valeOf s n).pass = some p → p.walked = true → p.halted = false → Sys2Proof.Claims.Settled p →
    ((p.sweeping = true ∨ p.quiet = false ∨ parkedWrites s p.vf = true) → ∃ t, exec (.catchUpSweep n) s = .next t ∧ ValeDone (bump s) t n (valeOf s n))
    ∧ (∀ (u : State) (rows : List (ColSeq × Bool)) (late : List ColSeq), p.sweeping = false → p.quiet = true → parkedWrites s p.vf = false →
      readRows (bump s) n p.vf p.m ((List.range ((p.m.tn 1).size 1)).filter fun i => !(p.seqs.any fun q => q.slot == i)) = (.ok rows, u) →
      late = (rows.filter (·.2)).map (fun x => { x.1 with sweep := true }) → badRow p.m late = none →
      ∃ t, exec (.catchUpSweep n) s = .next t
        ∧ (valeOf t n).pass = some { p with sweeping := true, sweepRows := late, sweepPairs := late.length * p.m.kvHeads }
        ∧ (∀ k ∈ dispCores u p.disp, coreOf t k = { coreOf u k with prgI := (coreOf u k).prgI.put 0 1 1 })
        ∧ (∀ k, k ∉ dispCores u p.disp → coreOf t k = coreOf u k)
        ∧ t = { u with vales := t.vales, cores := t.cores })
    ∧ (p.sweepRows = [] → ∃ t, exec (.sweepEntry n) s = .next t ∧ ValeDone (bump s) t n (valeOf s n))
    ∧ (∀ (row : ColSeq) (rest : List ColSeq), p.sweepRows = row :: rest →
      (16384 < p.slotsHeld + p.m.queryHeads ∨ parkedWrites s p.vf = true → exec (.sweepEntry n) s = .next (bump s))
      ∧ (∀ (u1 u2 : State) (q : ColSeq) (l : List ColEntry), p.slotsHeld + p.m.queryHeads ≤ 16384 → parkedWrites s p.vf = false →
        (if row.asked then q = row ∧ u1 = bump s else readQueries (bump s) n p.vf p.m row = (.ok q, u1)) →
        q.affected = false → 0 < p.m.ordinals q.len → walkSeq (sweepCharge u1 n p q).2 n p.vf p.m p.seqs.length q = (.ok l, u2) →
        ∃ t x, exec (.sweepEntry n) s = .next t ∧ (valeOf t n).pass = some x
          ∧ x = { p with seqs := p.seqs ++ [{ q with charge := q.charge + nextEnergy u1 (.col n) }], sweepRows := rest, entries := p.entries ++ l, slots := x.slots }
          ∧ x.slots = p.slots ++ (List.range p.m.queryHeads).map (fun h => (p.seqs.length * p.m.queryHeads + h,
            { n := List.replicate p.m.headDim 0, count := p.m.ordinals q.len }))
          ∧ entryOf t p.disp.ctl p.disp.entry =
            { entryOf u2 p.disp.ctl p.disp.entry with totalSteps := (entryOf u2 p.disp.ctl p.disp.entry).totalSteps + x.planned l }
          ∧ Sys2Proof.Claims.Charged { u2 with vales := t.vales, ctls := t.ctls } t)))

/-- R306 to R308, R311, R312, R415 and R444: deliveries, tile steps and merges. Where the manual leaves room, the
reading is the model's own: log entry 60. -/
def Obligations.DeliveriesSendPartialsThatTheBasinMerges : Prop :=
  (∀ (n i : Nat) (s : State), (valeOf s n).pass = none →
    exec (.colDelivery n) s = .next (bump s) ∧ exec (.basinMerge n i) s = .next (bump s))
  ∧ (∀ (n i : Nat) (s : State) (p : Pass) (x : Partial), (valeOf s n).pass = some p → p.sends[i]? = some x → x.lost = true →
    (coreOf s x.core).status = .stopped → exec (.basinMerge n i) s = .next (bump s))
  ∧ (∀ (n i : Nat) (s : State) (p : Pass), (valeOf s n).pass = some p → p.sends[i]? = none → exec (.basinMerge n i) s = .next (bump s))
  ∧ (∀ (n : Nat) (s : State) (p : Pass) (l : List ColEntry) (e : ColEntry) (ks : List Nat), (valeOf s n).pass = some p → p.walked = true →
    p.halted = false → Sys2Proof.Claims.Settled p → Sys2Proof.Claims.Untouched s → l = p.nextDelivery → l.head? = some e →
    p.need l ≤ p.plannedFree → p.need l ≤ p.physFree → (∀ b ∈ [e.kpbn, e.vpbn], parkedIn s (b * 65536) 65536 = false) →
    poisonOf s p e (p.holdsKey e false) = none → (ks = (l.map (p.coreOfEntry s)).eraseDups ∧ ∀ k ∈ ks ++ p.keyOnly s e false ks, takesDelivery s p (p.single e false) k = true) →
    ((valeOf s n).lostRead = some 255 → ∃ t, exec (.colDelivery n) s = .next t ∧ livePass t n = none ∧ (valeOf t n).lostRead = none)
    ∧ ((valeOf s n).lostRead = none → ∃ t q, exec (.colDelivery n) s = .next t ∧ (valeOf t n).pass = some q
      ∧ q.entries = p.entries.map (fun e => if e ∈ l then { e with served := true } else e)
      ∧ q.slots = p.slots ∧ q.parked = p.parked ∧ q.sends = p.sends ∧ q.due = p.due ++ p.dueOf s l
      ∧ (∀ k ∈ ks, coreOf t k = { coreOf s k with seq := { (coreOf s k).seq with
          deliveries := keptBuffers (p.single e false) (coreOf s k).seq.deliveries ++ [p.deliveryTo s l k (p.holdsKey e false)] } })
      ∧ (∀ k ∈ p.keyOnly s e false ks, coreOf t k = { coreOf s k with seq := { (coreOf s k).seq with
          deliveries := keptBuffers (p.single e false) (coreOf s k).seq.deliveries ++ [{ key := some e.kpbn }] } })
      ∧ (∀ k, k ∉ ks ++ p.keyOnly s e false ks → coreOf t k = coreOf s k) ∧ t.mem = s.mem))
  ∧ (∀ (k : Nat) (s : State) (p : Pass) (d : Dispatch) (x : Delivery) (rest : List Delivery), (valeOf s (k / 192)).pass = some p →
    p.walked = true → p.halted = false → Sys2Proof.Claims.Settled p → (coreOf s k).seq.exec = some d → d.coll = false → numAt d.desc 0 1 = 3 →
    sameDispatch p.disp d.ctl d.entry = true → (entryOf s d.ctl d.entry).state = .running → (coreOf s k).status ≠ .stopped →
    Sys2Proof.Claims.Live s k → stepping s k = false → (coreOf s k).seq.deliveries = x :: rest → x.key = none →
    ∃ t q, exec (.sequencerBoundary k) s = .next t ∧ (valeOf t (k / 192)).pass = some q
      ∧ q.entries = p.entries ∧ q.slots = p.slots ∧ q.parked = p.parked ∧ (∀ y ∈ p.sends, y ∈ q.sends)
      ∧ (∀ y ∈ q.due, y ∈ p.due) ∧ (∀ y ∈ p.due, y.core ≠ k → y ∈ q.due)
      ∧ (∀ e ∈ x.entries, ∀ j ∈ p.slotsOf e.1, (∃ y ∈ p.due, y.slot = j ∧ y.n = e.1.n ∧ y.core = k) →
        ∃ z ∈ q.sends, z.slot = j ∧ z.n = e.1.n ∧ z.core = k
          ∧ (z.nv, z.dn) = (partialOf p.m (p.seqAt e.1.seq) (j % Nat.max 1 p.m.queryHeads) e.2).1)
      ∧ (coreOf t k).seq = { (coreOf s k).seq with deliveries := rest } ∧ (coreOf t k).prgStep = (coreOf s k).prgStep + 1
      ∧ (coreOf t k).spm = (coreOf s k).spm ∧ (∀ j, j ≠ k → coreOf t j = coreOf s j) ∧ t.mem = s.mem)
  ∧ (∀ (n i : Nat) (s : State) (p : Pass) (x : Partial) (b : BasinSlot), (valeOf s n).pass = some p → p.halted = false →
    Sys2Proof.Claims.Settled p → p.sends[i]? = some x → (∀ y ∈ p.sends.take i, y.core ≠ x.core) →
    (x.lost = true → (coreOf s x.core).status ≠ .stopped) → b = p.slotAt x.slot →
    ((x.n < b.next ∨ ∃ y ∈ p.parked, y.slot = x.slot ∧ y.n = x.n) →
      ∃ t q, exec (.basinMerge n i) s = .next t ∧ (valeOf t n).pass = some q ∧ q.sends = p.sends.eraseIdx i
        ∧ q.slots = p.slots ∧ q.parked = p.parked)
    ∧ (b.next < x.n → (∀ y ∈ p.parked, ¬ (y.slot = x.slot ∧ y.n = x.n)) →
      ∃ t q, exec (.basinMerge n i) s = .next t ∧ (valeOf t n).pass = some q ∧ q.sends = p.sends.eraseIdx i
        ∧ q.slots = p.slots ∧ q.parked = p.parked ++ [x])
    ∧ (x.n = b.next → x.n + 1 < b.count → (∀ y ∈ p.parked, y.slot = x.slot → y.n ≠ x.n ∧ y.n ≠ x.n + 1) →
      ∃ t q, exec (.basinMerge n i) s = .next t ∧ (valeOf t n).pass = some q ∧ q.sends = p.sends.eraseIdx i ∧ q.parked = p.parked
        ∧ q.slotAt x.slot = { b with
            n := if x.n = 0 then x.nv else (b.n.zip x.nv).map fun y => Sys2Proof.Claims.addXf y.1 y.2
            dn := if x.n = 0 then x.dn else Sys2Proof.Claims.addXf b.dn x.dn
            next := x.n + 1 }
        ∧ (∀ k, k ≠ x.slot → q.slotAt k = p.slotAt k)
        ∧ (coreOf t x.core).s = (coreOf s x.core).s ∧ (∀ k, k ≠ x.core → coreOf t k = coreOf s k) ∧ t.mem = s.mem))

namespace Sys2Proof.Claims

/-- Control core k of s with the collective of its entry e changed by f. -/
def withColl (s : State) (k e : Nat) (f : Coll → Coll) : State :=
  modCtl s k fun c => { c with macros := c.macros.put {} e { entryAt c e with coll := f (entryAt c e).coll } }

/-- Entry e of control core k is an outstanding collective of logical slice n of the virtual function bound there. -/
def OwnColl (s : State) (k e vf n : Nat) : Prop :=
  collOwner s k e = some (vf, n) ∧ vfOfSlice s k = some vf ∧ (ctxOf s vf (k / 8)).image = none

end Sys2Proof.Claims

/-- R277 to R282, R339 and R445 to R447: registrations, chunks, acknowledgements and completion. Where the manual
leaves room, the reading is the model's own: log entries 71, 72, 73 and 150. -/
def Obligations.CollectivesMeetDeliverAndComplete : Prop :=
  (∀ (k e r n j : Nat) (key tag : Word) (bs : List Byte) (s : State), collOwner s k e = none →
    exec (.collectiveRegistration k e r key n) s = .next (bump s) ∧ exec (.chunkDelivery k e r j tag bs) s = .next (bump s))
  ∧ (∀ (k e vf sl r : Nat) (s : State) (m : MacroEntry), Sys2Proof.Claims.OwnColl s k e vf sl → m = entryOf s k e → r ∈ (collOf m.desc).others →
    (∀ key n, (n < m.coll.opNumber ∨ (rankHere s m.t3 r = true ∧ sentHere s m r key n = false)) →
      exec (.collectiveRegistration k e r key n) s = .next (bump s))
    ∧ (∀ key n, (rankHere s m.t3 r = false ∨ sentHere s m r key n = true) → m.coll.opNumber < n →
      exec (.collectiveRegistration k e r key n) s =
      .next (Sys2Proof.Claims.withColl (bump s) k e fun c => { c with peers := c.peers.put {} r { c.peers.get {} r with absent := true } }))
    ∧ ((rankHere s m.t3 r = false ∨ sentHere s m r m.coll.key m.coll.opNumber = true) →
      exec (.collectiveRegistration k e r m.coll.key m.coll.opNumber) s =
      .next (showCopies (Sys2Proof.Claims.withColl (bump s) k e fun c =>
        { c with peers := c.peers.put {} r { c.peers.get {} r with registered := true, absent := false } }) k e))
    ∧ (∀ key l, key ≠ m.coll.key → (rankHere s m.t3 r = false ∨ sentHere s m r key m.coll.opNumber = true) → (vfOf s vf).launch = some l → l.ending = false → (ctlOf s k).status ≠ .frozen →
      ∃ t, exec (.collectiveRegistration k e r key m.coll.opNumber) s = .next t ∧ (ctlOf t k).status = .stopped
        ∧ (vfOf t vf).launch = some { l with ending := true, code := 0x116 }))
  ∧ (∀ (k e vf sl r j lo hi : Nat) (tag : Word) (bs : List Byte) (s : State) (m : MacroEntry) (d : CollDesc),
    Sys2Proof.Claims.OwnColl s k e vf sl → m = entryOf s k e → d = collOf m.desc →
    (windowOpen s vf sl e = false → exec (.chunkDelivery k e r j tag bs) s = .next (bump s))
    ∧ (windowOpen s vf sl e = true →
      (d.piece r j = none ∨ (rankHere s m.t3 r = false ∧ r ≠ d.me ∧ (r, tag) ∈ m.coll.tags) ∨ (m.coll.pieces.find? (65536 * r + j)).isSome = true) →
      exec (.chunkDelivery k e r j tag bs) s = .next (landWhole (bump s) vf sl e))
    ∧ (windowOpen s vf sl e = true → (r, tag) ∉ m.coll.tags → m.coll.pieces.find? (65536 * r + j) = none →
      d.piece r j = some (lo, hi) → writeWaits (bump s) vf (d.rbuf + lo) (hi - lo) = false →
      (pagesWritable s vf (d.rbuf + lo) (d.rbuf + hi - 1) = false → d.reduces = false →
        ∃ t, exec (.chunkDelivery k e r j tag bs) s = .next t ∧ VfDone (bump s) t vf { vfOf s vf with
          windows := (vfOf s vf).windows.filter fun w => !(w.slice == sl && w.entry == e) })
      ∧ (pagesWritable s vf (d.rbuf + lo) (d.rbuf + hi - 1) = true → r ≠ d.me → rankHere s m.t3 r = false → bs.length = hi - lo →
        ∀ u, u = Sys2Proof.Claims.withColl (chargeWindow (bump s) vf k (d.rbuf + lo)) k e (fun c => { c with
          pieces := c.pieces.insert (65536 * r + j) (if d.reduces then bs else []), tags := storeTag c.tags r tag }) →
        (d.reduces = true → memberWorks s ((chunkMember (bump s) k m j).getD 0) k e = true →
          chunkReady d (entryOf u k e).coll j = false → exec (.chunkDelivery k e r j tag bs) s = .next u)
        ∧ (d.reduces = false → chunkReady d (entryOf u k e).coll j = false →
          exec (.chunkDelivery k e r j tag bs) s = .next (vaWrite u vf (d.rbuf + lo) bs))
        ∧ (d.reduces = false → chunkReady d (entryOf u k e).coll j = true →
          ∀ w, w = Sys2Proof.Claims.withColl (vaWrite u vf (d.rbuf + lo) bs) k e (fun c => { c with whole := c.whole ++ [j] }) →
          exec (.chunkDelivery k e r j tag bs) s = .next (landWhole w vf sl e)
          ∧ (m.coll.whole = [] → j ∉ m.coll.landed → vaHeld w vf (d.rbuf + j * 2 ^ d.chk) (d.chunkBytes j) = false →
            bitWaits w vf d j = false → (∀ q ∈ d.suppliers j, q ≠ d.me → rankHere s m.t3 q = false) →
            landWhole w vf sl e = Sys2Proof.Claims.withColl (setChunkBit w vf d j) k e
              fun c => { c with landed := c.landed ++ [j] })))))
  ∧ (∀ (k e r : Nat) (s : State) (m : MacroEntry) (d : CollDesc) (p : Peer), m = entryOf s k e → d = collOf m.desc → p = m.coll.peers.get {} r →
    ((m.isColl = false ∨ m.state ≠ .running ∨ p.registered = false ∨ (d.chunksTo r)[p.acked]? = none) →
      exec (.chunkAck k e r) s = .next (bump s))
    ∧ (∀ j, m.isColl = true → m.state = .running → (ctlOf s k).status ≠ .frozen → r ∈ d.others → p.registered = true →
      (d.chunksTo r)[p.acked]? = some j →
      ((rankHere s m.t3 r = true ∧ j ∉ p.landed ∨ rankHere s m.t3 r = false ∧ p.absent = true) →
        exec (.chunkAck k e r) s = .next (bump s))
      ∧ (rankHere s m.t3 r = true → j ∈ p.landed → exec (.chunkAck k e r) s = .next (showCopies (Sys2Proof.Claims.withColl (bump s) k e
          fun c => { c with peers := c.peers.put {} r { p with acked := p.acked + 1 } }) k e))
      ∧ (∀ lo hi core ctl src bytes bad, rankHere s m.t3 r = false → p.absent = false → unreached s m.t3 r = false →
        (d.atRank r).piece d.me j = some (lo, hi) →
        readSent (bump s) (vfOfCtl s k) k e m r j lo (hi - lo) = .data core ctl src bytes bad →
        exec (.chunkAck k e r) s = .next (showCopies (Sys2Proof.Claims.withColl
          (showChunk (chargeDelivery (bump s) k core src bytes.length (vfOfCtl s k) (participant m.t3 r).1) core j 0 0) k e
          fun c => { c with peers := c.peers.put {} r { p with acked := p.acked + 1 } }) k e))))
  ∧ (∀ (k e : Nat) (s : State), (entryOf s k e).isColl = false → exec (.collectiveComplete k e) s = .next (bump s))
  ∧ (∀ (k e : Nat) (s u : State) (m : MacroEntry) (d : CollDesc) (cores : List Nat), (entryOf s k e).isColl = true →
    u = landWhole (bump s) (vfOfCtl s k) (logicalSlice s k) e → m = entryOf u k e → d = collOf m.desc →
    cores = memberCores u (k / 8) (vfOfCtl u k) m.members →
    ((m.state ≠ .running ∨ m.coll.landed.length ≠ d.chunks ∨ vaHeld u (vfOfCtl u k) d.bmap (8 * d.bitmapWords) = true
      ∨ ∃ r ∈ d.others, peerDone d m r = false) → exec (.collectiveComplete k e) s = .next u)
    ∧ (m.isColl = true → m.state = .running → m.dispatched = true → (ctlOf u k).status ≠ .frozen → m.coll.landed.length = d.chunks →
      vaHeld u (vfOfCtl u k) d.bmap (8 * d.bitmapWords) = false → (∀ r ∈ d.others, peerDone d m r = true) →
      (∀ i ∈ cores, executes u i k e = true ∧ (coreOf u i).status = .idle) → cores.Nodup →
      ∃ t, exec (.collectiveComplete k e) s = .next t
        ∧ entryOf t k e = { m with state := .completed, reads := [], writes := [], prgs := memberPrgs u k m }
        ∧ (∀ w ∈ (vfOf t (vfOfCtl u k)).windows, ¬ (w.slice = logicalSlice u k ∧ w.entry = e))
        ∧ (∀ i ∈ cores, (coreOf t i).seq.exec = (coreOf u i).seq.pend) ∧ (∀ i, i ∉ cores → coreOf t i = coreOf u i) ∧ t.mem = u.mem))

/-- R61, R270 and R272: what a step runs. Where the manual leaves room, the reading is the model's own: log entries 7,
33 and 157. -/
def Obligations.StepRunsTheDecodedInstruction : Prop :=
  (∀ (s : State) (dt : Nat) (i : Instr), nextTurn s = (dt, .event i) → s.io.boot ≠ .off → step s = exec i (atTurn s))
  ∧ (∀ (s : State) (dt : Nat) (x : Outside), nextTurn s = (dt, .outside x) → s.io.boot ≠ .off → step s = .next (outsideStep x (atTurn s)))
  ∧ (∀ (s u : State) (dt k : Nat) (c : Ctl), nextTurn s = (dt, .ctl k) → s.io.boot ≠ .off → u = { atTurn s with ctl := k } →
    c = (if timerDue u (ctlOf u k) then csrSet (ctlOf u k) 0x344 (withBit (csrGet (ctlOf u k) 0x344) 5 true) else ctlOf u k) →
    ((ctlOf u k).status ≠ .running → (ctlOf u k).status ≠ .waiting → step s = .next u)
    ∧ ((ctlOf u k).status = .running ∨ (ctlOf u k).status = .waiting →
      (∀ i, interruptNow c = some i → step s = .next (setCtl u k (takeInterrupt c i)))
      ∧ (∀ (i : Instr) (w : BitVec 32) (pa : Nat), interruptNow c = none → i.wf = true → encode i = some (.ctl w) →
        ctlTranslate u k (ctlOf u k).pc.toNat .fetch = .ok pa → Sys2Proof.Claims.Untouched u →
        (w.toNat % 4 = 3 → ctlTranslate u k ((ctlOf u k).pc.toNat + 2) .fetch = .ok (pa + 2) → u.mem.poisoned pa 4 = false →
          u.mem.readN pa 4 = leBytes 4 w.toNat → step s = exec i (ctlTick u))
        ∧ (w.toNat % 4 ≠ 3 → u.mem.poisoned pa 2 = false → u.mem.readN pa 2 = leBytes 2 w.toNat →
          step s = exec i (ctlTick u)))))

/-- R128 to R141: a word of each format. -/
def Obligations.SpecEncodingsDecode : Prop :=
  decodeCode (.s 0xFF63A221 none) = some (.cmpi { imm := 0x7FB, ext := none, sa := 7, cc := 2, pd := 2 })
  ∧ decodeCode (.s 0x00030C44 none) = some (.loop 3 3 0)
  ∧ decodeCode (.s 0xC0918438 none) = some (.amo { sz := 3, aop := 0, sb := 9, sa := 6, sd := 4 })
  ∧ decodeCode (.s 0x00A00056 none) = some (.sync 0xA)
  ∧ decodeCode (.v 0x308101) = some (.vadd { fn := 0, sat := 0, rm := 0, ty := 0, vm := 0, vc := 0, vb := 3, va := 2, vd := 1 })
  ∧ decodeCode (.m 0x06800005) = some (.mmode { f2 := 0, imm := 0x1A, ty := 0, mp := 0, sa := 0, bank := 0 })
  ∧ decodeCode (.m 0x10000001) = some (.mcall { f2 := 0, imm := 0x40, ty := 0, mp := 0, sa := 0, bank := 0 })
  ∧ decodeCode (.m 0x00040E04) = some (.mdrain { f2 := 0, imm := 0, ty := 1, mp := 0, sa := 7, bank := 0 })
  ∧ decodeCode (.c 0x00090301) = some (.cp { f := 0, st := 0, sy := 0, sx := 9, rg := 0, cd := 3 })
  ∧ decodeCode (.c 0x0005020D) = some (.sqfill { f := 0, st := 0, sy := 0, sx := 5, rg := 0, cd := 2 })
  ∧ decodeCode (.ctl 0x0231008B) = some (.mGemm { rd := 1, rs1 := 2, rs2 := 3 })
  ∧ decodeCode (.ctl 0x200182DB) = some (.gForm 5 3)
  ∧ decodeCode (.ctl 0x080002FB) = some (.tqPop 5)

/-- R126 to R141 and R387: decoding and encoding agree in both directions. -/
def Obligations.EncodingsRoundTrip : Prop :=
  (∀ (i : Instr) (c : Code), i.wf = true → encode i = some c → decodeCode c = some i)
  ∧ (∀ (i : Instr) (c : Code), (∀ w, c ≠ .ctl w) → decodeCode c = some i → i.wf = true ∧ encode i = some c)

/-- R61 and R367: no step of a module with power stops. Where the manual leaves room, the reading is the model's own:
log entries 7 and 8. -/
def Obligations.AStepOfAPoweredModuleAnswers : Prop :=
  ∀ (s : State),
    (s.io.boot ≠ .off → ∃ t, step s = .next t)
    ∧ (s.io.boot = .off →
      ((∃ dt f g, nextTurn s = (dt, .event (.powerOnReset f g))) → ∃ t, step s = .next t ∧ t.io.boot ≠ .off)
      ∧ ((∀ dt f g, nextTurn s ≠ (dt, .event (.powerOnReset f g))) → step s = .fault .poweredOff))

namespace Sys2Proof.Claims

/-- The turns that may end the recovery state: a reset of the module in any form, and the loss of its power. -/
def EndsRecovery (x : Turn) : Prop :=
  x = .event .moduleReset ∨ (∃ f g, x = .event (.powerOnReset f g)) ∨ x = .event .thermalShutdown
    ∨ (∃ b, x = .event (.supplyRemoved b)) ∨ (∃ w, x = .event (.registerWrite none 0x1000 w) ∧ w.getLsbD 63 = true)

end Sys2Proof.Claims

/-- R364, R367 and R376: P2 stands with no context bound, and recovery lasts until a reset. -/
def Obligations.StepsKeepPowerStateAndRecovery : Prop :=
  (State.reset.io.ps = 0 ∧ anyBound State.reset = false)
  ∧ (∀ (s t : State), (s.io.ps = 2 → anyBound s = false) → step s = .next t → t.io.ps = 2 → anyBound t = false)
  ∧ (∀ (s t : State), step s = .next t → t.io.ps ≠ s.io.ps → t.io.ps ≠ 0 →
    (nextTurn s).2 = .event (.powerStateRequest t.io.ps)
    ∨ ∃ w, (nextTurn s).2 = .event (.registerWrite none 0x1000 w) ∧ w.extractLsb' 56 4 = t.io.ps)
  ∧ (∀ (s t : State), s.io.boot = .recovery → ¬ Sys2Proof.Claims.EndsRecovery (nextTurn s).2 → step s = .next t → t.io.boot = .recovery)
end

