-- ==== Sys2Proof/Laws/FMap.lean ====
section
/-! SUPPORT. Finite maps: what a read gives after a write, and that every operation keeps keys rising and no entry at the
default. -/

namespace Sys2Proof.FMap

variable {α : Type}

@[simp] theorem get_nil (d : α) (k : Nat) : get d ([] : FMap α) k = d := rfl

@[simp] theorem find?_nil (k : Nat) : find? ([] : FMap α) k = none := rfl

/-- A read is what stands listed, or the default. -/
theorem get_eq_find? (d : α) (m : FMap α) (k : Nat) : get d m k = (find? m k).getD d := by
  induction m with
  | nil => rfl
  | cons e rest ih =>
    obtain ⟨j, v⟩ := e
    by_cases h : j = k <;> simp [get, find?, h, ih]

@[simp] theorem get_insert_same (d : α) (m : FMap α) (k : Nat) (v : α) : get d (insert m k v) k = v := by
  induction m with
  | nil => simp [insert, get]
  | cons e rest ih =>
    obtain ⟨j, w⟩ := e
    by_cases h : j < k
    · simp [insert, h, get, Nat.ne_of_lt h, ih]
    · by_cases h' : j = k <;> simp [insert, h, h', get]

theorem get_insert_ne (d : α) (m : FMap α) {k j : Nat} (v : α) (h : j ≠ k) : get d (insert m k v) j = get d m j := by
  induction m with
  | nil => simp [insert, get, h.symm]
  | cons e rest ih =>
    obtain ⟨i, w⟩ := e
    by_cases h1 : i < k
    · by_cases h2 : i = j
      · subst h2; simp [insert, h1, get]
      · simp [insert, h1, get, h2, ih]
    · by_cases h2 : i = k
      · subst h2; simp [insert, get, h.symm]
      · simp [insert, h1, h2, get, h.symm]

@[simp] theorem get_erase_same (d : α) (m : FMap α) (k : Nat) : get d (erase m k) k = d := by
  induction m with
  | nil => rfl
  | cons e rest ih =>
    obtain ⟨j, w⟩ := e
    by_cases h : j = k <;> simp [erase, h, get, ih]

theorem get_erase_ne (d : α) (m : FMap α) {k j : Nat} (h : j ≠ k) : get d (erase m k) j = get d m j := by
  induction m with
  | nil => rfl
  | cons e rest ih =>
    obtain ⟨i, w⟩ := e
    by_cases h1 : i = k
    · subst h1; simp [erase, get, ih, h.symm]
    · by_cases h2 : i = j
      · subst h2; simp [erase, h1, get]
      · simp [erase, h1, get, h2, ih]

/-- A read of a key gives what was written there. -/
@[simp] theorem get_put_same [DecidableEq α] (d : α) (m : FMap α) (k : Nat) (v : α) : get d (put d m k v) k = v := by
  by_cases h : v = d <;> simp [put, h]

/-- A write leaves every other key alone. -/
theorem get_put_ne [DecidableEq α] (d : α) (m : FMap α) {k j : Nat} (v : α) (h : j ≠ k) :
    get d (put d m k v) j = get d m j := by
  by_cases h' : v = d
  · simp only [put, h', if_true]; exact get_erase_ne d m h
  · simp only [put, h', if_false]; exact get_insert_ne d m v h

theorem get_put [DecidableEq α] (d : α) (m : FMap α) (k j : Nat) (v : α) :
    get d (put d m k v) j = if j = k then v else get d m j := by
  by_cases h : j = k
  · subst h; simp
  · simp [h, get_put_ne d m v h]

/-! ## Canonical form -/

/-- Keys rise strictly, as a statement about neighbours and the rest. -/
theorem sorted_cons (e : Nat × α) (m : FMap α) :
    sorted (e :: m) = true ↔ (∀ f ∈ m, e.1 < f.1) ∧ sorted m = true := by
  induction m generalizing e with
  | nil => simp [sorted]
  | cons f rest ih =>
    obtain ⟨j, v⟩ := e
    obtain ⟨k, w⟩ := f
    rw [sorted, Bool.and_eq_true, decide_eq_true_iff, ih (k, w)]
    constructor
    · rintro ⟨h, h1, h2⟩
      refine ⟨?_, h1, h2⟩
      intro f hf
      rcases List.mem_cons.1 hf with rfl | hf
      · exact h
      · exact Nat.lt_trans h (h1 f hf)
    · rintro ⟨h, h1, h2⟩
      exact ⟨h (k, w) List.mem_cons_self, h1, h2⟩

theorem mem_erase {m : FMap α} {k : Nat} {f : Nat × α} (h : f ∈ erase m k) : f ∈ m := by
  induction m with
  | nil => simp [erase] at h
  | cons e rest ih =>
    obtain ⟨j, v⟩ := e
    by_cases hj : j = k
    · simp only [erase, hj, if_true] at h; exact List.mem_cons_of_mem _ (ih h)
    · simp only [erase, hj, if_false, List.mem_cons] at h
      rcases h with rfl | h
      · exact List.mem_cons_self
      · exact List.mem_cons_of_mem _ (ih h)

theorem mem_insert {m : FMap α} {k : Nat} {v : α} {f : Nat × α} (h : f ∈ insert m k v) : f = (k, v) ∨ f ∈ m := by
  induction m with
  | nil => simpa [insert] using h
  | cons e rest ih =>
    obtain ⟨j, w⟩ := e
    by_cases h1 : j < k
    · simp only [insert, h1, if_true, List.mem_cons] at h
      rcases h with rfl | h
      · exact .inr List.mem_cons_self
      · rcases ih h with h | h
        · exact .inl h
        · exact .inr (List.mem_cons_of_mem _ h)
    · by_cases h2 : j = k
      · simp only [insert, h2, Nat.lt_irrefl, if_true, if_false] at h
        rcases List.mem_cons.1 h with rfl | h
        · exact .inl rfl
        · exact .inr (List.mem_cons_of_mem _ h)
      · simp only [insert, h1, h2, if_false] at h
        rcases List.mem_cons.1 h with rfl | h
        · exact .inl rfl
        · exact .inr h

theorem sorted_erase {m : FMap α} (k : Nat) (h : sorted m = true) : sorted (erase m k) = true := by
  induction m with
  | nil => rfl
  | cons e rest ih =>
    obtain ⟨j, v⟩ := e
    rw [sorted_cons] at h
    by_cases hj : j = k
    · simpa [erase, hj] using ih h.2
    · simp only [erase, hj, if_false]
      rw [sorted_cons]
      exact ⟨fun f hf => h.1 f (mem_erase hf), ih h.2⟩

theorem sorted_insert {m : FMap α} (k : Nat) (v : α) (h : sorted m = true) : sorted (insert m k v) = true := by
  induction m with
  | nil => rfl
  | cons e rest ih =>
    obtain ⟨j, w⟩ := e
    have h' := h
    rw [sorted_cons] at h
    by_cases h1 : j < k
    · simp only [insert, h1, if_true]
      rw [sorted_cons]
      refine ⟨?_, ih h.2⟩
      intro f hf
      rcases mem_insert hf with rfl | hf
      · exact h1
      · exact h.1 f hf
    · by_cases h2 : j = k
      · subst h2
        simp only [insert, Nat.lt_irrefl, if_false, if_true]
        rw [sorted_cons]
        exact h
      · simp only [insert, h1, h2, if_false]
        rw [sorted_cons]
        refine ⟨?_, h'⟩
        intro f hf
        rcases List.mem_cons.1 hf with rfl | hf
        · exact Nat.lt_of_le_of_ne (Nat.le_of_not_lt h1) (Ne.symm h2)
        · exact Nat.lt_trans (Nat.lt_of_le_of_ne (Nat.le_of_not_lt h1) (Ne.symm h2)) (h.1 f hf)

theorem sorted_put [DecidableEq α] (d : α) {m : FMap α} (k : Nat) (v : α) (h : sorted m = true) :
    sorted (put d m k v) = true := by
  by_cases hv : v = d
  · simpa [put, hv] using sorted_erase k h
  · simpa [put, hv] using sorted_insert k v h

theorem sorted_filter {m : FMap α} (p : Nat × α → Bool) (h : sorted m = true) : sorted (m.filter p) = true := by
  induction m with
  | nil => rfl
  | cons e rest ih =>
    rw [sorted_cons] at h
    by_cases hp : p e = true
    · simp only [List.filter_cons, hp, if_true]
      rw [sorted_cons]
      exact ⟨fun f hf => h.1 f (List.mem_filter.1 hf).1, ih h.2⟩
    · simp only [List.filter_cons, hp]
      exact ih h.2

/-- Writes keep the canonical form: rising keys, and no entry at the default. -/
theorem wf_put [DecidableEq α] (d : α) {m : FMap α} (k : Nat) (v : α) (h : wf d m = true) : wf d (put d m k v) = true := by
  simp only [wf, Bool.and_eq_true, List.all_eq_true, decide_eq_true_iff] at h ⊢
  refine ⟨sorted_put d k v h.1, ?_⟩
  intro f hf
  by_cases hv : v = d
  · simp only [put, hv, if_true] at hf; exact h.2 f (mem_erase hf)
  · simp only [put, hv, if_false] at hf
    rcases mem_insert hf with rfl | hf
    · exact hv
    · exact h.2 f hf

end Sys2Proof.FMap
end

