-- ==== Sys2Proof/Laws/Mem.lean ====
section
/-! SUPPORT. Byte memories: reads after writes, and that every operation keeps the canonical form `Mem.wf`. -/

namespace Sys2Proof.Machine

open Sys2Proof

/-! ## Reads after writes -/

@[simp] theorem Mem.base_write (m : Mem) (a : Nat) (b : Byte) (x : Nat) : (m.write a b).base x = m.base x := rfl

@[simp] theorem Mem.undef_write (m : Mem) (a : Nat) (b : Byte) : (m.write a b).undef = m.undef := rfl

@[simp] theorem Mem.poison_write (m : Mem) (a : Nat) (b : Byte) : (m.write a b).poison = m.poison := rfl

/-- A byte read where it was written. -/
@[simp] theorem Mem.read_write_same (m : Mem) (a : Nat) (b : Byte) : (m.write a b).read a = b := by
  simp [Mem.read, Mem.write, Mem.base]

/-- A byte written leaves every other one alone. -/
theorem Mem.read_write_ne (m : Mem) {a x : Nat} (b : Byte) (h : x ≠ a) : (m.write a b).read x = m.read x := by
  simp only [Mem.read, Mem.write, Mem.base]
  -- the default of the written key may differ from that of the key read
  by_cases hb : b = undefByte m.undef a
  · simp only [FMap.put, hb, if_true]; exact FMap.get_erase_ne _ _ h
  · simp only [FMap.put, hb, if_false]; exact FMap.get_insert_ne _ _ _ h

@[simp] theorem Mem.undef_writeN (m : Mem) (a : Nat) (bs : List Byte) : (m.writeN a bs).undef = m.undef := by
  induction bs generalizing m a with
  | nil => rfl
  | cons b bs ih => simp [Mem.writeN, ih]

@[simp] theorem Mem.poison_writeN (m : Mem) (a : Nat) (bs : List Byte) : (m.writeN a bs).poison = m.poison := by
  induction bs generalizing m a with
  | nil => rfl
  | cons b bs ih => simp [Mem.writeN, ih]

/-- Bytes written leave every address outside them alone. -/
theorem Mem.read_writeN_outside (m : Mem) {a x : Nat} (bs : List Byte) (h : x < a ∨ a + bs.length ≤ x) :
    (m.writeN a bs).read x = m.read x := by
  induction bs generalizing m a with
  | nil => rfl
  | cons b bs ih =>
    simp only [List.length_cons] at h
    rw [Mem.writeN, ih _ (by omega), Mem.read_write_ne _ _ (by omega)]

/-- Byte i of what was written is read at its address. -/
theorem Mem.read_writeN_inside (m : Mem) (a i : Nat) (bs : List Byte) (h : i < bs.length) :
    (m.writeN a bs).read (a + i) = bs[i] := by
  induction bs generalizing m a i with
  | nil => simp at h
  | cons b bs ih =>
    cases i with
    | zero => rw [Mem.writeN, Mem.read_writeN_outside _ _ (by omega)]; simp
    | succ i =>
      have : a + (i + 1) = (a + 1) + i := by omega
      rw [Mem.writeN, this, ih _ _ _ (by simpa using h)]; simp

@[simp] theorem Mem.length_readN (m : Mem) (a n : Nat) : (m.readN a n).length = n := by
  induction n generalizing a with
  | zero => rfl
  | succ n ih => simp [Mem.readN, ih]

theorem Mem.readN_congr {m m' : Mem} (a n : Nat) (h : ∀ x, a ≤ x → x < a + n → m.read x = m'.read x) :
    m.readN a n = m'.readN a n := by
  induction n generalizing a with
  | zero => rfl
  | succ n ih =>
    simp only [Mem.readN]
    rw [h a (by omega) (by omega), ih (a + 1) fun x h1 h2 => h x (by omega) (by omega)]

/-- What was written is read back. -/
theorem Mem.readN_writeN (m : Mem) (a : Nat) (bs : List Byte) : (m.writeN a bs).readN a bs.length = bs := by
  induction bs generalizing m a with
  | nil => rfl
  | cons b bs ih =>
    simp only [List.length_cons, Mem.readN, Mem.writeN]
    rw [Mem.read_writeN_outside _ _ (by omega), Mem.read_write_same, ih]

/-! ## Poison lists -/

theorem rising_cons (a : Nat) (l : List Nat) : rising (a :: l) = true ↔ (∀ b ∈ l, a < b) ∧ rising l = true := by
  induction l generalizing a with
  | nil => simp [rising]
  | cons b l ih =>
    rw [rising, Bool.and_eq_true, decide_eq_true_iff, ih b]
    constructor
    · rintro ⟨h, h1, h2⟩
      refine ⟨fun c hc => ?_, h1, h2⟩
      rcases List.mem_cons.1 hc with rfl | hc
      · exact h
      · exact Nat.lt_trans h (h1 c hc)
    · rintro ⟨h, h1, h2⟩
      exact ⟨h b List.mem_cons_self, h1, h2⟩

theorem mem_insertRising {n x : Nat} {l : List Nat} : x ∈ insertRising n l ↔ x = n ∨ x ∈ l := by
  induction l with
  | nil => simp [insertRising]
  | cons a l ih =>
    by_cases h1 : a < n
    · simp only [insertRising, h1, if_true, List.mem_cons, ih]
      exact or_left_comm
    · by_cases h2 : a = n
      · subst h2; simp [insertRising]
      · simp [insertRising, h1, h2]

theorem rising_insertRising {n : Nat} {l : List Nat} (h : rising l = true) : rising (insertRising n l) = true := by
  induction l with
  | nil => rfl
  | cons a l ih =>
    have h' := h
    rw [rising_cons] at h
    by_cases h1 : a < n
    · simp only [insertRising, h1, if_true]
      rw [rising_cons]
      refine ⟨fun b hb => ?_, ih h.2⟩
      rcases mem_insertRising.1 hb with rfl | hb
      · exact h1
      · exact h.1 b hb
    · by_cases h2 : a = n
      · simpa [insertRising, h2] using h2 ▸ h'
      · simp only [insertRising, h1, h2, if_false]
        rw [rising_cons]
        refine ⟨fun b hb => ?_, h'⟩
        have : n < a := by omega
        rcases List.mem_cons.1 hb with rfl | hb
        · exact this
        · exact Nat.lt_trans this (h.1 b hb)

theorem rising_filter {l : List Nat} (p : Nat → Bool) (h : rising l = true) : rising (l.filter p) = true := by
  induction l with
  | nil => rfl
  | cons a l ih =>
    rw [rising_cons] at h
    by_cases hp : p a = true
    · simp only [List.filter_cons, hp, if_true]
      rw [rising_cons]
      exact ⟨fun b hb => h.1 b (List.mem_filter.1 hb).1, ih h.2⟩
    · simp only [List.filter_cons, hp]; exact ih h.2

theorem rising_foldl_insert {β : Type} (f : β → Nat) (ws : List β) {l : List Nat} (h : rising l = true) :
    rising (ws.foldl (fun l w => insertRising (f w) l) l) = true := by
  induction ws generalizing l with
  | nil => exact h
  | cons w ws ih => exact ih (rising_insertRising h)

/-! ## Canonical form -/

/-- The canonical form, as three statements. -/
theorem Mem.wf_iff (m : Mem) : m.wf = true ↔
    FMap.sorted m.cells = true ∧ (∀ e ∈ m.cells, e.2 ≠ m.base e.1) ∧ rising m.poison = true := by
  simp [Mem.wf, Bool.and_eq_true, and_assoc]

theorem Mem.wf_empty : ({} : Mem).wf = true := rfl

theorem Mem.wf_write {m : Mem} (a : Nat) (b : Byte) (h : m.wf = true) : (m.write a b).wf = true := by
  rw [Mem.wf_iff] at h ⊢
  refine ⟨FMap.sorted_put _ _ _ h.1, ?_, h.2.2⟩
  intro e he
  simp only [Mem.write, FMap.put] at he
  split at he
  · exact h.2.1 e (FMap.mem_erase he)
  · rename_i hb
    rcases FMap.mem_insert he with rfl | he
    · exact hb
    · exact h.2.1 e he

theorem Mem.wf_writeN {m : Mem} (a : Nat) (bs : List Byte) (h : m.wf = true) : (m.writeN a bs).wf = true := by
  induction bs generalizing m a with
  | nil => exact h
  | cons b bs ih => exact ih _ (Mem.wf_write a b h)

theorem Mem.wf_clearPoison {m : Mem} (a n : Nat) (h : m.wf = true) : (m.clearPoison a n).wf = true := by
  rw [Mem.wf_iff] at h ⊢
  exact ⟨h.1, h.2.1, rising_filter _ h.2.2⟩

theorem Mem.wf_store {m : Mem} (a : Nat) (bs : List Byte) (h : m.wf = true) : (m.store a bs).wf = true :=
  Mem.wf_writeN a bs (Mem.wf_clearPoison a bs.length h)

theorem Mem.wf_poisonWord {m : Mem} (w : Nat) (h : m.wf = true) : (m.poisonWord w).wf = true := by
  rw [Mem.wf_iff] at h ⊢
  exact ⟨h.1, h.2.1, rising_insertRising h.2.2⟩

theorem Mem.wf_movePoison {m : Mem} (ws : List Nat) (h : m.wf = true) : (m.movePoison ws).wf = true := by
  induction ws generalizing m with
  | nil => exact h
  | cons w ws ih => exact ih (Mem.wf_poisonWord w h)

theorem Mem.wf_forget {m : Mem} (lo hi gen : Nat) (h : m.wf = true) : (m.forget lo hi gen).wf = true := by
  rw [Mem.wf_iff] at h ⊢
  refine ⟨FMap.sorted_filter _ h.1, ?_, h.2.2⟩
  intro e he
  simp only [Mem.forget, List.mem_filter, Bool.not_eq_true', Bool.and_eq_false_iff, decide_eq_false_iff_not] at he
  have hn : ¬ (lo ≤ e.1 ∧ e.1 < hi) := by omega
  simpa [Mem.forget, Mem.base, undefByte, hn] using h.2.1 e he.1

theorem sorted_append {α : Type} {l m : FMap α} (hl : FMap.sorted l = true) (hm : FMap.sorted m = true)
    (h : ∀ e ∈ l, ∀ f ∈ m, e.1 < f.1) : FMap.sorted (l ++ m) = true := by
  induction l with
  | nil => exact hm
  | cons e l ih =>
    rw [FMap.sorted_cons] at hl
    rw [List.cons_append, FMap.sorted_cons]
    refine ⟨fun f hf => ?_, ih hl.2 fun e' he => h e' (List.mem_cons_of_mem _ he)⟩
    rcases List.mem_append.1 hf with hf | hf
    · exact hl.1 f hf
    · exact h e List.mem_cons_self f hf

theorem sorted_moveCells {cells : FMap Byte} (lo n d : Nat) (h : FMap.sorted cells = true) :
    FMap.sorted (moveCells cells lo n d) = true := by
  induction cells with
  | nil => rfl
  | cons e cells ih =>
    rw [FMap.sorted_cons] at h
    by_cases hp : (decide (lo ≤ e.1) && decide (e.1 < lo + n)) = true
    · simp only [moveCells, List.filter_cons, hp, if_true, List.map_cons]
      rw [FMap.sorted_cons]
      refine ⟨?_, ih h.2⟩
      intro f hf
      obtain ⟨g, hg, rfl⟩ := List.mem_map.1 hf
      have hg' := List.mem_filter.1 hg
      have := h.1 g hg'.1
      simp only [Bool.and_eq_true, decide_eq_true_iff] at hp
      simp only
      omega
    · simp only [moveCells, List.filter_cons, hp]
      exact ih h.2

/-- Bytes moved in from another memory leave a memory in canonical form. -/
theorem Mem.wf_moveIn {m src : Mem} (d lo n : Nat) (hm : m.wf = true) (hs : src.wf = true) :
    (m.moveIn d src lo n).wf = true := by
  rw [Mem.wf_iff] at hm hs ⊢
  refine ⟨FMap.sorted_filter _ ?_, ?_, rising_foldl_insert _ _ (rising_filter _ hm.2.2)⟩
  · refine sorted_append (sorted_append (FMap.sorted_filter _ hm.1) (sorted_moveCells lo n d hs.1) ?_)
      (FMap.sorted_filter _ hm.1) ?_
    · intro e he f hf
      obtain ⟨g, hg, rfl⟩ := List.mem_map.1 hf
      have he := (List.mem_filter.1 he).2
      simp only [decide_eq_true_iff] at he
      simp only
      omega
    · intro e he f hf
      have hf := (List.mem_filter.1 hf).2
      simp only [decide_eq_true_iff] at hf
      rcases List.mem_append.1 he with he | he
      · have he := (List.mem_filter.1 he).2
        simp only [decide_eq_true_iff] at he
        omega
      · obtain ⟨g, hg, rfl⟩ := List.mem_map.1 he
        have hg := (List.mem_filter.1 hg).2
        simp only [Bool.and_eq_true, decide_eq_true_iff] at hg
        simp only
        omega
  · intro e he
    have := (List.mem_filter.1 he).2
    simpa [Mem.base, Mem.moveIn] using this

end Sys2Proof.Machine
end

