-- ==== Sys2Proof/Laws/State.lean ====
section
/-! SUPPORT. Reads of the state's fields and tables after an update. -/

namespace Sys2Proof.Machine

open Sys2Proof

/-! ## Fields after an update -/
@[simp] theorem nstime_setCore (s : State) (k : Nat) (x : Core) : (setCore s k x).nstime = s.nstime := rfl
@[simp] theorem mem_setCore (s : State) (k : Nat) (x : Core) : (setCore s k x).mem = s.mem := rfl
@[simp] theorem io_setCore (s : State) (k : Nat) (x : Core) : (setCore s k x).io = s.io := rfl
@[simp] theorem ctls_setCore (s : State) (k : Nat) (x : Core) : (setCore s k x).ctls = s.ctls := rfl
@[simp] theorem vales_setCore (s : State) (k : Nat) (x : Core) : (setCore s k x).vales = s.vales := rfl
@[simp] theorem vfs_setCore (s : State) (k : Nat) (x : Core) : (setCore s k x).vfs = s.vfs := rfl
@[simp] theorem slots_setCore (s : State) (k : Nat) (x : Core) : (setCore s k x).slots = s.slots := rfl
@[simp] theorem contexts_setCore (s : State) (k : Nat) (x : Core) : (setCore s k x).contexts = s.contexts := rfl
@[simp] theorem energy_setCore (s : State) (k : Nat) (x : Core) : (setCore s k x).energy = s.energy := rfl
@[simp] theorem agenda_setCore (s : State) (k : Nat) (x : Core) : (setCore s k x).agenda = s.agenda := rfl
@[simp] theorem ctl_setCore (s : State) (k : Nat) (x : Core) : (setCore s k x).ctl = s.ctl := rfl
@[simp] theorem core_setCore (s : State) (k : Nat) (x : Core) : (setCore s k x).core = s.core := rfl
@[simp] theorem slot_setCore (s : State) (k : Nat) (x : Core) : (setCore s k x).slot = s.slot := rfl
@[simp] theorem reply_setCore (s : State) (k : Nat) (x : Core) : (setCore s k x).reply = s.reply := rfl
@[simp] theorem free_setCore (s : State) (k : Nat) (x : Core) : (setCore s k x).free = s.free := rfl
@[simp] theorem undefGen_setCore (s : State) (k : Nat) (x : Core) : (setCore s k x).undefGen = s.undefGen := rfl
@[simp] theorem nstime_modCore (s : State) (k : Nat) (f : Core → Core) : (modCore s k f).nstime = s.nstime := rfl
@[simp] theorem mem_modCore (s : State) (k : Nat) (f : Core → Core) : (modCore s k f).mem = s.mem := rfl
@[simp] theorem io_modCore (s : State) (k : Nat) (f : Core → Core) : (modCore s k f).io = s.io := rfl
@[simp] theorem ctls_modCore (s : State) (k : Nat) (f : Core → Core) : (modCore s k f).ctls = s.ctls := rfl
@[simp] theorem vales_modCore (s : State) (k : Nat) (f : Core → Core) : (modCore s k f).vales = s.vales := rfl
@[simp] theorem vfs_modCore (s : State) (k : Nat) (f : Core → Core) : (modCore s k f).vfs = s.vfs := rfl
@[simp] theorem slots_modCore (s : State) (k : Nat) (f : Core → Core) : (modCore s k f).slots = s.slots := rfl
@[simp] theorem contexts_modCore (s : State) (k : Nat) (f : Core → Core) : (modCore s k f).contexts = s.contexts := rfl
@[simp] theorem energy_modCore (s : State) (k : Nat) (f : Core → Core) : (modCore s k f).energy = s.energy := rfl
@[simp] theorem agenda_modCore (s : State) (k : Nat) (f : Core → Core) : (modCore s k f).agenda = s.agenda := rfl
@[simp] theorem ctl_modCore (s : State) (k : Nat) (f : Core → Core) : (modCore s k f).ctl = s.ctl := rfl
@[simp] theorem core_modCore (s : State) (k : Nat) (f : Core → Core) : (modCore s k f).core = s.core := rfl
@[simp] theorem slot_modCore (s : State) (k : Nat) (f : Core → Core) : (modCore s k f).slot = s.slot := rfl
@[simp] theorem reply_modCore (s : State) (k : Nat) (f : Core → Core) : (modCore s k f).reply = s.reply := rfl
@[simp] theorem free_modCore (s : State) (k : Nat) (f : Core → Core) : (modCore s k f).free = s.free := rfl
@[simp] theorem undefGen_modCore (s : State) (k : Nat) (f : Core → Core) : (modCore s k f).undefGen = s.undefGen := rfl
@[simp] theorem nstime_setCtl (s : State) (k : Nat) (x : Ctl) : (setCtl s k x).nstime = s.nstime := rfl
@[simp] theorem mem_setCtl (s : State) (k : Nat) (x : Ctl) : (setCtl s k x).mem = s.mem := rfl
@[simp] theorem io_setCtl (s : State) (k : Nat) (x : Ctl) : (setCtl s k x).io = s.io := rfl
@[simp] theorem cores_setCtl (s : State) (k : Nat) (x : Ctl) : (setCtl s k x).cores = s.cores := rfl
@[simp] theorem vales_setCtl (s : State) (k : Nat) (x : Ctl) : (setCtl s k x).vales = s.vales := rfl
@[simp] theorem vfs_setCtl (s : State) (k : Nat) (x : Ctl) : (setCtl s k x).vfs = s.vfs := rfl
@[simp] theorem slots_setCtl (s : State) (k : Nat) (x : Ctl) : (setCtl s k x).slots = s.slots := rfl
@[simp] theorem contexts_setCtl (s : State) (k : Nat) (x : Ctl) : (setCtl s k x).contexts = s.contexts := rfl
@[simp] theorem energy_setCtl (s : State) (k : Nat) (x : Ctl) : (setCtl s k x).energy = s.energy := rfl
@[simp] theorem agenda_setCtl (s : State) (k : Nat) (x : Ctl) : (setCtl s k x).agenda = s.agenda := rfl
@[simp] theorem ctl_setCtl (s : State) (k : Nat) (x : Ctl) : (setCtl s k x).ctl = s.ctl := rfl
@[simp] theorem core_setCtl (s : State) (k : Nat) (x : Ctl) : (setCtl s k x).core = s.core := rfl
@[simp] theorem slot_setCtl (s : State) (k : Nat) (x : Ctl) : (setCtl s k x).slot = s.slot := rfl
@[simp] theorem reply_setCtl (s : State) (k : Nat) (x : Ctl) : (setCtl s k x).reply = s.reply := rfl
@[simp] theorem free_setCtl (s : State) (k : Nat) (x : Ctl) : (setCtl s k x).free = s.free := rfl
@[simp] theorem undefGen_setCtl (s : State) (k : Nat) (x : Ctl) : (setCtl s k x).undefGen = s.undefGen := rfl
@[simp] theorem nstime_modCtl (s : State) (k : Nat) (f : Ctl → Ctl) : (modCtl s k f).nstime = s.nstime := rfl
@[simp] theorem mem_modCtl (s : State) (k : Nat) (f : Ctl → Ctl) : (modCtl s k f).mem = s.mem := rfl
@[simp] theorem io_modCtl (s : State) (k : Nat) (f : Ctl → Ctl) : (modCtl s k f).io = s.io := rfl
@[simp] theorem cores_modCtl (s : State) (k : Nat) (f : Ctl → Ctl) : (modCtl s k f).cores = s.cores := rfl
@[simp] theorem vales_modCtl (s : State) (k : Nat) (f : Ctl → Ctl) : (modCtl s k f).vales = s.vales := rfl
@[simp] theorem vfs_modCtl (s : State) (k : Nat) (f : Ctl → Ctl) : (modCtl s k f).vfs = s.vfs := rfl
@[simp] theorem slots_modCtl (s : State) (k : Nat) (f : Ctl → Ctl) : (modCtl s k f).slots = s.slots := rfl
@[simp] theorem contexts_modCtl (s : State) (k : Nat) (f : Ctl → Ctl) : (modCtl s k f).contexts = s.contexts := rfl
@[simp] theorem energy_modCtl (s : State) (k : Nat) (f : Ctl → Ctl) : (modCtl s k f).energy = s.energy := rfl
@[simp] theorem agenda_modCtl (s : State) (k : Nat) (f : Ctl → Ctl) : (modCtl s k f).agenda = s.agenda := rfl
@[simp] theorem ctl_modCtl (s : State) (k : Nat) (f : Ctl → Ctl) : (modCtl s k f).ctl = s.ctl := rfl
@[simp] theorem core_modCtl (s : State) (k : Nat) (f : Ctl → Ctl) : (modCtl s k f).core = s.core := rfl
@[simp] theorem slot_modCtl (s : State) (k : Nat) (f : Ctl → Ctl) : (modCtl s k f).slot = s.slot := rfl
@[simp] theorem reply_modCtl (s : State) (k : Nat) (f : Ctl → Ctl) : (modCtl s k f).reply = s.reply := rfl
@[simp] theorem free_modCtl (s : State) (k : Nat) (f : Ctl → Ctl) : (modCtl s k f).free = s.free := rfl
@[simp] theorem undefGen_modCtl (s : State) (k : Nat) (f : Ctl → Ctl) : (modCtl s k f).undefGen = s.undefGen := rfl
@[simp] theorem nstime_setVale (s : State) (v : Nat) (x : Vale) : (setVale s v x).nstime = s.nstime := rfl
@[simp] theorem mem_setVale (s : State) (v : Nat) (x : Vale) : (setVale s v x).mem = s.mem := rfl
@[simp] theorem io_setVale (s : State) (v : Nat) (x : Vale) : (setVale s v x).io = s.io := rfl
@[simp] theorem cores_setVale (s : State) (v : Nat) (x : Vale) : (setVale s v x).cores = s.cores := rfl
@[simp] theorem ctls_setVale (s : State) (v : Nat) (x : Vale) : (setVale s v x).ctls = s.ctls := rfl
@[simp] theorem vfs_setVale (s : State) (v : Nat) (x : Vale) : (setVale s v x).vfs = s.vfs := rfl
@[simp] theorem slots_setVale (s : State) (v : Nat) (x : Vale) : (setVale s v x).slots = s.slots := rfl
@[simp] theorem contexts_setVale (s : State) (v : Nat) (x : Vale) : (setVale s v x).contexts = s.contexts := rfl
@[simp] theorem energy_setVale (s : State) (v : Nat) (x : Vale) : (setVale s v x).energy = s.energy := rfl
@[simp] theorem agenda_setVale (s : State) (v : Nat) (x : Vale) : (setVale s v x).agenda = s.agenda := rfl
@[simp] theorem ctl_setVale (s : State) (v : Nat) (x : Vale) : (setVale s v x).ctl = s.ctl := rfl
@[simp] theorem core_setVale (s : State) (v : Nat) (x : Vale) : (setVale s v x).core = s.core := rfl
@[simp] theorem slot_setVale (s : State) (v : Nat) (x : Vale) : (setVale s v x).slot = s.slot := rfl
@[simp] theorem reply_setVale (s : State) (v : Nat) (x : Vale) : (setVale s v x).reply = s.reply := rfl
@[simp] theorem free_setVale (s : State) (v : Nat) (x : Vale) : (setVale s v x).free = s.free := rfl
@[simp] theorem undefGen_setVale (s : State) (v : Nat) (x : Vale) : (setVale s v x).undefGen = s.undefGen := rfl
@[simp] theorem nstime_modVale (s : State) (v : Nat) (f : Vale → Vale) : (modVale s v f).nstime = s.nstime := rfl
@[simp] theorem mem_modVale (s : State) (v : Nat) (f : Vale → Vale) : (modVale s v f).mem = s.mem := rfl
@[simp] theorem io_modVale (s : State) (v : Nat) (f : Vale → Vale) : (modVale s v f).io = s.io := rfl
@[simp] theorem cores_modVale (s : State) (v : Nat) (f : Vale → Vale) : (modVale s v f).cores = s.cores := rfl
@[simp] theorem ctls_modVale (s : State) (v : Nat) (f : Vale → Vale) : (modVale s v f).ctls = s.ctls := rfl
@[simp] theorem vfs_modVale (s : State) (v : Nat) (f : Vale → Vale) : (modVale s v f).vfs = s.vfs := rfl
@[simp] theorem slots_modVale (s : State) (v : Nat) (f : Vale → Vale) : (modVale s v f).slots = s.slots := rfl
@[simp] theorem contexts_modVale (s : State) (v : Nat) (f : Vale → Vale) : (modVale s v f).contexts = s.contexts := rfl
@[simp] theorem energy_modVale (s : State) (v : Nat) (f : Vale → Vale) : (modVale s v f).energy = s.energy := rfl
@[simp] theorem agenda_modVale (s : State) (v : Nat) (f : Vale → Vale) : (modVale s v f).agenda = s.agenda := rfl
@[simp] theorem ctl_modVale (s : State) (v : Nat) (f : Vale → Vale) : (modVale s v f).ctl = s.ctl := rfl
@[simp] theorem core_modVale (s : State) (v : Nat) (f : Vale → Vale) : (modVale s v f).core = s.core := rfl
@[simp] theorem slot_modVale (s : State) (v : Nat) (f : Vale → Vale) : (modVale s v f).slot = s.slot := rfl
@[simp] theorem reply_modVale (s : State) (v : Nat) (f : Vale → Vale) : (modVale s v f).reply = s.reply := rfl
@[simp] theorem free_modVale (s : State) (v : Nat) (f : Vale → Vale) : (modVale s v f).free = s.free := rfl
@[simp] theorem undefGen_modVale (s : State) (v : Nat) (f : Vale → Vale) : (modVale s v f).undefGen = s.undefGen := rfl
@[simp] theorem nstime_setVf (s : State) (n : Nat) (x : Vf) : (setVf s n x).nstime = s.nstime := rfl
@[simp] theorem mem_setVf (s : State) (n : Nat) (x : Vf) : (setVf s n x).mem = s.mem := rfl
@[simp] theorem io_setVf (s : State) (n : Nat) (x : Vf) : (setVf s n x).io = s.io := rfl
@[simp] theorem cores_setVf (s : State) (n : Nat) (x : Vf) : (setVf s n x).cores = s.cores := rfl
@[simp] theorem ctls_setVf (s : State) (n : Nat) (x : Vf) : (setVf s n x).ctls = s.ctls := rfl
@[simp] theorem vales_setVf (s : State) (n : Nat) (x : Vf) : (setVf s n x).vales = s.vales := rfl
@[simp] theorem slots_setVf (s : State) (n : Nat) (x : Vf) : (setVf s n x).slots = s.slots := rfl
@[simp] theorem contexts_setVf (s : State) (n : Nat) (x : Vf) : (setVf s n x).contexts = s.contexts := rfl
@[simp] theorem energy_setVf (s : State) (n : Nat) (x : Vf) : (setVf s n x).energy = s.energy := rfl
@[simp] theorem agenda_setVf (s : State) (n : Nat) (x : Vf) : (setVf s n x).agenda = s.agenda := rfl
@[simp] theorem ctl_setVf (s : State) (n : Nat) (x : Vf) : (setVf s n x).ctl = s.ctl := rfl
@[simp] theorem core_setVf (s : State) (n : Nat) (x : Vf) : (setVf s n x).core = s.core := rfl
@[simp] theorem slot_setVf (s : State) (n : Nat) (x : Vf) : (setVf s n x).slot = s.slot := rfl
@[simp] theorem reply_setVf (s : State) (n : Nat) (x : Vf) : (setVf s n x).reply = s.reply := rfl
@[simp] theorem free_setVf (s : State) (n : Nat) (x : Vf) : (setVf s n x).free = s.free := rfl
@[simp] theorem undefGen_setVf (s : State) (n : Nat) (x : Vf) : (setVf s n x).undefGen = s.undefGen := rfl
@[simp] theorem nstime_modVf (s : State) (n : Nat) (f : Vf → Vf) : (modVf s n f).nstime = s.nstime := rfl
@[simp] theorem mem_modVf (s : State) (n : Nat) (f : Vf → Vf) : (modVf s n f).mem = s.mem := rfl
@[simp] theorem io_modVf (s : State) (n : Nat) (f : Vf → Vf) : (modVf s n f).io = s.io := rfl
@[simp] theorem cores_modVf (s : State) (n : Nat) (f : Vf → Vf) : (modVf s n f).cores = s.cores := rfl
@[simp] theorem ctls_modVf (s : State) (n : Nat) (f : Vf → Vf) : (modVf s n f).ctls = s.ctls := rfl
@[simp] theorem vales_modVf (s : State) (n : Nat) (f : Vf → Vf) : (modVf s n f).vales = s.vales := rfl
@[simp] theorem slots_modVf (s : State) (n : Nat) (f : Vf → Vf) : (modVf s n f).slots = s.slots := rfl
@[simp] theorem contexts_modVf (s : State) (n : Nat) (f : Vf → Vf) : (modVf s n f).contexts = s.contexts := rfl
@[simp] theorem energy_modVf (s : State) (n : Nat) (f : Vf → Vf) : (modVf s n f).energy = s.energy := rfl
@[simp] theorem agenda_modVf (s : State) (n : Nat) (f : Vf → Vf) : (modVf s n f).agenda = s.agenda := rfl
@[simp] theorem ctl_modVf (s : State) (n : Nat) (f : Vf → Vf) : (modVf s n f).ctl = s.ctl := rfl
@[simp] theorem core_modVf (s : State) (n : Nat) (f : Vf → Vf) : (modVf s n f).core = s.core := rfl
@[simp] theorem slot_modVf (s : State) (n : Nat) (f : Vf → Vf) : (modVf s n f).slot = s.slot := rfl
@[simp] theorem reply_modVf (s : State) (n : Nat) (f : Vf → Vf) : (modVf s n f).reply = s.reply := rfl
@[simp] theorem free_modVf (s : State) (n : Nat) (f : Vf → Vf) : (modVf s n f).free = s.free := rfl
@[simp] theorem undefGen_modVf (s : State) (n : Nat) (f : Vf → Vf) : (modVf s n f).undefGen = s.undefGen := rfl
@[simp] theorem nstime_setSlot (s : State) (j : Nat) (x : Slot) : (setSlot s j x).nstime = s.nstime := rfl
@[simp] theorem mem_setSlot (s : State) (j : Nat) (x : Slot) : (setSlot s j x).mem = s.mem := rfl
@[simp] theorem io_setSlot (s : State) (j : Nat) (x : Slot) : (setSlot s j x).io = s.io := rfl
@[simp] theorem cores_setSlot (s : State) (j : Nat) (x : Slot) : (setSlot s j x).cores = s.cores := rfl
@[simp] theorem ctls_setSlot (s : State) (j : Nat) (x : Slot) : (setSlot s j x).ctls = s.ctls := rfl
@[simp] theorem vales_setSlot (s : State) (j : Nat) (x : Slot) : (setSlot s j x).vales = s.vales := rfl
@[simp] theorem vfs_setSlot (s : State) (j : Nat) (x : Slot) : (setSlot s j x).vfs = s.vfs := rfl
@[simp] theorem contexts_setSlot (s : State) (j : Nat) (x : Slot) : (setSlot s j x).contexts = s.contexts := rfl
@[simp] theorem energy_setSlot (s : State) (j : Nat) (x : Slot) : (setSlot s j x).energy = s.energy := rfl
@[simp] theorem agenda_setSlot (s : State) (j : Nat) (x : Slot) : (setSlot s j x).agenda = s.agenda := rfl
@[simp] theorem ctl_setSlot (s : State) (j : Nat) (x : Slot) : (setSlot s j x).ctl = s.ctl := rfl
@[simp] theorem core_setSlot (s : State) (j : Nat) (x : Slot) : (setSlot s j x).core = s.core := rfl
@[simp] theorem slot_setSlot (s : State) (j : Nat) (x : Slot) : (setSlot s j x).slot = s.slot := rfl
@[simp] theorem reply_setSlot (s : State) (j : Nat) (x : Slot) : (setSlot s j x).reply = s.reply := rfl
@[simp] theorem free_setSlot (s : State) (j : Nat) (x : Slot) : (setSlot s j x).free = s.free := rfl
@[simp] theorem undefGen_setSlot (s : State) (j : Nat) (x : Slot) : (setSlot s j x).undefGen = s.undefGen := rfl
@[simp] theorem nstime_setCtx (s : State) (n v : Nat) (x : Context) : (setCtx s n v x).nstime = s.nstime := rfl
@[simp] theorem mem_setCtx (s : State) (n v : Nat) (x : Context) : (setCtx s n v x).mem = s.mem := rfl
@[simp] theorem io_setCtx (s : State) (n v : Nat) (x : Context) : (setCtx s n v x).io = s.io := rfl
@[simp] theorem cores_setCtx (s : State) (n v : Nat) (x : Context) : (setCtx s n v x).cores = s.cores := rfl
@[simp] theorem ctls_setCtx (s : State) (n v : Nat) (x : Context) : (setCtx s n v x).ctls = s.ctls := rfl
@[simp] theorem vales_setCtx (s : State) (n v : Nat) (x : Context) : (setCtx s n v x).vales = s.vales := rfl
@[simp] theorem vfs_setCtx (s : State) (n v : Nat) (x : Context) : (setCtx s n v x).vfs = s.vfs := rfl
@[simp] theorem slots_setCtx (s : State) (n v : Nat) (x : Context) : (setCtx s n v x).slots = s.slots := rfl
@[simp] theorem energy_setCtx (s : State) (n v : Nat) (x : Context) : (setCtx s n v x).energy = s.energy := rfl
@[simp] theorem agenda_setCtx (s : State) (n v : Nat) (x : Context) : (setCtx s n v x).agenda = s.agenda := rfl
@[simp] theorem ctl_setCtx (s : State) (n v : Nat) (x : Context) : (setCtx s n v x).ctl = s.ctl := rfl
@[simp] theorem core_setCtx (s : State) (n v : Nat) (x : Context) : (setCtx s n v x).core = s.core := rfl
@[simp] theorem slot_setCtx (s : State) (n v : Nat) (x : Context) : (setCtx s n v x).slot = s.slot := rfl
@[simp] theorem reply_setCtx (s : State) (n v : Nat) (x : Context) : (setCtx s n v x).reply = s.reply := rfl
@[simp] theorem free_setCtx (s : State) (n v : Nat) (x : Context) : (setCtx s n v x).free = s.free := rfl
@[simp] theorem undefGen_setCtx (s : State) (n v : Nat) (x : Context) : (setCtx s n v x).undefGen = s.undefGen := rfl
@[simp] theorem nstime_modCtx (s : State) (n v : Nat) (f : Context → Context) : (modCtx s n v f).nstime = s.nstime := rfl
@[simp] theorem mem_modCtx (s : State) (n v : Nat) (f : Context → Context) : (modCtx s n v f).mem = s.mem := rfl
@[simp] theorem io_modCtx (s : State) (n v : Nat) (f : Context → Context) : (modCtx s n v f).io = s.io := rfl
@[simp] theorem cores_modCtx (s : State) (n v : Nat) (f : Context → Context) : (modCtx s n v f).cores = s.cores := rfl
@[simp] theorem ctls_modCtx (s : State) (n v : Nat) (f : Context → Context) : (modCtx s n v f).ctls = s.ctls := rfl
@[simp] theorem vales_modCtx (s : State) (n v : Nat) (f : Context → Context) : (modCtx s n v f).vales = s.vales := rfl
@[simp] theorem vfs_modCtx (s : State) (n v : Nat) (f : Context → Context) : (modCtx s n v f).vfs = s.vfs := rfl
@[simp] theorem slots_modCtx (s : State) (n v : Nat) (f : Context → Context) : (modCtx s n v f).slots = s.slots := rfl
@[simp] theorem energy_modCtx (s : State) (n v : Nat) (f : Context → Context) : (modCtx s n v f).energy = s.energy := rfl
@[simp] theorem agenda_modCtx (s : State) (n v : Nat) (f : Context → Context) : (modCtx s n v f).agenda = s.agenda := rfl
@[simp] theorem ctl_modCtx (s : State) (n v : Nat) (f : Context → Context) : (modCtx s n v f).ctl = s.ctl := rfl
@[simp] theorem core_modCtx (s : State) (n v : Nat) (f : Context → Context) : (modCtx s n v f).core = s.core := rfl
@[simp] theorem slot_modCtx (s : State) (n v : Nat) (f : Context → Context) : (modCtx s n v f).slot = s.slot := rfl
@[simp] theorem reply_modCtx (s : State) (n v : Nat) (f : Context → Context) : (modCtx s n v f).reply = s.reply := rfl
@[simp] theorem free_modCtx (s : State) (n v : Nat) (f : Context → Context) : (modCtx s n v f).free = s.free := rfl
@[simp] theorem undefGen_modCtx (s : State) (n v : Nat) (f : Context → Context) : (modCtx s n v f).undefGen = s.undefGen := rfl
@[simp] theorem nstime_bump (s : State) : (bump s).nstime = s.nstime := rfl
@[simp] theorem mem_bump (s : State) : (bump s).mem = s.mem := rfl
@[simp] theorem io_bump (s : State) : (bump s).io = s.io := rfl
@[simp] theorem cores_bump (s : State) : (bump s).cores = s.cores := rfl
@[simp] theorem ctls_bump (s : State) : (bump s).ctls = s.ctls := rfl
@[simp] theorem vales_bump (s : State) : (bump s).vales = s.vales := rfl
@[simp] theorem vfs_bump (s : State) : (bump s).vfs = s.vfs := rfl
@[simp] theorem slots_bump (s : State) : (bump s).slots = s.slots := rfl
@[simp] theorem contexts_bump (s : State) : (bump s).contexts = s.contexts := rfl
@[simp] theorem energy_bump (s : State) : (bump s).energy = s.energy := rfl
@[simp] theorem agenda_bump (s : State) : (bump s).agenda = s.agenda := rfl
@[simp] theorem ctl_bump (s : State) : (bump s).ctl = s.ctl := rfl
@[simp] theorem core_bump (s : State) : (bump s).core = s.core := rfl
@[simp] theorem slot_bump (s : State) : (bump s).slot = s.slot := rfl
@[simp] theorem reply_bump (s : State) : (bump s).reply = s.reply := rfl
@[simp] theorem undefGen_bump (s : State) : (bump s).undefGen = s.undefGen := rfl
@[simp] theorem free_bump (s : State) : (bump s).free = s.free + 1 := rfl

/-! ## Tables after an update -/

@[simp] theorem coreOf_setCore (s : State) (k j : Nat) (x : Core) :
    coreOf (setCore s k x) j = if j = k then x else coreOf s j := FMap.get_put _ _ _ _ _

@[simp] theorem coreOf_modCore (s : State) (k j : Nat) (f : Core → Core) :
    coreOf (modCore s k f) j = if j = k then f (coreOf s k) else coreOf s j := FMap.get_put _ _ _ _ _

@[simp] theorem ctlOf_setCtl (s : State) (k j : Nat) (x : Ctl) :
    ctlOf (setCtl s k x) j = if j = k then x else ctlOf s j := FMap.get_put _ _ _ _ _

@[simp] theorem ctlOf_modCtl (s : State) (k j : Nat) (f : Ctl → Ctl) :
    ctlOf (modCtl s k f) j = if j = k then f (ctlOf s k) else ctlOf s j := FMap.get_put _ _ _ _ _

@[simp] theorem valeOf_setVale (s : State) (v w : Nat) (x : Vale) :
    valeOf (setVale s v x) w = if w = v then x else valeOf s w := FMap.get_put _ _ _ _ _

@[simp] theorem valeOf_modVale (s : State) (v w : Nat) (f : Vale → Vale) :
    valeOf (modVale s v f) w = if w = v then f (valeOf s v) else valeOf s w := FMap.get_put _ _ _ _ _

@[simp] theorem vfOf_setVf (s : State) (n m : Nat) (x : Vf) :
    vfOf (setVf s n x) m = if m = n then x else vfOf s m := FMap.get_put _ _ _ _ _

@[simp] theorem vfOf_modVf (s : State) (n m : Nat) (f : Vf → Vf) :
    vfOf (modVf s n f) m = if m = n then f (vfOf s n) else vfOf s m := FMap.get_put _ _ _ _ _

@[simp] theorem slotOf_setSlot (s : State) (j i : Nat) (x : Slot) :
    slotOf (setSlot s j x) i = if i = j then x else slotOf s i := FMap.get_put _ _ _ _ _

@[simp] theorem ctxOf_setCtx_same (s : State) (n v : Nat) (x : Context) : ctxOf (setCtx s n v x) n v = x :=
  FMap.get_put_same _ _ _ _

@[simp] theorem ctxOf_modCtx_same (s : State) (n v : Nat) (f : Context → Context) :
    ctxOf (modCtx s n v f) n v = f (ctxOf s n v) := FMap.get_put_same _ _ _ _

@[simp] theorem entryOf_setEntry_same (s : State) (k e : Nat) (x : MacroEntry) : entryOf (setEntry s k e x) k e = x := by
  simp [entryOf, setEntry]

@[simp] theorem entryOf_modEntry_same (s : State) (k e : Nat) (f : MacroEntry → MacroEntry) :
    entryOf (modEntry s k e f) k e = f (entryOf s k e) := by simp [modEntry]

@[simp] theorem gangOf_setGang_same (s : State) (v g : Nat) (x : Gang) : gangOf (setGang s v g x) v g = x := by
  simp [gangOf, setGang]

/-! ## A table after an update of another -/
@[simp] theorem ctlOf_setCore (s : State) (k : Nat) (x : Core) (i : Nat) : ctlOf (setCore s k x) i = ctlOf s i := rfl
@[simp] theorem valeOf_setCore (s : State) (k : Nat) (x : Core) (i : Nat) : valeOf (setCore s k x) i = valeOf s i := rfl
@[simp] theorem vfOf_setCore (s : State) (k : Nat) (x : Core) (i : Nat) : vfOf (setCore s k x) i = vfOf s i := rfl
@[simp] theorem slotOf_setCore (s : State) (k : Nat) (x : Core) (i : Nat) : slotOf (setCore s k x) i = slotOf s i := rfl
@[simp] theorem ctxOf_setCore (s : State) (k : Nat) (x : Core) (n1 v1 : Nat) : ctxOf (setCore s k x) n1 v1 = ctxOf s n1 v1 := rfl
@[simp] theorem ctlOf_modCore (s : State) (k : Nat) (f : Core → Core) (i : Nat) : ctlOf (modCore s k f) i = ctlOf s i := rfl
@[simp] theorem valeOf_modCore (s : State) (k : Nat) (f : Core → Core) (i : Nat) : valeOf (modCore s k f) i = valeOf s i := rfl
@[simp] theorem vfOf_modCore (s : State) (k : Nat) (f : Core → Core) (i : Nat) : vfOf (modCore s k f) i = vfOf s i := rfl
@[simp] theorem slotOf_modCore (s : State) (k : Nat) (f : Core → Core) (i : Nat) : slotOf (modCore s k f) i = slotOf s i := rfl
@[simp] theorem ctxOf_modCore (s : State) (k : Nat) (f : Core → Core) (n1 v1 : Nat) : ctxOf (modCore s k f) n1 v1 = ctxOf s n1 v1 := rfl
@[simp] theorem coreOf_setCtl (s : State) (k : Nat) (x : Ctl) (i : Nat) : coreOf (setCtl s k x) i = coreOf s i := rfl
@[simp] theorem valeOf_setCtl (s : State) (k : Nat) (x : Ctl) (i : Nat) : valeOf (setCtl s k x) i = valeOf s i := rfl
@[simp] theorem vfOf_setCtl (s : State) (k : Nat) (x : Ctl) (i : Nat) : vfOf (setCtl s k x) i = vfOf s i := rfl
@[simp] theorem slotOf_setCtl (s : State) (k : Nat) (x : Ctl) (i : Nat) : slotOf (setCtl s k x) i = slotOf s i := rfl
@[simp] theorem ctxOf_setCtl (s : State) (k : Nat) (x : Ctl) (n1 v1 : Nat) : ctxOf (setCtl s k x) n1 v1 = ctxOf s n1 v1 := rfl
@[simp] theorem coreOf_modCtl (s : State) (k : Nat) (f : Ctl → Ctl) (i : Nat) : coreOf (modCtl s k f) i = coreOf s i := rfl
@[simp] theorem valeOf_modCtl (s : State) (k : Nat) (f : Ctl → Ctl) (i : Nat) : valeOf (modCtl s k f) i = valeOf s i := rfl
@[simp] theorem vfOf_modCtl (s : State) (k : Nat) (f : Ctl → Ctl) (i : Nat) : vfOf (modCtl s k f) i = vfOf s i := rfl
@[simp] theorem slotOf_modCtl (s : State) (k : Nat) (f : Ctl → Ctl) (i : Nat) : slotOf (modCtl s k f) i = slotOf s i := rfl
@[simp] theorem ctxOf_modCtl (s : State) (k : Nat) (f : Ctl → Ctl) (n1 v1 : Nat) : ctxOf (modCtl s k f) n1 v1 = ctxOf s n1 v1 := rfl
@[simp] theorem coreOf_setVale (s : State) (v : Nat) (x : Vale) (i : Nat) : coreOf (setVale s v x) i = coreOf s i := rfl
@[simp] theorem ctlOf_setVale (s : State) (v : Nat) (x : Vale) (i : Nat) : ctlOf (setVale s v x) i = ctlOf s i := rfl
@[simp] theorem vfOf_setVale (s : State) (v : Nat) (x : Vale) (i : Nat) : vfOf (setVale s v x) i = vfOf s i := rfl
@[simp] theorem slotOf_setVale (s : State) (v : Nat) (x : Vale) (i : Nat) : slotOf (setVale s v x) i = slotOf s i := rfl
@[simp] theorem ctxOf_setVale (s : State) (v : Nat) (x : Vale) (n1 v1 : Nat) : ctxOf (setVale s v x) n1 v1 = ctxOf s n1 v1 := rfl
@[simp] theorem coreOf_modVale (s : State) (v : Nat) (f : Vale → Vale) (i : Nat) : coreOf (modVale s v f) i = coreOf s i := rfl
@[simp] theorem ctlOf_modVale (s : State) (v : Nat) (f : Vale → Vale) (i : Nat) : ctlOf (modVale s v f) i = ctlOf s i := rfl
@[simp] theorem vfOf_modVale (s : State) (v : Nat) (f : Vale → Vale) (i : Nat) : vfOf (modVale s v f) i = vfOf s i := rfl
@[simp] theorem slotOf_modVale (s : State) (v : Nat) (f : Vale → Vale) (i : Nat) : slotOf (modVale s v f) i = slotOf s i := rfl
@[simp] theorem ctxOf_modVale (s : State) (v : Nat) (f : Vale → Vale) (n1 v1 : Nat) : ctxOf (modVale s v f) n1 v1 = ctxOf s n1 v1 := rfl
@[simp] theorem coreOf_setVf (s : State) (n : Nat) (x : Vf) (i : Nat) : coreOf (setVf s n x) i = coreOf s i := rfl
@[simp] theorem ctlOf_setVf (s : State) (n : Nat) (x : Vf) (i : Nat) : ctlOf (setVf s n x) i = ctlOf s i := rfl
@[simp] theorem valeOf_setVf (s : State) (n : Nat) (x : Vf) (i : Nat) : valeOf (setVf s n x) i = valeOf s i := rfl
@[simp] theorem slotOf_setVf (s : State) (n : Nat) (x : Vf) (i : Nat) : slotOf (setVf s n x) i = slotOf s i := rfl
@[simp] theorem ctxOf_setVf (s : State) (n : Nat) (x : Vf) (n1 v1 : Nat) : ctxOf (setVf s n x) n1 v1 = ctxOf s n1 v1 := rfl
@[simp] theorem coreOf_modVf (s : State) (n : Nat) (f : Vf → Vf) (i : Nat) : coreOf (modVf s n f) i = coreOf s i := rfl
@[simp] theorem ctlOf_modVf (s : State) (n : Nat) (f : Vf → Vf) (i : Nat) : ctlOf (modVf s n f) i = ctlOf s i := rfl
@[simp] theorem valeOf_modVf (s : State) (n : Nat) (f : Vf → Vf) (i : Nat) : valeOf (modVf s n f) i = valeOf s i := rfl
@[simp] theorem slotOf_modVf (s : State) (n : Nat) (f : Vf → Vf) (i : Nat) : slotOf (modVf s n f) i = slotOf s i := rfl
@[simp] theorem ctxOf_modVf (s : State) (n : Nat) (f : Vf → Vf) (n1 v1 : Nat) : ctxOf (modVf s n f) n1 v1 = ctxOf s n1 v1 := rfl
@[simp] theorem coreOf_setSlot (s : State) (j : Nat) (x : Slot) (i : Nat) : coreOf (setSlot s j x) i = coreOf s i := rfl
@[simp] theorem ctlOf_setSlot (s : State) (j : Nat) (x : Slot) (i : Nat) : ctlOf (setSlot s j x) i = ctlOf s i := rfl
@[simp] theorem valeOf_setSlot (s : State) (j : Nat) (x : Slot) (i : Nat) : valeOf (setSlot s j x) i = valeOf s i := rfl
@[simp] theorem vfOf_setSlot (s : State) (j : Nat) (x : Slot) (i : Nat) : vfOf (setSlot s j x) i = vfOf s i := rfl
@[simp] theorem ctxOf_setSlot (s : State) (j : Nat) (x : Slot) (n1 v1 : Nat) : ctxOf (setSlot s j x) n1 v1 = ctxOf s n1 v1 := rfl
@[simp] theorem coreOf_setCtx (s : State) (n v : Nat) (x : Context) (i : Nat) : coreOf (setCtx s n v x) i = coreOf s i := rfl
@[simp] theorem ctlOf_setCtx (s : State) (n v : Nat) (x : Context) (i : Nat) : ctlOf (setCtx s n v x) i = ctlOf s i := rfl
@[simp] theorem valeOf_setCtx (s : State) (n v : Nat) (x : Context) (i : Nat) : valeOf (setCtx s n v x) i = valeOf s i := rfl
@[simp] theorem vfOf_setCtx (s : State) (n v : Nat) (x : Context) (i : Nat) : vfOf (setCtx s n v x) i = vfOf s i := rfl
@[simp] theorem slotOf_setCtx (s : State) (n v : Nat) (x : Context) (i : Nat) : slotOf (setCtx s n v x) i = slotOf s i := rfl
@[simp] theorem coreOf_modCtx (s : State) (n v : Nat) (f : Context → Context) (i : Nat) : coreOf (modCtx s n v f) i = coreOf s i := rfl
@[simp] theorem ctlOf_modCtx (s : State) (n v : Nat) (f : Context → Context) (i : Nat) : ctlOf (modCtx s n v f) i = ctlOf s i := rfl
@[simp] theorem valeOf_modCtx (s : State) (n v : Nat) (f : Context → Context) (i : Nat) : valeOf (modCtx s n v f) i = valeOf s i := rfl
@[simp] theorem vfOf_modCtx (s : State) (n v : Nat) (f : Context → Context) (i : Nat) : vfOf (modCtx s n v f) i = vfOf s i := rfl
@[simp] theorem slotOf_modCtx (s : State) (n v : Nat) (f : Context → Context) (i : Nat) : slotOf (modCtx s n v f) i = slotOf s i := rfl
@[simp] theorem coreOf_bump (s : State) (i : Nat) : coreOf (bump s) i = coreOf s i := rfl
@[simp] theorem ctlOf_bump (s : State) (i : Nat) : ctlOf (bump s) i = ctlOf s i := rfl
@[simp] theorem valeOf_bump (s : State) (i : Nat) : valeOf (bump s) i = valeOf s i := rfl
@[simp] theorem vfOf_bump (s : State) (i : Nat) : vfOf (bump s) i = vfOf s i := rfl
@[simp] theorem slotOf_bump (s : State) (i : Nat) : slotOf (bump s) i = slotOf s i := rfl
@[simp] theorem ctxOf_bump (s : State) (n1 v1 : Nat) : ctxOf (bump s) n1 v1 = ctxOf s n1 v1 := rfl

end Sys2Proof.Machine
end

