-- ==== Sys2Proof/Laws/Ops.lean ====
section
/-! SUPPORT. What the shared operations do, said once: an operation that issues, results on their way, monitors,
writes at module scope, taking a trap. -/

namespace Sys2Proof.Machine

open Sys2Proof

/-! ## Frames -/

theorem curCore_bump (s : State) : curCore (bump s) = curCore s := rfl

/-- Nothing done is a change of nothing. -/
theorem slotDone_bump (s : State) : SlotDone s (bump s) (curCore s) := ⟨rfl, fun _ _ => rfl, rfl⟩

theorem SlotDone.core_eq {s t : State} {c : Core} (h : SlotDone s t c) : t.core = s.core := by rw [h.2.2]; rfl
theorem SlotDone.curCore_eq {s t : State} {c : Core} (h : SlotDone s t c) : curCore t = c := by
  unfold curCore; rw [h.core_eq]; exact h.1

/-- A further change of the current core keeps the frame. -/
theorem SlotDone.modCore {s t : State} {c : Core} (h : SlotDone s t c) (f : Core → Core) :
    SlotDone s (modCore t s.core f) (f c) := by
  refine ⟨?_, fun k hk => ?_, ?_⟩
  · simp [Machine.modCore, coreOf, setCore, ← h.1]
  · rw [← h.2.1 k hk]; simp [Machine.modCore, coreOf, setCore, FMap.get_put, hk]
  · exact congrArg (fun u : State => { u with cores := (Machine.modCore t s.core f).cores }) h.2.2

/-- The current core replaced keeps the frame. -/
theorem SlotDone.setCore {s t : State} {c : Core} (h : SlotDone s t c) (c' : Core) :
    SlotDone s (setCore t s.core c') c' := h.modCore fun _ => c'

/-- No result of an interlocked atomic to let go: nothing leaves the record. -/
theorem dropDelivered_none {c : Core} (h : answered c = false) : dropDelivered c = c := by
  simp only [answered, Bool.or_eq_false_iff, List.any_eq_false] at h
  have h1 : (c.loads.filter fun e => e.2.kind == 2 && e.2.interlocked && e.2.applied) = [] := List.filter_eq_nil_iff.2 h.1
  have h2 : (c.atomics.filter fun e => e.2.kind != 2 && e.2.interlocked && e.2.first != 0) = [] := List.filter_eq_nil_iff.2 h.2
  simp only [dropDelivered, h1, List.foldl_nil, h2]

/-- A bundle done with on a core that holds no such result. -/
theorem modCore_done {s : State} {k : Nat} (h : answered (coreOf s k) = false) :
    modCore s k (fun c => dropDelivered { c with held := {} }) = modCore s k fun c => { c with held := {} } :=
  congrArg (setCore s k) (dropDelivered_none (c := { coreOf s k with held := {} }) h)

/-- An operation that executes normally, once nothing holds it any more. -/
theorem issueSlot_go {i : Instr} {s u : State} (eff : State → State) (hc : canIssue i s = true)
    (hh : holdSlot (bump s) i 0 = .go u) (ha : answered (coreOf (eff u) u.core) = false) :
    issueSlot i eff s = .next (overflowCheck (flushStores (modCore (eff u) u.core fun c => { c with held := {} }))) := by
  simp only [canIssue, Bool.and_eq_true, beq_iff_eq, Bool.not_eq_true', Option.isNone_iff_eq_none] at hc
  obtain ⟨⟨⟨⟨h1, h2⟩, h3⟩, h4⟩, -⟩ := hc
  rw [← modCore_done ha]
  simp [issueSlot, h1, h2, h3, h4, hh]

/-- An operation that its condition holds back. -/
theorem issueSlot_wait {i : Instr} {s u : State} (eff : State → State) (hc : canIssue i s = true)
    (hh : holdSlot (bump s) i 0 = .wait u) : issueSlot i eff s = .next u := by
  simp only [canIssue, Bool.and_eq_true, beq_iff_eq, Bool.not_eq_true', Option.isNone_iff_eq_none] at hc
  obtain ⟨⟨⟨⟨h1, h2⟩, h3⟩, h4⟩, -⟩ := hc
  simp [issueSlot, h1, h2, h3, h4, hh]

/-- An operation that executes normally, once nothing holds it, and leaves no stores behind. -/
theorem issueSlot_from {i : Instr} {eff : State → State} {s u : State} {c : Core} (hc : canIssue i s = true)
    (hh : holdSlot (bump s) i 0 = .go u) (hu : u.core = s.core) (he : SlotDone s (eff u) c) (hs : c.stores = [])
    (ho : overflowed c = false) (ha : answered c = false) :
    ∃ t, issueSlot i eff s = .next t ∧ SlotDone s t (issuedOnly c) := by
  refine ⟨_, issueSlot_go eff hc hh (by rw [hu, he.1]; exact ha), ?_⟩
  rw [hu]
  have hm := he.modCore fun c => { c with held := {} }
  have hcur := hm.curCore_eq
  have hf : flushStores (modCore (eff u) s.core fun c => { c with held := {} })
      = setCore (modCore (eff u) s.core fun c => { c with held := {} }) s.core { c with held := {} } := by
    simp only [flushStores, hcur, hs, hm.core_eq, List.foldl_nil]
  rw [hf]
  have hd := hm.setCore { c with held := {} }
  have : overflowed ({ c with held := {} } : Core) = false := ho
  simp only [overflowCheck, hd.curCore_eq, this]
  exact hd

/-- An operation that executes normally, is held by nothing and leaves no stores behind: the next state is its
effect's. -/
theorem issueSlot_done {i : Instr} {eff : State → State} {s : State} {c : Core} (hc : canIssue i s = true)
    (hh : holdSlot (bump s) i 0 = .go (bump s)) (he : SlotDone s (eff (bump s)) c) (hs : c.stores = [])
    (ho : overflowed c = false) (ha : answered c = false) :
    ∃ t, issueSlot i eff s = .next t ∧ SlotDone s t (issuedOnly c) :=
  issueSlot_from hc hh rfl he hs ho ha

/-! ## Results on their way -/

theorem quiet_stores {s : State} (h : quiet s = true) : (curCore s).stores = [] := by
  simp [quiet] at h; exact h.1.1
theorem quiet_answered {s : State} (h : quiet s = true) : answered (curCore s) = false := by
  simp [quiet] at h; exact h.1.2
theorem quiet_room {s : State} (h : quiet s = true) : overflowed (curCore s) = false := by
  simp [quiet] at h; exact h.2
theorem canIssue_quiet {i : Instr} {s : State} (h : canIssue i s = true) : quiet s = true := by
  simp only [canIssue, Bool.and_eq_true] at h; exact h.2

/-- Only the current core has changed, and still has no store waiting, no overflow and no result of an interlocked atomic. -/
def QuietDone (s t : State) (c : Core) : Prop :=
  SlotDone s t c ∧ c.stores = [] ∧ overflowed c = false ∧ answered c = false

/-- Nothing done to a quiet core. -/
theorem quietDone_bump {s : State} (h : quiet s = true) : QuietDone s (bump s) (curCore s) :=
  ⟨slotDone_bump s, quiet_stores h, quiet_room h, quiet_answered h⟩

/-- A result put on its way. -/
theorem QuietDone.issue {s t : State} {c : Core} (h : QuietDone s t c) (p : Pending) :
    QuietDone s (issue t p) { c with pending := c.pending ++ [p] } := by
  refine ⟨?_, h.2.1, h.2.2⟩
  have := h.1.modCore fun c => { c with pending := c.pending ++ [p] }
  unfold Machine.issue; rw [h.1.core_eq]; exact this

theorem QuietDone.issueS {s t : State} {c : Core} (h : QuietDone s t c) (n : Nat) (w : Word) (b : Nat) :
    QuietDone s (issueS t n w b) (if n = 0 then c else
      { c with pending := c.pending ++ [{ dest := .s n, scalar := w, issued := c.clk, bound := c.clk + b }] }) := by
  unfold Machine.issueS
  split
  · exact h
  · simpa [h.1.curCore_eq] using h.issue { dest := .s n, scalar := w, issued := c.clk, bound := c.clk + b }

theorem QuietDone.issueP {s t : State} {c : Core} (h : QuietDone s t c) (n : Nat) (x : Bool) (b : Nat) :
    QuietDone s (issueP t n x b) (if n = 0 then c else
      { c with pending := c.pending ++
        [{ dest := .p n, scalar := if x then 1 else 0, issued := c.clk, bound := c.clk + b }] }) := by
  unfold Machine.issueP
  split
  · exact h
  · simpa [h.1.curCore_eq] using
      h.issue { dest := .p n, scalar := if x then 1 else 0, issued := c.clk, bound := c.clk + b }

theorem QuietDone.issueB {s t : State} {c : Core} (h : QuietDone s t c) (n : Nat) (w : Word) (b : Nat) :
    QuietDone s (issueB t n w b)
      { c with pending := c.pending ++ [{ dest := .b n, scalar := w, issued := c.clk, bound := c.clk + b }] } := by
  simpa [Machine.issueB, h.1.curCore_eq] using h.issue { dest := .b n, scalar := w, issued := c.clk, bound := c.clk + b }

/-- An operation that executes normally, whose effect leaves a quiet core. -/
theorem issueSlot_quiet {i : Instr} {eff : State → State} {s : State} {c : Core} (hc : canIssue i s = true)
    (hh : holdSlot (bump s) i 0 = .go (bump s)) (he : QuietDone s (eff (bump s)) c) :
    ∃ t, issueSlot i eff s = .next t ∧ SlotDone s t (issuedOnly c) :=
  issueSlot_done hc hh he.1 he.2.1 he.2.2.1 he.2.2.2

theorem issuedOnly_s (c : Core) (n : Nat) (w : Word) (b : Nat) :
    issuedOnly (if n = 0 then c else
      { c with pending := c.pending ++ [{ dest := .s n, scalar := w, issued := c.clk, bound := c.clk + b }] })
      = sResult c n w b := by
  unfold sResult; split <;> rfl

theorem issuedOnly_p (c : Core) (n : Nat) (x : Bool) :
    issuedOnly (if n = 0 then c else
      { c with pending := c.pending ++
        [{ dest := .p n, scalar := if x then 1 else 0, issued := c.clk, bound := c.clk + 1 }] })
      = pResult c n x := by
  unfold pResult; split <;> rfl

theorem issuedOnly_b (c : Core) (n : Nat) (w : Word) :
    issuedOnly { c with pending := c.pending ++ [{ dest := .b n, scalar := w, issued := c.clk, bound := c.clk + 1 }] }
      = bResult c n w := rfl

/-- An operation that delivers a scalar result. -/
theorem issueSlot_s {i : Instr} {eff : State → State} {s : State} {n : Nat} {w : Word} {b : Nat}
    (hc : canIssue i s = true) (hh : holdSlot (bump s) i 0 = .go (bump s))
    (he : eff (bump s) = issueS (bump s) n w b) :
    ∃ t, issueSlot i eff s = .next t ∧ SlotDone s t (sResult (curCore s) n w b) := by
  rw [← issuedOnly_s]
  exact issueSlot_quiet hc hh (by rw [he]; exact (quietDone_bump (canIssue_quiet hc)).issueS n w b)

/-- An operation that delivers a predicate. -/
theorem issueSlot_p {i : Instr} {eff : State → State} {s : State} {n : Nat} {x : Bool}
    (hc : canIssue i s = true) (hh : holdSlot (bump s) i 0 = .go (bump s))
    (he : eff (bump s) = issueP (bump s) n x 1) :
    ∃ t, issueSlot i eff s = .next t ∧ SlotDone s t (pResult (curCore s) n x) := by
  rw [← issuedOnly_p]
  exact issueSlot_quiet hc hh (by rw [he]; exact (quietDone_bump (canIssue_quiet hc)).issueP n x 1)

/-- An operation that delivers a branch target. -/
theorem issueSlot_b {i : Instr} {eff : State → State} {s : State} {n : Nat} {w : Word}
    (hc : canIssue i s = true) (hh : holdSlot (bump s) i 0 = .go (bump s))
    (he : eff (bump s) = issueB (bump s) n w 1) :
    ∃ t, issueSlot i eff s = .next t ∧ SlotDone s t (bResult (curCore s) n w) := by
  rw [← issuedOnly_b]
  exact issueSlot_quiet hc hh (by rw [he]; exact (quietDone_bump (canIssue_quiet hc)).issueB n w 1)

/-- An operation without an effect of its own. -/
theorem issueSlot_none {i : Instr} {eff : State → State} {s : State}
    (hc : canIssue i s = true) (hh : holdSlot (bump s) i 0 = .go (bump s)) (he : eff (bump s) = bump s) :
    ∃ t, issueSlot i eff s = .next t ∧ SlotDone s t (issuedOnly (curCore s)) :=
  issueSlot_quiet hc hh (by rw [he]; exact quietDone_bump (canIssue_quiet hc))

/-- An operation that changes the current core alone. -/
theorem issueSlot_core {i : Instr} {eff : State → State} {s : State} {f : Core → Core}
    (hc : canIssue i s = true) (hh : holdSlot (bump s) i 0 = .go (bump s))
    (he : eff (bump s) = modCore (bump s) s.core f) (hs : (f (curCore s)).stores = [])
    (ho : overflowed (f (curCore s)) = false) (ha : answered (f (curCore s)) = false) :
    ∃ t, issueSlot i eff s = .next t ∧ SlotDone s t (issuedOnly (f (curCore s))) :=
  issueSlot_done hc hh (by rw [he]; exact (slotDone_bump s).modCore f) hs ho ha

/-! ## Monitors and stores -/

theorem get_mapVal {α : Type} (d : α) (g : α → α) (hg : g d = d) (m : FMap α) (k : Nat) :
    FMap.get d (m.map fun e => (e.1, g e.2)) k = g (FMap.get d m k) := by
  induction m with
  | nil => simpa [FMap.get] using hg.symm
  | cons e m ih =>
    obtain ⟨a, v⟩ := e
    by_cases h : a = k
    · subst h; simp [FMap.get]
    · simp_all [FMap.get]

theorem MonitorsDone.refl (s : State) : MonitorsDone s s := ⟨fun _ => rfl, fun _ => rfl, rfl⟩

theorem MonitorsDone.trans {s t u : State} (h : MonitorsDone s t) (g : MonitorsDone t u) : MonitorsDone s u := by
  refine ⟨fun k => ?_, fun k => ?_, ?_⟩
  · have h1 := h.1 k
    have g1 := g.1 k
    rw [h1] at g1
    exact g1
  · have h1 := h.2.1 k
    have g1 := g.2.1 k
    rw [h1] at g1
    exact g1
  · refine g.2.2.trans ?_
    exact congrArg (fun x : State => { x with cores := u.cores, ctls := u.ctls }) h.2.2

theorem mapMonitors_done (s : State) (f : Monitor → Monitor) : MonitorsDone s (mapMonitors s f) := by
  refine ⟨fun k => ?_, fun k => ?_, rfl⟩
  · have := get_mapVal ({} : Core) (fun c => { c with monitors := c.monitors.map fun m => (m.1, f m.2) }) rfl s.cores k
    simp only [coreOf, mapMonitors, this]
  · have := get_mapVal ({} : Ctl) (fun c => { c with monitors := c.monitors.map fun m => (m.1, f m.2) }) rfl s.ctls k
    simp only [ctlOf, mapMonitors, this]

/-- Monitor tables changed one line after the other. -/
theorem foldl_monitors (g : Nat → Monitor → Monitor) (l : List Nat) (s : State) :
    MonitorsDone s (l.foldl (fun st x => mapMonitors st (g x)) s) := by
  induction l generalizing s with
  | nil => exact .refl s
  | cons a l ih => exact (mapMonitors_done s _).trans (ih _)

/-- A change of the current core, then of monitors. -/
theorem SlotDone.monitors {s t u : State} {c : Core} (h : SlotDone s t c) (g : MonitorsDone t u) : StoreDone s u c := by
  refine ⟨?_, fun k hk => ?_, fun k => ?_, ?_⟩
  · rw [← h.1]; exact g.1 _
  · rw [← h.2.1 k hk]; exact g.1 k
  · have : ctlOf t k = ctlOf s k := by rw [h.2.2]; rfl
    rw [← this]; exact g.2.1 k
  · refine g.2.2.trans ?_
    exact congrArg (fun x : State => { x with cores := u.cores, ctls := u.ctls }) h.2.2

theorem StoreDone.core_eq {s t : State} {c : Core} (h : StoreDone s t c) : t.core = s.core := by rw [h.2.2.2]; rfl

/-- A direct store into the own scratchpad, spill memory or, buffered, another core's scratchpad. -/
theorem locWrite_done {s t : State} {c : Core} (h : SlotDone s t c) (l : Loc) (bs : List Byte) :
    StoreDone s (locWrite t s.core l bs) (storedAt c s.core l bs) := by
  unfold storedAt
  cases l with
  | spill o => exact (h.modCore _).monitors (foldl_monitors _ _ _)
  | spm j o =>
    by_cases hj : j = s.core
    · simp only [locWrite, hj, if_true, spmWrite, h.1]
      exact ((h.modCore _).modCore _).monitors (foldl_monitors _ _ _)
    · simp only [locWrite, if_neg hj]
      exact (h.modCore _).monitors (.refl _)

theorem overflowed_storedAt (c : Core) (k : Nat) (l : Loc) (bs : List Byte) (m : FMap Monitor) :
    overflowed { storedAt c k l bs with monitors := m } = overflowed (storedAt c k l bs) := rfl

/-- A store as the issuing bundle keeps it. -/
def storeItem (l : Loc) (bs : List Byte) : Option Nat × Nat × List Byte :=
  match l with
  | .spill o => (none, o, bs)
  | .spm j o => (some j, o, bs)

/-- An operation that posts one plain store. -/
theorem issueSlot_store {i : Instr} {eff : State → State} {s : State} {l : Loc} {bs : List Byte}
    (hc : canIssue i s = true) (hh : holdSlot (bump s) i 0 = .go (bump s))
    (he : eff (bump s) = postStore (bump s) l bs)
    (ho : overflowed (storedAt (curCore s) s.core l bs) = false) :
    ∃ t, issueSlot i eff s = .next t ∧ StoreDone s t (storedAt (issuedOnly (curCore s)) s.core l bs) := by
  have hq := canIssue_quiet hc
  refine ⟨_, issueSlot_go eff hc hh ?_, ?_⟩
  · rw [he]
    have hp : SlotDone s (postStore (bump s) l bs) { curCore s with stores := (curCore s).stores ++ [storeItem l bs] } :=
      (slotDone_bump s).modCore fun c => { c with stores := c.stores ++ [storeItem l bs] }
    exact (congrArg answered hp.1).trans (quiet_answered hq)
  · rw [he]
    have hm : SlotDone s (modCore (postStore (bump s) l bs) (bump s).core fun c => { c with held := {} })
        { curCore s with stores := [storeItem l bs], held := {} } := by
      have := ((slotDone_bump s).modCore fun c => { c with stores := c.stores ++ [storeItem l bs] }).modCore
        fun c => { c with held := {} }
      rw [show postStore (bump s) l bs
        = modCore (bump s) s.core (fun c => { c with stores := c.stores ++ [storeItem l bs] }) from rfl]
      simpa [quiet_stores hq] using this
    have hs := hm.setCore { curCore s with stores := [], held := {} }
    have hw := locWrite_done hs l bs
    have hf : flushStores (modCore (postStore (bump s) l bs) (bump s).core fun c => { c with held := {} })
        = locWrite (setCore (modCore (postStore (bump s) l bs) (bump s).core fun c => { c with held := {} }) s.core
            { curCore s with stores := [], held := {} }) s.core l bs := by
      simp only [flushStores, hm.curCore_eq, hm.core_eq]
      cases l <;> rfl
    rw [hf]
    generalize locWrite _ s.core l bs = u at hw ⊢
    have ho' : overflowed (storedAt { curCore s with stores := [], held := {} } s.core l bs) = false := by
      rw [← ho]
      cases l with
      | spill o => rfl
      | spm j o => simp only [storedAt]; split <;> rfl
    have hov : overflowed (curCore u) = false := by
      unfold curCore
      rw [hw.core_eq, hw.1, overflowed_storedAt, ho']
    simp only [overflowCheck, hov]
    have hst : ({ curCore s with stores := [], held := {} } : Core) = issuedOnly (curCore s) := by
      have := quiet_stores hq
      generalize curCore s = c at this ⊢
      cases c
      cases this
      rfl
    rw [hst] at hw
    exact hw

theorem StoreDone.curCore_eq {s t : State} {c : Core} (h : StoreDone s t c) :
    curCore t = { c with monitors := (curCore t).monitors } := by
  unfold curCore; rw [h.core_eq]; exact h.1

/-- A core that is another but for some monitors is it but for its own. -/
theorem sameMonitors {x y : Core} {m : FMap Monitor} (h : x = { y with monitors := m }) :
    x = { y with monitors := x.monitors } := by
  subst h; rfl

/-- A further change of the current core that leaves monitors alone. -/
theorem StoreDone.modCore {s t : State} {c : Core} (h : StoreDone s t c) (f : Core → Core)
    (hf : ∀ m, f { c with monitors := m } = { f c with monitors := m }) :
    StoreDone s (Machine.modCore t s.core f) (f c) := by
  refine ⟨?_, fun k hk => ?_, fun k => ?_, ?_⟩
  · have e : coreOf (Machine.modCore t s.core f) s.core = { f c with monitors := (coreOf t s.core).monitors } := by
      have e1 : coreOf (Machine.modCore t s.core f) s.core = f (coreOf t s.core) := by
        simp [Machine.modCore, coreOf, setCore]
      exact e1.trans ((congrArg f h.1).trans (hf _))
    exact sameMonitors e
  · rw [show coreOf (Machine.modCore t s.core f) k = coreOf t k by
      simp [Machine.modCore, coreOf, setCore, FMap.get_put, hk]]
    exact h.2.1 k hk
  · exact h.2.2.1 k
  · exact congrArg (fun u : State => { u with cores := (Machine.modCore t s.core f).cores }) h.2.2.2

theorem SlotDone.toStore {s t : State} {c : Core} (h : SlotDone s t c) : StoreDone s t c := h.monitors (.refl t)

/-- A core's scratchpad written. -/
theorem spmWrite_done {s t : State} {c : Core} (h : SlotDone s t c) (o : Nat) (bs : List Byte) :
    StoreDone s (spmWrite t s.core o bs) { c with spm := c.spm.store o bs } :=
  (h.modCore fun c => { c with spm := c.spm.store o bs }).monitors (foldl_monitors _ _ _)

/-- A bundle without stores of its own performs none. -/
theorem flushStores_none {s t : State} {c : Core} (h : StoreDone s t c) (hs : c.stores = []) :
    flushStores t = Machine.modCore t s.core fun c => { c with stores := [] } := by
  have hst : (curCore t).stores = [] := by rw [h.curCore_eq]; exact hs
  simp only [flushStores, hst, List.foldl_nil]
  simp only [curCore, h.core_eq, Machine.modCore]

theorem StoreDone.room {s t : State} {c : Core} (h : StoreDone s t c) (ho : overflowed c = false) :
    overflowCheck t = t := by
  have : overflowed (curCore t) = false := by rw [h.curCore_eq]; exact ho
  simp [overflowCheck, this]

theorem stores_nil {c : Core} (h : c.stores = []) : { c with stores := [] } = c := by
  cases c; cases h; rfl

/-- The end of an operation whose effect left the current core c and fired monitors. -/
theorem StoreDone.finish {s u : State} {c : Core} (h : StoreDone s u c) (hs : c.stores = [])
    (ho : overflowed c = false) :
    StoreDone s (overflowCheck (flushStores (Machine.modCore u s.core fun c => { c with held := {} }))) (issuedOnly c) := by
  have hm : StoreDone s (Machine.modCore u s.core fun c => { c with held := {} }) (issuedOnly c) :=
    h.modCore (fun c => { c with held := {} }) fun _ => rfl
  have hd := hm.modCore (fun c => { c with stores := [] }) fun _ => rfl
  rw [flushStores_none hm hs]
  rw [hd.room ho]
  rw [stores_nil (c := issuedOnly c) hs] at hd
  exact hd

/-- An operation that writes scratchpads, once nothing holds it. -/
theorem issueSlot_stores {i : Instr} {eff : State → State} {s u : State} {c : Core} (hc : canIssue i s = true)
    (hh : holdSlot (bump s) i 0 = .go u) (hu : u.core = s.core) (he : StoreDone s (eff u) c) (hs : c.stores = [])
    (ho : overflowed c = false) (ha : answered c = false) :
    ∃ t, issueSlot i eff s = .next t ∧ StoreDone s t (issuedOnly c) := by
  refine ⟨_, issueSlot_go eff hc hh (by rw [hu, he.1]; exact ha), ?_⟩
  rw [hu]
  exact he.finish hs ho

/-! ## Charges (R346) -/

/-- From s to t energy has been charged, and nothing else has changed. -/
def ChargedOnly (s t : State) : Prop :=
  t = { s with energy := t.energy, vfs := t.vfs } ∧ ∀ n, vfOf t n = { vfOf s n with jused := (vfOf t n).jused }

theorem ChargedOnly.refl (s : State) : ChargedOnly s s := ⟨rfl, fun _ => rfl⟩

theorem ChargedOnly.trans {s t u : State} (h : ChargedOnly s t) (k : ChargedOnly t u) : ChargedOnly s u :=
  ⟨by have := k.1; rw [h.1] at this; exact this, fun n => by have := k.2 n; rw [h.2 n] at this; exact this⟩

theorem chargedOnly_chargeAmount (s : State) (vf a pj : Nat) : ChargedOnly s (chargeAmount s vf a pj) := by
  unfold chargeAmount
  simp only
  split
  · exact ⟨rfl, fun _ => rfl⟩
  · refine ⟨rfl, fun n => ?_⟩
    by_cases h : n = vf
    · subst h; simp [vfOf, modVf, setVf]
    · simp [vfOf, modVf, setVf, FMap.get_put, h]

theorem chargedOnly_charge (s : State) (m : Meter) (vf a : Nat) : ChargedOnly s (charge s m vf a) :=
  ChargedOnly.trans (t := { s with energy := { s.energy with ops := s.energy.ops + 1 } }) ⟨rfl, fun _ => rfl⟩
    (chargedOnly_chargeAmount _ vf a _)

theorem chargedOnly_foldl {l : List Meter} (s : State) (vf a : Nat) :
    ChargedOnly s (l.foldl (fun st m => charge st m vf a) s) := by
  induction l generalizing s with
  | nil => exact .refl s
  | cons m l ih => exact (chargedOnly_charge s m vf a).trans (ih _)

theorem chargedOnly_chargeAccess (s : State) (vale pa vf a : Nat) : ChargedOnly s (chargeAccess s vale pa vf a) :=
  chargedOnly_foldl s vf a

theorem chargedOnly_chargeCore (s : State) (k : Nat) : ChargedOnly s (chargeCore s k) := chargedOnly_charge s _ _ _

theorem chargedOnly_chargeCoreAccess (s : State) (k pa : Nat) : ChargedOnly s (chargeCoreAccess s k pa) :=
  (chargedOnly_chargeCore s k).trans (chargedOnly_chargeAccess _ _ _ _ _)

/-- A charge leaves every core. -/
theorem ChargedOnly.coreOf {s t : State} (h : ChargedOnly s t) (k : Nat) : Machine.coreOf t k = Machine.coreOf s k := by
  rw [h.1]; rfl

/-- A charge leaves global memory. -/
theorem ChargedOnly.mem {s t : State} (h : ChargedOnly s t) : t.mem = s.mem := by rw [h.1]

/-! ## Pulls on first touch (R121) -/

/-- No pull on first touch is in progress. -/
def NoPulls (s : State) : Prop := ∀ e ∈ s.vfs, pullsOf e.2 = []

theorem NoPulls.touch {s : State} (h : NoPulls s) (pa n : Nat) : touch s pa n = s := by
  have hp : ∀ line, pullLine s line = s := fun line => by
    have : pullOf s (128 * line / 65536) = none := List.findSome?_eq_none_iff.2 fun e he => by simp [h e he]
    simp only [pullLine, this]
  unfold Machine.touch
  induction linesOf pa n with
  | nil => rfl
  | cons l ls ih => rw [List.foldl_cons, hp]; exact ih

theorem get_mem_or {α : Type} (d : α) (m : FMap α) (k : Nat) : FMap.get d m k = d ∨ ∃ e ∈ m, e.2 = FMap.get d m k := by
  induction m with
  | nil => exact .inl rfl
  | cons e m ih =>
    by_cases h : e.1 = k
    · exact .inr ⟨e, by simp, by simp [FMap.get, h]⟩
    · simp only [FMap.get, if_neg h]
      exact ih.imp id fun ⟨x, hx, he⟩ => ⟨x, List.mem_cons_of_mem _ hx, he⟩

/-- A virtual function changed in what no pull depends on. -/
theorem NoPulls.modVf {s : State} (h : NoPulls s) (n : Nat) (f : Vf → Vf) (hf : ∀ v, pullsOf (f v) = pullsOf v) :
    NoPulls (modVf s n f) := by
  intro e he
  simp only [Machine.modVf, setVf, FMap.put] at he
  split at he
  · exact h e (FMap.mem_erase he)
  · rcases FMap.mem_insert he with rfl | hm
    · rw [hf]
      rcases get_mem_or {} s.vfs n with hd | ⟨x, hx, hv⟩
      · unfold vfOf; rw [hd]; rfl
      · unfold vfOf; rw [← hv]; exact h x hx
    · exact h e hm

theorem NoPulls.charge {s : State} (h : NoPulls s) (m : Meter) (vf a : Nat) : NoPulls (charge s m vf a) := by
  unfold Machine.charge chargeAmount
  simp only
  split
  · exact h
  · refine NoPulls.modVf ?_ vf (fun v => { v with jused := v.jused + nextEnergy s m }) fun _ => rfl
    exact h

theorem NoPulls.chargeAccess {s : State} (h : NoPulls s) (vale pa vf a : Nat) : NoPulls (chargeAccess s vale pa vf a) := by
  unfold Machine.chargeAccess
  induction accessMeters vale pa generalizing s with
  | nil => exact h
  | cons m l ih => exact ih (h.charge m vf a)

/-- The reads of a walk charge energy alone where nothing is pulled. -/
theorem NoPulls.chargeReads {s : State} (h : NoPulls s) (vale vf : Nat) (l : List (Nat × Nat)) :
    ChargedOnly s (chargeReads s vale vf l) := by
  unfold Machine.chargeReads
  generalize (contextCid s vf vale).toNat = cid
  induction l generalizing s with
  | nil => exact .refl s
  | cons r l ih =>
    rw [List.foldl_cons, h.touch]
    exact (chargedOnly_chargeAccess s _ _ _ _).trans (ih (h.chargeAccess _ _ _ _))

/-! ## Translations -/

theorem tlbKeep_core (s : State) (k : Nat) (t : TlbEntry) :
    (tlbKeep s k t).core = s.core ∧ ∃ l, coreOf (tlbKeep s k t) k = { coreOf s k with tlb := l } :=
  ⟨rfl, _, by simp [tlbKeep, modVale, setVale, modCore, coreOf, setCore]; rfl⟩

/-- A walk for a Vale leaves every core, where nothing is pulled on first touch. -/
theorem walkVale_core {s u : State} {vale vf va : Nat} {l : List Nat} {x : Bool} {r : Walked} (hp : NoPulls s)
    (h : walkVale s vale vf va l x = (r, u)) : u.core = s.core ∧ ∀ k, coreOf u k = coreOf s k := by
  have hc : ∀ m, (chargeReads s vale vf m).core = s.core ∧ ∀ k, coreOf (chargeReads s vale vf m) k = coreOf s k := fun m =>
    ⟨by rw [(hp.chargeReads vale vf m).1], (hp.chargeReads vale vf m).coreOf⟩
  have same : s.core = s.core ∧ ∀ k, coreOf s k = coreOf s k := ⟨rfl, fun _ => rfl⟩
  have hv : ∀ (t : State) (f : Vale → Vale), (modVale t vale f).core = t.core ∧ ∀ k, coreOf (modVale t vale f) k = coreOf t k :=
    fun _ _ => ⟨rfl, fun _ => rfl⟩
  have both : ∀ (m : List (Nat × Nat)) (f : Vale → Vale), (modVale (chargeReads s vale vf m) vale f).core = s.core ∧
      ∀ k, coreOf (modVale (chargeReads s vale vf m) vale f) k = coreOf s k := fun m f =>
    ⟨(hv _ f).1.trans (hc m).1, fun k => ((hv _ f).2 k).trans ((hc m).2 k)⟩
  unfold walkVale at h
  split at h
  · cases h; exact same
  · simp only at h
    split at h
    · rw [Prod.mk.injEq] at h
      rw [← h.2]
      split
      · exact hc _
      · exact both _ _
    · split at h
      · rw [Prod.mk.injEq] at h
        rw [← h.2]; exact hc _
      · split at h <;> rw [Prod.mk.injEq] at h <;> rw [← h.2]
        · exact hc _
        · exact both _ _

/-- A translation changes translations kept, energy and the walkers' marks alone, where nothing is pulled on first touch. -/
theorem translate_core {s u : State} {k vf va access : Nat} {r : Except Finding Nat} (hp : NoPulls s)
    (h : translate s k vf va access = (r, u)) :
    u.core = s.core ∧ ∃ l, coreOf u k = { coreOf s k with tlb := l } := by
  have same : s.core = s.core ∧ ∃ l, coreOf s k = { coreOf s k with tlb := l } := ⟨rfl, _, rfl⟩
  unfold translate at h
  split at h
  · cases h; exact same
  · split at h
    · split at h <;> cases h
      · exact same
      · exact tlbKeep_core s k _
    · split at h
      · rename_i hw
        cases h; exact ⟨(walkVale_core hp hw).1, _, (walkVale_core hp hw).2 k⟩
      · rename_i hw
        split at h <;> cases h
        · exact ⟨(walkVale_core hp hw).1, _, (walkVale_core hp hw).2 k⟩
        · have hk := tlbKeep_core
          obtain ⟨h1, l, h2⟩ := hk _ k _
          exact ⟨h1.trans (walkVale_core hp hw).1, l, by rw [h2, (walkVale_core hp hw).2 k]⟩

theorem homeOf_core {s u : State} {k : Nat} {t : Tagged} {h : Home} (hp : NoPulls s) (e : homeOf s k t = (h, u)) :
    u.core = s.core ∧ ∃ l, coreOf u k = { coreOf s k with tlb := l } := by
  have same : s.core = s.core ∧ ∃ l, coreOf s k = { coreOf s k with tlb := l } := ⟨rfl, _, rfl⟩
  unfold homeOf at e
  split at e
  · cases e; exact same
  · split at e <;> cases e <;> exact same
  · split at e <;> cases e <;> exact translate_core hp (by assumption)

/-- Only the current core of u has changed: an operation's end after a change of it alone. -/
theorem finish_core {u : State} {k : Nat} {c : Core} (f : Core → Core) (hk : u.core = k) (hc : f (coreOf u k) = c)
    (hs : c.stores = []) (ho : overflowed c = false) :
    CoreDone u (overflowCheck (flushStores (modCore (modCore u k f) u.core fun c => { c with held := {} }))) k
      (issuedOnly c) := by
  subst hk
  have hm : StoreDone u (modCore (modCore (bump u) u.core f) u.core fun c => { c with held := {} }) (issuedOnly c) := by
    rw [← hc]
    exact (((slotDone_bump u).modCore f).modCore fun c => { c with held := {} }).toStore
  have hcur : curCore (modCore (modCore u u.core f) u.core fun c => { c with held := {} }) = issuedOnly c := by
    simp [curCore, modCore, coreOf, setCore] at hc ⊢
    rw [hc]; rfl
  have hst : (issuedOnly c).stores = [] := hs
  have hov : ∀ t, curCore t = issuedOnly c → overflowCheck t = t := by
    intro t ht
    have : overflowed (curCore t) = false := by rw [ht]; exact ho
    simp [overflowCheck, this]
  have hfl : flushStores (modCore (modCore u u.core f) u.core fun c => { c with held := {} })
      = setCore (modCore (modCore u u.core f) u.core fun c => { c with held := {} }) u.core (issuedOnly c) := by
    simp only [flushStores, hcur, hst, List.foldl_nil]
    rw [stores_nil hst]
    rfl
  rw [hfl, hov]
  · refine ⟨?_, fun j hj => ?_, rfl⟩
    · simp [coreOf, setCore]
    · simp [coreOf, setCore, modCore, FMap.get_put, hj]
  · simp [curCore, coreOf, setCore, modCore]

/-! ## Vector operands and results -/

theorem streamPop_quiet (c : Core) (k : Nat) : (streamPop c k).2.stores = c.stores ∧
    overflowed (streamPop c k).2 = overflowed c ∧ answered (streamPop c k).2 = answered c := by
  unfold streamPop
  simp only
  split
  · exact ⟨rfl, rfl, rfl⟩
  · split <;> exact ⟨rfl, rfl, rfl⟩

theorem streamReserve_quiet (c : Core) (k : Nat) : (streamReserve c k).2.stores = c.stores ∧
    overflowed (streamReserve c k).2 = overflowed c ∧ answered (streamReserve c k).2 = answered c := by
  unfold streamReserve
  simp only
  split
  · exact ⟨rfl, rfl, rfl⟩
  · split <;> exact ⟨rfl, rfl, rfl⟩

theorem boundPushes_quiet (c : Core) (k n : Nat) : (boundPushes c k n).stores = c.stores ∧
    overflowed (boundPushes c k n) = overflowed c ∧ answered (boundPushes c k n) = answered c := ⟨rfl, rfl, rfl⟩

theorem QuietDone.vSource {s t : State} {c : Core} (h : QuietDone s t c) (n : Nat) :
    ∃ c', QuietDone s (vSource t n).2 c' := by
  unfold Machine.vSource
  split
  · exact ⟨c, h⟩
  · refine ⟨(streamPop c (n - 56)).2, ?_, ?_, ?_, ?_⟩
    · have := h.1.setCore (streamPop c (n - 56)).2
      simp only [h.1.core_eq, h.1.curCore_eq]
      exact this
    · rw [(streamPop_quiet c _).1]; exact h.2.1
    · rw [(streamPop_quiet c _).2.1]; exact h.2.2.1
    · rw [(streamPop_quiet c _).2.2]; exact h.2.2.2

theorem QuietDone.sources {s t : State} {c : Core} (h : QuietDone s t c) (l : List Nat) :
    ∃ c', QuietDone s (sources t l).2 c' := by
  induction l generalizing t c with
  | nil => exact ⟨c, h⟩
  | cons n l ih =>
    obtain ⟨c1, h1⟩ := h.vSource n
    exact ih h1

/-- What a quiet core's source fields leave: the core that `readFields` names. -/
theorem readFields_done {s : State} (h : quiet s = true) (l : List Nat) :
    QuietDone s (sources (bump s) l).2 (readFields s l).2 := by
  obtain ⟨c, hc⟩ := (quietDone_bump h).sources l
  have : (readFields s l).2 = c := hc.1.curCore_eq
  rw [this]; exact hc

/-- A vector result put on its way. -/
theorem QuietDone.issueV {s t : State} {c : Core} (h : QuietDone s t c) (n : Nat) (l : List Lane) (mask : Word)
    (fl : Flags) (b : Nat) :
    ∃ c', QuietDone s (issueV t n l mask fl b) c' ∧ issuedOnly c' = issuedOnly (vResult c n l mask fl b)
      ∧ c'.held = c.held := by
  unfold Machine.issueV vResult
  simp only [h.1.curCore_eq]
  by_cases hn : n < 56
  · rw [if_pos hn, if_pos hn]
    exact ⟨_, h.issue _, rfl, rfl⟩
  · rw [if_neg hn, if_neg hn]
    have hq := streamReserve_quiet c (n - 56)
    have hb := boundPushes_quiet (streamReserve c (n - 56)).2 (n - 56) (c.clk + b)
    have hs : QuietDone s (Machine.setCore t s.core (boundPushes (streamReserve c (n - 56)).2 (n - 56) (c.clk + b)))
        (boundPushes (streamReserve c (n - 56)).2 (n - 56) (c.clk + b)) :=
      ⟨h.1.setCore _, hb.1.trans (hq.1.trans h.2.1), hb.2.1.trans (hq.2.1.trans h.2.2.1), hb.2.2.trans (hq.2.2.trans h.2.2.2)⟩
    have hi := hs.issue
      { dest := .push (n - 56), lanes := lanes64 l, mask := mask, flags := fl, offs := (streamReserve c (n - 56)).1.1,
        rslot := (streamReserve c (n - 56)).1.2, issued := c.clk, bound := c.clk + b }
    rw [h.1.core_eq]
    refine ⟨_, hi, rfl, ?_⟩
    show (streamReserve c (n - 56)).2.held = c.held
    unfold streamReserve
    simp only
    split
    · rfl
    · split <;> rfl

theorem readFields_nil (s : State) : readFields s [] = ([], curCore s) := rfl

end Sys2Proof.Machine
end

