-- ==== Sys2Proof/Laws/PerInstr.lean ====
section
/-! SUPPORT. Per-instruction laws. Family Checked: a well-formed instruction passes the decode checks of its slot (R386,
R387); what is no slot operation has none to pass. -/

open Sys2Proof Sys2Proof.Machine

/-- A well-formed instruction passes the decode checks of its slot. -/
def Sys2Proof.Laws.Checked.Statement (i : Instr) : Prop := i.wf = true → slotReason i = 0

theorem Sys2Proof.Laws.Checked.add (f : SR) : Sys2Proof.Laws.Checked.Statement (.add f) := by
  first | exact fun _ => rfl | exact fun h => of_decide_eq_true h | exact fun h => eq_of_beq h
theorem Sys2Proof.Laws.Checked.sub (f : SR) : Sys2Proof.Laws.Checked.Statement (.sub f) := by
  first | exact fun _ => rfl | exact fun h => of_decide_eq_true h | exact fun h => eq_of_beq h
theorem Sys2Proof.Laws.Checked.sAnd (f : SR) : Sys2Proof.Laws.Checked.Statement (.sAnd f) := by
  first | exact fun _ => rfl | exact fun h => of_decide_eq_true h | exact fun h => eq_of_beq h
theorem Sys2Proof.Laws.Checked.sOr (f : SR) : Sys2Proof.Laws.Checked.Statement (.sOr f) := by
  first | exact fun _ => rfl | exact fun h => of_decide_eq_true h | exact fun h => eq_of_beq h
theorem Sys2Proof.Laws.Checked.xor (f : SR) : Sys2Proof.Laws.Checked.Statement (.xor f) := by
  first | exact fun _ => rfl | exact fun h => of_decide_eq_true h | exact fun h => eq_of_beq h
theorem Sys2Proof.Laws.Checked.shl (f : SR) : Sys2Proof.Laws.Checked.Statement (.shl f) := by
  first | exact fun _ => rfl | exact fun h => of_decide_eq_true h | exact fun h => eq_of_beq h
theorem Sys2Proof.Laws.Checked.shr (f : SR) : Sys2Proof.Laws.Checked.Statement (.shr f) := by
  first | exact fun _ => rfl | exact fun h => of_decide_eq_true h | exact fun h => eq_of_beq h
theorem Sys2Proof.Laws.Checked.sra (f : SR) : Sys2Proof.Laws.Checked.Statement (.sra f) := by
  first | exact fun _ => rfl | exact fun h => of_decide_eq_true h | exact fun h => eq_of_beq h
theorem Sys2Proof.Laws.Checked.mul (f : SR) : Sys2Proof.Laws.Checked.Statement (.mul f) := by
  first | exact fun _ => rfl | exact fun h => of_decide_eq_true h | exact fun h => eq_of_beq h
theorem Sys2Proof.Laws.Checked.mulh (f : SR) : Sys2Proof.Laws.Checked.Statement (.mulh f) := by
  first | exact fun _ => rfl | exact fun h => of_decide_eq_true h | exact fun h => eq_of_beq h
theorem Sys2Proof.Laws.Checked.mulhu (f : SR) : Sys2Proof.Laws.Checked.Statement (.mulhu f) := by
  first | exact fun _ => rfl | exact fun h => of_decide_eq_true h | exact fun h => eq_of_beq h
theorem Sys2Proof.Laws.Checked.min (f : SR) : Sys2Proof.Laws.Checked.Statement (.min f) := by
  first | exact fun _ => rfl | exact fun h => of_decide_eq_true h | exact fun h => eq_of_beq h
theorem Sys2Proof.Laws.Checked.max (f : SR) : Sys2Proof.Laws.Checked.Statement (.max f) := by
  first | exact fun _ => rfl | exact fun h => of_decide_eq_true h | exact fun h => eq_of_beq h
theorem Sys2Proof.Laws.Checked.minu (f : SR) : Sys2Proof.Laws.Checked.Statement (.minu f) := by
  first | exact fun _ => rfl | exact fun h => of_decide_eq_true h | exact fun h => eq_of_beq h
theorem Sys2Proof.Laws.Checked.maxu (f : SR) : Sys2Proof.Laws.Checked.Statement (.maxu f) := by
  first | exact fun _ => rfl | exact fun h => of_decide_eq_true h | exact fun h => eq_of_beq h
theorem Sys2Proof.Laws.Checked.clz (f : SR) : Sys2Proof.Laws.Checked.Statement (.clz f) := by
  first | exact fun _ => rfl | exact fun h => of_decide_eq_true h | exact fun h => eq_of_beq h
theorem Sys2Proof.Laws.Checked.popc (f : SR) : Sys2Proof.Laws.Checked.Statement (.popc f) := by
  first | exact fun _ => rfl | exact fun h => of_decide_eq_true h | exact fun h => eq_of_beq h
theorem Sys2Proof.Laws.Checked.sel (f : SR) : Sys2Proof.Laws.Checked.Statement (.sel f) := by
  first | exact fun _ => rfl | exact fun h => of_decide_eq_true h | exact fun h => eq_of_beq h
theorem Sys2Proof.Laws.Checked.addi (f : SI) : Sys2Proof.Laws.Checked.Statement (.addi f) := by
  first | exact fun _ => rfl | exact fun h => of_decide_eq_true h | exact fun h => eq_of_beq h
theorem Sys2Proof.Laws.Checked.andi (f : SI) : Sys2Proof.Laws.Checked.Statement (.andi f) := by
  first | exact fun _ => rfl | exact fun h => of_decide_eq_true h | exact fun h => eq_of_beq h
theorem Sys2Proof.Laws.Checked.ori (f : SI) : Sys2Proof.Laws.Checked.Statement (.ori f) := by
  first | exact fun _ => rfl | exact fun h => of_decide_eq_true h | exact fun h => eq_of_beq h
theorem Sys2Proof.Laws.Checked.xori (f : SI) : Sys2Proof.Laws.Checked.Statement (.xori f) := by
  first | exact fun _ => rfl | exact fun h => of_decide_eq_true h | exact fun h => eq_of_beq h
theorem Sys2Proof.Laws.Checked.shli (f : SI) : Sys2Proof.Laws.Checked.Statement (.shli f) := by
  first | exact fun _ => rfl | exact fun h => of_decide_eq_true h | exact fun h => eq_of_beq h
theorem Sys2Proof.Laws.Checked.shri (f : SI) : Sys2Proof.Laws.Checked.Statement (.shri f) := by
  first | exact fun _ => rfl | exact fun h => of_decide_eq_true h | exact fun h => eq_of_beq h
theorem Sys2Proof.Laws.Checked.srai (f : SI) : Sys2Proof.Laws.Checked.Statement (.srai f) := by
  first | exact fun _ => rfl | exact fun h => of_decide_eq_true h | exact fun h => eq_of_beq h
theorem Sys2Proof.Laws.Checked.li (f : SI) : Sys2Proof.Laws.Checked.Statement (.li f) := by
  first | exact fun _ => rfl | exact fun h => of_decide_eq_true h | exact fun h => eq_of_beq h
theorem Sys2Proof.Laws.Checked.lih (f : SI) : Sys2Proof.Laws.Checked.Statement (.lih f) := by
  first | exact fun _ => rfl | exact fun h => of_decide_eq_true h | exact fun h => eq_of_beq h
theorem Sys2Proof.Laws.Checked.cmp (f : SCR) : Sys2Proof.Laws.Checked.Statement (.cmp f) := by
  first | exact fun _ => rfl | exact fun h => of_decide_eq_true h | exact fun h => eq_of_beq h
theorem Sys2Proof.Laws.Checked.cmpi (f : SCI) : Sys2Proof.Laws.Checked.Statement (.cmpi f) := by
  first | exact fun _ => rfl | exact fun h => of_decide_eq_true h | exact fun h => eq_of_beq h
theorem Sys2Proof.Laws.Checked.plog (f : SP) : Sys2Proof.Laws.Checked.Statement (.plog f) := by
  first | exact fun _ => rfl | exact fun h => of_decide_eq_true h | exact fun h => eq_of_beq h
theorem Sys2Proof.Laws.Checked.ld (f : SM) : Sys2Proof.Laws.Checked.Statement (.ld f) := by
  first | exact fun _ => rfl | exact fun h => of_decide_eq_true h | exact fun h => eq_of_beq h
theorem Sys2Proof.Laws.Checked.st (f : SM) : Sys2Proof.Laws.Checked.Statement (.st f) := by
  first | exact fun _ => rfl | exact fun h => of_decide_eq_true h | exact fun h => eq_of_beq h
theorem Sys2Proof.Laws.Checked.lds (f : SS) : Sys2Proof.Laws.Checked.Statement (.lds f) := by
  first | exact fun _ => rfl | exact fun h => of_decide_eq_true h | exact fun h => eq_of_beq h
theorem Sys2Proof.Laws.Checked.sts (f : SS) : Sys2Proof.Laws.Checked.Statement (.sts f) := by
  first | exact fun _ => rfl | exact fun h => of_decide_eq_true h | exact fun h => eq_of_beq h
theorem Sys2Proof.Laws.Checked.ldg (f : SM) : Sys2Proof.Laws.Checked.Statement (.ldg f) := by
  first | exact fun _ => rfl | exact fun h => of_decide_eq_true h | exact fun h => eq_of_beq h
theorem Sys2Proof.Laws.Checked.stg (f : SM) : Sys2Proof.Laws.Checked.Statement (.stg f) := by
  first | exact fun _ => rfl | exact fun h => of_decide_eq_true h | exact fun h => eq_of_beq h
theorem Sys2Proof.Laws.Checked.probe (f : SM) : Sys2Proof.Laws.Checked.Statement (.probe f) := by
  first | exact fun _ => rfl | exact fun h => of_decide_eq_true h | exact fun h => eq_of_beq h
theorem Sys2Proof.Laws.Checked.sqld (f : SM) : Sys2Proof.Laws.Checked.Statement (.sqld f) := by
  first | exact fun _ => rfl | exact fun h => of_decide_eq_true h | exact fun h => eq_of_beq h
theorem Sys2Proof.Laws.Checked.amo (f : SA) : Sys2Proof.Laws.Checked.Statement (.amo f) := by
  first | exact fun _ => rfl | exact fun h => of_decide_eq_true h | exact fun h => eq_of_beq h
theorem Sys2Proof.Laws.Checked.cas (f : SA) : Sys2Proof.Laws.Checked.Statement (.cas f) := by
  first | exact fun _ => rfl | exact fun h => of_decide_eq_true h | exact fun h => eq_of_beq h
theorem Sys2Proof.Laws.Checked.pbr (off : BitVec 20) (ext : Option (BitVec 24)) (b : BitVec 3) : Sys2Proof.Laws.Checked.Statement (.pbr off ext b) := by
  first | exact fun _ => rfl | exact fun h => of_decide_eq_true h | exact fun h => eq_of_beq h
theorem Sys2Proof.Laws.Checked.pbrr (sa : BitVec 6) (b : BitVec 3) : Sys2Proof.Laws.Checked.Statement (.pbrr sa b) := by
  first | exact fun _ => rfl | exact fun h => of_decide_eq_true h | exact fun h => eq_of_beq h
theorem Sys2Proof.Laws.Checked.br (pg : BitVec 4) (pn : BitVec 1) (b : BitVec 3) : Sys2Proof.Laws.Checked.Statement (.br pg pn b) := by
  first | exact fun _ => rfl | exact fun h => of_decide_eq_true h | exact fun h => eq_of_beq h
theorem Sys2Proof.Laws.Checked.brl (sd : BitVec 6) (pg : BitVec 4) (pn : BitVec 1) (b : BitVec 3) : Sys2Proof.Laws.Checked.Statement (.brl sd pg pn b) := by
  first | exact fun _ => rfl | exact fun h => of_decide_eq_true h | exact fun h => eq_of_beq h
theorem Sys2Proof.Laws.Checked.loop (off : BitVec 16) (sa : BitVec 6) (l : BitVec 2) : Sys2Proof.Laws.Checked.Statement (.loop off sa l) := by
  first | exact fun _ => rfl | exact fun h => of_decide_eq_true h | exact fun h => eq_of_beq h
theorem Sys2Proof.Laws.Checked.halt : Sys2Proof.Laws.Checked.Statement (.halt) := by
  first | exact fun _ => rfl | exact fun h => of_decide_eq_true h | exact fun h => eq_of_beq h
theorem Sys2Proof.Laws.Checked.gjoin (g : BitVec 12) : Sys2Proof.Laws.Checked.Statement (.gjoin g) := by
  first | exact fun _ => rfl | exact fun h => of_decide_eq_true h | exact fun h => eq_of_beq h
theorem Sys2Proof.Laws.Checked.gleave (g : BitVec 12) : Sys2Proof.Laws.Checked.Statement (.gleave g) := by
  first | exact fun _ => rfl | exact fun h => of_decide_eq_true h | exact fun h => eq_of_beq h
theorem Sys2Proof.Laws.Checked.gbar (g : BitVec 12) : Sys2Proof.Laws.Checked.Statement (.gbar g) := by
  first | exact fun _ => rfl | exact fun h => of_decide_eq_true h | exact fun h => eq_of_beq h
theorem Sys2Proof.Laws.Checked.garr (g : BitVec 12) : Sys2Proof.Laws.Checked.Statement (.garr g) := by
  first | exact fun _ => rfl | exact fun h => of_decide_eq_true h | exact fun h => eq_of_beq h
theorem Sys2Proof.Laws.Checked.gwait (g : BitVec 12) : Sys2Proof.Laws.Checked.Statement (.gwait g) := by
  first | exact fun _ => rfl | exact fun h => of_decide_eq_true h | exact fun h => eq_of_beq h
theorem Sys2Proof.Laws.Checked.phase (g : BitVec 12) : Sys2Proof.Laws.Checked.Statement (.phase g) := by
  first | exact fun _ => rfl | exact fun h => of_decide_eq_true h | exact fun h => eq_of_beq h
theorem Sys2Proof.Laws.Checked.sync (mask : BitVec 12) : Sys2Proof.Laws.Checked.Statement (.sync mask) := by
  first | exact fun _ => rfl | exact fun h => of_decide_eq_true h | exact fun h => eq_of_beq h
theorem Sys2Proof.Laws.Checked.waita (sd : BitVec 6) (sa : BitVec 6) : Sys2Proof.Laws.Checked.Statement (.waita sd sa) := by
  first | exact fun _ => rfl | exact fun h => of_decide_eq_true h | exact fun h => eq_of_beq h
theorem Sys2Proof.Laws.Checked.sleep (sa : BitVec 6) : Sys2Proof.Laws.Checked.Statement (.sleep sa) := by
  first | exact fun _ => rfl | exact fun h => of_decide_eq_true h | exact fun h => eq_of_beq h
theorem Sys2Proof.Laws.Checked.rdns (sd : BitVec 6) : Sys2Proof.Laws.Checked.Statement (.rdns sd) := by
  first | exact fun _ => rfl | exact fun h => of_decide_eq_true h | exact fun h => eq_of_beq h
theorem Sys2Proof.Laws.Checked.rdnj (sd : BitVec 6) : Sys2Proof.Laws.Checked.Statement (.rdnj sd) := by
  first | exact fun _ => rfl | exact fun h => of_decide_eq_true h | exact fun h => eq_of_beq h
theorem Sys2Proof.Laws.Checked.csrr (sd : BitVec 6) (csr : BitVec 12) : Sys2Proof.Laws.Checked.Statement (.csrr sd csr) := by
  first | exact fun _ => rfl | exact fun h => of_decide_eq_true h | exact fun h => eq_of_beq h
theorem Sys2Proof.Laws.Checked.csrw (csr : BitVec 12) (sa : BitVec 6) : Sys2Proof.Laws.Checked.Statement (.csrw csr sa) := by
  first | exact fun _ => rfl | exact fun h => of_decide_eq_true h | exact fun h => eq_of_beq h
theorem Sys2Proof.Laws.Checked.trap (code : BitVec 12) : Sys2Proof.Laws.Checked.Statement (.trap code) := by
  first | exact fun _ => rfl | exact fun h => of_decide_eq_true h | exact fun h => eq_of_beq h
theorem Sys2Proof.Laws.Checked.brk (code : BitVec 12) : Sys2Proof.Laws.Checked.Statement (.brk code) := by
  first | exact fun _ => rfl | exact fun h => of_decide_eq_true h | exact fun h => eq_of_beq h
theorem Sys2Proof.Laws.Checked.vadd (f : VF) : Sys2Proof.Laws.Checked.Statement (.vadd f) := by
  first | exact fun _ => rfl | exact fun h => of_decide_eq_true h | exact fun h => eq_of_beq h
theorem Sys2Proof.Laws.Checked.vsub (f : VF) : Sys2Proof.Laws.Checked.Statement (.vsub f) := by
  first | exact fun _ => rfl | exact fun h => of_decide_eq_true h | exact fun h => eq_of_beq h
theorem Sys2Proof.Laws.Checked.vmul (f : VF) : Sys2Proof.Laws.Checked.Statement (.vmul f) := by
  first | exact fun _ => rfl | exact fun h => of_decide_eq_true h | exact fun h => eq_of_beq h
theorem Sys2Proof.Laws.Checked.vfma (f : VF) : Sys2Proof.Laws.Checked.Statement (.vfma f) := by
  first | exact fun _ => rfl | exact fun h => of_decide_eq_true h | exact fun h => eq_of_beq h
theorem Sys2Proof.Laws.Checked.vfms (f : VF) : Sys2Proof.Laws.Checked.Statement (.vfms f) := by
  first | exact fun _ => rfl | exact fun h => of_decide_eq_true h | exact fun h => eq_of_beq h
theorem Sys2Proof.Laws.Checked.vmin (f : VF) : Sys2Proof.Laws.Checked.Statement (.vmin f) := by
  first | exact fun _ => rfl | exact fun h => of_decide_eq_true h | exact fun h => eq_of_beq h
theorem Sys2Proof.Laws.Checked.vmax (f : VF) : Sys2Proof.Laws.Checked.Statement (.vmax f) := by
  first | exact fun _ => rfl | exact fun h => of_decide_eq_true h | exact fun h => eq_of_beq h
theorem Sys2Proof.Laws.Checked.vabs (f : VF) : Sys2Proof.Laws.Checked.Statement (.vabs f) := by
  first | exact fun _ => rfl | exact fun h => of_decide_eq_true h | exact fun h => eq_of_beq h
theorem Sys2Proof.Laws.Checked.vneg (f : VF) : Sys2Proof.Laws.Checked.Statement (.vneg f) := by
  first | exact fun _ => rfl | exact fun h => of_decide_eq_true h | exact fun h => eq_of_beq h
theorem Sys2Proof.Laws.Checked.vand (f : VF) : Sys2Proof.Laws.Checked.Statement (.vand f) := by
  first | exact fun _ => rfl | exact fun h => of_decide_eq_true h | exact fun h => eq_of_beq h
theorem Sys2Proof.Laws.Checked.vor (f : VF) : Sys2Proof.Laws.Checked.Statement (.vor f) := by
  first | exact fun _ => rfl | exact fun h => of_decide_eq_true h | exact fun h => eq_of_beq h
theorem Sys2Proof.Laws.Checked.vxor (f : VF) : Sys2Proof.Laws.Checked.Statement (.vxor f) := by
  first | exact fun _ => rfl | exact fun h => of_decide_eq_true h | exact fun h => eq_of_beq h
theorem Sys2Proof.Laws.Checked.vshl (f : VF) : Sys2Proof.Laws.Checked.Statement (.vshl f) := by
  first | exact fun _ => rfl | exact fun h => of_decide_eq_true h | exact fun h => eq_of_beq h
theorem Sys2Proof.Laws.Checked.vshr (f : VF) : Sys2Proof.Laws.Checked.Statement (.vshr f) := by
  first | exact fun _ => rfl | exact fun h => of_decide_eq_true h | exact fun h => eq_of_beq h
theorem Sys2Proof.Laws.Checked.vsra (f : VF) : Sys2Proof.Laws.Checked.Statement (.vsra f) := by
  first | exact fun _ => rfl | exact fun h => of_decide_eq_true h | exact fun h => eq_of_beq h
theorem Sys2Proof.Laws.Checked.vcmp (f : VF) : Sys2Proof.Laws.Checked.Statement (.vcmp f) := by
  first | exact fun _ => rfl | exact fun h => of_decide_eq_true h | exact fun h => eq_of_beq h
theorem Sys2Proof.Laws.Checked.vcvt (f : VF) : Sys2Proof.Laws.Checked.Statement (.vcvt f) := by
  first | exact fun _ => rfl | exact fun h => of_decide_eq_true h | exact fun h => eq_of_beq h
theorem Sys2Proof.Laws.Checked.vrq (f : VF) : Sys2Proof.Laws.Checked.Statement (.vrq f) := by
  first | exact fun _ => rfl | exact fun h => of_decide_eq_true h | exact fun h => eq_of_beq h
theorem Sys2Proof.Laws.Checked.vexp2 (f : VF) : Sys2Proof.Laws.Checked.Statement (.vexp2 f) := by
  first | exact fun _ => rfl | exact fun h => of_decide_eq_true h | exact fun h => eq_of_beq h
theorem Sys2Proof.Laws.Checked.vtanh (f : VF) : Sys2Proof.Laws.Checked.Statement (.vtanh f) := by
  first | exact fun _ => rfl | exact fun h => of_decide_eq_true h | exact fun h => eq_of_beq h
theorem Sys2Proof.Laws.Checked.vlgst (f : VF) : Sys2Proof.Laws.Checked.Statement (.vlgst f) := by
  first | exact fun _ => rfl | exact fun h => of_decide_eq_true h | exact fun h => eq_of_beq h
theorem Sys2Proof.Laws.Checked.vrcp (f : VF) : Sys2Proof.Laws.Checked.Statement (.vrcp f) := by
  first | exact fun _ => rfl | exact fun h => of_decide_eq_true h | exact fun h => eq_of_beq h
theorem Sys2Proof.Laws.Checked.vrsqrt (f : VF) : Sys2Proof.Laws.Checked.Statement (.vrsqrt f) := by
  first | exact fun _ => rfl | exact fun h => of_decide_eq_true h | exact fun h => eq_of_beq h
theorem Sys2Proof.Laws.Checked.vredsum (f : VF) : Sys2Proof.Laws.Checked.Statement (.vredsum f) := by
  first | exact fun _ => rfl | exact fun h => of_decide_eq_true h | exact fun h => eq_of_beq h
theorem Sys2Proof.Laws.Checked.vredmax (f : VF) : Sys2Proof.Laws.Checked.Statement (.vredmax f) := by
  first | exact fun _ => rfl | exact fun h => of_decide_eq_true h | exact fun h => eq_of_beq h
theorem Sys2Proof.Laws.Checked.vredmin (f : VF) : Sys2Proof.Laws.Checked.Statement (.vredmin f) := by
  first | exact fun _ => rfl | exact fun h => of_decide_eq_true h | exact fun h => eq_of_beq h
theorem Sys2Proof.Laws.Checked.vstat (f : VF) : Sys2Proof.Laws.Checked.Statement (.vstat f) := by
  first | exact fun _ => rfl | exact fun h => of_decide_eq_true h | exact fun h => eq_of_beq h
theorem Sys2Proof.Laws.Checked.vperm (f : VF) : Sys2Proof.Laws.Checked.Statement (.vperm f) := by
  first | exact fun _ => rfl | exact fun h => of_decide_eq_true h | exact fun h => eq_of_beq h
theorem Sys2Proof.Laws.Checked.vbcast (f : VF) : Sys2Proof.Laws.Checked.Statement (.vbcast f) := by
  first | exact fun _ => rfl | exact fun h => of_decide_eq_true h | exact fun h => eq_of_beq h
theorem Sys2Proof.Laws.Checked.vmov (f : VF) : Sys2Proof.Laws.Checked.Statement (.vmov f) := by
  first | exact fun _ => rfl | exact fun h => of_decide_eq_true h | exact fun h => eq_of_beq h
theorem Sys2Proof.Laws.Checked.vsel (f : VF) : Sys2Proof.Laws.Checked.Statement (.vsel f) := by
  first | exact fun _ => rfl | exact fun h => of_decide_eq_true h | exact fun h => eq_of_beq h
theorem Sys2Proof.Laws.Checked.vslide (f : VF) : Sys2Proof.Laws.Checked.Statement (.vslide f) := by
  first | exact fun _ => rfl | exact fun h => of_decide_eq_true h | exact fun h => eq_of_beq h
theorem Sys2Proof.Laws.Checked.vld (f : VF) : Sys2Proof.Laws.Checked.Statement (.vld f) := by
  first | exact fun _ => rfl | exact fun h => of_decide_eq_true h | exact fun h => eq_of_beq h
theorem Sys2Proof.Laws.Checked.vst (f : VF) : Sys2Proof.Laws.Checked.Statement (.vst f) := by
  first | exact fun _ => rfl | exact fun h => of_decide_eq_true h | exact fun h => eq_of_beq h
theorem Sys2Proof.Laws.Checked.vgth (f : VF) : Sys2Proof.Laws.Checked.Statement (.vgth f) := by
  first | exact fun _ => rfl | exact fun h => of_decide_eq_true h | exact fun h => eq_of_beq h
theorem Sys2Proof.Laws.Checked.vsct (f : VF) : Sys2Proof.Laws.Checked.Statement (.vsct f) := by
  first | exact fun _ => rfl | exact fun h => of_decide_eq_true h | exact fun h => eq_of_beq h
theorem Sys2Proof.Laws.Checked.vamo (f : VF) : Sys2Proof.Laws.Checked.Statement (.vamo f) := by
  first | exact fun _ => rfl | exact fun h => of_decide_eq_true h | exact fun h => eq_of_beq h
theorem Sys2Proof.Laws.Checked.vunp3 (f : VF) : Sys2Proof.Laws.Checked.Statement (.vunp3 f) := by
  first | exact fun _ => rfl | exact fun h => of_decide_eq_true h | exact fun h => eq_of_beq h
theorem Sys2Proof.Laws.Checked.vtacc (f : VF) : Sys2Proof.Laws.Checked.Statement (.vtacc f) := by
  first | exact fun _ => rfl | exact fun h => of_decide_eq_true h | exact fun h => eq_of_beq h
theorem Sys2Proof.Laws.Checked.vdp8 (f : VF) : Sys2Proof.Laws.Checked.Statement (.vdp8 f) := by
  first | exact fun _ => rfl | exact fun h => of_decide_eq_true h | exact fun h => eq_of_beq h
theorem Sys2Proof.Laws.Checked.vpack (f : VF) : Sys2Proof.Laws.Checked.Statement (.vpack f) := by
  first | exact fun _ => rfl | exact fun h => of_decide_eq_true h | exact fun h => eq_of_beq h
theorem Sys2Proof.Laws.Checked.vwide (f : VF) : Sys2Proof.Laws.Checked.Statement (.vwide f) := by
  first | exact fun _ => rfl | exact fun h => of_decide_eq_true h | exact fun h => eq_of_beq h
theorem Sys2Proof.Laws.Checked.vxadd (f : VF) : Sys2Proof.Laws.Checked.Statement (.vxadd f) := by
  first | exact fun _ => rfl | exact fun h => of_decide_eq_true h | exact fun h => eq_of_beq h
theorem Sys2Proof.Laws.Checked.vxcvt (f : VF) : Sys2Proof.Laws.Checked.Statement (.vxcvt f) := by
  first | exact fun _ => rfl | exact fun h => of_decide_eq_true h | exact fun h => eq_of_beq h
theorem Sys2Proof.Laws.Checked.mcall (f : MF) : Sys2Proof.Laws.Checked.Statement (.mcall f) := by
  first | exact fun _ => rfl | exact fun h => of_decide_eq_true h | exact fun h => eq_of_beq h
theorem Sys2Proof.Laws.Checked.mpset (f : MF) : Sys2Proof.Laws.Checked.Statement (.mpset f) := by
  first | exact fun _ => rfl | exact fun h => of_decide_eq_true h | exact fun h => eq_of_beq h
theorem Sys2Proof.Laws.Checked.mzero (f : MF) : Sys2Proof.Laws.Checked.Statement (.mzero f) := by
  first | exact fun _ => rfl | exact fun h => of_decide_eq_true h | exact fun h => eq_of_beq h
theorem Sys2Proof.Laws.Checked.mdrain (f : MF) : Sys2Proof.Laws.Checked.Statement (.mdrain f) := by
  first | exact fun _ => rfl | exact fun h => of_decide_eq_true h | exact fun h => eq_of_beq h
theorem Sys2Proof.Laws.Checked.mmode (f : MF) : Sys2Proof.Laws.Checked.Statement (.mmode f) := by
  first | exact fun _ => rfl | exact fun h => of_decide_eq_true h | exact fun h => eq_of_beq h
theorem Sys2Proof.Laws.Checked.mgsel (f : MF) : Sys2Proof.Laws.Checked.Statement (.mgsel f) := by
  first | exact fun _ => rfl | exact fun h => of_decide_eq_true h | exact fun h => eq_of_beq h
theorem Sys2Proof.Laws.Checked.mwr (f : MF) : Sys2Proof.Laws.Checked.Statement (.mwr f) := by
  first | exact fun _ => rfl | exact fun h => of_decide_eq_true h | exact fun h => eq_of_beq h
theorem Sys2Proof.Laws.Checked.mwait (f : MF) : Sys2Proof.Laws.Checked.Statement (.mwait f) := by
  first | exact fun _ => rfl | exact fun h => of_decide_eq_true h | exact fun h => eq_of_beq h
theorem Sys2Proof.Laws.Checked.mrsum (f : MF) : Sys2Proof.Laws.Checked.Statement (.mrsum f) := by
  first | exact fun _ => rfl | exact fun h => of_decide_eq_true h | exact fun h => eq_of_beq h
theorem Sys2Proof.Laws.Checked.cp (f : CF) : Sys2Proof.Laws.Checked.Statement (.cp f) := by
  first | exact fun _ => rfl | exact fun h => of_decide_eq_true h | exact fun h => eq_of_beq h
theorem Sys2Proof.Laws.Checked.cpm (f : CF) : Sys2Proof.Laws.Checked.Statement (.cpm f) := by
  first | exact fun _ => rfl | exact fun h => of_decide_eq_true h | exact fun h => eq_of_beq h
theorem Sys2Proof.Laws.Checked.cpg (f : CF) : Sys2Proof.Laws.Checked.Statement (.cpg f) := by
  first | exact fun _ => rfl | exact fun h => of_decide_eq_true h | exact fun h => eq_of_beq h
theorem Sys2Proof.Laws.Checked.cps (f : CF) : Sys2Proof.Laws.Checked.Statement (.cps f) := by
  first | exact fun _ => rfl | exact fun h => of_decide_eq_true h | exact fun h => eq_of_beq h
theorem Sys2Proof.Laws.Checked.cpa (f : CF) : Sys2Proof.Laws.Checked.Statement (.cpa f) := by
  first | exact fun _ => rfl | exact fun h => of_decide_eq_true h | exact fun h => eq_of_beq h
theorem Sys2Proof.Laws.Checked.cdld (f : CF) : Sys2Proof.Laws.Checked.Statement (.cdld f) := by
  first | exact fun _ => rfl | exact fun h => of_decide_eq_true h | exact fun h => eq_of_beq h
theorem Sys2Proof.Laws.Checked.cpw (f : CF) : Sys2Proof.Laws.Checked.Statement (.cpw f) := by
  first | exact fun _ => rfl | exact fun h => of_decide_eq_true h | exact fun h => eq_of_beq h
theorem Sys2Proof.Laws.Checked.rgcfg (f : CF) : Sys2Proof.Laws.Checked.Statement (.rgcfg f) := by
  first | exact fun _ => rfl | exact fun h => of_decide_eq_true h | exact fun h => eq_of_beq h
theorem Sys2Proof.Laws.Checked.rgpost (f : CF) : Sys2Proof.Laws.Checked.Statement (.rgpost f) := by
  first | exact fun _ => rfl | exact fun h => of_decide_eq_true h | exact fun h => eq_of_beq h
theorem Sys2Proof.Laws.Checked.rgfree (f : CF) : Sys2Proof.Laws.Checked.Statement (.rgfree f) := by
  first | exact fun _ => rfl | exact fun h => of_decide_eq_true h | exact fun h => eq_of_beq h
theorem Sys2Proof.Laws.Checked.sbind (f : CF) : Sys2Proof.Laws.Checked.Statement (.sbind f) := by
  first | exact fun _ => rfl | exact fun h => of_decide_eq_true h | exact fun h => eq_of_beq h
theorem Sys2Proof.Laws.Checked.sfree (f : CF) : Sys2Proof.Laws.Checked.Statement (.sfree f) := by
  first | exact fun _ => rfl | exact fun h => of_decide_eq_true h | exact fun h => eq_of_beq h
theorem Sys2Proof.Laws.Checked.sqfill (f : CF) : Sys2Proof.Laws.Checked.Statement (.sqfill f) := by
  first | exact fun _ => rfl | exact fun h => of_decide_eq_true h | exact fun h => eq_of_beq h
theorem Sys2Proof.Laws.Checked.mGemm (f : XF) : Sys2Proof.Laws.Checked.Statement (.mGemm f) := by
  first | exact fun _ => rfl | exact fun h => of_decide_eq_true h | exact fun h => eq_of_beq h
theorem Sys2Proof.Laws.Checked.mGemmR (f : XF) : Sys2Proof.Laws.Checked.Statement (.mGemmR f) := by
  first | exact fun _ => rfl | exact fun h => of_decide_eq_true h | exact fun h => eq_of_beq h
theorem Sys2Proof.Laws.Checked.mConv (f : XF) : Sys2Proof.Laws.Checked.Statement (.mConv f) := by
  first | exact fun _ => rfl | exact fun h => of_decide_eq_true h | exact fun h => eq_of_beq h
theorem Sys2Proof.Laws.Checked.mConvR (f : XF) : Sys2Proof.Laws.Checked.Statement (.mConvR f) := by
  first | exact fun _ => rfl | exact fun h => of_decide_eq_true h | exact fun h => eq_of_beq h
theorem Sys2Proof.Laws.Checked.mAttn (f : XF) : Sys2Proof.Laws.Checked.Statement (.mAttn f) := by
  first | exact fun _ => rfl | exact fun h => of_decide_eq_true h | exact fun h => eq_of_beq h
theorem Sys2Proof.Laws.Checked.mAttnR (f : XF) : Sys2Proof.Laws.Checked.Statement (.mAttnR f) := by
  first | exact fun _ => rfl | exact fun h => of_decide_eq_true h | exact fun h => eq_of_beq h
theorem Sys2Proof.Laws.Checked.mSort (f : XF) : Sys2Proof.Laws.Checked.Statement (.mSort f) := by
  first | exact fun _ => rfl | exact fun h => of_decide_eq_true h | exact fun h => eq_of_beq h
theorem Sys2Proof.Laws.Checked.mSortR (f : XF) : Sys2Proof.Laws.Checked.Statement (.mSortR f) := by
  first | exact fun _ => rfl | exact fun h => of_decide_eq_true h | exact fun h => eq_of_beq h
theorem Sys2Proof.Laws.Checked.mGath (f : XF) : Sys2Proof.Laws.Checked.Statement (.mGath f) := by
  first | exact fun _ => rfl | exact fun h => of_decide_eq_true h | exact fun h => eq_of_beq h
theorem Sys2Proof.Laws.Checked.mGathR (f : XF) : Sys2Proof.Laws.Checked.Statement (.mGathR f) := by
  first | exact fun _ => rfl | exact fun h => of_decide_eq_true h | exact fun h => eq_of_beq h
theorem Sys2Proof.Laws.Checked.mScat (f : XF) : Sys2Proof.Laws.Checked.Statement (.mScat f) := by
  first | exact fun _ => rfl | exact fun h => of_decide_eq_true h | exact fun h => eq_of_beq h
theorem Sys2Proof.Laws.Checked.mScatR (f : XF) : Sys2Proof.Laws.Checked.Statement (.mScatR f) := by
  first | exact fun _ => rfl | exact fun h => of_decide_eq_true h | exact fun h => eq_of_beq h
theorem Sys2Proof.Laws.Checked.mNorm (f : XF) : Sys2Proof.Laws.Checked.Statement (.mNorm f) := by
  first | exact fun _ => rfl | exact fun h => of_decide_eq_true h | exact fun h => eq_of_beq h
theorem Sys2Proof.Laws.Checked.mNormR (f : XF) : Sys2Proof.Laws.Checked.Statement (.mNormR f) := by
  first | exact fun _ => rfl | exact fun h => of_decide_eq_true h | exact fun h => eq_of_beq h
theorem Sys2Proof.Laws.Checked.mKern (f : XF) : Sys2Proof.Laws.Checked.Statement (.mKern f) := by
  first | exact fun _ => rfl | exact fun h => of_decide_eq_true h | exact fun h => eq_of_beq h
theorem Sys2Proof.Laws.Checked.mKernR (f : XF) : Sys2Proof.Laws.Checked.Statement (.mKernR f) := by
  first | exact fun _ => rfl | exact fun h => of_decide_eq_true h | exact fun h => eq_of_beq h
theorem Sys2Proof.Laws.Checked.mRcpy (f : XF) : Sys2Proof.Laws.Checked.Statement (.mRcpy f) := by
  first | exact fun _ => rfl | exact fun h => of_decide_eq_true h | exact fun h => eq_of_beq h
theorem Sys2Proof.Laws.Checked.mRcpyR (f : XF) : Sys2Proof.Laws.Checked.Statement (.mRcpyR f) := by
  first | exact fun _ => rfl | exact fun h => of_decide_eq_true h | exact fun h => eq_of_beq h
theorem Sys2Proof.Laws.Checked.mRinit (f : XF) : Sys2Proof.Laws.Checked.Statement (.mRinit f) := by
  first | exact fun _ => rfl | exact fun h => of_decide_eq_true h | exact fun h => eq_of_beq h
theorem Sys2Proof.Laws.Checked.mRinitR (f : XF) : Sys2Proof.Laws.Checked.Statement (.mRinitR f) := by
  first | exact fun _ => rfl | exact fun h => of_decide_eq_true h | exact fun h => eq_of_beq h
theorem Sys2Proof.Laws.Checked.mWait (rd : BitVec 5) (rs1 : BitVec 5) : Sys2Proof.Laws.Checked.Statement (.mWait rd rs1) := by
  first | exact fun _ => rfl | exact fun h => of_decide_eq_true h | exact fun h => eq_of_beq h
theorem Sys2Proof.Laws.Checked.mStat (f : XF) : Sys2Proof.Laws.Checked.Statement (.mStat f) := by
  first | exact fun _ => rfl | exact fun h => of_decide_eq_true h | exact fun h => eq_of_beq h
theorem Sys2Proof.Laws.Checked.mResume (rd : BitVec 5) (rs1 : BitVec 5) : Sys2Proof.Laws.Checked.Statement (.mResume rd rs1) := by
  first | exact fun _ => rfl | exact fun h => of_decide_eq_true h | exact fun h => eq_of_beq h
theorem Sys2Proof.Laws.Checked.mKill (rs1 : BitVec 5) : Sys2Proof.Laws.Checked.Statement (.mKill rs1) := by
  first | exact fun _ => rfl | exact fun h => of_decide_eq_true h | exact fun h => eq_of_beq h
theorem Sys2Proof.Laws.Checked.mFence : Sys2Proof.Laws.Checked.Statement (.mFence) := by
  first | exact fun _ => rfl | exact fun h => of_decide_eq_true h | exact fun h => eq_of_beq h
theorem Sys2Proof.Laws.Checked.cAred (f : XF) : Sys2Proof.Laws.Checked.Statement (.cAred f) := by
  first | exact fun _ => rfl | exact fun h => of_decide_eq_true h | exact fun h => eq_of_beq h
theorem Sys2Proof.Laws.Checked.cAredR (f : XF) : Sys2Proof.Laws.Checked.Statement (.cAredR f) := by
  first | exact fun _ => rfl | exact fun h => of_decide_eq_true h | exact fun h => eq_of_beq h
theorem Sys2Proof.Laws.Checked.cAgat (f : XF) : Sys2Proof.Laws.Checked.Statement (.cAgat f) := by
  first | exact fun _ => rfl | exact fun h => of_decide_eq_true h | exact fun h => eq_of_beq h
theorem Sys2Proof.Laws.Checked.cAgatR (f : XF) : Sys2Proof.Laws.Checked.Statement (.cAgatR f) := by
  first | exact fun _ => rfl | exact fun h => of_decide_eq_true h | exact fun h => eq_of_beq h
theorem Sys2Proof.Laws.Checked.cRsct (f : XF) : Sys2Proof.Laws.Checked.Statement (.cRsct f) := by
  first | exact fun _ => rfl | exact fun h => of_decide_eq_true h | exact fun h => eq_of_beq h
theorem Sys2Proof.Laws.Checked.cRsctR (f : XF) : Sys2Proof.Laws.Checked.Statement (.cRsctR f) := by
  first | exact fun _ => rfl | exact fun h => of_decide_eq_true h | exact fun h => eq_of_beq h
theorem Sys2Proof.Laws.Checked.cA2a (f : XF) : Sys2Proof.Laws.Checked.Statement (.cA2a f) := by
  first | exact fun _ => rfl | exact fun h => of_decide_eq_true h | exact fun h => eq_of_beq h
theorem Sys2Proof.Laws.Checked.cA2aR (f : XF) : Sys2Proof.Laws.Checked.Statement (.cA2aR f) := by
  first | exact fun _ => rfl | exact fun h => of_decide_eq_true h | exact fun h => eq_of_beq h
theorem Sys2Proof.Laws.Checked.cBcst (f : XF) : Sys2Proof.Laws.Checked.Statement (.cBcst f) := by
  first | exact fun _ => rfl | exact fun h => of_decide_eq_true h | exact fun h => eq_of_beq h
theorem Sys2Proof.Laws.Checked.cBcstR (f : XF) : Sys2Proof.Laws.Checked.Statement (.cBcstR f) := by
  first | exact fun _ => rfl | exact fun h => of_decide_eq_true h | exact fun h => eq_of_beq h
theorem Sys2Proof.Laws.Checked.cSend (f : XF) : Sys2Proof.Laws.Checked.Statement (.cSend f) := by
  first | exact fun _ => rfl | exact fun h => of_decide_eq_true h | exact fun h => eq_of_beq h
theorem Sys2Proof.Laws.Checked.cSendR (f : XF) : Sys2Proof.Laws.Checked.Statement (.cSendR f) := by
  first | exact fun _ => rfl | exact fun h => of_decide_eq_true h | exact fun h => eq_of_beq h
theorem Sys2Proof.Laws.Checked.cRecv (f : XF) : Sys2Proof.Laws.Checked.Statement (.cRecv f) := by
  first | exact fun _ => rfl | exact fun h => of_decide_eq_true h | exact fun h => eq_of_beq h
theorem Sys2Proof.Laws.Checked.cRecvR (f : XF) : Sys2Proof.Laws.Checked.Statement (.cRecvR f) := by
  first | exact fun _ => rfl | exact fun h => of_decide_eq_true h | exact fun h => eq_of_beq h
theorem Sys2Proof.Laws.Checked.cBar (f : XF) : Sys2Proof.Laws.Checked.Statement (.cBar f) := by
  first | exact fun _ => rfl | exact fun h => of_decide_eq_true h | exact fun h => eq_of_beq h
theorem Sys2Proof.Laws.Checked.cBarR (f : XF) : Sys2Proof.Laws.Checked.Statement (.cBarR f) := by
  first | exact fun _ => rfl | exact fun h => of_decide_eq_true h | exact fun h => eq_of_beq h
theorem Sys2Proof.Laws.Checked.gForm (rd : BitVec 5) (rs1 : BitVec 5) : Sys2Proof.Laws.Checked.Statement (.gForm rd rs1) := by
  first | exact fun _ => rfl | exact fun h => of_decide_eq_true h | exact fun h => eq_of_beq h
theorem Sys2Proof.Laws.Checked.gFree (rs1 : BitVec 5) : Sys2Proof.Laws.Checked.Statement (.gFree rs1) := by
  first | exact fun _ => rfl | exact fun h => of_decide_eq_true h | exact fun h => eq_of_beq h
theorem Sys2Proof.Laws.Checked.xSleep (rs1 : BitVec 5) : Sys2Proof.Laws.Checked.Statement (.xSleep rs1) := by
  first | exact fun _ => rfl | exact fun h => of_decide_eq_true h | exact fun h => eq_of_beq h
theorem Sys2Proof.Laws.Checked.xMon (rd : BitVec 5) (rs1 : BitVec 5) : Sys2Proof.Laws.Checked.Statement (.xMon rd rs1) := by
  first | exact fun _ => rfl | exact fun h => of_decide_eq_true h | exact fun h => eq_of_beq h
theorem Sys2Proof.Laws.Checked.xMwait (rd : BitVec 5) (rs1 : BitVec 5) : Sys2Proof.Laws.Checked.Statement (.xMwait rd rs1) := by
  first | exact fun _ => rfl | exact fun h => of_decide_eq_true h | exact fun h => eq_of_beq h
theorem Sys2Proof.Laws.Checked.tqPop (rd : BitVec 5) : Sys2Proof.Laws.Checked.Statement (.tqPop rd) := by
  first | exact fun _ => rfl | exact fun h => of_decide_eq_true h | exact fun h => eq_of_beq h
theorem Sys2Proof.Laws.Checked.tqAck (rs1 : BitVec 5) : Sys2Proof.Laws.Checked.Statement (.tqAck rs1) := by
  first | exact fun _ => rfl | exact fun h => of_decide_eq_true h | exact fun h => eq_of_beq h
theorem Sys2Proof.Laws.Checked.riscvInstruction (w : BitVec 32) : Sys2Proof.Laws.Checked.Statement (.riscvInstruction w) := by
  first | exact fun _ => rfl | exact fun h => of_decide_eq_true h | exact fun h => eq_of_beq h
theorem Sys2Proof.Laws.Checked.lnchv (vf : Nat) (w : Word) : Sys2Proof.Laws.Checked.Statement (.lnchv vf w) := by
  first | exact fun _ => rfl | exact fun h => of_decide_eq_true h | exact fun h => eq_of_beq h
theorem Sys2Proof.Laws.Checked.lndone (w : Word) : Sys2Proof.Laws.Checked.Statement (.lndone w) := by
  first | exact fun _ => rfl | exact fun h => of_decide_eq_true h | exact fun h => eq_of_beq h
theorem Sys2Proof.Laws.Checked.vfimg (vf : Nat) (w : Word) : Sys2Proof.Laws.Checked.Statement (.vfimg vf w) := by
  first | exact fun _ => rfl | exact fun h => of_decide_eq_true h | exact fun h => eq_of_beq h
theorem Sys2Proof.Laws.Checked.mbin (vf : Nat) (w : Word) : Sys2Proof.Laws.Checked.Statement (.mbin vf w) := by
  first | exact fun _ => rfl | exact fun h => of_decide_eq_true h | exact fun h => eq_of_beq h
theorem Sys2Proof.Laws.Checked.mbrcv (rd : BitVec 5) : Sys2Proof.Laws.Checked.Statement (.mbrcv rd) := by
  first | exact fun _ => rfl | exact fun h => of_decide_eq_true h | exact fun h => eq_of_beq h
theorem Sys2Proof.Laws.Checked.mbsnd (w : Word) : Sys2Proof.Laws.Checked.Statement (.mbsnd w) := by
  first | exact fun _ => rfl | exact fun h => of_decide_eq_true h | exact fun h => eq_of_beq h
theorem Sys2Proof.Laws.Checked.mbostPop (vf : Nat) : Sys2Proof.Laws.Checked.Statement (.mbostPop vf) := by
  first | exact fun _ => rfl | exact fun h => of_decide_eq_true h | exact fun h => eq_of_beq h
theorem Sys2Proof.Laws.Checked.pfmbstSend : Sys2Proof.Laws.Checked.Statement (.pfmbstSend) := by
  first | exact fun _ => rfl | exact fun h => of_decide_eq_true h | exact fun h => eq_of_beq h
theorem Sys2Proof.Laws.Checked.pfmbstPop : Sys2Proof.Laws.Checked.Statement (.pfmbstPop) := by
  first | exact fun _ => rfl | exact fun h => of_decide_eq_true h | exact fun h => eq_of_beq h
theorem Sys2Proof.Laws.Checked.identityCertificateChain : Sys2Proof.Laws.Checked.Statement (.identityCertificateChain) := by
  first | exact fun _ => rfl | exact fun h => of_decide_eq_true h | exact fun h => eq_of_beq h
theorem Sys2Proof.Laws.Checked.attestationRequest (src : Option Nat) : Sys2Proof.Laws.Checked.Statement (.attestationRequest src) := by
  first | exact fun _ => rfl | exact fun h => of_decide_eq_true h | exact fun h => eq_of_beq h
theorem Sys2Proof.Laws.Checked.saveAreaImport (chainOk : Bool) (signatureOk : Bool) : Sys2Proof.Laws.Checked.Statement (.saveAreaImport chainOk signatureOk) := by
  first | exact fun _ => rfl | exact fun h => of_decide_eq_true h | exact fun h => eq_of_beq h
theorem Sys2Proof.Laws.Checked.pfMemoryWrite (pa : Nat) (data : List Byte) (poison : List Bool) : Sys2Proof.Laws.Checked.Statement (.pfMemoryWrite pa data poison) := by
  first | exact fun _ => rfl | exact fun h => of_decide_eq_true h | exact fun h => eq_of_beq h
theorem Sys2Proof.Laws.Checked.pfMemoryRead (pa : Nat) (len : Nat) : Sys2Proof.Laws.Checked.Statement (.pfMemoryRead pa len) := by
  first | exact fun _ => rfl | exact fun h => of_decide_eq_true h | exact fun h => eq_of_beq h
theorem Sys2Proof.Laws.Checked.vfMemoryWrite (vf : Nat) (va : Nat) (data : List Byte) : Sys2Proof.Laws.Checked.Statement (.vfMemoryWrite vf va data) := by
  first | exact fun _ => rfl | exact fun h => of_decide_eq_true h | exact fun h => eq_of_beq h
theorem Sys2Proof.Laws.Checked.vfMemoryRead (vf : Nat) (va : Nat) (len : Nat) : Sys2Proof.Laws.Checked.Statement (.vfMemoryRead vf va len) := by
  first | exact fun _ => rfl | exact fun h => of_decide_eq_true h | exact fun h => eq_of_beq h
theorem Sys2Proof.Laws.Checked.registerWrite (vf : Option Nat) (offset : Nat) (w : Word) : Sys2Proof.Laws.Checked.Statement (.registerWrite vf offset w) := by
  first | exact fun _ => rfl | exact fun h => of_decide_eq_true h | exact fun h => eq_of_beq h
theorem Sys2Proof.Laws.Checked.ptpMessage (port : Nat) (sample : PtpSample) : Sys2Proof.Laws.Checked.Statement (.ptpMessage port sample) := by
  first | exact fun _ => rfl | exact fun h => of_decide_eq_true h | exact fun h => eq_of_beq h
theorem Sys2Proof.Laws.Checked.ndetuPortDown (port : Nat) : Sys2Proof.Laws.Checked.Statement (.ndetuPortDown port) := by
  first | exact fun _ => rfl | exact fun h => of_decide_eq_true h | exact fun h => eq_of_beq h
theorem Sys2Proof.Laws.Checked.moduleReset : Sys2Proof.Laws.Checked.Statement (.moduleReset) := by
  first | exact fun _ => rfl | exact fun h => of_decide_eq_true h | exact fun h => eq_of_beq h
theorem Sys2Proof.Laws.Checked.powerOnReset (failure : Option (Nat × Nat)) (cxlGiB : Nat × Nat) : Sys2Proof.Laws.Checked.Statement (.powerOnReset failure cxlGiB) := by
  first | exact fun _ => rfl | exact fun h => of_decide_eq_true h | exact fun h => eq_of_beq h
theorem Sys2Proof.Laws.Checked.powerStateRequest (ps : BitVec 4) : Sys2Proof.Laws.Checked.Statement (.powerStateRequest ps) := by
  first | exact fun _ => rfl | exact fun h => of_decide_eq_true h | exact fun h => eq_of_beq h
theorem Sys2Proof.Laws.Checked.thermalLimit (vale : Nat) (n : BitVec 6) : Sys2Proof.Laws.Checked.Statement (.thermalLimit vale n) := by
  first | exact fun _ => rfl | exact fun h => of_decide_eq_true h | exact fun h => eq_of_beq h
theorem Sys2Proof.Laws.Checked.thermalShutdown : Sys2Proof.Laws.Checked.Statement (.thermalShutdown) := by
  first | exact fun _ => rfl | exact fun h => of_decide_eq_true h | exact fun h => eq_of_beq h
theorem Sys2Proof.Laws.Checked.supplyRemoved (inOrder : Bool) : Sys2Proof.Laws.Checked.Statement (.supplyRemoved inOrder) := by
  first | exact fun _ => rfl | exact fun h => of_decide_eq_true h | exact fun h => eq_of_beq h
theorem Sys2Proof.Laws.Checked.debugStop : Sys2Proof.Laws.Checked.Statement (.debugStop) := by
  first | exact fun _ => rfl | exact fun h => of_decide_eq_true h | exact fun h => eq_of_beq h
theorem Sys2Proof.Laws.Checked.debugGo : Sys2Proof.Laws.Checked.Statement (.debugGo) := by
  first | exact fun _ => rfl | exact fun h => of_decide_eq_true h | exact fun h => eq_of_beq h
theorem Sys2Proof.Laws.Checked.debugStep : Sys2Proof.Laws.Checked.Statement (.debugStep) := by
  first | exact fun _ => rfl | exact fun h => of_decide_eq_true h | exact fun h => eq_of_beq h
theorem Sys2Proof.Laws.Checked.debugCstep : Sys2Proof.Laws.Checked.Statement (.debugCstep) := by
  first | exact fun _ => rfl | exact fun h => of_decide_eq_true h | exact fun h => eq_of_beq h
theorem Sys2Proof.Laws.Checked.placeTableWrite (vale : Nat) (vf : Nat) (idx : Nat) (w : BitVec 16) : Sys2Proof.Laws.Checked.Statement (.placeTableWrite vale vf idx w) := by
  first | exact fun _ => rfl | exact fun h => of_decide_eq_true h | exact fun h => eq_of_beq h
theorem Sys2Proof.Laws.Checked.bindEntryWrite (slice : Nat) (entry : Nat) (w0 : Word) (w1 : Word) : Sys2Proof.Laws.Checked.Statement (.bindEntryWrite slice entry w0 w1) := by
  first | exact fun _ => rfl | exact fun h => of_decide_eq_true h | exact fun h => eq_of_beq h
theorem Sys2Proof.Laws.Checked.vfjqWrite (vf : Nat) (w : Word) : Sys2Proof.Laws.Checked.Statement (.vfjqWrite vf w) := by
  first | exact fun _ => rfl | exact fun h => of_decide_eq_true h | exact fun h => eq_of_beq h
theorem Sys2Proof.Laws.Checked.tmctlGo (vf : Nat) (w : Word) : Sys2Proof.Laws.Checked.Statement (.tmctlGo vf w) := by
  first | exact fun _ => rfl | exact fun h => of_decide_eq_true h | exact fun h => eq_of_beq h
theorem Sys2Proof.Laws.Checked.vfdctlSnap (vf : Nat) : Sys2Proof.Laws.Checked.Statement (.vfdctlSnap vf) := by
  first | exact fun _ => rfl | exact fun h => of_decide_eq_true h | exact fun h => eq_of_beq h
theorem Sys2Proof.Laws.Checked.vfdctlSettle (vf : Nat) : Sys2Proof.Laws.Checked.Statement (.vfdctlSettle vf) := by
  first | exact fun _ => rfl | exact fun h => of_decide_eq_true h | exact fun h => eq_of_beq h
theorem Sys2Proof.Laws.Checked.trctlClr : Sys2Proof.Laws.Checked.Statement (.trctlClr) := by
  first | exact fun _ => rfl | exact fun h => of_decide_eq_true h | exact fun h => eq_of_beq h
theorem Sys2Proof.Laws.Checked.quantumEnd (group : Nat) : Sys2Proof.Laws.Checked.Statement (.quantumEnd group) := by
  first | exact fun _ => rfl | exact fun h => of_decide_eq_true h | exact fun h => eq_of_beq h
theorem Sys2Proof.Laws.Checked.newcomer (group : Nat) (entry : Nat) : Sys2Proof.Laws.Checked.Statement (.newcomer group entry) := by
  first | exact fun _ => rfl | exact fun h => of_decide_eq_true h | exact fun h => eq_of_beq h
theorem Sys2Proof.Laws.Checked.stepLimitExpiry (group : Nat) : Sys2Proof.Laws.Checked.Statement (.stepLimitExpiry group) := by
  first | exact fun _ => rfl | exact fun h => of_decide_eq_true h | exact fun h => eq_of_beq h
theorem Sys2Proof.Laws.Checked.contextSave (vf : Nat) (vale : Nat) : Sys2Proof.Laws.Checked.Statement (.contextSave vf vale) := by
  first | exact fun _ => rfl | exact fun h => of_decide_eq_true h | exact fun h => eq_of_beq h
theorem Sys2Proof.Laws.Checked.contextBind (group : Nat) : Sys2Proof.Laws.Checked.Statement (.contextBind group) := by
  first | exact fun _ => rfl | exact fun h => of_decide_eq_true h | exact fun h => eq_of_beq h
theorem Sys2Proof.Laws.Checked.contextRestore (vf : Nat) (vale : Nat) : Sys2Proof.Laws.Checked.Statement (.contextRestore vf vale) := by
  first | exact fun _ => rfl | exact fun h => of_decide_eq_true h | exact fun h => eq_of_beq h
theorem Sys2Proof.Laws.Checked.preload (group : Nat) : Sys2Proof.Laws.Checked.Statement (.preload group) := by
  first | exact fun _ => rfl | exact fun h => of_decide_eq_true h | exact fun h => eq_of_beq h
theorem Sys2Proof.Laws.Checked.clockSwallowUpdate (vale : Nat) (n : BitVec 6) : Sys2Proof.Laws.Checked.Statement (.clockSwallowUpdate vale n) := by
  first | exact fun _ => rfl | exact fun h => of_decide_eq_true h | exact fun h => eq_of_beq h
theorem Sys2Proof.Laws.Checked.meterCalibration (rail : Nat) (factor : Nat) : Sys2Proof.Laws.Checked.Statement (.meterCalibration rail factor) := by
  first | exact fun _ => rfl | exact fun h => of_decide_eq_true h | exact fun h => eq_of_beq h
theorem Sys2Proof.Laws.Checked.energySettlement (refresh : Nat) (input : Nat) : Sys2Proof.Laws.Checked.Statement (.energySettlement refresh input) := by
  first | exact fun _ => rfl | exact fun h => of_decide_eq_true h | exact fun h => eq_of_beq h
theorem Sys2Proof.Laws.Checked.quotaPeriodStart (vf : Nat) : Sys2Proof.Laws.Checked.Statement (.quotaPeriodStart vf) := by
  first | exact fun _ => rfl | exact fun h => of_decide_eq_true h | exact fun h => eq_of_beq h
theorem Sys2Proof.Laws.Checked.quotaExhaustion (vf : Nat) : Sys2Proof.Laws.Checked.Statement (.quotaExhaustion vf) := by
  first | exact fun _ => rfl | exact fun h => of_decide_eq_true h | exact fun h => eq_of_beq h
theorem Sys2Proof.Laws.Checked.dirtySwitchComplete (vf : Nat) : Sys2Proof.Laws.Checked.Statement (.dirtySwitchComplete vf) := by
  first | exact fun _ => rfl | exact fun h => of_decide_eq_true h | exact fun h => eq_of_beq h
theorem Sys2Proof.Laws.Checked.settleComplete (vf : Nat) : Sys2Proof.Laws.Checked.Statement (.settleComplete vf) := by
  first | exact fun _ => rfl | exact fun h => of_decide_eq_true h | exact fun h => eq_of_beq h
theorem Sys2Proof.Laws.Checked.writeProtectWindowCopied (vf : Nat) : Sys2Proof.Laws.Checked.Statement (.writeProtectWindowCopied vf) := by
  first | exact fun _ => rfl | exact fun h => of_decide_eq_true h | exact fun h => eq_of_beq h
theorem Sys2Proof.Laws.Checked.backgroundPull (vf : Nat) : Sys2Proof.Laws.Checked.Statement (.backgroundPull vf) := by
  first | exact fun _ => rfl | exact fun h => of_decide_eq_true h | exact fun h => eq_of_beq h
theorem Sys2Proof.Laws.Checked.bundleIssue (core : Nat) : Sys2Proof.Laws.Checked.Statement (.bundleIssue core) := by
  first | exact fun _ => rfl | exact fun h => of_decide_eq_true h | exact fun h => eq_of_beq h
theorem Sys2Proof.Laws.Checked.bundleFetch (core : Nat) : Sys2Proof.Laws.Checked.Statement (.bundleFetch core) := by
  first | exact fun _ => rfl | exact fun h => of_decide_eq_true h | exact fun h => eq_of_beq h
theorem Sys2Proof.Laws.Checked.resultLanding (core : Nat) (idx : Nat) : Sys2Proof.Laws.Checked.Statement (.resultLanding core idx) := by
  first | exact fun _ => rfl | exact fun h => of_decide_eq_true h | exact fun h => eq_of_beq h
theorem Sys2Proof.Laws.Checked.stashFill (core : Nat) (entry : Nat) : Sys2Proof.Laws.Checked.Statement (.stashFill core entry) := by
  first | exact fun _ => rfl | exact fun h => of_decide_eq_true h | exact fun h => eq_of_beq h
theorem Sys2Proof.Laws.Checked.valeTlbLookup (core : Nat) (idx : Nat) : Sys2Proof.Laws.Checked.Statement (.valeTlbLookup core idx) := by
  first | exact fun _ => rfl | exact fun h => of_decide_eq_true h | exact fun h => eq_of_beq h
theorem Sys2Proof.Laws.Checked.pageWalkComplete (vale : Nat) (walker : Nat) (retryExhausted : Bool) : Sys2Proof.Laws.Checked.Statement (.pageWalkComplete vale walker retryExhausted) := by
  first | exact fun _ => rfl | exact fun h => of_decide_eq_true h | exact fun h => eq_of_beq h
theorem Sys2Proof.Laws.Checked.atomicApply (core : Nat) (entry : Nat) : Sys2Proof.Laws.Checked.Statement (.atomicApply core entry) := by
  first | exact fun _ => rfl | exact fun h => of_decide_eq_true h | exact fun h => eq_of_beq h
theorem Sys2Proof.Laws.Checked.ownershipGrant (core : Nat) (entry : Nat) : Sys2Proof.Laws.Checked.Statement (.ownershipGrant core entry) := by
  first | exact fun _ => rfl | exact fun h => of_decide_eq_true h | exact fun h => eq_of_beq h
theorem Sys2Proof.Laws.Checked.atomicResponse (core : Nat) (entry : Nat) : Sys2Proof.Laws.Checked.Statement (.atomicResponse core entry) := by
  first | exact fun _ => rfl | exact fun h => of_decide_eq_true h | exact fun h => eq_of_beq h
theorem Sys2Proof.Laws.Checked.barrierArrival (core : Nat) (entry : Nat) : Sys2Proof.Laws.Checked.Statement (.barrierArrival core entry) := by
  first | exact fun _ => rfl | exact fun h => of_decide_eq_true h | exact fun h => eq_of_beq h
theorem Sys2Proof.Laws.Checked.phaseBoundaryComplete (vale : Nat) (gang : Nat) (granules : Option Nat) : Sys2Proof.Laws.Checked.Statement (.phaseBoundaryComplete vale gang granules) := by
  first | exact fun _ => rfl | exact fun h => of_decide_eq_true h | exact fun h => eq_of_beq h
theorem Sys2Proof.Laws.Checked.copyComplete (core : Nat) (entry : Nat) (bytes : CopyPart) : Sys2Proof.Laws.Checked.Statement (.copyComplete core entry bytes) := by
  first | exact fun _ => rfl | exact fun h => of_decide_eq_true h | exact fun h => eq_of_beq h
theorem Sys2Proof.Laws.Checked.ringWaitResume (core : Nat) (entry : Nat) : Sys2Proof.Laws.Checked.Statement (.ringWaitResume core entry) := by
  first | exact fun _ => rfl | exact fun h => of_decide_eq_true h | exact fun h => eq_of_beq h
theorem Sys2Proof.Laws.Checked.matrixCommandStart (core : Nat) : Sys2Proof.Laws.Checked.Statement (.matrixCommandStart core) := by
  first | exact fun _ => rfl | exact fun h => of_decide_eq_true h | exact fun h => eq_of_beq h
theorem Sys2Proof.Laws.Checked.matrixCommandFinish (core : Nat) (idx : Nat) : Sys2Proof.Laws.Checked.Statement (.matrixCommandFinish core idx) := by
  first | exact fun _ => rfl | exact fun h => of_decide_eq_true h | exact fun h => eq_of_beq h
theorem Sys2Proof.Laws.Checked.coreSleepWake (core : Nat) : Sys2Proof.Laws.Checked.Statement (.coreSleepWake core) := by
  first | exact fun _ => rfl | exact fun h => of_decide_eq_true h | exact fun h => eq_of_beq h
theorem Sys2Proof.Laws.Checked.xSleepWake (ctl : Nat) : Sys2Proof.Laws.Checked.Statement (.xSleepWake ctl) := by
  first | exact fun _ => rfl | exact fun h => of_decide_eq_true h | exact fun h => eq_of_beq h
theorem Sys2Proof.Laws.Checked.xMwaitTimeout (ctl : Nat) : Sys2Proof.Laws.Checked.Statement (.xMwaitTimeout ctl) := by
  first | exact fun _ => rfl | exact fun h => of_decide_eq_true h | exact fun h => eq_of_beq h
theorem Sys2Proof.Laws.Checked.fatalLaunchEnd (vf : Nat) : Sys2Proof.Laws.Checked.Statement (.fatalLaunchEnd vf) := by
  first | exact fun _ => rfl | exact fun h => of_decide_eq_true h | exact fun h => eq_of_beq h
theorem Sys2Proof.Laws.Checked.moduleFailure (unit : BitVec 16) (detail : Word) : Sys2Proof.Laws.Checked.Statement (.moduleFailure unit detail) := by
  first | exact fun _ => rfl | exact fun h => of_decide_eq_true h | exact fun h => eq_of_beq h
theorem Sys2Proof.Laws.Checked.patrolScrub (site : ErrorSite) (correctable : Bool) : Sys2Proof.Laws.Checked.Statement (.patrolScrub site correctable) := by
  first | exact fun _ => rfl | exact fun h => of_decide_eq_true h | exact fun h => eq_of_beq h
theorem Sys2Proof.Laws.Checked.linkRetryExhausted (link : Nat) : Sys2Proof.Laws.Checked.Statement (.linkRetryExhausted link) := by
  first | exact fun _ => rfl | exact fun h => of_decide_eq_true h | exact fun h => eq_of_beq h
theorem Sys2Proof.Laws.Checked.linkRetrain (link : Nat) : Sys2Proof.Laws.Checked.Statement (.linkRetrain link) := by
  first | exact fun _ => rfl | exact fun h => of_decide_eq_true h | exact fun h => eq_of_beq h
theorem Sys2Proof.Laws.Checked.valeMeshLinkFail (link : Nat) (unreachable : Option Nat) : Sys2Proof.Laws.Checked.Statement (.valeMeshLinkFail link unreachable) := by
  first | exact fun _ => rfl | exact fun h => of_decide_eq_true h | exact fun h => eq_of_beq h
theorem Sys2Proof.Laws.Checked.scoreboardClear (ctl : Nat) : Sys2Proof.Laws.Checked.Statement (.scoreboardClear ctl) := by
  first | exact fun _ => rfl | exact fun h => of_decide_eq_true h | exact fun h => eq_of_beq h
theorem Sys2Proof.Laws.Checked.gangDispatch (vale : Nat) (gang : Nat) : Sys2Proof.Laws.Checked.Statement (.gangDispatch vale gang) := by
  first | exact fun _ => rfl | exact fun h => of_decide_eq_true h | exact fun h => eq_of_beq h
theorem Sys2Proof.Laws.Checked.sequencerPrefetch (core : Nat) : Sys2Proof.Laws.Checked.Statement (.sequencerPrefetch core) := by
  first | exact fun _ => rfl | exact fun h => of_decide_eq_true h | exact fun h => eq_of_beq h
theorem Sys2Proof.Laws.Checked.sequencerReady (core : Nat) : Sys2Proof.Laws.Checked.Statement (.sequencerReady core) := by
  first | exact fun _ => rfl | exact fun h => of_decide_eq_true h | exact fun h => eq_of_beq h
theorem Sys2Proof.Laws.Checked.sequencerBoundary (core : Nat) : Sys2Proof.Laws.Checked.Statement (.sequencerBoundary core) := by
  first | exact fun _ => rfl | exact fun h => of_decide_eq_true h | exact fun h => eq_of_beq h
theorem Sys2Proof.Laws.Checked.macroComplete (ctl : Nat) (entry : Nat) : Sys2Proof.Laws.Checked.Statement (.macroComplete ctl entry) := by
  first | exact fun _ => rfl | exact fun h => of_decide_eq_true h | exact fun h => eq_of_beq h
theorem Sys2Proof.Laws.Checked.macroStopped (ctl : Nat) (entry : Nat) : Sys2Proof.Laws.Checked.Statement (.macroStopped ctl entry) := by
  first | exact fun _ => rfl | exact fun h => of_decide_eq_true h | exact fun h => eq_of_beq h
theorem Sys2Proof.Laws.Checked.macroKilled (ctl : Nat) (entry : Nat) : Sys2Proof.Laws.Checked.Statement (.macroKilled ctl entry) := by
  first | exact fun _ => rfl | exact fun h => of_decide_eq_true h | exact fun h => eq_of_beq h
theorem Sys2Proof.Laws.Checked.colAdmission (vale : Nat) : Sys2Proof.Laws.Checked.Statement (.colAdmission vale) := by
  first | exact fun _ => rfl | exact fun h => of_decide_eq_true h | exact fun h => eq_of_beq h
theorem Sys2Proof.Laws.Checked.colDelivery (vale : Nat) : Sys2Proof.Laws.Checked.Statement (.colDelivery vale) := by
  first | exact fun _ => rfl | exact fun h => of_decide_eq_true h | exact fun h => eq_of_beq h
theorem Sys2Proof.Laws.Checked.basinMerge (vale : Nat) (idx : Nat) : Sys2Proof.Laws.Checked.Statement (.basinMerge vale idx) := by
  first | exact fun _ => rfl | exact fun h => of_decide_eq_true h | exact fun h => eq_of_beq h
theorem Sys2Proof.Laws.Checked.catchUpSweep (vale : Nat) : Sys2Proof.Laws.Checked.Statement (.catchUpSweep vale) := by
  first | exact fun _ => rfl | exact fun h => of_decide_eq_true h | exact fun h => eq_of_beq h
theorem Sys2Proof.Laws.Checked.sweepEntry (vale : Nat) : Sys2Proof.Laws.Checked.Statement (.sweepEntry vale) := by
  first | exact fun _ => rfl | exact fun h => of_decide_eq_true h | exact fun h => eq_of_beq h
theorem Sys2Proof.Laws.Checked.collectiveRegistration (ctl : Nat) (entry : Nat) (rank : Nat) (key : Word) (opNumber : Nat) : Sys2Proof.Laws.Checked.Statement (.collectiveRegistration ctl entry rank key opNumber) := by
  first | exact fun _ => rfl | exact fun h => of_decide_eq_true h | exact fun h => eq_of_beq h
theorem Sys2Proof.Laws.Checked.chunkDelivery (ctl : Nat) (entry : Nat) (rank : Nat) (chunk : Nat) (tag : Word) (data : List Byte) : Sys2Proof.Laws.Checked.Statement (.chunkDelivery ctl entry rank chunk tag data) := by
  first | exact fun _ => rfl | exact fun h => of_decide_eq_true h | exact fun h => eq_of_beq h
theorem Sys2Proof.Laws.Checked.chunkAck (ctl : Nat) (entry : Nat) (rank : Nat) : Sys2Proof.Laws.Checked.Statement (.chunkAck ctl entry rank) := by
  first | exact fun _ => rfl | exact fun h => of_decide_eq_true h | exact fun h => eq_of_beq h
theorem Sys2Proof.Laws.Checked.collectiveComplete (ctl : Nat) (entry : Nat) : Sys2Proof.Laws.Checked.Statement (.collectiveComplete ctl entry) := by
  first | exact fun _ => rfl | exact fun h => of_decide_eq_true h | exact fun h => eq_of_beq h
theorem Sys2Proof.Laws.Checked.dtlbiDropVa (w : Word) : Sys2Proof.Laws.Checked.Statement (.dtlbiDropVa w) := by
  first | exact fun _ => rfl | exact fun h => of_decide_eq_true h | exact fun h => eq_of_beq h
theorem Sys2Proof.Laws.Checked.dtlbiDropAll (w : Word) : Sys2Proof.Laws.Checked.Statement (.dtlbiDropAll w) := by
  first | exact fun _ => rfl | exact fun h => of_decide_eq_true h | exact fun h => eq_of_beq h
theorem Sys2Proof.Laws.Checked.tqbase (w : Word) : Sys2Proof.Laws.Checked.Statement (.tqbase w) := by
  first | exact fun _ => rfl | exact fun h => of_decide_eq_true h | exact fun h => eq_of_beq h
theorem Sys2Proof.Laws.Checked.mrte (w : Word) : Sys2Proof.Laws.Checked.Statement (.mrte w) := by
  first | exact fun _ => rfl | exact fun h => of_decide_eq_true h | exact fun h => eq_of_beq h
theorem Sys2Proof.Laws.Checked.supervisorTimerInterrupt (ctl : Nat) : Sys2Proof.Laws.Checked.Statement (.supervisorTimerInterrupt ctl) := by
  first | exact fun _ => rfl | exact fun h => of_decide_eq_true h | exact fun h => eq_of_beq h
theorem Sys2Proof.Laws.Checked.ndetuPortUp (port : Nat) : Sys2Proof.Laws.Checked.Statement (.ndetuPortUp port) := by
  first | exact fun _ => rfl | exact fun h => of_decide_eq_true h | exact fun h => eq_of_beq h
theorem Sys2Proof.Laws.Checked.hypervisorSuspend (vf : Nat) : Sys2Proof.Laws.Checked.Statement (.hypervisorSuspend vf) := by
  first | exact fun _ => rfl | exact fun h => of_decide_eq_true h | exact fun h => eq_of_beq h
theorem Sys2Proof.Laws.Checked.contextDestroy (vf : Nat) : Sys2Proof.Laws.Checked.Statement (.contextDestroy vf) := by
  first | exact fun _ => rfl | exact fun h => of_decide_eq_true h | exact fun h => eq_of_beq h
theorem Sys2Proof.Laws.Checked.coreRetirement (core : Nat) : Sys2Proof.Laws.Checked.Statement (.coreRetirement core) := by
  first | exact fun _ => rfl | exact fun h => of_decide_eq_true h | exact fun h => eq_of_beq h
theorem Sys2Proof.Laws.Checked.softError (site : ErrorSite) (correctable : Bool) : Sys2Proof.Laws.Checked.Statement (.softError site correctable) := by
  first | exact fun _ => rfl | exact fun h => of_decide_eq_true h | exact fun h => eq_of_beq h
end

