-- ==== Sys2Proof/Tests/Slice0.lean ====
section
/-! SUPPORT. Tests of the model on small states: ill-formed terms refused, words written out from the manual's
encodings, and for every statement a state and operands that meet its hypotheses. -/

namespace Sys2Proof.Tests

open Sys2Proof Sys2Proof.Machine

set_option maxRecDepth 100000

/-! ## States for the witnesses -/

/-- Virtual function 0 on slice 0 of Vale 0, with logical cores 0 to 7 and logical slice 0, in a context that runs. -/
def world : State :=
  { State.reset with
    slots := [(0, { cur := 0, bound := true, entries := [(0, { v := true, bk := 3, cid := 1, w := 1, gmax := 63 })] })]
    vales := [(0, { maps := [(0, { active := [(0, 0x8000), (1, 0x8001), (2, 0x8002), (3, 0x8003), (4, 0x8004),
                                              (5, 0x8005), (6, 0x8006), (7, 0x8007), (192, 0x8000)] })] })]
    contexts := [(0, { status := .running })]
    vfs := [(0, { hlim := 0xFFFF, hset := true })] }

/-- A 64-bit word of page tables. -/
def tableWord (a v : Nat) (m : Mem) : Mem := m.writeN a (leBytes 8 v)

/-- The world with page tables: the 64 KiB pages at 0x0 and 0x10000 lie at 0x200000 and 0x210000. -/
def mapped : State :=
  { world with
    mem := tableWord 0x100000 0x101001 (tableWord 0x101000 0x102001 (tableWord 0x102000 0x103001
      (tableWord 0x103000 0x104001 (tableWord 0x104000 0x20001D (tableWord 0x104008 0x21001D {})))))
    vfs := [(0, { root := 0x100000, hbase := 0, hlim := 0xFFFF, hset := true })] }

/-- The world with core 0 as given. -/
def withCore (c : Core) : State := { world with cores := [(0, c)] }

/-- Fields of the slot formats, all 0. -/
def sr0 : SR := { pn := 0, pg := 0, sb := 0, sa := 0, sd := 0 }
def si0 : SI := { imm := 0, ext := none, sa := 0, sd := 0 }
def sm0 : SM := { imm := 0, ext := none, sx := 0, sz := 0, sa := 0, sd := 0 }
def vf0 : VF := { fn := 0, sat := 0, rm := 0, ty := 0, vm := 0, vc := 0, vb := 0, va := 0, vd := 0 }
def mf0 : MF := { f2 := 0, imm := 0, ty := 0, mp := 0, sa := 0, bank := 0 }
def cf0 : CF := { f := 0, st := 0, sy := 0, sx := 0, rg := 0, cd := 0 }

/-! ## Witnesses: scalar operations -/

theorem witness_registerOps : ∀ p ∈ Sys2Proof.Claims.registerOps,
    canIssue (p.1 { sr0 with sa := 1, sd := 63 }) (withCore { s := [(1, 5), (2, 7)] }) = true := by decide
theorem witness_sel : canIssue (.sel { sr0 with sd := 1 }) world = true := by decide
theorem witness_immediateOps : ∀ p ∈ Sys2Proof.Claims.immediateOps,
    canIssue (p.1 { si0 with imm := 63, sd := 1 }) world = true := by decide
theorem witness_lih : canIssue (.lih { si0 with imm := 0xFFF, sd := 1 }) world = true := by decide
theorem witness_cmp : canIssue (.cmp { sb := 1, sa := 2, cc := 5, pd := 15 }) world = true := by decide
theorem witness_cmpi : canIssue (.cmpi { imm := 0x7FF, ext := none, sa := 2, cc := 0, pd := 1 }) world = true := by decide
theorem witness_plog : canIssue (.plog { tt := 6, pb := 1, pa := 2, pd := 3 }) world = true := by decide

theorem witness_ld : (canIssue (.ld { sm0 with sa := 1, sz := 3, sd := 2 }) (withCore { s := [(1, 0x3FC00000)] })
    && (resolveLocal (bump (withCore { s := [(1, 0x3FC00000)] })) 0
      (smAddr (bump (withCore { s := [(1, 0x3FC00000)] })) { sm0 with sa := 1, sz := 3, sd := 2 }).toNat
        matches .ok (.spm 0 0))) = true := by decide
theorem witness_lds : canIssue (.lds { off := 0xFFF, sx := 1, sz := 0, sd := 2 }) world = true := by decide

/-- Core 0 with s1 naming the first byte of its own scratchpad. -/
def ownWorld : State := withCore { s := [(1, 0x3FC00000)] }
/-- Core 0 with s1 naming the first byte of logical core 1's scratchpad. -/
def otherWorld : State := withCore { s := [(1, 0x400000)] }
/-- Core 0 with s1 naming its spill memory. -/
def spillWorld : State := withCore { s := [(1, 0x7FC00000)] }

theorem witness_st_own : (canIssue (.st { sm0 with sa := 1, sd := 2 }) ownWorld
    && (resolveLocal (bump ownWorld) 0 (smAddr (bump ownWorld) { sm0 with sa := 1 }).toNat matches .ok (.spm 0 0))
    && !overflowed (storedAt (curCore ownWorld) 0 (.spm 0 0) [0])) = true := by decide
theorem witness_st_other : (canIssue (.st { sm0 with sa := 1, sd := 2 }) otherWorld
    && (resolveLocal (bump otherWorld) 0 (smAddr (bump otherWorld) { sm0 with sa := 1 }).toNat matches .ok (.spm 1 0))
    && !overflowed (storedAt (curCore otherWorld) 0 (.spm 1 0) [0])) = true := by decide
theorem witness_st_spill : (canIssue (.st { sm0 with sa := 1, sd := 2 }) spillWorld
    && (resolveLocal (bump spillWorld) 0 (smAddr (bump spillWorld) { sm0 with sa := 1 }).toNat matches .ok (.spill 0))
    && !overflowed (storedAt (curCore spillWorld) 0 (.spill 0) [0])) = true := by decide
theorem witness_sts : canIssue (.sts { off := 0xFFF, sx := 0, sz := 0, sd := 2 }) world = true := by decide
theorem witness_outside : (5 : Nat) < 6 ∨ 6 + [(0 : Byte)].length ≤ 5 := by decide

/-- Core 0 with the line of address 0x80 in stash slot 0, and s1 naming it. -/
def stashWorld : State :=
  withCore { s := [(1, 0x80)], stash := [(0, { va := 0x80, pa := 0x200080, owned := true })] }
theorem witness_stash_hit : (canIssue (.ldg { sm0 with sa := 1, sd := 2 }) stashWorld
    && canIssue (.stg { sm0 with sa := 1, sd := 2 }) stashWorld && canIssue (.probe { sm0 with sa := 1, sd := 2 }) stashWorld
    && decide ((smAddr (bump stashWorld) { sm0 with sa := 1, sd := 2 }).toNat < 2 ^ 56)
    && (stashFind (curCore stashWorld) 0x80 matches some (0, _))
    && !slotPoisoned (curCore stashWorld) 0 0x80 1) = true := by decide
theorem witness_stash_miss : (canIssue (.ldg sm0) mapped && canIssue (.stg sm0) mapped && canIssue (.probe sm0) mapped
    && (stashFind (curCore mapped) 0).isNone && (lineFill (curCore mapped) 0).isNone
    && freeIndex (curCore mapped).loads 64 == some 0) = true := by decide
/-- Core 0 with a fill of line 0 outstanding. -/
def fillWorld : State := withCore { loads := [(0, {})], ord := [0x20] }
theorem witness_probe_fill : (canIssue (.probe sm0) fillWorld && (stashFind (curCore fillWorld) 0).isNone
    && (lineFill (curCore fillWorld) 0).isSome) = true := by decide
/-- Core 0 with every load entry in use, none for line 0. -/
def fullWorld : State :=
  withCore { loads := (List.range 64).map fun i => (i, { addr := BitVec.ofNat 64 (128 * (i + 1)) }) }
theorem witness_probe_full : (canIssue (.probe sm0) fullWorld && (stashFind (curCore fullWorld) 0).isNone
    && (lineFill (curCore fullWorld) 0).isNone && (freeIndex (curCore fullWorld).loads 64).isNone) = true := by decide
theorem witness_sqld : (canIssue (.sqld { sm0 with sa := 1 }) ownWorld) = true := by decide

/-- Core 0 with s1 naming, tagged, the first word of its own scratchpad, and s2 that of logical core 1. -/
def atomicWorld : State := withCore { s := [(1, 0x800000003FC00000), (2, 0x8000000000400000)] }
theorem witness_atomic_own : (canIssue (.amo { sz := 3, aop := 0, sb := 3, sa := 1, sd := 4 }) atomicWorld
    && canIssue (.cas { sz := 3, aop := 0, sb := 3, sa := 1, sd := 4 }) atomicWorld
    && taggedOf (sRead (bump atomicWorld) 1) == .localAddr 0x3FC00000
    && (resolveLocal (bump atomicWorld) 0 0x3FC00000 matches .ok (.spm 0 0))
    && !atomicOnLine (bump atomicWorld) 0 (curCore atomicWorld).ord (some (some 0, 0))
    && !(curCore atomicWorld).spm.poisoned 0 8) = true := by decide
theorem witness_atomic_remote : (canIssue (.amo { sz := 3, aop := 0, sb := 3, sa := 2, sd := 0 }) atomicWorld
    && canIssue (.cas { sz := 3, aop := 0, sb := 3, sa := 2, sd := 4 }) atomicWorld
    && ((homeOf (bump atomicWorld) 0 (taggedOf (sRead (bump atomicWorld) 2))).1 matches .remote)
    && !taggedHeld (bump atomicWorld) (taggedOf (sRead (bump atomicWorld) 2))
    && freeIndex (curCore atomicWorld).atomics 16 == some 0) = true := by decide

/-- Core 0 with s1 naming, global, the first word of a page mapped in its own Vale. -/
def ownValeWorld : State := { mapped with cores := [(0, { s := [(1, 0)], tlb := [{ vf := 0, va := 0, pa := 0x200000, bits := 16, w := true, x := true }] })] }
theorem witness_atomic_own_vale : (canIssue (.amo { sz := 3, aop := 0, sb := 3, sa := 1, sd := 0 }) ownValeWorld
    && canIssue (.cas { sz := 3, aop := 0, sb := 3, sa := 1, sd := 4 }) ownValeWorld && decide ((curCore ownValeWorld).held = {})
    && ((homeOf (bump ownValeWorld) 0 (taggedOf (sRead (bump ownValeWorld) 1))).1 matches .vale)
    && !taggedHeld (bump ownValeWorld) (taggedOf (sRead (bump ownValeWorld) 1)) && (stashFind (curCore ownValeWorld) 0).isNone
    && freeIndex (curCore ownValeWorld).loads 64 == some 0) = true := by decide

/-! ## Witnesses: control, gangs, waits, CSRs -/

theorem witness_branches : (canIssue (.pbr 0xFFFFF none 7) world && canIssue (.pbrr 1 7) world && canIssue (.br 0 0 7) world
    && canIssue (.brl 63 15 1 7) world && canIssue (.loop 0xFFFF 1 3) world && canIssue .halt world) = true := by decide

/-- The world with gang 5 of core 0, and core 0 as given. -/
def gangWorld (c : Core) : State :=
  { world with
    cores := [(0, c)]
    vales := [(0, { maps := [(0, { active := [(0, 0x8000), (1, 0x8001), (2, 0x8002), (192, 0x8000)] })]
                    gangs := [(5, { owner := some 1, members := [0] })] })] }
theorem witness_arrivals : (canIssue (.gleave 5) (gangWorld {}) && canIssue (.garr 5) (gangWorld {})
    && canIssue (.gbar 5) (gangWorld {}) && canIssue (.phase 5) (gangWorld {}) && canIssue (.gwait 5) (gangWorld {})
    && freeIndex (curCore (gangWorld {})).barriers 8 == some 0 && (curCore (gangWorld {})).barriers == [] && !arrivalPending (bump (gangWorld {})) 0 5) = true := by decide
theorem witness_arrived : (canIssue (.gbar 5) (gangWorld { held := { arrival := some (5, 0) } })
    && canIssue (.phase 5) (gangWorld { held := { arrival := some (5, 0) } })
    && !arrivalPending (bump (gangWorld { held := { arrival := some (5, 0) } })) 0 5) = true := by decide
theorem witness_gjoin_member : (canIssue (.gjoin 5) (gangWorld {}) && gangMember (bump (gangWorld {})) 0 5) = true := by decide
theorem witness_gjoin_other : (canIssue (.gjoin 5) { gangWorld {} with core := 1 }
    && !gangMember (bump { gangWorld {} with core := 1 }) 1 5) = true := by decide

theorem witness_sync_sleep : (canIssue (.sync 0x1F) world && canIssue (.sleep 1) world) = true := by decide
theorem witness_waita_fired : (canIssue (.waita 1 0) (withCore { monitors := [(3, .fired 0 none 0 0)] })
    && firedEntry (curCore (withCore { monitors := [(3, .fired 0 none 0 0)] })).monitors 4 == some (3, 0)) = true := by decide
theorem witness_waita_none : (canIssue (.waita 1 0) world && canIssue (.waita 0 0) world
    && (firedEntry (curCore world).monitors 4).isNone && !anyArmed (curCore world).monitors) = true := by decide
theorem witness_waita_armed : (canIssue (.waita 1 0) (withCore { monitors := [(0, .armed (some 0) 0 0 0)] })
    && anyArmed (curCore (withCore { monitors := [(0, .armed (some 0) 0 0 0)] })).monitors) = true := by decide
theorem witness_waita_arms : (canIssue (.waita 0 1) atomicWorld && taggedOf (sRead (bump atomicWorld) 1) == .localAddr 0x3FC00000
    && (resolveLocal (bump atomicWorld) 0 0x3FC00000 matches .ok (.spm 0 0))
    && monitorFree (curCore atomicWorld).monitors 4 == some 0) = true := by decide

theorem witness_csr : (canIssue (.rdns 1) world && canIssue (.rdnj 1) world && canIssue (.csrr 1 0x010) world
    && canIssue (.csrw 0x037 1) world && canIssue (.csrw 0x020 1) (withCore { s := [(1, 1)] }) && canIssue (.csrw 0x010 1) world
    && canIssue (.csrw 0x030 1) world) = true := by decide
theorem witness_csr_value : (0x010 < 0x031 ∨ 0x037 < 0x010) ∧ inFlight (curCore world) (.csr 0x010) = false
    ∧ coreCsr (curCore world) 0x010 = some 0 := by decide

theorem witness_trap : (canIssue (.trap 0xFFF) world && canIssue (.brk 0) world && !debugged world
    && !(vfOf world (vfOfCore world 0)).tq.en) = true := by decide
/-- The world with a debugger attached to its context. -/
def debugWorld : State := { world with io := { world.io with dbgAtt := true, dbgCid := 1 } }
theorem witness_brk_debugged : (canIssue (.brk 0xFFF) debugWorld && debugged debugWorld) = true := by decide

/-! ## Witnesses: vector operations -/

/-- Core 0 with a mask in vm1, s1 naming its own scratchpad, s2 logical core 1's, s3 the own one, tagged. -/
def laneWorld : State := withCore { vm := [(1, 0xF0F0F0F00FF00F35)], s := [(1, 0x3FC00000), (2, 0x400000), (3, 0x800000003FC00000)] }
/-- Fields under which some operation executes normally: type, function, third source, rounding are tried in turn. -/
def tried : List VF :=
  [0, 1, 2, 3, 8, 11].flatMap fun ty => [0, 1].flatMap fun fn => [(4, 6), (4, 0), (0, 0), (0, 6)].map fun p =>
    { vf0 with ty := BitVec.ofNat 4 ty, fn := fn, vb := p.1, vc := p.2, va := 2, vd := 10, vm := 1 }
theorem witness_arithmeticOps : Sys2Proof.Claims.arithmeticOps.all (fun o =>
    tried.any fun f => o.applies f && canIssue (o.ctor f) laneWorld) = true := by decide
theorem witness_movementOps : Sys2Proof.Claims.movementOps.all (fun o =>
    tried.any fun f => o.applies f && canIssue (o.ctor f) laneWorld) = true := by decide
theorem witness_perm_slide : (canIssue (.vperm { vf0 with vd := 55, va := 1, vb := 2, vc := 3, vm := 1 }) laneWorld
    && canIssue (.vslide { vf0 with vd := 10, va := 1, vb := 2, fn := 63 }) laneWorld
    && canIssue (.vslide { vf0 with vd := 10, va := 1, vb := 2, fn := 0 }) laneWorld) = true := by decide
theorem witness_slide_up : (0 < 1 ∧ 1 < 64 ∧ (63 : BitVec 6).toNat = 64 - 1) ∧ (0 < 63 ∧ 63 < 64 ∧ (1 : BitVec 6).toNat = 64 - 63) := by decide
theorem witness_pairs : (canIssue (.vxadd { vf0 with ty := 13, va := 2, vb := 4, vd := 10 }) laneWorld
    && canIssue (.vxcvt { vf0 with ty := 13, va := 3, vd := 10 }) laneWorld
    && canIssue (.vxcvt { vf0 with ty := 0, vc := 13, va := 2, vd := 10 }) laneWorld
    && canIssue (.vexp2 { vf0 with ty := 13, va := 3, vd := 10 }) laneWorld
    && canIssue (.vmov { vf0 with ty := 13, va := 2, vd := 10 }) laneWorld
    && canIssue (.vsel { vf0 with ty := 13, fn := 1, va := 2, vb := 4, vd := 10 }) laneWorld) = true := by decide
theorem witness_reductions : (Sys2Proof.Claims.reductions.all (fun p => canIssue (p.1 { vf0 with va := 2, vc := 6, vd := 10 }) laneWorld)
    && canIssue (.vcmp { vf0 with va := 2, vb := 4, vd := 7 }) laneWorld && canIssue (.vstat { vf0 with va := 2, vd := 53 }) laneWorld
    && canIssue (.vpack { vf0 with ty := 3, fn := 3, va := 2, vd := 10 }) laneWorld) = true := by decide
theorem witness_vector_memory : (canIssue (.vld { vf0 with va := 1, vd := 10, vm := 1, fn := 2 }) laneWorld
    && canIssue (.vst { vf0 with va := 1, vd := 10, vm := 1, fn := 2 }) laneWorld
    && canIssue (.vgth { vf0 with va := 1, vb := 4, vd := 10, vm := 1, fn := 2 }) laneWorld
    && canIssue (.vsct { vf0 with va := 1, vb := 4, vd := 10, vm := 1, fn := 2 }) laneWorld
    && (resolveLocal (bump laneWorld) 0 (vldAddr (bump laneWorld) { vf0 with va := 1, fn := 2 }).toNat matches .ok (.spm 0 0))) = true := by
  decide
theorem witness_vamo : (canIssue (.vamo { vf0 with va := 3, ty := 11, vm := 1 }) laneWorld
    && selected (vmRead (bump laneWorld) 1) != [] && freeIndex (curCore laneWorld).atomics 16 == some 0) = true := by decide
/-- Core 0 with an empty mask in vm1. -/
def noLaneWorld : State := withCore { vm := [(1, 0)], s := [(3, 0x800000003FC00000)] }
theorem witness_vamo_none : (canIssue (.vamo { vf0 with va := 3, ty := 11, vm := 1 }) noLaneWorld
    && selected (vmRead (bump noLaneWorld) 1) == []) = true := by decide

/-! ## Witnesses: matrix unit and copies -/

/-- A copy descriptor: source, destination, control word, first extent. -/
def copyWords (src dst ctl n0 : Nat) : List Byte :=
  leBytes 8 src ++ leBytes 8 dst ++ leBytes 8 ctl ++ leBytes 2 n0 ++ List.replicate 38 0
/-- Core 0 with descriptors, ring 1, stream 3 bound, transfer 0 of channel 0 done; the operation in slot 4. -/
def copyWorld : State :=
  { gangWorld
      { s := [(1, 0x3FC00000), (2, 0x400000), (3, 2), (4, 0x2001030000000040), (5, 0x3FC00200)]
        v := [(2, List.replicate 64 0x3FC00000), (3, List.replicate 64 0x3FC00000)]
        cd := [(0, copyWords 0x800000003FC00000 0x800000003FC00100 10 16), (2, copyWords 0x800000003FC00000 0 7 16),
               (3, copyWords 0x800000003FC00000 0x8000000000400000 0 4), (4, copyWords 0x800000003FC00000 0 (0x10000110A + 5 * 65536) 16), (5, copyWords 0x800000003FC00000 0x8000000000400000 0x10 4),
               (6, copyWords 0x800000003FC00000 0x8000000000000000 (10 + 5 * 65536) 4)]
        spm := Mem.writeN {} 0x200 (leBytes 4 0 ++ leBytes 8 0x0001000100010001 ++ List.replicate 20 0)
        ring := [(1, { cfg := true, sz := 1, ns := 3, base := 0x40, free := 2, filled := 2 }), (3, { cfg := true, sz := 4, free := 1 })]
        stream := [(3, { bound := true, ring := 8 })], nextId0 := 1, xdone0 := 1 } with slot := 4 }
theorem witness_matrixCommands : Sys2Proof.Claims.matrixCommands.all (fun p =>
    canIssue (p.1 { mf0 with sa := if p.2.1 = 6 then 2 else if p.2.1 = 4 ∨ p.2.1 = 7 then 1 else 0 }) copyWorld) = true := by decide
theorem witness_matrixOps : (canIssue (.mpset { mf0 with mp := 7, sa := 1 }) copyWorld && canIssue (.mwait mf0) copyWorld
    && canIssue (.mrsum { mf0 with sa := 9, imm := 3 }) copyWorld) = true := by decide
/-- Core 0 with one waiting command. -/
def queueWorld (m : MatrixCmd) : State := withCore { mqueue := [m] }
theorem witness_matrix_start : firstWaiting (coreOf (queueWorld { op := 3, form := mf0 }) 0) = some (0, { op := 3, form := mf0 })
    ∧ mayStart (coreOf (queueWorld { op := 3, form := mf0 }) 0) 0 { op := 3, form := mf0 } = true
    ∧ cmdFault (bump (queueWorld { op := 3, form := mf0 })) 0 { op := 3, form := mf0 } = none := by decide
theorem witness_matrix_finish : (coreOf (queueWorld { op := 3, form := mf0, run := some {} }) 0).mqueue[0]? = some { op := 3, form := mf0, run := some {} }
    ∧ (streamOf (coreOf (queueWorld { op := 5, form := mf0, run := some {} }) 0) 0).freeing = false
    ∧ mf0.imm.getLsbD 0 = (coreOf (queueWorld { op := 5, form := mf0, run := some {} }) 0).mmode.blk8 := by decide
theorem witness_copies : (canIssue (.cp { cf0 with cd := 0, sx := 9 }) copyWorld && canIssue (.cpm { cf0 with cd := 4, sx := 9 }) copyWorld && canIssue (.cpm { cf0 with cd := 6, sx := 9 }) copyWorld
    && canIssue (.cpg { cf0 with cd := 5, sx := 9, sy := 1 }) copyWorld && canIssue (.cps { cf0 with cd := 5, sx := 9, sy := 1 }) copyWorld
    && canIssue (.cpa { cf0 with cd := 3, sx := 9 }) copyWorld && canIssue (.sqfill { cf0 with cd := 2, sx := 9 }) copyWorld
    && freeCopyEntry (curCore copyWorld) (curCore copyWorld).copyPos 32 == some 0) = true := by decide
/-- A copy of core 0 whose source and destination overlap. -/
def overlapWorld : State :=
  withCore { cd := [(0, copyWords 0x800000003FC00000 0x800000003FC00008 10 16)] }
theorem witness_copy_classes : (canIssue (.cp { cf0 with cd := 0, sx := 9 }) { overlapWorld with slot := 4 }
    && (copyDesc (cdOf (bump copyWorld) 0)).rmode == 0 && (copyDesc (cdOf (bump copyWorld) 4)).rmode != 0
    && !replaysByLine (Sys2Proof.Claims.copyState copyWorld 1 { cf0 with cd := 0, sx := 9 } 0) 0
      (Sys2Proof.Claims.copyAt copyWorld 1 { cf0 with cd := 0, sx := 9 } 0)
    && replaysByLine (Sys2Proof.Claims.copyState overlapWorld 1 { cf0 with cd := 0, sx := 9 } 0) 0
      (Sys2Proof.Claims.copyAt overlapWorld 1 { cf0 with cd := 0, sx := 9 } 0)) = true := by decide
theorem witness_rings : (canIssue (.cdld { cf0 with cd := 7, sy := 1 }) copyWorld && canIssue (.cpw cf0) copyWorld
    && canIssue (.rgcfg { cf0 with rg := 2, sy := 4 }) copyWorld && canIssue (.rgpost { cf0 with rg := 1, sy := 3 }) copyWorld
    && canIssue (.rgfree { cf0 with rg := 1, sy := 3 }) copyWorld
    && canIssue (.sbind { cf0 with rg := 3, st := 0, sy := 5 }) copyWorld && canIssue (.sfree { cf0 with st := 1 }) copyWorld
    && canIssue (.sfree { cf0 with st := 3 }) copyWorld && !(streamOf (curCore copyWorld) 1).bound
    && (streamOf (curCore copyWorld) 3).bound && (streamOf (curCore copyWorld) 3).slot == none) = true := by decide
/-- Core 0 with a copy of 64 bytes in entry 3. -/
def movingWorld : State :=
  withCore { copies := [(3, { desc := copyWords 0x800000003FC00000 0x800000003FC00100 10 16, id := 0, op := 1, done := 8 })], ord := [3] }
theorem witness_copy_done : (match (coreOf movingWorld 0).copies.find? 3 with
    | none => false
    | some x => (copyDesc x.desc).rmode == 0 && x.tile == none && !x.faulted && x.cls != 1 && !behindCopy (bump movingWorld) 0 3 x
      && (match runMoves 0 x.hazard (fun _ _ _ => none) (bump movingWorld) {}
          (unitsLeft (placed 0 (slotMoves (bump movingWorld) 0 x)) x) with
        | (u, .all) => !parkedWrites u (vfOfCore u 0)
        | _ => false)) = true := by decide
/-- Core 0 with a copy that waits for a slot of ring 1. -/
def ringWaitWorld : State :=
  withCore { copies := [(3, { desc := copyWords 0x800000003FC00000 0 (10 + 256 + 4096) 16, id := 0, op := 1 })], ord := [3]
             ring := [(1, { cfg := true, sz := 1, ns := 3, base := 0x40, free := 4 })] }
theorem witness_ring_wait : (match (coreOf ringWaitWorld 0).copies.find? 3 with
    | none => false
    | some x => (copyDesc x.desc).rmode == 1 && x.slot == none
      && (askSlot (ringOf (coreOf ringWaitWorld 0) (copyDesc x.desc).ring) 0 3).want.head? == some (0, 3)
      && (ringTakeFree (askSlot (ringOf (coreOf ringWaitWorld 0) (copyDesc x.desc).ring) 0 3)).isSome) = true := by decide

/-! ## Witnesses: macro-instructions and collectives -/

/-- A descriptor of an `m.kern`: its operation number, version and one member (R246). -/
def kernDesc : List Byte := leBytes 8 (8 + 256 + 2 ^ 48) ++ List.replicate 248 0
/-- The world with bytes b at 0x200000 and control core 0 as given. -/
def descWorld (b : List Byte) (c : Ctl) : State :=
  { world with
    mem := Mem.writeN {} 0x200000 b, ctls := [(0, c)]
    vales := [(0, { maps := [(0, { active := [(0, 0x8000), (1, 0x8001), (2, 0x8002), (192, 0x8000)] })]
                    gangs := [(5, { owner := some 1, members := [0] })] })] }
/-- The registers of a control core that names the descriptor, gang 5 and tag 3. -/
def descRegs : FMap Word := [(10, 0x200000), (11, 5), (13, 3)]
/-- Control core 0 names the `m.kern` descriptor. -/
def kernWorld : State := descWorld kernDesc { x := descRegs }
theorem witness_macro : (match readBlock (bump kernWorld) (xGet (curCtl kernWorld) 10).toNat 32 64 with
    | .ok (b, u) => (match readT3 u b with
      | .ok (t3, v) => (curCtl kernWorld).held.isNone && (firstFail (macroFails (macroOf b t3) 8)).isNone
          && !gangRefused v (xGet (curCtl kernWorld) 11) && !parkedWrites v (vfOfCtl v v.ctl) && takeEntry (curCtl v) == some 0
          && !conflicts (curCtl v) (macroOf b t3).reads (macroOf b t3).writes
      | _ => false)
    | _ => false) = true := by decide
/-- The stopped entry of an `m.kern` issued from `kernWorld`. -/
def stoppedEntry : MacroEntry :=
  { state := .stopped, op := 8, desc := kernDesc, descAddr := 0x200000, gang := 5, members := [0], tags := [0], cause := 1 }
/-- Control core 0 holds entry 0 as given, and has issued once. -/
def entryWorld (m : MacroEntry) : State := descWorld kernDesc { x := descRegs, issued := 1, macros := [(0, m)] }
theorem witness_resume : ((match readBlock (bump (entryWorld stoppedEntry)) 0x200000 32 64 with
      | .ok (b, u) => (firstDiff 0 (entryAt (curCtl (entryWorld stoppedEntry)) 0).desc b).isNone
          && decide (curCtl u = curCtl (entryWorld stoppedEntry))
          && (match readT3 u b with
            | .ok (t3, v) => (firstDiff 0x100 stoppedEntry.t3 t3).isNone && decide (curCtl v = curCtl (entryWorld stoppedEntry))
            | _ => false)
      | _ => false)
    && matching (curCtl (entryWorld stoppedEntry)) 8 false 0x200000 5 == some 0
    && (named (curCtl (entryWorld stoppedEntry)) 0 matches .entry 0 _)) = true := by decide
theorem witness_named : ((named (curCtl (entryWorld stoppedEntry)) 0x1000 matches .future)
    && (named (ctlOf (descWorld kernDesc { issued := 70, macros := [(0, { stoppedEntry with tag := 64, tags := [64] })] }) 0) 0
        matches .retired)) = true := by decide
/-- The dispatch of entry 0 of control core 0. -/
def queued : Dispatch := { ctl := 0, tag := 0, entry := 0, op := 8, gang := 5, desc := [] }
theorem witness_m_kill : (isQueued (bump { entryWorld { stoppedEntry with state := .running } with
      vales := [(0, { gangs := [(5, { queue := [queued] })] })] }) 0 0
        { stoppedEntry with state := .running }
    && outstanding stoppedEntry && !outstanding { stoppedEntry with state := .killed }) = true := by decide

/-- A descriptor of a barrier of one node (R275). -/
def barrierDesc : List Byte :=
  leBytes 2 (8 + 256) ++ leBytes 4 0 ++ leBytes 2 1 ++ leBytes 2 0 ++ leBytes 2 0 ++ leBytes 4 77 ++ List.replicate 32 0
    ++ leBytes 8 12 ++ leBytes 8 0x200200 ++ leBytes 8 0x201000 ++ List.replicate 184 0
/-- Control core 0 names the barrier's descriptor. -/
def barrierWorld : State := descWorld barrierDesc { x := descRegs }
theorem witness_collective : (match readBlock (bump barrierWorld) 0x200000 32 64 with
    | .ok (b, u) => (match readBlock u (collOf b).ptab (2 * (collOf b).np) 8 with
      | .ok (pt, v) =>
        let h : HeldMacro := { op := 8, isColl := true, rd := 12, gang := 5, desc := b, t3 := pt, descAddr := 0x200000
                               reads := (collRanges (collOf b)).1, writes := (collRanges (collOf b)).2 }
        (firstFail (collFails b 8)).isNone && !gangRefused v 5 && takeEntry (curCtl v) == some 0
          && !conflicts (curCtl v) h.reads h.writes
          && (match clearWords (modCtl v v.ctl fun c => { c with held := some h }) (collOf b).bmap (collOf b).bitmapWords with
            | .ok w => decide (curCtl w = { curCtl v with held := some h }) && decide (w.vales = v.vales)
                && decide (w.slots = v.slots) && w.ctl == v.ctl && !parkedWrites w (vfOfCtl v v.ctl)
            | _ => false)
      | _ => false)
    | _ => false) = true := by decide

/-! ## Witnesses: gangs, waits and the trap queue of a control core -/

/-- Control core 0 names at x10 a member set of core 1. -/
def setWorld : State := { descWorld (leBytes 32 2) { x := descRegs } with core := 0 }
theorem witness_gForm : (match readBlock (bump setWorld) 0x200000 4 32 with
    | .ok (b, u) => (memberSetFault u (u.ctl / 8) (vfOfCtl u u.ctl) b).isNone && freeGang u (u.ctl / 8) == some 0
    | _ => false) = true := by decide
/-- A context whose limit leaves no gang free. -/
def noGangWorld : State :=
  { setWorld with
    slots := [(0, { cur := 0, bound := true, entries := [(0, { v := true, bk := 3, cid := 1, w := 1, gmax := 0 })] })]
    vales := [(0, { maps := [(0, { active := [(0, 0x8000), (1, 0x8001), (2, 0x8002), (192, 0x8000)] })]
                    gangs := (List.range 64).map fun g => (g, { owner := some 1, members := [0] }) })] }
theorem witness_gForm_none : (freeGang noGangWorld 0).isNone = true := by decide
theorem witness_gFree : ((gangOf setWorld 0 5).owner.isSome && (gangOf setWorld 0 5).vf == vfOfCtl setWorld 0
    && !gangBusy setWorld 0 0 5 && (gangOf setWorld 0 6).owner.isNone
    && gangBusy { setWorld with
        vales := [(0, { gangs := [(5, { owner := some 1, members := [0], queue := [queued] })] })] } 0 0 5) = true := by decide

/-- Control core 0 with monitors as given. -/
def monWorld (m : FMap Monitor) : State := { world with ctls := [(0, { monitors := m, x := [(10, 0x200000)] })] }
theorem witness_xMon : ((match ctlTranslate (bump (monWorld [])) 0 0x200000 .load with | .ok pa => pa == 0x200000 | _ => false)
    && monitorFree (curCtl (monWorld [])).monitors 16 == some 0
    && (curCtl (monWorld [(0, .armed none 0x4000 0x200000 0)])).monitors.any (fun e => watches e.2 none 0x4000)
    && (monitorFree (curCtl (monWorld ((List.range 16).map fun i => (i, .armed none i (128 * i) 0)))).monitors 16).isNone
    && !(curCtl (monWorld ((List.range 16).map fun i => (i, .armed none i (128 * i) 0)))).monitors.any
      (fun e => watches e.2 none 0x4000)) = true := by decide
theorem witness_xMwait : (firedEntry (curCtl (monWorld [(2, .fired 1 none 0 0)])).monitors 16 == some (2, 1)
    && !anyArmed (curCtl (monWorld [])).monitors && anyArmed (curCtl (monWorld [(0, .armed none 1 128 0)])).monitors) = true := by decide
theorem witness_sleepers : (ctlOf { world with ctls := [(0, { status := .waiting, sleepUntil := some 0 })] } 0).sleepUntil = some 0
    ∧ (ctlOf { world with ctls := [(0, { status := .waiting, mwaitUntil := some (1, 0) })] } 0).mwaitUntil = some (1, 0)
    ∧ (ctlOf { world with ctls := [(0, { timer := some 0 })] } 0).timer = some 0 ∧ (0 : Nat) ≤ world.nstime.toNat := by decide

/-- VF 0's trap queue with entries as given; control core 0 in S mode. -/
def trapWorld (q : TrapQueue) : State :=
  { world with ctls := [(0, { priv := .s, x := [(10, 0x8000)] })], vfs := [(0, { tq := q })] }
theorem witness_trap_queue : ((curCtl (trapWorld {})).priv == .s && (vfOf (trapWorld {}) 0).tq.order == []
    && (vfOf (trapWorld { order := [3, 1] }) 0).tq.order == [3, 1]
    && (poppedEntry (vfOf (trapWorld { en := true, base := 0x8000 }) 0).tq 0x8000).isNone
    && poppedEntry (vfOf (trapWorld { en := true, base := 0x8000, entries := [(0, .popped)] }) 0).tq 0x8000
      == some 0) = true := by decide

theorem witness_ctl_memory : ((ctlLoad (bump kernWorld) 0x200000 8 matches .ok _ _)
    && (ctlStoreAddr (bump kernWorld) 0x200000 8 matches .ok _ _)) = true := by decide
theorem witness_ecall : (csrGet { priv := .u, csr := [(0x302, 0x100)] } 0x302).getLsbD 8 = true
    ∧ (csrGet { priv := .s } 0x300).getLsbD 22 = false ∧ ({ priv := .m } : Ctl).priv ≠ .s := by decide

/-! ## Witnesses: registers of a control core -/

/-- A launch of the slices given, no part finished. -/
def launchOf (l : List Nat) : Launch := { word := 0, parts := l.map fun n => (n, 0, 0) }
/-- VF 0 as given, control core 0 in S mode and running. -/
def vfWorld (v : Vf) : State := { world with vfs := [(0, v)], ctls := [(0, { priv := .s, status := .running, x := [(10, 0x200000)] })] }
theorem witness_lndone : ((curCtl (vfWorld {})).priv != .u && !(curCtl (vfWorld {})).macros.any (fun e => outstanding e.2)
    && (vfOf (vfWorld {}) 0).launch.isNone && logicalSlice (vfWorld { launch := some (launchOf [0, 1]) }) 0 == 0
    && (launchOf [0, 1]).parts.any (fun p => p.1 == 0) && (launchOf [0, 1]).parts.any (fun p => p.1 != 0)
    && !(launchOf [0, 1]).ending && !(launchOf [0, 1]).pending) = true := by decide
theorem witness_mailbox : ((vfOf (vfWorld { inq := [5] }) 0).inq == [5] && (vfOf (vfWorld {}) 0).inq == []
    && (ctlBlock (bump kernWorld) 0x200000 8 matches .ok _ _) && (curCtl (vfWorld {})).status != .idle) = true := by decide
theorem witness_mrte : ((entryOf (entryWorld stoppedEntry) 0 0).state != .free && (entryOf (entryWorld {}) 0 0).state == .free) = true := by
  decide
theorem witness_dtlbi : (curCtl (vfWorld {})).priv ≠ .u ∧ (0x10000 : Word).toNat / 2 ^ 56 = 0 ∧ (0x10000 : Word).toNat / 4 % 2 ^ 14 = 0
    ∧ ∀ inside, dropWaits (bump (vfWorld {})) 0 inside = false := by
  refine ⟨by decide, by decide, by decide, fun inside => ?_⟩
  simp [dropWaits, passNeeds, accessesOwed, vfOf, FMap.get, vfWorld, world, bump, State.reset]
theorem witness_tqbase : ((match translateVf mapped 0 0x8000 1 with | .ok pa => pa == 0x208000 | _ => false)
    && (vfOf mapped 0).launch.isNone && (vfOf mapped 0).tq.held == [] && (vfOf (vfWorld { launch := some (launchOf [0]) }) 0).launch.isSome)
    = true := by decide

/-! ## Witnesses: the host -/

/-- The mapped world with bytes b at virtual address 0 of VF 0, which is as given beside its tables. -/
def hostWorld (b : List Byte) (v : Vf) : State :=
  { mapped with
    mem := mapped.mem.writeN 0x200000 b, vfs := [(0, { v with root := 0x100000, hbase := 0, hlim := 0xFFFF, hset := true })] }
/-- A start-vector table of one entry, of slice 0 at 0x4000 with stack pointer 0x100; the stack table follows it. -/
def startBytes (e : Nat) : List Byte :=
  leBytes 8 7 ++ leBytes 8 9 ++ leBytes 8 1 ++ leBytes 8 72 ++ List.replicate 32 0 ++ leBytes 8 e ++ leBytes 8 0x100
/-- A virtual function ready for a launch. -/
def readyVf : Vf := { image := some 0, tq := { en := true } }
theorem witness_launch : (hostReaches (hostWorld (startBytes 0x4001) readyVf)
    && queueReady (vfOf (hostWorld (startBytes 0x4001) readyVf) 0).tq && allRunning (hostWorld (startBytes 0x4001) readyVf) 0
    && !allRunning (vfWorld {}) 1
    && (match startTable (bump (hostWorld (startBytes 0x4001) readyVf)) 0 0 with
      | some t => t.lid == 7 && t.arg == 9 && t.parts == [(0, 0x4000, 0x100)] | none => false)
    && (match startTable (bump (hostWorld (startBytes 0) readyVf)) 0 0 with | some t => t.parts == [] | none => false)
    && (startTable (bump (hostWorld [] readyVf)) 0 0).isNone && logicalSlices (hostWorld [] readyVf) 0 == [0]
    && (logicalSlices (hostWorld [] readyVf) 0)[0]? == some 0) = true := by decide
theorem witness_not_ready : (vfOf (vfWorld { image := some 0 }) 0).image.isSome = true ∧ (vfOf (vfWorld { image := some 0 }) 0).tq.en = false
    ∧ (vfOf (vfWorld {}) 0).image = none := by decide
/-- An image of one bss section of 8 bytes at virtual address 0x10000, of format version maj.min. -/
def imageBytes (maj min : Nat) : List Byte :=
  [0x4B, 0x4C, 0x49, 0x01] ++ leBytes 1 maj ++ leBytes 1 min ++ leBytes 2 1 ++ leBytes 8 288 ++ List.replicate 240 0
    ++ [6] ++ List.replicate 7 0 ++ leBytes 8 0x10000 ++ leBytes 8 8 ++ leBytes 8 0
theorem witness_image : (hostReaches (hostWorld (imageBytes 1 0) {})
    && (match checkImage (bump (hostWorld (imageBytes 1 0) {})) 0 0 with | .ok (_, p) => p.isEmpty | _ => false)
    && (match checkImage (bump (hostWorld (imageBytes 2 0) {})) 0 0 with | .error r => r == 1 | _ => false)
    && (match checkImage (bump (hostWorld [] {})) 0 0 with | .error r => r == 3 | _ => false)
    && (vaSound (vfWorld {}) 0 0 256).isNone && (vfOf (vfWorld { checking := some 0 }) 0).checking == some 0
    && (vfOf (vfWorld {}) 0).checking.isNone) = true := by decide

theorem witness_mbin : (hostReaches mapped && !isAttestation (bump mapped) 0 0 && isAttestation (bump (hostWorld [0x11] {})) 0 0
    && (vfOf (vfWorld { inq := List.replicate 16 0 }) 0).inq.length == 16 && logicalSlices mapped 0 == [0] && logicalSlices mapped 1 == []
    && (ctxOf mapped 0 0).image.isNone && vfOfSlice mapped 0 == some 0 && (vfOf (vfWorld { attest := some 0 }) 0).attest.isSome
    && (vfOf mapped 0).attest.isNone) = true := by decide
/-- The firmware has taken message m. -/
def takenWorld (m : List Word) : State := { mapped with io := { mapped.io with mbiTaken := some m } }
theorem witness_firmware : ((takenWorld [0x10, 0x200000, 65536]).io.mbo.length < 8 && hbmBuffer (takenWorld [0x10]) 0x200000 65536
    && !hbmBuffer (takenWorld [0x10]) 1 65536 && portsUp mapped && mapped.io.mbiTaken.isNone
    && (Sys2Proof.Claims.requests (takenWorld [0x10, 0x200000, 65536]) 0x10).head? == some [0x10, 0x200000, 65536]
    && (Sys2Proof.Claims.requests (takenWorld [0x11]) 0x11).head? == some [0x11]
    && (Sys2Proof.Claims.requests (takenWorld [0x20, 0, 0]) 0x20).head? == some [0x20, 0, 0]
    && (importVale (takenWorld [0x20, 0, 0]) 0 0) == some 0 && (importVale (takenWorld [0x20, 0, 0]) 0 4096).isNone) = true := by decide
theorem witness_certificate_fits_or_not (n : Nat) : n < certificateChain.length ∨ certificateChain.length ≤ n := by omega
/-- VF 0 has asked for an attestation with a buffer of 64 KiB at virtual address 0x10000. -/
def attestWorld : State := hostWorld (leBytes 8 0x11 ++ List.replicate 32 0 ++ leBytes 8 0x10000 ++ leBytes 8 65536) { attest := some 0 }
theorem witness_attest : ((vfOf attestWorld 0).attest == some 0
    && (match vaRead (modVf attestWorld 0 fun v => { v with attest := none }) 0 0 64 with
      | .ok b => word64At b 40 == 0x10000 && word64At b 48 == 65536 | _ => false)
    && (match translateVf (modVf attestWorld 0 fun v => { v with attest := none }) 0 0x10000 1 with | .ok _ => true | _ => false)
    && 0x10000 / 65536 == (0x10000 + 65536 - 1) / 65536) = true := by decide

theorem witness_host_memory : (inSomeRange mapped 0x200000 64 && !inSomeRange mapped (2 ^ 39) 64 && !parkedIn mapped 0x200000 64
    && !(linesOf 0x200000 64).any (fun l => parkFull mapped (128 * l))
    && vaPieces mapped 0 0xFFC0 128 1 == some [(0x20FFC0, 64), (0x210000, 64)] && vaPieces mapped 0 0xFFC0 128 0 == some [(0x20FFC0, 64), (0x210000, 64)]
    && (vaPieces mapped 0 0x20000 8 1).isNone && !pulling mapped) = true := by decide
theorem witness_ptp : (0 ∉ mapped.io.portDown) ∧ mapped.io.steady = false ∧ (-101 : Int) < -100 ∧ (100 : Int) < 101 ∧ (15 : Nat) < 16
    ∧ mapped.io.nsHold = 0 ∧ ({ mapped with io := { mapped.io with nsHold := 7 } }).io.nsHold ≠ 0 := by decide
theorem witness_retired : 3 ∉ mapped.io.retired ∧ 3 ∈ ({ mapped with io := { mapped.io with retired := [3] } }).io.retired := by decide

/-! ## Witnesses: power, energy and quotas -/

/-- Core 0 runs an `mcall` of entry 64, never written. -/
def mcallWorld : State :=
  withCore { status := .running, mqueue := [{ op := 1, form := { mf0 with imm := 64 }, run := some { pc := 4095 } }] }
theorem witness_mcall : ((coreOf mcallWorld 0).directory.get 4095 64 == 4095
    && (match (coreOf mcallWorld 0).mqueue[0]? with
      | some m => m.op == 1 && m.form.imm.toNat == 64 && m.run == some { pc := routine (coreOf mcallWorld 0) 64 } | none => false)) = true := by decide
theorem witness_streams_free (i : Nat) : (streamOf (coreOf mcallWorld 0) i).freeing = false := by
  simp [mcallWorld, withCore, coreOf, streamOf, FMap.get]
/-- A function has a maximum among the first n + 1 numbers. -/
theorem maximum_below (f : Nat → Nat) (n : Nat) : ∃ v, v ≤ n ∧ ∀ u, u ≤ n → f u ≤ f v := by
  induction n with
  | zero => exact ⟨0, Nat.le_refl 0, fun u hu => by cases Nat.le_zero.mp hu; exact Nat.le_refl _⟩
  | succ n ih =>
    obtain ⟨v, hv, hm⟩ := ih
    by_cases h : f v ≤ f (n + 1)
    · refine ⟨n + 1, Nat.le_refl _, fun u hu => ?_⟩
      by_cases hn : u = n + 1
      · subst hn; exact Nat.le_refl _
      · exact Nat.le_trans (hm u (by omega)) h
    · refine ⟨v, by omega, fun u hu => ?_⟩
      by_cases hn : u = n + 1
      · subst hn; omega
      · exact hm u (by omega)
/-- Where some Vale is above 95 °C, one is the hottest. -/
theorem witness_hottest (s : State) (h : ∃ v, v < 8 ∧ 95 < valeTemperature s v) : ∃ v, Sys2Proof.Claims.Hottest s v := by
  obtain ⟨v, hv, hm⟩ := maximum_below (valeTemperature s) 7
  obtain ⟨u, hu, ht⟩ := h
  exact ⟨v, by omega, Nat.lt_of_lt_of_le ht (hm u (by omega)), fun w hw => hm w (by omega)⟩
theorem witness_power : portsUp world = true ∧ (∀ e ∈ State.reset.slots, e.2.bound = false) ∧ (∃ e ∈ world.slots, e.2.bound = true)
    ∧ (valeOf world 0).swallow < 1 ∧ swallowDue world 0 = true
    ∧ swallowDue { world with vales := [(0, { swallowAt := some 0 })] } 0 = false := by decide
theorem witness_off : ({ world with io := { world.io with boot := .off } }).io.boot = .off
    ∧ (∀ f g, (nextTurn world).2 ≠ .event (.powerOnReset f g))
    ∧ (nextTurn { world with agenda := [(0, .event (.powerOnReset none (0, 0)))] }).2 = .event (.powerOnReset none (0, 0)) := by
  refine ⟨by decide, fun f g h => ?_, by decide⟩
  simp [nextTurn, world, State.reset] at h
theorem witness_settlement : State.reset.energy.settled < (5000000 : Word).toNat / 1000000 ∧ (0 : Nat) / 1000000 ≤ State.reset.energy.settled := by decide
theorem witness_quota : (vfOf world 0).period < ({ world with nstime := 2000000000 }).nstime.toNat / (1000 * (vfOf world 0).jp.toNat)
    ∧ (vfOf (vfWorld { jq := 0 }) 0).jq.toNat ≤ (vfOf (vfWorld { jq := 0 }) 0).jused ∧ (vfOf (vfWorld { jq := 0 }) 0).exhausted = false
    ∧ (slotOf world 0).bound = true ∧ vfOn world 0 = 0 ∧ (recordsOf world 0).contains 0 = true ∧ groupFirst world (groupOfVf world 0) = 0
    ∧ (traceBuf world 0 0).en.getLsbD 6 = false ∧ 0 ∈ groupVales world 0 ∧ (ctxOf world 0 0).status = .running := by decide

/-! ## Witnesses: the scheduler -/

/-- Slice 0 with entry 0 of VF 0, bound, and entry 1 of VF 1; both have a launch where they run. -/
def schedWorld (runs : Bool) (x : Slot) : State :=
  { world with
    slots := [(0, { x with
      entries := [(0, { v := true, bk := 1, cid := 1, w := 1, gmax := 63, deficit := 100 }),
                  (1, { v := true, bk := 2, vf := 1, cid := 2, w := 1, gmax := 63, prio := 1, tok := 1, deficit := 100 })] })]
    vfs := [(0, { launch := some (launchOf [0]) }), (1, { launch := if runs then some (launchOf [0]) else none })] }
/-- Entry 0 bound. -/
def boundSlot : Slot := { cur := 0, bound := true, turn := 1 }
theorem witness_bound : (isGroup (schedWorld true boundSlot) 0 && boundOn (schedWorld true boundSlot) 0 == some 0
    && vfOn (schedWorld true boundSlot) 0 == 0 && (slotOf (schedWorld true boundSlot) 0).preloaded.isNone
    && (recordsOf (schedWorld true boundSlot) 0).contains 0 && groupFirst (schedWorld true boundSlot) 0 == 0
    && groupFirst (schedWorld true boundSlot) (groupOfVf (schedWorld true boundSlot) 0) == 0
    && !(traceBuf (schedWorld true boundSlot) 0 0).en.getLsbD 6 && groupVales (schedWorld true boundSlot) 0 == [0]
    && (ctxOf (schedWorld true boundSlot) 0 0).status == .running && active (schedWorld true boundSlot) 0 0
    && !active (schedWorld true {}) 5 0 && !(slotOf (schedWorld true {}) 0).bound) = true := by decide
theorem witness_entry_words : (0x8000000000000000 : Word).getLsbD 63 = true ∧ (0 : Word).getLsbD 63 = false := by decide
theorem witness_round : (choosable (schedWorld true boundSlot) 0 1 && (chooseEntry (schedWorld true boundSlot) 0).entry == some 1
    && 0 < (chooseEntry (schedWorld true boundSlot) 0).deficits.getD 1 0
    && (drr (choosable (schedWorld true boundSlot) 0) (grantOf (schedWorld true boundSlot) 0) (deficits (schedWorld true boundSlot) 0) 1 9).1
      == some 1) = true := by decide
theorem witness_quantum : (runnable (schedWorld false boundSlot) 0 0
    && decide ((residency (schedWorld false boundSlot) 0 : Int) < (groupEntry (schedWorld false boundSlot) 0 0).deficit)
    && decide ((groupEntry { schedWorld false boundSlot with nstime := 1000 } 0 0).deficit
      ≤ residency { schedWorld false boundSlot with nstime := 1000 } 0)
    && (List.range 8).all (fun i => i == 0 || !choosable (schedWorld false boundSlot) 0 i) && 0 < grantOf (schedWorld false boundSlot) 0 0
    && policyOf (schedWorld true boundSlot) 0 .other == .step 20 && idleContext (schedWorld true boundSlot) 0 0) = true := by decide
theorem witness_newcomer : (choosable (schedWorld true boundSlot) 0 1
    && (groupEntry (schedWorld true boundSlot) 0 0).prio.toNat < (groupEntry (schedWorld true boundSlot) 0 1).prio.toNat
    && (groupEntry (schedWorld true boundSlot) 0 1).tok != 0 && (groupEntry (schedWorld true boundSlot) 0 1).prio != 7
    && choosable (schedWorld true { boundSlot with unready := [1] }) 0 1
    && (slotOf (schedWorld true { boundSlot with unready := [1] }) 0).unready.contains 1) = true := by decide
theorem witness_preload : (groupEntry (schedWorld true boundSlot) 0 0).bk &&& (groupEntry (schedWorld true boundSlot) 0 1).bk = 0
    ∧ (ctxOf (schedWorld true boundSlot) 1 0).image = none := by decide
/-- The context of VF 0 on Vale 0 as given. -/
def ctxWorld (x : Slot) (c : Context) : State := { schedWorld true x with contexts := [(0, c)] }
theorem witness_save : (allStopped (ctxWorld boundSlot { status := .freezing }) 0 0
    && (ctxOf (ctxWorld boundSlot { status := .freezing }) 0 0).image.isNone) = true := by decide
theorem witness_bind : ((groupSlices (schedWorld true {}) 0).all (fun j => !(slotOf (schedWorld true {}) j).bound
      && (slotOf (schedWorld true {}) j).written.isEmpty)
    && (schedWorld true {}).io.ps != 2 && (schedWorld true {}).io.boot == .running
    && (chooseEntry (schedWorld true {}) 0).entry == some 0
    && (chooseEntry { schedWorld true {} with vfs := [] } 0).entry.isNone
    && (badMap { schedWorld true {} with vales := [(0, { maps := [(0, { written := [(0, 0x8000), (192, 0x8000)] })] })] } 0 0).isNone
    && (badMap { schedWorld true {} with vales := [(0, { maps := [(0, { written := [(0, 0x80FF)] })] })] } 0 0).isSome) = true := by decide
theorem witness_restore_fresh : ((ctxOf (ctxWorld boundSlot { status := .binding }) 0 0).status == .binding
    && !(ctxOf (ctxWorld boundSlot { status := .binding }) 0 0).restored && (ctxOf (ctxWorld boundSlot { status := .binding }) 0 0).image.isNone
    && requestsInFlight (ctxWorld boundSlot { status := .binding }) 0 == 0 && (vfOf (ctxWorld boundSlot {}) 5).inq == [] && (vfOf (ctxWorld boundSlot {}) 5).tq.order == [] && !(launchOf [0]).pending
    && (ctxWorld boundSlot {}).cores == [] && contextCtls (ctxWorld boundSlot { status := .binding }) 0 0 == [0]) = true := by decide
/-- An image whose saved area is the one in memory, of core 0 with s1 = 5. -/
def savedImage : Image := { cores := [(0, { s := [(1, 5)] })], saved := areaSlice (ctxWorld boundSlot {}) (saveBase (ctxWorld boundSlot {}) 0 0) }
theorem witness_restore : ((restoreFault (ctxWorld boundSlot { status := .binding, image := some savedImage }) 0 0 savedImage).isNone
    && (restoreFault (ctxWorld boundSlot { status := .binding }) 0 0 { savedImage with accepted := false }).isSome
    && (vfOf { ctxWorld boundSlot {} with vfs := [] } 0).launch.isNone && savedImage.gangs == []
    && (savedImage.cores.map fun e => physCore (ctxWorld boundSlot {}) 0 0 e.1) == [some 0]) = true := by decide

/-! ## Witnesses: the debugger, tier migration and dirty tracking -/

/-- A debugger attached to the context of VF 0, whose cores are frozen with nothing in flight, halted or not. -/
def haltWorld (halted : Bool) : State :=
  { debugWorld with
    io := { debugWorld.io with dbgHalted := halted }
    mem := (List.range 8).foldl (fun m k => m.writeN (saveBase debugWorld 0 0 + coreArea k + 0xD00) (List.replicate 15 0)) debugWorld.mem
    cores := (List.range 8).map fun k => (k, { status := .frozen, was := .idle })
    contexts := [(0, { status := if halted then .halted else .running })] }
theorem witness_debug : ((debugVf (haltWorld false)) == some 0 && (debugVf world).isNone && (debugVf (haltWorld true)) == some 0
    && (groupVales (haltWorld false) 0).all (fun v => (ctxOf (haltWorld false) 0 v).status != .binding)
    && !(traceBuf (haltWorld false) 0 0).en.getLsbD 6 && debugVales (haltWorld true) 0 == [0] && valesOf (haltWorld true) 0 == [0]
    && (valeOf (haltWorld true) 0).walkers.isEmpty && (valeOf (haltWorld true) 0).gangs.isEmpty
    && contextCores (haltWorld true) 0 0 == [0, 1, 2, 3, 4, 5, 6, 7]
    && (contextCores (haltWorld true) 0 0).all (fun k => let c := coreOf (haltWorld true) k
      c.was == .idle && c.status == .frozen && !c.brk && c.mqueue.isEmpty && c.treq.isEmpty && c.copies.isEmpty && c.loads.isEmpty
        && c.atomics.isEmpty && c.barriers.isEmpty && decide (c.seq = {}))
    && (contextCores (haltWorld true) 0 0).all (fun k => (haltWorld true).mem.readN
      (saveBase (haltWorld true) 0 0 + coreArea (logicalKey (haltWorld true) 0 k % 192) + 0xD00) 15 == List.replicate 15 0)
    && (contextCtls (haltWorld true) 0 0)[0]? == some 0
    && (logicalSlices (haltWorld true) 0)[(haltWorld true).io.dbgSl.toNat]? == some 0
    && (ctxOf (haltWorld true) 0 (0 / 8)).status == .halted && (vfOf (haltWorld true) 0).launch.isNone) = true := by decide

/-- Level-0 leaves of n pages of 64 KiB from virtual address 0 on, at 0x200000 on; VF 0 as given beside its tables. -/
def pagedWorld (n : Nat) (v : Vf) : State :=
  { world with
    mem := (List.range n).foldl (fun m i => tableWord (0x104000 + 8 * i) (0x20001D + 65536 * i) m)
      (tableWord 0x100000 0x101001 (tableWord 0x101000 0x102001 (tableWord 0x102000 0x103001 (tableWord 0x103000 0x104001 {}))))
    vfs := [(0, { v with root := 0x100000, hbase := 0, hlim := 0xFFFF, hset := true })] }
theorem witness_migration : (hostReaches (pagedWorld 1 {})
    && (match migrationOf (pagedWorld 1 { tmdst := 0x40 }) 0 1 with
      | some (x, l) => x.window && l == [(0x104000, 0x20001D)] && x.pages == [(0x104000, 0x20, 0x40)] | none => false)
    && (migrationOf (pagedWorld 1 {}) 0 2).isNone && (pagedWorld 17 {}).cores.isEmpty
    && (match migrationOf (pagedWorld 17 { tmdst := 0x40 }) 0 17 with | some (x, l) => !x.window && l.length == 17 | none => false))
    = true := by decide
/-- A window of page 0 of VF 0, from 0x200000 to 0x400000. -/
def windowMove : TierMove := { va := 0, count := 1, window := true, pages := [(0x104000, 0x20, 0x40)] }
theorem witness_window : ((vfOf (pagedWorld 1 { tier := some windowMove }) 0).tier == some windowMove
    && !rangeNeeded (bump (pagedWorld 1 { tier := some windowMove })) 0 0 1 && !pulling (pagedWorld 1 { tier := some windowMove })
    && (pagedWorld 1 { tier := some windowMove }).vfs.all (fun e => !e.2.dbEn && e.1 == 0)
    && 0x104000 / 65536 != 0x20 && 0x104000 / 65536 != 0x40 && 0x104000 % 8 == 0) = true := by decide
/-- A pass of Vale 0 under service that reads page 0. -/
def pullMove : TierMove := { windowMove with window := false, va := 0 }
theorem witness_pull : (pullsOf (vfOf (pagedWorld 1 { tier := some pullMove }) 0) == [pullMove] && nextLine pullMove == some (0x40 * 512)
    && !pagePresent { pullMove with present := pullMove.present.put false (0x40 * 512) true } 0x40
    && decide ((pagedWorld 1 { tier := some pullMove }).vfs = [(0, vfOf (pagedWorld 1 { tier := some pullMove }) 0)])
    && ((pullsOf (vfOf world 0)).findSome? nextLine).isNone) = true := by decide
theorem witness_dirty : (List.range 8).all (fun v => (ctxOf world 5 v).status == .unbound) = true
    ∧ (ctxOf world 0 0).status ≠ .unbound ∧ (ctxOf world 0 0).status ≠ .lost
    ∧ (vfOf (vfWorld { settling := true }) 0).settling = true ∧ (vfOf (vfWorld { settling := true }) 0).tier = none := by decide

/-! ## Witnesses: bundles, translations, atomics, boundaries -/

/-- The translation of page 0 with every permission. -/
def tlbAll : TlbEntry := { vf := 0, va := 0, pa := 0x200000, bits := 16, w := true, x := true }
/-- Core 0 running at pc 0 with a first-level translation; the state has the memory and tables of `mapped`. -/
def runWorld (c : Core) : State := { mapped with cores := [(0, c)] }
theorem witness_fetch : ((coreOf (runWorld { status := .running, tlb := [tlbAll] }) 0).tlb.find? (·.covers
      (vfOfCore (runWorld { status := .running, tlb := [tlbAll] }) 0) 0) == some tlbAll && tlbAll.x
    && (runWorld {}).vfs.all (fun e => !e.2.dbEn && e.2.tier.isNone && e.2.hostSections.isEmpty)
    && !(runWorld {}).mem.poisoned (tlbAll.phys 0) 32
    && ((coreOf (runWorld { status := .running }) 0).tlb.find? (·.covers 0 0)).isNone
    && ((coreOf (runWorld { status := .running }) 0).treq.find? 0x80).isNone) = true := by decide
/-- A bundle: header bytes h, then the words given, then zeros. -/
def bundleBytes (l : List Byte) : List Byte := l ++ List.replicate (32 - l.length) 0
/-- Core 0 running with a bundle fetched at pc 0. -/
def issueWorld (l : List Byte) (c : Core) : State :=
  withCore { c with status := .running, fetched := some (0, bundleBytes l) }
/-- The fetched bundle of core 0, checked by f. -/
def bundleIs (l : List Byte) (f : Bundle → Bool) : Bool :=
  match fetchedBundle (atIssueClk (curCore (issueWorld l {}))) with | some (.ok b) => f b | _ => false
theorem witness_empty_bundle : (bundleIs [] fun b => b.s.isNone && b.v0.isNone && b.v1.isNone && b.m.isNone && b.c0.isNone
    && b.c1.isNone && (curCore (issueWorld [] {})).replay.isEmpty
    && !overflowed (atIssueClk (curCore (issueWorld [] {})))) = true := by decide

/-- Core 0 asks for the translation of address 0 for bundles. -/
def askWorld (v : Vale) : State :=
  { mapped with
    cores := [(0, { status := .running, treq := [(0x80, { va := 0, access := 3, agent := 0 })] })]
    vales := [(0, { v with maps := [(0, { active := [(0, 0x8000), (192, 0x8000)] })] })] }
theorem witness_vale_tlb : ((valeOf (askWorld { tlb := [tlbAll] }) 0).tlb.find? (·.covers (vfOfCore (askWorld {}) 0) 0) == some tlbAll
    && (leafCheck 3 tlbAll).isNone && ((valeOf (askWorld {}) 0).tlb.find? (·.covers 0 0)).isNone
    && freeIndex (valeOf (askWorld {}) 0).walkers 64 == some 0
    && (coreOf (askWorld {}) 0).treq.find? 0x80 == some { va := 0, access := 3, agent := 0 }) = true := by decide
theorem witness_walk : ((valeOf (askWorld { walkers := [(0, { vf := 0, va := 0, waiters := [(0, 0x80)] })] }) 0).walkers.find? 0
      == some { vf := 0, va := 0, waiters := [(0, 0x80)] }
    && !walkHeld (bump (askWorld {})) (some 0) 0 0
    && (match walkVale (bump (askWorld {})) 0 0 0 [3] false with | (.ok e, _) => (leafCheck 3 e).isNone && (leafCheck 0 e).isNone | _ => false)
    && (match walkVale (bump mapped) 0 0 0x20000 [3] false with | (.bad f, _) => f.cause < 0x10 | _ => false)) = true := by decide
theorem witness_fill : (stashVictim (curCore (runWorld { tlb := [tlbAll], loads := [(0, {})] })) == some (0, none)
    && (curCore (runWorld { tlb := [tlbAll], loads := [(0, {})] })).loads.find? 0 == some {} && ({} : LoadEntry).kind != 2
    && !(mapped.mem.poisoned 0x200000 128) && !overflowed (curCore (runWorld { tlb := [tlbAll], loads := [(0, {})] }))) = true := by decide

/-- Core 0 with a remote `amo` to logical core 1's first word as entry 0. -/
def remoteAmo : AtomicEntry := { kind := 0, addr := 0x8000000000400000, operand := 5, aop := 0, sz := 3, seq0 := 7 }
/-- Core 0 holds the atomic entry given. -/
def amoWorld (x : AtomicEntry) : State := withCore { status := .running, atomics := [(0, x)], ord := [0x60] }
theorem witness_atomic_apply : (unacknowledged (curCore (amoWorld remoteAmo)) < 16 && (curCore (amoWorld remoteAmo)).ord.head? == some 0x60
    && (tagAnywhere (amoWorld remoteAmo) (coreSource (amoWorld remoteAmo) 0) 7).isNone
    && !isParked (amoWorld remoteAmo) (coreSource (amoWorld remoteAmo) 0) 7 && taggedOf remoteAmo.addr == .localAddr 0x400000
    && (resolveLocal (bump (amoWorld remoteAmo)) 0 0x400000 matches .ok (.spm 1 0))
    && !portDead (bump (amoWorld remoteAmo)) 0 1 && !(coreOf (amoWorld remoteAmo) 1).spm.poisoned 0 8) = true := by decide
theorem witness_atomic_response : (tagAnywhere { amoWorld { remoteAmo with sent := 1 } with
      cores := [(0, { status := .running, atomics := [(0, { remoteAmo with sent := 1 })] }),
                (1, { portTags := storeTag [] (coreSource (amoWorld remoteAmo) 0) (7, 3) })] }
    (coreSource (amoWorld remoteAmo) 0) 7) = some 3 := by decide
/-- Core 0 with a granted atomic of its own Vale as load entry 0. -/
def grantWorld : State := runWorld { status := .running, tlb := [tlbAll], loads := [(0, { kind := 2, sz := 3, operand := 1 })], ord := [0x20] }
theorem witness_grant : ((match translate (bump grantWorld) 0 (vfOfCore grantWorld 0) 0 2 with | (.ok pa, _) => pa == 0x200000 | _ => false)
    && !grantWorld.mem.poisoned 0x200000 8 && (curCore grantWorld).stash.isEmpty && (curCore grantWorld).pend.isEmpty
    && (curCore grantWorld).sbuf.isEmpty && (curCore grantWorld).ord.head? == some 0x20) = true := by decide

/-- Core 0 with an arrival of kind op at gang 5 as entry 0, the gang as given. -/
def arrivalWorld (op : Nat) (g : Gang) : State :=
  { withCore { status := .running, barriers := [(0, { gang := 5, op := op, seq := 0 })] } with
    vales := [(0, { maps := [(0, { active := [(0, 0x8000), (1, 0x8001), (192, 0x8000)] })], gangs := [(5, g)] })] }
theorem witness_arrival : (logicalCore (arrivalWorld 0 { members := [0, 1] }) 0 == 0
    && (gangOf (arrivalWorld 0 { members := [0, 1] }) 0 5).committing.isNone
    && (gangOf (arrivalWorld 0 { members := [0, 1] }) 0 5).members.any (fun m => m != 0)
    && (gangOf (arrivalWorld 0 { members := [0, 1] }) 0 5).tags.isEmpty
    && unacknowledged (curCore (arrivalWorld 0 { members := [0, 1] })) < 16
    && memberCores (arrivalWorld 2 { members := [0] }) 0 0 [0] == [0] && (gangOf (arrivalWorld 2 { members := [0] }) 0 5).arrived.isEmpty)
    = true := by decide
/-- Gang 5 commits core 0, which holds a buffered byte. -/
def commitWorld : State :=
  { arrivalWorld 2 { owner := some 1, members := [0], committing := some [0] } with cores := [(0, { pend := [(0x200000, 7)] })] }
theorem witness_boundary : (physCore commitWorld 0 0 0 == some 0 && (ctxOf commitWorld 0 0).status == .running
    && FMap.sorted (coreOf commitWorld 0).pend && (gangOf commitWorld 0 5).committing == some [0]
    && (gangOf commitWorld 0 5).granules == 0 && (gangOf commitWorld 0 6).committing.isNone
    && commitWorld.vfs.all (fun e => !e.2.dbEn && e.2.tier.isNone && e.2.hostSections.isEmpty) && !ctxFrozen commitWorld 0 0
    && (commitGranules (coreOf commitWorld 0)).length == 1
    && bufferedGlobal (coreOf commitWorld 0) == [(0x200000, 7)]) = true := by decide
theorem witness_buffers : Sys2Proof.Claims.Untouched commitWorld ∧ Sys2Proof.Claims.BuffersOk commitWorld 0 := by
  refine ⟨by unfold Sys2Proof.Claims.Untouched; decide, by decide, fun j => ?_, by decide, by decide, by decide, by decide, by decide, by decide⟩
  rcases j with _ | j <;> rfl

/-- A trap record, all 0. -/
def recordOf0 : Record :=
  { ns := 0, cid := 0, vale := 0, unit := 0, cause := 0, flags := 0, lid := 0, pc := 0, addr := 0, tag := 0, info := 0 }
/-- A launch that ends fatally with a record in entry 508. -/
def fatalWorld : State :=
  vfWorld { launch := some { launchOf [0] with ending := true, code := 0x116 }
            tq := { en := true, fatalPending := some (508, recordOf0), entries := [(508, .written)] } }
theorem witness_fatal : (valesOf fatalWorld 0 == [0] && boundIn fatalWorld 0 0 && (ctxOf fatalWorld 0 0).image.isNone
    && (ctxOf fatalWorld 0 0).status == .running && (vfOf fatalWorld 0).tq.fatalPending.isSome
    && vfOfSlice fatalWorld 0 == some 0
    && (csrGet ({ csr := [(0x303, 0x200)] } : Ctl) 0x303).getLsbD 9) = true := by decide

/-! ## Witnesses: errors -/

theorem witness_error_sites : (siteOwner mapped (.memory 0x200000) == some 0 && (siteOwner mapped (.memory (2 ^ 39))).isNone
    && ownerOf mapped 0x200000 == some 0 && (ownerOf mapped (2 ^ 39)).isNone && vfOfSlice mapped (sliceOfCore 0) == some 0
    && (vfOf (vfWorld { launch := some (launchOf [0]) }) 0).launch == some (launchOf [0])) = true := by decide
theorem witness_error_event : Sys2Proof.Claims.ErrorEvent .patrolScrub ∧ Sys2Proof.Claims.ErrorEvent .softError :=
  ⟨Or.inl rfl, Or.inr rfl⟩
/-- A collective of two ranks, the other on node 9, that has a delivery left to it. -/
def sendDesc : List Byte :=
  leBytes 2 (6 + 256) ++ leBytes 2 0 ++ leBytes 2 8 ++ leBytes 2 2 ++ leBytes 2 0 ++ leBytes 2 1 ++ leBytes 4 77 ++ List.replicate 8 0
    ++ leBytes 8 0x10000 ++ leBytes 8 0 ++ leBytes 8 64 ++ leBytes 8 12 ++ leBytes 8 0x200200 ++ leBytes 8 0x201000 ++ List.replicate 184 0
/-- The participants of `sendDesc`: rank 0 here, rank 1 on the node given. -/
def ranks (node : Nat) : List Byte := leBytes 16 0 ++ leBytes 4 node ++ List.replicate 12 0
/-- Control core 0 runs the collective. -/
def linkWorld (node : Nat) : State :=
  { world with
    io := { world.io with links := 1 }
    ctls := [(0, { macros := [(0, { state := .running, isColl := true, desc := sendDesc, t3 := ranks node })] })] }
theorem witness_link : (((collOf sendDesc).others == [1]) && unreached { linkWorld 9 with io := { world.io with links := 0 } } (ranks 9) 1
    && (entryOf (linkWorld 9) 0 0).isColl && (ctlOf (linkWorld 9) 0).status != .frozen && !(vfOf (linkWorld 9) (vfOfCtl (linkWorld 9) 0)).tq.en
    && ((entryOf (linkWorld 9) 0 0).coll.peers.get {} 1).acked < (collOf sendDesc).deliveries 1 && world.io.boot == .running
    && tqFree ({ en := true } : TrapQueue) 0 512 == some 0) = true := by decide

/-! ## Witnesses: bundles that hold an operation -/

/-- The state in which core 0 of `issueWorld` issues. -/
def issuing (l : List Byte) (c : Core) : State :=
  let s := issueWorld l c
  landOn (Sys2Proof.Claims.atCore s 0) 0 (atIssueClk (coreOf s 0))
theorem witness_addi_bundle : (bundleIs (leBytes 4 0x00504210) (fun b => b.s == some (.addi { imm := 5, ext := none, sa := 1, sd := 2 })
      && b.v0.isNone && b.m.isNone && b.c0.isNone)
    && (descriptorStop (issuing (leBytes 4 0x00504210) {}) (.addi { imm := 5, ext := none, sa := 1, sd := 2 })).isNone
    && !stalls (issuing (leBytes 4 0x00504210) {}) [.addi { imm := 5, ext := none, sa := 1, sd := 2 }]
    && (operandStop (issuing (leBytes 4 0x00504210) {}) (.addi { imm := 5, ext := none, sa := 1, sd := 2 }) [] []).isNone) = true := by decide
/-- A core whose matrix queue is full. -/
def fullQueue : Core := { mqueue := List.replicate 16 { op := 3, form := mf0 } }
theorem witness_stalled_bundle : (bundleIs (List.replicate 16 0 ++ leBytes 4 0x10000001) (fun b => b.s.isNone && b.m.isSome
      && stalls (issuing (List.replicate 16 0 ++ leBytes 4 0x10000001) fullQueue) ((popOrder b).map (·.2))
      && (firstStop ((reportOrder b).map fun e =>
        descriptorStop { issuing (List.replicate 16 0 ++ leBytes 4 0x10000001) fullQueue with slot := e.1 } e.2)).isNone)) = true := by decide
theorem witness_bad_bundle : (match fetchedBundle (atIssueClk (curCore (issueWorld [0xFF] {}))) with | some (.error _) => true | _ => false) = true
    ∧ (fetchedBundle (atIssueClk (curCore world))).isNone = true := by decide
theorem witness_sleeping_bundle : (bundleIs (leBytes 4 0x00004058) (fun b => b.s == some (.sleep 1) && b.v0.isNone && b.m.isNone)
    && (descriptorStop (issuing (leBytes 4 0x00004058) {}) (.sleep 1)).isNone && !stalls (issuing (leBytes 4 0x00004058) {}) [.sleep 1]
    && (operandStop (issuing (leBytes 4 0x00004058) {}) (.sleep 1) [] []).isNone
    && decide ((sRead { issueWorld (leBytes 4 0x00004058) {} with core := 0 } 1).toNat ≤ world.nstime.toNat)) = true := by decide
theorem witness_landing : ((curCore (withCore { status := .running, clk := 5, pending := [{ dest := .s 1, issued := 2, bound := 4 }] })).pending[0]?
      == some { dest := .s 1, issued := 2, bound := 4 }
    && !superseded { ({ dest := .s 1, issued := 2, bound := 4 } : Pending) with landed := true } []) = true := by decide

/-! ## Witnesses: dispatches, sequencers, ends -/

/-- Control core 0 waits with an `m.kern` held for the scoreboard. -/
def heldWorld : State :=
  descWorld kernDesc { x := descRegs, status := .waiting
                       held := some { op := 8, isColl := false, rd := 12, gang := 5, desc := kernDesc, t3 := [], descAddr := 0x200000
                                      reads := [], writes := [] } }
theorem witness_scoreboard : ((ctlOf heldWorld 0).status == .waiting && (match (ctlOf heldWorld 0).held with
    | some h => takeEntry (ctlOf heldWorld 0) == some 0 && !conflicts (ctlOf heldWorld 0) h.reads h.writes
        && !parkedWrites (bump { heldWorld with ctl := 0 }) 0 && !heldRefused (bump { heldWorld with ctl := 0 }) h && !h.isColl
    | none => false)) = true := by decide
/-- The dispatch of an `m.kern` to gang 5. -/
def kernDispatch : Dispatch := { queued with desc := kernDesc, members := [0] }
/-- Gang 5 with a dispatch queued, core 0 as given. -/
def queuedWorld (c : Core) : State :=
  { entryWorld { stoppedEntry with state := .running } with
    cores := [(0, c)]
    vales := [(0, { maps := [(0, { active := [(0, 0x8000), (1, 0x8001), (192, 0x8000)] })]
                    gangs := [(5, { owner := some 1, members := [0], queue := [kernDispatch] })] })] }
theorem witness_dispatch : (stayers (gangOf (queuedWorld {}) 0 5) == kernDispatch.members && !parkedWrites (queuedWorld {}) 0
    && dispCores (queuedWorld {}) kernDispatch == [0] && canTake (queuedWorld {}) 0
    && (regionFault (queuedWorld {}) kernDispatch 0).isNone && numAt kernDesc 0 1 != 3
    && !canTake (queuedWorld { seq := { exec := some kernDispatch, pend := some kernDispatch } }) 0
    && canTake (queuedWorld { seq := { exec := some kernDispatch } }) 0) = true := by decide
/-- The members of a tensor descriptor: base, control word, sizes and strides of three dimensions. -/
def tensorBytes (base ctl n0 n1 n2 d0 d1 d2 : Nat) : List Byte :=
  leBytes 8 base ++ leBytes 8 0 ++ leBytes 4 ctl ++ leBytes 2 n0 ++ leBytes 2 n1 ++ leBytes 2 n2 ++ (List.replicate 4 (leBytes 2 1)).flatten
    ++ leBytes 2 0 ++ leBytes 4 d0 ++ leBytes 4 d1 ++ leBytes 4 d2 ++ List.replicate 16 0
/-- An `m.kern` over 64 bytes of T0, one tile of 64, which it reads; and one that uses no tensor. -/
def tileDesc (use role : Nat) : List Byte :=
  leBytes 8 (8 + 256 + use * 2 ^ 24 + role * 2 ^ 32 + 2 ^ 48) ++ List.replicate 24 0 ++ leBytes 2 64 ++ List.replicate 30 0
    ++ tensorBytes 0x10000 9 64 1 1 1 64 64 ++ List.replicate 128 0
/-- Core 0 executes a step program. -/
def stepWorld (desc : List Byte) (q : Sequencer) (c : Core) : State :=
  queuedWorld { c with seq := { q with exec := some { kernDispatch with desc := desc } } }
theorem witness_seq_kern : ((seqActive (stepWorld kernDesc {} {}) 0).isSome && (seqActive (queuedWorld {}) 0).isNone
    && (macroOf kernDesc []).op == 8) = true := by decide
theorem witness_seq_prefetch : (0 < (macroOf (tileDesc 1 1) []).assigned 0 1
    && (inputCopies (macroOf (tileDesc 1 1) []) ((macroOf (tileDesc 1 1) []).stepOf 0 1 0) 0).length == 1
    && roomFor (coreOf (stepWorld (tileDesc 1 1) {} {}) 0) 1
    && freeCopyEntry (coreOf (stepWorld (tileDesc 1 1) {} {}) 0) (coreOf (stepWorld (tileDesc 1 1) {} {}) 0).copyPos 32 == some 0) = true := by decide
theorem witness_seq_ready : ((coreOf (stepWorld (tileDesc 1 1) { prefetched := 1 } {}) 0).seq.inputs.isEmpty
    && (coreOf (stepWorld (tileDesc 1 1) { prefetched := 1 } {}) 0).prgAcc.toNat / 2 ^ 62 != 3) = true := by decide
theorem witness_seq_boundary : ((coreOf (stepWorld (tileDesc 1 1) { ready := true, bodyDone := true } {}) 0).seq.ready
    && (outputCopies (macroOf (tileDesc 1 1) []) 0 0).isEmpty
    && !stepping (stepWorld (tileDesc 1 1) { ready := true, bodyDone := true } {}) 0
    && roomFor (coreOf (stepWorld (tileDesc 1 1) { ready := true, bodyDone := true } {}) 0) 0) = true := by decide
/-- An `m.sort` of T0's 64 bytes, whose input tile lies poisoned in the buffer or not. -/
def sortDesc : List Byte := leBytes 8 (4 + 256 + 5 * 2 ^ 24 + 2 ^ 48) ++ List.replicate 24 0 ++ leBytes 2 64 ++ List.replicate 30 0
    ++ tensorBytes 0x10000 9 64 1 1 1 64 64 ++ List.replicate 64 0 ++ tensorBytes 0 9 64 1 1 1 64 64
theorem witness_seq_builtin : ((seqActive (stepWorld sortDesc { ready := true } {}) 0).isSome
    && (poisonedInput (stepWorld sortDesc { ready := true } {}) 0 { kernDispatch with desc := sortDesc } 0 0).isNone
    && (poisonedInput (stepWorld sortDesc { ready := true, buf := Mem.poisonWord {} 0 } {}) 0 { kernDispatch with desc := sortDesc } 0 0).isSome
    && !accIsSpilled (coreOf (stepWorld sortDesc { ready := true } {}) 0)
    && accIsSpilled (coreOf (stepWorld sortDesc { ready := true } { prgAcc := accSpilled 0 }) 0)
    && !(coreOf (stepWorld sortDesc { ready := true } { prgAcc := accSpilled 0 }) 0).spm.poisoned 0 65536
    && (macroOf sortDesc []).op != 8) = true := by decide

/-- Core 0 has passed the last step; entry 0 as given. -/
def endWorld (m : MacroEntry) (c : Core) : State :=
  { entryWorld { m with op := 8, members := [0], dispatched := true } with
    cores := [(0, { c with prgStep := 1, seq := { exec := some { kernDispatch with desc := tileDesc 1 1 } } })] }
theorem witness_macro_complete : (memberCores (endWorld { stoppedEntry with state := .running } {}) 0 0 [0] == [0]
    && memberDone 0 0 (endWorld { stoppedEntry with state := .running } {}) 0
    && !commitBlocked (endWorld { stoppedEntry with state := .running } {}) 0
    && !parkedWrites (endWorld { stoppedEntry with state := .running } {}) 0
    && !parkedWrites (commitAll (bump (endWorld { stoppedEntry with state := .running } {})) [0]) 0
    && (gangOf (endWorld stoppedEntry {}) 0 5).committing.isNone && (ctlOf (endWorld stoppedEntry {}) 0).status != .frozen) = true := by decide
theorem witness_macro_stopped : (executes (endWorld { stoppedEntry with state := .stopping } { status := .stopped }) 0 0 0
    && ceased (endWorld { stoppedEntry with state := .stopping } { status := .stopped }) 0 { kernDispatch with desc := tileDesc 1 1 }
    && copiesSettled (endWorld { stoppedEntry with state := .stopping } { status := .stopped }) 0
    && (valeOf (endWorld stoppedEntry {}) 0).pass.isNone) = true := by decide

/-! ## Witnesses: attention passes -/

/-- The descriptor of an `m.attn` over FP32: D = 16, one query head, one key-value head, scale 1.0; queries at 0x1000,
a table of one row at 0x2000, outputs at 0x3000 (R254). -/
def attnDesc : List Byte :=
  leBytes 8 (3 + 256 + 15 * 2 ^ 24 + 6 * 2 ^ 48) ++ List.replicate 16 0 ++ leBytes 8 0x5000 ++ List.replicate 16 0
    ++ leBytes 8 (0x3F800000 + 2 ^ 32 + 2 ^ 40) ++ leBytes 8 0
    ++ tensorBytes 0x1000 0x20 16 1 1 4 64 64 ++ tensorBytes 0x2000 0x19 32 1 1 1 32 32 ++ tensorBytes 0x3000 0x20 16 1 1 4 64 64
/-- T3 of the same. -/
def attnT3 : List Byte := tensorBytes 0x4000 9 65535 1 1 1 1 1
/-- Its dispatch to gang 5. -/
def attnDispatch : Dispatch := { queued with desc := attnDesc, t3 := attnT3, op := 3, members := [0] }
/-- A row of the sequence table: keys and values in page 0x10000, len tokens. -/
def rowBytes (ready : Nat) : List Byte := leBytes 8 0x10000 ++ leBytes 8 0x10000 ++ leBytes 4 1 ++ leBytes 4 ready ++ leBytes 8 0
/-- The Col engine of Vale 0 with a pass, or with one queued; core 0 executes it. -/
def colWorld (p : Option Pass) (q : List Dispatch) : State :=
  { mapped with
    mem := mapped.mem.writeN 0x202000 (rowBytes 1)
    cores := [(0, { seq := { exec := some attnDispatch } })]
    ctls := [(0, { macros := [(0, { state := .running, op := 3, members := [0], gang := 5, desc := attnDesc, t3 := attnT3 })] })]
    vales := [(0, { maps := [(0, { active := [(0, 0x8000), (192, 0x8000)] })], pass := p, passQueue := q
                    gangs := [(5, { owner := some 1, members := [0] })] })] }
theorem witness_next_pass : (((valeOf (colWorld none [attnDispatch]) 0).passQueue.find? fun d =>
    (ctlOf (colWorld none [attnDispatch]) d.ctl).status != .frozen) == some attnDispatch
    && !parkedWrites (colWorld none [attnDispatch]) 0 && ([attnDispatch].erase attnDispatch).isEmpty) = true := by decide
/-- The engine takes the next pass from its queue. -/
def admitWorld : State := setVale (bump (colWorld none [attnDispatch])) 0 { valeOf (colWorld none [attnDispatch]) 0 with passQueue := [] }
theorem witness_admission_checks : ((firstFail (attnFails (macroOf attnDesc attnT3))).isNone
    && (firstFail (attnFails (macroOf kernDesc []))).isSome && (valeOf (colWorld none [attnDispatch]) 0).passQueue == [attnDispatch]) = true := by
  decide
theorem witness_admission : (match readRows admitWorld 0 0 (macroOf attnDesc attnT3) (List.range (((macroOf attnDesc attnT3).tn 1).size 1)) with
    | (.ok rows, u1) =>
      let ready := ((rows.filter (·.2)).map (·.1)).take (16384 / Nat.max 1 (macroOf attnDesc attnT3).queryHeads)
      ready.length == 1 && (badRow (macroOf attnDesc attnT3) ready).isNone
        && decide (attnNeed (macroOf attnDesc attnT3) (ready.length * (macroOf attnDesc attnT3).kvHeads) 1 ≤ (macroOf attnDesc attnT3).rgn * 65536)
        && (match Sys2Proof.Claims.queriesOf u1 0 0 (macroOf attnDesc attnT3) ready with
          | (.ok qs, u2) => qs.all (fun q => 0 < (macroOf attnDesc attnT3).ordinals q.len && !q.affected)
              && (match Sys2Proof.Claims.walksOf u2 0 { disp := attnDispatch, vf := 0, admitted := true, seqs := qs } with
                | (.ok (_, l), _) => l == [{ seq := 0, h := 0, n := 0, kpbn := 0x21, vpbn := 0x21 }] | _ => false)
          | _ => false)
    | _ => false) = true := by decide
/-- The sequence of the table's row. -/
def seq0 : ColSeq := { slot := 0, kva := 0x10000, vva := 0x10000, len := 1 }
/-- A walked pass of one entry; its slot expects c ordinals. -/
def passOf (c : Nat) : Pass :=
  { disp := attnDispatch, vf := 0, admitted := true, walked := true, seqs := [seq0]
    entries := [{ seq := 0, h := 0, n := 0, kpbn := 0x21, vpbn := 0x21 }], slots := [(0, { n := List.replicate 16 0, count := c })] }
/-- Every sequence finished. -/
def quietPass : Pass := { passOf 1 with entries := [], slots := [(0, { count := 1, next := 1, written := true })] }
theorem witness_sweep : (quietPass.quiet && !quietPass.sweeping && !(passOf 1).quiet
    && (match readRows (bump (colWorld (some { quietPass with seqs := [] }) [])) 0 0 (macroOf attnDesc attnT3) [0] with
      | (.ok rows, _) => ((rows.filter (·.2)).map (fun x => { x.1 with sweep := true })).length == 1 | _ => false)
    && quietPass.slots.all (fun x => x.2.written) && quietPass.seqs.all (fun q => !q.affected)
    && decide (quietPass.slotsHeld + 1 ≤ 16384)) = true := by decide
theorem witness_sweep_entry : (match readQueries (bump (colWorld (some { quietPass with sweeping := true, sweepRows := [seq0] }) [])) 0 0
      (macroOf attnDesc attnT3) seq0 with
    | (.ok q, u) => !q.affected && 0 < (macroOf attnDesc attnT3).ordinals q.len
        && (match walkSeq u 0 0 (macroOf attnDesc attnT3) 1 q with | (.ok l, _) => l.length == 1 | _ => false)
    | _ => false) = true := by decide
/-- The entry of `passOf`. -/
def entry0 : ColEntry := { seq := 0, h := 0, n := 0, kpbn := 0x21, vpbn := 0x21 }
theorem witness_delivery : ((passOf 1).nextDelivery == [entry0] && (passOf 1).need (passOf 1).entries ≤ (passOf 1).plannedFree
    && (passOf 1).need (passOf 1).entries ≤ (passOf 1).physFree
    && (poisonOf (colWorld (some (passOf 1)) []) (passOf 1) entry0 ((passOf 1).holdsKey entry0 false)).isNone
    && !parkedIn (colWorld (some (passOf 1)) []) (0x21 * 65536) 65536
    && (passOf 1).entries.all (fun e => takesDelivery (colWorld (some (passOf 1)) []) (passOf 1) ((passOf 1).single entry0 false) ((passOf 1).coreOfEntry (colWorld (some (passOf 1)) []) e))
    && (passOf 1).seqs.all (fun q => !q.affected) && (passOf 1).slots.all (fun x => x.2.written || x.2.next < x.2.count)
    && (valeOf (colWorld (some (passOf 1)) []) 0).lostRead.isNone) = true := by decide
/-- The pass with its one delivery made, whose contribution is due from core 0. -/
def duePass : Pass := { passOf 1 with entries := [{ entry0 with served := true }], due := [{ slot := 0, n := 0, nv := [], dn := 0, core := 0 }] }
/-- Core 0 holds the delivery. -/
def dueWorld : State :=
  { colWorld (some duePass) [] with cores := [(0, { seq := { exec := some attnDispatch, deliveries := [{ entries := [(entry0, [])] }] } })] }
theorem witness_tile_step : ((coreOf dueWorld 0).seq.deliveries.length == 1 && !stepping dueWorld 0 && numAt attnDesc 0 1 == 3 && !attnDispatch.coll
    && sameDispatch duePass.disp attnDispatch.ctl attnDispatch.entry && (entryOf dueWorld 0 0).state == .running
    && (coreOf dueWorld 0).status == .idle && (coreOf dueWorld 0).replay.isEmpty && duePass.slotsOf entry0 == [0]
    && duePass.due.any (fun y => y.slot == 0 && y.n == 0 && y.core == 0)
    && duePass.slots.all (fun x => x.2.written || x.2.next < x.2.count)) = true := by decide
/-- The contribution of ordinal n to slot 0. -/
def contribution (n : Nat) : Partial := { slot := 0, n := n, nv := List.replicate 16 0, dn := 0 }
theorem witness_merge : (((passOf 3).slotAt 0).next == 0 && (contribution 0).n + 1 < ((passOf 3).slotAt 0).count
    && ((passOf 3).slotAt 0).next < (contribution 1).n && { passOf 3 with sends := [contribution 0] }.sends[0]? == some (contribution 0)
    && (passOf 3).parked.isEmpty && !(contribution 0).lost && (contribution 0).n < (({ passOf 3 with slots := [(0, { next := 1, count := 3 })] } : Pass).slotAt 0).next) = true := by
  decide
/-- The contribution of ordinal 0 on its way from core 0, which executes the pass. -/
def sendWorld : State := { dueWorld with vales := [(0, { pass := some { passOf 1 with sends := [contribution 0] } })] }
/-- R444: a member whose partial send is lost stops, and the contribution waits for it. -/
theorem test_lost_send : ((coreOf (loseRequest (.send 0 0) sendWorld) 0).status == .stopped
    && ((valeOf (loseRequest (.send 0 0) sendWorld) 0).pass.any fun p => p.sends == [{ contribution 0 with lost := true }])) = true := by decide
theorem witness_lost_send : (match exec (.basinMerge 0 0) (loseRequest (.send 0 0) sendWorld) with
    | .next t => (valeOf t 0).pass.any fun p => p.sends.length == 1
    | _ => false) = true := by decide
/-- R415: a read of the engine that exhausts its retry budget stops the pass. -/
theorem witness_lost_read : (match exec (.colDelivery 0) (loseRequest (.engine 0 255) { dueWorld with vales := [(0, { pass := some (passOf 1) })] }) with
    | .next t => (livePass t 0).isNone && (valeOf t 0).lostRead.isNone && (entryOf t 0 0).state == .stopping
    | _ => false) = true := by decide

/-! ## Witnesses: collectives and steps -/

/-- Control core 0 runs an all-gather of two ranks of 64 bytes into 0x10000, each on this node; its window is open. -/
def gatherDesc : List Byte :=
  leBytes 2 (2 + 256) ++ leBytes 2 0 ++ leBytes 2 8 ++ leBytes 2 2 ++ leBytes 2 0 ++ leBytes 2 0 ++ leBytes 4 77 ++ List.replicate 8 0
    ++ leBytes 8 0x8000 ++ leBytes 8 0x10000 ++ leBytes 8 64 ++ leBytes 8 12 ++ leBytes 8 0x200200 ++ leBytes 8 0x1000 ++ List.replicate 184 0
/-- The collective of a descriptor as entry 0, rank 1 on the node given, with its state beside it. -/
def collAt (node : Nat) (desc : List Byte) (x : Coll) : State :=
  { mapped with
    cores := [(0, { seq := { exec := some { queued with coll := true } } })]
    ctls := [(0, { macros := [(0, { state := .running, isColl := true, desc := desc, t3 := ranks node, members := [0], dispatched := true
                                    gang := 5, coll := x })]
                   sent := [(77, pairKey (collOf desc), 3, 8)] })]
    vfs := [(0, { root := 0x100000, hbase := 0, hlim := 0xFFFF, hset := true, windows := [{ cid := 77, slice := 0, entry := 0 }], launch := some (launchOf [0]) })] }
/-- Both ranks on this module. -/
def collWorld (desc : List Byte) (x : Coll) : State := collAt 0 desc x
theorem witness_collective_owner : (collOwner (collWorld gatherDesc {}) 0 0 == some (0, 0) && vfOfSlice (collWorld gatherDesc {}) 0 == some 0
    && (ctxOf (collWorld gatherDesc {}) 0 0).image.isNone && (collOf gatherDesc).others == [1] && (collOwner world 0 0).isNone
    && ((collWorld gatherDesc { opNumber := 2 }).ctls.any fun c => (entryAt c.2 0).coll.opNumber == 2)) = true := by decide
theorem witness_registration : (!rankHere (collAt 9 gatherDesc {}) (ranks 9) 1 && rankHere (collWorld gatherDesc {}) (ranks 0) 1
    && sentHere (collWorld gatherDesc { opNumber := 3 }) (entryOf (collWorld gatherDesc { opNumber := 3 }) 0 0) 1 8 3
    && !sentHere (collWorld gatherDesc { opNumber := 3 }) (entryOf (collWorld gatherDesc { opNumber := 3 }) 0 0) 1 9 3) = true := by decide
theorem witness_chunk : (windowOpen (collAt 9 gatherDesc {}) 0 0 0 && (collOf gatherDesc).piece 1 0 == some (64, 128)
    && !writeWaits (bump (collAt 9 gatherDesc {})) 0 (0x10000 + 64) 64 && (collOf gatherDesc).piece 1 1 == none
    && pagesWritable (collWorld gatherDesc {}) 0 (0x10000 + 64) (0x10000 + 127) && !(collOf gatherDesc).reduces
    && !pagesWritable { collWorld gatherDesc {} with vfs := [] } 0 (0x10000 + 64) (0x10000 + 127)
    && chunkReady (collOf gatherDesc) { pieces := [(0, []), (65536, [])] } 0 && !chunkReady (collOf gatherDesc) { pieces := [(65536, [])] } 0
    && !windowOpen mapped 0 0 0) = true := by decide
theorem witness_chunk_lands : (!vaHeld (collAt 9 gatherDesc { whole := [0] }) 0 (0x10000 + 0 * 2 ^ (collOf gatherDesc).chk) ((collOf gatherDesc).chunkBytes 0)
    && !bitWaits (collAt 9 gatherDesc { whole := [0] }) 0 (collOf gatherDesc) 0
    && ((collOf gatherDesc).suppliers 0).all (fun q => q == (collOf gatherDesc).me || !rankHere (collAt 9 gatherDesc {}) (ranks 9) q)) = true := by
  decide
theorem witness_ack : (!unreached (collWorld gatherDesc {}) (ranks 0) 1
    && ((collOf gatherDesc).chunksTo 1)[0]? == some 0 && ((collOf gatherDesc).chunksTo 1)[1]? == none
    && ({ registered := true, landed := [0] } : Peer).landed.contains 0 && (collOf gatherDesc).chunks == 1
    && ((collOf gatherDesc).atRank 1).piece 0 0 == some (0, 64)) = true := by decide
theorem witness_member (j : Nat) : chunkMember (bump (collAt 9 gatherDesc {})) 0 (entryOf (collAt 9 gatherDesc {}) 0 0) j = some 0 := by
  show physCore _ _ _ (List.getD [0] ((Config.undefined 0 (700 + j)).toNat % 1) 0) = some 0
  rw [Nat.mod_one]; decide
theorem witness_sent : ∃ bytes p, readSent (bump (collAt 9 gatherDesc {})) 0 0 0 (entryOf (collAt 9 gatherDesc {}) 0 0) 1 0 0 64
    = .data 0 0 0x8000 bytes p := by
  have h : (vaHeld (bump (collAt 9 gatherDesc {})) 0 0x8000 64 = false ∧ memberWorks (bump (collAt 9 gatherDesc {})) 0 0 0 = true)
      ∧ (vaRead (bump (collAt 9 gatherDesc {})) 0 0x8000 64).isOk = true := by decide
  unfold readSent
  rw [witness_member]
  have hs : (collOf (entryOf (collAt 9 gatherDesc {}) 0 0).desc).source 1 0 = 0x8000 := by decide
  simp only [hs, Option.getD_some, h.1.1, h.1.2]
  rw [if_neg (by decide)]
  cases hr : vaRead (bump (collAt 9 gatherDesc {})) 0 0x8000 64 with
  | error e => rw [hr] at h; cases h.2
  | ok bytes => exact ⟨bytes, _, rfl⟩
/-- Everything has landed and been acknowledged, and core 0 has nothing left to do. -/
def landedWorld : State := collWorld gatherDesc { landed := [0], peers := [(1, { registered := true, acked := 1 })] }
theorem witness_collective_complete : (peerDone (collOf gatherDesc) (entryOf landedWorld 0 0) 1 && (entryOf landedWorld 0 0).coll.landed.length == 1
    && (entryOf landedWorld 0 0).coll.whole.isEmpty && !vaHeld landedWorld 0 (collOf gatherDesc).bmap (8 * (collOf gatherDesc).bitmapWords)
    && memberCores landedWorld 0 (vfOfCtl landedWorld 0) [0] == [0] && executes landedWorld 0 0 0 && (coreOf landedWorld 0).status == .idle
    && memberWorks landedWorld 0 0 0) = true := by decide

theorem witness_turns : nextTurn { world with agenda := [(3, .event .moduleReset)] } = (3, .event .moduleReset) ∧ nextTurn world = (0, .ctl 0)
    ∧ (ctlOf { world with ctls := [(0, { status := .running })] } 0).status = .running ∧ world.io.boot ≠ .off
    ∧ interruptNow (ctlOf world 0) = none
    ∧ (interruptNow { priv := .u, csr := [(0x344, 0x20), (0x304, 0x20), (0x303, 0x20)] }).isSome = true
    ∧ ¬ Sys2Proof.Claims.EndsRecovery (nextTurn world).2 := by
  refine ⟨by decide, by decide, by decide, by decide, by decide, by decide, ?_⟩
  simp [Sys2Proof.Claims.EndsRecovery, nextTurn, world, State.reset]
theorem witness_decoded_step : (match ctlTranslate (descWorld (leBytes 4 0x0231008B) { pc := 0x200000 }) 0 0x200000 .fetch,
      ctlTranslate (descWorld (leBytes 4 0x0231008B) { pc := 0x200000 }) 0 0x200002 .fetch with
    | .ok a, .ok b => a == 0x200000 && b == 0x200002 | _, _ => false) = true
    ∧ encode (.mGemm { rd := 1, rs1 := 2, rs2 := 3 }) = some (.ctl 0x0231008B) ∧ (Instr.mGemm { rd := 1, rs1 := 2, rs2 := 3 }).wf = true
    ∧ (descWorld (leBytes 4 0x0231008B) {}).mem.readN 0x200000 4 = leBytes 4 0x0231008B
    ∧ (descWorld (leBytes 2 0x4515) {}).mem.readN 0x200000 2 = leBytes 2 0x4515 := by decide

/-! ## Witnesses: clean loads, matrix commands -/

theorem witness_clean : ((withCore {}).cores.all fun e => e.2.recent.isEmpty && e.2.copies.all fun x => x.2.raced.isEmpty) = true
    ∧ (1 : Nat) ≠ 0 ∧ (coreOf (withCore {}) 0).sbuf = [] := by decide
theorem witness_slot_refuses : slotRefuses (bump ownValeWorld) ownValeWorld.core (taggedOf (sRead (bump ownValeWorld) 1)) = false := by decide
theorem witness_trap_lands : (vfOf world (vfOfCore world 0)).tq.fresh = [] ∧ (vfOf world (vfOfCore world 0)).tq.en = false := by decide

/-- A started command. -/
def started (op : Nat) (imm : BitVec 8) : MatrixCmd := { op := op, form := { mf0 with imm := imm }, run := some {} }
theorem witness_started : Sys2Proof.Claims.Started (queueWorld (started 3 0)) 0 0 (started 3 0) {}
    ∧ Sys2Proof.Claims.Started (queueWorld (started 5 1)) 0 0 (started 5 1) {}
    ∧ Sys2Proof.Claims.Started (queueWorld (started 6 0)) 0 0 (started 6 0) {}
    ∧ Sys2Proof.Claims.Started (queueWorld (started 7 0)) 0 0 (started 7 0) {}
    ∧ Sys2Proof.Claims.Started (queueWorld (started 4 0)) 0 0 (started 4 0) {}
    ∧ Sys2Proof.Claims.Started (queueWorld (started 4 1)) 0 0 (started 4 1) {} := by
  refine ⟨?_, ?_, ?_, ?_, ?_, ?_⟩ <;> exact ⟨by decide, by decide, by decide, by decide, fun i => rfl⟩
theorem witness_mgsel_mwr : ((lanes64 (started 6 0).veca ++ lanes64 (started 6 0).vecb).any fun l =>
      (coreOf (queueWorld (started 6 0)) 0).spm.poisoned (ownOffset l.toNat) 256) = false
    ∧ (coreOf (queueWorld (started 7 0)) 0).spm.poisoned (ownOffset ((started 7 0).sval.toNat % 2 ^ 32)) 8 = false := by decide
theorem witness_mdrain : Sys2Proof.Claims.Closed (bankOf (coreOf (queueWorld (started 4 0)) 0) 0)
    ∧ (started 4 0).form.imm.getLsbD 0 = false ∧ 16 * tyWidth ((tyOf (started 4 0).form.ty.toNat).getD .fp32) ≤ drainPitch (started 4 0)
    ∧ (coreOf (queueWorld (started 4 0x10)) 0).spm.poisoned (ownOffset 0) 1024 = false ∧ (started 4 1).form.imm.getLsbD 0 = true := by
  unfold Sys2Proof.Claims.Closed; decide
theorem witness_drain_push (s : State) (k : Nat) (m : MatrixCmd) (bytes : List Byte) (st g : Nat) (h : streamRoom (coreOf s k) st = 0) :
    drainPush s k m bytes st g 512 = (s, g) := by
  simp [drainPush, h]
theorem witness_no_room : streamRoom (coreOf (queueWorld (started 4 1)) 0) 0 = 0 := by decide
/-- Core 0 runs a routine at microword 5000: streams 0 and 1 serve constant slots, microword 5000 is as given. -/
def routineWorld (w : Word) (bound : Bool) : State :=
  withCore { status := .running, mqueue := [{ op := 1, form := { mf0 with imm := 64 }, run := some { pc := 5000 } }], microwords := [(5000, w)]
             stream := [(0, { bound := bound, ring := 8 }), (1, { bound := bound, ring := 8 })] }
/-- A STEP of one k-step of FP16 operands of streams 0 and 1. -/
def stepBits : Word := 1 <<< 50 ||| 1 <<< 44 ||| 1 <<< 40
theorem witness_step_word : (let c := coreOf (routineWorld stepBits true) 0
    let x := stepWord stepBits.toNat
    microword c 5000 == stepBits.toNat && stepBits.toNat / 2 ^ 60 == 0 && microword c 5001 == microEnd.toNat && !stepBad c 0 stepBits.toNat
      && typePair x.aty x.bty == some (1, .fp32) && x.cop == 0 && x.kcnt == 1 && !x.aScaled && !x.bScaled && x.asrc < 8 && x.bsrc < 8
      && !c.mmode.blk8 && sourceReady c x.asrc == some true && sourceReady c x.bsrc == some true && !headPoisoned c x.asrc
      && !headPoisoned c x.bsrc && !(streamOf c 2).freeing) = true := by decide
theorem witness_routine_end : (match runRoutine (bump mcallWorld) { op := 1, form := { mf0 with imm := 64 }, run := some { pc := 4095 } }
      (coreOf mcallWorld 0) { pc := 4095 } 4096 with | .done _ _ => true | _ => false) = true
    ∧ (match runRoutine (bump (routineWorld stepBits true)) { op := 1, form := { mf0 with imm := 64 }, run := some { pc := 5000 } }
      { coreOf (routineWorld stepBits true) 0 with stream := [(0, { bound := true, ring := 0 }), (1, { bound := true, ring := 8 })] }
      { pc := 5000 } 4096 with | .wait _ _ => true | _ => false) = true := by decide
/-- A LOOP of count 2 to 5001, and an ADV of 3 rows before it. -/
theorem witness_loop_adv : (let w := (0x1000000000000000 : Nat) + 2 ^ 32 + 5001
    microword (coreOf (routineWorld (BitVec.ofNat 64 w) true) 0) 5000 == w && w / 2 ^ 60 == 1 && w / 2 ^ 48 % 256 == 0 && w / 2 ^ 13 % 2 ^ 19 == 0
      && 5000 ≤ w % 8192) = true
    ∧ (let w := (0x2000000000000000 : Nat) + 3 * 2 ^ 32
    microword (coreOf (routineWorld (BitVec.ofNat 64 w) true) 0) 5000 == w && w / 2 ^ 60 == 2 && w / 2 ^ 48 % 128 == 0 && w % 2 ^ 32 == 0
      && signedOf 16 (w / 2 ^ 32 % 65536) == 3) = true := by decide
/-- A STEP that takes its A operand from the gather latch follows an ADV. -/
theorem witness_latch_source : advSource { coreOf (routineWorld 0x2000000300000000 true) 0 with
    microwords := [(5000, 0x2000000300000000), (5001, stepBits ||| 8 <<< 54)] } { op := 1, form := mf0 } { pc := 5000 } false = 8 := by decide

/-! ## Witnesses: copies -/

/-- Core 0 with a copy of operation op over descriptor d as entry 3. -/
def copying (op : Nat) (d : List Byte) : State :=
  withCore { copies := [(3, { desc := d, id := 0, op := op })], ord := [3], sq := [.hole 0 0 16 none], ring := [(2, { cfg := true, sz := 4, ns := 3, free := 4 })] }
/-- The unit lies between scratchpads whose ports answer. -/
def betweenSpm (s : State) (m : Move) : Bool :=
  match m.src, m.dst with
  | .spm i _, .spm j _ => m.nib.isNone && !portDead s 0 i && !portDead s 0 j
  | _, _ => false
/-- Entry 3 of core 0 may go on, and f holds of it. -/
def copyMoves (s : State) (f : CopyEntry → Bool) : Bool :=
  match (coreOf s 0).copies.find? 3 with
  | none => false
  | some x => (coreOf s 0).status != .frozen && (coreOf s 0).replay.isEmpty && (coreOf s 0).replayed.isEmpty && !x.faulted && !x.bySeq
      && x.tile.isNone && ((copyDesc x.desc).rmode == 0 || x.slot.isSome) && !behindCopy (bump s) 0 3 x && f x
/-- 16 bytes moved within the own scratchpad; and the same with two dimensions, rows 64 bytes apart at the source. -/
def lineCopy : List Byte := copyWords 0x800000003FC00000 0x800000003FC00100 10 16
def boxCopy : List Byte :=
  leBytes 8 0x800000003FC00000 ++ leBytes 8 0x800000003FC00100 ++ leBytes 8 (10 + 16) ++ leBytes 2 16 ++ leBytes 2 2 ++ List.replicate 12 0
    ++ leBytes 4 64 ++ List.replicate 28 0
theorem witness_cp_moves : (copyMoves (copying 1 lineCopy) fun x => x.cls != 1 && x.done == 0 && x.early == []
      && !replaysByLine (bump (copying 1 lineCopy)) 0 x && (slotMoves (bump (copying 1 lineCopy)) 0 x).length == 16
      && (slotMoves (bump (copying 1 lineCopy)) 0 x).all (betweenSpm (copying 1 lineCopy))) = true := by decide
theorem witness_cp_box : (let d := copyDesc boxCopy
    d.rmode == 0 && d.nd == 1 && d.units.getD 0 0 == 16 && d.n.getD 1 0 == 2 && d.d.getD 0 0 == 64 && !d.sdst) = true := by decide
theorem witness_move_global : ((runWorld {}).vfs.all (fun f => !f.2.dbEn && f.2.tier.isNone && f.2.hostSections.isEmpty)
    && (coreOf (runWorld { tlb := [tlbAll] }) 0).tlb.find? (·.covers (vfOfCore (runWorld { tlb := [tlbAll] }) 0) 0xFFF8) == some tlbAll
    && tlbAll.w && 0xFFF8 % 8 == 0) = true := by decide
/-- A multicast of 16 bytes to members 0 and 1 of gang 5. -/
def castCopy : List Byte := copyWords 0x800000003FC00000 0x8000000000000000 (10 + 5 * 65536 + 3 * 2 ^ 32) 16
theorem witness_cpm_moves : (copyMoves (copying 2 castCopy) fun x => (copyDesc x.desc).rmode == 0 && x.data.isNone && x.delivered == []
      && x.targets == [] && (copyDesc x.desc).targets == [0, 1] && (copyDesc x.desc).targets.all (fun n => match physCore (copying 2 castCopy) 0 0 n with
        | some j => !portDead (copying 2 castCopy) 0 j | none => false)
      && (targetMoves (bump (copying 2 castCopy)) 0 x 0 none).length == 16
      && (targetMoves (bump (copying 2 castCopy)) 0 x 0 none).all (betweenSpm (copying 2 castCopy))) = true := by decide
/-- A `cpa` of four integers to the own scratchpad. -/
def addCopy : List Byte := copyWords 0x800000003FC00000 0x800000003FC00100 8 4
theorem witness_cpa_moves : (copyMoves (copying 5 addCopy) fun x => x.done == 0 && (match runLines 0 (fun s l => runAdds 0 x.hazard x.f s [] 0 l)
      x.tag0 (bump (copying 5 addCopy)) x.flags 0 (lineRuns (placed 0 (slotMoves (bump (copying 5 addCopy)) 0 x))) with
    | (u, _, .all) => !parkedWrites u (vfOfCore u 0)
    | _ => false)) = true := by decide
theorem witness_sqfill_moves : (copyMoves (copying 13 lineCopy) fun x => (unitOffsets (bump (copying 13 lineCopy)) 0 x).all fun u =>
    match sidePlace (bump (copying 13 lineCopy)) 0 (copyDesc x.desc).src u.1 with
    | .spm i _ => !portDead (copying 13 lineCopy) 0 i | _ => false) = true := by decide

/-! ## Witnesses: macro-instructions, the scheduler, save areas -/

/-- Control core 0 holds entry 0 in the state given, and names it and no other in x1 to x3. -/
def namedWorld (x : EntryState) : State :=
  { entryWorld { stoppedEntry with state := x } with
    ctls := [(0, { x := [(2, 0x1000)], issued := 1, macros := [(0, { stoppedEntry with state := x })] })] }
theorem witness_names : ((List.all [.completed, .stopped, .killed, .free, .running, .stopping, .killing] fun (x : EntryState) =>
      match named (curCtl (namedWorld x)) (xGet (curCtl (namedWorld x)) 1) with | .entry e m => e == 0 && m.state == x | _ => false)
    && (named (curCtl (namedWorld .running)) (xGet (curCtl (namedWorld .running)) 2) matches .future)
    && decide (stoppedEntry.prgs.length ≤ stoppedEntry.members.length)) = true := by decide
/-- The selectors of `m.stat` (R265), by a register that holds them. -/
theorem witness_selectors : (List.all [0, 1, 2, 3, 4, 5, 6, 0x1000, 0x1000 + 16 * 191 + 9, 0x2000, 0x2000 + 65535] fun (n : Nat) =>
    (xGet { x := [(3, BitVec.ofNat 64 n)] } 3).toNat == n) = true := by decide
theorem witness_fence : ((curCtl (namedWorld .killed)).macros.any fun e => outstanding e.2) = false
    ∧ parkedWrites (namedWorld .killed) (vfOfCtl (namedWorld .killed) 0) = false
    ∧ ((curCtl (namedWorld .killing)).macros.any fun e => outstanding e.2) = true := by decide
theorem witness_reached (r : Nat) : unreached barrierWorld [] r = false := by
  simp [unreached, participant, numAt, leNat, barrierWorld, descWorld, world, State.reset]
theorem witness_mon_free : ctlHeld (bump (monWorld [])) 0 0x200000 .load = false := by decide
theorem witness_held_dispatch : (queueDispatch { queued with reached := 7 } [{ queued with ctl := 1, reached := 7 }]).map (·.ctl) = [0, 1]
    ∧ (queueDispatch { queued with ctl := 1, reached := 7 } [{ queued with reached := 7 }]).map (·.ctl) = [0, 1]
    ∧ (queueDispatch { queued with reached := 7 } [{ queued with ctl := 1, reached := 6 }]).map (·.ctl) = [1, 0] := by decide
theorem witness_kern_boundary : ownElems (stepWorld (tileDesc 1 1) { ready := true, bodyDone := true } {}) 0 = false
    ∧ (coreOf (stepWorld (tileDesc 1 1) { ready := true, bodyDone := true, fromStart := true } {}) 0).seq.fromStart = true := by decide
theorem witness_complete_commits : (memberCores (endWorld { stoppedEntry with state := .running } {}) 0 0 [0]).Nodup
    ∧ (memberCores (endWorld { stoppedEntry with state := .running } { pend := [(0x200000, 7)] }) 0 0 [0]).all (fun j =>
      (coreOf (endWorld { stoppedEntry with state := .running } { pend := [(0x200000, 7)] }) j).sbuf == []
        && bufferedGlobal (coreOf (endWorld { stoppedEntry with state := .running } { pend := [(0x200000, 7)] }) j) == [(0x200000, 7)]) = true
    ∧ stoppedEntry.op ≠ 4 := by decide
/-- A member that holds the entry only as pending behind another. -/
def behindWorld (x : CoreStatus) : State :=
  { entryWorld { stoppedEntry with state := .stopping } with cores := [(0, { status := x, seq := { pend := some kernDispatch } })] }
theorem witness_behind : (coreOf (behindWorld .running) 0).status ≠ .stopped ∧ sameDispatch kernDispatch 0 0 = true
    ∧ (coreOf (behindWorld .stopped) 0).status = .stopped ∧ memberCores (behindWorld .running) 0 0 [0] = [0] := by decide

theorem witness_quantum_cases : asleep (schedWorld true boundSlot) 0 = false
    ∧ asleep { schedWorld true boundSlot with ctls := [(0, { status := .waiting, sleepUntil := some 9 })] } 0 = true
    ∧ (groupVales (schedWorld true boundSlot) 0).all (fun v => !leaving (schedWorld true boundSlot) 0 v) = true
    ∧ runnable { schedWorld true boundSlot with vfs := [(1, { launch := some (launchOf [0]) })] } 0 0 = false
    ∧ (1 : Nat) ∈ (slotOf (schedWorld true { boundSlot with newcomers := [1] }) 0).newcomers
    ∧ (slotOf (schedWorld true boundSlot) 0).newcomers = [] := by decide
theorem witness_poisoned_preload : bankImageBad { schedWorld true boundSlot with
      mem := Mem.poisonWord {} ((saveBase (schedWorld true boundSlot) 1 0 + coreArea 0 + 0x400000) / 8) } 1 0 savedImage = true
    ∧ bankImageBad (schedWorld true boundSlot) 1 0 savedImage = false := by decide
theorem witness_core_area : ({} : Mem).wf = true ∧ savedImage.cores.all (fun e => e.2.spm.wf && e.2.spm.undef == []
    && e.2.barriers.all (·.1 < 8) && e.2.copies.all (·.1 < 32) && e.2.loads.all (·.1 < 64) && e.2.atomics.all (·.1 < 16)) = true
    ∧ coreArea 0 % 8 = 0 ∧ ({} : Core).was ≠ .stopped
    ∧ (∀ l, (vfOf (ctxWorld boundSlot {}) 5).launch = some l → l.pending = true) := by
  refine ⟨by decide, by decide, by decide, by decide, fun l h => ?_⟩
  have : (vfOf (ctxWorld boundSlot {}) 5).launch = none := by decide
  rw [this] at h; cases h

/-! ## Witnesses: the host, errors, translations, boundaries -/

theorem witness_launch_tables : tableHeld (hostWorld (startBytes 0x4001) readyVf) 0 0 = false
    ∧ pulling (hostWorld (startBytes 0x4001) readyVf) = false
    ∧ (imageRanges (hostWorld (imageBytes 1 0) {}) 0 0).any (fun r => vaHeld (hostWorld (imageBytes 1 0) {}) 0 r.1 r.2) = false
    ∧ attestHeld (bump attestWorld) 0 0 = false ∧ rangeWalkHeld mapped 0 0xFFC0 128 = false := by decide
theorem witness_steady : ({ mapped with io := { mapped.io with steady := true } }).io.steady = true ∧ (2 : Nat) < (3 : Int).natAbs
    ∧ (2 : Int).natAbs ≤ 2 := by decide

theorem witness_lines : (firmwareLine mapped 0x200000 == false && firmwareLine { mapped with vfs := [] } 0x200000
    && (ownerOf { mapped with vfs := [] } 0x200000).isNone && mapped.io.boot == .running
    && bitmapOwner { mapped with vfs := [(0, { dbEn := true, dbm := 0x300000 })] } 0x300000 == some 0
    && (bitmapOwner mapped 0x300000).isNone) = true := by decide
theorem witness_parity : parityOnly (.memory 0) = false ∧ parityOnly (.valeTlb 0 0 0) = true := by decide
theorem witness_poisoned_tiles : (let s := stepWorld sortDesc { ready := true, buf := Mem.writeN {} 0 [1] } {}
    (coreOf s 0).seq.buf.cells != [] && decide ((macroOf sortDesc []).rgo ≤ 0) && decide ((macroOf sortDesc []).op ≠ 8)) = true := by decide

/-- Core 0 waits for its bundle's translation in the walk of walker 0. -/
def walkWorld : State := askWorld { walkers := [(0, { vf := 0, va := 0, waiters := [(0, 0x80)] })] }
theorem witness_walk_from : (match walkStart (bump walkWorld) 0 0 0 with
    | some (table, level) => (match walkFrom (bump walkWorld) 0 0 table level with | .ok e => (leafCheck 3 e).isNone | _ => false)
        && (match walkFrom (bump walkWorld) 0 0x20000 table level with | .bad f => f.cause < 0x10 | _ => false)
    | none => false) = true ∧ (vfOf walkWorld (vfOfCore walkWorld 0)).tq.en = false
    ∧ (valeOf walkWorld 0).missQueue = [] ∧ (valeOf walkWorld 0).lostRead = none := by decide
theorem witness_fill_plain : (let s := runWorld { tlb := [tlbAll], loads := [(0, {})] }
    (List.range 4).all (fun g => (copyRaces s none (0x200000 / 32 + g)).isEmpty) && (curCore s).pend == [] && (curCore s).pendPoison == []
      && (curCore s).tlb.find? (·.covers (vfOfCore s 0) 0) == some tlbAll && tlbAll.phys 0 / 128 * 128 == 0x200000) = true := by decide

/-- The last of two members arrives while the first's `phase` is there and core 2 waits to join. -/
def lastArrival : State :=
  arrivalWorld 0 { owner := some 1, members := [0, 1], arrived := [(1, 2)], joiners := [2], leavers := [1] }
theorem witness_last_arrival : ((gangOf lastArrival 0 5).members.all (fun m => m == 0 || (gangOf lastArrival 0 5).arrived.any (·.1 == m))
    && (gangOf lastArrival 0 5).tags.isEmpty && (gangOf lastArrival 0 5).committing.isNone && (gangOf lastArrival 0 5).commits == []
    && (gangOf lastArrival 0 5).arrived.any (fun a => a.2 == 2)) = true
    ∧ ¬ ((0 : Nat) = 2 ∨ (0 : Nat) = 3 ∨ ∃ a ∈ (gangOf (arrivalWorld 0 { members := [0] }) 0 5).arrived, a.2 = 2 ∨ a.2 = 3) := by decide
theorem witness_frozen_commit : ctxFrozen { commitWorld with contexts := [(0, { status := .freezing })] } 0 0 = true := by decide

/-! ## Witnesses: tile bodies, deliveries -/

/-- A product of one tile: 64 by 64 by 64 of FP16, C of FP32. -/
def productDesc (ty : Nat) : List Byte :=
  leBytes 8 (1 + 256 + 7 * 2 ^ 24 + 2 ^ 48) ++ List.replicate 24 0 ++ leBytes 2 64 ++ leBytes 2 64 ++ leBytes 2 64 ++ List.replicate 26 0
    ++ tensorBytes 0x10000 ty 64 64 1 1 64 64 ++ tensorBytes 0x20000 ty 64 64 1 1 64 64 ++ tensorBytes 0x30000 0 64 64 1 1 64 64
theorem witness_extents : (let m := macroOf (productDesc 1) []
    (m.span 0 2).2 - (m.span 0 2).1 ≤ 128 && (m.span 0 1).2 - (m.span 0 1).1 ≤ 128 && decide (0 < (m.span 0 0).2 - (m.span 0 0).1)
      && (m.tn 0).sbase == 0 && (m.tn 1).sbase == 0 && m.p0 % 2 == 0 && (indicesOf 0 m.counts).getD 0 0 == 0 && lastOfChain m 0
      && typePair (m.tn 0).ty (m.tn 1).ty == some (1, .fp32) && (m.tn 2).width == 32
      && typePair ((macroOf (productDesc 8) []).tn 0).ty ((macroOf (productDesc 8) []).tn 1).ty == some (2, .int32)) = true := by decide
/-- An `m.gath` of 16 rows of 64 bytes from a table of 8 rows; an `m.scat` and an `m.rcpy` of the same tensors. -/
def rowsDesc (op : Nat) : List Byte :=
  leBytes 8 (op + 256 + 7 * 2 ^ 24 + 2 ^ 48) ++ List.replicate 24 0 ++ leBytes 2 64 ++ leBytes 2 16 ++ List.replicate 28 0
    ++ tensorBytes 0x10000 9 64 8 1 1 64 64 ++ tensorBytes 0x20000 11 16 1 1 1 64 64 ++ tensorBytes 0x30000 9 64 16 1 1 64 64
theorem witness_rows : (let m := macroOf (rowsDesc 5) []
    m.op == 5 && (m.span 0 1).1 == 0 && decide (0 < (m.span 0 1).2) && !tilePending (stepWorld (rowsDesc 5) {} {}) 0 1 0
      && (m.tn 0).ty != 5 && (m.tn 0).size 1 == 8 && indexAt (stepWorld (rowsDesc 5) {} {}) 0 m 0 0 == 0
      && indexAt (stepWorld (rowsDesc 5) { buf := Mem.writeN {} (bufAt 0 1 false) [8] } {}) 0 m 0 0 == 8
      && (scatRows (stepWorld (rowsDesc 6) {} {}) 0 (macroOf (rowsDesc 6) []) 0 0).length * 64 * 4 ≤ 2 ^ 40
      && (macroOf (rowsDesc 9) []).op == 9 && ((macroOf (rowsDesc 9) []).tn 2).ty == 9 && ((macroOf (rowsDesc 9) []).tn 0).ty == 9
      && (macroOf (rowsDesc 10) []).op == 10) = true := by decide
theorem witness_sort_digits : (let m := macroOf sortDesc []
    sortStep m 0 == (0, 0, 0) && (m.tn 0).width == 8 && decide (0 < m.counts.getD 0 0) && (m.tn 0).ty == 9) = true := by decide
/-- A sequence of the sweep that has its queries; an engine whose next key page core 0 uses later only. -/
theorem witness_asked : ({ seq0 with asked := true, queries := [] } : ColSeq).asked = true
    ∧ ((passOf 1).keyOnly (colWorld (some (passOf 1)) []) entry0 false [0]) = []
    ∧ ({ entries := [] } : Delivery).key = none := by decide
theorem witness_key_only : ({ passOf 1 with entries := [entry0, { entry0 with h := 1, vpbn := 0x22 }] }).keyOnly
    (colWorld (some { passOf 1 with entries := [entry0, { entry0 with h := 1, vpbn := 0x22 }] }) []) entry0 false [] = [0] := by decide
theorem witness_collective_tags : rankHere (collAt 9 gatherDesc {}) (ranks 9) 1 = false ∧ (1 : Nat) ≠ (collOf gatherDesc).me
    ∧ (1, 7) ∈ ({ tags := [(1, 7)] } : Coll).tags := by decide
theorem witness_power_free : (State.reset.io.ps = 2 → anyBound State.reset = false) ∧ anyBound world = true ∧ world.io.ps ≠ 2 := by decide

/-! ## Decoding: words laid out from the tables of R128 to R141 -/

/-- Every code of the list decodes to the instruction beside it, which is well-formed and has that code. -/
def Decodes (l : List (Code × Instr)) : Prop :=
  ∀ e ∈ l, decodeCode e.1 = some e.2 ∧ e.2.wf = true ∧ encode e.2 = some e.1

theorem test_decode_guarded_0 : Decodes [
    (.s 0x0C108501 none, .add { pn := 0, pg := 3, sb := 1, sa := 2, sd := 5 }),
    (.s 0x60C25202 none, .sub { pn := 1, pg := 8, sb := 12, sa := 9, sd := 18 }),
    (.s 0x35741F03 none, .sAnd { pn := 0, pg := 13, sb := 23, sa := 16, sd := 31 }),
    (.s 0x4A25EC04 none, .sOr { pn := 1, pg := 2, sb := 34, sa := 23, sd := 44 }),
    (.s 0x1ED7B905 none, .xor { pn := 0, pg := 7, sb := 45, sa := 30, sd := 57 }),
    (.s 0x73894606 none, .shl { pn := 1, pg := 12, sb := 56, sa := 37, sd := 6 }),
    (.s 0x043B1307 none, .shr { pn := 0, pg := 1, sb := 3, sa := 44, sd := 19 }),
    (.s 0x58ECE008 none, .sra { pn := 1, pg := 6, sb := 14, sa := 51, sd := 32 }),
    (.s 0x2D9EAD09 none, .mul { pn := 0, pg := 11, sb := 25, sa := 58, sd := 45 }),
    (.s 0x42407A0A none, .mulh { pn := 1, pg := 0, sb := 36, sa := 1, sd := 58 }),
    (.s 0x16F2070B none, .mulhu { pn := 0, pg := 5, sb := 47, sa := 8, sd := 7 }),
    (.s 0x6BA3D40C none, .min { pn := 1, pg := 10, sb := 58, sa := 15, sd := 20 })] := by
  unfold Decodes; decide
theorem test_decode_guarded_1 : Decodes [
    (.s 0x3C55A10D none, .max { pn := 0, pg := 15, sb := 5, sa := 22, sd := 33 }),
    (.s 0x51076E0E none, .minu { pn := 1, pg := 4, sb := 16, sa := 29, sd := 46 }),
    (.s 0x25B93B0F none, .maxu { pn := 0, pg := 9, sb := 27, sa := 36, sd := 59 }),
    (.s 0x64087E19 none, .clz { pn := 1, pg := 9, sb := 0, sa := 33, sd := 62 }),
    (.s 0x64087E1A none, .popc { pn := 1, pg := 9, sb := 0, sa := 33, sd := 62 }),
    (.s 0x7C10831B none, .sel { pn := 1, pg := 15, sb := 1, sa := 2, sd := 3 })] := by
  unfold Decodes; decide
theorem test_decode_immediates_0 : Decodes [
    (.s 0x80002810 none, .addi { imm := 0x800, ext := none, sa := 0, sd := 40 }),
    (.s 0x7FFFC010 (some 0xABCDEF), .addi { imm := 0x7FF, ext := some 0xABCDEF, sa := 63, sd := 0 }),
    (.s 0x80106911 none, .andi { imm := 0x801, ext := none, sa := 1, sd := 41 }),
    (.s 0x7FFFC111 (some 0xABCDEF), .andi { imm := 0x7FF, ext := some 0xABCDEF, sa := 63, sd := 1 }),
    (.s 0x8020AA12 none, .ori { imm := 0x802, ext := none, sa := 2, sd := 42 }),
    (.s 0x7FFFC212 (some 0xABCDEF), .ori { imm := 0x7FF, ext := some 0xABCDEF, sa := 63, sd := 2 }),
    (.s 0x8030EB13 none, .xori { imm := 0x803, ext := none, sa := 3, sd := 43 }),
    (.s 0x7FFFC313 (some 0xABCDEF), .xori { imm := 0x7FF, ext := some 0xABCDEF, sa := 63, sd := 3 }),
    (.s 0x03F24A14 none, .shli { imm := 63, ext := none, sa := 9, sd := 10 }),
    (.s 0x03E24A15 none, .shri { imm := 62, ext := none, sa := 9, sd := 10 }),
    (.s 0x03D24A16 none, .srai { imm := 61, ext := none, sa := 9, sd := 10 }),
    (.s 0xFFF01117 (some 1), .li { imm := 0xFFF, ext := some 1, sa := 0, sd := 17 })] := by
  unfold Decodes; decide
theorem test_decode_immediates_1 : Decodes [
    (.s 0xFFF01118 (some 1), .lih { imm := 0xFFF, ext := some 1, sa := 0, sd := 17 }),
    (.s 0x05A35720 none, .cmp { sb := 45, sa := 6, cc := 5, pd := 7 }),
    (.s 0x80033721 none, .cmpi { imm := 0x400, ext := none, sa := 6, cc := 3, pd := 7 }),
    (.s 0x00945622 none, .plog { tt := 9, pb := 4, pa := 5, pd := 6 })] := by
  unfold Decodes; decide
theorem test_decode_memory_0 : Decodes [
    (.s 0xFFE0C430 none, .ld { imm := 511, ext := none, sx := 1, sz := 2, sa := 3, sd := 4 }),
    (.s 0xFFE0C430 (some 0x123456), .ld { imm := 511, ext := some 0x123456, sx := 1, sz := 2, sa := 3, sd := 4 }),
    (.s 0x7FB14631 none, .st { imm := 255, ext := none, sx := 0, sz := 3, sa := 5, sd := 6 }),
    (.s 0x7FB14631 (some 0x123456), .st { imm := 255, ext := some 0x123456, sx := 0, sz := 3, sa := 5, sd := 6 }),
    (.s 0x8051C834 none, .ldg { imm := 256, ext := none, sx := 1, sz := 1, sa := 7, sd := 8 }),
    (.s 0x8051C834 (some 0x123456), .ldg { imm := 256, ext := some 0x123456, sx := 1, sz := 1, sa := 7, sd := 8 }),
    (.s 0x00824A35 none, .stg { imm := 1, ext := none, sx := 0, sz := 0, sa := 9, sd := 10 }),
    (.s 0x00824A35 (some 0x123456), .stg { imm := 1, ext := some 0x123456, sx := 0, sz := 0, sa := 9, sd := 10 }),
    (.s 0x0102CC36 none, .probe { imm := 2, ext := none, sx := 0, sz := 0, sa := 11, sd := 12 }),
    (.s 0x0102CC36 (some 0x123456), .probe { imm := 2, ext := some 0x123456, sx := 0, sz := 0, sa := 11, sd := 12 }),
    (.s 0x01A34037 none, .sqld { imm := 3, ext := none, sx := 0, sz := 2, sa := 13, sd := 0 }),
    (.s 0x01A34037 (some 0x123456), .sqld { imm := 3, ext := some 0x123456, sx := 0, sz := 2, sa := 13, sd := 0 })] := by
  unfold Decodes; decide
theorem test_decode_memory_1 : Decodes [
    (.s 0x15798332 none, .lds { off := 0xabc, sx := 1, sz := 2, sd := 3 }),
    (.s 0x1FF0C433 none, .sts { off := 0xff8, sx := 0, sz := 3, sd := 4 }),
    (.s 0xA1E7E038 none, .amo { sz := 2, aop := 8, sb := 30, sa := 31, sd := 32 }),
    (.s 0xC218A339 none, .cas { sz := 3, aop := 0, sb := 33, sa := 34, sd := 35 })] := by
  unfold Decodes; decide
theorem test_decode_control_0 : Decodes [
    (.s 0x80001540 none, .pbr 0x80001 none 5),
    (.s 0x00003540 (some 0xFFFFFF), .pbr 3 (some 0xFFFFFF) 5),
    (.s 0x00032641 none, .pbrr 50 6),
    (.s 0x0000BB42 none, .br 11 1 3),
    (.s 0x002CA743 none, .brl 44 10 0 7),
    (.s 0xBEEF5644 none, .loop 0xBEEF 21 2),
    (.s 0x00000045 none, .halt),
    (.s 0x03F00050 none, .gjoin 63),
    (.s 0x03E00051 none, .gleave 62),
    (.s 0x03D00052 none, .gbar 61),
    (.s 0x03C00053 none, .garr 60),
    (.s 0x03B00054 none, .gwait 59)] := by
  unfold Decodes; decide
theorem test_decode_control_1 : Decodes [
    (.s 0x03A00055 none, .phase 58),
    (.s 0x01F00056 none, .sync 0x1F),
    (.s 0x00032257 none, .waita 34 12),
    (.s 0x000E0058 none, .sleep 56),
    (.s 0x00000159 none, .rdns 1),
    (.s 0x0000025A none, .rdnj 2),
    (.s 0x0370035B none, .csrr 3 0x037),
    (.s 0x0107805C none, .csrw 0x010 30),
    (.s 0xFED0005D none, .trap 0xFED),
    (.s 0x1230005E none, .brk 0x123)] := by
  unfold Decodes; decide
theorem test_decode_vector_arithmetic_0 : Decodes [
    (.v 0x038F01445301, .vadd { fn := 0, sat := 1, rm := 3, ty := 1, vm := 7, vc := 0, vb := 20, va := 17, vd := 19 }),
    (.v 0x038F01445302, .vsub { fn := 0, sat := 1, rm := 3, ty := 1, vm := 7, vc := 0, vb := 20, va := 17, vd := 19 }),
    (.v 0x038F01445303, .vmul { fn := 0, sat := 1, rm := 3, ty := 1, vm := 7, vc := 0, vb := 20, va := 17, vd := 19 }),
    (.v 0x029779445304, .vfma { fn := 0, sat := 1, rm := 1, ty := 2, vm := 7, vc := 30, vb := 20, va := 17, vd := 19 }),
    (.v 0x029779445305, .vfms { fn := 0, sat := 1, rm := 1, ty := 2, vm := 7, vc := 30, vb := 20, va := 17, vd := 19 }),
    (.v 0x006703745306, .vmin { fn := 0, sat := 0, rm := 0, ty := 12, vm := 7, vc := 0, vb := 55, va := 17, vd := 19 }),
    (.v 0x006703745307, .vmax { fn := 0, sat := 0, rm := 0, ty := 12, vm := 7, vc := 0, vb := 55, va := 17, vd := 19 }),
    (.v 0x025700045308, .vabs { fn := 0, sat := 1, rm := 0, ty := 10, vm := 7, vc := 0, vb := 0, va := 17, vd := 19 }),
    (.v 0x025700045309, .vneg { fn := 0, sat := 1, rm := 0, ty := 10, vm := 7, vc := 0, vb := 0, va := 17, vd := 19 }),
    (.v 0x000701545310, .vand { fn := 0, sat := 0, rm := 0, ty := 0, vm := 7, vc := 0, vb := 21, va := 17, vd := 19 }),
    (.v 0x000701545311, .vor { fn := 0, sat := 0, rm := 0, ty := 0, vm := 7, vc := 0, vb := 21, va := 17, vd := 19 }),
    (.v 0x000701545312, .vxor { fn := 0, sat := 0, rm := 0, ty := 0, vm := 7, vc := 0, vb := 21, va := 17, vd := 19 })] := by
  unfold Decodes; decide
theorem test_decode_vector_arithmetic_1 : Decodes [
    (.v 0x044703F45313, .vshl { fn := 1, sat := 0, rm := 0, ty := 8, vm := 7, vc := 0, vb := 63, va := 17, vd := 19 }),
    (.v 0x044703F45314, .vshr { fn := 1, sat := 0, rm := 0, ty := 8, vm := 7, vc := 0, vb := 63, va := 17, vd := 19 }),
    (.v 0x044703F45315, .vsra { fn := 1, sat := 0, rm := 0, ty := 8, vm := 7, vc := 0, vb := 63, va := 17, vd := 19 }),
    (.v 0x104700344618, .vcmp { fn := 4, sat := 0, rm := 0, ty := 8, vm := 7, vc := 0, vb := 3, va := 17, vd := 6 }),
    (.v 0x032730045320, .vcvt { fn := 0, sat := 1, rm := 2, ty := 4, vm := 7, vc := 12, vb := 0, va := 17, vd := 19 }),
    (.v 0xA44F5D645321, .vrq { fn := 41, sat := 0, rm := 0, ty := 9, vm := 7, vc := 23, vb := 22, va := 17, vd := 19 }),
    (.v 0x000700045328, .vexp2 { fn := 0, sat := 0, rm := 0, ty := 0, vm := 7, vc := 0, vb := 0, va := 17, vd := 19 }),
    (.v 0x000700045329, .vtanh { fn := 0, sat := 0, rm := 0, ty := 0, vm := 7, vc := 0, vb := 0, va := 17, vd := 19 }),
    (.v 0x00070004532A, .vlgst { fn := 0, sat := 0, rm := 0, ty := 0, vm := 7, vc := 0, vb := 0, va := 17, vd := 19 }),
    (.v 0x00070004532B, .vrcp { fn := 0, sat := 0, rm := 0, ty := 0, vm := 7, vc := 0, vb := 0, va := 17, vd := 19 }),
    (.v 0x00070004532C, .vrsqrt { fn := 0, sat := 0, rm := 0, ty := 0, vm := 7, vc := 0, vb := 0, va := 17, vd := 19 })] := by
  unfold Decodes; decide
theorem test_decode_vector_rest_0 : Decodes [
    (.v 0x010760045330, .vredsum { fn := 0, sat := 0, rm := 2, ty := 0, vm := 7, vc := 24, vb := 0, va := 17, vd := 19 }),
    (.v 0x006764045331, .vredmax { fn := 0, sat := 0, rm := 0, ty := 12, vm := 7, vc := 25, vb := 0, va := 17, vd := 19 }),
    (.v 0x006764045332, .vredmin { fn := 0, sat := 0, rm := 0, ty := 12, vm := 7, vc := 25, vb := 0, va := 17, vd := 19 }),
    (.v 0x000700045333, .vstat { fn := 0, sat := 0, rm := 0, ty := 0, vm := 7, vc := 0, vb := 0, va := 17, vd := 19 }),
    (.v 0x00076DA45338, .vperm { fn := 0, sat := 0, rm := 0, ty := 0, vm := 7, vc := 27, vb := 26, va := 17, vd := 19 }),
    (.v 0x040702845339, .vbcast { fn := 1, sat := 0, rm := 0, ty := 0, vm := 7, vc := 0, vb := 40, va := 17, vd := 19 }),
    (.v 0x00070004533A, .vmov { fn := 0, sat := 0, rm := 0, ty := 0, vm := 7, vc := 0, vb := 0, va := 17, vd := 19 }),
    (.v 0x1C0701C4533B, .vsel { fn := 7, sat := 0, rm := 0, ty := 0, vm := 7, vc := 0, vb := 28, va := 17, vd := 19 }),
    (.v 0xFC0701D4533C, .vslide { fn := 63, sat := 0, rm := 0, ty := 0, vm := 7, vc := 0, vb := 29, va := 17, vd := 19 }),
    (.v 0x080700345340, .vld { fn := 2, sat := 0, rm := 0, ty := 0, vm := 7, vc := 0, vb := 3, va := 17, vd := 19 }),
    (.v 0x040700445341, .vst { fn := 1, sat := 0, rm := 0, ty := 0, vm := 7, vc := 0, vb := 4, va := 17, vd := 19 }),
    (.v 0x040701F45342, .vgth { fn := 1, sat := 0, rm := 0, ty := 0, vm := 7, vc := 0, vb := 31, va := 17, vd := 19 })] := by
  unfold Decodes; decide
theorem test_decode_vector_rest_1 : Decodes [
    (.v 0x080702045343, .vsct { fn := 2, sat := 0, rm := 0, ty := 0, vm := 7, vc := 0, vb := 32, va := 17, vd := 19 }),
    (.v 0x205F8A144044, .vamo { fn := 8, sat := 0, rm := 0, ty := 11, vm := 7, vc := 34, vb := 33, va := 17, vd := 0 }),
    (.v 0x4C4700045348, .vunp3 { fn := 19, sat := 0, rm := 0, ty := 8, vm := 7, vc := 0, vb := 0, va := 17, vd := 19 }),
    (.v 0x025792345349, .vtacc { fn := 0, sat := 1, rm := 0, ty := 10, vm := 7, vc := 36, vb := 35, va := 17, vd := 19 }),
    (.v 0x018F9A54534A, .vdp8 { fn := 0, sat := 0, rm := 3, ty := 1, vm := 7, vc := 38, vb := 37, va := 17, vd := 19 }),
    (.v 0x04570004534B, .vpack { fn := 1, sat := 0, rm := 0, ty := 10, vm := 7, vc := 0, vb := 0, va := 17, vd := 19 }),
    (.v 0x041F0004534C, .vwide { fn := 1, sat := 0, rm := 0, ty := 3, vm := 7, vc := 0, vb := 0, va := 17, vd := 19 }),
    (.v 0x26EF027A2A50, .vxadd { fn := 9, sat := 1, rm := 1, ty := 13, vm := 7, vc := 0, vb := 39, va := 40, vd := 42 }),
    (.v 0x006F00032C51, .vxcvt { fn := 0, sat := 0, rm := 0, ty := 13, vm := 7, vc := 0, vb := 0, va := 12, vd := 44 })] := by
  unfold Decodes; decide
theorem test_decode_matrix_copy_0 : Decodes [
    (.m 0x29400101, .mcall { f2 := 0, imm := 165, ty := 0, mp := 0, sa := 0, bank := 1 }),
    (.m 0x0002C202, .mpset { f2 := 0, imm := 0, ty := 0, mp := 5, sa := 33, bank := 0 }),
    (.m 0x00000103, .mzero { f2 := 0, imm := 0, ty := 0, mp := 0, sa := 0, bank := 1 }),
    (.m 0x06E30104, .mdrain { f2 := 0, imm := 27, ty := 8, mp := 6, sa := 0, bank := 1 }),
    (.m 0x07C00005, .mmode { f2 := 0, imm := 31, ty := 0, mp := 0, sa := 0, bank := 0 }),
    (.m 0x00006C06, .mgsel { f2 := 0, imm := 0, ty := 0, mp := 0, sa := 54, bank := 0 }),
    (.m 0x00007E07, .mwr { f2 := 0, imm := 0, ty := 0, mp := 0, sa := 63, bank := 0 }),
    (.m 0x00000008, .mwait { f2 := 0, imm := 0, ty := 0, mp := 0, sa := 0, bank := 0 }),
    (.m 0x00C06C09, .mrsum { f2 := 0, imm := 3, ty := 0, mp := 0, sa := 54, bank := 0 }),
    (.c 0x003F0F01, .cp { f := 0, st := 0, sy := 0, sx := 63, rg := 0, cd := 15 }),
    (.c 0x00020102, .cpm { f := 0, st := 0, sy := 0, sx := 2, rg := 0, cd := 1 }),
    (.c 0x01050303, .cpg { f := 0, st := 0, sy := 4, sx := 5, rg := 0, cd := 3 })] := by
  unfold Decodes; decide
theorem test_decode_matrix_copy_1 : Decodes [
    (.c 0x01C80604, .cps { f := 0, st := 0, sy := 7, sx := 8, rg := 0, cd := 6 }),
    (.c 0x800A0905, .cpa { f := 1, st := 0, sy := 0, sx := 10, rg := 0, cd := 9 }),
    (.c 0x03000B06, .cdld { f := 0, st := 0, sy := 12, sx := 0, rg := 0, cd := 11 }),
    (.c 0x83400007, .cpw { f := 1, st := 0, sy := 13, sx := 0, rg := 0, cd := 0 }),
    (.c 0x03C0E008, .rgcfg { f := 0, st := 0, sy := 15, sx := 0, rg := 14, cd := 0 }),
    (.c 0x04001009, .rgpost { f := 0, st := 0, sy := 16, sx := 0, rg := 1, cd := 0 }),
    (.c 0x0440200A, .rgfree { f := 0, st := 0, sy := 17, sx := 0, rg := 2, cd := 0 }),
    (.c 0x7480300B, .sbind { f := 0, st := 7, sy := 18, sx := 0, rg := 3, cd := 0 }),
    (.c 0x6000000C, .sfree { f := 0, st := 6, sy := 0, sx := 0, rg := 0, cd := 0 }),
    (.c 0x0013040D, .sqfill { f := 0, st := 0, sy := 0, sx := 19, rg := 0, cd := 4 })] := by
  unfold Decodes; decide
theorem test_decode_control_core_0 : Decodes [
    (.ctl 0x0231008B, .mGemm { rd := 1, rs1 := 2, rs2 := 3 }),
    (.ctl 0x0231108B, .mGemmR { rd := 1, rs1 := 2, rs2 := 3 }),
    (.ctl 0x0441810B, .mConv { rd := 2, rs1 := 3, rs2 := 4 }),
    (.ctl 0x0441910B, .mConvR { rd := 2, rs1 := 3, rs2 := 4 }),
    (.ctl 0x0652018B, .mAttn { rd := 3, rs1 := 4, rs2 := 5 }),
    (.ctl 0x0652118B, .mAttnR { rd := 3, rs1 := 4, rs2 := 5 }),
    (.ctl 0x0862820B, .mSort { rd := 4, rs1 := 5, rs2 := 6 }),
    (.ctl 0x0862920B, .mSortR { rd := 4, rs1 := 5, rs2 := 6 }),
    (.ctl 0x0A73028B, .mGath { rd := 5, rs1 := 6, rs2 := 7 }),
    (.ctl 0x0A73128B, .mGathR { rd := 5, rs1 := 6, rs2 := 7 }),
    (.ctl 0x0C83830B, .mScat { rd := 6, rs1 := 7, rs2 := 8 }),
    (.ctl 0x0C83930B, .mScatR { rd := 6, rs1 := 7, rs2 := 8 })] := by
  unfold Decodes; decide
theorem test_decode_control_core_1 : Decodes [
    (.ctl 0x0E94038B, .mNorm { rd := 7, rs1 := 8, rs2 := 9 }),
    (.ctl 0x0E94138B, .mNormR { rd := 7, rs1 := 8, rs2 := 9 }),
    (.ctl 0x10A4840B, .mKern { rd := 8, rs1 := 9, rs2 := 10 }),
    (.ctl 0x10A4940B, .mKernR { rd := 8, rs1 := 9, rs2 := 10 }),
    (.ctl 0x12B5048B, .mRcpy { rd := 9, rs1 := 10, rs2 := 11 }),
    (.ctl 0x12B5148B, .mRcpyR { rd := 9, rs1 := 10, rs2 := 11 }),
    (.ctl 0x14C5850B, .mRinit { rd := 10, rs1 := 11, rs2 := 12 }),
    (.ctl 0x14C5950B, .mRinitR { rd := 10, rs1 := 11, rs2 := 12 }),
    (.ctl 0x03DF0FDB, .cAred { rd := 31, rs1 := 30, rs2 := 29 }),
    (.ctl 0x03DF1FDB, .cAredR { rd := 31, rs1 := 30, rs2 := 29 }),
    (.ctl 0x05CE8F5B, .cAgat { rd := 30, rs1 := 29, rs2 := 28 }),
    (.ctl 0x05CE9F5B, .cAgatR { rd := 30, rs1 := 29, rs2 := 28 })] := by
  unfold Decodes; decide
theorem test_decode_control_core_2 : Decodes [
    (.ctl 0x07BE0EDB, .cRsct { rd := 29, rs1 := 28, rs2 := 27 }),
    (.ctl 0x07BE1EDB, .cRsctR { rd := 29, rs1 := 28, rs2 := 27 }),
    (.ctl 0x09AD8E5B, .cA2a { rd := 28, rs1 := 27, rs2 := 26 }),
    (.ctl 0x09AD9E5B, .cA2aR { rd := 28, rs1 := 27, rs2 := 26 }),
    (.ctl 0x0B9D0DDB, .cBcst { rd := 27, rs1 := 26, rs2 := 25 }),
    (.ctl 0x0B9D1DDB, .cBcstR { rd := 27, rs1 := 26, rs2 := 25 }),
    (.ctl 0x0D8C8D5B, .cSend { rd := 26, rs1 := 25, rs2 := 24 }),
    (.ctl 0x0D8C9D5B, .cSendR { rd := 26, rs1 := 25, rs2 := 24 }),
    (.ctl 0x0F7C0CDB, .cRecv { rd := 25, rs1 := 24, rs2 := 23 }),
    (.ctl 0x0F7C1CDB, .cRecvR { rd := 25, rs1 := 24, rs2 := 23 }),
    (.ctl 0x116B8C5B, .cBar { rd := 24, rs1 := 23, rs2 := 22 }),
    (.ctl 0x116B9C5B, .cBarR { rd := 24, rs1 := 23, rs2 := 22 })] := by
  unfold Decodes; decide
theorem test_decode_control_core_3 : Decodes [
    (.ctl 0x020B0AAB, .mWait 21 22),
    (.ctl 0x057B0AAB, .mStat { rd := 21, rs1 := 22, rs2 := 23 }),
    (.ctl 0x060B0AAB, .mResume 21 22),
    (.ctl 0x080B002B, .mKill 22),
    (.ctl 0x0A00002B, .mFence),
    (.ctl 0x200B0ADB, .gForm 21 22),
    (.ctl 0x220B005B, .gFree 22),
    (.ctl 0x020B007B, .xSleep 22),
    (.ctl 0x040B0AFB, .xMon 21 22),
    (.ctl 0x060B0AFB, .xMwait 21 22),
    (.ctl 0x08000AFB, .tqPop 21),
    (.ctl 0x0A0B007B, .tqAck 22)] := by
  unfold Decodes; decide
theorem test_decode_control_core_4 : Decodes [
    (.ctl 0x00000013, .riscvInstruction 0x00000013)] := by
  unfold Decodes; decide

/-! ## Well-formedness: an ill-formed term for each check -/

/-- No term of the list is well-formed. -/
def IllFormed (l : List Instr) : Prop := ∀ i ∈ l, i.wf = false

theorem test_ill_formed_vf : IllFormed [.lnchv 32 0, .vfimg 32 0, .mbin 32 0, .vfjqWrite 32 0, .tmctlGo 32 0, .mbostPop 32,
    .vfdctlSnap 32, .vfdctlSettle 32, .quotaPeriodStart 32, .quotaExhaustion 32, .dirtySwitchComplete 32, .settleComplete 32,
    .writeProtectWindowCopied 32, .backgroundPull 32, .fatalLaunchEnd 32, .hypervisorSuspend 32, .contextDestroy 32,
    .vfMemoryWrite 32 0 [], .vfMemoryRead 32 0 0] := by unfold IllFormed; decide
theorem test_ill_formed_host : IllFormed [.registerWrite (some 32) 0 0, .registerWrite (some 0) 4 0, .registerWrite none 4 0,
    .ptpMessage 2 ⟨0, 0⟩, .ndetuPortDown 2, .ndetuPortUp 2, .thermalLimit 8 1, .thermalLimit 0 49, .clockSwallowUpdate 8 1,
    .clockSwallowUpdate 0 49] := by unfold IllFormed; decide
theorem test_ill_formed_sched : IllFormed [.placeTableWrite 8 0 0 0, .placeTableWrite 0 32 0 0, .placeTableWrite 0 0 200 0,
    .bindEntryWrite 64 0 0 0, .bindEntryWrite 0 8 0 0, .quantumEnd 64, .stepLimitExpiry 64, .contextBind 64, .preload 64,
    .newcomer 64 0, .newcomer 0 8, .contextSave 32 0, .contextSave 0 8, .contextRestore 32 0, .contextRestore 0 8] := by
  unfold IllFormed; decide
theorem test_ill_formed_core : IllFormed [.bundleIssue 1536, .bundleFetch 1536, .matrixCommandStart 1536, .coreSleepWake 1536,
    .sequencerPrefetch 1536, .sequencerReady 1536, .sequencerBoundary 1536, .coreRetirement 1536, .resultLanding 1536 0,
    .matrixCommandFinish 1536 0, .stashFill 1536 0, .stashFill 0 64, .valeTlbLookup 1536 0, .valeTlbLookup 0 256] := by
  unfold IllFormed; decide
theorem test_ill_formed_units : IllFormed [.pageWalkComplete 8 0 false, .pageWalkComplete 0 64 false, .atomicApply 1536 0,
    .atomicApply 0 64, .ownershipGrant 0 64, .atomicResponse 0 64, .barrierArrival 1536 0, .barrierArrival 0 8,
    .phaseBoundaryComplete 8 0 none, .phaseBoundaryComplete 0 64 none, .copyComplete 1536 0 .toEnd, .copyComplete 0 32 .toEnd,
    .ringWaitResume 1536 0, .ringWaitResume 0 32, .colAdmission 8, .colDelivery 8, .catchUpSweep 8, .sweepEntry 8, .basinMerge 8 0] := by
  unfold IllFormed; decide
theorem test_ill_formed_ctl : IllFormed [.xSleepWake 64, .xMwaitTimeout 64, .scoreboardClear 64, .supervisorTimerInterrupt 64,
    .linkRetryExhausted 36, .linkRetrain 36, .gangDispatch 8 0, .gangDispatch 0 64, .macroComplete 64 0, .macroComplete 0 64,
    .macroStopped 0 64, .macroKilled 0 64, .collectiveComplete 0 64, .collectiveRegistration 0 0 1024 0 0,
    .collectiveRegistration 64 0 0 0 0, .chunkDelivery 0 64 0 0 0 [], .chunkDelivery 0 0 1024 0 0 [], .chunkAck 0 0 1024,
    .riscvInstruction 0x00010000, .riscvInstruction 0x0000000B] := by unfold IllFormed; decide
theorem test_ill_formed_scalar : IllFormed [.clz { sr0 with sb := 1 }, .shli { si0 with ext := some 0 }, .shli { si0 with imm := 64 },
    .li { si0 with sa := 1 }, .cmp { sb := 0, sa := 0, cc := 6, pd := 0 }, .cmpi { imm := 0, ext := none, sa := 0, cc := 7, pd := 0 },
    .st { sm0 with sx := 1 }, .stg { sm0 with sx := 1 }, .sts { off := 0, sx := 1, sz := 0, sd := 0 }, .probe { sm0 with sz := 1 },
    .sqld { sm0 with sd := 1 }, .amo { sz := 1, aop := 0, sb := 0, sa := 0, sd := 0 }, .amo { sz := 2, aop := 9, sb := 0, sa := 0, sd := 0 },
    .cas { sz := 2, aop := 1, sb := 0, sa := 0, sd := 0 }, .gjoin 64, .gleave 64, .gbar 64, .garr 64, .gwait 64, .phase 64] := by
  unfold IllFormed; decide
theorem test_ill_formed_slots : IllFormed [.vadd { vf0 with ty := 3 }, .vadd { vf0 with vc := 1 }, .vadd { vf0 with fn := 1 },
    .vmin { vf0 with sat := 1 }, .vcmp { vf0 with fn := 5 }, .vmov { vf0 with ty := 13, va := 1 }, .vslide { vf0 with ty := 1 },
    .mcall { mf0 with sa := 1 }, .mdrain { mf0 with ty := 6 }, .mgsel { mf0 with sa := 55 }, .mwait { mf0 with bank := 1 },
    .cp { cf0 with rg := 1 }, .cpw { cf0 with cd := 1 }, .sfree { cf0 with sx := 1 }] := by unfold IllFormed; decide

/-! ## Fetching and stepping -/

/-- The word is fetched and run as the first instruction after reset: a step moves the pc on and nothing stops. -/
theorem test_step_addi : (match step (State.reset.withFetchWord 32 0x00508093) with
    | .next t => xGet (curCtl t) 1 == 5 && (curCtl t).pc == (curCtl (State.reset.withFetchWord 32 0x00508093)).pc + 4
    | _ => false) = true := by decide
/-- A compressed instruction, c.li x10, 5, moves the pc on by 2. -/
theorem test_step_compressed : (match step (State.reset.withFetchWord 16 0x4515) with
    | .next t => xGet (curCtl t) 10 == 5 && (curCtl t).pc == (curCtl (State.reset.withFetchWord 16 0x4515)).pc + 2
    | _ => false) = true := by decide
theorem test_decodeTableWord : decodeTableWord 32 0x00508093 = some (.riscvInstruction 0x00508093) := by decide

/-! ## The worked examples of R321, R322 and R438 -/

/-- The encodings that R321 and R438 print. -/
theorem test_r321_words : Decodes [
    (.s 0x00300052 none, .gbar 3),
    (.s 0x00000042 none, .br 0 0 0),
    (.c 0x000C0002, .cpm { cf0 with sx := 12 }),
    (.c 0x03000007, .cpw { cf0 with sy := 12 }),
    (.v 0x006800030E28, .vexp2 { vf0 with ty := 13, va := 12, vd := 14 }),
    (.v 0x2C6881242050, .vxadd { vf0 with fn := 11, ty := 13, va := 16, vb := 18, vc := 32, vd := 32 }),
    (.s 0x00200055 none, .phase 2)] := by
  unfold Decodes; decide
/-- An `m.kern` as R321 and R438 lay it out: T0 and T1 of n by rows FP32, tile extents n and t1. -/
def exampleDesc (role n rows t1 : Nat) : List Byte :=
  let t := leBytes 8 0x10000 ++ leBytes 8 0 ++ leBytes 4 0x10 ++ leBytes 2 n ++ leBytes 2 rows ++ leBytes 2 1 ++ (List.replicate 4 (leBytes 2 1)).flatten
    ++ leBytes 2 0 ++ leBytes 4 4 ++ leBytes 4 (4 * n) ++ List.replicate 20 0
  leBytes 8 (8 + 256 + 3 * 2 ^ 24 + role * 2 ^ 32 + 2 * 2 ^ 48) ++ List.replicate 24 0 ++ leBytes 2 n ++ leBytes 2 t1 ++ List.replicate 28 0
    ++ t ++ t ++ List.replicate 64 0
/-- R321 and R438: c0 = 1 and c1 = 4, rank r of four runs step r with prg.i1 = r, and the regions need no more than 128 KiB. -/
theorem test_example_nests : ([exampleDesc 6 128 8 2, exampleDesc 9 64 4 1].all fun b =>
    let m := macroOf b []
    m.counts.take 2 == [1, 4] && m.total == 4 && decide (m.need ≤ m.rgn * 65536) && (List.range 4).all fun r =>
      m.assigned r 4 == 1 && m.stepOf r 4 0 == r && (indicesOf r m.counts).getD 1 9 == r) = true := by decide
/-- The FP32 pattern, and the XF40 container, of an integer. -/
def fpOf (n : Nat) : Nat := (roundArith fmt32 .rne false (ofInt n)).1
def xfOf (n : Nat) : Nat := (roundArith fmtXf .rne false (ofInt n)).1
/-- R322: the weights 2^q are exact and raise no flag, as are the denominators, given as containers, and the results c_q. -/
theorem test_r322_weights : ([0, 1, 2, 3].all fun q => exp2Xf (fpOf q) == (xfOf (2 ^ q), 0)) = true
    ∧ [256, 384, 640, 1152].map xfOf = [0x4003800000, 0x4003C00000, 0x4004200000, 0x4004900000] := by decide
theorem test_r322_quotients : ([(0, 45), (1, 60), (2, 72), (3, 80)].all fun p =>
    let d := xfOp 0 .rne false (decode .xf40 (xfOf 128)) (decode .xf40 (xfOf (128 * 2 ^ p.1))) (.zero false)
    let r := xfOp 4 .rne false (decode .xf40 (xfOf (128 * 90 * 2 ^ p.1))) (decode .xf40 d.1) (.zero false)
    d == (xfOf (128 * (2 ^ p.1 + 1)), 0) && r == (xfOf p.2, 0) && convert .fp32 .xf40 .rne false r.1 == (fpOf p.2, 0)) = true
    ∧ [45, 80].map fpOf = [0x42340000, 0x42A00000] := by decide
/-- R322: the sum of opposite terms that reaches zero is +0. -/
theorem test_r322_zero : xfOp 0 .rne false (decode .xf40 (xfOf 5760)) ((decode .xf40 (xfOf 5760)).negate) (.zero false) = (0, 0) := by decide

end Sys2Proof.Tests
end

section
/-! PROOFS. The encodings (O58, O57). A word is its fields side by side (R128, R131, R133, R137, R141): from that, each
row of the decoder reads back what the encoder writes, and the encoder writes back what the decoder reads. -/

namespace Sys2Proof.Encodings

open Sys2Proof Sys2Proof.Machine

/-! ## Fields of a word

The library's lemmas about fields of words put side by side, with the sum of the widths left out of the index, so that
they apply where the width is the 32 or 48 of a slot. -/

@[simp] theorem extract_append_high {v w i l : Nat} (x : BitVec v) (y : BitVec w) (h : w ≤ i) :
    BitVec.extractLsb' (n := no_index (v + w)) i l (HAppend.hAppend (γ := BitVec (no_index (v + w))) x y)
      = x.extractLsb' (i - w) l :=
  BitVec.extractLsb'_append_eq_of_le h

@[simp] theorem extract_append_low {v w i l : Nat} (x : BitVec v) (y : BitVec w) (h : i + l ≤ w) :
    BitVec.extractLsb' (n := no_index (v + w)) i l (HAppend.hAppend (γ := BitVec (no_index (v + w))) x y)
      = y.extractLsb' i l :=
  BitVec.extractLsb'_append_eq_of_add_le h

theorem append_extract {n i l j k : Nat} (x : BitVec n) (h : j = i + l) :
    HAppend.hAppend (γ := BitVec (no_index (k + l))) (x.extractLsb' j k) (x.extractLsb' i l) = x.extractLsb' i (k + l) :=
  BitVec.extractLsb'_append_extractLsb'_eq_extractLsb' h

/-- A field within bits that are zero is zero. -/
theorem extract_zero_of_le {n i l j k : Nat} {x : BitVec n} (h : x.extractLsb' i l = 0) (hlo : i ≤ j)
    (hhi : j + k ≤ i + l) : x.extractLsb' j k = 0 := by
  have hx : (x.extractLsb' i l).extractLsb' (j - i) k = x.extractLsb' j k := by
    ext b hb
    simp only [BitVec.getElem_extractLsb', BitVec.getLsbD_extractLsb']
    rw [show i + (j - i + b) = j + b by omega, decide_eq_true (by omega : j - i + b < l), Bool.true_and]
  rw [← hx, h]
  ext b hb
  simp

theorem append_eq_zero {v w : Nat} {x : BitVec v} {y : BitVec w} (h : x ++ y = 0) : x = 0 ∧ y = 0 :=
  ⟨by simpa using congrArg (BitVec.extractLsb' w v) h, by simpa using congrArg (BitVec.extractLsb' 0 w) h⟩

/-! ## Slots that read back

A slot's reading is faithful to a code when it yields only well-formed operations whose code that is. -/

/-- Whatever operation the reading r yields is well formed, and c is its code. -/
def Faithful (c : Code) (r : Except Nat (Option Instr)) : Prop :=
  ∀ i, r = .ok (some i) → i.wf = true ∧ encode i = some c

theorem faithful_error (c : Code) (n : Nat) : Faithful c (.error n) := nofun

theorem faithful_nop (c : Code) : Faithful c (.ok none) := nofun

/-- A checked operation is well formed: its checks are those of well-formedness (R388). -/
theorem faithful_checkedSlot {c : Code} {i : Instr} (hwf : i.wf = (slotReason i == 0)) (hc : encode i = some c) :
    Faithful c (checkedSlot i) := by
  intro j hj
  unfold checkedSlot at hj
  split at hj
  case isTrue h =>
    cases hj
    exact ⟨by rw [hwf, h]; rfl, hc⟩
  case isFalse => cases hj

theorem faithful_checkedZero {c : Code} {i : Instr} {n : Nat} {z : BitVec n} (hwf : i.wf = (slotReason i == 0))
    (hc : z = 0 → encode i = some c) : Faithful c (checkedZero z i) := by
  unfold checkedZero
  split
  case isTrue hz => exact faithful_checkedSlot hwf (hc hz)
  case isFalse => exact faithful_error c 2

/-- An operation that takes no LIMM is read only where none stands (R126). -/
theorem faithful_plainSlot {w : BitVec 32} {e : Option (BitVec 24)} {r : Except Nat (Option Instr)}
    (h : e = none → Faithful (.s w none) r) : Faithful (.s w e) (plainSlot e r) := by
  cases e with
  | none => exact h rfl
  | some _ => exact faithful_error _ 5

theorem Faithful.of_slotInstr {c : Code} {r : Except Nat (Option Instr)} {i : Instr} (h : Faithful c r)
    (hi : slotInstr r = some i) : i.wf = true ∧ encode i = some c := by
  cases r with
  | ok o => exact h i (congrArg _ hi)
  | error n => cases hi

/-! ## A word is its fields side by side -/

section
variable {w : BitVec 32} {op : BitVec 8}

theorem opcode_eq {m : Nat} {v : BitVec m} (h : (v.extractLsb' 0 8).toNat = op.toNat) : op = v.extractLsb' 0 8 :=
  (BitVec.eq_of_toNat_eq h).symm

theorem encSR_srOf (hop : (w.extractLsb' 0 8).toNat = op.toNat) (hz : w.extractLsb' 31 1 = 0#1) :
    encSR op (srOf w) = .s w none := by
  simp [encSR, srOf, opcode_eq hop, ← hz, append_extract]

theorem encSI_siOf (hop : (w.extractLsb' 0 8).toNat = op.toNat) (e : Option (BitVec 24)) :
    encSI op (siOf w e) = .s w e := by
  simp [encSI, siOf, opcode_eq hop, append_extract]

theorem encSM_smOf (hop : (w.extractLsb' 0 8).toNat = op.toNat) (e : Option (BitVec 24)) :
    encSM op (smOf w e) = .s w e := by
  simp [encSM, smOf, opcode_eq hop, append_extract]

theorem encSS_ssOf (hop : (w.extractLsb' 0 8).toNat = op.toNat) (hz : w.extractLsb' 29 3 = 0#3) :
    encSS op (ssOf w) = .s w none := by
  simp [encSS, ssOf, opcode_eq hop, ← hz, append_extract]

theorem encSA_saOf (hop : (w.extractLsb' 0 8).toNat = op.toNat) : encSA op (saOf w) = .s w none := by
  simp [encSA, saOf, opcode_eq hop, append_extract]

theorem encV_vfOfWord {w : BitVec 48} (hop : (w.extractLsb' 0 8).toNat = op.toNat) : encV op (vfOfWord w) = .v w := by
  simp [encV, vfOfWord, opcode_eq hop, append_extract]

theorem encM_mfOf (hop : (w.extractLsb' 0 8).toNat = op.toNat) : encM op (mfOf w) = .m w := by
  simp [encM, mfOf, opcode_eq hop, append_extract]

theorem encC_cfOf (hop : (w.extractLsb' 0 8).toNat = op.toNat) : encC op (cfOf w) = .c w := by
  simp [encC, cfOf, opcode_eq hop, append_extract]

/-- The SI word of the fields of a word, where some of them are given as zeros. -/
theorem encI_fields {imm : BitVec 12} {sa sd : BitVec 6} (hop : (w.extractLsb' 0 8).toNat = op.toNat)
    (himm : w.extractLsb' 20 12 = imm) (hsa : w.extractLsb' 14 6 = sa) (hsd : w.extractLsb' 8 6 = sd) :
    encI op imm sa sd = .s w none := by
  simp [encI, opcode_eq hop, ← himm, ← hsa, ← hsd, append_extract]

theorem encI_imm (hop : (w.extractLsb' 0 8).toNat = op.toNat) (hz : w.extractLsb' 8 12 = 0) :
    encI op (w.extractLsb' 20 12) 0 0 = .s w none :=
  encI_fields hop rfl (extract_zero_of_le hz (by decide) (by decide)) (extract_zero_of_le hz (by decide) (by decide))

theorem encI_sd (hop : (w.extractLsb' 0 8).toNat = op.toNat) (hz : w.extractLsb' 14 18 = 0) :
    encI op 0 0 (w.extractLsb' 8 6) = .s w none :=
  encI_fields hop (extract_zero_of_le hz (by decide) (by decide)) (extract_zero_of_le hz (by decide) (by decide)) rfl

/-- A word rebuilt from its fields is the code's word. -/
theorem some_s {x : BitVec 32} {e : Option (BitVec 24)} (h : x = w) : some (Code.s x e) = some (.s w e) := by rw [h]

theorem scrOf_word (hop : (w.extractLsb' 0 8).toNat = op.toNat) (hz : w.extractLsb' 27 5 = 0#5) :
    0#5 ++ (scrOf w).sb ++ (scrOf w).sa ++ (scrOf w).cc ++ (scrOf w).pd ++ op = w := by
  simp [scrOf, opcode_eq hop, ← hz, append_extract]

theorem sciOf_word (hop : (w.extractLsb' 0 8).toNat = op.toNat) (e : Option (BitVec 24)) :
    (sciOf w e).imm ++ (sciOf w e).sa ++ (sciOf w e).cc ++ (sciOf w e).pd ++ op = w := by
  simp [sciOf, opcode_eq hop, append_extract]

theorem spOf_word (hop : (w.extractLsb' 0 8).toNat = op.toNat) (hz : w.extractLsb' 24 8 = 0#8) :
    0#8 ++ (spOf w).tt ++ (spOf w).pb ++ (spOf w).pa ++ (spOf w).pd ++ op = w := by
  simp [spOf, opcode_eq hop, ← hz, append_extract]

theorem pbr_word (hop : (w.extractLsb' 0 8).toNat = op.toNat) (hz : w.extractLsb' 11 1 = 0#1) :
    w.extractLsb' 12 20 ++ 0#1 ++ w.extractLsb' 8 3 ++ op = w := by
  simp [opcode_eq hop, ← hz, append_extract]

theorem pbrr_word (hop : (w.extractLsb' 0 8).toNat = op.toNat) (hz : w.extractLsb' 18 14 ++ w.extractLsb' 11 1 = 0) :
    0#14 ++ w.extractLsb' 12 6 ++ 0#1 ++ w.extractLsb' 8 3 ++ op = w := by
  obtain ⟨hhi, hlo⟩ : w.extractLsb' 18 14 = 0#14 ∧ w.extractLsb' 11 1 = 0#1 := append_eq_zero hz
  rw [opcode_eq hop, ← hhi, ← hlo]
  simp [append_extract]

theorem br_word (hop : (w.extractLsb' 0 8).toNat = op.toNat) (hz : w.extractLsb' 16 16 = 0#16) :
    0#16 ++ w.extractLsb' 12 4 ++ w.extractLsb' 11 1 ++ w.extractLsb' 8 3 ++ op = w := by
  simp [opcode_eq hop, ← hz, append_extract]

theorem brl_word (hop : (w.extractLsb' 0 8).toNat = op.toNat) (hz : w.extractLsb' 22 10 = 0#10) :
    0#10 ++ w.extractLsb' 16 6 ++ w.extractLsb' 12 4 ++ w.extractLsb' 11 1 ++ w.extractLsb' 8 3 ++ op = w := by
  simp [opcode_eq hop, ← hz, append_extract]

theorem loop_word (hop : (w.extractLsb' 0 8).toNat = op.toNat) :
    w.extractLsb' 16 16 ++ w.extractLsb' 10 6 ++ w.extractLsb' 8 2 ++ op = w := by
  simp [opcode_eq hop, append_extract]

theorem halt_word (hop : (w.extractLsb' 0 8).toNat = 0x45) (hz : w.extractLsb' 8 24 = 0#24) : 0x45#32 = w :=
  calc
    0x45#32 = 0#24 ++ 0x45#8 := rfl
    _ = w.extractLsb' 8 24 ++ w.extractLsb' 0 8 := by rw [hz, ← opcode_eq (op := 0x45#8) hop]
    _ = w := by simp [append_extract]
end

/-! ## From the word to the operation and back -/

/-- R130: each row of the S slot reads an operation whose code is the word. The cases are the rows in the decoder's
order, grouped by format. -/
theorem faithful_decodeS (w : BitVec 32) (e : Option (BitVec 24)) : Faithful (.s w e) (decodeS w e) := by
  unfold decodeS
  split
  · exact faithful_plainSlot fun _ => faithful_nop _
  -- SR
  iterate 18
    next hop =>
      exact faithful_plainSlot fun _ => faithful_checkedZero rfl fun hz => congrArg some (encSR_srOf hop hz)
  -- SI: `addi` to `xori`, the shifts, which take no LIMM, `li` and `lih`
  iterate 4 next hop => exact faithful_checkedSlot rfl (congrArg some (encSI_siOf hop e))
  iterate 3
    next hop => exact faithful_plainSlot fun he => faithful_checkedSlot rfl (congrArg some (he ▸ encSI_siOf hop e))
  iterate 2 next hop => exact faithful_checkedSlot rfl (congrArg some (encSI_siOf hop e))
  -- SC and SP
  next hop => exact faithful_plainSlot fun _ => faithful_checkedZero rfl fun hz => some_s (scrOf_word hop hz)
  next hop => exact faithful_checkedSlot rfl (some_s (sciOf_word hop e))
  next hop => exact faithful_plainSlot fun _ => faithful_checkedZero rfl fun hz => some_s (spOf_word hop hz)
  -- SM, SS and SA
  iterate 6 next hop => exact faithful_checkedSlot rfl (congrArg some (encSM_smOf hop e))
  iterate 2
    next hop =>
      exact faithful_plainSlot fun _ => faithful_checkedZero rfl fun hz => congrArg some (encSS_ssOf hop hz)
  iterate 2 next hop => exact faithful_plainSlot fun _ => faithful_checkedSlot rfl (congrArg some (encSA_saOf hop))
  -- branches, `loop` and `halt`
  next hop => exact faithful_checkedZero rfl fun hz => some_s (pbr_word hop hz)
  next hop => exact faithful_plainSlot fun _ => faithful_checkedZero rfl fun hz => some_s (pbrr_word hop hz)
  next hop => exact faithful_plainSlot fun _ => faithful_checkedZero rfl fun hz => some_s (br_word hop hz)
  next hop => exact faithful_plainSlot fun _ => faithful_checkedZero rfl fun hz => some_s (brl_word hop hz)
  next hop => exact faithful_plainSlot fun _ => faithful_checkedSlot rfl (some_s (loop_word hop))
  next hop => exact faithful_plainSlot fun _ => faithful_checkedZero rfl fun hz => some_s (halt_word hop hz)
  -- gang operations and `sync`, which name a number alone
  iterate 7
    next hop => exact faithful_plainSlot fun _ => faithful_checkedZero rfl fun hz => congrArg some (encI_imm hop hz)
  -- `waita`, `sleep`, `rdns` and `rdnj`, `csrr`, `csrw`
  next hop =>
    exact faithful_plainSlot fun _ => faithful_checkedZero rfl fun hz => congrArg some (encI_fields hop hz rfl rfl)
  next hop =>
    exact faithful_plainSlot fun _ => faithful_checkedZero rfl fun hz =>
      congrArg some (encI_fields hop (append_eq_zero hz).1 rfl (append_eq_zero hz).2)
  iterate 2
    next hop => exact faithful_plainSlot fun _ => faithful_checkedZero rfl fun hz => congrArg some (encI_sd hop hz)
  next hop =>
    exact faithful_plainSlot fun _ => faithful_checkedZero rfl fun hz => congrArg some (encI_fields hop rfl hz rfl)
  next hop =>
    exact faithful_plainSlot fun _ => faithful_checkedZero rfl fun hz => congrArg some (encI_fields hop rfl rfl hz)
  -- `trap` and `brk`
  iterate 2
    next hop => exact faithful_plainSlot fun _ => faithful_checkedZero rfl fun hz => congrArg some (encI_imm hop hz)
  exact faithful_error _ _

/-- R132: each row of a V slot reads an operation whose code is the word. -/
theorem faithful_decodeV (w : BitVec 48) : Faithful (.v w) (decodeV w) := by
  unfold decodeV
  split
  · exact faithful_nop _
  iterate 44 next hop => exact faithful_checkedSlot rfl (congrArg some (encV_vfOfWord hop))
  exact faithful_error _ _

/-- R134: each row of the M slot reads an operation whose code is the word. -/
theorem faithful_decodeM (w : BitVec 32) : Faithful (.m w) (decodeM w) := by
  unfold decodeM
  split
  · exact faithful_nop _
  iterate 9 next hop => exact faithful_checkedSlot rfl (congrArg some (encM_mfOf hop))
  exact faithful_error _ _

/-- R138: each row of a C slot reads an operation whose code is the word. -/
theorem faithful_decodeC (w : BitVec 32) : Faithful (.c w) (decodeC w) := by
  unfold decodeC
  split
  · exact faithful_nop _
  iterate 13 next hop => exact faithful_checkedSlot rfl (congrArg some (encC_cfOf hop))
  exact faithful_error _ _

/-! ## From the operation to the word and back

A code of a format reads back as soon as the operation's row is known: what the decoder makes of every word with the
operation's opcode (`hrow`). -/

theorem slotInstr_checkedSlot {i : Instr} (hr : slotReason i = 0) : slotInstr (checkedSlot i) = some i := by
  simp [checkedSlot, hr, slotInstr]

theorem checkedZero_zero {n : Nat} {z : BitVec n} (hz : z = 0) (i : Instr) : checkedZero z i = checkedSlot i := if_pos hz

theorem decode_s {w : BitVec 32} {e : Option (BitVec 24)} {i : Instr} (hr : slotReason i = 0)
    (h : decodeS w e = checkedSlot i) : decodeCode (.s w e) = some i := by
  simp only [decodeCode, h, slotInstr_checkedSlot hr]

theorem opcode_append (x : BitVec 24) (op : BitVec 8) : BitVec.extractLsb' (n := 32) 0 8 (x ++ op) = op :=
  BitVec.extractLsb'_append_eq_right

theorem decode_encSR {op : BitVec 8} {k : SR → Instr} {f : SR} (hr : slotReason (k f) = 0)
    (hrow : ∀ w, w.extractLsb' 0 8 = op → decodeS w none = checkedZero (w.extractLsb' 31 1) (k (srOf w))) :
    decodeCode (encSR op f) = some (k f) := by
  have hf : srOf (0#1 ++ f.pn ++ f.pg ++ f.sb ++ f.sa ++ f.sd ++ op) = f := by simp [srOf]
  simp only [decodeCode, encSR]
  rw [hrow _ (by simp), checkedZero_zero (by simp), hf, slotInstr_checkedSlot hr]

theorem decode_encSI {op : BitVec 8} {k : SI → Instr} {f : SI} (hr : slotReason (k f) = 0)
    (hrow : ∀ w, w.extractLsb' 0 8 = op → decodeS w f.ext = checkedSlot (k (siOf w f.ext))) :
    decodeCode (encSI op f) = some (k f) := by
  have hf : siOf (f.imm ++ f.sa ++ f.sd ++ op) f.ext = f := by simp [siOf]
  simp only [decodeCode, encSI]
  rw [hrow _ (by simp), hf, slotInstr_checkedSlot hr]

theorem decode_encSM {op : BitVec 8} {k : SM → Instr} {f : SM} (hr : slotReason (k f) = 0)
    (hrow : ∀ w, w.extractLsb' 0 8 = op → decodeS w f.ext = checkedSlot (k (smOf w f.ext))) :
    decodeCode (encSM op f) = some (k f) := by
  have hf : smOf (f.imm ++ f.sx ++ f.sz ++ f.sa ++ f.sd ++ op) f.ext = f := by simp [smOf]
  simp only [decodeCode, encSM]
  rw [hrow _ (by simp), hf, slotInstr_checkedSlot hr]

theorem decode_encSS {op : BitVec 8} {k : SS → Instr} {f : SS} (hr : slotReason (k f) = 0)
    (hrow : ∀ w, w.extractLsb' 0 8 = op → decodeS w none = checkedZero (w.extractLsb' 29 3) (k (ssOf w))) :
    decodeCode (encSS op f) = some (k f) := by
  have hf : ssOf (0#3 ++ f.off ++ f.sx ++ f.sz ++ f.sd ++ op) = f := by simp [ssOf]
  simp only [decodeCode, encSS]
  rw [hrow _ (by simp), checkedZero_zero (by simp), hf, slotInstr_checkedSlot hr]

theorem decode_encSA {op : BitVec 8} {k : SA → Instr} {f : SA} (hr : slotReason (k f) = 0)
    (hrow : ∀ w, w.extractLsb' 0 8 = op → decodeS w none = checkedSlot (k (saOf w))) :
    decodeCode (encSA op f) = some (k f) := by
  have hf : saOf (f.sz ++ f.aop ++ f.sb ++ f.sa ++ f.sd ++ op) = f := by simp [saOf]
  simp only [decodeCode, encSA]
  rw [hrow _ (by simp), hf, slotInstr_checkedSlot hr]

theorem decode_encV {op : BitVec 8} {k : VF → Instr} {f : VF} (hr : slotReason (k f) = 0)
    (hrow : ∀ w, w.extractLsb' 0 8 = op → decodeV w = checkedSlot (k (vfOfWord w))) :
    decodeCode (encV op f) = some (k f) := by
  have hf : vfOfWord (f.fn ++ f.sat ++ f.rm ++ f.ty ++ f.vm ++ f.vc ++ f.vb ++ f.va ++ f.vd ++ op) = f := by simp [vfOfWord]
  simp only [decodeCode, encV]
  rw [hrow _ (by simp), hf, slotInstr_checkedSlot hr]

theorem decode_encM {op : BitVec 8} {k : MF → Instr} {f : MF} (hr : slotReason (k f) = 0)
    (hrow : ∀ w, w.extractLsb' 0 8 = op → decodeM w = checkedSlot (k (mfOf w))) :
    decodeCode (encM op f) = some (k f) := by
  have hf : mfOf (f.f2 ++ f.imm ++ f.ty ++ f.mp ++ f.sa ++ f.bank ++ op) = f := by simp [mfOf]
  simp only [decodeCode, encM]
  rw [hrow _ (by simp), hf, slotInstr_checkedSlot hr]

theorem decode_encC {op : BitVec 8} {k : CF → Instr} {f : CF} (hr : slotReason (k f) = 0)
    (hrow : ∀ w, w.extractLsb' 0 8 = op → decodeC w = checkedSlot (k (cfOf w))) :
    decodeCode (encC op f) = some (k f) := by
  have hf : cfOf (f.f ++ f.st ++ f.sy ++ f.sx ++ f.rg ++ f.cd ++ op) = f := by simp [cfOf]
  simp only [decodeCode, encC]
  rw [hrow _ (by simp), hf, slotInstr_checkedSlot hr]

/-- The SI word of an operation that names a number alone. -/
theorem decode_encI_imm {op : BitVec 8} {k : BitVec 12 → Instr} {imm : BitVec 12} (hr : slotReason (k imm) = 0)
    (hrow : ∀ w, w.extractLsb' 0 8 = op → decodeS w none = checkedZero (w.extractLsb' 8 12) (k (w.extractLsb' 20 12))) :
    decodeCode (encI op imm 0 0) = some (k imm) := by
  have hz : BitVec.extractLsb' (n := 32) 8 12 (imm ++ (0 : BitVec 6) ++ (0 : BitVec 6) ++ op) = 0 := by
    rw [← append_extract (l := 6) (k := 6) _ rfl]
    simp
  simp only [decodeCode, encI]
  rw [hrow _ (by simp), checkedZero_zero hz]
  simpa using slotInstr_checkedSlot hr

/-- The SI word of an operation that names a destination alone. -/
theorem decode_encI_sd {op : BitVec 8} {k : BitVec 6 → Instr} {sd : BitVec 6} (hr : slotReason (k sd) = 0)
    (hrow : ∀ w, w.extractLsb' 0 8 = op → decodeS w none = checkedZero (w.extractLsb' 14 18) (k (w.extractLsb' 8 6))) :
    decodeCode (encI op 0 0 sd) = some (k sd) := by
  have hz : BitVec.extractLsb' (n := 32) 14 18 ((0 : BitVec 12) ++ (0 : BitVec 6) ++ sd ++ op) = 0 := by
    rw [← append_extract (l := 6) (k := 12) _ rfl]
    simp
  simp only [decodeCode, encI]
  rw [hrow _ (by simp), checkedZero_zero hz]
  simpa using slotInstr_checkedSlot hr

/-- A control-core word reads back (R141): it is no compressed one, and its register fields are the operands. -/
theorem decode_encX {op f7 : BitVec 7} {f3 : BitVec 3} {rd rs1 rs2 : BitVec 5} {i : Instr} (hlow : op.extractLsb' 0 2 = 3)
    (hrow : ∀ w, w.extractLsb' 0 7 = op → w.extractLsb' 25 7 = f7 → w.extractLsb' 12 3 = f3 →
      xfOf w = { rd := rd, rs1 := rs1, rs2 := rs2 } → decodeCtl w = i) :
    decodeCode (encX op f7 f3 rd rs1 rs2) = some i := by
  simp only [decodeCode, encX, decodeAtPc]
  rw [if_pos (by simpa using hlow), hrow _ (by simp) (by simp) (by simp) (by simp [xfOf])]

theorem noLimm_of_checks {e : Option (BitVec 24)} {l : List (Bool × Nat)} (h : firstReason ((e.isSome, 5) :: l) = 0) :
    e = none := by
  cases e with
  | none => rfl
  | some _ => simp [firstReason] at h

/-- R141: a word in none of the four custom spaces is the base's. -/
theorem decodeCtl_of_base {w : BitVec 32} (h0 : (w.extractLsb' 0 7).toNat ≠ 0x0B) (h1 : (w.extractLsb' 0 7).toNat ≠ 0x2B)
    (h2 : (w.extractLsb' 0 7).toNat ≠ 0x5B) (h3 : (w.extractLsb' 0 7).toNat ≠ 0x7B) :
    decodeCtl w = .riscvInstruction w := by
  unfold decodeCtl
  split
  iterate 10 next hop _ => exact absurd hop h0
  iterate 5 next hop _ => exact absurd hop h1
  iterate 10 next hop _ => exact absurd hop h2
  iterate 5 next hop _ => exact absurd hop h3
  rfl

/-- R270: a word of the base is itself, and so is a compressed one with nothing above its 16 bits. -/
theorem decodeAtPc_riscv {w : BitVec 32} (h : wfRiscv w = true) : (decodeAtPc w).1 = .riscvInstruction w := by
  have hlow : w.extractLsb' 0 2 = 3#2 ↔ w.toNat % 4 = 3 := by
    rw [← BitVec.toNat_inj]
    simp
  have hop : (w.extractLsb' 0 7).toNat = w.toNat % 128 := by simp
  simp only [wfRiscv] at h
  split at h
  next h4 =>
    simp only [Bool.and_eq_true, bne_iff_ne, ← hop] at h
    obtain ⟨⟨⟨h0, h1⟩, h2⟩, h3⟩ := h
    rw [decodeAtPc, if_pos (hlow.mpr h4), decodeCtl_of_base h0 h1 h2 h3]
  next h4 =>
    have hlt : w.toNat < 65536 := of_decide_eq_true h
    have hw : (w.extractLsb' 0 16).setWidth 32 = w := by
      apply BitVec.eq_of_toNat_eq
      rw [BitVec.toNat_setWidth, BitVec.extractLsb'_toNat]
      omega
    rw [decodeAtPc, if_neg (mt hlow.mp h4), hw]

/-- R128 to R141: a well-formed instruction's code reads back. -/
theorem decode_encode {i : Instr} {c : Code} (hwf : i.wf = true) (hc : encode i = some c) : decodeCode c = some i := by
  cases i with
  | add f | sub f | sAnd f | sOr f | xor f | shl f | shr f | sra f | mul f | mulh f | mulhu f | min f | max f | minu f
  | maxu f | clz f | popc f | sel f =>
    cases hc
    exact decode_encSR (eq_of_beq hwf) fun w h => by rw [decodeS, h]; rfl
  | addi f | andi f | ori f | xori f | li f | lih f =>
    cases hc
    exact decode_encSI (eq_of_beq hwf) fun w h => by rw [decodeS, h]; rfl
  | shli f | shri f | srai f =>
    cases hc
    have he : f.ext = none := noLimm_of_checks (eq_of_beq hwf)
    exact decode_encSI (eq_of_beq hwf) fun w h => by rw [decodeS, h, he]; rfl
  | ld f | st f | ldg f | stg f | probe f | sqld f =>
    cases hc
    exact decode_encSM (eq_of_beq hwf) fun w h => by rw [decodeS, h]; rfl
  | lds f | sts f =>
    cases hc
    exact decode_encSS (eq_of_beq hwf) fun w h => by rw [decodeS, h]; rfl
  | amo f | cas f =>
    cases hc
    exact decode_encSA (eq_of_beq hwf) fun w h => by rw [decodeS, h]; rfl
  | cmp | cmpi | plog | pbr | pbrr | br | brl | loop | waita | sleep | csrr | csrw =>
    cases hc
    refine decode_s (eq_of_beq hwf) ?_
    rw [decodeS, opcode_append]
    simp [plainSlot, checkedZero, scrOf, sciOf, spOf]
  | halt =>
    cases hc
    rfl
  | gjoin g | gleave g | gbar g | garr g | gwait g | phase g | sync g | trap g | brk g =>
    cases hc
    exact decode_encI_imm (eq_of_beq hwf) fun w h => by rw [decodeS, h]; rfl
  | rdns sd | rdnj sd =>
    cases hc
    exact decode_encI_sd (eq_of_beq hwf) fun w h => by rw [decodeS, h]; rfl
  | vadd f | vsub f | vmul f | vfma f | vfms f | vmin f | vmax f | vabs f | vneg f | vand f | vor f | vxor f | vshl f
  | vshr f | vsra f | vcmp f | vcvt f | vrq f | vexp2 f | vtanh f | vlgst f | vrcp f | vrsqrt f | vredsum f | vredmax f
  | vredmin f | vstat f | vperm f | vbcast f | vmov f | vsel f | vslide f | vld f | vst f | vgth f | vsct f | vamo f
  | vunp3 f | vtacc f | vdp8 f | vpack f | vwide f | vxadd f | vxcvt f =>
    cases hc
    exact decode_encV (eq_of_beq hwf) fun w h => by rw [decodeV, h]; rfl
  | mcall f | mpset f | mzero f | mdrain f | mmode f | mgsel f | mwr f | mwait f | mrsum f =>
    cases hc
    exact decode_encM (eq_of_beq hwf) fun w h => by rw [decodeM, h]; rfl
  | cp f | cpm f | cpg f | cps f | cpa f | cdld f | cpw f | rgcfg f | rgpost f | rgfree f | sbind f | sfree f | sqfill f =>
    cases hc
    exact decode_encC (eq_of_beq hwf) fun w h => by rw [decodeC, h]; rfl
  | mGemm f | mGemmR f | mConv f | mConvR f | mAttn f | mAttnR f | mSort f | mSortR f | mGath f | mGathR f | mScat f
  | mScatR f | mNorm f | mNormR f | mKern f | mKernR f | mRcpy f | mRcpyR f | mRinit f | mRinitR f | mStat f
  | cAred f | cAredR f | cAgat f | cAgatR f | cRsct f | cRsctR f | cA2a f | cA2aR f | cBcst f | cBcstR f | cSend f
  | cSendR f | cRecv f | cRecvR f | cBar f | cBarR f | mWait | mResume | mKill | mFence | gForm | gFree | xSleep | xMon
  | xMwait | tqPop | tqAck =>
    cases hc
    exact decode_encX (by decide) fun w h h7 h3 hx => by rw [decodeCtl, h, h7, h3, hx]; rfl
  | riscvInstruction w =>
    cases hc
    exact congrArg some (decodeAtPc_riscv hwf)
  | _ => cases hc

/-- Settles O58: an instruction's code reads back by the row of its operation, and what a slot's row reads has the word
for its code. -/
theorem encodingsRoundTrip : Obligations.EncodingsRoundTrip := by
  refine ⟨fun i c => decode_encode, fun i c hctl hc => ?_⟩
  cases c with
  | s w e => exact (faithful_decodeS w e).of_slotInstr hc
  | v w => exact (faithful_decodeV w).of_slotInstr hc
  | m w => exact (faithful_decodeM w).of_slotInstr hc
  | c w => exact (faithful_decodeC w).of_slotInstr hc
  | ctl w => exact absurd rfl (hctl w)

/-- Settles O57: each word is the code of its well-formed operation, which the round trip decodes. -/
theorem specEncodingsDecode : Obligations.SpecEncodingsDecode :=
  ⟨decode_encode rfl rfl, decode_encode rfl rfl, decode_encode rfl rfl, decode_encode rfl rfl, decode_encode rfl rfl,
    decode_encode rfl rfl, decode_encode rfl rfl, decode_encode rfl rfl, decode_encode rfl rfl, decode_encode rfl rfl,
    decode_encode rfl rfl, decode_encode rfl rfl, decode_encode rfl rfl⟩

end Sys2Proof.Encodings
end

section
/-! PROOFS. What `sel`, the immediates, the compares and the predicate logic deliver (O2), each by the law of an operation
that puts one result on its way. -/

namespace Sys2Proof.ScalarResults

open Sys2Proof Sys2Proof.Machine Sys2Proof.Claims

/-- The conditions as the model computes them are those of R155 by their codes. -/
theorem condition_eq_holdsCond (cc : BitVec 3) (x y : Word) : condition cc x y = holdsCond cc x y := by
  have hcc : cc = 0 ∨ cc = 1 ∨ cc = 2 ∨ cc = 3 ∨ cc = 4 ∨ cc = 5 ∨ cc = 6 ∨ cc = 7 := by
    revert cc; decide
  rcases hcc with rfl | rfl | rfl | rfl | rfl | rfl | rfl | rfl <;> simp [condition, holdsCond] <;> rfl

/-- R153: `sel` writes whether or not its guard holds. -/
theorem exec_sel {f : SR} {s : State} (hc : canIssue (.sel f) s = true) :
    ∃ t, exec (.sel f) s = .next t ∧ SlotDone s t (sResult (curCore s) f.sd.toNat
      (if pRead (bump s) f.pg.toNat ^^ (f.pn == 1) then sRead (bump s) f.sa.toNat else sRead (bump s) f.sb.toNat) 1) :=
  issueSlot_s hc rfl rfl

/-- R154: an immediate operation delivers its function of s[sa] and of its extended immediate. -/
theorem exec_immediateOp {p : (SI → Instr) × (SI → Word → Word → Word)} (hp : p ∈ immediateOps) {f : SI} {s : State}
    (hc : canIssue (p.1 f) s = true) :
    ∃ t, exec (p.1 f) s = .next t ∧
      SlotDone s t (sResult (curCore s) f.sd.toNat (p.2 f (sRead (bump s) f.sa.toNat) (immOf f.imm f.ext)) 1) := by
  simp only [immediateOps, List.mem_cons, List.not_mem_nil, or_false] at hp
  rcases hp with rfl | rfl | rfl | rfl | rfl | rfl | rfl | rfl <;> exact issueSlot_s hc rfl rfl

/-- R154: `lih` keeps the low half of its own destination. -/
theorem exec_lih {f : SI} {s : State} (hc : canIssue (.lih f) s = true) :
    ∃ t, exec (.lih f) s = .next t ∧ SlotDone s t (sResult (curCore s) f.sd.toNat
      ((immOf f.imm f.ext).extractLsb' 0 32 ++ (sRead (bump s) f.sd.toNat).extractLsb' 0 32) 1) :=
  issueSlot_s hc rfl rfl

/-- R155, between two registers. -/
theorem exec_cmp {f : SCR} {s : State} (hc : canIssue (.cmp f) s = true) :
    ∃ t, exec (.cmp f) s = .next t ∧ SlotDone s t (pResult (curCore s) f.pd.toNat
      (holdsCond f.cc (sRead (bump s) f.sa.toNat) (sRead (bump s) f.sb.toNat))) := by
  rw [← condition_eq_holdsCond]
  exact issueSlot_p hc rfl rfl

/-- R155, between a register and the extended immediate. -/
theorem exec_cmpi {f : SCI} {s : State} (hc : canIssue (.cmpi f) s = true) :
    ∃ t, exec (.cmpi f) s = .next t ∧ SlotDone s t (pResult (curCore s) f.pd.toNat
      (holdsCond f.cc (sRead (bump s) f.sa.toNat) (immOf f.imm f.ext))) := by
  rw [← condition_eq_holdsCond]
  exact issueSlot_p hc rfl rfl

/-- R156. -/
theorem exec_plog {f : SP} {s : State} (hc : canIssue (.plog f) s = true) :
    ∃ t, exec (.plog f) s = .next t ∧ SlotDone s t (pResult (curCore s) f.pd.toNat
      (f.tt.getLsbD ((if pRead (bump s) f.pa.toNat then 2 else 0) + if pRead (bump s) f.pb.toNat then 1 else 0))) :=
  issueSlot_p hc rfl rfl

/-- Settles O2: each operation's effect puts one result on its way, which is all that an operation that issues does. -/
theorem selImmediatesComparesAndPredicateLogic : Obligations.SelImmediatesComparesAndPredicateLogic :=
  ⟨⟨fun _ _ => exec_sel, fun _ hp _ _ => exec_immediateOp hp, fun _ _ => exec_lih⟩,
    fun _ _ => exec_cmp, fun _ _ => exec_cmpi, fun _ _ => exec_plog⟩

end Sys2Proof.ScalarResults
end
